-- ==== Sys2Proof/Word.lean ====
section
/-! DEFINITION. The word types of the HKD-2460 and the plainest arithmetic on them: bytes, bit fields of a
little-endian record (R4), saturating counts, and the two halves of a module (R16). -/

namespace Sys2Proof

/-- A byte of memory. -/
abbrev Byte := BitVec 8

/-- A 32-bit word: a gate, a detail word, an FP32 code. -/
abbrev Word32 := BitVec 32

/-- A 64-bit word: a register as REG_READ returns it (R79). -/
abbrev Word64 := BitVec 64

/-- The two halves of a module (R16): Queenside is partition 0, Kingside partition 1. -/
inductive Half where
  | q
  | k
deriving DecidableEq, Repr

/-- The partition number of a half (R16). -/
def Half.part : Half → Nat
  | .q => 0
  | .k => 1

/-- The half a partition bit names (R16). -/
def Half.ofPart (n : Nat) : Half := if n % 2 = 0 then .q else .k

/-- The half on the other side of the Siphon. -/
def Half.other : Half → Half
  | .q => .k
  | .k => .q

/-- Bits [lo+width-1:lo] of a record held as one number with bit 0 the least significant bit of byte 0 (R4). -/
def bits (r lo width : Nat) : Nat := (r >>> lo) % 2 ^ width

/-- One bit of a record. -/
def bitSet (r i : Nat) : Bool := bits r i 1 == 1

/-- A field of `width` bits read as two's complement. -/
def signed (v width : Nat) : Int := if v < 2 ^ (width - 1) then (v : Int) else (v : Int) - (2 ^ width : Nat)

/-- The low `width` bits of an integer, two's complement. -/
def unsigned (v : Int) (width : Nat) : Nat := (v % ((2 ^ width : Nat) : Int)).toNat

/-- A value placed at bit `lo`, cut to `width` bits. -/
def place (v lo width : Nat) : Nat := (v % 2 ^ width) <<< lo

/-- A number whose field at `lo` of `width` bits is replaced by `v`. -/
def setBits (r lo width v : Nat) : Nat :=
  r - (bits r lo width) <<< lo + place v lo width

/-- `a / b` rounded up. -/
def ceilDiv (a b : Nat) : Nat := (a + b - 1) / b

/-- `a` rounded up to a multiple of `b`. -/
def roundUp (a b : Nat) : Nat := ceilDiv a b * b

/-- The largest 32-bit count, at which counters saturate. -/
def max32 : Nat := 0xFFFFFFFF

/-- A count cut at 0xFFFFFFFF, as detail words and counters saturate. -/
def sat32 (n : Nat) : Nat := min n max32

/-- The number of bits set in the low `n` bits of `m`. -/
def popCount (m : Nat) : Nat → Nat
  | 0 => 0
  | n + 1 => popCount m n + bits m n 1

/-- The indices below `n` whose bit is set in `m`, ascending. -/
def bitIndices (m n : Nat) : List Nat := (List.range n).filter fun i => bitSet m i

/-- Do the byte ranges [a, a+n) and [b, b+k) share a byte? -/
def overlaps (a n b k : Nat) : Bool := a < b + k && b < a + n && n != 0 && k != 0

/-- Little-endian bytes of a number (R4). -/
def toBytes : Nat → Nat → List Byte
  | 0, _ => []
  | n + 1, v => BitVec.ofNat 8 v :: toBytes n (v / 256)

/-- The number that little-endian bytes spell (R4). -/
def ofBytes : List Byte → Nat
  | [] => 0
  | b :: bs => b.toNat + 256 * ofBytes bs

/-- Torus position y × 64 + x (R45). -/
def position (x y : Nat) : Nat := y * 64 + x

end Sys2Proof
end

