-- ==== Sys2Proof/Syntax.lean ====
section
/-! DEFINITION. The commands of the HKD-2460: one constructor per row of the opcode table.

A row of the table is of one of four kinds, and its operands follow its kind.
* A software command (NOP to ATTEST). Its packet lies in a ring; ADMISSION gives it an identity, and the row names that
  identity. The row is the engine's work on the admitted command.
* A register write with an effect of its own. The row names the half and what is written.
* A tile op. The row names the global tile whose sequencer or engine takes the op.
* An event. The row carries what arrives from outside the model: a frame, a sensor reading, a pin, an expiry. -/

namespace Sys2Proof

/-- A ring of a half: its management ring, or ring `n` of the context `c` (R80, R81). -/
inductive RingRef where
  | mgmt
  | ctx (c n : Nat)
deriving DecidableEq, Repr

/-- What a ROW frame of the two embedding chapters carries (R290, R291, R317, R318, R329). -/
inductive RowBody where
  /-- No row body. -/
  | none
  /-- A request for rows of a table. -/
  | request (table : Nat) (rows : List Nat)
  /-- A row's bytes, or its absence (a miss of R330). -/
  | reply (table row : Nat) (bytes : List Nat)
  /-- A fixed-point partial of an EXACT_SUM contribution: one 64-bit sum per element, and the positions behind it. -/
  | exactSum (table row positions : Nat) (partials : List Int)
  /-- A touched-row contribution of STAGED mode: key of the contribution and its gradient codes. -/
  | staged (table row key : Nat) (values : List Nat)
  /-- A copied row of a migration with its companions (row, master and moments) and, in EXACT_SUM, COUNT, touched bit and shadow. -/
  | copy (table row : Nat) (bytes : List Nat) (shadow : List Int)
deriving DecidableEq, Repr

/-- A link frame (R378): the fields of its header and its payload bytes (empty when PAYLOAD is 0). Elements of a collective
frame that no contribution reached are `none` in `elems`. -/
structure Frame where
  /-- TYPE (R379). -/
  type : Nat
  /-- VC (R381). -/
  vc : Nat := 0
  /-- DST_POS. -/
  dst : Nat := 0
  /-- SRC_POS. -/
  src : Nat := 0
  /-- CTX_ID. -/
  ctx : Nat := 0
  /-- MGMT. -/
  mgmt : Bool := false
  /-- CTX_GEN. -/
  gen : Nat := 0
  /-- SEAL. -/
  crc : Nat := 0
  /-- E2E_SEQ. -/
  seq : Nat := 0
  /-- ADDR. -/
  addr : Nat := 0
  /-- ARG. -/
  arg : Nat := 0
  /-- LINK_VER. -/
  ver : Nat := 1
  /-- The payload block, one number below 256 for each byte. -/
  data : List Nat := []
  /-- The element values of a COLLECTIVE frame (R396). -/
  elems : List (Option Nat) := []
  /-- Contributions behind the elements of a COLLECTIVE frame (R396, R397). -/
  present : Nat := 0
  /-- Scalars of the statistics that a gather phase carries (R402): rank, OWN_SQ of a present contribution, block value. -/
  stats : List (Nat × Option Nat × Nat) := []
  /-- The body of a ROW frame. -/
  row : RowBody := .none
deriving DecidableEq, Repr

/-- The commands of the block, in the order of the opcode table. -/
inductive Instr where
  -- control commands
  | nop (id : Nat)
  | queryGeometry (id : Nat)
  | regRead (id : Nat)
  | regWrite (id : Nat)
  | configCommit (id : Nat)
  | gateSet (id : Nat)
  | hangReportGraph (id : Nat)
  | hangReportReadCollected (id : Nat)
  | freezeArmAtStroke (id : Nat)
  | freezeArmOnSource (id : Nat)
  | freezeArmRelease (id : Nat)
  | gaugeRead (id : Nat)
  | traceCtlStart (id : Nat)
  | traceCtlStop (id : Nat)
  | traceCtlReset (id : Nat)
  | traceCtlClearAttr (id : Nat)
  -- contexts and rings
  | ctxDefine (id : Nat)
  | ctxSwitch (id : Nat)
  | ctxTeardown (id : Nat)
  | ctxRelease (id : Nat)
  | ringDefine (id : Nat)
  | ringDelete (id : Nat)
  | mapWrite (id : Nat)
  -- tiles
  | tileProgramLoad (id : Nat)
  | tileRun (id : Nat)
  | matmul (id : Nat)
  | vector (id : Nat)
  | scaleLoadSet (id : Nat)
  | scaleLoadAdvance (id : Nat)
  | scaleLoadClearOvf (id : Nat)
  | scaleRead (id : Nat)
  -- movers
  | move (id : Nat)
  | gatherBlocks (id : Nat)
  | scatterBlocks (id : Nat)
  -- curvature and solvers
  | gramReduce (id : Nat)
  | root (id : Nat)
  | ortho (id : Nat)
  | solveBatch (id : Nat)
  -- update unit
  | update (id : Nat)
  | reconcile (id : Nat)
  | shardDigestCompute (id : Nat)
  | shardDigestComputeCompare (id : Nat)
  | shardDigestCompareRecord (id : Nat)
  -- embedding
  | tableDefine (id : Nat)
  | tableDelete (id : Nat)
  | lookup (id : Nat)
  | hotsetLoad (id : Nat)
  | embGrad (id : Nat)
  | embFold (id : Nat)
  | embFoldDiscard (id : Nat)
  | rowMigrate (id : Nat)
  -- weights
  | weightStreamStore (id : Nat)
  | weightStreamVerify (id : Nat)
  | epochSwitchCreate (id : Nat)
  | epochSwitchMakeCurrent (id : Nat)
  | epochSwitchBind (id : Nat)
  | epochSwitchRelease (id : Nat)
  | epochSwitchDrop (id : Nat)
  -- collectives
  | reduceScatter (id : Nat)
  | allGather (id : Nat)
  | allReduce (id : Nat)
  -- checkpoints
  | ckptSlotDefine (id : Nat)
  | ckptSlotHold (id : Nat)
  | ckptSlotRelease (id : Nat)
  | ckptSlotDelete (id : Nat)
  | preserve (id : Nat)
  | unpreserve (id : Nat)
  | hwmReset (id : Nat)
  | neighbourCkptWrite (id : Nat)
  | neighbourCkptVerify (id : Nat)
  | neighbourRestore (id : Nat)
  -- firmware
  | fwStageHeader (id : Nat)
  | fwStageBody (id : Nat)
  | fwStageWrite (id : Nat)
  | fwStageAbort (id : Nat)
  | fwActivate (id : Nat)
  | settingsWriteBegin (id : Nat)
  | settingsWriteData (id : Nat)
  | settingsWriteEnd (id : Nat)
  | settingsWriteAbort (id : Nat)
  | settingsConfirm (id : Nat)
  | attestMeasure (id : Nat)
  | attestSign (id : Nat)
  | attestIdentity (id : Nat)
  -- register writes with an effect of their own
  | stuEpochOffsetWrite (h : Half) (value : Nat)
  | fclStickyAck (h : Half) (source : Nat)
  | fclForce (h : Half) (source : Nat)
  -- tile ops
  | tileEnd (tile : Nat)
  | tileNop (tile : Nat)
  | gateWait (tile : Nat)
  | loop (tile : Nat)
  | aadd (tile : Nat)
  | aset (tile : Nat)
  | mma (tile : Nat)
  | mdrain (tile : Nat)
  | vadd (tile : Nat)
  | vmul (tile : Nat)
  | vfma (tile : Nat)
  | vmax (tile : Nat)
  | vmin (tile : Nat)
  | vsel (tile : Nat)
  | vexp2 (tile : Nat)
  | vlog2 (tile : Nat)
  | vrcp (tile : Nat)
  | vrsqrt (tile : Nat)
  | vcvt (tile : Nat)
  | vlred (tile : Nat)
  | vxred (tile : Nat)
  | vmov (tile : Nat)
  | ld (tile : Nat)
  | st (tile : Nat)
  | gtgt (tile : Nat)
  | gzero (tile : Nat)
  -- the command pipeline
  | headCheck (h : Half) (r : RingRef)
  | examination (h : Half) (r : RingRef)
  | admission (h : Half)
  | commandComplete (id : Nat)
  | commandSuspend (id : Nat)
  | doorbell (f : Frame)
  | doorbellRelay (f : Frame)
  | ringWrite (f : Frame)
  | spurReadReq (f : Frame)
  -- cistern and power domains
  | cscSample (h : Half) (millivolts milliamps : Nat) (meters : List (Nat × Nat))
  | windowStart (h : Half) (hottest : Nat)
  | windowEnd (h : Half)
  | idleGating (h : Half) (domain : Nat)
  | domainWake (h : Half) (domain : Nat)
  -- stroke time; the port of a word is one of the torus, or 8 for the Siphon (R44, R47)
  | strokeExchangeSend (h : Half) (port subcount : Nat)
  | strokeExchangeReceive (h : Half) (port arrival word : Nat)
  | strokeRefEdge (subcount : Nat)
  -- scheduled events
  | freeze (h : Half)
  | routeCommit (h : Half)
  | configCommitFire (h : Half)
  | firmwareActivation (h : Half)
  | activationHeartbeatCheck (h : Half) (signalled : Bool)
  -- siphon
  | siphonDown
  | siphonLaneRepair
  | siphonRetry (h : Half)
  | siphonTrainingRequest (h : Half)
  | siphonTrainingTimeout
  | siphonActive
  | siphonBlockReceive (h : Half) (dpa : Nat) (block : List Nat) (crc : Nat) (id : Nat)
  | mirroredCommand (id : Nat)
  | remoteGateSignal (h : Half)
  -- links
  | capabilityExchange (h : Half) (port record : Nat)
  | portDown (h : Half) (port cause : Nat)
  | portRetrain (h : Half) (port : Nat)
  | linkReplay (h : Half) (port : Nat)
  | frameForward (h : Half) (port : Nat) (f : Frame)
  | creditReturn (h : Half) (port vc units : Nat)
  | readReq (h : Half) (port : Nat) (f : Frame)
  | readResp (h : Half) (port : Nat) (f : Frame)
  | write (h : Half) (port : Nat) (f : Frame)
  | ack (h : Half) (port : Nat) (f : Frame)
  | ackSend (h : Half) (src : Nat)
  | nack (h : Half) (port : Nat) (f : Frame)
  | rowRequest (h : Half) (port : Nat) (f : Frame)
  | rowReply (h : Half) (port : Nat) (f : Frame)
  | exactSumPartial (h : Half) (port : Nat) (f : Frame)
  | stagingRecord (h : Half) (port : Nat) (f : Frame)
  | migrationCopy (h : Half) (port : Nat) (f : Frame)
  | collectiveFrame (h : Half) (port : Nat) (f : Frame)
  | collectiveDescriptorFrame (h : Half) (port : Nat) (f : Frame)
  | stream (h : Half) (port : Nat) (f : Frame)
  | streamAbort (h : Half) (port : Nat) (f : Frame)
  | digestMessage (h : Half) (port : Nat) (f : Frame)
  | digestVerdict (h : Half) (port : Nat) (f : Frame)
  | teardownNotice (h : Half) (port : Nat) (f : Frame)
  | faultBroadcast (h : Half) (source : Nat)
  | freezeNotice (h : Half) (port : Nat) (f : Frame)
  | routeChangeNotice (h : Half) (port : Nat) (f : Frame)
  -- faults
  | faultOccurrence (h : Half) (source id : Nat)
  | wireFault (h : Half) (source : Nat)
  | escalation (h : Half)
  | watchdogExpiry (id : Nat)
  | heartbeatMissed (h : Half) (core : Nat)
  | groupOverLimit (tile : Nat)
  | collectionEnd (h : Half)
  | teardownStop (id : Nat)
  | scrubComplete (h : Half) (ctx : Nat)
  | mapDrain (h : Half) (ctx : Nat)
  | quiesceComplete
  | saveComplete
  | restoreComplete
  -- deadlines and background work
  | captureFold (die : Nat)
  | solveDeadline (id : Nat)
  | collectiveDeadline (h : Half) (tag : Nat)
  | hotsetRefresh (die : Nat)
  | sketchAging (die : Nat)
  | wellheadDegraded (die way : Nat)
  | migrationSwitch (h : Half) (table : Nat)
  | migrationForwarding (h : Half) (table : Nat)
  | migrationRetire (h : Half) (table : Nat)
  | rowMoveComplete (die row : Nat)
  | patrol (h : Half) (stack block corrected : Nat)
  | traceGap (h : Half)
  -- power and start-up
  | pwrEnRise
  | pwrEnFall
  | powerFail (millivolts : Nat)
  | powerRestart
  | refclkLoss
  | railFail (rail : Nat)
  | thermalTrip (h : Half) (celsius : Nat)
  | halfResetNAssert (h : Half)
  | halfResetNRelease (h : Half)
  | modResetNAssert
  | alwaysOnEntry (h : Half)
  | romEntry (h : Half) (bootSel : Nat) (secretRecovered : Bool)
  | loaderBoot (h : Half)
  | firmwareStart (h : Half)
  | trainingStepTimeout (h : Half) (port : Nat)
  | strokeParentTimeout (h : Half)
  | halfReady (h : Half)
  | recoveryImageWritten (h : Half)
  | spurRecoveryStream (f : Frame)
  -- management port
  | mgmtStatus (address : Nat)
  | mgmtPacket (address : Nat) (packet : List Nat)
  | mgmtPacketEnqueue (h : Half)
  | mgmtReply (address part : Nat)
  | mgmtRecovery (address part offset : Nat) (bytes : List Nat)
  | rstdaa (address : Nat)
  | setdasa (address dynamic : Nat)
  | setaasa
  | enec (address : Nat)
  | disec (address : Nat)
  | getstatus (address : Nat)
  | getbcr (address : Nat)
  | getdcr (address : Nat)
  | getmwl (address : Nat)
  | getmrl (address : Nat)
  | setmwl (address length : Nat)
  | setmrl (address length : Nat)
  | rstact (address action : Nat)
  -- test access port
  | tapReset
  | bypass
  | idcode
  | samplePreload (preload : Nat)
  | extest
  | clamp
  | highz
  -- the stroke and the remaining triggers
  | strokeIncrement (h : Half)
  | trainingFailed (h : Half)
  | siphonFlitRetry (h : Half)
  | pwrEnHoldoffEnd
  | diesCooled
deriving DecidableEq, Repr

end Sys2Proof
end

