-- ==== Sys2Proof/Config.lean ====
section
/-! DEFINITION. What an H1 module fixes (the Device Geometry Table of R2) and the free values: constants with no body, for the
values the spec leaves open. Nothing in Lean can evaluate an opaque constant here, so a statement holds for every value of it.
Each free value has a row in notes/assumptions/. -/

namespace Sys2Proof.Config

/-! ## The geometry of H1 (R2) -/

/-- Tiles per compute die (R2). -/
def tilesPerCd : Nat := 48
/-- Compute dies per half (R2). -/
def cdPerHalf : Nat := 4
/-- Defined contexts (R2). -/
def contexts : Nat := 16
/-- Command rings per context (R2). -/
def ringsPerCtx : Nat := 32
/-- FP8 scale slots per context (R2). -/
def scaleSlots : Nat := 4096
/-- TST per tile in KiB (R2). -/
def tstKib : Nat := 4096
/-- TRF per tile in KiB (R2). -/
def trfKib : Nat := 256
/-- Wellhead per compute die in MiB (R2). -/
def wellheadMib : Nat := 32
/-- Capacity per stack in GiB (R2). -/
def stackGib : Nat := 64
/-- Longest sequence for attention-class operators (R2, R415). -/
def maxSeq : Nat := 524288
/-- Architecture generation of this part: H1 (R2). -/
def archGen : Nat := 1
/-- The protocol version H1 implements (R88). -/
def protocolVersion : Nat := 1

/-- The 64-byte Device Geometry Table an H1 module reports (R2), as one little-endian number. -/
def geometry : Nat :=
  place 0x01 0 8 + place archGen 8 8 + place 2 16 4 + place cdPerHalf 20 4 + place 1 24 4 + place 3 28 4
  + place tilesPerCd 32 8 + place contexts 40 8 + place 4 48 8 + place 8 56 8
  + place tstKib 64 16 + place trfKib 80 16 + place wellheadMib 96 16 + place stackGib 112 16
  + place 0x20 128 16 + place 0x800 144 16 + place 0x3200 160 16 + place 0x3AC 176 16
  + place 1 192 8 + place ringsPerCtx 200 8 + place scaleSlots 208 16 + place maxSeq 224 32

/-! ## Free values -/

/-- A byte of memory whose contents the spec calls undefined, by the stamp of the act that left it so and its address
(staging regions, R134, R152; partial areas, R214; a restore that failed, R421). -/
opaque freeByte : Nat → Nat → Byte

/-- A free 32-bit word, drawn by the state's counter of free values. -/
opaque freeWord : Nat → Word32

/-- Choice of the output bits of VEXP2, VLOG2, VRCP and VRSQRT inside the accuracy bound of R142: op code and input bits. -/
opaque functionChoice : Nat → Nat → Nat

/-- FJ_PER_UNIT of an energy class of a half, by boot count, as calibration gives it (R60). -/
opaque calibratedFj : Nat → Nat → Nat → Word32

/-- BASE_MJ of a half, by boot count, as calibration gives it (R60). -/
opaque calibratedBase : Nat → Nat → BitVec 16

/-- Does calibration of an energy class of a half succeed, by boot count (R60)? -/
opaque calibrationOk : Nat → Nat → Nat → Bool

/-- The 256-bit root secret of a half's silicon (R473). -/
opaque rootSecret : Nat → Nat

/-- ROM_VERSION of the part (R491). -/
opaque romVersion : BitVec 8

/-- The loader version in force when no loader image has been written (R476, R491). -/
opaque loaderVersion : BitVec 16

/-- The first 256 bits of the resident loader's BODY_DIGEST (R491). -/
opaque loaderDigest : Nat

/-- Ed448ph verification under a ROM image-signing key slot (R474, R475): key slot, message, signature. -/
opaque imageSignatureOk : Nat → Nat → Nat → Bool

/-- Ed448ph signature under a key derived from a half's root secret (R473, R474): half, key label, message. -/
opaque sign : Nat → String → Nat → Nat

/-- The Ed448 public key of a half's ID key, 456 bits (R491). -/
opaque idPublicKey : Nat → Nat

/-- Does the wrapped content key of a header unwrap under the transit key, and do GCM decryption and the tag agree (R475, R476)?
Header and ciphertext. -/
opaque gcmTagOk : Nat → List Byte → Bool

/-- SHAKE256 of a byte string to a number of output bits (R473, R475). -/
opaque shake256 : List Byte → Nat → Nat

/-- The Bus Characteristics Register of the management port (R508 names the CCC and gives no value). -/
opaque i3cBcr : Byte

/-- The Device Characteristics Register of the management port (R508). -/
opaque i3cDcr : Byte

/-- GETSTATUS of the management port (R508), by the free-value counter. -/
opaque i3cStatus : Nat → BitVec 16

/-- Default coefficients of the energy classes, which apply when no settings record holds a fallback (R60, R486). -/
opaque defaultFj : Nat → Word32

/-- Redundant lanes of the Siphon after the first (R22 leaves their number to UCIe). -/
opaque siphonMoreSpares : Nat

/-- Redundant lanes of the Siphon, both directions together: R22 has them, so there is one. -/
def siphonSpares : Nat := siphonMoreSpares + 1

/-- Entries of a settings record converted from one revision to another (R486 does not say how): from, to, entries. -/
opaque convertEntries : Nat → Nat → List (Nat × Nat) → List (Nat × Nat)

end Sys2Proof.Config
end

