-- ==== Sys2Proof/Machine/State.lean ====
section
/-! DEFINITION. The state of an HKD-2460 module as plain data, and the module right after reset.

A module is two halves (R16) that share one address space (R35). What R17 and R18 give each half a copy of lies in `HalfState`;
what the module has once lies in `State`. Registers with field maps live in one table for each half, keyed by block, die, unit
and index (R79); a register nothing has written reads as its reset value. -/

namespace Sys2Proof.Machine

/-- A sparse table of numbers, keys ascending; what is not listed reads as the table's default. -/
abbrev Table := List (Nat × Nat)

/-! ## Memory -/

/-- A range whose contents the spec calls undefined, left so by one act: unlisted bytes in it are free values. -/
structure Veil where
  lo : Nat
  hi : Nat
  stamp : Nat
deriving DecidableEq, Repr

/-- The memories of the module: HBM and TST by device physical address (R35), and the TRF above them. -/
structure Mem where
  /-- Bytes that differ from what an unlisted address reads as; addresses strictly rising. -/
  cells : List Host.Cell := []
  /-- Ranges of undefined contents; the first that holds an address governs it. -/
  veils : List Veil := []
  /-- HBM blocks (address ÷ 256) whose seal does not match their contents (R352). -/
  badBlocks : List Nat := []
  /-- HBM lines with an ECC error that cannot be corrected, by DPA ÷ 64 (R338). -/
  badEcc : List Nat := []
  /-- TST lines (address ÷ 64) whose line CRC does not match (R350). -/
  badLines : List Nat := []
deriving DecidableEq, Repr

/-! ## Commands -/

/-- The outcome of a command: the status and detail words of R73, R74, and the payload units written back (R76). -/
structure Result where
  status : Nat := 0
  d0 : Nat := 0
  d1 : Nat := 0
  d2 : Nat := 0
  payload : Option (List Nat) := none
  /-- Gates are signalled (R13, R99). -/
  signals : Bool := true
deriving DecidableEq, Repr

/-- A record read at examination (R518): its address, its length in bytes and its contents as one number. -/
structure Rec where
  cxa : Nat
  len : Nat
  value : Nat
deriving DecidableEq, Repr

/-- What examination found (R518): the records read, the work of the command's energy class in each half, and an end that came
of examination itself (OK_EMPTY, or ERR_INTEGRITY of a record). -/
structure Exam where
  records : List Rec := []
  workHome : Nat := 0
  workOther : Nat := 0
  ended : Option Result := none
  /-- It will end with OK_EMPTY although it has an effect, and so takes no energy test (R106, R306). -/
  untested : Bool := false
  /-- Memory-and-embedding domains in which its operands lie, by global number (R68). -/
  domains : List Nat := []
deriving DecidableEq, Repr

/-- A Gram target that GTGT latched (R212, R213): first TST line, lines between windows, accumulate, and the window counter w. -/
structure GramTarget where
  line : Nat
  stride : Nat
  accum : Bool
  window : Nat
deriving DecidableEq, Repr

/-- What the sequencer knows of an accumulator buffer at decode (R118, R121): opened in this TILE_RUN, open, INT32, strict mode. -/
structure Group where
  opened : Bool := false
  isOpen : Bool := false
  int : Bool := false
  strict : Bool := false
deriving DecidableEq, Repr

/-- An op in an issue queue (R113, R114): its place in program order, its queue (0 MXE, 1 VXE, 2 MOV), its word, and what decode
fixed: the address registers, the accumulation group of its buffer and the Gram target before it. -/
structure QueuedOp where
  seq : Nat
  queue : Nat
  word : Nat
  areg : List Nat
  group : Group := {}
  target : Option GramTarget := none
deriving DecidableEq, Repr

/-- The sequencer of one tile running a program (R114 to R121, R129): the word to decode next, address registers, the loop stack
(first word, last word, iterations left; innermost first), the queues, both accumulator buffers (32 × 32 codes, row m first) and
their groups, the Gram target, and how much of the program is done. -/
structure TileRun where
  pc : Nat
  areg : List Nat
  loops : List (Nat × Nat × Nat) := []
  seq : Nat := 0
  queued : List QueuedOp := []
  acc0 : List Nat := []
  acc1 : List Nat := []
  group0 : Group := {}
  group1 : Group := {}
  /-- Buffers that hold an open group now: an MMA into them has executed, and no MDRAIN of them since (R121, R130). -/
  open0 : Bool := false
  open1 : Bool := false
  target : Option GramTarget := none
  /-- END has been decoded with all queues drained. -/
  ended : Bool := false
  /-- MXE_TRF_CONFLICTS increments so far, and the run length in cycles once it has ended. -/
  conflicts : Nat := 0
  cycles : Nat := 0
deriving DecidableEq, Repr

/-- A wide scalar of the solver (R241): m × 2^e, with m zero or of magnitude 2³⁰ to 2³¹ − 1. -/
structure Wide where
  m : Int
  e : Int
deriving DecidableEq, Repr

/-- Preconditioner factors of a diagonal block (R241, R242): first row, block exponent, rows of L below the diagonal, and |d|⁻¹. -/
structure PreBlock where
  first : Nat
  exp : Int
  lower : List (List Int)
  dinv : List Int
deriving DecidableEq, Repr

/-- Vectors and scalars of CG between iterations (R243). -/
structure CgState where
  x : List Int
  p : List Int
  r : List Int
  rz : Wide
  bn2 : Wide
  best : List Int
  best2 : Wide
  bestK : Nat
deriving DecidableEq, Repr

/-- Vectors and scalars of MINRES between iterations (R244). -/
structure MinresState where
  x : List Int
  y : List Int
  r1 : List Int
  r2 : List Int
  w : List Int
  w2 : List Int
  beta : Wide
  oldb : Wide
  bnorm : Wide
  phibar : Wide
  cs : Wide
  sn : Wide
  dbar : Wide
  epsln : Wide
deriving DecidableEq, Repr

/-- The iteration of a loaded problem. -/
inductive Iterate where
  | cg (s : CgState)
  | minres (s : MinresState)
deriving DecidableEq, Repr

/-- A loaded problem (R235 to R245): its place for x, matrix rows as (column, code at exponent −31), factors, exponents, fingerprint,
flags and counts of its result record, iterations completed, and its iteration. -/
structure Loaded where
  xCxa : Nat
  rows : List (List (Nat × Int))
  blocks : List PreBlock
  e : Int
  sigma : Int
  print : Nat
  saturated : Bool
  pivots : Nat
  negPivot : Bool
  warmUsed : Bool
  warmRejected : Bool
  k : Nat
  it : Iterate
deriving DecidableEq, Repr

/-- A problem in flight: its index in the batch, and what its load gave (R248). -/
structure Problem where
  index : Nat
  data : Option Loaded := none
deriving DecidableEq, Repr

/-- The work of one CSE on a batch (R248): its global die, the problems in flight in ascending index, the next to join, and the place
in the round. -/
structure CseRun where
  die : Nat
  flight : List Problem
  next : Nat
  place : Nat := 0
deriving DecidableEq, Repr

/-- A verdict that a replica has received (R274): the frame that brought it, the primary's digest, MISMATCHES, DIFFER, POLICY. -/
structure Verdict where
  src : Nat
  seq : Nat
  digest : Nat
  mismatches : Nat
  differ : Nat
  halt : Bool
deriving DecidableEq, Repr

/-- A weight stream under way (R355, R358 to R364): its place on the WSE, the wire bytes received, the next block, how many
elements of each keep entry are written, and what quantisation reports: overflow events. -/
structure StreamRun where
  place : Nat
  wire : List Nat := []
  next : Nat := 0
  kept : Table := []
  overs : Nat := 0
deriving DecidableEq, Repr

/-! ## Embedding tables -/

/-- A shard-map entry (R284): first row, torus position and global die of the owner, CXA of its first row. -/
structure Shard where
  first : Nat
  pos : Nat
  die : Nat
  cxa : Nat
deriving DecidableEq, Repr

/-- A migration of a range of rows (R327 to R330): the new entry, the rows, the stroke of the switch, the command here that takes
part, the range's state at the source (0 COPYING, 1 FORWARDING, 2 RETIRED), whether routing has changed, counts of the source, and
the rows that have arrived at the destination. -/
structure Move where
  target : Shard
  source : Shard
  count : Nat
  stroke : Nat
  cmd : Nat
  phase : Nat := 0
  switched : Bool := false
  /-- The participant here could not complete (R331). -/
  failed : Bool := false
  copied : Nat := 0
  forwarded : Nat := 0
  records : Nat := 0
  arrived : List Nat := []
deriving DecidableEq, Repr

/-- Staging of an entry (R318): bytes in use, and OVERFLOWED. -/
structure Staged where
  cxa : Nat
  used : Nat
  overflowed : Bool := false
deriving DecidableEq, Repr

/-- A defined table (R282, R285, R312, R313): its four payload units as one number, the shard map and fill row as read at admission,
the migrations since, and the staging of its entries. -/
structure TableDef where
  payload : Nat
  shards : List Shard
  fill : List Nat
  moves : List Move := []
  stage : List Staged := []
  /-- 16-bit epochs by row (R330, R332). -/
  epochs : Table := []
deriving DecidableEq, Repr

/-- A hot set of a table on a global die (R306 to R308): its list, and when the next refresh is due. -/
structure HotSet where
  table : Nat
  die : Nat
  list : Nat
  count : Nat
  refresh : Nat
  due : Nat
  reload : Bool := false
  /-- What other modules have delivered of the list for a refresh, by CXA (R308, R345). -/
  fetched : Table := []
deriving DecidableEq, Repr

/-- A line of the automatic cache of a Wellhead (R299, R300): key, set, way, dirty, its bytes, the seal of each 256-byte part in the
side array, and the device addresses and lengths of the storage behind it. -/
structure WhLine where
  key : Nat
  set : Nat
  way : Nat
  dirty : Bool := false
  bytes : List Nat
  seals : List Nat := []
  places : List (Nat × Nat) := []
deriving DecidableEq, Repr

/-- A row in the hot-set ways: table, row, the lines it takes (way × 2,048 + set), its bytes, the seal of each 256-byte part in the
side array, and the device addresses and lengths of the storage behind it (R299, R305). -/
structure HotRow where
  table : Nat
  row : Nat
  lines : List Nat
  bytes : List Nat
  seals : List Nat := []
  places : List (Nat × Nat) := []
deriving DecidableEq, Repr

/-- The Wellhead of a die (R299 to R305, R332): lines, hot rows, sketch counters and increments since the last aging, and rows on
the move within the die. -/
structure Well where
  lines : List WhLine := []
  hot : List HotRow := []
  sketch : Table := []
  increments : Nat := 0
  moving : List Nat := []
deriving DecidableEq, Repr

/-- Progress of an admitted command. -/
inductive CmdPhase where
  | running
  | suspended
  | stopping
deriving DecidableEq, Repr

/-- An admitted, uncompleted command. -/
structure Cmd where
  id : Nat
  /-- The ring it came from, in the half that holds the command. -/
  ring : RingRef
  /-- Slot index of its header, modulo the ring size (R82). -/
  slot : Nat := 0
  /-- The packet, bit 0 the least significant bit of its header (R70). -/
  packet : Nat
  /-- The context and generation it acts for; no context for an unscoped management command (R77). -/
  ctx : Option Nat := none
  gen : Nat := 0
  exam : Exam := {}
  /-- The stroke of admission, and that at which it last resumed after a suspension (R249). -/
  admitted : Nat := 0
  resumed : Nat := 0
  /-- The registers of the home half and of the other half as they stood at admission (R104). -/
  cfg : Table := []
  cfgOther : Table := []
  /-- Exponents of the scale slots the command uses, read at admission (R169). -/
  scales : List (Nat × Int) := []
  /-- Entries of a list command already performed (R78, R174). -/
  cursor : Nat := 0
  /-- May a phase of a collective run as a ring, in X and in Y, on the Q plane and on the K plane, as admission found (R395)? -/
  rings : (Bool × Bool) × (Bool × Bool) := ((false, false), (false, false))
  /-- Reservation and metered energy in fJ, home half and other half (R61, R64, R65). -/
  estimate : Nat := 0
  estimateOther : Nat := 0
  metered : Nat := 0
  meteredOther : Nat := 0
  /-- Of the metered energy, what earlier windows brought, and the raw meters of the window under way (R64). -/
  past : Nat := 0
  pastOther : Nat := 0
  raw : Nat := 0
  rawOther : Nat := 0
  /-- Strokes since the last progress: of the home half, and of the other half for what the command does there (R437). -/
  idle : Nat := 0
  idleOther : Nat := 0
  phase : CmdPhase := .running
  /-- The command acts in both halves (R31), and the copy across the Siphon has been acted on. -/
  twoHalf : Bool := false
  mirrored : Bool := false
  /-- Power domains its engines lie in, by global number (R67). -/
  domains : List Nat := []
  /-- The command has done its part and waits for completion elsewhere (an armed commit, a switch, a peer). -/
  waiting : Bool := false
  /-- What its conversions report to scale slots: slot, largest finite magnitude, overflow events (R170). -/
  reports : List (Nat × Nat × Nat) := []
  /-- Sequencers of a TILE_RUN by global tile. -/
  tiles : List (Nat × TileRun) := []
  /-- The CSEs of a SOLVE_BATCH, once it has begun, and its problems CONVERGED, OK_PARTIAL and other so far (R247). -/
  solver : Option (List CseRun) := none
  solved : Nat × Nat × Nat := (0, 0, 0)
  /-- Gram partials a capturing MATMUL has computed and the fold has not consumed (R215), FP32 codes. -/
  partials : Option (List Nat) := none
  /-- The result such a MATMUL reports once its fold has run. -/
  held : Option Result := none
  /-- The digest a SHARD_DIGEST has computed, and the verdict that has reached it (R274). -/
  digest : Option Nat := none
  verdict : Option Verdict := none
  /-- Rows that other modules have delivered, by fetch number, and whether they have been asked for (R290). -/
  rowsIn : List (Nat × List Nat) := []
  asked : Bool := false
  /-- The die whose EME issued each fetch that has been asked for, by fetch number, and the dies that hold its requests for rows of a
  migration which have not arrived (R310, R329). -/
  fetchDies : Table := []
  heldAt : List Nat := []
  /-- The weight stream of a WEIGHT_STREAM, once credit has been granted (R355). -/
  stream : Option StreamRun := none
  /-- Bytes that remote modules have delivered, by CXA (R344, R379). -/
  fetched : Table := []
  /-- Stop asked for: the result the command ends with at its preemption point (R97, R99, R437). -/
  stopWith : Option Result := none
  /-- The result, once its engines have finished, and the stroke at which they did (R14). -/
  done : Option Result := none
  doneAt : Nat := 0
  /-- Its gate signals have been sent; the reply waits for those that cross the Siphon (R73, R92). -/
  signalled : Bool := false
deriving DecidableEq, Repr

/-! ## Rings -/

/-- Idle causes of R413 are counted in gauges; a ring keeps why its head is blocked. -/
structure Ring where
  /-- Context of the ring; `none` for the management ring. -/
  ctx : Option Nat := none
  num : Nat := 0
  priority : Nat := 0
  slotsLog2 : Nat := 10
  replyLog2 : Nat := 10
  /-- Base of the command ring and the reply ring: CXA, or for the management ring DPA (R80). -/
  cmdBase : Nat := 0
  rplBase : Nat := 0
  stage : Option Nat := none
  /-- The four pointers of R82, modulo twice the ring size. -/
  cmdHead : Nat := 0
  cmdTail : Nat := 0
  rplTail : Nat := 0
  rplHead : Nat := 0
  /-- The packet at the head has passed the check of R518 on the packet alone. -/
  checked : Bool := false
  /-- The head has been examined and waits for energy. -/
  exam : Option Exam := none
  /-- Stroke at which the head was first held for energy (R63). -/
  firstHeld : Option Nat := none
  /-- Consecutive window starts of the home half, and of the other half, at which the head failed R61 there (R63, R65). -/
  failedStarts : Nat := 0
  failedOther : Nat := 0
  /-- The head stops other admission until it is admitted (R63 rule 4), in the home half and in the other half. -/
  drains : Bool := false
  drainsOther : Bool := false
deriving DecidableEq, Repr

/-! ## Contexts -/

/-- The states of a context ID (R96). -/
inductive CtxState where
  | undefined
  | defined
  | switchingIn
  | resident
  | switchingOut
  | dead
deriving DecidableEq, Repr

/-- The states of a weight epoch (R368). -/
inductive EpochState where
  | loaded
  | current
  | retiring
deriving DecidableEq, Repr

/-- A weight epoch that is not FREED: its number, state and map entries by page of the window (R366, R367). -/
structure Epoch where
  num : Nat
  st : EpochState
  entries : Table
deriving DecidableEq, Repr

/-- An activation checkpoint slot (R409). -/
structure CkptSlot where
  num : Nat
  stage : Nat
  cxa : Nat
  bytes : Nat
  held : Bool := false
deriving DecidableEq, Repr

/-- A preserved range (R416): the context ID, first CXA and bytes, and the frames of this half under it by page. -/
structure Preserve where
  ctx : Nat
  cxa : Nat
  bytes : Nat
  frames : List (Nat × Nat)
deriving DecidableEq, Repr

/-- What a reduce phase of a collective has brought a member (R396): values by element that came on the + way or in a ring, and on
the − way of a line; the contributions behind them; and the pieces that have come. -/
structure ReducePart where
  near : List (Nat × Option Nat) := []
  far : List (Nat × Option Nat) := []
  nearCount : Nat := 0
  farCount : Nat := 0
  got : List Nat := []
deriving DecidableEq, Repr

/-- A collective at a CLE (R390 to R402): of an admitted member, of a proxy, or known only from a neighbour's descriptor frame. -/
structure Coll where
  tag : Nat
  gen : Nat
  opcode : Nat
  /-- Unit 0 with this half's addresses. -/
  unit0 : Nat
  cmd : Option Nat := none
  proxy : Bool := false
  /-- A proxy has done its work; the late command that waits for it. -/
  finished : Bool := false
  late : Option Nat := none
  /-- Descriptor frames of neighbours that have come: unit 0, opcode, and the position they came from. -/
  descs : List (Nat × Nat × Nat) := []
  ringX : Bool := false
  ringY : Bool := false
  /-- The contribution, FP32 codes; `none` of a proxy. For ALL_GATHER the member's block in FMT. -/
  own : List (Option Nat) := []
  ownSq : Option Nat := none
  folded : Bool := false
  /-- 0 X reduce, 1 Y reduce, 2 cross, 3 Y gather, 4 X gather, 5 done. -/
  stage : Nat := 0
  x : ReducePart := {}
  y : ReducePart := {}
  gotY : List Nat := []
  gotX : List Nat := []
  /-- Finished elements in FMT, contributions present, scalars by rank, overflow events of the finish. -/
  fin : Table := []
  present : Nat := 0
  stats : List (Nat × Option Nat × Nat) := []
  overs : Nat := 0
deriving DecidableEq, Repr

/-- An FP8 scale slot (R166). The amax history and the pending amax are FP32 codes. -/
structure ScaleSlot where
  exp : Int := 0
  held : Bool := false
  fmtRef : Nat := 3
  hist : List Nat := List.replicate 16 0
  head : Nat := 0
  pendingAmax : Nat := 0
  pendingValid : Bool := false
  ovf : Bool := false
  ovfNew : Bool := false
  ovfCount : Nat := 0
deriving DecidableEq, Repr

/-- One half's copy of a context (R94, R96). -/
structure Ctx where
  id : Nat
  gen : Nat := 0
  st : CtxState := .undefined
  /-- 1 Q, 2 K, 3 both. -/
  footprint : Nat := 0
  /-- TEARDOWN_SCOPE = PEERS. -/
  peers : Bool := false
  /-- Negotiated protocol version (R88). -/
  version : Nat := 1
  seed : Nat := 0
  saveCxa : Nat := 0
  peerX : Nat := 0
  peerY : Nat := 0
  peerW : Nat := 0
  peerH : Nat := 0
  /-- Active and shadow memory map, entries of R36 by page (R102). -/
  map : Table := []
  shadow : Table := []
  /-- Steps 2 to 5 of a teardown are under way (R99); its generation notices are sent. -/
  tearing : Bool := false
  /-- Frames (DPA ÷ 2 MiB) a commit removed and whose accesses have not drained (R104). -/
  draining : List Nat := []
  /-- Gates homed in this half; unlisted gates are 0 (R89). -/
  gates : Table := []
  /-- The weight window (first page, pages), the epochs, the highest number created, and the bound batches (R366, R367). -/
  window : Option (Nat × Nat) := none
  epochs : List Epoch := []
  lastEpoch : Nat := 0
  /-- Frames of FREED epochs: unmapped, and still the context's (R368). -/
  returned : List Nat := []
  binds : List (Nat × Nat) := []
  scales : List (Nat × ScaleSlot) := []
  slots : List CkptSlot := []
  /-- High-water marks by stage, in MiB (R409). -/
  hwm : Table := []
  /-- Collectives and proxy records at the half's CLE, oldest first (R399). -/
  colls : List Coll := []
  /-- Tables, hot sets, and requests held for rows that have not arrived yet, each with its port (R282, R308, R329). Tables lie in
  the first half of the footprint, the others in the half concerned. -/
  tables : List (Nat × TableDef) := []
  hotSets : List HotSet := []
  heldRows : List (Nat × Frame) := []
  /-- Comparison places of a primary (R274): TAG, and the digests that arrived, by torus position. -/
  places : List (Nat × Table) := []
  /-- Halted by a verdict under HALT (R277). -/
  halted : Bool := false
  /-- Saved TST and TRF bytes of a context that is not resident, once it has been saved (R97). -/
  wasSaved : Bool := false
  saved : List Host.Cell := []
  savedBadLines : List Nat := []
deriving DecidableEq, Repr

/-- The switch sequence under way (R97). -/
structure Switch where
  /-- The CTX_SWITCH, and the half whose ring holds it. -/
  cmd : Nat
  home : Half
  /-- The step under way: 2 suspend, 3 quiesce, 4 save, 5 restore. -/
  step : Nat
  incoming : Nat
  /-- The switch acts in both halves (R517). -/
  both : Bool := true
  /-- The restore was abandoned by a teardown (R100). -/
  abandoned : Bool := false
deriving DecidableEq, Repr

/-! ## Scheduled events -/

/-- What an armed freeze does (R466). -/
structure FreezeArm where
  freezeId : Nat
  machine : Bool := false
  replace : Bool := false
  stopTrace : Bool := false
  lead : Nat := 0
deriving DecidableEq, Repr

/-- What an event slot fires (R52). -/
inductive EventKind where
  | freeze (a : FreezeArm)
  | commit (regs map : Bool) (ctx gen cmd : Nat)
  | activation (cmd : Nat)
deriving DecidableEq, Repr

/-- An occupied scheduled-event slot (R52, R53). -/
structure Sched where
  stroke : Nat
  both : Bool
  kind : EventKind
  /-- A commit with COMMIT_STROKE = 0: it fires at the next stroke boundary and takes no slot (R102). -/
  slotless : Bool := false
deriving DecidableEq, Repr

/-- A freeze notice held in the pending-freeze register (R468). -/
structure PendingFreeze where
  stroke : Nat
  arm : FreezeArm
  late : Bool := false
deriving DecidableEq, Repr

/-- Firmware activation under way (R483). -/
structure Activation where
  cmd : Nat
  fired : Nat
  previous : Nat
  ctx : Option Nat
  /-- The management cores have restarted, and the context is back (R483 steps 3 to 5). -/
  restarted : Bool := false
deriving DecidableEq, Repr

/-! ## Gauges and traces -/

/-- An attribution entry (R458): key bits [47:0] and its fifteen counters, COMMANDS first. -/
structure Attr where
  key : Nat
  counts : List Nat
deriving DecidableEq, Repr

/-- A frozen set (R467). -/
structure Frozen where
  freezeId : Nat
  stroke : Nat
  late : Bool
  gauges : Table
  attr : List Attr
  stale : Table
  offset : Nat
deriving DecidableEq, Repr

/-- The trace unit of a half (R463, R464). -/
structure Trace where
  on : Bool := false
  wrap : Bool := false
  mask : Nat := 0
  next : Nat := 0
  wrapped : Bool := false
  drops : Nat := 0
  /-- Records waiting for HBM, each one 256-bit number. -/
  queue : List Nat := []
  /-- Records dropped since the last gap record. -/
  gap : Nat := 0
deriving DecidableEq, Repr

/-! ## Links -/

/-- A frame sent end to end that nothing has acknowledged yet (R380): the plane, the command that sent it, and for a frame that a
bridge passed on from its spur the number that the host gave it (R383). -/
structure Unacked where
  plane : Half
  cmd : Option Nat
  frame : Frame
  spur : Option Nat := none
  /-- The frame that this one forwards, with the port it came through: it is answered when this one is (R319, R329). -/
  relay : Option (Nat × Frame) := none
  /-- The hot set, by table and die, whose refresh reads its list with this frame (R308). -/
  hot : Option (Nat × Nat) := none
deriving DecidableEq, Repr

/-- What the arbitration of an output has served (R381): the place in the weighted round, and the classes whose last frame was a forwarded one. -/
structure PortTurn where
  slot : Nat := 0
  forwarded : List Nat := []
deriving DecidableEq, Repr

/-- One torus port, or the spur (R372 to R381). -/
structure Port where
  /-- Frames on the wire that the partner may ask to replay (R374). -/
  retry : List Frame := []
  /-- Consecutive replays of the oldest frame (R374). -/
  failedReplays : Nat := 0
  /-- Frames that wait for credit (R381). -/
  queue : List Frame := []
  /-- Credit used, in 64-byte units, by virtual channel, or by the tag of a collective (R381). -/
  used : Table := []
  /-- Frames held because the port is DOWN (R388). -/
  held : List Frame := []
  /-- The last stroke exchange word received, and the count at its arrival (R47). -/
  lastWord : Nat := 0
  lastArrival : Nat := 0
  /-- Consecutive exchanges with an offset below 1/4 stroke (R46). -/
  goodRun : Nat := 0
  /-- The last word this copy sent (R47), and the count at which it did. -/
  sentWord : Nat := 0
  sentAt : Option Nat := none
  /-- The capability record that the last attempt sent (R375). -/
  sentCap : Nat := 0
  /-- Stroke of the last attempt to train the port (R374). -/
  triedAt : Option Nat := none
  /-- What the weighted round robin of the output has served (R381). -/
  turn : PortTurn := {}
deriving DecidableEq, Repr

/-- A route-change fact: position, port, and whether the port is DOWN (R387). -/
structure RouteFact where
  pos : Nat
  port : Nat
  down : Bool
deriving DecidableEq, Repr

/-- A pending route commit and the facts that arrived for it (R387). -/
structure RoutePending where
  stroke : Nat
  facts : List RouteFact
deriving DecidableEq, Repr

/-! ## Firmware -/

/-- IMAGE_STATE of the boot record (R478). -/
inductive ImageState where
  | empty
  | writing
  | valid
deriving DecidableEq, Repr

/-- A settings record of R485: its header and entries as numbers, and whether its signature verifies under the SET key of the
half whose device holds it. -/
structure Settings where
  format : Nat := 2
  revision : Nat := 0
  confirmed : Bool := false
  writeSeq : Nat := 0
  secFloor : Nat := 0
  entries : List (Nat × Nat) := []
  signedBy : Option Half := none
deriving DecidableEq, Repr

/-- The flash device of a hub (R472). -/
structure Flash where
  imageState : ImageState := .empty
  bootFails : Nat := 0
  /-- Header (R475) and ciphertext of the firmware image. -/
  header : Nat := 0
  body : List Nat := []
  /-- The content key in the boot record, wrapped under STORE (R478): held as the WRAPPED_CEK of the image that it came with. -/
  cek : Nat := 0
  /-- Header and body of a loader image written in recovery, if any. -/
  loader : Option (Nat × List Nat) := none
  slot0 : Option Settings := none
  slot1 : Option Settings := none
deriving DecidableEq, Repr

/-- An image being staged (R477) or received in recovery (R481). -/
structure Staging where
  header : Nat
  loader : Bool := false
  body : List Nat := []
deriving DecidableEq, Repr

/-- The measurement registers of the key unit (R490). -/
structure Measures where
  locked : Bool := false
  loaderVersion : Nat := 0
  fwVersion : Nat := 0
  secEpoch : Nat := 0
  settingsId : Nat := 0
  loaderDigest : Nat := 0
  imageDigest : Nat := 0
  settingsDigest : Nat := 0
  actCount : Nat := 0
deriving DecidableEq, Repr

/-! ## The Siphon -/

/-- Flits of 64 bytes that wait at a hub to cross the Siphon, by class (R26), and the arbiter of the direction that leaves it: whose
turn it is, what is left of the turn, and the COMMAND flits sent in each of the last 1,000 strokes. -/
structure SiphonOut where
  urgent : Nat := 0
  time : Nat := 0
  command : Nat := 0
  coll : Nat := 0
  tensor : Nat := 0
  tensorTurn : Bool := false
  left : Nat := 0
  sent : Table := []
deriving DecidableEq, Repr

/-! ## The half and the module -/

/-- Boot states of a half (R503, R510). -/
inductive Boot where
  | off
  | alwaysOn
  | rom
  | loader
  | firmware
  | training
  | ready
  | recovery
  | identityFailed
  | trainingFailed
deriving DecidableEq, Repr

/-- A half reset under way (R446): its trigger stroke, source and trigger code, and how far it has come. -/
structure Reset where
  start : Nat
  cause : Nat
  trigger : Nat
  /-- Collection by the other half has not ended. -/
  collecting : Bool := false
  /-- The resident context at the trigger. -/
  resident : Option Nat := none
deriving DecidableEq, Repr

/-- One half of the module (R17, R18). -/
structure HalfState where
  boot : Boot := .off
  /-- TRAINING step of R510. -/
  step : Nat := 0
  reset : Option Reset := none
  /-- BOOT_SEL as sampled (R480). -/
  bootSel : Nat := 0
  /-- BOOT_SEL has been sampled: the half has left ALWAYS_ON for ROM (R480, R503). -/
  bootSampled : Bool := false
  /-- The half has been READY since it last left ALWAYS_ON or a reset (R46). -/
  wasReady : Bool := false
  /-- Generation records lost in a half reset have not been taken from the other half (R447). -/
  recordsLost : Bool := false
  /-- The Stroke counter (R42) and the rate correction it runs with, in parts per million (R46). -/
  count : Nat := 0
  slewPpm : Int := 0
  /-- The first STROKE_REF edge, in 1/16 stroke, and consecutive misplaced edges (R45, R499). -/
  refBase : Option Nat := none
  refMisplaced : Nat := 0
  refIgnored : Nat := 0
  /-- Registers by `regKey`: active cells and shadow cells; an unlisted register is at its reset value, an unlisted shadow
  equals the active value (R78, R102). -/
  regs : Table := []
  shadow : Table := []
  /-- Old values of the CSC registers that a commit has changed since the window started: they stay in force until the next one
  starts (R104). -/
  cscInForce : Table := []
  -- energy ledger, in fJ (R55 to R64)
  level : Nat := 0
  debt : Nat := 0
  drawn : Nat := 0
  derate : Nat := 100
  tjMax : Nat := 0
  windowStarts : Nat := 0
  /-- The last window that began, and the last that ended, by number (R54). -/
  windowBegun : Option Nat := none
  windowEnded : Option Nat := none
  /-- The last 1,000 strokes that were sampled, by number; samples of the window, and its raw meters (R54, R64). -/
  sampleSlot : Option Nat := none
  windowSamples : Nat := 0
  windowRaw : Nat := 0
  /-- Held heads that the window start put first and the CMP has not come to yet (R63 rule 1), with the half of their ring. -/
  windowFirst : List (Half × RingRef) := []
  millivolts : Nat := 0
  milliamps : Nat := 0
  /-- Boots of the half that calibrated (R60). -/
  calibrations : Nat := 0
  -- power domains (R67, R68): gated ones, those waking, and idle strokes
  gated : List Nat := []
  waking : List Nat := []
  domainIdle : Table := []
  /-- Strokes that engines have been named by a command held for energy, by BUSY instance (R66). -/
  engineHold : Table := []
  -- commands
  mgmt : Ring := { rplBase := 0x10000 }
  rings : List Ring := []
  cmds : List Cmd := []
  /-- Stroke of the last admission (R107), and by priority one more than the number of the ring served last (R86). -/
  lastAdmission : Option Nat := none
  lastServed : Table := []
  /-- The ring of the last admission. -/
  lastRing : Option RingRef := none
  /-- Edges of the wait-for graph whose FROM is a command homed here (FROM, TO, REASON), with the stroke at which the command became
  blocked on each (R441). -/
  blocked : List (Nat × Nat × Nat × Nat) := []
  ctxs : List Ctx := []
  /-- Recorded generations by context ID (R94). -/
  gens : Table := []
  resident : Option Nat := none
  /-- Commands of contexts that are not resident, suspended at a switch (R97). -/
  suspended : List Cmd := []
  /-- Gate signals that crossed the Siphon and are not applied yet: context, gate, increment, and the command that sent them (R92). -/
  gateIn : List (Nat × Nat × Nat × Nat) := []
  /-- Signals that gates of this half have taken in this stroke: context, gate, increment (R91). -/
  strokeSignals : List (Nat × Nat × Nat) := []
  -- scheduled events (R52)
  events : List Sched := []
  routePending : List RoutePending := []
  pendingFreeze : Option PendingFreeze := none
  sourceArm : Option (Nat × FreezeArm) := none
  freezeSeen : List Nat := []
  activation : Option Activation := none
  -- faults (R426 to R451): armed deadlines by source, forced sources, a kept reset notice, missed heartbeats
  deadlines : Table := []
  forced : List Nat := []
  /-- Sources whose pairs have asserted and are sampled at the next stroke (R427). -/
  asserted : List Nat := []
  /-- Damaged blocks of memories of the half that were met outside the run of a command, with the context concerned: faults of the next
  stroke (R352, R427). -/
  sealsMet : List (Nat × Option Nat) := []
  keptNotice : Option Nat := none
  heartbeatOn : Bool := true
  collected : Bool := false
  -- gauges
  gauges : Table := []
  attr : List Attr := []
  stale : Table := []
  frozen : Option Frozen := none
  trace : Trace := {}
  -- links (R372 to R389): ports N, E, S, W, SP
  ports : List Port := []
  /-- Stroke exchange words across the Siphon (R47). -/
  timeLink : Port := {}
  /-- Stroke of the last attempt of this half to train the Siphon (R24). -/
  siphonTry : Option Nat := none
  /-- What waits at this hub to cross the Siphon (R26). -/
  siphonOut : SiphonOut := {}
  routes : Table := []
  facts : List RouteFact := []
  routeSeen : List (Nat × Nat × Nat) := []
  seqNext : Table := []
  unacked : List Unacked := []
  /-- By source position: the next E2E_SEQ expected in order, numbers seen beyond it, frames since the last ACK (R380). -/
  rxHigh : Table := []
  rxSeen : List (Nat × Nat) := []
  rxSince : Table := []
  /-- The stroke of the first of those frames (R380). -/
  rxOwed : Table := []
  /-- Wellheads of dies 0 to 3. -/
  wells : List Well := []
  -- frames scrub-pending, each with the ID of the context that held it (R99), and preserved ranges with their frames here (R416)
  scrub : List (Nat × Nat) := []
  preserved : List Preserve := []
  /-- Every frame of the half waits for the scrub that follows READY (R446). -/
  scrubAll : Bool := false
  -- firmware
  flash : Flash := {}
  measures : Measures := {}
  settings : Option Settings := none
  fwVersion : Nat := 0
  recovery : Option Staging := none
  recovBytes : Nat := 0
  recovResult : Nat := 0
  recovStep : Nat := 0
  -- management port (R511)
  mgmtOutstanding : Option Nat := none
  mgmtHeld : Option (List Nat) := none
  mgmtLast : Option (List Nat) := none
deriving DecidableEq, Repr

/-- Why a step stops with a fault. No meaning of this model faults: every command of the block has an effect, or none because
its condition does not hold. -/
inductive Fault where
  /-- Raised by nothing; kept so that the type is inhabited. Safe: no run ends in it. -/
  | unreachable
deriving DecidableEq, Repr

/-- Why a step is refused. -/
inductive Refusal where
  /-- Raised by an arm of `exec` whose command has no meaning yet. Safe: the machine stops where the hardware goes on. -/
  | notModelled (mnemonic : String)
deriving DecidableEq, Repr

/-- The module. -/
structure State where
  q : HalfState
  k : HalfState
  mem : Mem := {}
  /-- SIPHON_STATUS is held in both hubs; the module has one link state: DOWN, TRAINING, ACTIVE, ACTIVE_REPAIRED (R30). -/
  siphon : Nat := 0
  lanesRepaired : Nat := 0
  /-- The half that began the attempt to train the Siphon under way (R24). -/
  siphonBy : Half := .q
  switch : Option Switch := none
  /-- The next identity an admitted command takes. -/
  nextId : Nat := 1
  /-- Free values drawn so far. -/
  drawnFree : Nat := 0
  -- pins and supervisors (R492 to R506)
  pwrEn : Bool := false
  /-- The sequence of R500 is under way or has run, since the last power-off. -/
  starting : Bool := false
  pgood : Bool := false
  thermTrip : Bool := false
  tripped : Bool := false
  halfResetQ : Bool := false
  halfResetK : Bool := false
  modReset : Bool := false
  railFail : Nat := 0
  holdoff : Bool := false
  powerFailed : Bool := false
  hotDies : Bool := false
  -- image staging and settings staging in the management memory of HB0 (R477, R488), a WRITE in progress
  staging : Option Staging := none
  writing : Option Nat := none
  settingsStaging : Option (Nat × List Nat) := none
  -- management port (R508)
  dynamicAddress : Option Nat := none
  ibiEnabled : Bool := false
  maxWrite : Nat := 4162
  maxRead : Nat := 4162
  portOut : List Nat := []
  portNack : Bool := false
  ibi : Bool := false
  recovHalf : Half := .q
  -- test access port (R513)
  tapInstruction : Nat := 0
  tapOut : Nat := 0
  boundary : Nat := 0
  /-- The commands that wait, first in, first out. -/
  pending : List Instr := []
deriving DecidableEq, Repr

/-- The module before PWR_EN first rises (R500): OFF, every register at its reset value, memory with nothing listed. -/
def State.reset : State := { q := {}, k := {} }

end Sys2Proof.Machine
end

