-- ==== Sys2Proof/Machine/Tables.lean ====
section
/-! DEFINITION. Operations on the sorted sparse tables that hold registers, maps, gates, slots and gauges. -/

namespace Sys2Proof.Machine

/-- The entry at key `k`, if listed. -/
def find {α : Type} (k : Nat) : List (Nat × α) → Option α
  | [] => none
  | (j, a) :: rest => if j = k then some a else find k rest

/-- Put `a` at key `k`, keys ascending. -/
def put {α : Type} (k : Nat) (a : α) : List (Nat × α) → List (Nat × α)
  | [] => [(k, a)]
  | (j, b) :: rest =>
    if k < j then (k, a) :: (j, b) :: rest
    else if k = j then (k, a) :: rest
    else (j, b) :: put k a rest

/-- Remove key `k`. -/
def drop {α : Type} (k : Nat) : List (Nat × α) → List (Nat × α)
  | [] => []
  | (j, b) :: rest => if j = k then drop k rest else (j, b) :: drop k rest

/-- The number at key `k`, 0 where the table lists none. -/
def Table.at (t : Table) (k : Nat) : Nat := (find k t).getD 0

/-- Write `v` at key `k`; a zero is not listed. -/
def Table.set (t : Table) (k v : Nat) : Table := if v = 0 then drop k t else put k v t

/-- Add to the number at key `k`. -/
def Table.bump (t : Table) (k n : Nat) : Table := t.set k (t.at k + n)

/-- Bytes as one little-endian number (R4). -/
def numOf : List Nat → Nat
  | [] => 0
  | b :: bs => b % 256 + 256 * numOf bs

/-- The low `n` bytes of a number (R4). -/
def bytesOf : Nat → Nat → List Nat
  | 0, _ => []
  | n + 1, v => v % 256 :: bytesOf n (v / 256)

/-- The first element that satisfies `p`, replaced by its image under `f`. -/
def updateFirst {α : Type} (p : α → Bool) (f : α → α) : List α → List α
  | [] => []
  | a :: rest => if p a then f a :: rest else a :: updateFirst p f rest

/-- A list cut into pieces of `n` elements; `fuel` bounds the number of pieces. -/
def chunksAux {α : Type} (n : Nat) : Nat → List α → List (List α)
  | 0, _ => []
  | fuel + 1, l => if l.isEmpty then [] else l.take n :: chunksAux n fuel (l.drop n)

/-- A list cut into pieces of `n` elements. -/
def chunks {α : Type} (n : Nat) (l : List α) : List (List α) := chunksAux n l.length l

/-- The smallest number of a list. -/
def least : List Nat → Option Nat
  | [] => none
  | a :: rest => some (match least rest with | some b => min a b | none => a)

/-- The largest number of a list, 0 of the empty list. -/
def greatest : List Nat → Nat
  | [] => 0
  | a :: rest => max a (greatest rest)

/-- The sum of a list. -/
def total : List Nat → Nat
  | [] => 0
  | a :: rest => a + total rest

/-- Is there an element twice in the list? -/
def hasRepeat : List Nat → Bool
  | [] => false
  | a :: rest => rest.contains a || hasRepeat rest

end Sys2Proof.Machine
end

