-- ==== Sys2Proof/Machine/Memory.lean ====
section
/-! DEFINITION. The memories of a module: device physical addresses (R35), reads and writes of bytes in canonical form, block
seals and line CRCs (R348, R350), and the diagonal window of the tile store (R197). -/

namespace Sys2Proof.Machine

/-! ## Addresses -/

/-- One frame of the memory map: 2 MiB (R36). -/
def frameBytes : Nat := 2097152

/-- The DPA of byte `off` of stack `stack` (0–2) of die `die` of partition `part` (R35). -/
def hbmAddr (part die stack off : Nat) : Nat := part * 2 ^ 40 + die * 2 ^ 38 + stack * 2 ^ 36 + off

/-- The DPA of byte `off` of the TST of tile `tile` of a die (R35). -/
def tstAddr (part die tile off : Nat) : Nat := 2 ^ 41 + part * 2 ^ 40 + die * 2 ^ 38 + tile * 2 ^ 22 + off

/-- The TST byte `off` of a global tile: tile 48 × global die + tile within the die (R35, R110). -/
def tstOfTile (global off : Nat) : Nat :=
  tstAddr (global / 192) (global / 48 % 4) (global % 48) off

/-- The key of byte `off` of the TRF of a global tile; the TRF has no DPA, so it lies above them. -/
def trfOfTile (global off : Nat) : Nat := 2 ^ 44 + global * 2 ^ 18 + off

/-- REGION of a DPA (R35). -/
def dpaRegion (a : Nat) : Nat := bits a 41 3

/-- Does a DPA name something that exists (R35)? -/
def dpaValid (a : Nat) : Bool :=
  a < 2 ^ 44 &&
  match dpaRegion a with
  | 0 => bits a 36 2 < 3
  | 1 => bits a 28 10 == 0 && bits a 22 6 < 48
  | 2 => bits a 25 13 == 0
  | _ => false

/-- The half that holds a DPA. -/
def dpaHalf (a : Nat) : Half := Half.ofPart (bits a 40 1)

/-- The stack of the half that holds an HBM DPA, 3 × die + stack. -/
def dpaStack (a : Nat) : Nat := bits a 38 2 * 3 + bits a 36 2

/-- Global die 4 × PART + DIE of a DPA. -/
def dpaDie (a : Nat) : Nat := bits a 38 3 % 4 + 4 * bits a 40 1

/-! ## Bytes -/

/-- What an unlisted address reads as: a free value inside a veil, 0 elsewhere. -/
def Mem.unlisted (m : Mem) (a : Nat) : Byte :=
  match m.veils.find? fun v => v.lo ≤ a && a < v.hi with
  | some v => Config.freeByte v.stamp a
  | none => 0

/-- The byte at an address. -/
def Mem.byte (m : Mem) (a : Nat) : Byte := (find a m.cells).getD (m.unlisted a)

/-- Write one byte, keeping the canonical form. -/
def Mem.setByte (m : Mem) (a : Nat) (b : Byte) : Mem :=
  { m with cells := if b = m.unlisted a then drop a m.cells else put a b m.cells }

/-- `n` bytes from an address. -/
def Mem.bytes (m : Mem) (a : Nat) : Nat → List Nat
  | 0 => []
  | n + 1 => (m.byte a).toNat :: m.bytes (a + 1) n

/-- `n` bytes from an address, as one little-endian number. -/
def Mem.word (m : Mem) (a n : Nat) : Nat := numOf (m.bytes a n)

/-- Write bytes from an address on. -/
def Mem.write (m : Mem) (a : Nat) : List Nat → Mem
  | [] => m
  | b :: bs => (m.setByte a (BitVec.ofNat 8 b)).write (a + 1) bs

/-- Are the addresses of cells strictly rising, each above `lo`? -/
def cellsRise : Nat → List Host.Cell → Bool
  | _, [] => true
  | lo, (a, _) :: rest => decide (lo ≤ a) && cellsRise (a + 1) rest

/-- The canonical form: addresses strictly rising, no cell equal to what the address reads as unlisted. -/
def Mem.wf (m : Mem) : Bool := cellsRise 0 m.cells && m.cells.all fun c => c.2 ≠ m.unlisted c.1

/-- Every cell of a range read as zero and intact (R99 step 6, R134): the cells, veils and damage of the range go. Veils that
only overlap the range are cut. -/
def Mem.clear (m : Mem) (lo hi : Nat) : Mem :=
  { cells := m.cells.filter fun c => !(lo ≤ c.1 && c.1 < hi)
    veils := m.veils.flatMap fun v =>
      if v.lo < hi && lo < v.hi then
        (if v.lo < lo then [{ v with hi := lo }] else []) ++ (if hi < v.hi then [{ v with lo := hi }] else [])
      else [v]
    badBlocks := m.badBlocks.filter fun b => !(lo ≤ b * 256 && b * 256 < hi)
    badEcc := m.badEcc.filter fun l => !(lo ≤ l * 64 && l * 64 < hi)
    badLines := m.badLines.filter fun l => !(lo ≤ l * 64 && l * 64 < hi) }

/-- The contents of a range become undefined, with intact seals. -/
def Mem.veil (m : Mem) (lo hi stamp : Nat) : Mem :=
  let c := m.clear lo hi
  { c with veils := { lo := lo, hi := hi, stamp := stamp } :: c.veils }

/-! ## Seals (R348) -/

/-- One bit of the reflected CRC-32C shift register. -/
def crcBit (c : Nat) : Nat := if c % 2 = 1 then (c / 2).xor 0x82F63B78 else c / 2

/-- One byte of CRC-32C. -/
def crcByte (c b : Nat) : Nat :=
  let x := c.xor (b % 256)
  crcBit (crcBit (crcBit (crcBit (crcBit (crcBit (crcBit (crcBit x)))))))

/-- CRC-32C of bytes in order (R348). -/
def crc32c (bs : List Nat) : Nat := (bs.foldl crcByte 0xFFFFFFFF).xor 0xFFFFFFFF

/-- mix64 of R271. -/
def mix64 (z0 : Nat) : Nat :=
  let m := 2 ^ 64
  let z1 := ((z0 ^^^ (z0 >>> 30)) * 0xBF58476D1CE4E5B9) % m
  let z2 := ((z1 ^^^ (z1 >>> 27)) * 0x94D049BB133111EB) % m
  z2 ^^^ (z2 >>> 31)

/-- Is a block of HBM damaged: its seal does not match, or a line of it has an ECC error that cannot be corrected (R338)? -/
def Mem.badBlock (m : Mem) (b : Nat) : Bool := m.badBlocks.contains b || m.badEcc.any fun l => l / 4 = b

/-- Lines of the block of an address with an error that ECC cannot correct (R338, R342). -/
def Mem.deadLines (m : Mem) (a : Nat) : Nat := (m.badEcc.filter fun l => l / 4 = a / 256).length

/-- Is the protection of the HBM block or TST line that holds an address intact? The TRF carries no seal (R350). -/
def Mem.intact (m : Mem) (a : Nat) : Bool :=
  if a < 2 ^ 41 then !m.badBlock (a / 256)
  else if a < 2 ^ 42 then !m.badLines.contains (a / 64)
  else true

/-- The seal stored with an HBM block: its CRC-32C, or a different code where it is damaged. -/
def Mem.sealOf (m : Mem) (block : Nat) : Nat :=
  let c := crc32c (m.bytes (block * 256) 256)
  if m.badBlock block then c.xor 1 else c

/-- Blocks that have a fresh seal and fresh ECC (R338, R352). -/
def Mem.mend (m : Mem) (bs : List Nat) : Mem :=
  { m with badBlocks := m.badBlocks.filter fun b => !bs.contains b, badEcc := m.badEcc.filter fun l => !bs.contains (l / 4) }

/-- Does a list of writes cover every byte of a block? -/
def coversBlock (ws : List (Nat × List Nat)) (b : Nat) : Bool :=
  (List.range 256).all fun i => ws.any fun w => w.1 ≤ 256 * b + i && 256 * b + i < w.1 + w.2.length

/-- The first damaged block that a range of HBM bytes meets, by its address (R351). -/
def Mem.damageIn (m : Mem) (a n : Nat) : Option Nat :=
  if n = 0 then none else
  (((List.range ((a + n - 1) / 256 - a / 256 + 1)).map (a / 256 + ·)).find? m.badBlock).map (256 * ·)

/-- Writes outside the run of an engine: a damaged block that they cover is repaired, and one that they meet in part is the address of
the failure (R352). -/
def Mem.putAll (m : Mem) (ws : List (Nat × List Nat)) : Except Nat Mem :=
  let hit := ((ws.filter fun w => !w.2.isEmpty).flatMap fun w =>
    (List.range ((w.1 + w.2.length - 1) / 256 - w.1 / 256 + 1)).map (w.1 / 256 + ·)).filter m.badBlock
  match hit.find? fun b => !coversBlock ws b with
  | some b => .error (256 * b)
  | none => .ok ((ws.foldl (fun n w => n.write w.1 w.2) m).mend hit)

/-- Write a whole 256-byte block with a fresh seal, which repairs it (R352). -/
def Mem.writeBlock (m : Mem) (block : Nat) (bs : List Nat) : Mem :=
  let m' := m.write (block * 256) bs
  m'.mend [block]

/-! ## Copies that a Wellhead holds (R299, R303, R305) -/

/-- The parts of a copy: device address, bytes, and whether the seal kept with the part matches it. -/
def copyParts : List (Nat × Nat) → List Nat → List Nat → List (Nat × List Nat × Bool)
  | [], _, _ => []
  | (a, n) :: ps, bs, ss => (a, bs.take n, decide (ss.headD 0 = crc32c (bs.take 256))) :: copyParts ps (bs.drop n) (ss.drop 1)

/-- Bytes at an address, with the protection of a whole block that they fill. -/
def Mem.putPart (m : Mem) (a : Nat) (bs : List Nat) (ok : Bool) : Mem :=
  let m1 := m.write a bs
  if bs.length < 256 then m1
  else
    let m2 := m1.mend [a / 256]
    if ok then m2 else { m2 with badBlocks := m2.badBlocks ++ [a / 256] }

/-- A block of a memory as an older one has it. -/
def Mem.putBack (m old : Mem) (a n : Nat) : Mem :=
  let m1 := m.write a (old.bytes a n)
  if n < 256 then m1
  else
    let m2 := m1.mend [a / 256]
    { m2 with
      badBlocks := m2.badBlocks ++ old.badBlocks.filter (· = a / 256), badEcc := m2.badEcc ++ old.badEcc.filter (· / 4 = a / 256) }

def WhLine.parts (l : WhLine) : List (Nat × List Nat × Bool) := copyParts l.places l.bytes l.seals

/-- The bytes behind a copy, as a memory has them. -/
def placedBytes (m : Mem) (places : List (Nat × Nat)) : List Nat := places.flatMap fun p => m.bytes p.1 p.2

/-- The seals of the 256-byte parts of a copy, as the blocks of a memory have them. -/
def placedSeals (m : Mem) : List (Nat × Nat) → List Nat → List Nat
  | [], _ => []
  | (a, _) :: ps, bs =>
    let c := crc32c (bs.take 256)
    (if m.badBlock (a / 256) then c.xor 1 else c) :: placedSeals m ps (bs.drop 256)

/-- Memory with a line in place of the storage behind it. -/
def WhLine.over (m : Mem) (l : WhLine) : Mem := l.parts.foldl (fun m p => m.putPart p.1 p.2.1 p.2.2) m

/-- A line takes what has been written over the storage behind it, and is then dirty (R303). -/
def WhLine.takeMem (old new : Mem) (l : WhLine) : WhLine :=
  let bs := placedBytes new l.places
  let same (p : Nat × Nat) : Bool := old.intact p.1 = new.intact p.1
  if bs = placedBytes old l.places && l.places.all same then l else
  let all := bs ++ l.bytes.drop bs.length
  { l with dirty := true, bytes := all, seals := placedSeals new l.places all }

/-- A hot row takes what has been written to its row, which the stacks take too (R305). -/
def HotRow.takeMem (old new : Mem) (r : HotRow) : HotRow :=
  let bs := placedBytes new r.places
  if bs = placedBytes old r.places then r else { r with bytes := bs, seals := placedSeals new r.places bs }

def HalfState.takeMem (old new : Mem) (x : HalfState) : HalfState :=
  { x with wells := x.wells.map fun w =>
      { w with lines := w.lines.map (WhLine.takeMem old new), hot := w.hot.map (HotRow.takeMem old new) } }

/-- The lines of every Wellhead. -/
def State.lines (s : State) : List WhLine := (s.q.wells ++ s.k.wells).flatMap (·.lines)

/-- Memory as any requester reads it: a row that a line of a Wellhead holds is read there (R303). -/
def State.view (s : State) : Mem := s.lines.foldl WhLine.over s.mem

/-- Memory is written: what lies behind a line goes to the line, the rest to the memories, and to the hot rows beside them (R303,
R305). `new` is what every requester reads afterwards. -/
def State.commit (s : State) (new : Mem) : State :=
  let old := s.view
  let back (m : Mem) (l : WhLine) : Mem :=
    l.places.foldl (fun m p => m.putBack s.mem p.1 p.2) m
  { s with mem := s.lines.foldl back new, q := s.q.takeMem old new, k := s.k.takeMem old new }

/-! ## The diagonal window (R196, R197) -/

/-- The physical line of a logical TST line under a committed MXE_TST_DIAG (R196, R197). -/
def diagLine (reg line : Nat) : Nat :=
  let base := bits reg 0 16
  let lines := bits reg 16 16
  let row16 := bits reg 32 8
  let w := 16 * row16
  if base % 16 ≠ 0 || row16 == 0 || row16 > 64 || lines % w ≠ 0 || base + lines > 65536 then line
  else if base ≤ line && line < base + lines then
    let o := line - base
    let i := o / w
    let j := o % w
    base + i * w + 16 * (j / 16) + (i + j) % 16
  else line

end Sys2Proof.Machine
end

