-- ==== Sys2Proof/Machine/Registers.lean ====
section
/-! DEFINITION. The registers of a half: which exist and where (R79), their field maps and access codes (R9), their reset
values, the sources of the Fault Collector (R428), the shadow set and CONFIG_COMMIT of registers (R102 to R105). -/

namespace Sys2Proof.Machine

/-- The access codes of R9. -/
inductive Access where
  | ro
  | rw
  | rws
  | w1c
  | wo
  | rc
deriving DecidableEq, Repr

/-- One field of a register: its place, its width, its access and its reset value. -/
structure Field where
  lo : Nat
  width : Nat
  acc : Access
  reset : Nat := 0
deriving DecidableEq, Repr

/-- A 32-bit read-clear count at bit 0. -/
def countField : List Field := [⟨0, 32, .rc, 0⟩]

/-! ## Block codes (R79) -/

def bSTU : Nat := 0x01
def bCSC : Nat := 0x02
def bFCL : Nat := 0x03
def bSIPHON : Nat := 0x04
def bCMP : Nat := 0x05
def bCLE : Nat := 0x06
def bWSE : Nat := 0x07
def bLMV : Nat := 0x08
def bMXE : Nat := 0x09
def bVXE : Nat := 0x0A
def bGRU : Nat := 0x0B
def bCSE : Nat := 0x0C
def bUPU : Nat := 0x0D
def bEME : Nat := 0x0E
def bWH : Nat := 0x0F
def bHBM : Nat := 0x10
def bLNK : Nat := 0x11
def bGAU : Nat := 0x12

/-- The table key of a register of a half. -/
def regKey (block die unit index : Nat) : Nat := ((block * 8 + die) * 64 + unit) * 256 + index

/-- The key of a hub register (DIE 4, UNIT 0). -/
def hubKey (block index : Nat) : Nat := regKey block 4 0 index

/-- The key of FCL_SEV_n of the source n of a half (R450). -/
def sevKey (source : Nat) : Nat := regKey bFCL 4 (1 + source / 256) (source % 256)

/-! ## Fault sources (R428) -/

/-- What R428 says of a source: CONTEXT scope, default severity (0 IGNORE, 1 LOG, 2 SOFT, 3 HARD), default TEARDOWN. -/
structure SourceInfo where
  context : Bool
  severity : Nat
  teardown : Bool
deriving DecidableEq, Repr

def halfLog : SourceInfo := ⟨false, 1, false⟩
def halfSoft : SourceInfo := ⟨false, 2, false⟩
def halfHard : SourceInfo := ⟨false, 3, false⟩
def contextLog : SourceInfo := ⟨true, 1, false⟩
def contextSoft : SourceInfo := ⟨true, 2, true⟩

/-- The source of a die at offset `o` from B = 0x100 + 0x80 d (R428). -/
def dieSource (o : Nat) : Option SourceInfo :=
  if o < 0x30 then some contextLog
  else if o < 0x60 then some contextSoft
  else if o < 0x67 then some contextSoft
  else if o = 0x67 then some halfLog
  else if o < 0x6B then some contextLog
  else if o < 0x6E then some halfLog
  else if o < 0x72 then some halfHard
  else if o = 0x72 then some contextLog
  else if o = 0x73 then some halfHard
  else if o = 0x7F then some halfSoft
  else none

/-- The source n (within a half) of R428; `none` where the table lists none. -/
def sourceInfo (h : Half) (n : Nat) : Option SourceInfo :=
  if n = 0x000 then some halfHard
  else if n = 0x001 then some halfHard
  else if n = 0x008 then some halfLog
  else if n = 0x009 then (if h = .q then some halfLog else none)
  else if 0x010 ≤ n && n ≤ 0x013 then some halfLog
  else if 0x018 ≤ n && n ≤ 0x01B then some halfLog
  else if n = 0x01C then (if h = .q then some halfLog else none)
  else if n = 0x020 then some halfLog
  else if n = 0x021 then some contextLog
  else if 0x028 ≤ n && n ≤ 0x02B then some contextSoft
  else if n = 0x02C then some halfHard
  else if 0x040 ≤ n && n ≤ 0x04B then some contextLog
  else if n = 0x0FF then some halfSoft
  else if 0x100 ≤ n && n < 0x300 then dieSource ((n - 0x100) % 0x80)
  else none

/-- The number of a die's source: B + offset (R428). -/
def dieSourceNum (die offset : Nat) : Nat := 0x100 + 0x80 * die + offset

/-! ## Field maps -/

/-- The registers of a hub's Fault Collector in UNIT 0 (R449). -/
def fclFields : Nat → Option (List Field)
  | 0 => some [⟨0, 20, .rws, 0x7D0⟩, ⟨20, 8, .rws, 0x32⟩, ⟨28, 1, .rws, 1⟩]
  | 1 => some [⟨0, 1, .ro, 0⟩, ⟨1, 10, .ro, 0⟩, ⟨16, 8, .ro, 0⟩, ⟨24, 11, .ro, 0⟩, ⟨35, 3, .ro, 0⟩]
  | 2 => some [⟨0, 64, .ro, 0⟩]
  | 3 => some countField
  | 4 => some [⟨0, 10, .ro, 0⟩, ⟨10, 1, .ro, 0⟩, ⟨16, 11, .ro, 0⟩]
  | 5 => some [⟨0, 1, .ro, 0⟩, ⟨1, 1, .ro, 0⟩, ⟨8, 24, .ro, 0⟩]
  | _ => none

/-- FCL_SEV_n (R450). TEARDOWN of a HALF source reads 0 and ignores writes. -/
def sevFields (i : SourceInfo) : List Field :=
  [⟨0, 2, .rw, i.severity⟩, ⟨2, 1, .w1c, 0⟩, ⟨3, 1, .wo, 0⟩,
   ⟨4, 1, if i.context then .rw else .ro, if i.teardown then 1 else 0⟩,
   ⟨5, 1, .ro, if i.context then 1 else 0⟩, ⟨6, 1, .ro, 0⟩]

/-- The Cistern Controller (R55). -/
def cscFields : Nat → Option (List Field)
  | 0 => some [⟨0, 16, .rws, 0x4B0⟩, ⟨16, 16, .rws, 0x5DC⟩]
  | 1 => some [⟨0, 16, .rws, 0x1770⟩, ⟨16, 16, .ro, 0⟩]
  | 2 => some [⟨0, 16, .ro, 0⟩, ⟨16, 16, .ro, 0⟩]
  | 3 => some [⟨0, 16, .rws, 0x12C⟩]
  | 4 => some [⟨0, 24, .rws, 0x2710⟩]
  | 5 => some [⟨0, 8, .ro, 0⟩, ⟨8, 8, .ro, 0x64⟩]
  | n => if n < 22 then some [⟨0, 32, .ro, 0⟩] else none

/-- The per-port link registers, indices 1 to 5 (R405). -/
def portFields : Nat → Option (List Field)
  | 1 => some [⟨0, 1, .rws, 1⟩]
  | 2 => some [⟨0, 3, .ro, 0⟩, ⟨3, 3, .ro, 0⟩, ⟨8, 8, .ro, 0⟩, ⟨16, 8, .ro, 0⟩]
  | 3 => some [⟨0, 64, .ro, 0⟩]
  | 4 => some [⟨0, 32, .rc, 0⟩, ⟨32, 32, .rc, 0⟩]
  | 5 => some [⟨0, 32, .rc, 0⟩, ⟨32, 32, .rc, 0⟩]
  | _ => none

/-- LNK_TOPO (R405). -/
def topoFields : List Field :=
  [⟨0, 6, .rws, 0⟩, ⟨6, 6, .rws, 0⟩, ⟨12, 7, .rws, 0⟩, ⟨19, 7, .rws, 0⟩, ⟨26, 1, .rws, 0⟩, ⟨32, 8, .rws, 1⟩]

/-- Registers of a hub (DIE 4), by block, unit and index. -/
def hubFields (h : Half) (block unit index : Nat) : Option (List Field) :=
  if block = bFCL && unit ≥ 1 && unit ≤ 4 then (sourceInfo h ((unit - 1) * 256 + index)).map sevFields
  else if block = bLMV then
    if unit ≥ 2 then none else
    match index with
    | 0 => some [⟨0, 1, .ro, 0⟩, ⟨1, 3, .ro, 0⟩, ⟨4, 1, .ro, 0⟩]
    | 1 => some countField
    | 2 => some countField
    | _ => none
  else if block = bLNK then
    if index = 0 then (if unit = 0 then some topoFields else none)
    else if unit < 4 || (unit = 4 && h = .q) then portFields index else none
  else if unit ≠ 0 then none
  else if block = bSTU then
    match index with
    | 0 => some [⟨0, 64, .ro, 0⟩]
    | 1 => some [⟨0, 64, .rw, 0⟩]
    | 2 => some [⟨0, 1, .rws, 0⟩, ⟨1, 1, .rws, 0⟩, ⟨8, 16, .rws, 0x64⟩]
    | 3 => some [⟨0, 3, .ro, 0⟩, ⟨3, 4, .ro, 0xF⟩, ⟨8, 8, .ro, 0xFF⟩, ⟨16, 16, .ro, 0⟩]
    | _ => none
  else if block = bCSC then cscFields index
  else if block = bFCL then fclFields index
  else if block = bSIPHON then
    match index with
    | 0 => some [⟨0, 8, .rws, 0x80⟩, ⟨8, 8, .rws, 0x80⟩, ⟨16, 8, .rws, 8⟩]
    | 1 => some [⟨0, 3, .ro, 0⟩, ⟨8, 8, .ro, 0⟩]
    | 2 => some countField
    | _ => none
  else if block = bCMP then
    if index < 8 then some [⟨0, 32, .ro, 0⟩, ⟨32, 32, .ro, 0⟩]
    else if index = 8 then
      some [⟨0, 12, .rws, 0⟩, ⟨12, 12, .rws, 0⟩, ⟨24, 1, .rws, 0⟩, ⟨32, 12, .rws, 0⟩, ⟨44, 12, .rws, 0⟩, ⟨56, 1, .rws, 0⟩]
    else if index = 9 then some [⟨0, 12, .rws, 0⟩, ⟨12, 12, .rws, 0⟩, ⟨24, 1, .rws, 0⟩]
    else if index = 10 then some [⟨0, 24, .rws, 0x186A0⟩]
    else none
  else if block = bCLE then
    match index with
    | 0 => some [⟨0, 3, .ro, 0⟩, ⟨3, 5, .ro, 0⟩]
    | 1 => some [⟨0, 32, .rc, 0⟩, ⟨32, 32, .rc, 0⟩]
    | _ => none
  else if block = bWSE then
    match index with
    | 0 => some [⟨0, 3, .ro, 0⟩, ⟨3, 1, .ro, 0⟩]
    | 1 => some countField
    | _ => none
  else if block = bGAU then
    match index with
    | 0 => some [⟨0, 1, .rws, 0⟩]
    | 1 => some [⟨0, 1, .ro, 0⟩, ⟨1, 1, .ro, 0⟩, ⟨2, 1, .ro, 0⟩, ⟨3, 1, .ro, 0⟩, ⟨8, 8, .ro, 0⟩, ⟨16, 16, .ro, 0⟩, ⟨32, 32, .ro, 0⟩]
    | 2 => some [⟨0, 64, .ro, 0⟩]
    | 3 => some [⟨0, 21, .ro, 0⟩, ⟨21, 1, .ro, 0⟩, ⟨32, 32, .ro, 0⟩]
    | 4 => some [⟨0, 64, .rws, 0⟩]
    | _ => none
  else none

/-- Registers of a tile (R130, R155, R196, R220), by block and index. -/
def tileFields (block index : Nat) : Option (List Field) :=
  if block = bMXE then
    match index with
    | 0 => some [⟨0, 8, .rws, 0x40⟩, ⟨8, 1, .rws, 0⟩]
    | 1 => some [⟨0, 1, .ro, 0⟩, ⟨1, 1, .ro, 0⟩, ⟨2, 1, .ro, 0⟩, ⟨3, 1, .ro, 0⟩, ⟨8, 18, .ro, 0⟩]
    | 2 => some countField
    | 3 => some countField
    | 4 => some [⟨0, 16, .rws, 0⟩, ⟨16, 16, .rws, 0⟩, ⟨32, 8, .rws, 0⟩]
    | _ => none
  else if block = bVXE then
    match index with
    | 0 => some [⟨0, 1, .rws, 0⟩]
    | 1 => some [⟨0, 1, .ro, 0⟩, ⟨1, 5, .ro, 0⟩]
    | 2 => some countField
    | 3 => some countField
    | _ => none
  else
    match index with
    | 0 => some [⟨0, 1, .ro, 0⟩, ⟨1, 1, .ro, 0⟩, ⟨16, 16, .ro, 0⟩]
    | 1 => some countField
    | _ => none

/-- Single-instance registers of a compute die, by block and index. -/
def dieFields (block index : Nat) : Option (List Field) :=
  if block = bCSE then
    match index with
    | 0 => some [⟨0, 4, .rws, 4⟩]
    | 1 => some [⟨0, 3, .ro, 0⟩, ⟨8, 8, .ro, 0⟩]
    | 4 => some [⟨0, 17, .ro, 0⟩]
    | n => if n < 8 then some countField else none
  else if block = bUPU then
    match index with
    | 0 => some [⟨0, 1, .ro, 0⟩, ⟨1, 2, .ro, 0⟩, ⟨3, 1, .ro, 0⟩]
    | n => if n < 5 then some countField else none
  else if block = bEME then
    match index with
    | 0 => some [⟨0, 1, .ro, 0⟩, ⟨1, 3, .ro, 0⟩, ⟨4, 13, .ro, 0⟩, ⟨17, 1, .ro, 0⟩]
    | 4 => some [⟨0, 4, .ro, 0⟩, ⟨4, 1, .ro, 0⟩]
    | n => if n < 8 then some countField else none
  else if block = bWH then
    match index with
    | 0 => some [⟨0, 5, .rws, 0⟩, ⟨8, 1, .rws, 1⟩]
    | 1 => some [⟨0, 1, .ro, 0⟩, ⟨1, 16, .ro, 0⟩]
    | 5 => some [⟨0, 16, .ro, 0⟩]
    | n => if n < 5 then some countField else none
  else if block = bGAU then (if index = 4 then some [⟨0, 64, .rws, 0⟩] else none)
  else none

/-- The field map of a register, or `none` where the module has no such register (R79). -/
def regFields (h : Half) (block die unit index : Nat) : Option (List Field) :=
  if die = 4 then hubFields h block unit index
  else if die > 4 then none
  else if block = bLMV then
    if unit ≥ 4 then none else
    match index with
    | 0 => some [⟨0, 1, .ro, 0⟩, ⟨1, 3, .ro, 0⟩, ⟨4, 1, .ro, 0⟩]
    | 1 => some countField
    | 2 => some countField
    | _ => none
  else if block = bMXE || block = bVXE || block = bGRU then
    if unit < 48 then tileFields block index else none
  else if block = bHBM then
    if unit ≥ 3 then none else
    match index with
    | 0 => some [⟨0, 8, .rws, 0x18⟩, ⟨8, 1, .rws, 1⟩]
    | 1 => some [⟨0, 3, .ro, 0⟩, ⟨8, 8, .ro, 0⟩, ⟨16, 8, .ro, 0⟩, ⟨24, 8, .ro, 0⟩]
    | 5 => some [⟨0, 36, .ro, 0⟩, ⟨36, 2, .ro, 0⟩, ⟨38, 1, .ro, 0⟩]
    | n => if n < 5 then some countField else none
  else if unit ≠ 0 then none
  else dieFields block index

/-- The fields of the register at a key. -/
def keyFields (h : Half) (k : Nat) : Option (List Field) :=
  regFields h (k / 2 ^ 17) (k / 2 ^ 14 % 8) (k / 256 % 64) (k % 256)

/-- The value that fields give at reset. -/
def fieldsReset : List Field → Nat
  | [] => 0
  | f :: rest => place f.reset f.lo f.width + fieldsReset rest

/-- The reset value of the register at a key. -/
def regReset (h : Half) (k : Nat) : Nat := fieldsReset ((keyFields h k).getD [])

/-! ## Cells -/

/-- The active cell of a register, before what a read computes from other state. -/
def HalfState.cell (x : HalfState) (h : Half) (k : Nat) : Nat := (find k x.regs).getD (regReset h k)

/-- Write the active cell of a register. -/
def HalfState.setCell (x : HalfState) (k v : Nat) : HalfState := { x with regs := put k v x.regs }

/-- Write one field of an active cell. -/
def HalfState.setField (x : HalfState) (h : Half) (k lo width v : Nat) : HalfState :=
  x.setCell k (setBits (x.cell h k) lo width v)

/-- Add to a count of `width` bits at `lo`, which saturates. -/
def HalfState.count32 (x : HalfState) (h : Half) (k lo n : Nat) : HalfState :=
  if n = 0 then x else x.setField h k lo 32 (sat32 (bits (x.cell h k) lo 32 + n))

/-- The shadow cell of a register (R102). -/
def HalfState.shadowCell (x : HalfState) (h : Half) (k : Nat) : Nat := (find k x.shadow).getD (x.cell h k)

/-- The cell of a commit: RWS fields from the shadow, the others as they are (R102). -/
def commitCell (fs : List Field) (active shadow : Nat) : Nat :=
  fs.foldl (fun v f => if f.acc = .rws then setBits v f.lo f.width (bits shadow f.lo f.width) else v) active

/-- Is a field of the Cistern block, which takes effect at the next window start (R104)? -/
def isCscKey (k : Nat) : Bool := k / 2 ^ 17 == bCSC

/-- A commit of the register shadow set of a half (R102 to R104): every shadowed register becomes active at once; the CSC values that
were in force stay so until the next window start. -/
def HalfState.commitRegs (x : HalfState) (h : Half) : HalfState :=
  let step (y : HalfState) (e : Nat × Nat) : HalfState :=
    let fs := (keyFields h e.1).getD []
    let z := if isCscKey e.1 && (find e.1 y.cscInForce).isNone then
        { y with cscInForce := put e.1 (x.cell h e.1) y.cscInForce } else y
    z.setCell e.1 (commitCell fs (x.cell h e.1) e.2)
  { x.shadow.foldl step x with shadow := [] }

/-- Committed CSC fields take effect at a window start (R104). -/
def HalfState.applyCsc (x : HalfState) : HalfState := { x with cscInForce := [] }

/-- The CSC register in force (R104). -/
def HalfState.cscCell (x : HalfState) (h : Half) (i : Nat) : Nat :=
  (find (hubKey bCSC i) x.cscInForce).getD (x.cell h (hubKey bCSC i))

/-! ## Registers the model reads by name -/

def HalfState.stuCfg (x : HalfState) (h : Half) : Nat := x.cell h (hubKey bSTU 2)
def HalfState.stuStatus (x : HalfState) (h : Half) : Nat := x.cell h (hubKey bSTU 3)
def HalfState.stuState (x : HalfState) (h : Half) : Nat := bits (x.stuStatus h) 0 3
def HalfState.epochOffset (x : HalfState) (h : Half) : Nat := x.cell h (hubKey bSTU 1)
def HalfState.topo (x : HalfState) (h : Half) : Nat := x.cell h (hubKey bLNK 0)
def HalfState.portReg (x : HalfState) (h : Half) (port index : Nat) : Nat := x.cell h (regKey bLNK 4 port index)
/-- LNK_STATUS.STATE of a port: 0 DOWN, 1 TRAINING, 2 ACTIVE, 3 DISABLED (R405). -/
def HalfState.portState (x : HalfState) (h : Half) (port : Nat) : Nat := bits (x.portReg h port 2) 0 3
def HalfState.fclCfg (x : HalfState) (h : Half) : Nat := x.cell h (hubKey bFCL 0)
def HalfState.sev (x : HalfState) (h : Half) (source : Nat) : Nat := x.cell h (sevKey source)
def HalfState.sticky (x : HalfState) (h : Half) (source : Nat) : Bool := bitSet (x.sev h source) 2
/-- CAP_MJ in force: values above 0x4B0 act as 0x4B0 (R55). -/
def HalfState.capMj (x : HalfState) (h : Half) : Nat := min (bits (x.cscCell h 0) 0 16) 0x4B0
/-- PEAK_MJ in force (R55). -/
def HalfState.peakMj (x : HalfState) (h : Half) : Nat :=
  max (min (bits (x.cscCell h 0) 16 16) 0x5DC) (x.capMj h)
/-- DEPTH_MJ in force (R55). -/
def HalfState.depthMj (x : HalfState) (h : Half) : Nat := min (bits (x.cscCell h 1) 0 16) 0x1770
def HalfState.baseMj (x : HalfState) (h : Half) : Nat := bits (x.cell h (hubKey bCSC 2)) 0 16
def HalfState.preferMj (x : HalfState) (h : Half) : Nat := bits (x.cscCell h 3) 0 16
def HalfState.idleStrokes (x : HalfState) (h : Half) : Nat := bits (x.cscCell h 4) 0 24
/-- FJ_PER_UNIT of an energy class (R55). -/
def HalfState.fjPerUnit (x : HalfState) (h : Half) (cls : Nat) : Nat := bits (x.cell h (hubKey bCSC (6 + cls))) 0 32
def HalfState.budget (x : HalfState) (h : Half) : Nat := bits (x.cell h (hubKey bCMP 10)) 0 24
/-- ESC_US in force (R449). -/
def HalfState.escUs (x : HalfState) (h : Half) : Nat := min (max (bits (x.fclCfg h) 0 20) 10) 1000000
def HalfState.collectMs (x : HalfState) (h : Half) : Nat := bits (x.fclCfg h) 20 8
def HalfState.noticeEn (x : HalfState) (h : Half) : Bool := bitSet (x.fclCfg h) 28

/-- LNK_TOPO as it acts: all zero when it breaks R385 or its position lies outside its extents (R405). -/
def HalfState.topoInForce (x : HalfState) (h : Half) : Nat :=
  let t := x.topo h
  let ex := bits t 12 7
  let ey := bits t 19 7
  if ex % 2 == 0 && 2 ≤ ex && ex ≤ 64 && ey % 4 == 0 && 4 ≤ ey && ey ≤ 64 && bits t 0 6 < ex && bits t 6 6 < ey then t else 0

def HalfState.myX (x : HalfState) (h : Half) : Nat := bits (x.topoInForce h) 0 6
def HalfState.myY (x : HalfState) (h : Half) : Nat := bits (x.topoInForce h) 6 6
def HalfState.extX (x : HalfState) (h : Half) : Nat := bits (x.topoInForce h) 12 7
def HalfState.extY (x : HalfState) (h : Half) : Nat := bits (x.topoInForce h) 19 7
def HalfState.myPos (x : HalfState) (h : Half) : Nat := position (x.myX h) (x.myY h)
def HalfState.e2eVer (x : HalfState) (h : Half) : Nat := bits (x.topoInForce h) 32 8
def HalfState.isBridge (x : HalfState) (h : Half) : Bool := bitSet (x.topoInForce h) 26 && h == .q

end Sys2Proof.Machine
end

