-- ==== Sys2Proof/Machine/Crossing.lean ====
section
/-! DEFINITION. The arbiter of a hub for the direction of the Siphon that leaves it (R26 to R28, R30): the classes of flits, the flit
that goes next, and the flits that leave in a stroke. -/

namespace Sys2Proof.Machine

/-- The classes of Siphon flits (R26). -/
inductive SiphonClass where
  | urgent
  | time
  | command
  | coll
  | tensor
deriving DecidableEq, Repr

/-- The number of a class in the BYTES gauges (R455). -/
def SiphonClass.number : SiphonClass → Nat
  | .urgent => 0
  | .time => 1
  | .command => 2
  | .coll => 3
  | .tensor => 4

/-- Bytes of a flit (R22). -/
def flitBytes : Nat := 64

/-- Flits that the Siphon carries in one direction in a stroke: 256 GB/s for 10 ns (R22). -/
def flitsPerStroke : Nat := 256 * 10 / flitBytes

/-- Flits of a class join those that wait. -/
def SiphonOut.add (o : SiphonOut) (c : SiphonClass) (n : Nat) : SiphonOut :=
  match c with
  | .urgent => { o with urgent := o.urgent + n }
  | .time => { o with time := o.time + n }
  | .command => { o with command := o.command + n }
  | .coll => { o with coll := o.coll + n }
  | .tensor => { o with tensor := o.tensor + n }

/-- WEIGHT_COLL, WEIGHT_TENSOR and CMD_MIN_GBPS of SIPHON_ARB; a guarantee above 0x40 acts as 0x40 (R30). -/
def arbColl (arb : Nat) : Nat := bits arb 0 8
def arbTensor (arb : Nat) : Nat := bits arb 8 8
def arbCmdGbps (arb : Nat) : Nat := min (bits arb 16 8) 0x40

/-- SIPHON_ARB of a hub. -/
def HalfState.siphonArb (x : HalfState) (h : Half) : Nat := x.cell h (hubKey bSIPHON 0)

/-- COMMAND flits sent in the last 1,000 strokes. -/
def SiphonOut.recent (o : SiphonOut) (now : Nat) : Nat := total ((o.sent.filter fun e => now < e.1 + 1000).map (·.2))

/-- Has COMMAND used less than its guaranteed bandwidth over the last 1,000 strokes (R26)? One GB/s is 10,000 bytes in them. -/
def SiphonOut.commandOwed (o : SiphonOut) (arb now : Nat) : Bool := flitBytes * o.recent now < 10000 * arbCmdGbps arb

/-- The weight that a class has in the round robin while the other waits too; two weights of zero are equal shares (R28). -/
def weightOf (arb : Nat) (tensor : Bool) : Nat :=
  if arbColl arb = 0 && arbTensor arb = 0 then 1 else if tensor then arbTensor arb else arbColl arb

/-- The choice between COLLECTIVE and TENSOR (R26, R28): weighted round robin, and a class of weight zero only when the other does not
wait. -/
def SiphonOut.weighted (o : SiphonOut) (arb : Nat) : Option SiphonClass :=
  if o.coll = 0 then (if o.tensor = 0 then none else some .tensor)
  else if o.tensor = 0 then some .coll
  else if weightOf arb false = 0 then some .tensor
  else if weightOf arb true = 0 then some .coll
  else some (if o.tensorTurn == decide (o.left ≠ 0) then .tensor else .coll)

/-- The class whose flit the hub sends next (R26). -/
def SiphonOut.pick (o : SiphonOut) (arb now : Nat) : Option SiphonClass :=
  if 0 < o.urgent then some .urgent
  else if 0 < o.time then some .time
  else if 0 < o.command && o.commandOwed arb now then some .command
  else match o.weighted arb with
    | some c => some c
    | none => if 0 < o.command then some .command else none

/-- The turn of the round robin after a flit of one of its classes. -/
def SiphonOut.turn (o : SiphonOut) (arb : Nat) (tensor : Bool) : SiphonOut :=
  if o.tensorTurn = tensor && o.left ≠ 0 then { o with left := o.left - 1 }
  else { o with tensorTurn := tensor, left := weightOf arb tensor - 1 }

/-- A flit of a class leaves. -/
def SiphonOut.depart (o : SiphonOut) (arb now : Nat) (c : SiphonClass) : SiphonOut :=
  match c with
  | .urgent => { o with urgent := o.urgent - 1 }
  | .time => { o with time := o.time - 1 }
  | .command => { o with command := o.command - 1, sent := Table.bump (o.sent.filter fun e => now < e.1 + 1000) now 1 }
  | .coll => { o.turn arb false with coll := o.coll - 1 }
  | .tensor => { o.turn arb true with tensor := o.tensor - 1 }

/-- Up to `n` flits leave; the classes of those that did, in order. -/
def SiphonOut.run (arb now : Nat) : Nat → SiphonOut → SiphonOut × List SiphonClass
  | 0, o => (o, [])
  | n + 1, o =>
    match o.pick arb now with
    | none => (o, [])
    | some c =>
      let r := SiphonOut.run arb now n (o.depart arb now c)
      (r.1, c :: r.2)

end Sys2Proof.Machine
end

