-- ==== Sys2Proof/Machine/Numerics.lean ====
section
/-! DEFINITION. Number formats, rounding and conversion (06_numerics.md, R155 to R165, R177 to R181) and the exact arithmetic the
engines are defined over. A value is exact until a rounding narrows it. -/

namespace Sys2Proof.Machine

/-- A value of a floating-point format: NaN, an infinity, or the exact number (-1)^neg × m × 2^e, where m = 0 is a signed zero. -/
inductive FVal where
  | nan
  | inf (neg : Bool)
  | fin (neg : Bool) (m : Nat) (e : Int)
deriving DecidableEq, Repr

/-- The format codes of R117 and R155. -/
inductive Fmt where
  | fp32
  | bf16
  | fp16
  | e4m3
  | e5m2
  | int8
deriving DecidableEq, Repr

/-- The format a code names (R117); codes 6 and 7 are reserved. -/
def Fmt.ofCode : Nat → Option Fmt
  | 0 => some .fp32
  | 1 => some .bf16
  | 2 => some .fp16
  | 3 => some .e4m3
  | 4 => some .e5m2
  | 5 => some .int8
  | _ => none

/-- The code of a format (R117). -/
def Fmt.code : Fmt → Nat
  | .fp32 => 0
  | .bf16 => 1
  | .fp16 => 2
  | .e4m3 => 3
  | .e5m2 => 4
  | .int8 => 5

/-- Element size in bytes (R186). -/
def Fmt.bytes : Fmt → Nat
  | .fp32 => 4
  | .bf16 => 2
  | .fp16 => 2
  | _ => 1

/-- Exponent field width (R155); 0 for INT8. -/
def Fmt.expBits : Fmt → Nat
  | .fp32 => 8
  | .bf16 => 8
  | .fp16 => 5
  | .e4m3 => 4
  | .e5m2 => 5
  | .int8 => 0

/-- Mantissa field width (R155). -/
def Fmt.manBits : Fmt → Nat
  | .fp32 => 23
  | .bf16 => 7
  | .fp16 => 10
  | .e4m3 => 3
  | .e5m2 => 2
  | .int8 => 0

/-- Exponent bias (R155). -/
def Fmt.bias (f : Fmt) : Int := 2 ^ (f.expBits - 1) - 1

/-- Is the format one of the two FP8 formats? -/
def Fmt.isFp8 : Fmt → Bool
  | .e4m3 => true
  | .e5m2 => true
  | _ => false

/-- The largest finite value as a mantissa and a quantum exponent (R155). -/
def Fmt.maxFinite (f : Fmt) : Nat × Int :=
  match f with
  | .e4m3 => (14, 5)
  | _ => (2 ^ (f.manBits + 1) - 1, (2 ^ f.expBits - 2 : Int) - f.bias - f.manBits)

/-- MAXF of R171 and R362: 448 for E4M3, 57,344 for E5M2. -/
def Fmt.maxF : Fmt → Nat
  | .e4m3 => 448
  | _ => 57344

/-- The code of the canonical quiet NaN (R156). -/
def Fmt.nanCode : Fmt → Nat
  | .fp32 => 0x7FC00000
  | .bf16 => 0x7FC0
  | .fp16 => 0x7E00
  | .e4m3 => 0x7F
  | .e5m2 => 0x7E
  | .int8 => 0

/-- Fast or strict arithmetic (R160, R161). -/
inductive FMode where
  | fast
  | strict
deriving DecidableEq, Repr

/-- The mode a STRICT bit names. -/
def FMode.ofStrict (b : Bool) : FMode := if b then .strict else .fast

/-! ## Exact values -/

/-- m × 2^e compared with n × 2^f, both non-negative. -/
def cmpDyadic (m : Nat) (e : Int) (n : Nat) (f : Int) : Ordering :=
  let lo := min e f
  compare (m <<< (e - lo).toNat) (n <<< (f - lo).toNat)

/-- Signed integer of an exact value at exponent `lo`, which is not above its own. -/
def FVal.atExp (neg : Bool) (m : Nat) (e lo : Int) : Int :=
  let v : Int := ((m <<< (e - lo).toNat : Nat) : Int)
  if neg then -v else v

/-- Is the value finite? -/
def FVal.isFinite : FVal → Bool
  | .fin _ _ _ => true
  | _ => false

/-- Is the value NaN? -/
def FVal.isNan : FVal → Bool
  | .nan => true
  | _ => false

/-- Is the value a zero of either sign? -/
def FVal.isZero : FVal → Bool
  | .fin _ 0 _ => true
  | _ => false

/-- The sign bit of a value; false for NaN. -/
def FVal.sign : FVal → Bool
  | .nan => false
  | .inf n => n
  | .fin n _ _ => n

/-- The value with its sign reversed; NaN stays NaN. -/
def FVal.negate : FVal → FVal
  | .nan => .nan
  | .inf n => .inf (!n)
  | .fin n m e => .fin (!n) m e

/-- The magnitude of a value. -/
def FVal.abs : FVal → FVal
  | .nan => .nan
  | .inf _ => .inf false
  | .fin _ m e => .fin false m e

/-- +0. -/
def FVal.zero : FVal := .fin false 0 0

/-- 1.0. -/
def FVal.one : FVal := .fin false 1 0

/-- The exact value of an integer. -/
def FVal.ofInt (i : Int) : FVal := .fin (i < 0) i.natAbs 0

/-- An exact value times 2^k. -/
def FVal.scale (k : Int) : FVal → FVal
  | .fin n m e => .fin n m (e + k)
  | v => v

/-- Exact product, with the IEEE 754-2019 special cases (R160). -/
def FVal.mul : FVal → FVal → FVal
  | .nan, _ => .nan
  | _, .nan => .nan
  | .inf a, .inf b => .inf (a != b)
  | .inf a, .fin b m _ => if m = 0 then .nan else .inf (a != b)
  | .fin a m _, .inf b => if m = 0 then .nan else .inf (a != b)
  | .fin a m e, .fin b n f => .fin (a != b) (m * n) (e + f)

/-- Exact sum. An exact zero sum is +0, except that (-0) + (-0) is -0 (R162). -/
def FVal.add : FVal → FVal → FVal
  | .nan, _ => .nan
  | _, .nan => .nan
  | .inf a, .inf b => if a = b then .inf a else .nan
  | .inf a, .fin _ _ _ => .inf a
  | .fin _ _ _, .inf b => .inf b
  | .fin a m e, .fin b n f =>
    let lo := min e f
    let s := FVal.atExp a m e lo + FVal.atExp b n f lo
    if s = 0 then .fin (a && b && m = 0 && n = 0) 0 0 else .fin (s < 0) s.natAbs lo

/-- a < b on numbers, false when either is NaN; zeros compare equal. -/
def FVal.lt : FVal → FVal → Bool
  | .nan, _ => false
  | _, .nan => false
  | .inf a, .inf b => a && !b
  | .inf a, .fin _ _ _ => a
  | .fin _ _ _, .inf b => !b
  | .fin a m e, .fin b n f =>
    let lo := min e f
    FVal.atExp a m e lo < FVal.atExp b n f lo

/-- a ≤ b on numbers, false when either is NaN. -/
def FVal.le (a b : FVal) : Bool := !a.isNan && !b.isNan && !(FVal.lt b a)

/-- Numeric equality, false when either is NaN. -/
def FVal.eqv (a b : FVal) : Bool := FVal.le a b && FVal.le b a

/-! ## Rounding -/

/-- m × 2^(-k) rounded to an integer, to nearest with ties to even. -/
def rneShift (m k : Nat) : Nat :=
  if k = 0 then m
  else
    let q := m >>> k
    let r := m % 2 ^ k
    let half := 2 ^ (k - 1)
    if r < half then q else if half < r then q + 1 else q + q % 2

/-- m × 2^e rounded to a multiple of 2^qe, in units of 2^qe, to nearest with ties to even. -/
def rneAt (m : Nat) (e qe : Int) : Nat :=
  if qe ≤ e then m <<< (e - qe).toNat else rneShift m (qe - e).toNat

/-- The exponent of the leading bit of a non-zero m × 2^e. -/
def topExp (m : Nat) (e : Int) : Int := (Nat.log2 m : Int) + e

/-- The outcome of rounding a value into a format: the stored code and whether the conversion is an overflow event (R164). -/
structure Rounded where
  code : Nat
  overflow : Bool
deriving DecidableEq, Repr

/-- The code of a sign and a magnitude code of a format. -/
def Fmt.withSign (f : Fmt) (neg : Bool) (mag : Nat) : Nat :=
  (if neg then 2 ^ (f.expBits + f.manBits) else 0) + mag

/-- The magnitude code of n × 2^qe, which lies on the format's grid and is not above its largest finite value. -/
def Fmt.encodeFinite (f : Fmt) (n : Nat) (qe : Int) : Nat :=
  if n = 0 then 0
  else
    let emin := 1 - f.bias
    let t := topExp n qe
    if t < emin then n >>> ((emin - f.manBits) - qe).toNat <<< (qe - (emin - f.manBits)).toNat
    else
      let sh := t - f.manBits
      let frac := if qe ≤ sh then n >>> (sh - qe).toNat else n <<< (qe - sh).toNat
      ((t + f.bias).toNat) <<< f.manBits + (frac - 2 ^ f.manBits)

/-- The code of an infinite result, or of what the format holds in its place (R160, R161, R163). -/
def Fmt.infinity (f : Fmt) (md : FMode) (neg : Bool) : Nat :=
  match f, md with
  | .e4m3, .fast => f.withSign neg 0x7E
  | .e4m3, .strict => f.nanCode
  | .e5m2, .fast => f.withSign neg 0x7B
  | _, _ => f.withSign neg ((2 ^ f.expBits - 1) <<< f.manBits)

/-- The code of a finite result above the largest finite value (R160 step 5, R161). -/
def Fmt.overflowed (f : Fmt) (md : FMode) (neg : Bool) : Nat :=
  match f, md with
  | .e4m3, _ => f.withSign neg 0x7E
  | .e5m2, .fast => f.withSign neg 0x7B
  | _, _ => f.withSign neg ((2 ^ f.expBits - 1) <<< f.manBits)

/-- Rounding of an exact value into a floating-point format under a mode (R160, R161, R163). -/
def roundTo (f : Fmt) (md : FMode) : FVal → Rounded
  | .nan => ⟨f.nanCode, false⟩
  | .inf n => ⟨f.infinity md n, f.isFp8⟩
  | .fin neg m e =>
    if m = 0 then ⟨f.withSign neg 0, false⟩
    else
      let emin := 1 - f.bias
      let t := topExp m e
      let qe := match md with
        | .fast => t - f.manBits
        | .strict => max t emin - f.manBits
      let n := rneAt m e qe
      let (mx, me) := f.maxFinite
      if cmpDyadic n qe mx me = .gt then ⟨f.overflowed md neg, true⟩
      else if md = .fast && topExp n qe < emin then ⟨f.withSign neg 0, false⟩
      else ⟨f.withSign neg (f.encodeFinite n qe), false⟩

/-- The value a storage code of a format stands for (R155, R157). `sgn` is the signedness of an INT8 operand. -/
def Fmt.decode (f : Fmt) (sgn : Bool) (code : Nat) : FVal :=
  match f with
  | .int8 => FVal.ofInt (if sgn then signed (code % 256) 8 else (code % 256 : Nat))
  | _ =>
    let neg := bitSet code (f.expBits + f.manBits)
    let ex := bits code f.manBits f.expBits
    let man := bits code 0 f.manBits
    let special := ex = 2 ^ f.expBits - 1
    if f = .e4m3 then
      if special && man = 7 then .nan
      else if ex = 0 then .fin neg man (1 - f.bias - f.manBits)
      else .fin neg (2 ^ f.manBits + man) ((ex : Int) - f.bias - f.manBits)
    else if special then (if man = 0 then .inf neg else .nan)
    else if ex = 0 then .fin neg man (1 - f.bias - f.manBits)
    else .fin neg (2 ^ f.manBits + man) ((ex : Int) - f.bias - f.manBits)

/-- A subnormal input of fast mode is replaced by a zero of the same sign (R160 step 1); an INT8 value is an integer (R157). -/
def flushIn (f : Fmt) (md : FMode) (v : FVal) : FVal :=
  match md, v with
  | .fast, .fin n m e => if f ≠ .int8 && m ≠ 0 && topExp m e < 1 - f.bias then .fin n 0 0 else v
  | _, _ => v

/-- An input of an operation: decoded, and flushed in fast mode. -/
def input (f : Fmt) (md : FMode) (sgn : Bool) (code : Nat) : FVal := flushIn f md (f.decode sgn code)

/-- The FP32 value of a 32-bit code. -/
def f32 (c : Nat) : FVal := Fmt.fp32.decode false c

/-- An FP32 input under a mode. -/
def f32in (md : FMode) (c : Nat) : FVal := input .fp32 md false c

/-- round32: an exact value rounded to an FP32 code under a mode. -/
def round32 (md : FMode) (v : FVal) : Nat := (roundTo .fp32 md v).code

/-- FP32 addition of codes, one rounding. -/
def add32 (md : FMode) (a b : Nat) : Nat := round32 md (FVal.add (f32in md a) (f32in md b))

/-- FP32 subtraction of codes, one rounding. -/
def sub32 (md : FMode) (a b : Nat) : Nat := round32 md (FVal.add (f32in md a) (f32in md b).negate)

/-- FP32 multiplication of codes, one rounding. -/
def mul32 (md : FMode) (a b : Nat) : Nat := round32 md (FVal.mul (f32in md a) (f32in md b))

/-- fma32: exact product, one rounding (R120). -/
def fma32 (md : FMode) (a b c : Nat) : Nat :=
  round32 md (FVal.add (FVal.mul (f32in md a) (f32in md b)) (f32in md c))

/-- The sign bit of an FP32 code reversed; a NaN stays a NaN. -/
def neg32 (a : Nat) : Nat := a ^^^ 0x80000000

/-- The FP32 code with its sign bit cleared. -/
def abs32 (a : Nat) : Nat := a % 0x80000000

/-- Integer square root, by bits: the largest r with r² ≤ n, for n below 2^(2k). -/
def isqrtAux (n : Nat) : Nat → Nat → Nat
  | 0, r => r
  | k + 1, r =>
    let c := r + 2 ^ k
    isqrtAux n k (if c * c ≤ n then c else r)

/-- Integer square root. -/
def isqrt (n : Nat) : Nat := isqrtAux n (Nat.log2 n / 2 + 1) 0

/-- The quotient of two exact values, kept to more bits than any format and with a sticky last bit, so that one later rounding
is correct. Division by zero and the other special cases follow IEEE 754-2019. -/
def FVal.div : FVal → FVal → FVal
  | .nan, _ => .nan
  | _, .nan => .nan
  | .inf _, .inf _ => .nan
  | .inf a, .fin b _ _ => .inf (a != b)
  | .fin a _ _, .inf b => .fin (a != b) 0 0
  | .fin a m e, .fin b n f =>
    if n = 0 then (if m = 0 then .nan else .inf (a != b))
    else if m = 0 then .fin (a != b) 0 0
    else
      let sh := 80 + Nat.log2 n - min (80 + Nat.log2 n) (Nat.log2 m)
      let num := m <<< sh
      let q := num / n
      let s := if num % n = 0 then 0 else 1
      .fin (a != b) (2 * q + s) (e - f - sh - 1)

/-- The square root of an exact value, kept to more bits than any format and with a sticky last bit. -/
def FVal.sqrt : FVal → FVal
  | .nan => .nan
  | .inf n => if n then .nan else .inf false
  | .fin n m e =>
    if m = 0 then .fin n 0 0
    else if n then .nan
    else
      let sh : Nat := 160 + (if (e % 2 = 0) then 0 else 1)
      let v := m <<< sh
      let r := isqrt v
      let s := if r * r = v then 0 else 1
      .fin false (2 * r + s) ((e - sh) / 2 - 1)

/-- div32, rounded once to nearest even. -/
def div32 (a b : Nat) : Nat := round32 .strict (FVal.div (f32 a) (f32 b))

/-- sqrt32, rounded once to nearest even. -/
def sqrt32 (a : Nat) : Nat := round32 .strict (FVal.sqrt (f32 a))

/-- An exact value rounded to an integer, to nearest with ties to even; 0 for a value that is not finite. -/
def rneInt : FVal → Int
  | .fin n m e =>
    let v : Int := (rneAt m e 0 : Nat)
    if n then -v else v
  | _ => 0

/-- rne32 of R123: an INT32 accumulator rounded to FP32. -/
def rne32 (acc : Nat) : Nat := round32 .strict (FVal.ofInt (signed (acc % 2 ^ 32) 32))

/-- maximum of R142: canonical NaN when either is NaN, -0 ordered below +0. -/
def maximum (a b : FVal) : FVal :=
  if a.isNan || b.isNan then .nan
  else if FVal.lt a b then b
  else if FVal.lt b a then a
  else if a.sign then b else a

/-- minimum of R142. -/
def minimum (a b : FVal) : FVal :=
  if a.isNan || b.isNan then .nan
  else if FVal.lt a b then a
  else if FVal.lt b a then b
  else if a.sign then a else b

/-! ## Conversion through a scale slot -/

/-- The smallest integer e with 2 × h ≤ MAXF × 2^e, for a finite h > 0 (R171); with `twice` false, h ≤ MAXF × 2^e (R362). -/
def smallestExp (f : Fmt) (twice : Bool) (m : Nat) (ex : Int) : Int :=
  let m2 := if twice then 2 * m else m
  let (mx, me) := f.maxFinite
  let guess := topExp m2 ex - topExp mx me
  if cmpDyadic m2 ex mx (me + guess) = .gt then guess + 1 else guess

/-- The smallest integer f with v ≤ 2^f, for v = m × 2^e with m > 0. -/
def ceilLog2 (m : Nat) (e : Int) : Int :=
  let t := topExp m e
  if m = 2 ^ Nat.log2 m then t else t + 1

/-! ## Stochastic rounding (R177 to R181) -/

/-- One round of Philox4x32 on counter and key words (R178). -/
def philoxRound (c0 c1 c2 c3 k0 k1 : Nat) : Nat × Nat × Nat × Nat :=
  let p0 := 0xD2511F53 * c0
  let p1 := 0xCD9E8D57 * c2
  let w := 2 ^ 32
  (((p1 / w) ^^^ c1 ^^^ k0) % w, p1 % w, ((p0 / w) ^^^ c3 ^^^ k1) % w, p0 % w)

/-- `n` rounds of Philox4x32, the key stepped between rounds (R178). -/
def philoxRounds : Nat → Nat → Nat → Nat → Nat → Nat → Nat → Nat × Nat × Nat × Nat
  | 0, c0, c1, c2, c3, _, _ => (c0, c1, c2, c3)
  | n + 1, c0, c1, c2, c3, k0, k1 =>
    let (d0, d1, d2, d3) := philoxRound c0 c1 c2 c3 k0 k1
    philoxRounds n d0 d1 d2 d3 ((k0 + 0x9E3779B9) % 2 ^ 32) ((k1 + 0xBB67AE85) % 2 ^ 32)

/-- The random word u of an element (R178): context seed, step number, tensor ID and element index. -/
def randomWord (seed step tensor elem : Nat) : Nat :=
  let ctr := (elem % 2 ^ 64) >>> 2
  let (r0, r1, r2, r3) :=
    philoxRounds 10 (bits ctr 0 32) (bits ctr 32 32) (step % 2 ^ 32) (tensor % 2 ^ 32) (bits seed 0 32) (bits seed 32 32)
  match elem % 4 with
  | 0 => r0
  | 1 => r1
  | 2 => r2
  | _ => r3

/-- Stochastic rounding of x into a format with random word u (R179, R180): the code, and whether the element was saturated. -/
def stochastic (f : Fmt) (u : Nat) : FVal → Rounded
  | .nan => ⟨f.nanCode, false⟩
  | .inf n => ⟨f.withSign n (f.encodeFinite f.maxFinite.1 f.maxFinite.2), true⟩
  | .fin neg m e =>
    if m = 0 then ⟨f.withSign neg 0, false⟩
    else
      let (mx, me) := f.maxFinite
      if cmpDyadic m e mx me = .gt then ⟨f.withSign neg (f.encodeFinite mx me), true⟩
      else
        let qe := max (topExp m e) (1 - f.bias) - f.manBits
        if qe ≤ e then ⟨f.withSign neg (f.encodeFinite (m <<< (e - qe).toNat) qe), false⟩
        else
          let k := (qe - e).toNat
          let lo := m >>> k
          let r := m % 2 ^ k
          if r = 0 then ⟨f.withSign neg (f.encodeFinite lo qe), false⟩
          else
            let thr := (r <<< 32) >>> k
            ⟨f.withSign neg (f.encodeFinite (if u % 2 ^ 32 < thr then lo + 1 else lo) qe), false⟩

/-- The neighbours lo and hi of R179 as codes; both are x itself where x is representable, and the saturated code above the range. -/
def neighbours (f : Fmt) : FVal → Nat × Nat
  | .nan => (f.nanCode, f.nanCode)
  | .inf n => let c := f.withSign n (f.encodeFinite f.maxFinite.1 f.maxFinite.2); (c, c)
  | .fin neg m e => ((stochastic f max32 (.fin neg m e)).code, (stochastic f 0 (.fin neg m e)).code)

/-! ## The four functions of the VXE (R142) -/

/-- Fixed-point square root of 2^(2^-i) at 96 fraction bits: the chain that builds a power of two from its fraction bits. -/
def exp2Frac : Nat → Nat → Nat → Nat → Nat
  | 0, _, _, acc => acc
  | n + 1, frac, root, acc =>
    let root' := isqrt (root <<< 96)
    let b := (frac >>> n) % 2
    exp2Frac n (frac % 2 ^ n) root' (if b = 1 then (acc * root') >>> 96 else acc)

/-- 2^a for a finite a of moderate size, cut far below the last place of any format, with a sticky last bit unless a is an integer. -/
def exp2Reference (neg : Bool) (m : Nat) (e : Int) : FVal :=
  let fx : Int := if e ≥ -64 then ((m <<< (e + 64).toNat : Nat) : Int) else ((m >>> (-64 - e).toNat : Nat) : Int)
  let lost : Bool := e < -64 && m % 2 ^ (-64 - e).toNat ≠ 0
  let v := if neg then (if lost then -fx - 1 else -fx) else fx
  let ip := v / (2 ^ 64 : Int)
  let fp := (v % (2 ^ 64 : Int)).toNat
  .fin false (2 * exp2Frac 64 fp (2 ^ 97) (2 ^ 96) + (if fp = 0 && !lost then 0 else 1)) (ip - 97)

/-- Fraction bits of a base-2 logarithm by repeated squaring, of a mantissa in [1, 2) at 96 fraction bits. -/
def log2Frac : Nat → Nat → Nat → Nat
  | 0, _, acc => acc
  | n + 1, x, acc =>
    let y := (x * x) >>> 96
    if y < 2 ^ 97 then log2Frac n y (2 * acc) else log2Frac n (y >>> 1) (2 * acc + 1)

/-- log₂ of m × 2^e, m > 0, cut far below the last place of any format, with a sticky last bit unless the result is an integer. -/
def log2Reference (m : Nat) (e : Int) : FVal :=
  let t := topExp m e
  let k := Nat.log2 m
  let x := if k ≤ 96 then m <<< (96 - k) else m >>> (k - 96)
  let fr := log2Frac 80 x 0
  let v : Int := 2 * (t * (2 ^ 80 : Int) + fr) + (if m = 2 ^ k then 0 else 1)
  .fin (v < 0) v.natAbs (-81)

/-- The magnitude code of the largest finite value of a format. -/
def Fmt.maxCode (f : Fmt) : Nat := f.encodeFinite f.maxFinite.1 f.maxFinite.2

/-- The magnitude code of the smallest normal of a format. -/
def Fmt.minNormal (f : Fmt) : Nat := 2 ^ f.manBits

/-- The magnitude code of the largest value of a format that is not above m × 2^e, and whether it is below it. -/
def Fmt.floorCode (f : Fmt) (m : Nat) (e : Int) : Nat × Bool :=
  if m = 0 then (0, false) else
  let (mx, me) := f.maxFinite
  if cmpDyadic m e mx me = .gt then (f.maxCode, true) else
  let qe := max (topExp m e) (1 - f.bias) - f.manBits
  if qe ≤ e then (f.encodeFinite (m <<< (e - qe).toNat) qe, false)
  else (f.encodeFinite (m >>> (qe - e).toNat) qe, m % 2 ^ (qe - e).toNat ≠ 0)

/-- The first and the last magnitude code whose value lies within `bound` units in the last place of m × 2^e. The unit is that of the
binade that holds the value. -/
def Fmt.ulpRange (f : Fmt) (bound m : Nat) (e : Int) : Nat × Nat :=
  let qe := (if m = 0 then 1 - f.bias else max (topExp m e) (1 - f.bias)) - f.manBits
  let l := min e qe
  let v := m <<< (e - l).toNat
  let u := bound <<< (qe - l).toNat
  let lo := f.floorCode (v - u) l
  ((if lo.2 then min f.maxCode (lo.1 + 1) else lo.1), (f.floorCode (v + u) l).1)

/-- The free choice of a function's output bits among the values of the lane format within `bound` units in the last place of the exact
result (R142): a value of R182's published vectors, which the spec does not hold. An inexact result ends in a sticky bit. In fast mode
a subnormal output is a zero. The sign of a zero result is free too. -/
def chooseUlps (op bound : Nat) (f : Fmt) (md : FMode) (code : Nat) (v : FVal) : Nat :=
  let ref := (roundTo f md v).code
  match v with
  | .fin neg m e =>
    if ref % 2 ^ (f.expBits + f.manBits) > f.maxCode then ref else
    let r := f.ulpRange bound m e
    let pick := Config.functionChoice (op * 16 + f.code * 2 + (if md = .strict then 1 else 0)) code
    let mag := r.1 + pick % (r.2 - r.1 + 1)
    f.withSign (if m = 0 then pick / (r.2 - r.1 + 1) % 2 = 1 else neg) (if md = .fast && mag < f.minNormal then 0 else mag)
  | _ => ref

/-- A zero, infinity or NaN result of a function as a code of a format. -/
def special (f : Fmt) (v : FVal) : Nat := (roundTo f .strict v).code

/-- VEXP2 on a code of the lane format (R142). -/
def vexp2 (f : Fmt) (md : FMode) (c : Nat) : Nat :=
  match input f md false c with
  | .nan => f.nanCode
  | .inf n => if n then 0 else special f (.inf false)
  | .fin n m e =>
    if !n && cmpDyadic m e 128 0 ≠ .lt then special f (.inf false)
    else if n && md = .fast && cmpDyadic m e 126 0 = .gt then 0
    else if n && cmpDyadic m e 160 0 = .gt then chooseUlps 0x26 2 f md c (.fin false 1 (-400))
    else chooseUlps 0x26 2 f md c (exp2Reference n m e)

/-- VLOG2 on a code of the lane format (R142). -/
def vlog2 (f : Fmt) (md : FMode) (c : Nat) : Nat :=
  match input f md false c with
  | .nan => f.nanCode
  | .inf n => if n then f.nanCode else special f (.inf false)
  | .fin n m e =>
    if m = 0 then special f (.inf true)
    else if n then f.nanCode
    else chooseUlps 0x27 2 f md c (log2Reference m e)

/-- VRCP on a code of the lane format (R142). -/
def vrcp (f : Fmt) (md : FMode) (c : Nat) : Nat :=
  match input f md false c with
  | .nan => f.nanCode
  | .inf n => special f (.fin n 0 0)
  | .fin n m e =>
    if m = 0 then special f (.inf n)
    else chooseUlps 0x28 1 f md c (FVal.div FVal.one (.fin n m e))

/-- VRSQRT on a code of the lane format (R142). -/
def vrsqrt (f : Fmt) (md : FMode) (c : Nat) : Nat :=
  match input f md false c with
  | .nan => f.nanCode
  | .inf n => if n then f.nanCode else 0
  | .fin n m e =>
    if m = 0 then special f (.inf n)
    else if n then f.nanCode
    else chooseUlps 0x29 1 f md c (FVal.div FVal.one (FVal.sqrt (.fin n m e)))

/-! ## One multiply-add step and the store path (R120, R123) -/

/-- Steps of one cell over pairs of operand codes, in ascending k (R120). INT8 products and sums are exact in INT32. -/
def macChain (fa fb : Fmt) (sa sb : Bool) (md : FMode) : List (Nat × Nat) → Nat → Nat
  | [], acc => acc
  | (a, b) :: rest, acc =>
    macChain fa fb sa sb md rest
      (if fa = .int8 then
        unsigned (signed (acc % 2 ^ 32) 32 + rneInt (fa.decode sa a) * rneInt (fb.decode sb b)) 32
      else round32 md (FVal.add (FVal.mul (input fa md sa a) (input fb md sb b)) (f32in md acc)))

/-- An operand pair that R118 permits. -/
def pairOk (a b : Nat) : Bool :=
  ((a = 3 || a = 4) && (b = 3 || b = 4)) || (a = b && (a = 5 || a < 3))

/-- A code of a format widened to FP32, which is exact but for subnormal inputs in fast mode (R163). -/
def widen (f : Fmt) (md : FMode) (c : Nat) : Nat := round32 md (input f md true c)

/-- R123 up to the final conversion: `s` is the scale product, `old` the destination's value under ACC_ADD. -/
def storeValue (md : FMode) (int : Bool) (s acc : Nat) (old bias : Option Nat) (relu : Bool) : Nat :=
  let v0 := if int then rne32 acc else acc
  let v1 := mul32 md v0 s
  let v2 := match old with | some o => add32 md v1 o | none => v1
  let v3 := match bias with | some b => add32 md v2 b | none => v2
  if relu && FVal.le (f32 v3) FVal.zero then 0 else v3

/-- A conversion of an FP32 code, through the exponent of a scale slot if there is one (R163, R168). -/
def convert (f : Fmt) (md : FMode) (slot : Option Int) (v : Nat) : Rounded :=
  roundTo f md ((f32in md v).scale (match slot with | some e => -e | none => 0))

/-- What a conversion reports to its slot: the magnitude of a finite value, and its overflow event (R170). -/
def reportOf (v : Nat) (r : Rounded) : Nat × Nat :=
  (if (f32 v).isFinite then v % 0x80000000 else 0, if r.overflow then 1 else 0)

/-- The FP32 code of 2^e. -/
def pow2Code (e : Int) : Nat := round32 .strict (.fin false 1 e)

end Sys2Proof.Machine
end

