-- ==== Sys2Proof/Machine/Flags.lean ====
section
/-! DEFINITION. Status codes (R11), reason codes (R74), the results that carry them, and the order in which a command reports
one of several conditions (R14). -/

namespace Sys2Proof.Machine

/-! ## Status codes (R11) -/

def stOk : Nat := 0x0000
def stEmpty : Nat := 0x0001
def stPartial : Nat := 0x0002
def stLateFolded : Nat := 0x0003
def stDesc : Nat := 0x8001
def stUnsupported : Nat := 0x8002
def stVersion : Nat := 0x8003
def stDead : Nat := 0x8004
def stIntegrity : Nat := 0x8005
def stDivergence : Nat := 0x8006
def stBoundsWrite : Nat := 0x8007
def stFault : Nat := 0x8008
def stEnergyCap : Nat := 0x8009
def stTimeout : Nat := 0x800A

/-- Bit 15: the error class (R12). -/
def isError (st : Nat) : Bool := bitSet st 15

/-- A refusal: no effect and no signal (R13). -/
def isRefusal (st : Nat) : Bool := (stDesc ≤ st && st ≤ stDead) || st == stEnergyCap

/-! ## Reasons (R74) -/

def rsField : Nat := 1
def rsMapMiss : Nat := 2
def rsReadonly : Nat := 3
def rsTornDown : Nat := 4
def rsPeer : Nat := 5
def rsSeal : Nat := 6
def rsEnergy : Nat := 7
def rsEngine : Nat := 8
def rsWatchdog : Nat := 9

/-- Success with detail words. -/
def okResult (d0 d1 d2 : Nat) : Result := { status := stOk, d0 := sat32 d0, d1 := sat32 d1, d2 := sat32 d2 }

/-- OK_EMPTY (R106). -/
def emptyResult : Result := { status := stEmpty }

/-- ERR_DESC, reason FIELD, naming the bit offset of a packet field (R74). -/
def refuseField (bit : Nat) (d2 : Nat := 0) : Result :=
  { status := stDesc, d0 := rsField, d1 := bit, d2 := d2, signals := false }

/-- ERR_FAULT, reason FIELD (R204). -/
def faultField (bit d2 : Nat) : Result := { status := stFault, d0 := rsField, d1 := bit, d2 := d2 }

/-- A translation failure with its CXA: during execution ERR_FAULT, at submission ERR_DESC (R39). -/
def missResult (status reason cxa : Nat) : Result :=
  { status := status, d0 := reason, d1 := cxa % 2 ^ 32, d2 := bits cxa 32 16, signals := status ≠ stDesc }

/-- ERR_INTEGRITY, reason SEAL, with the DPA of the block (R74, R352). -/
def sealResult (dpa : Nat) : Result :=
  let b := dpa / 256 * 256
  { status := stIntegrity, d0 := rsSeal, d1 := b % 2 ^ 32, d2 := bits b 32 12 }

/-- ERR_FAULT, reason ENGINE, with a Fault Collector source number (R74, R426). -/
def engineResult (h : Half) (source : Nat) : Result :=
  { status := stFault, d0 := rsEngine, d1 := h.part * 1024 + source }

/-- ERR_FAULT, reason TORN_DOWN, with the generation that ended; it signals no gate (R99). -/
def tornResult (gen : Nat) : Result := { status := stFault, d0 := rsTornDown, d1 := gen, signals := false }

/-- ERR_FAULT, reason TORN_DOWN, of a command that a half reset or a lost event ends while its context lives on: its gates are
signalled (R13, R448). -/
def lostResult (gen : Nat) : Result := { tornResult gen with signals := true }

/-- Rank of conditions detected in the same stroke (R14), lower first. -/
def sameStrokeRank (st : Nat) : Nat :=
  if st = stFault then 0
  else if st = stIntegrity then 1
  else if st = stDivergence then 2
  else if st = stBoundsWrite then 3
  else if st = stTimeout then 4
  else 5

/-- The result a command that ends in two halves reports: the first error by the order of R14, else the home half's (R31). -/
def worse (a b : Result) : Result :=
  if !isError a.status && isError b.status then b
  else if isError a.status && isError b.status && sameStrokeRank b.status < sameStrokeRank a.status then b
  else a

end Sys2Proof.Machine
end

