-- ==== Sys2Proof/Machine/Operands.lean ====
section
/-! DEFINITION. Operand forms: the fields of a command packet (R70, R71), context addresses through the memory map (R36, R37,
R39), loads and stores of an engine with their stops (R39, R351, R352), and tensor descriptors (R185 to R193). -/

namespace Sys2Proof.Machine

/-! ## Packet fields (R70, R71) -/

def pkOpcode (p : Nat) : Nat := bits p 0 16
def pkVersion (p : Nat) : Nat := bits p 16 8
def pkCtx (p : Nat) : Nat := bits p 24 4
def pkGen (p : Nat) : Nat := bits p 32 32
def pkQueue (p : Nat) : Nat := bits p 64 5
def pkClass (p : Nat) : Nat := bits p 72 4
def pkPreferred (p : Nat) : Bool := bitSet p 76
def pkRecompute (p : Nat) : Bool := bitSet p 77
def pkOrdered (p : Nat) : Bool := bitSet p 78
def pkLayer (p : Nat) : Nat := bits p 80 16
def pkOperator (p : Nat) : Nat := bits p 96 16
def pkUnits (p : Nat) : Nat := bits p 112 16
def pkStart (p : Nat) : Nat := bits p 128 64
def pkEpoch (p : Nat) : Nat := bits p 192 32
def pkSeq (p : Nat) : Nat := bits p 224 32

/-- A field of the payload: `lo` counted from payload unit 0, which begins at packet bit 512 (R74). -/
def pl (p lo width : Nat) : Nat := bits p (512 + lo) width

/-- Gate wait `i` of a header: gate, enable, threshold (R71). -/
def pkWait (p i : Nat) : Nat × Bool × Nat :=
  let w := bits p (256 + 48 * i) 48
  (bits w 0 12, bitSet w 12, bits w 16 32)

/-- Gate signal `i` of a header: gate, enable, increment (R71). -/
def pkSignal (p i : Nat) : Nat × Bool × Nat :=
  let w := bits p (448 + 32 * i) 32
  (bits w 0 12, bitSet w 12, bits w 16 16)

/-- The enabled waits of a header: gate and threshold. -/
def pkWaits (p : Nat) : List (Nat × Nat) :=
  (List.range 4).filterMap fun i => if (pkWait p i).2.1 then some ((pkWait p i).1, (pkWait p i).2.2) else none

/-- The enabled signals of a header: gate and increment. -/
def pkSignals (p : Nat) : List (Nat × Nat) :=
  (List.range 2).filterMap fun i => if (pkSignal p i).2.1 then some ((pkSignal p i).1, (pkSignal p i).2.2) else none

/-- A check on one field: the packet bit offset that names the field, and whether it is invalid. -/
abbrev Check := Nat × Bool

/-- The lowest-numbered invalid field of a list of checks (R74). -/
def firstBad (cs : List Check) : Option Nat := least ((cs.filter (·.2)).map (·.1))

/-- A check that the reserved field `lo` to `lo + w − 1` of a record is zero (R6); it is named by its bit offset (R74). -/
def reservedCheck (base v lo w : Nat) : Check := (base + lo, bits v lo w ≠ 0)

/-- A reserved range of a packet, field by field: a payload unit that is reserved as a whole is a field of its own. -/
def reservedFields (p : Nat) (r : Nat × Nat) : List Check :=
  if r.2 ≤ 512 then [reservedCheck 0 p r.1 r.2]
  else (List.range (r.2 / 512 + 2)).filterMap fun i =>
    let lo := max r.1 (r.1 / 512 * 512 + 512 * i)
    let hi := min (r.1 + r.2) (r.1 / 512 * 512 + 512 * (i + 1))
    if lo < hi then some (reservedCheck 0 p lo (hi - lo)) else none

/-- Reserved ranges (first bit, width) of a packet that must be zero (R6). -/
def reservedAt (p : Nat) (rs : List (Nat × Nat)) : List Check := rs.flatMap (reservedFields p)

/-- Reserved ranges counted from payload unit 0. -/
def reservedPl (p : Nat) (rs : List (Nat × Nat)) : List Check := reservedAt p (rs.map fun r => (512 + r.1, r.2))

/-! ## The memory map (R36, R37) -/

def meKind (e : Nat) : Nat := bits e 0 2
def meGroup (e : Nat) : Nat := bits e 2 2
def meIndex (e : Nat) : Nat := bits e 4 5
def meWritable (e : Nat) : Bool := bitSet e 9
def meFrame (e : Nat) : Nat := bits e 12 20
def meRemote (e : Nat) : Nat := bits e 32 32

/-- Pages of an interleaved group (R37). -/
def groupPages (g : Nat) : Nat := if g = 0 then 3 else if g = 1 then 12 else if g = 2 then 24 else 1

/-- Where a byte of context memory lies. -/
inductive Loc where
  | here (dpa : Nat) (writable : Bool)
  | remote (pos frame off : Nat) (writable : Bool)
  | miss
deriving DecidableEq, Repr

/-- What an engine's accesses go through. -/
structure Env where
  /-- The half whose engine makes the access. -/
  part : Half := .q
  map : Table := []
  /-- The weight window and the entries of the epoch that the command's header binds (R369). -/
  window : Option (Nat × Nat) := none
  epoch : Table := []
  /-- Bytes already delivered from remote modules, by CXA. -/
  fetched : Table := []
  /-- MXE_TST_DIAG of each global tile, at admission (R196). -/
  diag : Table := []
deriving DecidableEq, Repr

/-- The map entry that governs a page: the epoch's inside the weight window, the context map's elsewhere (R369). -/
def Env.entry (e : Env) (page : Nat) : Nat :=
  match e.window with
  | some (first, n) => if first ≤ page && page < first + n then e.epoch.at page else e.map.at page
  | none => e.map.at page

/-- Translate a CXA (R36, R37). -/
def Env.translate (e : Env) (cxa : Nat) : Loc :=
  if cxa ≥ 2 ^ 48 then .miss else
  let page := cxa / frameBytes
  let me := e.entry page
  if meKind me = 1 then .here (meFrame me * frameBytes + cxa % frameBytes) (meWritable me)
  else if meKind me = 2 then
    let n := groupPages (meGroup me)
    let base := page - page % n
    let off := cxa - base * frameBytes
    let u := off / 2048
    let served := e.entry (base + u % n)
    if meKind served = 2 then .here (meFrame served * frameBytes + u / n * 2048 + off % 2048) (meWritable served)
    else .miss
  else if meKind me = 3 then
    .remote (bits (meRemote me) 20 12) (bits (meRemote me) 0 20) (cxa % frameBytes) (meWritable me)
  else .miss

/-! ## An engine's run over memory -/

/-- A write to a remote module (R379 WRITE): first CXA, bytes, and the low bits of ARG above the byte count (reduce-on-store,
format, strict). -/
structure Put where
  cxa : Nat
  bytes : List Nat
  flags : Nat := 0
deriving DecidableEq, Repr

/-- The run of an engine: the memories, the condition that stopped it, and what it did. -/
structure Run where
  mem : Mem
  stop : Option Result := none
  /-- Remote blocks it needs, by the CXA of their first byte. -/
  need : List Nat := []
  puts : List Put := []
  /-- Bytes written inside damaged blocks or lines, which whole writes repair (R352). -/
  torn : List Nat := []
  /-- HBM blocks written, by number, each with a mask of its bytes written (R338). -/
  parts : Table := []
  /-- DPAs whose seal did not match. -/
  seals : List Nat := []
  /-- Bytes read and written, by `stackKey`. -/
  rd : Table := []
  wr : Table := []
  /-- Bytes that crossed the Siphon, by the partition they left (R40). -/
  crossed : Table := []
deriving DecidableEq, Repr

/-- End the run with a result, unless it has already ended or waits for remote blocks (then what follows rests on data it does
not have). -/
def Run.halt (r : Run) (res : Result) : Run :=
  if r.stop.isSome || !r.need.isEmpty then r else { r with stop := some res }

/-- The key under which bytes of a memory are counted: an HBM stack (12 × partition + stack of the half), a TST (1000 + global
tile) or a TRF (2000 + global tile). -/
def stackKey (dpa : Nat) : Nat :=
  if dpa ≥ 2 ^ 44 then 2000 + bits dpa 18 9
  else if dpaRegion dpa = 1 then 1000 + 192 * (dpaHalf dpa).part + 48 * bits dpa 38 2 + bits dpa 22 6
  else 12 * (dpaHalf dpa).part + dpaStack dpa

/-- Cut a range at multiples of `unit`; `fuel` bounds the number of pieces. -/
def piecesAux (unit : Nat) : Nat → Nat → Nat → List (Nat × Nat)
  | 0, _, _ => []
  | fuel + 1, a, n =>
    if n = 0 then []
    else
      let room := unit - a % unit
      if n ≤ room then [(a, n)] else (a, room) :: piecesAux unit fuel (a + room) (n - room)

/-- The pieces of [a, a+n) between multiples of `unit`. -/
def pieces (unit a n : Nat) : List (Nat × Nat) := piecesAux unit (n / unit + 2) a n

/-- Load from a DPA or a TST or TRF key, checking the protection of what is read (R351). -/
def Run.loadAt (r : Run) (dpa n : Nat) : List Nat × Run :=
  match (pieces 64 dpa n).find? fun c => !r.mem.intact c.1 with
  | some (a, _) => (List.replicate n 0, { r.halt (sealResult a) with seals := r.seals ++ [a] })
  | none => (r.mem.bytes dpa n, { r with rd := r.rd.bump (stackKey dpa) n })

/-- Bytes that an engine reads from a memory of the other half leave that half across the Siphon (R40). -/
def Run.crossIn (e : Env) (r : Run) (dpa n : Nat) : Run :=
  if dpaHalf dpa = e.part || r.stop.isSome then r else { r with crossed := r.crossed.bump (dpaHalf dpa).part n }

/-- Bytes that an engine writes to a memory of the other half leave its own half across the Siphon (R40). -/
def Run.crossOut (e : Env) (r : Run) (dpa n : Nat) : Run :=
  if dpaHalf dpa = e.part || r.stop.isSome then r else { r with crossed := r.crossed.bump e.part.part n }

/-- Load one piece that does not cross a 256-byte block. -/
def Run.loadPiece (e : Env) (r : Run) (cxa n : Nat) : List Nat × Run :=
  if r.stop.isSome then (List.replicate n 0, r) else
  match e.translate cxa with
  | .here dpa _ => (r.crossIn e dpa n).loadAt dpa n
  | .remote _ _ _ _ =>
    match (List.range n).mapM fun i => find (cxa + i) e.fetched with
    | some bs => (bs, r)
    | none =>
      let b := cxa / 256 * 256
      (List.replicate n 0, if r.need.contains b then r else { r with need := r.need ++ [b] })
  | .miss => (List.replicate n 0, r.halt (missResult stFault rsMapMiss cxa))

/-- Load pieces in address order. -/
def Run.loadPieces (e : Env) : List (Nat × Nat) → Run → List Nat × Run
  | [], r => ([], r)
  | (a, n) :: rest, r =>
    let x := r.loadPiece e a n
    let y := Run.loadPieces e rest x.2
    (x.1 ++ y.1, y.2)

/-- Load `n` bytes of context memory. -/
def Run.load (e : Env) (r : Run) (cxa n : Nat) : List Nat × Run := Run.loadPieces e (pieces 256 cxa n) r

/-- Load a little-endian number of `n` bytes. -/
def Run.loadNum (e : Env) (r : Run) (cxa n : Nat) : Nat × Run :=
  let x := r.load e cxa n
  (numOf x.1, x.2)

/-- The bytes written in HBM blocks, with `n` more from a DPA on. -/
def markParts (t : Table) (dpa n : Nat) : Table :=
  if dpa ≥ 2 ^ 41 then t
  else (pieces 256 dpa n).foldl (fun t p => t.set (p.1 / 256) (Nat.lor (t.at (p.1 / 256)) ((2 ^ p.2 - 1) <<< (p.1 % 256)))) t

/-- Store at a DPA or key. Bytes that land in a damaged block or line are remembered until the run settles, and so are the bytes of HBM
blocks. -/
def Run.storeAt (r : Run) (dpa : Nat) (bs : List Nat) : Run :=
  if r.stop.isSome then r else
  let torn := if r.mem.intact dpa then [] else (List.range bs.length).map (dpa + ·)
  { r with
    mem := r.mem.write dpa bs
    torn := r.torn ++ torn
    parts := markParts r.parts dpa bs.length
    wr := r.wr.bump (stackKey dpa) bs.length }

/-- Store one piece. -/
def Run.storePiece (e : Env) (r : Run) (cxa : Nat) (bs : List Nat) (flags : Nat) : Run :=
  if r.stop.isSome then r else
  match e.translate cxa with
  | .here dpa true => (r.crossOut e dpa bs.length).storeAt dpa bs
  | .remote _ _ _ true => { r with puts := r.puts ++ [{ cxa := cxa, bytes := bs, flags := flags }] }
  | .here _ false => r.halt (missResult stFault rsReadonly cxa)
  | .remote _ _ _ false => r.halt (missResult stFault rsReadonly cxa)
  | .miss => r.halt (missResult stFault rsMapMiss cxa)

/-- Store pieces in address order. -/
def Run.storePieces (e : Env) : List (Nat × Nat) → List Nat → Run → Run
  | [], _, r => r
  | (a, n) :: rest, bs, r => Run.storePieces e rest (bs.drop n) (r.storePiece e a (bs.take n) 0)

/-- Store bytes to context memory. -/
def Run.store (e : Env) (r : Run) (cxa : Nat) (bs : List Nat) : Run :=
  Run.storePieces e (pieces 64 cxa bs.length) bs r

/-- The blocks of a list of addresses, each once. -/
def blocksOf (unit : Nat) : List Nat → List Nat
  | [] => []
  | a :: rest => let bs := blocksOf unit rest; if bs.contains (a / unit) then bs else a / unit :: bs

/-- The reads that complete the HBM blocks written in part, so that each is resealed (R201, R338). -/
def mergeReads (parts rd : Table) : Table :=
  parts.foldl (fun t e =>
    let rest := 256 - (bitIndices e.2 256).length
    if rest = 0 then t else t.bump (stackKey (e.1 * 256)) rest) rd

/-- The end of a run (R201, R338, R350, R352): the rest of each HBM block written in part is read; a damaged block or line that was
written whole has a fresh seal, and one written in part ends the command with ERR_INTEGRITY. -/
def Run.settle (r : Run) : Run :=
  let hbm := blocksOf 256 (r.torn.filter (· < 2 ^ 41))
  let lines := blocksOf 64 (r.torn.filter (2 ^ 41 ≤ ·))
  let whole (unit b : Nat) : Bool := (List.range unit).all fun i => r.torn.contains (b * unit + i)
  let mended : Run := { r with
    torn := []
    parts := []
    rd := mergeReads r.parts r.rd
    mem := { r.mem.mend (hbm.filter (whole 256)) with
      badLines := r.mem.badLines.filter fun l => !(lines.contains l && whole 64 l) } }
  match (hbm.filter fun b => !whole 256 b).map (· * 256) ++ (lines.filter fun b => !whole 64 b).map (· * 64) with
  | a :: _ => { mended.halt (sealResult a) with seals := mended.seals ++ [a] }
  | [] => mended

/-! ## Formats -/

/-- Element size of a format code (R117): FP32 4, BF16 and FP16 2, the others 1. -/
def fmtBytes (code : Nat) : Nat := match Fmt.ofCode code with | some f => f.bytes | none => 1

/-! ## Tensor descriptors (R185 to R193) -/

/-- A parsed tensor descriptor (R185). -/
structure Desc where
  base : Nat
  rank : Nat
  tst : Bool
  reduce : Bool
  refuse : Bool
  ext : List Nat
  stride : List Int
  origin : List Int
  bound : List Nat
  fill : List Nat
deriving DecidableEq, Repr

/-- Parse a 1,024-bit descriptor (R185). -/
def Desc.parse (v : Nat) : Desc :=
  let ds := List.range 5
  { base := bits v 0 48, rank := bits v 48 3, tst := bitSet v 51, reduce := bitSet v 52, refuse := bitSet v 53
    ext := ds.map fun d => if d < bits v 48 3 then bits v (128 * d + 128) 32 else 1
    stride := ds.map fun d => signed (bits v (128 * d + 160) 32) 32
    origin := ds.map fun d => signed (bits v (128 * d + 192) 32) 32
    bound := ds.map fun d => bits v (128 * d + 224) 32
    fill := ds.map fun d => bits v (32 * d + 768) 32 }

/-- Number of elements: the product of the extents (R189). -/
def Desc.count (d : Desc) : Nat := d.ext.foldl (· * ·) 1

/-- The index tuple of element `i` in canonical order, i0 fastest (R187). -/
def indexOf : List Nat → Nat → List Nat
  | [], _ => []
  | e :: es, i => i % max e 1 :: indexOf es (i / max e 1)

/-- The place of an element. -/
inductive Elem where
  /-- In bounds, at a byte address (CXA, or a byte offset from tile 0 of the TST). -/
  | inside (a : Int)
  /-- Out of bounds, first in this dimension (R190). -/
  | outside (d : Nat)
deriving DecidableEq, Repr

/-- The place of the coordinates of an element (R187); `d` numbers the dimension. -/
def placeOf (base : Int) (eb : Nat) : Nat → List Int → List Int → List Nat → Elem
  | d, c :: cs, st :: sts, b :: bs =>
    match (if b = 0 ∨ (0 ≤ c ∧ c < b) then Elem.inside 0 else Elem.outside d) with
    | .outside k => .outside k
    | .inside _ =>
      match placeOf base eb (d + 1) cs sts bs with
      | .inside a => .inside (a + eb * (c * st))
      | .outside k => .outside k
  | _, _, _, _ => .inside base

/-- The place of the element at an index tuple, with coordinates shifted by a block (R187, R205). -/
def Desc.placeAt (d : Desc) (eb : Nat) (idx : List Nat) (shift : List Int) : Elem :=
  let cs := (List.range 5).map fun k => d.origin.getD k 0 + shift.getD k 0 + (idx.getD k 0 : Nat)
  placeOf (if d.tst then (bits d.base 0 22 : Nat) else d.base) eb 0 cs d.stride d.bound

/-- The place of element `i` in canonical order. -/
def Desc.elem (d : Desc) (eb i : Nat) : Elem := d.placeAt eb (indexOf d.ext i) []

/-- The lowest and highest in-bounds address, if an element is in bounds (R188). -/
def Desc.range (d : Desc) (eb : Nat) : Option (Int × Int) :=
  let step (acc : Option (Int × Int)) (k : Nat) : Option (Int × Int) :=
    match acc with
    | none => none
    | some (lo, hi) =>
      let o := d.origin.getD k 0
      let e : Int := (d.ext.getD k 1 : Nat)
      let b := d.bound.getD k 0
      let c0 := if b = 0 then o else max o 0
      let c1 := if b = 0 then o + e - 1 else min (o + e - 1) ((b : Int) - 1)
      if c1 < c0 then none else
      let x := eb * (c0 * d.stride.getD k 0)
      let y := eb * (c1 * d.stride.getD k 0)
      some (lo + min x y, hi + max x y)
  let base : Int := if d.tst then (bits d.base 0 22 : Nat) else d.base
  (List.range 5).foldl step (some (base, base))

/-- The global tile a SPACE = 1 descriptor names (R185). -/
def Desc.tile (d : Desc) : Nat := bits d.base 22 9

/-- Dimensions for the DISJOINT test, by |stride| ascending, ties by lower number first (R192). -/
def sortDims : List (Nat × Int) → List (Nat × Int)
  | [] => []
  | x :: rest =>
    let insert := fun (l : List (Nat × Int)) =>
      (l.filter fun y => y.2.natAbs < x.2.natAbs) ++ [x] ++ (l.filter fun y => ¬ y.2.natAbs < x.2.natAbs)
    insert (sortDims rest)

/-- The DISJOINT test over (extent, stride) pairs (R192). -/
def disjointDims (dims : List (Nat × Int)) : Bool :=
  let used := dims.filter fun x => x.1 > 1
  if used.any fun x => x.2 = 0 then false else
  let step (acc : Option Nat) (x : Nat × Int) : Option Nat :=
    match acc with
    | none => none
    | some span => if x.2.natAbs ≤ span then none else some (span + x.2.natAbs * (x.1 - 1))
  ((sortDims used).foldl step (some 0)).isSome

/-- Is a write descriptor DISJOINT (R192)? -/
def Desc.disjoint (d : Desc) : Bool := disjointDims (d.ext.zip d.stride)

/-- Does a write descriptor have a zero stride in a dimension of extent above 1 (R191)? -/
def Desc.zeroStride (d : Desc) : Bool := (d.ext.zip d.stride).any fun x => x.1 > 1 && x.2 = 0

/-- The first field of a descriptor record found invalid by the rules of R188 that rest on the record alone: its bit offset. DESIGN CHOICE
(log entry 101): a product of the extents above 2⁴⁸ names EXTENT0. `write`: the command writes through it; `spaceOk`: the command accepts SPACE = 1. -/
def descBad (v eb : Nat) (write spaceOk : Bool) : Option Nat :=
  let d := Desc.parse v
  let fields := (List.range 5).flatMap fun k =>
    [(128 * k + 128, k ≥ d.rank && bits v (128 * k + 128) 32 ≠ 0),
     (128 * k + 160, k ≥ d.rank && bits v (128 * k + 160) 32 ≠ 0),
     (128 * k + 192, k ≥ d.rank && bits v (128 * k + 192) 32 ≠ 0),
     (128 * k + 224, k ≥ d.rank && bits v (128 * k + 224) 32 ≠ 0),
     (32 * k + 768, (k ≥ d.rank && bits v (32 * k + 768) 32 ≠ 0) || bits v (32 * k + 768) 32 ≥ 2 ^ (8 * eb))]
  let outOfRange := match d.range eb with
    | none => false
    | some (lo, hi) => decide (lo < 0) || decide (hi > (if d.tst then 4194304 else 2 ^ 48 : Int) - eb)
  firstBad ([(0, d.base % eb ≠ 0 || outOfRange || (d.tst && bits v 31 17 ≠ 0)),
    (48, d.rank = 0 || d.rank > 5), (51, d.tst && !spaceOk), (52, d.reduce && !write), (53, d.refuse && !write),
    reservedCheck 0 v 54 74, (128, d.count > 2 ^ 48), reservedCheck 0 v 928 96] ++ fields
    ++ (List.range 5).map fun k =>
      (128 * k + 160, write && !d.reduce && d.ext.getD k 1 > 1 && d.stride.getD k 0 = 0))

/-- In-bounds elements of a descriptor; zero strides of a source repeat one read (R190). -/
def Desc.inBounds (d : Desc) (once : Bool) : Nat :=
  ((List.range 5).map fun k =>
    let o := d.origin.getD k 0
    let e : Int := (d.ext.getD k 1 : Nat)
    let b : Int := (d.bound.getD k 0 : Nat)
    let n := if b = 0 then e else max (min (o + e) b - max o 0) 0
    if once && d.stride.getD k 0 = 0 then min n.toNat 1 else n.toNat).foldl (· * ·) 1

/-- ERR_BOUNDS_WRITE of R191, naming the destination. -/
def boundsResult (bit : Nat) : Result := { status := stBoundsWrite, d0 := rsField, d1 := bit }

/-! ## Elements -/

/-- The key of byte `off` of the TST of a global tile, through its diagonal window (R197). -/
def tstKey (e : Env) (tile off : Nat) : Nat :=
  tstOfTile tile (diagLine (e.diag.at tile) (off / 64) * 64 + off % 64)

/-- Load one element at a place of a descriptor: its storage bits. -/
def Run.loadElem (e : Env) (r : Run) (d : Desc) (eb : Nat) (a : Int) : Nat × Run :=
  if d.tst then
    if r.stop.isSome then (0, r) else
    let x := (r.crossIn e (tstKey e d.tile a.toNat) eb).loadAt (tstKey e d.tile a.toNat) eb
    (numOf x.1, x.2)
  else r.loadNum e a.toNat eb

/-- Read element `i` through a descriptor (R190): its storage bits and 1 if it was out of bounds. -/
def Run.readElem (e : Env) (r : Run) (d : Desc) (eb : Nat) (p : Elem) : Nat × Nat × Run :=
  match p with
  | .inside a => let x := r.loadElem e d eb a; (x.1, 0, x.2)
  | .outside k => (d.fill.getD k 0, 1, r)

/-- The number, in canonical order, of the first element of a repetition group: that of the element at an index tuple with 0 in every
dimension of zero stride (R190). `m` is the product of the extents below. -/
def latchGroup : List Nat → List Int → List Nat → Nat → Nat
  | e :: es, st :: sts, i :: is, m => (if st = 0 then 0 else i * m) + latchGroup es sts is (m * max e 1)
  | _, _, _, _ => 0

/-- What a command has read of its repetition groups: operand, group and storage bits. -/
abbrev Latches := List ((Nat × Nat) × Nat)

/-- Read an element of operand `k` at a place, of repetition group `g` (R190): an element that a zero stride repeats is read once for its
group, at the group's first element in canonical order. The storage bits, and 1 if it was out of bounds. -/
def Run.readHeld (e : Env) (r : Run) (ls : Latches) (d : Desc) (eb k g : Nat) : Elem → Nat × Nat × Run × Latches
  | .outside n => (d.fill.getD n 0, 1, r, ls)
  | .inside a =>
    match (if d.zeroStride then ls.find? fun x => x.1 = (k, g) else none) with
    | some x => (x.2, 0, r, ls)
    | none =>
      let x := r.loadElem e d eb a
      (x.1, 0, x.2, if d.zeroStride then ((k, g), x.1) :: ls else ls)

/-- Read the element at an index tuple of operand `k`. -/
def Run.readOnce (e : Env) (r : Run) (ls : Latches) (k : Nat) (d : Desc) (eb : Nat) (idx : List Nat) : Nat × Nat × Run × Latches :=
  r.readHeld e ls d eb k (latchGroup d.ext d.stride idx 1) (d.placeAt eb idx [])

/-- Store one element's bits at a place of a descriptor. -/
def Run.storeElem (e : Env) (r : Run) (d : Desc) (eb : Nat) (a : Int) (v : Nat) : Run :=
  if d.tst then (r.crossOut e (tstKey e d.tile a.toNat) eb).storeAt (tstKey e d.tile a.toNat) (bytesOf eb v)
  else r.storePiece e a.toNat (bytesOf eb v) 0

/-- Reduce-on-store of an FP32 contribution (R194): the new bits, and 1 for an overflow event. -/
def reduceBits (f : Fmt) (md : FMode) (old v : Nat) : Nat × Nat :=
  let a := input f md false old
  let b := f32in md v
  let sum := round32 md (FVal.add a b)
  let isOver := a.isFinite && b.isFinite && !(f32 sum).isFinite
  let c := roundTo f md (f32in md sum)
  (c.code, if isOver || ((f32 sum).isFinite && c.overflow) then 1 else 0)

/-- Reduce-on-store updates of a run that other modules perform (R347). -/
def Run.farUpdates (r : Run) : Nat := (r.puts.filter fun p => p.flags ≠ 0).length

/-- One reduce-on-store update through a descriptor (R194, R195): 1 for an overflow event. A remote element is updated by its
own controller (R347), where the requester does not see the outcome. -/
def Run.reduceElem (e : Env) (r : Run) (d : Desc) (code : Nat) (strict : Bool) (a : Int) (v : Nat) : Nat × Run :=
  match Fmt.ofCode code with
  | none => (0, r)
  | some f =>
    let go : Nat × Run :=
      let x := r.loadElem e d f.bytes a
      let y := reduceBits f (FMode.ofStrict strict) x.1 v
      (y.2, x.2.storeElem e d f.bytes a y.1)
    if d.tst then go else
    match e.translate a.toNat with
    | .remote _ _ _ _ =>
      (0, r.storePiece e a.toNat (bytesOf 4 v) (1 + 2 * code + (if strict then 16 else 0)))
    | _ => go

end Sys2Proof.Machine
end

