-- ==== Sys2Proof/Machine/Ops.lean ====
section
/-! DEFINITION. The named operations over the state of a module: halves, gauges and traces, contexts, rings and replies, gates,
frames on the links, and how an admitted command is found and finished. -/

namespace Sys2Proof.Machine

/-! ## Halves -/

/-- The state of a half. -/
def State.half (s : State) : Half → HalfState
  | .q => s.q
  | .k => s.k

/-- The module with one half replaced. -/
def State.setHalf (s : State) (h : Half) (x : HalfState) : State :=
  match h with
  | .q => { s with q := x }
  | .k => { s with k := x }

/-- The module with one half changed by `f`. -/
def State.modHalf (s : State) (h : Half) (f : HalfState → HalfState) : State := s.setHalf h (f (s.half h))

/-- The Stroke counter of a half (R42). -/
def State.now (s : State) (h : Half) : Nat := (s.half h).count

/-- Is a half READY (R503)? -/
def State.ready (s : State) (h : Half) : Bool := (s.half h).boot == .ready

/-- Is the Siphon ACTIVE or ACTIVE_REPAIRED (R30)? -/
def State.siphonUp (s : State) : Bool := s.siphon == 2 || s.siphon == 3

/-- The halves act together (R517): the Siphon is up and the other half is READY. -/
def State.together (s : State) (h : Half) : Bool := s.siphonUp && s.ready h.other

/-- Is a half resetting (R443)? -/
def HalfState.resetting (x : HalfState) : Bool := x.reset.isSome

/-- Is the management firmware of a half running? -/
def HalfState.running (x : HalfState) : Bool :=
  (x.boot == .firmware || x.boot == .training || x.boot == .ready) && x.reset.isNone

/-! ## Scheduled events (R50, R52) -/

/-- Scheduled-event slots that are occupied (R52). -/
def HalfState.slotsUsed (x : HalfState) : Nat := (x.events.filter fun e => !e.slotless).length

/-- May an event of a stroke be armed in a half (R52)? -/
def HalfState.slotFree (x : HalfState) (stroke : Nat) : Bool := x.count + 1000 ≤ stroke && x.slotsUsed < 8

/-- Is a freeze due, from a slot or from the pending-freeze register? -/
def HalfState.freezeDue (x : HalfState) : Bool :=
  x.events.any (fun e => e.stroke ≤ x.count && (match e.kind with | .freeze _ => true | _ => false))
    || (match x.pendingFreeze with | some p => p.stroke ≤ x.count | none => false)

/-- Is a route commit due? -/
def HalfState.routeDue (x : HalfState) : Bool := x.routePending.any fun r => r.stroke ≤ x.count

/-- Is a CONFIG_COMMIT due? -/
def HalfState.commitDue (x : HalfState) : Bool :=
  x.events.any fun e => e.stroke ≤ x.count && (match e.kind with | .commit _ _ _ _ _ => true | _ => false)

/-- A firmware activation between its save and its restart (R483): the half admits nothing. -/
def HalfState.activating (x : HalfState) : Option Activation := x.activation.filter fun a => !a.restarted

/-- Is a firmware activation due? -/
def HalfState.activationDue (x : HalfState) : Bool :=
  x.events.any fun e => e.stroke ≤ x.count && (match e.kind with | .activation _ => true | _ => false)

/-- Is any event due that takes effect before admission (R52)? -/
def HalfState.eventDue (x : HalfState) : Bool := x.freezeDue || x.routeDue || x.commitDue || x.activationDue

/-! ## Gauges and traces (R452 to R464) -/

/-- The selector of a gauge (R453). -/
def gaugeSel (family inst sub : Nat) : Nat := family + inst * 256 + sub * 2 ^ 20

/-- Count in a gauge (R452). -/
def HalfState.gauge (x : HalfState) (family inst sub n : Nat) : HalfState :=
  if n = 0 then x else { x with gauges := x.gauges.bump (gaugeSel family inst sub) n }

/-! ## Crossing the Siphon (R26, R40) -/

/-- Bytes of a class wait at the hub of a half to cross the Siphon, in flits. -/
def HalfState.crossing (x : HalfState) (c : SiphonClass) (n : Nat) : HalfState :=
  if n = 0 then x else { x with siphonOut := x.siphonOut.add c (ceilDiv n flitBytes) }

/-- Bytes of a class leave a half for the other, while the Siphon is up. -/
def State.cross (s : State) (h : Half) (c : SiphonClass) (n : Nat) : State :=
  if s.siphonUp then s.modHalf h fun x => x.crossing c n else s

/-- The flits that leave a hub in a stroke, each counted in the gauge of its class (R26, R455). -/
def HalfState.sendFlits (x : HalfState) (h : Half) : HalfState :=
  let r := SiphonOut.run (x.siphonArb h) x.count flitsPerStroke x.siphonOut
  r.2.foldl (fun y c => y.gauge 0x02 (5 * 512 + c.number) 0 flitBytes) { x with siphonOut := r.1 }

/-- A trace record (R463). -/
def traceRecord (stroke kind ctx recompute layer op opcode seq arg0 arg1 : Nat) : Nat :=
  place stroke 0 64 + place kind 64 8 + place ctx 72 4 + place recompute 76 1 + place layer 80 16 + place op 96 16
  + place opcode 112 16 + place seq 128 32 + place arg0 160 32 + place arg1 192 64

/-- Queue a trace record when tracing is on for its kind; a full queue drops it (R464). -/
def HalfState.traceAdd (x : HalfState) (kind rec : Nat) : HalfState :=
  if x.trace.on && bitSet x.trace.mask kind then
    if x.trace.queue.length < 4096 then { x with trace := { x.trace with queue := x.trace.queue ++ [rec] } }
    else { x with trace := { x.trace with drops := sat32 (x.trace.drops + 1), gap := x.trace.gap + 1 } }
  else x

/-- Trace an event that no command's header describes. -/
def HalfState.traceEvent (x : HalfState) (kind ctx arg0 arg1 : Nat) : HalfState :=
  x.traceAdd kind (traceRecord x.count kind ctx 0 0 0 0 0 arg0 arg1)

/-- Trace an event of a command (R463). -/
def HalfState.tracePacket (x : HalfState) (kind p arg0 arg1 : Nat) : HalfState :=
  x.traceAdd kind (traceRecord x.count kind (pkCtx p) (if pkRecompute p then 1 else 0) (pkLayer p) (pkOperator p)
    (pkOpcode p) (pkSeq p) arg0 arg1)

/-- Key bits [47:0] of the attribution entry of a packet (R458), without VALID. -/
def attrKey (p : Nat) : Nat :=
  place (pkCtx p) 0 4 + place (if pkRecompute p then 1 else 0) 4 1 + place 1 5 1 + place (pkLayer p) 16 16
  + place (pkOperator p) 32 16

/-- Add to one element of a list. -/
def addAt : List Nat → Nat → Nat → List Nat
  | [], _, _ => []
  | a :: rest, 0, n => (a + n) :: rest
  | a :: rest, i + 1, n => a :: addAt rest i n

/-- Count in the attribution table (R457): counter `i` of the entry of a key, allocated at first sight; the overflow entry
reads all ones in its key bits. -/
def HalfState.attribute (x : HalfState) (key i n : Nat) : HalfState :=
  if x.attr.any (·.key = key) then
    { x with attr := updateFirst (·.key = key) (fun a => { a with counts := addAt a.counts i n }) x.attr }
  else if (x.attr.filter fun a => a.key ≠ 2 ^ 48 - 1).length < 1023 then
    { x with attr := x.attr ++ [{ key := key, counts := addAt (List.replicate 15 0) i n }] }
  else if x.attr.any fun a => a.key = 2 ^ 48 - 1 then
    { x with attr := updateFirst (fun a => a.key = 2 ^ 48 - 1) (fun a => { a with counts := addAt a.counts i n }) x.attr }
  else { x with attr := x.attr ++ [{ key := 2 ^ 48 - 1, counts := addAt (List.replicate 15 0) i n }] }

/-- Bytes of a command, by its key, leave a half for the other, while the Siphon is up (R26, R458). -/
def State.crossFor (s : State) (key : Option Nat) (h : Half) (c : SiphonClass) (n : Nat) : State :=
  match key with
  | none => s.cross h c n
  | some k => if s.siphonUp && n ≠ 0 then s.modHalf h fun x => (x.crossing c n).attribute k 12 n else s

/-! ## Contexts -/

/-- A half's copy of a context (R96). -/
def HalfState.ctx (x : HalfState) (id : Nat) : Ctx := (x.ctxs.find? (·.id = id)).getD { id := id }

/-- Replace a half's copy of a context. -/
def HalfState.setCtx (x : HalfState) (c : Ctx) : HalfState :=
  { x with ctxs := if x.ctxs.any (·.id = c.id) then updateFirst (·.id = c.id) (fun _ => c) x.ctxs else x.ctxs ++ [c] }

/-- Change a half's copy of a context. -/
def HalfState.modCtx (x : HalfState) (id : Nat) (f : Ctx → Ctx) : HalfState := x.setCtx (f (x.ctx id))

/-- The recorded generation of a context ID in a half (R94). -/
def HalfState.gen (x : HalfState) (id : Nat) : Nat := x.gens.at id

/-- Is a half part of a footprint (R94)? -/
def inFootprint (footprint : Nat) (h : Half) : Bool := bitSet footprint h.part

/-- The halves of a footprint. -/
def footprintHalves (footprint : Nat) : List Half := [Half.q, .k].filter (inFootprint footprint)

/-- Is the context alive in a half: defined, resident or switching (R96)? -/
def Ctx.alive (c : Ctx) : Bool := c.st ≠ .undefined && c.st ≠ .dead

/-- The half that homes a gate (R89). -/
def gateHome (g : Nat) : Half := if g < 2048 then .q else .k

/-! ## Address environments -/

/-- MXE_TST_DIAG of every tile that has one committed, by global tile, from a table of registers of each half. -/
def diagTable (part : Half) (regs : Table) : Table :=
  regs.filterMap fun e =>
    if e.1 / 2 ^ 17 = bMXE ∧ e.1 % 256 = 4 then
      some (192 * part.part + 48 * (e.1 / 2 ^ 14 % 8) + e.1 / 256 % 64, e.2)
    else none

/-- What a context's accesses in a half go through, outside any command. -/
def State.envOf (s : State) (h : Half) (ctx : Nat) : Env :=
  { part := h, map := ((s.half h).ctx ctx).map, window := ((s.half h).ctx ctx).window
    diag := diagTable .q s.q.regs ++ diagTable .k s.k.regs }

/-- What a command's accesses go through (R39, R369). -/
def State.envCmd (s : State) (h : Half) (c : Cmd) : Env :=
  let x := (s.half h).ctx (c.ctx.getD 0)
  let e := x.epochs.find? fun e => e.num = pkEpoch c.packet
  { part := h
    map := if c.ctx.isSome then x.map else []
    window := x.window
    epoch := if pkEpoch c.packet = 0 then [] else match e with | some e => e.entries | none => []
    fetched := c.fetched
    diag := diagTable h c.cfg ++ diagTable h.other c.cfgOther }

/-! ## Rings (R80 to R86) -/

/-- Slots of a command ring. -/
def Ring.slots (r : Ring) : Nat := 2 ^ r.slotsLog2
/-- Entries of a reply ring. -/
def Ring.entries (r : Ring) : Nat := 2 ^ r.replyLog2

/-- The ring a reference names in a half, if it is defined. -/
def HalfState.ring? (x : HalfState) : RingRef → Option Ring
  | .mgmt => some x.mgmt
  | .ctx c n => x.rings.find? fun r => r.ctx = some c && r.num = n

/-- Replace a ring. -/
def HalfState.setRing (x : HalfState) (ref : RingRef) (r : Ring) : HalfState :=
  match ref with
  | .mgmt => { x with mgmt := r }
  | .ctx c n => { x with rings := updateFirst (fun y => y.ctx = some c && y.num = n) (fun _ => r) x.rings }

/-- The reference of a ring. -/
def Ring.ref (r : Ring) : RingRef := match r.ctx with | some c => .ctx c r.num | none => .mgmt

/-- Slots between two pointers of a ring of `n` (R82). -/
def ringGap (n head tail : Nat) : Nat := (tail + 2 * n - head) % (2 * n)

/-- The management rings lie in the first stack of the half (R80). -/
def mgmtBase (h : Half) : Nat := hbmAddr h.part 0 0 0

/-- The DPA of byte `off` of a command ring or reply ring. -/
def State.ringAddr (s : State) (h : Half) (r : Ring) (base off : Nat) (write : Bool) : Option Nat :=
  match r.ctx with
  | none => some (mgmtBase h + base + off)
  | some c =>
    match (s.envOf h c).translate (base + off) with
    | .here dpa w => if write && !w then none else some dpa
    | _ => none

/-- Writes of the Command Processor or of a hub to HBM (R351, R352). On a damaged block that they meet in part nothing is written: its address is answered, and
the fault of its stack follows at the next stroke. -/
def State.putMem (s : State) (ctx : Option Nat) (ws : List (Nat × List Nat)) : State × Option Nat :=
  match s.view.putAll ws with
  | .ok m => (s.commit m, none)
  | .error a => (s.modHalf (dpaHalf a) fun x => { x with sealsMet := x.sealsMet ++ [(a, ctx)] }, some a)

/-- A damaged block that consecutive slots of a command ring meet (R351). -/
def State.slotDamage (s : State) (h : Half) (r : Ring) (slot n : Nat) : Option Nat :=
  (List.range n).findSome? fun i => (s.ringAddr h r r.cmdBase (64 * ((slot + i) % r.slots)) false).bind (s.view.damageIn · 64)

/-- Bytes of consecutive 64-byte slots of a command ring from a slot index on, wrapping (R82). -/
def State.readSlots (s : State) (h : Half) (r : Ring) (slot : Nat) : Nat → List Nat
  | 0 => []
  | n + 1 =>
    (match s.ringAddr h r r.cmdBase (64 * (slot % r.slots)) false with
      | some a => s.view.bytes a 64
      | none => List.replicate 64 0) ++ s.readSlots h r (slot + 1) n

/-- Write 64-byte slots of a command ring from a slot index on, wrapping: a damaged block that the write meets in part is answered. -/
def State.writeSlots (s : State) (h : Half) (r : Ring) (slot : Nat) (units : List (List Nat)) : State × Option Nat :=
  s.putMem r.ctx ((units.zip (List.range units.length)).filterMap fun u =>
    (s.ringAddr h r r.cmdBase (64 * ((slot + u.2) % r.slots)) true).map (·, u.1))

/-- Append one 32-byte reply to a reply ring and advance RPL_TAIL (R73, R82). A reply that meets a damaged block is not written
(DESIGN CHOICE, log entry 105). -/
def State.pushReply (s : State) (h : Half) (ref : RingRef) (reply : Nat) : State :=
  match (s.half h).ring? ref with
  | none => s
  | some r =>
    let s' := match s.ringAddr h r r.rplBase (32 * (r.rplTail % r.entries)) true with
      | some a => (s.putMem r.ctx [(a, bytesOf 32 reply)]).1
      | none => s
    s'.modHalf h fun x => x.setRing ref { r with rplTail := (r.rplTail + 1) % (2 * r.entries) }

/-- A reply (R73). -/
def replyWord (seq status ctx done energy d0 d1 d2 : Nat) : Nat :=
  place seq 0 32 + place status 32 16 + place ctx 48 4 + place done 64 64 + place energy 128 32
  + place d0 160 32 + place d1 192 32 + place d2 224 32

/-- Free entries of a reply ring. -/
def Ring.freeReplies (r : Ring) : Nat := r.entries - ringGap r.entries r.rplHead r.rplTail

/-- Admitted, uncompleted commands of a ring in a half. -/
def HalfState.admittedOf (x : HalfState) (ref : RingRef) : List Cmd := x.cmds.filter (·.ring = ref)

/-- The packet at the head of a ring when all its slots lie before CMD_TAIL (R85). -/
def State.headPacket (s : State) (h : Half) (r : Ring) : Option Nat :=
  let avail := ringGap r.slots r.cmdHead r.cmdTail
  if avail = 0 then none else
  let head := numOf (s.readSlots h r r.cmdHead 1)
  let n := 1 + pkUnits head
  if n ≤ avail then some (numOf (s.readSlots h r r.cmdHead n)) else none

/-- The CMP fetches from a ring while its reply ring has a free entry for every admitted, uncompleted command (R85). DESIGN CHOICE
(log entry 96): it keeps one entry more, for the packet that it fetches, and so stops when the free entries equal those commands. -/
def HalfState.fetches (x : HalfState) (r : Ring) : Bool := (x.admittedOf r.ref).length < r.freeReplies

/-- Advance CMD_HEAD past the packet at the head, which leaves the ring (R82). -/
def Ring.advance (r : Ring) (slots : Nat) : Ring :=
  { r with cmdHead := (r.cmdHead + slots) % (2 * r.slots), checked := false, exam := none, firstHeld := none, failedStarts := 0 }

/-! ## Gates (R89 to R92) -/

/-- The value of a gate of a context. -/
def State.gate (s : State) (ctx g : Nat) : Nat := ((s.half (gateHome g)).ctx ctx).gates.at g

/-- Write a gate. -/
def State.setGate (s : State) (ctx g v : Nat) : State :=
  s.modHalf (gateHome g) fun x => x.modCtx ctx fun c => { c with gates := c.gates.set g (v % 2 ^ 32) }

/-- Does a wait with a threshold hold on a gate value (R90)? -/
def waitHolds (v t : Nat) : Bool := (v % 2 ^ 32 + (2 ^ 32 - t % 2 ^ 32)) % 2 ^ 32 < 2 ^ 31

/-- A gate takes a signal, which the half of the gate remembers for the rest of the stroke (R91). -/
def State.applySignal (s : State) (ctx g inc : Nat) : State :=
  (s.setGate ctx g (s.gate ctx g + inc)).modHalf (gateHome g) fun x =>
    { x with strokeSignals := x.strokeSignals ++ [(ctx, g, inc)] }

/-- What a gate has been signalled in this stroke. -/
def State.signalledNow (s : State) (ctx g : Nat) : Nat :=
  total (((s.half (gateHome g)).strokeSignals.filter fun x => x.1 = ctx && x.2.1 = g).map (·.2.2))

/-- Signal a gate from a half for a command: a gate homed there takes it at once, another half's crosses the Siphon (R91, R92). -/
def State.signal (s : State) (h : Half) (c : Cmd) (ctx g inc : Nat) : State :=
  if gateHome g = h then s.applySignal ctx g inc
  else (s.crossFor (some (attrKey c.packet)) h .command flitBytes).modHalf h.other fun x =>
    { x with gateIn := x.gateIn ++ [(ctx, g, inc, c.id)] }

/-- Are signals of a command still on their way across the Siphon (R73)? -/
def State.signalsOut (s : State) (cmd : Nat) : Bool :=
  s.q.gateIn.any (fun g => g.2.2.2 = cmd) || s.k.gateIn.any fun g => g.2.2.2 = cmd

/-! ## Admitted commands -/

/-- An admitted command by its identity, with the half that holds it. -/
def State.cmd? (s : State) (id : Nat) : Option (Half × Cmd) :=
  match s.q.cmds.find? (·.id = id) with
  | some c => some (.q, c)
  | none => match s.k.cmds.find? (·.id = id) with
    | some c => some (.k, c)
    | none => none

/-- Replace an admitted command. -/
def State.setCmd (s : State) (h : Half) (c : Cmd) : State :=
  s.modHalf h fun x => { x with cmds := updateFirst (·.id = c.id) (fun _ => c) x.cmds }

/-- Progress of what a command does in a half: each half keeps its own watchdog of a mirrored command (R437). -/
def Cmd.progress (c : Cmd) (home g : Half) : Cmd := if g = home then { c with idle := 0 } else { c with idleOther := 0 }

/-- The command's engines have finished with a result. A stop that has been asked for meanwhile stays asked for. -/
def State.finish (s : State) (h : Half) (c : Cmd) (r : Result) : State :=
  let k := match s.cmd? c.id with | some x => x.2 | none => c
  s.setCmd h { c with done := some r, doneAt := s.now h, idle := 0, idleOther := 0, waiting := false, phase := k.phase, stopWith := k.stopWith }

/-- Every admitted command of the module, with the half that holds it. -/
def State.allCmds (s : State) : List (Half × Cmd) := s.q.cmds.map (Half.q, ·) ++ s.k.cmds.map (Half.k, ·)

/-- Do a command's engines work now? -/
def Cmd.works (c : Cmd) : Bool := c.done.isNone && c.phase = .running && (!c.twoHalf || c.mirrored)

/-- Is a power domain of the command still waking (R68)? -/
def State.waking (s : State) (c : Cmd) : Bool :=
  c.domains.any fun d => (s.half (Half.ofPart (d / 17))).waking.contains (d % 17)

/-- The work of one row of the opcode table on an admitted command: nothing unless the command is there, carries the opcode,
satisfies `sub`, runs in awake domains, has been mirrored if it acts in both halves, and has not finished. -/
def onCommand (s : State) (id opcode : Nat) (sub : Cmd → Bool) (f : State → Half → Cmd → State) : State :=
  match s.cmd? id with
  | some (h, c) =>
    if pkOpcode c.packet = opcode && sub c && c.done.isNone && c.phase = .running && !c.waiting
        && (!c.twoHalf || c.mirrored) && !s.waking c then f s h c else s
  | none => s

/-! ## Frames (R378 to R389) -/

/-- The port table entry of a half; a port not listed is as after reset. -/
def HalfState.port (x : HalfState) (i : Nat) : Port := x.ports.getD i {}

/-- Pad the port list to five and replace one port. -/
def HalfState.setPort (x : HalfState) (i : Nat) (p : Port) : HalfState :=
  { x with ports := (List.range 5).map fun j => if j = i then p else x.port j }

/-- The shorter way round a ring of `ext` from `a` to `b`: the port towards rising coordinates or the other (R386). -/
def ringWay (a b ext up down : Nat) : Nat := if (b + ext - a) % ext * 2 ≤ ext then up else down

/-- The default, dimension-ordered output port: 0 N, 1 E, 2 S, 3 W, 4 LOCAL, 7 UNREACHABLE (R386). -/
def HalfState.defaultRoute (x : HalfState) (h : Half) (dst : Nat) : Nat :=
  let ex := x.extX h
  let ey := x.extY h
  let dx := dst % 64
  let dy := dst / 64
  if dx ≥ ex || dy ≥ ey then 7
  else if dx ≠ x.myX h then ringWay (x.myX h) dx ex 1 3
  else if dy ≠ x.myY h then ringWay (x.myY h) dy ey 0 2
  else 4

/-- The committed route entry of a destination: output port, and DETOUR in bit 3 (R386). -/
def HalfState.route (x : HalfState) (h : Half) (dst : Nat) : Nat := (find dst x.routes).getD (x.defaultRoute h dst)

/-- Class code of a frame type: 0 REQUEST, 1 RESPONSE, 2 BULK, 3 URGENT (R379, R381). -/
def frameClass (f : Frame) : Nat :=
  match f.type with
  | 0x0 => 0
  | 0x1 => 1
  | 0x2 => 2
  | 0x3 => 1
  | 0x4 => 1
  | 0x5 => if f.data.isEmpty && (match f.row with | .request _ _ => true | .none => true | _ => false) then 0 else 2
  | 0x6 => 2
  | 0x7 => 2
  | 0x8 => 0
  | 0x9 => 0
  | 0xA => 0
  | _ => 3

/-- BYTES gauge class of R455: 0 URGENT, 1 REQUEST, 2 RESPONSE, 3 BULK. -/
def gaugeClass (f : Frame) : Nat := if frameClass f = 3 then 0 else frameClass f + 1

/-- A 64-bit sum as bytes. -/
def sumBytes (v : Int) : List Nat := bytesOf 8 (v % 2 ^ 64).toNat

/-- The payload bytes that a row body stands for; a request has none (R290, R317, R318, R329). -/
def rowPayload : RowBody → List Nat
  | .none => []
  | .request _ _ => []
  | .reply _ _ bs => bs
  | .exactSum _ _ n ps => bytesOf 4 n ++ ps.flatMap sumBytes
  | .staged _ _ k vs => bytesOf 16 k ++ vs.flatMap (bytesOf 4)
  | .copy _ _ bs sh => bs ++ sh.flatMap sumBytes

/-- The payload bytes of the values of a COLLECTIVE frame (R396, R402): each with a flag for a value that is there, the contributions,
the statistics. -/
def collPayload (f : Frame) : List Nat :=
  let value (v : Option Nat) : List Nat := match v with | some n => 1 :: bytesOf 4 n | none => [0]
  f.elems.flatMap value ++ bytesOf 4 f.present ++ f.stats.flatMap fun x => bytesOf 4 x.1 ++ value x.2.1 ++ bytesOf 4 x.2.2

/-- The bytes that the seal of a frame is of (R348, R378): none without a payload. -/
def framePayload (f : Frame) : List Nat :=
  if !f.data.isEmpty then f.data else if f.type = 0x6 then collPayload f else rowPayload f.row

/-- A frame whose values have been sealed. A block that has bytes of its own brings its seal. -/
def sealFrame (f : Frame) : Frame :=
  if f.data.isEmpty && !(framePayload f).isEmpty then { f with crc := crc32c (framePayload f) } else f

/-- Bytes of a frame: a 32-byte header and, with a payload, 256 more; a row body that is longer stands for the frames that carry it
(R378). -/
def frameBytesOf (f : Frame) : Nat :=
  if (framePayload f).isEmpty then 32 else if f.type = 0x5 then 288 * ceilDiv (framePayload f).length 256 else 288

/-- Credit units of 64 bytes that a frame takes (R381). -/
def frameUnits (f : Frame) : Nat := ceilDiv (frameBytesOf f) 64

/-- Whose credit a frame takes: that of its virtual channel, or from 16 on that of the tag of its collective (R381). -/
def creditOf (f : Frame) : Nat := if f.type = 0x6 then 16 + bits f.arg 0 32 else f.vc

/-- Is there credit for `n` more units: of a virtual channel 256 reserved for it and 768 shared (R381); of a collective's tag as much as
a channel has reserved (DESIGN CHOICE, log entry 28)? -/
def Port.hasCredit (p : Port) (account n : Nat) : Bool :=
  let excess (u : Nat) : Nat := u - 256
  let mine := p.used.at account
  if account ≥ 16 then mine + n ≤ 256 else
  let shared := total ((p.used.filter (·.1 < 16)).map fun e => excess e.2)
  shared - excess mine + excess (mine + n) ≤ 768

/-- The classes of a round at an output: RESPONSE, REQUEST, BULK and BULK (R381). -/
def roundClasses : List Nat := [1, 0, 2, 2]

/-- A frame goes on the wire: it waits in the retry buffer for a replay, and takes its credit; `slot`: the place in the round after it
(R374, R381). `mine`: the position of this module, from which a local frame comes. -/
def Port.put (p : Port) (mine slot : Nat) (f : Frame) : Port :=
  let c := frameClass f
  let others := p.turn.forwarded.filter (· ≠ c)
  { p with
    retry := p.retry ++ [f], used := p.used.bump (creditOf f) (frameUnits f)
    turn := { slot := slot, forwarded := if f.src = mine then others else others ++ [c] } }

/-- The place in the round after a class has been served next (R381). -/
def Port.slotAfter (p : Port) (c : Nat) : Nat :=
  match [0, 1, 2, 3].find? fun i => roundClasses[(p.turn.slot + i) % 4]? = some c with
  | some i => (p.turn.slot + i + 1) % 4
  | none => p.turn.slot

/-- Does the partner of a port seal nothing, being no Hokutar module (R349, R376)? -/
def HalfState.foreign (x : HalfState) (h : Half) (port : Nat) : Bool := bits (x.portReg h port 3) 8 2 ≠ 0

/-- Is the payload of a frame intact? -/
def Frame.intact (f : Frame) : Bool := (framePayload f).isEmpty || f.crc = crc32c (framePayload f)

/-- A block that fails its seal check is not delivered to a partner that seals nothing (R353). -/
def HalfState.withholds (x : HalfState) (h : Half) (port : Nat) (f : Frame) : Bool := x.foreign h port && !Frame.intact f

/-- Put a frame on a port: on the wire while there is credit and room in the retry buffer, in the queue otherwise (R374, R381);
held while the port is not ACTIVE (R388). -/
def HalfState.transmit (x : HalfState) (h : Half) (i : Nat) (f : Frame) : HalfState :=
  let p := x.port i
  if x.withholds h i f then x.count32 h (regKey bLNK 4 i 5) 0 1
  else if x.portState h i ≠ 2 then x.setPort i { p with held := p.held ++ [f] }
  else if p.queue.isEmpty && p.hasCredit (creditOf f) (frameUnits f) && p.retry.length < 1024 then
    (x.setPort i (p.put (x.myPos h) (p.slotAfter (frameClass f)) f)).gauge 0x02
      (6 * 512 + i * 4 + gaugeClass f) 0 (frameBytesOf f)
  else x.setPort i { p with queue := p.queue ++ [f] }

/-- Does a hop through a port cross the wrap link of its ring (R381)? -/
def HalfState.wraps (x : HalfState) (h : Half) (port : Nat) : Bool :=
  match port with
  | 0 => x.myY h + 1 == x.extY h
  | 1 => x.myX h + 1 == x.extX h
  | 2 => x.myY h == 0
  | _ => x.myX h == 0

/-- The virtual channel of a frame that leaves through a route entry: DETOUR is kept once set, DATELINE is set by a wrap and
returns to 0 when the frame turns (R381, R386). `came` is the port it arrived through, 4 for local injection. -/
def HalfState.vcFor (x : HalfState) (h : Half) (f : Frame) (entry came : Nat) : Nat :=
  if frameClass f = 3 then 0 else
  let out := entry % 8
  let detour := bitSet entry 3 || (f.vc ≠ 0 && bitSet (f.vc - 1) 1)
  let turns := came < 4 && came % 2 ≠ out % 2
  let old := came < 4 && f.vc ≠ 0 && bitSet (f.vc - 1) 0 && !turns
  1 + 4 * frameClass f + (if detour then 2 else 0) + (if old || x.wraps h out then 1 else 0)

/-- Route a frame towards its destination; `false` when it is unreachable. What a module sends to its own position answers a frame
of its spur, whose SRC_POS the bridge stamped (R383), and leaves through the spur. -/
def HalfState.routeFrame (x : HalfState) (h : Half) (f : Frame) (came : Nat) : HalfState × Bool :=
  let e := x.route h f.dst
  if e % 8 = 7 then (x.count32 h (regKey bLNK 4 0 5) 0 1, false)
  else if e % 8 = 4 then (x.transmit h 4 { f with vc := if frameClass f = 3 then 0 else 1 + 4 * frameClass f }, true)
  else (x.transmit h (e % 8) { f with vc := x.vcFor h f e came }, true)

/-- Is a frame type acknowledged end to end (R379)? -/
def isAcked (f : Frame) : Bool := f.type ∈ [0x0, 0x2, 0x5, 0x6, 0x7, 0x8, 0x9, 0xA]

/-- Key of the end-to-end sequence of a destination and plane (R380). -/
def seqKey (plane : Half) (dst : Nat) : Nat := dst * 2 + plane.part

/-- A frame of a command has gone out on a plane: its bytes count in the command's attribution (R458), and the frames of a command whose
home is the other half crossed the Siphon first, as data or, for digests, as commands do (R26, R34). -/
def State.countSent (s : State) (plane : Half) (cmd : Option Nat) (f : Frame) : State :=
  match cmd.bind s.cmd? with
  | none => s
  | some (home, c) =>
    let key := attrKey c.packet
    let s1 := if home = plane then s
      else s.crossFor (some key) home (if f.type = 0x9 then .command else .tensor) (frameBytesOf f)
    s1.modHalf plane fun x => x.attribute key 12 (frameBytesOf f)

/-- Send a frame of a command, or of the hub itself, on the plane of a half: the header's position, version and sequence number
are filled in (R377, R380), the frame is remembered until it is acknowledged, and routed. `false`: its destination is
unreachable, and it was dropped (R388). -/
def State.send (s : State) (plane : Half) (cmd : Option Nat) (f : Frame) : State × Bool :=
  let x := s.half plane
  let n := x.seqNext.at (seqKey plane f.dst)
  let g : Frame := { sealFrame f with src := x.myPos plane, ver := x.e2eVer plane, seq := if isAcked f then n else f.seq }
  let y := if isAcked f then { x with seqNext := x.seqNext.set (seqKey plane f.dst) ((n + 1) % 2 ^ 24) } else x
  let z := y.routeFrame plane g 4
  let w := if isAcked f && z.2 then { z.1 with unacked := z.1.unacked ++ [{ plane := plane, cmd := cmd, frame := g }] } else z.1
  (if z.2 then (s.setHalf plane w).countSent plane cmd g else s.setHalf plane w, z.2)

/-- Send a frame of the hub that is remembered with more than its number: `tag` says what. -/
def State.sendAs (s : State) (plane : Half) (tag : Unacked → Unacked) (f : Frame) : State × Bool :=
  let a := s.send plane none f
  if !a.2 then a else
  (a.1.modHalf plane fun x => { x with unacked := x.unacked.dropLast ++ (x.unacked.getLast?.map tag).toList }, true)

/-- The neighbour that a torus port leads to (R385). -/
def HalfState.neighbour (x : HalfState) (h : Half) (port : Nat) : Nat :=
  let ex := max (x.extX h) 1
  let ey := max (x.extY h) 1
  match port with
  | 0 => position (x.myX h) ((x.myY h + 1) % ey)
  | 1 => position ((x.myX h + 1) % ex) (x.myY h)
  | 2 => position (x.myX h) ((x.myY h + ey - 1) % ey)
  | _ => position ((x.myX h + ex - 1) % ex) (x.myY h)

/-- Is the neighbour of a port UNREACHABLE in the committed table (R388)? -/
def HalfState.peerGone (x : HalfState) (h : Half) (port : Nat) : Bool := x.route h (x.neighbour h port) % 8 = 7

/-- Does the committed table know the link of a port as DOWN (R387)? -/
def HalfState.linkLost (x : HalfState) (h : Half) (port : Nat) : Bool :=
  x.facts.any fun f => f.down && f.pos = x.myPos h && f.port = port

/-- Send a frame to the neighbour of a port: through that port (R358, R398), along the committed route where the link is lost, and
dropped and counted where the neighbour is UNREACHABLE (R388). -/
def State.sendPort (s : State) (plane : Half) (port : Nat) (cmd : Option Nat) (f : Frame) : State :=
  let x := s.half plane
  let dst := x.neighbour plane port
  let n := x.seqNext.at (seqKey plane dst)
  let f1 : Frame := { sealFrame f with dst := dst, src := x.myPos plane, ver := x.e2eVer plane, seq := n }
  if x.peerGone plane port then s.setHalf plane (x.routeFrame plane f1 4).1 else
  let y : HalfState := { x with seqNext := x.seqNext.set (seqKey plane dst) ((n + 1) % 2 ^ 24) }
  let g : Frame := { f1 with vc := x.vcFor plane f1 port 4 }
  let z := if x.linkLost plane port then (y.routeFrame plane f1 4).1 else y.transmit plane port g
  (s.setHalf plane { z with unacked := z.unacked ++ [{ plane := plane, cmd := cmd, frame := g }] }).countSent plane cmd g

/-- Send several frames; `false` when one was unreachable. -/
def State.sendAll (s : State) (plane : Half) (cmd : Option Nat) : List Frame → State × Bool
  | [] => (s, true)
  | f :: rest =>
    let a := s.send plane cmd f
    let b := a.1.sendAll plane cmd rest
    (b.1, a.2 && b.2)

/-- Does a command have frames that nothing has acknowledged (R73, R380)? -/
def State.hasUnacked (s : State) (id : Nat) : Bool :=
  s.q.unacked.any (·.cmd = some id) || s.k.unacked.any (·.cmd = some id)

/-- A payload block of 256 bytes, padded with zeros. -/
def padBlock (bs : List Nat) : List Nat := bs ++ List.replicate (256 - bs.length) 0

/-- A context frame with a payload block and its seal (R378). -/
def dataFrame (type dst ctx gen addr arg : Nat) (bs : List Nat) : Frame :=
  { type := type, dst := dst, ctx := ctx, gen := gen, addr := addr, arg := arg, data := padBlock bs, crc := crc32c (padBlock bs) }

/-- A NOTICE of the hub (R379): kind and kind-specific ADDR. -/
def noticeFrame (dst kind addr : Nat) : Frame := { type := 0xB, dst := dst, mgmt := true, addr := addr, arg := kind }

end Sys2Proof.Machine
end

