-- ==== Sys2Proof/Machine/Faulting.lean ====
section
/-! DEFINITION. How a command leaves the machine (its signals, slot reports, write-back and reply, R73, R91, R170), teardown
(R99, R100), half reset (R446 to R448) and the Fault Collector's handling of an occurrence (R429 to R436). -/

namespace Sys2Proof.Machine

/-! ## Completion -/

/-- FP32 code of the larger of two non-negative magnitudes (R170). -/
def maxMagnitude (a b : Nat) : Nat := max a b

/-- Merge a report of a command into a scale slot (R170). -/
def ScaleSlot.report (x : ScaleSlot) (amax overflows : Nat) : ScaleSlot :=
  { x with
    pendingAmax := maxMagnitude x.pendingAmax amax, pendingValid := true
    ovf := x.ovf || overflows ≠ 0, ovfNew := x.ovfNew || overflows ≠ 0
    ovfCount := min (x.ovfCount + overflows) 0xFFFF }

/-- The scale slot of a context in a half; a slot nothing has written is as CTX_DEFINE leaves it (R166). -/
def Ctx.scale (c : Ctx) (n : Nat) : ScaleSlot := (find n c.scales).getD {}

/-- Merge the reports of a command into the slots of its context in a half (R170). -/
def HalfState.reportSlots (x : HalfState) (ctx : Nat) (rs : List (Nat × Nat × Nat)) : HalfState :=
  rs.foldl (fun y r => y.modCtx ctx fun c => { c with scales := put r.1 ((c.scale r.1).report r.2.1 r.2.2) c.scales }) x

/-- Does anything hold a reference on an epoch: an admitted or suspended command of the context, or a bound batch (R369)? -/
def State.epochHeld (s : State) (ctx num : Nat) : Bool :=
  let uses (c : Cmd) : Bool := c.ctx = some ctx && pkEpoch c.packet = num
  [s.q, s.k].any fun x => x.cmds.any uses || x.suspended.any uses || (x.ctx ctx).binds.any (·.2 = num)

/-- The frames (DPA ÷ 2 MiB) that a context's map entries name. -/
def framesIn (t : Table) : List Nat :=
  t.filterMap fun e => if meKind e.2 = 1 ∨ meKind e.2 = 2 then some (meFrame e.2) else none

/-- The epochs of a context for which `keep` is false become FREED: their frames return to the context (R368). -/
def Ctx.freeing (c : Ctx) (keep : Epoch → Bool) : Ctx :=
  { c with
    epochs := c.epochs.filter keep
    returned := c.returned ++ (c.epochs.filter fun e => !keep e).flatMap fun e => framesIn e.entries }

/-- Frames that a map update or an epoch names are no longer unmapped ones (R368). -/
def Ctx.taking (c : Ctx) (fs : List Nat) : Ctx := { c with returned := c.returned.filter fun f => !fs.contains f }

/-- RETIRING epochs without a reference become FREED (R368). -/
def State.freeEpochs (s : State) (ctx : Nat) : State :=
  let keep (e : Epoch) : Bool := e.st ≠ .retiring || s.epochHeld ctx e.num
  let go (x : HalfState) : HalfState :=
    if (x.ctx ctx).epochs.all keep then x else x.modCtx ctx fun c => c.freeing keep
  { s with q := go s.q, k := go s.k }

/-- A member of a collective whose command has left: the record remembers only that this tag's use is over, so that what is still on
its way to it is taken and discarded (R399). -/
def Coll.dead (id : Nat) (k : Coll) : Coll :=
  if k.cmd = some id then { tag := k.tag, gen := k.gen, opcode := k.opcode, unit0 := k.unit0, finished := true } else k

/-- Is a SHARD_DIGEST that compares the primary's own (R274)? Record 0 is its list of positions. -/
def State.isPrimary (s : State) (c : Cmd) : Bool :=
  let plane := Half.ofPart (pl c.packet 259 1)
  pkOpcode c.packet = 0x0603 && pl c.packet 256 2 ≠ 0
    && bits (((c.exam.records[0]?).map (·.value)).getD 0) (16 * pl c.packet 272 8) 16 = (s.half plane).myPos plane

/-- Take an admitted command out of the machine: its reservation leaves committed, its engine places, epoch references, digest
place and collectives end (R64, R274, R369, R390). -/
def State.dropCmd (s : State) (h : Half) (c : Cmd) : State :=
  let s1 := s.modHalf h fun x => { x with cmds := x.cmds.filter (·.id ≠ c.id), suspended := x.suspended.filter (·.id ≠ c.id) }
  match c.ctx with
  | some i =>
    let s2 := s1.freeEpochs i
    if s.isPrimary c && c.verdict.isNone then
      let go (x : HalfState) : HalfState :=
        if (x.ctx i).places.any (·.1 = pl c.packet 224 32) then
          x.modCtx i fun k => { k with places := k.places.filter (·.1 ≠ pl c.packet 224 32) } else x
      { s2 with q := go s2.q, k := go s2.k }
    else if pkOpcode c.packet / 256 = 0x09 then
      let go (x : HalfState) : HalfState :=
        if (x.ctx i).colls.any (·.cmd = some c.id) then
          x.modCtx i fun k => { k with colls := k.colls.map (Coll.dead c.id) } else x
      { s2 with q := go s2.q, k := go s2.k }
    else s2
  | none => s1

/-- Measured energy of a command in µJ (R64, R73). -/
def Cmd.energyUj (c : Cmd) : Nat := sat32 ((c.metered + c.meteredOther) / 10 ^ 9)

/-- The reply of a command on a management ring also completes the packet that the management port put into its slot: the port keeps
the reply and the packet's payload as it stands (R509, R511). -/
def State.portReply (s : State) (h : Half) (ref : RingRef) (slot units word : Nat) : State :=
  let x := s.half h
  if ref = .mgmt && x.mgmtOutstanding = some slot then
    s.modHalf h fun y =>
      { y with mgmtOutstanding := none, mgmtLast := some (bytesOf 32 word ++ s.readSlots h x.mgmt (slot + 1) units) }
  else s

/-- Write the reply of an admitted command (R73). It is counted and traced in the home half; its measured energy is credited to its key in
each half in which it ran (R457; DESIGN CHOICE, log entry 109). -/
def State.reply (s : State) (h : Half) (c : Cmd) (r : Result) : State :=
  let measured : Bool := !isRefusal r.status && r.status ≠ stEmpty
  let e := if measured then c.energyUj else 0
  let word := replyWord (pkSeq c.packet) r.status (pkCtx c.packet) (s.now h) e r.d0 r.d1 r.d2
  let s1 := (s.pushReply h c.ring word).portReply h c.ring c.slot (pkUnits c.packet) word
  let credit (fj : Nat) (x : HalfState) : HalfState := if measured then x.attribute (attrKey c.packet) 13 (fj / 10 ^ 9) else x
  let s2 := s1.modHalf h fun x => ((credit c.metered (x.attribute (attrKey c.packet) 0 1)).tracePacket 2 c.packet r.status e)
  if c.twoHalf then s2.modHalf h.other (credit c.meteredOther) else s2

/-- The results that overwrite a command's payload units (R76). On a damaged block the command ends with ERR_INTEGRITY instead (R352). -/
def State.writeBack (s : State) (h : Half) (c : Cmd) (r : Result) : State × Result :=
  match r.payload, (s.half h).ring? c.ring with
  | some bs, some ring =>
    let a := s.writeSlots h ring (c.slot + 1) (chunks 64 bs)
    (a.1, match a.2 with | some dpa => { sealResult dpa with signals := r.signals } | none => r)
  | _, _ => (s, r)

/-- The refresh interval of a hot set counts from the completion of its HOTSET_LOAD (R308). -/
def State.startRefresh (s : State) (h : Half) (c : Cmd) (r : Result) : State :=
  if pkOpcode c.packet ≠ 0x0703 || isError r.status || r.status = stEmpty then s else
  let d := pl c.packet 8 3
  let go (x : HalfState) : HalfState := x.modCtx (c.ctx.getD 0) fun k =>
    { k with hotSets := k.hotSets.map fun y =>
        if y.table = pl c.packet 0 8 && y.die = d then { y with due := s.now h + 1000 * y.refresh } else y }
  s.modHalf (Half.ofPart (d / 4)) go

/-- The gates that a command signals as it ends with a result, with their increments (R13, R91): those of a living context. -/
def State.gatesOf (s : State) (c : Cmd) (r : Result) : List (Nat × Nat) :=
  match c.ctx with
  | some i =>
    if r.signals then (pkSignals c.packet).filter fun g => ((s.half (gateHome g.1)).ctx i).alive else []
  | none => []

/-- Signal the gates of a command that ends with a result. -/
def State.sendSignals (s : State) (h : Half) (c : Cmd) (r : Result) : State :=
  (s.gatesOf c r).foldl (fun (t : State) (g : Nat × Nat) => t.signal h c (c.ctx.getD 0) g.1 g.2) s

/-- Does a command that ends with a result signal a gate of the other half? -/
def State.signalsAcross (s : State) (h : Half) (c : Cmd) (r : Result) : Bool :=
  (s.gatesOf c r).any fun g => gateHome g.1 ≠ h

/-- A command with a result leaves: slot reports, write-back, gate signals unless they have gone before it (R73, R91), reply. -/
def State.retire (s : State) (h : Half) (c : Cmd) (r : Result) : State :=
  let s1 := match c.ctx with
    | some i => s.modHalf h fun x => x.reportSlots i c.reports
    | none => s
  let w := s1.writeBack h c r
  let s3 := if c.signalled then w.1 else w.1.sendSignals h c w.2
  ((s3.reply h c w.2).dropCmd h c).startRefresh h c w.2

/-! ## Teardown (R99) -/

/-- Every frame of a context (R99 step 6). -/
def Ctx.frames (c : Ctx) : List Nat :=
  framesIn c.map ++ framesIn c.shadow ++ c.draining ++ c.returned ++ c.epochs.flatMap fun e => framesIn e.entries

/-- The half that holds a frame: FRAME[19] (R346). -/
def frameHalf (f : Nat) : Half := Half.ofPart (bits f 19 1)

/-- The context ID for which a frame is preserved (R416). -/
def State.preservedBy (s : State) (f : Nat) : Option Nat :=
  ((s.half (frameHalf f)).preserved.find? fun p => p.frames.any (·.2 = f)).map (·.ctx)

/-- Unadmitted commands between CMD_HEAD and CMD_TAIL (R99 step 3); `fuel` bounds the count by the slots. -/
def State.countPackets (s : State) (h : Half) (r : Ring) : Nat → Nat → Nat
  | 0, _ => 0
  | fuel + 1, head =>
    if ringGap r.slots head r.cmdTail = 0 then 0 else
    let n := 1 + pkUnits (numOf (s.readSlots h r head 1))
    if n > ringGap r.slots head r.cmdTail then 1 else 1 + s.countPackets h r fuel ((head + n) % (2 * r.slots))

/-- The ring reply of teardown step 3. -/
def State.ringReply (s : State) (h : Half) (r : Ring) (ctx gen : Nat) : State :=
  let n := s.countPackets h r r.slots r.cmdHead
  let seq := if n = 0 then 0 else pkSeq (numOf (s.readSlots h r r.cmdHead 1))
  s.pushReply h r.ref (replyWord seq stDead ctx (s.now h) 0 rsTornDown gen n)

/-- Step 3 to 6 of a teardown in a half, once no admitted command of the context is left there: ring replies and deletion,
discard of gates, tables, slots, epochs and map, scrub-pending frames but for preserved ones (R99, R416). -/
def State.tearFinish (s : State) (h : Half) (id : Nat) : State :=
  let x := s.half h
  let c := x.ctx id
  if !c.tearing || s.allCmds.any (fun k => k.2.ctx = some id && k.2.phase = .stopping) then s else
  let ended := x.gen id - 1
  let s1 := (x.rings.filter (·.ctx = some id)).foldl (fun t r => t.ringReply h r id ended) s
  let s2 := s1.modHalf h fun y =>
    { y.setCtx { id := id, gen := c.gen, st := .dead, footprint := c.footprint } with
      rings := y.rings.filter (·.ctx ≠ some id) }
  (c.frames.filter fun f => (frameHalf f = h || !inFootprint c.footprint (frameHalf f)) && (s.preservedBy f).isNone).foldl
    (fun t f => t.modHalf (frameHalf f) fun y =>
      if y.scrub.any (·.1 = f) then y else { y with scrub := y.scrub ++ [(f, id)] }) s2

/-- Steps 3 to 6 of a teardown in every half where nothing stops any more. -/
def State.tearEnd (s : State) (id : Nat) : State := (s.tearFinish .q id).tearFinish .k id

/-- Does a teardown of a context stop a command (R99 step 2)? All that act for the context, but for CTX_TEARDOWN and CTX_RELEASE, which
wait for it, and a CTX_SWITCH under way, of which R100 speaks. -/
def Cmd.stopsWith (c : Cmd) (id : Nat) : Bool :=
  c.ctx = some id && !(c.ring = .mgmt && (pkOpcode c.packet = 0x0103 || pkOpcode c.packet = 0x0104
    || (pkOpcode c.packet = 0x0102 && c.waiting)))

/-- Stop the commands of a context at their preemption points (R99 step 2). -/
def HalfState.stopCmds (x : HalfState) (id gen : Nat) : HalfState :=
  { x with cmds := x.cmds.map fun k =>
      if k.stopsWith id && k.stopWith.isNone then { k with phase := .stopping, stopWith := some (tornResult gen) } else k }

/-- The modules of a rectangle of the torus (R94, R394), as positions in rank order. -/
def rectangle (x0 y0 w ht ex ey : Nat) : List Nat :=
  (List.range ht).flatMap fun j => (List.range w).map fun i => position ((x0 + i) % max ex 1) ((y0 + j) % max ey 1)

/-- Teardown notices to the peers of a context on the plane of a half (R99 step 4). -/
def State.tearNotices (s : State) (h : Half) (c : Ctx) (gen : Nat) : State :=
  let x := s.half h
  let peers := (rectangle c.peerX c.peerY c.peerW c.peerH (x.extX h) (x.extY h)).filter (· ≠ x.myPos h)
  (s.sendAll h none (peers.map fun d =>
    { type := 0xB, dst := d, ctx := c.id, gen := gen, arg := 0 })).1

/-- A teardown of a context in one half: steps 1, 2 and 4, and the rest at once where nothing has to stop. `notices` is false for
CTX_RELEASE (R101). -/
def State.tearHalf (s : State) (h : Half) (id : Nat) (notices : Bool) : State :=
  let x := s.half h
  let c := x.ctx id
  if !c.alive then s.modHalf h fun y => { y with resident := if y.resident = some id then none else y.resident } else
  let gen := x.gen id
  let s1 := (s.modHalf h fun y =>
    { ((y.setCtx { c with st := .dead, tearing := true }).stopCmds id gen) with
      gens := y.gens.set id ((gen + 1) % 2 ^ 32)
      resident := if y.resident = some id then none else y.resident
      wells := if y.resident = some id then [] else y.wells
      unacked := y.unacked.filter fun u => !(u.frame.ctx = id && !u.frame.mgmt && u.frame.gen = gen)
      gateIn := y.gateIn.filter (·.1 ≠ id) }).modHalf h.other fun y => y.stopCmds id gen
  let gone := x.suspended.filter (·.stopsWith id)
  let s2 := gone.foldl (fun t k => t.retire h { k with ctx := none } (tornResult gen)) s1
  let s3 := if notices && c.peers then s2.tearNotices h c gen else s2
  s3.tearFinish h id

/-- A switch under way meets a teardown of one of its contexts (R100): the outgoing one loses its save and the switch continues
with step 5; the incoming one abandons the restore. -/
def State.tearSwitch (s : State) (id : Nat) : State :=
  match s.switch with
  | none => s
  | some w =>
    let leaves (x : HalfState) : Bool := (x.ctx id).st = .switchingOut
    let others (x : HalfState) : Bool := x.ctxs.any fun c => c.id ≠ id && c.st = .switchingOut
    if w.incoming = id then { s with switch := some { w with abandoned := true } }
    else if (leaves s.q || leaves s.k) && !(others s.q || others s.k) && w.step < 5 then
      { s with switch := some { w with step := 5 } }
    else s

/-- CONFIG_COMMITs with the MAP scope for a torn context are discarded, and their commands end (R100, R102). -/
def State.tearCommits (s : State) (id : Nat) : State :=
  let named (e : Sched) : Option Nat :=
    match e.kind with | .commit _ true c _ cmd => if c = id then some cmd else none | _ => none
  let cmds := s.q.events.filterMap named ++ s.k.events.filterMap named
  let go (x : HalfState) : HalfState := { x with events := x.events.filter fun e => (named e).isNone }
  let s1 : State := { s with q := go s.q, k := go s.k }
  cmds.foldl (fun t n => match t.cmd? n with
    | some (h, c) => t.finish h c (tornResult (pkGen c.packet))
    | none => t) s1

/-- A teardown in every half of a context's footprint (R99): in both halves at one stroke while they act together. -/
def State.teardown (s : State) (id : Nat) (notices : Bool) : State :=
  ((((s.tearSwitch id).tearCommits id).tearHalf .q id notices).tearHalf .k id notices).tearEnd id

/-- A teardown that begins in one half: that of a two-half context reaches the other half in the URGENT class (R26, R99 step 1). -/
def State.teardownFrom (s : State) (h : Half) (id : Nat) (notices : Bool) : State :=
  (if ((s.half h.other).ctx id).alive then s.cross h .urgent flitBytes else s).teardown id notices

/-! ## Notices (R434) -/

/-- Write a notice into the management reply ring when an entry remains free beyond those of admitted commands; else count it as
lost. -/
def State.notice (s : State) (h : Half) (ctx stroke d1 d2 : Nat) : State :=
  let x := s.half h
  if !x.noticeEn h then s
  else if (x.admittedOf .mgmt).length < x.mgmt.freeReplies then
    s.pushReply h .mgmt (replyWord 0xFFFFFFFF stFault ctx stroke 0 rsEngine d1 d2)
  else s.modHalf h fun y => y.count32 h (hubKey bFCL 3) 0 1

/-! ## Half reset (R443 to R448) -/

/-- Registers that survive a half reset: those of the always-on domain, STU, CSC and FCL, but for what R447 and R449 end with it
(FCL_WIRE_LAST, FCL_COLLECT). -/
def survives (k : Nat) : Bool :=
  let block := k / 2 ^ 17
  block == bSTU || block == bCSC || (block == bFCL && (k / 256 % 64 ≠ 0 || k % 256 < 4))

/-- What survives of a register: all but MASKED of FCL_SEV_n (R427). A Stroke copy that is not the master has no parent now and
acquires again (R46, R446 step 10). -/
def survivor (e : Nat × Nat) : Nat × Nat :=
  if e.1 / 2 ^ 17 = bFCL && e.1 / 256 % 64 ≠ 0 then (e.1, setBits e.2 6 1 0)
  else if e.1 = hubKey bSTU 3 && bits e.2 0 3 ≠ 4 then (e.1, place 1 0 3 + place 0xF 3 4 + place 0xFF 8 8)
  else e

/-- What is left of a half once its switched domains have been reset: the always-on domain, with what the management port holds there, and
the flash (R447, R508; DEDUCED, log entry 110). -/
def HalfState.afterReset (x : HalfState) : HalfState :=
  { boot := .rom, bootSel := x.bootSel, reset := x.reset, count := x.count, slewPpm := x.slewPpm, refBase := x.refBase
    refMisplaced := x.refMisplaced, refIgnored := x.refIgnored, recordsLost := true
    regs := (x.regs.filter fun e => survives e.1).map survivor
    cscInForce := x.cscInForce, level := x.level, debt := x.debt, drawn := x.drawn, derate := x.derate
    tjMax := x.tjMax, windowStarts := x.windowStarts, windowBegun := x.windowBegun, windowEnded := x.windowEnded
    sampleSlot := x.sampleSlot, windowSamples := x.windowSamples, windowRaw := x.windowRaw, millivolts := x.millivolts, milliamps := x.milliamps
    calibrations := x.calibrations, keptNotice := x.keptNotice, forced := x.forced, asserted := x.asserted
    flash := x.flash, measures := { x.measures with locked := false }, recovBytes := x.recovBytes, recovResult := x.recovResult
    recovStep := x.recovStep, scrubAll := true, bootSampled := x.bootSampled, mgmtHeld := x.mgmtHeld, mgmtLast := x.mgmtLast }

/-- The address range of a half's HBM and of its TST (R35); the TRF follows its tiles. -/
def halfRanges (h : Half) : List (Nat × Nat) :=
  [(h.part * 2 ^ 40, (h.part + 1) * 2 ^ 40), (2 ^ 41 + h.part * 2 ^ 40, 2 ^ 41 + (h.part + 1) * 2 ^ 40),
   (trfOfTile (192 * h.part) 0, trfOfTile (192 * (h.part + 1)) 0)]

/-- The contents of a half's memories are lost: undefined until written or scrubbed (R447). -/
def State.loseMemory (s : State) (h : Half) : State :=
  { s with
    mem := (halfRanges h).foldl (fun m r => m.veil r.1 r.2 s.drawnFree) s.mem
    drawnFree := s.drawnFree + 1 }

/-- A switch when a half is reset (R33, R100): one of the other half alone goes on, one of both halves goes on there, and one of the
lost half alone is gone. -/
def State.switchAfterReset (s : State) (h : Half) : Option Switch :=
  match s.switch with
  | some w => if w.both || w.home ≠ h then some { w with both := false, home := h.other } else none
  | none => none

/-- Step 4 of R446: the switched domains are reset and the Siphon is down, which the other half sees at its next stroke (R23). -/
def State.resetDomains (s : State) (h : Half) : State :=
  let s0 := (s.loseMemory h).modHalf h HalfState.afterReset
  let s1 := if s.siphonUp && s.ready h.other then
      s0.modHalf h.other fun x => { x with asserted := x.asserted ++ [0x020] } else s0
  { s1.modHalf h.other (fun x => { x with siphonOut := {} }) with
    siphon := 0
    switch := s1.switchAfterReset h
    staging := if h = .q then none else s1.staging
    settingsStaging := if h = .q then none else s1.settingsStaging }

/-- Events that concern both halves and have not fired are cancelled in the survivor, except a freeze; their commands end
(R448, R484). -/
def State.cancelShared (s : State) (survivor : Half) (cause : Nat) : State :=
  let shared (e : Sched) : Bool := e.both && (match e.kind with | .freeze _ => false | _ => true)
  let enders := (s.half survivor).events.filter shared
  let s1 := s.modHalf survivor fun x => { x with events := x.events.filter fun e => !shared e }
  enders.foldl (fun t e => match e.kind with
    | .commit _ _ _ g cmd => (match t.cmd? cmd with | some (h, c) => t.finish h c (lostResult g) | none => t)
    | .activation cmd =>
      (match t.cmd? cmd with
        | some (h, c) => t.finish h c { status := stFault, d0 := rsEngine, d1 := cause }
        | none => t)
    | .freeze _ => t) s1

/-- The reset notice of a half reset: written by the other half when it is READY, kept in the always-on domain otherwise
(R434), where it replaces any notice kept before. `cause` carries the partition bit. -/
def State.resetNotice (s : State) (h : Half) (stroke cause trigger : Nat) : State :=
  if s.ready h.other then (s.notice h.other 0 stroke cause trigger).modHalf h fun x => { x with keptNotice := none }
  else s.modHalf h fun x =>
    { x with keptNotice := some (replyWord 0xFFFFFFFF stFault 0 stroke 0 rsEngine cause trigger) }

/-- The source number of a reset's cause, partition bit included; for HALF_RESET_N the partition bit alone (R434). -/
def causeOf (h : Half) (source trigger : Nat) : Nat := h.part * 1024 + (if trigger = 3 then 0 else source)

/-- Does a half reset of the other half end a command (R448)? Those that act in both halves, but for a switch under way and a teardown that waits, which
go on in the surviving half (R99, R100). -/
def Cmd.losesPart (c : Cmd) : Bool :=
  c.done.isNone && c.twoHalf && c.ring = .mgmt && !(c.waiting && [0x0102, 0x0103, 0x0104].contains (pkOpcode c.packet))

/-- Mirrored commands of the survivor whose other part is lost end with TORN_DOWN (R448), an activation with the cause (R484). -/
def State.endMirrored (s : State) (survivor : Half) (cause : Nat) : State :=
  ((s.half survivor).cmds.filter Cmd.losesPart).foldl
    (fun t c => t.finish survivor c (if pkOpcode c.packet = 0x0B02 then { status := stFault, d0 := rsEngine, d1 := cause }
      else lostResult (pkGen c.packet))) s

/-- A reset of either half during FW_STAGE WRITE ends it with the cause; the staging has to be repeated, and the devices stay
WRITING (R478). -/
def State.abortWrite (s : State) (cause : Nat) : State :=
  match s.writing with
  | none => s
  | some id =>
    let s1 : State := { s with writing := none, staging := none }
    match s1.cmd? id with
    | some (h, c) => s1.finish h c { status := stFault, d0 := rsEngine, d1 := cause }
    | none => s1

/-- The trigger of a half reset (R443, R446 step 1, R447, R448). -/
def State.halfReset (s : State) (h : Half) (source trigger : Nat) : State :=
  let x := s.half h
  if x.boot = .off ∨ x.resetting then s else
  let cause := causeOf h source trigger
  let other := s.half h.other
  -- a trigger in the collecting half resets both and abandons the collection
  let collides := other.resetting
  let collect := other.boot = .ready && !other.resetting && s.siphonUp && other.collectMs h.other ≠ 0 && !collides
  let s1 := s.resetNotice h x.count cause trigger
  let fcl (y : HalfState) : HalfState :=
    let st := y.cell h (hubKey bFCL 1)
    y.setCell (hubKey bFCL 1)
      (setBits (setBits (setBits st 16 8 (bits st 16 8 + 1)) 24 11 cause) 35 3 trigger)
  let ids := x.ctxs.map (·.id)
  let s2 := s1.modHalf h fun y =>
    { fcl y with boot := .rom, wasReady := false, reset := some { start := y.count, cause := cause, trigger := trigger, collecting := collect, resident := x.resident },
                 resident := none, deadlines := [], ports := [], events := [], routePending := [], pendingFreeze := none,
                 sourceArm := none, frozen := none }
  let tear (t : State) (i : Nat) : State :=
    let u := if ((t.half h.other).ctx i).alive then t.cross h .urgent flitBytes else t
    ((u.tearSwitch i).tearHalf h.other i true).tearEnd i
  let s3 := ids.foldl (fun t i => if inFootprint ((x.ctx i).footprint) h then tear t i else t) s2
  let s4 := ((s3.cancelShared h.other cause).endMirrored h.other cause).abortWrite cause
  let s5 := if collect then s4 else s4.resetDomains h
  if collides then
    (s5.modHalf h.other fun y => match y.reset with
      | some r => { y with reset := some { r with collecting := false } }
      | none => y).resetDomains h.other
  else s5

/-! ## Occurrences (R429 to R436) -/

/-- The NOTICE of a machine-wide freeze (R379, R468): stroke in ADDR; FREEZE_ID, REPLACE and STOP_TRACE in ARG. -/
def freezeFrame (x : HalfState) (h : Half) (stroke : Nat) (a : FreezeArm) : Frame :=
  { noticeFrame 0 2 (stroke % 2 ^ 48) with
    arg := 2 + place a.freezeId 8 32 + place (if a.replace then 1 else 0) 40 1 + place (if a.stopTrace then 1 else 0) 41 1
    src := x.myPos h, ver := x.e2eVer h }

/-- Send a freeze notice on every ACTIVE torus port but one (R468). -/
def HalfState.floodFreeze (x : HalfState) (h : Half) (except stroke : Nat) (a : FreezeArm) : HalfState :=
  [0, 1, 2, 3].foldl (fun y p => if p ≠ except && y.portState h p = 2 then y.transmit h p (freezeFrame y h stroke a) else y) x

/-- Freezes missed, modulo 256 (R468, R469, R471). -/
def HalfState.missFreeze (x : HalfState) (h : Half) : HalfState :=
  x.setField h (hubKey bGAU 1) 8 8 (bits (x.cell h (hubKey bGAU 1)) 8 8 + 1)

/-- The pending-freeze register takes a freeze; while it holds another identity the new one is discarded and counted (R468). -/
def HalfState.pendFreeze (x : HalfState) (h : Half) (stroke : Nat) (a : FreezeArm) : HalfState :=
  match x.pendingFreeze with
  | some p => if p.arm.freezeId = a.freezeId then x else x.missFreeze h
  | none => { x with pendingFreeze := some { stroke := stroke, arm := a } }

/-- An armed source triggers its freeze (R466): in both halves at the next stroke, or machine-wide at the stroke + LEAD. The
notices go out with it (R468). -/
def State.triggerFreeze (s : State) (h : Half) (a : FreezeArm) : State :=
  let stroke := s.now h + (if a.machine then a.lead else 1)
  let take (g : Half) (x : HalfState) : HalfState :=
    let y := { x.pendFreeze g stroke a with freezeSeen := x.freezeSeen ++ [a.freezeId] }
    if a.machine then y.floodFreeze g 4 stroke a else y
  let s1 := s.modHalf h fun x => { take h x with sourceArm := none }
  if s1.siphonUp then (s1.cross h .urgent flitBytes).modHalf h.other (take h.other) else s1

/-- Is a source of a half sticky at severity SOFT or HARD (R435)? -/
def HalfState.alerts (x : HalfState) : Bool :=
  x.boot ≠ .off && x.regs.any fun e => e.1 / 2 ^ 17 = bFCL && e.1 / 256 % 64 ≠ 0 && bitSet e.2 2 && 2 ≤ bits e.2 0 2

/-- ALERT_N is low (R435, R507). -/
def State.alert (s : State) : Bool := s.q.alerts || s.k.alerts

/-- A fall of ALERT_N between two states raises an in-band interrupt while ENEC has enabled it (R508). -/
def State.ibiAfter (s before : State) : State :=
  if s.alert && !before.alert && s.ibiEnabled then { s with ibi := true } else s

/-- What an occurrence does beside setting STICKY, where the half is not resetting: notice, escalation, teardown, reset (R429, R430,
R436). `first`: STICKY was clear. -/
def State.occurActions (s : State) (h : Half) (source sev : Nat) (info : SourceInfo) (first : Bool) (affected : Option Nat) : State :=
  let x0 := s.half h
  let num := h.part * 1024 + source
  let s3 := if sev ≠ 0 && first && sev ≠ 3 then
      s.notice h (if info.context then affected.getD 0 else 0) x0.count num 0 else s
  let s4 := if sev = 2 && first then
      s3.modHalf h fun x => { x with deadlines := x.deadlines.set source (x.count + 100 * x.escUs h) } else s3
  let s5 := if sev = 2 && info.context && bitSet (x0.sev h source) 4 then
      (match affected with | some i => s4.teardownFrom h i true | none => s4) else s4
  if sev = 3 then s5.halfReset h source 1 else s5

/-- An occurrence whether or not the pair is masked (R429 to R436). `superseded`: a HARD occurrence of the same stroke leaves of a SOFT
one only its STICKY; so does an escalation deadline that falls in it (R433). -/
def State.occurUnmasked (s : State) (h : Half) (source : Nat) (affected : Option Nat) (superseded : Bool := false) : State :=
  match sourceInfo h source with
  | none => s
  | some info =>
    let x0 := s.half h
    let sev := bits (x0.sev h source) 0 2
    let sticky := x0.sticky h source
    let setSticky (x : HalfState) : HalfState :=
      if sev = 0 then x else x.setField h (sevKey source) 2 1 1
    if x0.boot = .off then s
    else if x0.resetting then (s.modHalf h fun x => setSticky (x.gauge 0x04 source 0 1)).ibiAfter s
    else
      let num := h.part * 1024 + source
      let s1 := s.modHalf h fun x =>
        setSticky ((x.gauge 0x04 source 0 1).traceEvent 5 (affected.getD 0) num sev)
      let s2 := match x0.sourceArm with
        | some (n, a) => if n = num then s1.triggerFreeze h a else s1
        | none => s1
      (if (superseded || x0.deadlines.any (·.2 ≤ x0.count)) && sev = 2 then s2 else s2.occurActions h source sev info (!sticky) affected).ibiAfter s

/-- An occurrence of a source of a half (R429). A masked pair raises nothing (R427). `affected`: the context whose work it affected. -/
def State.occur (s : State) (h : Half) (source : Nat) (affected : Option Nat) : State :=
  if bitSet ((s.half h).sev h source) 6 then s else s.occurUnmasked h source affected

/-! ## Engine results -/

/-- What a stack notes of a block that fails: the mismatch and the lines that ECC could not correct are counted, and it is the last error
(R338, R342). -/
def HalfState.noteBlock (x : HalfState) (h : Half) (die stack off dead : Nat) (patrol : Bool) : HalfState :=
  let key (i : Nat) : Nat := regKey bHBM die stack i
  ((x.count32 h (key 3) 0 dead).count32 h (key 4) 0 1).setCell (key 5)
    (place off 0 36 + place (if dead > 0 then 2 else 3) 36 2 + place patrol.toNat 38 1)

/-- What a seal mismatch in HBM leaves in the registers of its stack (R342). -/
def State.noteSeal (s : State) (dpa : Nat) : State :=
  let h := dpaHalf dpa
  if dpaRegion dpa ≠ 0 then s else
  s.modHalf h fun x => x.noteBlock h (bits dpa 38 2) (bits dpa 36 2) (dpa % 2 ^ 36 / 256 * 256) (s.mem.deadLines dpa) false

/-- The source of a seal mismatch: in HBM that of the stack (R352), in a TST the tile's engine fault (R128, R350, R428). -/
def sealSource (dpa : Nat) : Nat :=
  dieSourceNum (bits dpa 38 2) (if dpaRegion dpa ≠ 0 then 0x30 + bits dpa 22 6 else 0x68 + bits dpa 36 2)

/-- What a seal mismatch raises: its counts and its occurrence. -/
def State.sealFault (s : State) (dpa : Nat) (ctx : Option Nat) : State := (s.noteSeal dpa).occur (dpaHalf dpa) (sealSource dpa) ctx

/-- The result of a block that failed its seal in flight: it has no DPA, and the detail words are free (R74, R358). -/
def State.linkSeal (s : State) : Result :=
  { status := stIntegrity, d0 := rsSeal, d1 := (Config.freeWord s.drawnFree).toNat
    d2 := (Config.freeWord (s.drawnFree + 1)).toNat % 2 ^ 12 }

/-- A command that read a payload whose seal failed ends (R352). -/
def State.endSeal (s : State) (h : Half) (c : Cmd) : State := { s.finish h c s.linkSeal with drawnFree := s.drawnFree + 2 }

/-- Memory traffic addresses a memory domain: it is awake, and its idle time begins again (R68). -/
def HalfState.touchDomain (x : HalfState) (d : Nat) : HalfState :=
  { x with gated := x.gated.filter (· ≠ d), waking := x.waking.filter (· ≠ d), domainIdle := x.domainIdle.set d 0 }

/-- Bytes read and written count in the gauges of their memory (R455), and keep their HBM domains awake (R68). -/
def State.countTraffic (s : State) (rd wr : Table) : State :=
  let go (sub : Nat) (t : State) (e : Nat × Nat) : State :=
    if e.1 < 1000 then t.modHalf (Half.ofPart (e.1 / 12)) fun x =>
      (x.touchDomain (e.1 % 12 / 3 * 3 + 1)).gauge 0x02 (3 * 512 + e.1 % 12) sub e.2
    else
      let g := e.1 % 1000
      t.modHalf (Half.ofPart (g / 192)) fun x => x.gauge 0x02 ((if e.1 < 2000 then 512 else 0) + g % 192) sub e.2
  wr.foldl (go 1) (rd.foldl (go 0) s)

/-- The traffic of a command counts in the gauges, and that of HBM in the command's attribution, in the half of the stack (R455, R457,
R458; DESIGN CHOICE, log entry 109). -/
def State.countBytes (s : State) (key : Nat) (rd wr : Table) : State :=
  let sum (g : Half) (t : Table) : Nat := total ((t.filter fun e => e.1 < 1000 && e.1 / 12 = g.part).map (·.2))
  let count (g : Half) (x : HalfState) : HalfState :=
    let y := if sum g rd = 0 then x else x.attribute key 10 (sum g rd)
    if sum g wr = 0 then y else y.attribute key 11 (sum g wr)
  ((s.countTraffic rd wr).modHalf .q (count .q)).modHalf .k (count .k)

/-- What a run moved across the Siphon crosses in the TENSOR class (R26, R40). -/
def State.crossRun (s : State) (key : Option Nat) (r : Run) : State :=
  r.crossed.foldl (fun t e => t.crossFor key (Half.ofPart e.1) .tensor e.2) s

/-- What a run did is counted: its memory traffic, and its crossings. -/
def State.countRun (s : State) (key : Nat) (r : Run) : State := (s.countBytes key r.rd r.wr).crossRun (some key) r

/-- Where a remote CXA lies: plane of its frame, position, and frame (R343, R346). -/
def Env.remoteOf (e : Env) (cxa : Nat) : Option (Half × Nat × Nat) :=
  match e.translate cxa with
  | .remote pos frame _ _ => some (frameHalf frame, pos, frame)
  | _ => none

/-- How ARG of a READ_REQ or WRITE carries the remote frame (R343); a frame without it names a CXA of the receiver's own map. -/
def remoteArg (frame : Nat) : Nat := place 1 27 1 + place frame 28 20

/-- Read requests for remote blocks (R344, R379): each goes out on the plane of its frame. `false`: a destination is
unreachable. -/
def State.requestBlocks (s : State) (e : Env) (c : Cmd) : List Nat → State × Bool
  | [] => (s, true)
  | b :: rest =>
    match e.remoteOf b with
    | none => s.requestBlocks e c rest
    | some (plane, pos, frame) =>
      let a := s.send plane (some c.id)
        { type := 0x0, dst := pos, ctx := c.ctx.getD 0, gen := c.gen, addr := b, arg := 256 + remoteArg frame }
      let z := a.1.requestBlocks e c rest
      (z.1, a.2 && z.2)

/-- Write frames of a run (R347, R379). -/
def State.sendPuts (s : State) (e : Env) (c : Cmd) : List Put → State × Bool
  | [] => (s, true)
  | p :: rest =>
    match e.remoteOf p.cxa with
    | none => s.sendPuts e c rest
    | some (plane, pos, frame) =>
      let a := s.send plane (some c.id)
        (dataFrame 0x2 pos (c.ctx.getD 0) c.gen p.cxa (p.bytes.length + p.flags * 512 + remoteArg frame) p.bytes)
      let z := a.1.sendPuts e c rest
      (z.1, a.2 && z.2)

/-- Neighbouring puts without flags that lie in one 256-byte block become one frame. -/
def mergePuts : List Put → List Put
  | [] => []
  | p :: rest =>
    match mergePuts rest with
    | n :: more =>
      if p.flags = 0 && n.flags = 0 && p.cxa + p.bytes.length = n.cxa && p.cxa / 256 = n.cxa / 256 then
        { p with bytes := p.bytes ++ n.bytes } :: more
      else p :: n :: more
    | [] => [p]

/-- The source of an unreachable peer (R428). -/
def srcUnreachable : Nat := 0x046

/-- Apply the run of a command's engine. While it needs remote blocks it asks for them and nothing else happens: the row is
performed again when they have come. Otherwise memory, counts, faults and frames take effect, and the command finishes with the
condition that stopped the run or with `ok`. -/
def State.applyRun (s : State) (h : Half) (c : Cmd) (e : Env) (r0 : Run) (ok : Run → Result) : State :=
  let r := r0.settle
  if !r.need.isEmpty then
    let a := s.requestBlocks e c r.need
    if a.2 then a.1.setCmd h { c with waiting := true }
    else (a.1.occur h srcUnreachable c.ctx).finish h c (engineResult h srcUnreachable)
  else
    let s1 := (s.commit r.mem).countRun (attrKey c.packet) r
    let a := s1.sendPuts e c (mergePuts r.puts)
    let s2 := a.1.finish h c (match r.stop with
      | some res => res
      | none => if a.2 then ok r else engineResult h srcUnreachable)
    let s3 := if a.2 then s2 else s2.occur h srcUnreachable c.ctx
    r.seals.foldl (fun t d => t.sealFault d c.ctx) s3

/-- Apply part of a command's work: as `applyRun`, but on success the command goes on as `next`. -/
def State.applyPart (s : State) (h : Half) (c : Cmd) (e : Env) (r0 : Run) (next : Cmd) : State :=
  let r := r0.settle
  if !r.need.isEmpty || r.stop.isSome then s.applyRun h c e r0 fun _ => okResult 0 0 0
  else
    let s1 := (s.commit r.mem).countRun (attrKey c.packet) r
    let a := s1.sendPuts e c (mergePuts r.puts)
    if a.2 then a.1.setCmd h next else (a.1.occur h srcUnreachable c.ctx).finish h c (engineResult h srcUnreachable)

end Sys2Proof.Machine
end

