-- ==== Sys2Proof/Machine/Checks.lean ====
section
/-! DEFINITION. How a command is checked before it runs (R518): what one opcode supplies to the two stages, the records read at
examination, and the refusals they give (R14, R39, R74). -/

namespace Sys2Proof.Machine

/-- Which rings take an opcode (R75): management only, context only, or either. -/
inductive RingKind where
  | m
  | c
  | a
deriving DecidableEq, Repr

/-- What the check at the head of a ring rests on beside the packet: the home half and the context's footprint (R518). -/
structure HeadEnv where
  home : Half := .q
  footprint : Nat := 3
  /-- The ring is a management ring. -/
  mgmt : Bool := false
deriving DecidableEq, Repr

/-- A list of checks. -/
def checks (l : List Check) : List Check := l

/-- A refusal found at examination: the packet field it concerns and the result. -/
structure Bad where
  bit : Nat
  res : Result
deriving DecidableEq, Repr

/-- A field refusal, when a condition holds. -/
def badIf (cond : Bool) (bit : Nat) (d2 : Nat := 0) : List Bad := if cond then [{ bit := bit, res := refuseField bit d2 }] else []

/-- The first refusal of a list by packet field; of several on one field, the first listed (R74). -/
def firstRefusal (bs : List Bad) : Option Result :=
  match least (bs.map (·.bit)) with
  | none => none
  | some b => (bs.find? (·.bit = b)).map (·.res)

/-- The state of an examination: records read, refusals, and an ERR_INTEGRITY met in a record. -/
structure Exm where
  env : Env
  run : Run
  records : List Rec := []
  bads : List Bad := []
  /-- A work count is zero, so the command completes with OK_EMPTY (R106). -/
  empty : Bool := false
  /-- It ends with OK_EMPTY after an effect (R106, R306). -/
  untested : Bool := false
  /-- An attention-class command, whose descriptors are limited by MAX_SEQ (R415). -/
  attention : Bool := false
  /-- Work of the command's energy class in the home half and in the other half (R59, R65). -/
  workHome : Nat := 0
  workOther : Nat := 0
  /-- Operand ranges in context memory: first byte and length (R68). -/
  ranges : List (Nat × Nat) := []
deriving DecidableEq, Repr

/-- Add refusals. -/
def Exm.bad (x : Exm) (bs : List Bad) : Exm := { x with bads := x.bads ++ bs }

/-- Refuse on a field when a condition holds. -/
def Exm.badWhen (x : Exm) (cond : Bool) (bit : Nat) (d2 : Nat := 0) : Exm := x.bad (badIf cond bit d2)

/-- What one byte of an operand whose extent is known gives at submission (R39): a miss, a missing WRITABLE, or a REMOTE page
where the CMP itself reads (R345). -/
def Env.checkByte (e : Env) (bit cxa : Nat) (write local' : Bool) : List Bad :=
  match e.translate cxa with
  | .miss => [{ bit := bit, res := missResult stDesc rsMapMiss cxa }]
  | .here _ w => if write && !w then [{ bit := bit, res := missResult stDesc rsReadonly cxa }] else []
  | .remote _ _ _ w =>
    if local' then [{ bit := bit, res := refuseField bit }]
    else if write && !w then [{ bit := bit, res := missResult stDesc rsReadonly cxa }] else []

/-- Check every 2 MiB page, and in an interleaved page every 2 KiB unit, of an operand range: one check for each translation
that can differ. The first failure is reported. -/
def Env.checkRange (e : Env) (bit cxa n : Nat) (write local' : Bool) : List Bad :=
  let touches (p : Nat × Nat) : List Nat :=
    if meKind (e.entry (p.1 / frameBytes)) = 2 then
      (pieces 2048 p.1 (min p.2 (2048 * 24))).map (·.1)
    else [p.1]
  match ((pieces frameBytes cxa n).flatMap touches).find? fun a => !(e.checkByte bit a write local').isEmpty with
  | some a => e.checkByte bit a write local'
  | none => []

/-- Check an operand range at examination. -/
def Exm.range (x : Exm) (bit cxa n : Nat) (write : Bool) : Exm :=
  { x.bad (x.env.checkRange bit cxa n write false) with ranges := x.ranges ++ [(cxa, n)] }

/-- An operand range whose pages are not checked at examination (R296). -/
def Exm.span (x : Exm) (cxa n : Nat) : Exm := { x with ranges := x.ranges ++ [(cxa, n)] }

/-- Read a record at examination (R518): it may not lie on REMOTE pages (R345), a miss refuses (R39), a seal mismatch is
ERR_INTEGRITY (R13). -/
def Exm.record (x : Exm) (bit cxa len : Nat) : Nat × Exm :=
  match x.env.checkRange bit cxa len false true with
  | [] =>
    let y := x.run.load x.env cxa len
    let v := numOf y.1
    (v, { x with run := y.2, records := x.records ++ [{ cxa := cxa, len := len, value := v }] })
  | bs => (0, { x.bad bs with records := x.records ++ [{ cxa := cxa, len := len, value := 0 }] })

/-- Read a record whose miss shows only as the command runs (R296): it is kept with length 0. -/
def Exm.recordLate (x : Exm) (bit cxa len : Nat) : Nat × Exm :=
  match x.env.checkRange bit cxa len false true with
  | b :: _ =>
    if b.res.d0 = rsMapMiss then (0, { x with records := x.records ++ [{ cxa := cxa, len := 0, value := 0 }] }) else x.record bit cxa len
  | [] => x.record bit cxa len

/-- Did the last record read show a miss that counts only later? -/
def Exm.lastMissed (x : Exm) : Bool := match x.records.getLast? with | some r => r.len = 0 | none => false

/-- Does an examination so far refuse? -/
def Exm.refused (x : Exm) : Bool := !x.bads.isEmpty || x.run.stop.isSome

/-- Read and check a tensor descriptor (R185, R188, R415): `cxa` is the packet field's value at packet bit `bit`. DESIGN CHOICE
(log entry 101): a tile outside the footprint names the tile's number within BASE, bit 22. -/
def Exm.desc (x : Exm) (bit cxa eb : Nat) (write spaceOk : Bool) (footprint : Nat) : Desc × Exm :=
  let y := x.record bit cxa 128
  let d := Desc.parse y.1
  if y.2.refused then (d, y.2) else
  let z := match descBad y.1 eb write spaceOk with
    | some off => y.2.badWhen true bit (1 + off)
    | none => (match (List.range 5).find? fun k => y.2.attention && d.ext.getD k 1 > Config.maxSeq with
        | some k => y.2.badWhen true bit (1 + (128 * k + 128))
        | none => y.2).badWhen (d.tst && !(d.tile < 384 && inFootprint footprint (Half.ofPart (d.tile / 192)))) bit (1 + 22)
  if z.refused || d.tst then (d, z) else
  match d.range eb with
  | none => (d, z)
  | some (lo, hi) =>
    let a := z.env.checkByte bit lo.toNat write false
    (d, { z.bad (if a.isEmpty then z.env.checkByte bit (hi.toNat + eb - 1) write false else a) with
            ranges := z.ranges ++ [(lo.toNat, hi.toNat + eb - lo.toNat)] })

/-- Does a byte range of context memory meet a REMOTE page (R345)? -/
def Env.meetsRemote (e : Env) (r : Nat × Nat) : Bool :=
  ((e.map ++ e.epoch).map (·.1)).any fun page => meKind (e.entry page) = 3 && overlaps (page * frameBytes) frameBytes r.1 r.2

/-- Memory and embedding domain of a global die (R67). -/
def memoryDomain (d : Nat) : Nat := 17 * (d / 4) + 3 * (d % 4) + 1

/-- Memory-and-embedding domains of this module that hold a byte range of context memory (R37, R67): those of the frames of its
mapped pages, and for an interleaved page of every frame of its group. -/
def Env.rangeDomains (e : Env) (r : Nat × Nat) : List Nat :=
  if r.2 = 0 then [] else
  let first := r.1 / frameBytes
  let last := (r.1 + r.2 - 1) / frameBytes
  let meets (page : Nat) : Bool :=
    let me := e.entry page
    let n := if meKind me = 2 then groupPages (meGroup me) else 1
    (meKind me = 1 || meKind me = 2) && first ≤ page - page % n + (n - 1) && page - page % n ≤ last
  (((e.map ++ e.epoch).map (·.1)).filter meets).map fun page => memoryDomain (meFrame (e.entry page) / 2 ^ 17 % 8)

/-- What one opcode supplies to the pipeline. -/
structure OpSpec where
  ring : RingKind
  lo : Nat
  hi : Nat
  /-- Energy classes the opcode produces (R59); class 0 is always among them. -/
  classes : List Nat := [0]
  /-- Checks on the packet alone (R518): packet bit and whether the field is invalid. -/
  head : HeadEnv → Nat → List Check := fun _ _ => []
  /-- Further checks on the packet alone, with a refusal of their own. -/
  headMore : HeadEnv → Nat → Option Result := fun _ _ => none
  /-- The command is not ready for want of an engine place or because a switch runs (R86, R96). -/
  busy : State → Half → Nat → Bool := fun _ _ _ => false
  /-- Examination against records and state. -/
  exam : State → Half → Nat → Exm → Exm := fun _ _ _ x => x
  /-- The command acts in both halves and is mirrored (R31). -/
  mirrored : State → Half → Nat → Bool := fun _ _ _ => false
  /-- The field for which the packet is refused with ERR_UNSUPPORTED on its own (R88). -/
  unsupported : Nat → Option Nat := fun _ => none
  /-- Power domains of the engines the command names, by global number (R67). -/
  domains : State → Half → Nat → List Nat := fun _ _ _ => []
  /-- Scoped to a context on the management ring (R77). -/
  isScoped : Nat → Bool := fun _ => false
  /-- Exempt from the energy test (R61). -/
  exempt : Bool := false

/-- Work that runs in one half: counted for the home half or for the other. -/
def Exm.work (x : Exm) (home : Half) (where' : Half) (n : Nat) : Exm :=
  if home = where' then { x with workHome := x.workHome + n } else { x with workOther := x.workOther + n }

/-- Record `i` that a command read at examination. -/
def Cmd.recordNum (c : Cmd) (i : Nat) : Nat := ((c.exam.records[i]?).map (·.value)).getD 0

/-- Was record `i` not there at examination (R296)? -/
def Cmd.recordMissed (c : Cmd) (i : Nat) : Bool := match c.exam.records[i]? with | some r => r.len = 0 | none => false

/-- The descriptor in record `i`. -/
def Cmd.desc (c : Cmd) (i : Nat) : Desc := Desc.parse (c.recordNum i)

/-- Is a gate or engine of a half outside the footprint (R41, R89)? -/
def outside (e : HeadEnv) (h : Half) : Bool := !inFootprint e.footprint h

/-! ## What scoped commands share -/

/-- The halves that a context's footprint names, read from whichever half defines it. -/
def State.footprintOf (s : State) (id : Nat) : Nat := max ((s.q.ctx id).footprint) ((s.k.ctx id).footprint)

/-- The copy of a context in a half of its footprint, the given half first. -/
def State.ctxAny (s : State) (h : Half) (id : Nat) : Ctx :=
  if inFootprint ((s.half h).ctx id).footprint h then (s.half h).ctx id else (s.half h.other).ctx id

/-- The higher of the generations that the halves record for an ID; the halves of one footprint agree. -/
def State.genOf (s : State) (h : Half) (id : Nat) : Nat :=
  let c := s.ctxAny h id
  if inFootprint c.footprint h then (s.half h).gen id
  else if inFootprint c.footprint h.other then (s.half h.other).gen id
  else (s.half h).gen id

/-- A command scoped to a context needs one that is defined and not dead; the field is CTX_ID (R74, R96). -/
def examAlive (s : State) (h : Half) (p : Nat) (x : Exm) : Exm := x.badWhen (!(s.ctxAny h (pkCtx p)).alive) 24

/-- The footprint reaches the other half while the halves cannot act together (R517). -/
def examTogether (s : State) (h : Half) (p : Nat) (x : Exm) : Exm :=
  x.badWhen (inFootprint (s.ctxAny h (pkCtx p)).footprint h.other && !s.together h) 24

/-- Does the context of the packet have the other half in its footprint? -/
def ctxBoth (s : State) (h : Half) (p : Nat) : Bool :=
  inFootprint (s.ctxAny h (pkCtx p)).footprint h.other && s.together h

end Sys2Proof.Machine
end

