-- ==== Sys2Proof/Machine/Places.lean ====
section
/-! DEFINITION. The engines that a packet names: movers, tiles and single-instance engines of a die or hub (R86, R198, R355, R390),
and the power domains they lie in (R67). -/

namespace Sys2Proof.Machine

/-- The key of a mover: partition, die (4 for the hub) and unit. -/
def moverKey (part die unit : Nat) : Nat := part * 32 + die * 4 + unit

/-- The tiles from `first` on. -/
def tileRange (first count : Nat) : List Nat := (List.range count).map (first + ·)

/-- First tile and tile count of a MATMUL, VECTOR or ORTHO (R131, R149, R228). -/
def tileSpan (p : Nat) : Nat × Nat :=
  if pkOpcode p = 0x0203 then (pl p 416 9, pl p 425 9)
  else if pkOpcode p = 0x0204 then (pl p 312 9, pl p 321 9)
  else if pkOpcode p = 0x0403 then (pl p 352 9, pl p 361 9)
  else (0, 0)

/-- The tiles a command occupies (R127): TILE_RUN names them in a mask (R126), the others in a range. -/
def tilesOf (p : Nat) : List Nat :=
  if pkOpcode p = 0x0202 then bitIndices (pl p 0 384) 384 else tileRange (tileSpan p).1 (tileSpan p).2

/-- The half of a global tile (R108). -/
def tileHalf (g : Nat) : Half := Half.ofPart (g / 192)

/-- Global dies (4 × partition + die) of tiles. -/
def diesOf (tiles : List Nat) : List Nat := (tiles.map (· / 48)).eraseDups

/-- Is a tile the packet names occupied by another admitted command (R127)? -/
def tilesBusy (s : State) (_ : Half) (p : Nat) : Bool :=
  let mine := tilesOf p
  s.allCmds.any fun c => (tilesOf c.2.packet).any fun g => mine.contains g

/-- Do the tiles of a packet lie outside the home half while the halves act together: the command is mirrored (R31, R127)? -/
def tilesAcross (s : State) (h : Half) (p : Nat) : Bool := (tilesOf p).any (fun g => tileHalf g ≠ h) && s.together h

/-- Is a tile outside a footprint? -/
def tileOutside (footprint g : Nat) : Bool := g ≥ 384 || !inFootprint footprint (tileHalf g)

/-- Checks of the tiles of a packet whose TILE_FIRST lies at bit `b` and TILE_COUNT after it: the count, the sum, which names the
count (R74), and tiles that are not allowed. -/
def tileChecks (p b most : Nat) (bad : Nat → Bool) : List Check :=
  let f := (tileSpan p).1
  let n := (tileSpan p).2
  let isOver := n = 0 || n > most || f + n > 384
  [(b, !isOver && (tilesOf p).any bad), (b + 9, isOver)]

/-- Tile-array domains of the tiles (R67). -/
def tileDomains (tiles : List Nat) : List Nat := (diesOf tiles).map fun d => 17 * (d / 4) + 3 * (d % 4)

/-- Die uncore domain of a global die, which holds its CSE, UPU and movers (R67). -/
def uncoreDomain (d : Nat) : Nat := 17 * (d / 4) + 3 * (d % 4) + 2

/-- Global dies whose CSE a command occupies (R218, R221, R228, R233). -/
def csesOf (p : Nat) : List Nat :=
  if pkOpcode p = 0x0401 then [pl p 168 3]
  else if pkOpcode p = 0x0402 then bitIndices (pl p 448 8) 8
  else if pkOpcode p = 0x0403 then [pl p 208 3]
  else if pkOpcode p = 0x0501 then bitIndices (pl p 336 8) 8
  else []

/-- A command that names a busy CSE is not ready (R220). -/
def csesBusy (s : State) (_ : Half) (p : Nat) : Bool :=
  let mine := csesOf p
  s.allCmds.any fun c => (csesOf c.2.packet).any fun d => mine.contains d

/-- Global dies of a global die list that lie outside a footprint. -/
def dieOutside (footprint d : Nat) : Bool := !inFootprint footprint (Half.ofPart (d / 4))

/-- Does a packet name movers itself (R199)? -/
def namesMovers (p : Nat) : Bool := pkOpcode p == 0x0301 || pkOpcode p == 0x0302 || pkOpcode p == 0x0303

/-- Movers of LMV_MASK, ascending (R199). -/
def maskMovers (p : Nat) : List Nat := (bitIndices (pl p 136 4) 4).map fun u => moverKey (pl p 132 1) (pl p 133 3) u

/-- The mover places a command takes: those it names, both hub movers of the plane of a NEIGHBOUR_CKPT (R419), or for the
staging of a MATMUL or VECTOR one on every mover of each die it runs on (R198). -/
def moversOf (p : Nat) : List Nat :=
  if namesMovers p then maskMovers p
  else if pkOpcode p = 0x0A02 then (List.range 2).map fun u => moverKey (pl p 290 1) 4 u
  else if pkOpcode p = 0x0203 || pkOpcode p = 0x0204 then
    (diesOf (tilesOf p)).flatMap fun d => (List.range 4).map fun u => moverKey (d / 4) (d % 4) u
  else []

/-- Admitted commands that a mover serves. -/
def State.moverLoad (s : State) (key : Nat) : Nat := (s.allCmds.filter fun c => (moversOf c.2.packet).contains key).length

/-- A command that names a mover which already serves four is not ready (R198). -/
def moversBusy (s : State) (_ : Half) (p : Nat) : Bool := (moversOf p).any fun m => s.moverLoad m ≥ 4

/-- Power domain (global number) of a mover: the die uncore, or the hub's CLE/WSE domain (R67). -/
def moverDomain (key : Nat) : Nat :=
  17 * (key / 32) + (if key / 4 % 8 = 4 then 13 else 3 * (key / 4 % 8) + 2)

/-- Power domains of the movers a packet names. -/
def moverDomains (_ : State) (_ : Half) (p : Nat) : List Nat := ((moversOf p).map moverDomain).eraseDups

/-! ## Counts of the movers (R208) -/

/-- Spread a count over movers: with one mover it is that mover's, with several the spec gives no split and the parts are free
values that add up (R208). -/
def spread (free : Nat) : Nat → List Nat → List (Nat × Nat)
  | _, [] => []
  | n, [m] => [(m, n)]
  | n, m :: rest =>
    let part := (Config.freeWord free).toNat % (n + 1)
    (m, part) :: spread (free + 1) (n - part) rest

/-- Count in a register of movers (R208). -/
def State.countMovers (s : State) (index : Nat) (parts : List (Nat × Nat)) : State :=
  parts.foldl (fun t m =>
    let h := Half.ofPart (m.1 / 32)
    t.modHalf h fun x => x.count32 h (regKey bLMV (m.1 / 4 % 8) (m.1 % 4) index) 0 m.2) s

/-- Count on movers the out-of-bounds reads that they filled and the out-of-bounds writes that they dropped (R208). -/
def State.countOob (s : State) (movers : List Nat) (fills drops : Nat) : State :=
  { (s.countMovers 1 (spread s.drawnFree fills movers)).countMovers 2 (spread (s.drawnFree + movers.length) drops movers) with
    drawnFree := s.drawnFree + 2 * movers.length }

end Sys2Proof.Machine
end

