-- ==== Sys2Proof/Machine/Tiles.lean ====
section
/-! DEFINITION. Tile programs (R108 to R130): op words and their validity, the sequencer with its three issue queues, the control
ops, the matrix ops MMA and MDRAIN, LD and ST, the Gram ops (R209 to R213), TILE_PROGRAM_LOAD and TILE_RUN. -/

namespace Sys2Proof.Machine

/-! ## Op words -/

def opOpc (w : Nat) : Nat := bits w 0 8

/-- The queue of an op: 0 MXE, 1 VXE, 2 MOV; none for an op that takes effect at decode (R113). -/
def opQueue (w : Nat) : Option Nat :=
  let o := opOpc w
  if o = 0x10 || o = 0x11 || o = 0x40 || o = 0x41 then some 0
  else if 0x20 ≤ o && o ≤ 0x2F then some 1
  else if o = 0x30 || o = 0x31 then some 2
  else none

/-- Reserved ranges of an op word, as checks. -/
def opReserved (w : Nat) (rs : List (Nat × Nat)) : List Check := rs.map fun r => (r.1, decide (bits w r.1 r.2 ≠ 0))

/-- The effective line of an address field with its selector (R115). -/
def effLine (areg : List Nat) (w lo width sel : Nat) : Nat :=
  (bits w lo width + if bitSet w (sel + 3) then areg.getD (bits w sel 3) 0 else 0) % 2 ^ 32

/-! ### VXE op words (R139 to R141) -/

/-- Does a VXE op use source B, and source C (R140)? -/
def usesB (o : Nat) : Bool := 0x20 ≤ o && o ≤ 0x25
def usesC (o : Nat) : Bool := o == 0x22 || o == 0x25

/-- The highest MODE listed for a VXE op (R140). -/
def modeMax (o : Nat) : Nat :=
  if o = 0x20 ∨ o = 0x22 then 2 else if o = 0x25 ∨ o = 0x2B ∨ o = 0x2C then 3 else 0

/-- Lines of one vector of A, and of D: four, or for VCVT as many as the bytes of its element (R138). -/
def vecLinesA (w : Nat) : Nat := if opOpc w = 0x2A then fmtBytes (bits w 108 3) else 4
def vecLinesD (w : Nat) : Nat := if opOpc w = 0x2A then fmtBytes (bits w 111 3) else 4

def vxCount (w : Nat) : Nat := bits w 80 13
def vxW16 (w : Nat) : Bool := bitSet w 93
def vxMode (w : Nat) : Nat := bits w 95 2

/-- Lines the destination of a VXE op takes in all (R141, R143). -/
def destLines (w : Nat) : Nat :=
  if opOpc w = 0x2B then (if vxW16 w then 8 else 4)
  else if opOpc w = 0x2C && vxMode w < 2 then 4 * ceilDiv (vxCount w) 64
  else vecLinesD w * vxCount w

/-- The operands of a VXE op: place of the line field, place of its selector, lines of a vector, lines in all. -/
def vxOperands (w : Nat) : List (Nat × Nat × Nat × Nat) :=
  let n := vxCount w
  [(16, 28, vecLinesA w, if bitSet w 97 then vecLinesA w else vecLinesA w * n)]
    ++ (if usesB (opOpc w) then [(32, 44, 4, if bits w 99 2 = 0 then 4 * n else 4)] else [])
    ++ (if usesC (opOpc w) then [(48, 60, 4, if bitSet w 98 then 4 else 4 * n)] else [])
    ++ [(64, 76, vecLinesD w, destLines w)]

/-- A misaligned or overlong operand of a VXE op, by line field (R138, R141). -/
def vxPlaceChecks (areg : List Nat) (w : Nat) (only : Nat → Bool) : List Check :=
  ((vxOperands w).filter fun o => only o.2.1).map fun o =>
    let l := effLine areg w o.1 12 o.2.1
    (o.1, l % max o.2.2.1 1 ≠ 0 || l + o.2.2.2 > 4096)

/-- Checks of a VXE op word by its own fields (R139, R141, R168). -/
def vxChecks (w : Nat) : List Check :=
  let o := opOpc w
  let cvt := o == 0x2A
  let src := bits w 108 3
  let dst := bits w 111 3
  checks [(0, o > 0x2D), (80, vxCount w = 0 || vxCount w > 4096), (93, vxW16 w && (cvt || o = 0x2C)), (95, vxMode w > modeMax o),
    (32, !usesB o && bits w 32 12 ≠ 0), (44, !usesB o && bits w 44 4 ≠ 0),
    (99, (!usesB o && bits w 99 2 ≠ 0) || bits w 99 2 = 3),
    (101, (!usesB o && bits w 101 7 ≠ 0) || (usesB o && !vxW16 w && bits w 101 7 ≥ 64)),
    (48, !usesC o && bits w 48 12 ≠ 0), (60, !usesC o && bits w 60 4 ≠ 0), (98, !usesC o && bitSet w 98),
    (108, if cvt then src ≥ 5 else src ≠ 0), (111, if cvt then dst ≥ 5 else dst ≠ 0),
    (114, bitSet w 114 && !(cvt && (dst = 3 || dst = 4))), (115, !cvt && bits w 115 12 ≠ 0), (127, bitSet w 127)]
    ++ vxPlaceChecks [] w fun sel => !bitSet w (sel + 3)

/-! ### Every op word -/

/-- Checks of an op word by its own fields (R113, R116 to R118, R122, R124, R125, R212, R213). -/
def opChecks (footprint w : Nat) : List Check :=
  let o := opOpc w
  opReserved w [(11, 5)] ++
  (if o ≤ 0x01 then opReserved w [(16, 112)]
   else if o = 0x02 then (16, !inFootprint footprint (gateHome (bits w 16 12))) :: opReserved w [(28, 4), (64, 64)]
   else if o = 0x03 then checks [(16, bits w 16 16 = 0), (32, bits w 32 16 = 0 || bits w 32 16 > 4096)] ++ opReserved w [(48, 80)]
   else if o ≤ 0x05 then opReserved w [(19, 13), (64, 64)]
   else if o = 0x10 then
     checks [(48, bits w 48 11 = 0 || bits w 48 11 > 1024 || (bitSet w 75 && bits w 48 11 % 32 ≠ 0)),
       (64, !pairOk (bits w 64 3) (bits w 67 3)), (70, bitSet w 70 && bits w 64 3 ≠ 5), (71, bitSet w 71 && bits w 67 3 ≠ 5),
       (76, bits w 76 2 > 1)] ++ opReserved w [(59, 5), (78, 50)]
   else if o = 0x11 then
     checks [(19, bits w 19 3 > 4), (26, bitSet w 26 && bits w 19 3 ≠ 3 && bits w 19 3 ≠ 4), (44, !bitSet w 17 && bits w 44 4 ≠ 0)]
       ++ opReserved w [(27, 1), (60, 4), (115, 13)]
   else if 0x20 ≤ o ∧ o ≤ 0x2F then vxChecks w
   else if o = 0x30 ∨ o = 0x31 then (52, bits w 52 12 = 0) :: opReserved w [(92, 36)]
   else if o = 0x40 then opReserved w [(53, 75)]
   else if o = 0x41 then (36, bits w 36 16 = 0) :: opReserved w [(52, 76)]
   else [(0, true)])

/-- The first fault of a program as TILE_PROGRAM_LOAD checks it (R125): the bit offset from the first op word. `loops` holds the
last word of each enclosing body, innermost first; `i` is the index of the word at hand. -/
def programBad (footprint : Nat) : Nat → List Nat → List Nat → Option Nat
  | _, _, [] => none
  | i, loops, w :: rest =>
    let open' := loops.filter (i ≤ ·)
    let loop : List Check :=
      if opOpc w = 0x03 then
        [(32, match open' with | l :: _ => decide (i + bits w 32 16 > l) | [] => false)]
      else if opOpc w = 0x00 then [(0, !open'.isEmpty)] else []
    match firstBad (opChecks footprint w ++ loop) with
    | some off => some (128 * i + off)
    | none =>
      programBad footprint (i + 1) (if opOpc w = 0x03 then (i + bits w 32 16) :: open' else open') rest

/-! ## The sequencer -/

/-- Where the program counter goes past a word: the innermost body that ends here begins again while iterations are left (R116). -/
def loopBack (pc : Nat) : List (Nat × Nat × Nat) → Nat × List (Nat × Nat × Nat)
  | [] => (pc, [])
  | (first, last, n) :: rest =>
    if pc ≤ last then (pc, (first, last, n) :: rest)
    else if n > 1 then (first, (first, last, n - 1) :: rest)
    else loopBack pc rest

/-- The sequencer past the word at hand. -/
def TileRun.advance (t : TileRun) : TileRun :=
  let x := loopBack (t.pc + 1) t.loops
  { t with pc := x.1, loops := x.2 }

/-- The group of a buffer at decode, and its replacement. -/
def TileRun.group (t : TileRun) (acc1 : Bool) : Group := if acc1 then t.group1 else t.group0
def TileRun.setGroup (t : TileRun) (acc1 : Bool) (g : Group) : TileRun :=
  if acc1 then { t with group1 := g } else { t with group0 := g }

/-- The accumulator of a buffer, and its replacement. -/
def TileRun.acc (t : TileRun) (acc1 : Bool) : List Nat := if acc1 then t.acc1 else t.acc0
def TileRun.setAcc (t : TileRun) (acc1 : Bool) (a : List Nat) : TileRun :=
  if acc1 then { t with acc1 := a } else { t with acc0 := a }

/-- Lines of an operand block of `n` vectors of 32 elements (R109). -/
def blockLines (fmt n : Nat) : Nat := ceilDiv (n * 32 * fmtBytes fmt) 64

/-- 32-byte units from one drained vector to the next (R122). -/
def drainStride (w : Nat) : Nat := if bits w 100 15 = 0 then fmtBytes (bits w 19 3) else bits w 100 15

/-- The TST line of line `i` of an LD or ST (R124). -/
def copyLine (w base i : Nat) : Nat :=
  let g := if bits w 80 12 = 0 then bits w 52 12 else bits w 80 12
  base + i / g * bits w 64 16 + i % g

/-- Is a Gram target, or a later window of it, past line 65,535 (R213)? -/
def GramTarget.past (t : GramTarget) (windows : Nat) : Bool := t.line + (t.window + windows - 1) * t.stride + 33 > 65536

/-- Is an op invalid when it is decoded (R115, R118, R121, R129, R141, R213), beyond its own fields? -/
def TileRun.decodeBad (t : TileRun) (spill : Bool) (w : Nat) : Bool :=
  let o := opOpc w
  let eff (lo width sel : Nat) : Nat := effLine t.areg w lo width sel
  if o = 0x00 then !t.loops.isEmpty
  else if o = 0x02 then !spill && (t.group0.isOpen || t.group1.isOpen)
  else if o = 0x03 then
    t.loops.length ≥ 4 || (match t.loops with | l :: _ => decide (t.pc + bits w 32 16 > l.2.1) | [] => false)
  else if o = 0x10 then
    let g := t.group (bitSet w 73)
    let int := bits w 64 3 == 5
    let n := bits w 48 11
    eff 16 12 28 + blockLines (bits w 64 3) n > 4096 || eff 32 12 44 + blockLines (bits w 67 3) n > 4096
      || (!bitSet w 74 && !g.opened) || ((g.isOpen || !bitSet w 74) && g.int != int)
      || (bitSet w 75 && (match t.target with | some x => x.past (n / 32) | none => true))
  else if o = 0x11 then
    let last := 64 * eff 32 16 28 + 31 * 32 * drainStride w + 32 * fmtBytes (bits w 19 3)
    last > (if bitSet w 17 then 65536 * 64 else 4096 * 64) || (bitSet w 24 && bits w 48 12 + 2 > 4096)
  else if 0x20 ≤ o ∧ o ≤ 0x2F then (firstBad (vxPlaceChecks t.areg w fun _ => true)).isSome
  else if o = 0x30 ∨ o = 0x31 then
    eff 16 12 28 + bits w 52 12 > 4096
      || (List.range (bits w 52 12)).any fun i => copyLine w (eff 32 16 48) i ≥ 65536
  else if o = 0x40 then eff 16 16 32 + 33 > 65536
  else if o = 0x41 then eff 16 16 32 + bits w 36 16 > 65536
  else false

/-- What decode of a valid queued op fixes: groups (R121) and Gram targets (R213) follow program order. DESIGN CHOICE (log entry 36): the
mode of a group, which its drain takes (R123), is that of the MMA that opened it, also where later MMAs of the group differ in
STRICT. -/
def TileRun.note (t : TileRun) (forced : Bool) (w : Nat) : TileRun :=
  let o := opOpc w
  let a := bitSet w 73
  if o = 0x10 then
    let g := t.group a
    let fresh := bitSet w 74 && !g.isOpen
    let g' : Group :=
      { opened := true, isOpen := true
        int := if fresh then bits w 64 3 == 5 else g.int
        strict := if fresh then bitSet w 72 || forced else g.strict }
    let t1 := t.setGroup a g'
    if bitSet w 75 then
      { t1 with target := t1.target.map fun x => { x with window := x.window + bits w 48 11 / 32 } }
    else t1
  else if o = 0x11 then t.setGroup (bitSet w 16) { t.group (bitSet w 16) with isOpen := false }
  else if o = 0x40 then
    { t with target := some { line := effLine t.areg w 16 16 32, stride := bits w 36 16, accum := bitSet w 52, window := 0 } }
  else t

/-- Decode a valid op into its queue (R114). -/
def TileRun.enqueue (t : TileRun) (forced : Bool) (q w : Nat) : TileRun :=
  let t1 := t.note forced w
  let op : QueuedOp :=
    { seq := t.seq, queue := q, word := w, areg := t.areg
      group := if opOpc w = 0x11 then t.group (bitSet w 16) else t1.group (bitSet w 73)
      target := t.target }
  { t1 with queued := t1.queued ++ [op], seq := t1.seq + 1 }.advance

/-- What a tile's sequencer and engines act through. -/
structure TileIn where
  tile : Nat
  env : Env
  mem : Mem
  footprint : Nat
  spill : Bool
  /-- MXE_CFG.FORCE_STRICT and VXE_CFG.FORCE_STRICT (R130, R148). -/
  mxeStrict : Bool
  vxeStrict : Bool
  /-- The scale slots of the context as they stand. -/
  slots : List (Nat × ScaleSlot)
  /-- The counter of free values. -/
  free : Nat

/-- The key of a TST line of the tile, through its diagonal window (R197). -/
def TileIn.tst (x : TileIn) (line : Nat) : Nat := tstKey x.env x.tile (line * 64)

/-- The key of a TRF byte of the tile. -/
def TileIn.trf (x : TileIn) (off : Nat) : Nat := trfOfTile x.tile off

/-- The op word at a program counter, and whether its line is intact. -/
def TileIn.fetch (x : TileIn) (pc : Nat) : Nat × Bool :=
  let a := tstKey x.env x.tile (pc * 16)
  (x.mem.word a 16, x.mem.intact a)

/-- The tile's invalid-op and engine-fault results (R128). -/
def invalidOp (tile : Nat) : Result := engineResult (tileHalf tile) (dieSourceNum (tile / 48 % 4) (tile % 48))

/-- Why a tile stops: an invalid op, or a line of its TST that does not match its CRC. -/
inductive TileStop where
  | invalid
  | damaged (dpa : Nat)
deriving DecidableEq, Repr

/-- The word at hand, unless decoding it stops the tile (R128). DESIGN CHOICE (log entry 99): a program counter past the last TST word,
262,143, names no word, and counts as an invalid op. -/
def TileIn.decode (x : TileIn) (t : TileRun) : Except TileStop Nat :=
  if t.pc ≥ 262144 then .error .invalid else
  let f := x.fetch t.pc
  if !f.2 then .error (.damaged (tstKey x.env x.tile (t.pc * 16)))
  else if (firstBad (opChecks x.footprint f.1)).isSome || t.decodeBad x.spill f.1 then .error .invalid
  else .ok f.1

/-- Decode in program order until an op of queue `want` is queued, or an op without a queue or a full queue stops decode (R114). -/
def TileIn.ahead (x : TileIn) (want : Nat) : Nat → TileRun → Except TileStop TileRun
  | 0, t => .ok t
  | fuel + 1, t =>
    if t.queued.any (·.queue = want) then .ok t else
    match x.decode t with
    | .error e => .error e
    | .ok w =>
      match opQueue w with
      | none => .ok t
      | some q => if (t.queued.filter (·.queue = q)).length ≥ 16 then .ok t else x.ahead want fuel (t.enqueue x.mxeStrict q w)

/-- Are the DEP bits of a queued op satisfied (R113)? -/
def TileRun.depsMet (t : TileRun) (op : QueuedOp) : Bool :=
  [0, 1, 2].all fun q => !bitSet op.word (8 + q) || t.queued.all fun o => o.queue ≠ q || op.seq ≤ o.seq

/-- The running sequencer of a tile, with its command and the half that holds it. -/
def State.tileOf (s : State) (g : Nat) : Option (Half × Cmd × TileRun) :=
  match s.allCmds.find? fun c => (find g c.2.tiles).isSome with
  | some (h, c) =>
    match find g c.tiles with
    | some t => if c.done.isNone && c.phase = .running && !s.waking c && !t.ended then some (h, c, t) else none
    | none => none
  | none => none

/-- A register of a tile as it stood when its command was admitted. -/
def Cmd.tileReg (c : Cmd) (h : Half) (g block index : Nat) : Nat :=
  let k := regKey block (g / 48 % 4) (g % 48) index
  (find k (if tileHalf g = h then c.cfg else c.cfgOther)).getD (regReset (tileHalf g) k)

/-- What the sequencer of a tile acts through. -/
def State.tileIn (s : State) (h : Half) (c : Cmd) (g : Nat) : TileIn :=
  let ctx := (s.half (tileHalf g)).ctx (c.ctx.getD 0)
  { tile := g, env := { s.envCmd h c with part := tileHalf g }, mem := s.view, footprint := ctx.footprint
    spill := pl c.packet 414 1 = 1
    mxeStrict := bitSet (c.tileReg h g bMXE 0) 8, vxeStrict := bitSet (c.tileReg h g bVXE 0) 0
    slots := ctx.scales, free := s.drawnFree }

/-- Replace the sequencer of a tile. -/
def State.setTile (s : State) (h : Half) (c : Cmd) (g : Nat) (t : TileRun) : State :=
  s.setCmd h (Cmd.progress { c with tiles := put g t c.tiles } h (tileHalf g))

/-- A tile stops with an invalid op, or with a damaged line: every tile of its TILE_RUN stops, and the command ends (R128). -/
def State.tileStop (s : State) (h : Half) (c : Cmd) (g : Nat) (e : TileStop) : State :=
  let c' := { c with tiles := [] }
  match e with
  | .invalid => (s.finish h c' (invalidOp g)).occur (tileHalf g) (dieSourceNum (g / 48 % 4) (g % 48)) c.ctx
  | .damaged a => (s.finish h c' (sealResult a)).sealFault a c.ctx

/-- What an op of an engine did: memory, its sequencer, reports to scale slots, counts of VXE_NONFINITE and GRU_WINDOWS, and an
invalidity that only its execution shows (R168). -/
structure TileEff where
  run : Run
  t : TileRun
  reports : List (Nat × Nat × Nat) := []
  nonfinite : Nat := 0
  windows : Nat := 0
  /-- Free values drawn. -/
  drawn : Nat := 0
  bad : Bool := false

/-- Merge reports of one command to one slot (R170). -/
def addReport (rs : List (Nat × Nat × Nat)) (slot amax overs : Nat) : List (Nat × Nat × Nat) :=
  match rs with
  | [] => [(slot, amax, overs)]
  | r :: rest => if r.1 = slot then (slot, max r.2.1 amax, r.2.2 + overs) :: rest else r :: addReport rest slot amax overs

/-- Count in a tile's register. -/
def State.countTile (s : State) (g block index n : Nat) : State :=
  s.modHalf (tileHalf g) fun x => x.count32 (tileHalf g) (regKey block (g / 48 % 4) (g % 48) index) 0 n

/-- Cycles that an op lost to TRF bank conflicts (R111): those of the VXE count in VXE_STALLS too (R147). -/
def State.countRetries (s : State) (g n : Nat) (vxe : Bool) : State :=
  let t := s.countTile g bMXE 2 n
  if vxe then t.countTile g bVXE 2 n else t

/-- The buffers after an op has executed: an MMA leaves its buffer open, an MDRAIN closes it (R121). -/
def TileRun.executed (t : TileRun) (op : QueuedOp) : TileRun :=
  let mark (acc1 v : Bool) : TileRun := if acc1 then { t with open1 := v } else { t with open0 := v }
  if opOpc op.word = 0x10 then mark (bitSet op.word 73) true
  else if opOpc op.word = 0x11 then mark (bitSet op.word 16) false
  else t

/-- The effect of an executed op on the module. How many cycles its accesses retried is timing, a free value (R111, R147). -/
def State.applyTile (s : State) (h : Half) (c : Cmd) (g : Nat) (op : QueuedOp) (e : TileEff) : State :=
  let r := e.run.settle
  if e.bad then s.tileStop h c g .invalid else
  let stalls := (Config.freeWord (s.drawnFree + e.drawn)).toNat
  let s1 := ({ s.commit r.mem with drawnFree := s.drawnFree + e.drawn + 1 }).countRun (attrKey c.packet) r
  let s2 := ((s1.countTile g bVXE 3 e.nonfinite).countTile g bGRU 1 e.windows).countRetries g stalls (op.queue = 1)
  let c1 := { c with reports := e.reports.foldl (fun rs x => addReport rs x.1 x.2.1 x.2.2) c.reports }
  match r.seals with
  | a :: _ => s2.tileStop h c1 g (.damaged a)
  | [] => s2.setTile h c1 g { (e.t.executed op) with queued := e.t.queued.filter (·.seq ≠ op.seq), conflicts := e.t.conflicts + stalls }

/-- A row of a queued op on a tile: the sequencer decodes as far as the op's queue needs, and the op at the head of that queue,
if it is of this kind and its DEP bits are satisfied, executes and completes (R114). Otherwise nothing happens. -/
def tileOp (s : State) (g opc queue : Nat) (f : TileIn → QueuedOp → TileRun → TileEff) : State :=
  match s.tileOf g with
  | none => s
  | some (h, c, t) =>
    let x := s.tileIn h c g
    match x.ahead queue 64 t with
    | .error e => s.tileStop h c g e
    | .ok t1 =>
      match t1.queued.find? (·.queue = queue) with
      | none => s
      | some op => if opOpc op.word = opc && t1.depsMet op then s.applyTile h c g op (f x op t1) else s

/-- A row of an op that takes effect at decode: the op at the decode point, if it is of this kind. -/
def controlOp (s : State) (g opc : Nat) (f : State → Half → Cmd → TileRun → Nat → State) : State :=
  match s.tileOf g with
  | none => s
  | some (h, c, t) =>
    let x := s.tileIn h c g
    match x.ahead 3 64 t with
    | .error e => s.tileStop h c g e
    | .ok t1 =>
      match x.decode t1 with
      | .error e => s.tileStop h c g e
      | .ok w => if opOpc w = opc then f s h c t1 w else s

/-! ## Control ops (R113, R116) -/

/-- The end of a TILE_RUN, once every selected tile has ended (R127). -/
def State.endTiles (s : State) (h : Half) (c : Cmd) : State :=
  if c.tiles.all fun t => t.2.ended then
    s.finish h { c with tiles := [] }
      (okResult c.tiles.length (greatest (c.tiles.map (·.2.cycles))) (total (c.tiles.map (·.2.conflicts))))
  else s.setCmd h c

/-- END: the program of the tile ends once all its queues have drained. Its run length is timing, a free value (R127). -/
def execTileEnd (g : Nat) (s : State) : Host.Outcome State Fault Refusal :=
  .next (controlOp s g 0x00 fun s h c t _ =>
    if t.queued.isEmpty then
      { s with drawnFree := s.drawnFree + 1 }.endTiles h
        (Cmd.progress { c with tiles := put g { t with ended := true, cycles := (Config.freeWord s.drawnFree).toNat } c.tiles } h (tileHalf g))
    else s.setTile h c g t)

/-- NOP of a tile program. -/
def execTileNop (g : Nat) (s : State) : Host.Outcome State Fault Refusal :=
  .next (controlOp s g 0x01 fun s h c t _ => s.setTile h c g t.advance)

/-- GATE_WAIT: decode goes on once the wait holds (R90, R116). -/
def execGateWait (g : Nat) (s : State) : Host.Outcome State Fault Refusal :=
  .next (controlOp s g 0x02 fun s h c t w =>
    if waitHolds (s.gate (c.ctx.getD 0) (bits w 16 12)) (bits w 32 32) then s.setTile h c g t.advance else s)

/-- LOOP: the words that follow form the body (R116). -/
def execLoop (g : Nat) (s : State) : Host.Outcome State Fault Refusal :=
  .next (controlOp s g 0x03 fun s h c t w =>
    s.setTile h c g { t with pc := t.pc + 1, loops := (t.pc + 1, t.pc + bits w 32 16, bits w 16 16) :: t.loops })

/-- AADD: a signed addend to an address register, modulo 2³² (R115, R116). -/
def execAadd (g : Nat) (s : State) : Host.Outcome State Fault Refusal :=
  .next (controlOp s g 0x04 fun s h c t w =>
    let n := bits w 16 3
    s.setTile h c g { t with areg := t.areg.set n ((t.areg.getD n 0 + bits w 32 32) % 2 ^ 32) }.advance)

/-- ASET: a new value of an address register (R116). -/
def execAset (g : Nat) (s : State) : Host.Outcome State Fault Refusal :=
  .next (controlOp s g 0x05 fun s h c t w =>
    s.setTile h c g { t with areg := t.areg.set (bits w 16 3) (bits w 32 32) }.advance)

/-! ## MMA (R117 to R121) -/

/-- Element codes of `n` consecutive elements of a format from a key. -/
def Run.codesAt (r : Run) (key fmt n : Nat) : List Nat × Run :=
  let eb := fmtBytes fmt
  let x := r.loadAt key (n * eb)
  ((chunks eb x.1).map numOf, x.2)

/-- Column `i` of a list of vectors. -/
def columnOf (vs : List (List Nat)) (i : Nat) : List Nat := vs.map fun v => v.getD i 0

/-- Byte offset of element (i, j) of a packed Gram block (R211). -/
def triOffset (b i j : Nat) : Nat := 4 * (i * (2 * b - i + 1) / 2 + j - i)

/-- Bytes of a packed Gram block (R211). -/
def triBytes (b : Nat) : Nat := 2 * b * (b + 1)

/-- Elements (i, j) of a packed block in storage order. -/
def triPairs (b : Nat) : List (Nat × Nat) :=
  (List.range b).flatMap fun i => (List.range (b - i)).map fun d => (i, i + d)

/-- bf() of R210: a captured operand code as BF16. -/
def bfCode (f : Fmt) (sgn : Bool) (md : FMode) (c : Nat) : Nat := (roundTo .bf16 md (input f md sgn c)).code

/-- One Gram element of a window of b vectors (R210): the chain over the 32 elements, from a starting value. -/
def gramElem (md : FMode) (vs : List (List Nat)) (i j start : Nat) : Nat :=
  macChain .bf16 .bf16 false false md ((vs.getD i []).zip (vs.getD j [])) start

/-- One window of a capturing MMA into its target block (R210, R213). -/
def gramWindow (x : TileIn) (md : FMode) (accum : Bool) (line : Nat) (vs : List (List Nat)) (r : Run) : Run :=
  let cell (off : Nat) : Nat := x.tst (line + off / 64) + off % 64
  (triPairs 32).foldl (fun r p =>
    let off := triOffset 32 p.1 p.2
    let old := if accum then r.loadAt (cell off) 4 else ([], r)
    old.2.storeAt (cell off) (bytesOf 4 (gramElem md vs p.1 p.2 (numOf old.1)))) r

/-- MMA: KSTEPS multiply-add steps into a buffer, with Gram capture if asked for (R117, R120, R121, R213). -/
def runMma (x : TileIn) (op : QueuedOp) (t : TileRun) : TileEff :=
  let w := op.word
  let n := bits w 48 11
  let fa := (Fmt.ofCode (bits w 64 3)).getD .fp32
  let fb := (Fmt.ofCode (bits w 67 3)).getD .fp32
  let sa := bitSet w 70
  let sb := bitSet w 71
  let md := FMode.ofStrict (bitSet w 72 || x.mxeStrict)
  let a := ({ mem := x.mem } : Run).codesAt (x.trf (64 * effLine op.areg w 16 12 28)) (bits w 64 3) (32 * n)
  let b := a.2.codesAt (x.trf (64 * effLine op.areg w 32 12 44)) (bits w 67 3) (32 * n)
  let va := chunks 32 a.1
  let vb := chunks 32 b.1
  let old := t.acc (bitSet w 73)
  let cells := (List.range 32).flatMap fun m => (List.range 32).map fun j =>
    macChain fa fb sa sb md ((columnOf va m).zip (columnOf vb j)) (if bitSet w 74 then 0 else old.getD (32 * m + j) 0)
  let t1 := t.setAcc (bitSet w 73) cells
  match (if bitSet w 75 then op.target else none) with
  | none => { run := b.2, t := t1 }
  | some g =>
    let first := bits w 76 2 == 0
    let vs := (if first then va else vb).map fun v => v.map (bfCode (if first then fa else fb) (if first then sa else sb) md)
    let wins := chunks 32 vs
    let r := (wins.zip (List.range wins.length)).foldl
      (fun r p => gramWindow x md g.accum (g.line + (g.window + p.2) * g.stride) p.1 r) b.2
    { run := r, t := t1, windows := wins.length }

def execMma (g : Nat) (s : State) : Host.Outcome State Fault Refusal := .next (tileOp s g 0x10 0 runMma)

/-! ## MDRAIN (R121 to R123) -/

/-- One element of a drain: element `e` of vector `v`. -/
def drainElem (x : TileIn) (op : QueuedOp) (acc bias : List Nat) (scale : Nat) (slot : Option Int) (v e : Nat)
    (r : Run) (rep : Nat × Nat) : Run × (Nat × Nat) :=
  let w := op.word
  let f := (Fmt.ofCode (bits w 19 3)).getD .fp32
  let md := FMode.ofStrict op.group.strict
  let m := if bitSet w 18 then e else v
  let n := if bitSet w 18 then v else e
  let off := 64 * effLine op.areg w 32 16 28 + 32 * drainStride w * v + f.bytes * e
  let key := if bitSet w 17 then x.tst (off / 64) + off % 64 else x.trf off
  let old := if bitSet w 22 then r.loadAt key f.bytes else ([], r)
  let value := storeValue md op.group.int scale (acc.getD (32 * m + n) 0)
    (if bitSet w 22 then some (widen f md (numOf old.1)) else none)
    (if bitSet w 24 then some (bias.getD n 0) else none) (bitSet w 23)
  let c := convert f md slot value
  let q := reportOf value c
  (old.2.storeAt key (bytesOf f.bytes c.code), (max rep.1 q.1, rep.2 + q.2))

/-- MDRAIN: the buffer leaves through the store path; its contents stay in place (R121 to R123). A slot whose FMT_REF differs from
the destination's format makes the op invalid (R168). -/
def runMdrain (x : TileIn) (op : QueuedOp) (t : TileRun) : TileEff :=
  let w := op.word
  let md := FMode.ofStrict op.group.strict
  let slotOf (n : Nat) : ScaleSlot := (find n x.slots).getD {}
  let r0 : Run := { mem := x.mem }
  let out := slotOf (bits w 88 12)
  if bitSet w 26 && out.fmtRef ≠ bits w 19 3 then { run := r0, t := t, bad := true } else
  let scale := if bitSet w 25 then mul32 md (pow2Code (slotOf (bits w 64 12)).exp) (pow2Code (slotOf (bits w 76 12)).exp) else 0x3F800000
  let b := if bitSet w 24 then r0.codesAt (x.trf (64 * bits w 48 12)) 0 32 else ([], r0)
  let acc := t.acc (bitSet w 16)
  let slot := if bitSet w 26 then some out.exp else none
  let z := (List.range 1024).foldl (fun y i => drainElem x op acc b.1 scale slot (i / 32) (i % 32) y.1 y.2) (b.2, (0, 0))
  { run := z.1, t := t, reports := if bitSet w 26 then [(bits w 88 12, z.2.1, z.2.2)] else [] }

def execMdrain (g : Nat) (s : State) : Host.Outcome State Fault Refusal := .next (tileOp s g 0x11 0 runMdrain)

/-! ## LD and ST (R124) -/

/-- Copy lines in ascending order, from key to key. -/
def copyLines : List (Nat × Nat) → Run → Run
  | [], r => r
  | (src, dst) :: rest, r =>
    let x := r.loadAt src 64
    copyLines rest (x.2.storeAt dst x.1)

/-- The TRF key and the TST key of each line of an LD or ST. -/
def ldLines (x : TileIn) (op : QueuedOp) : List (Nat × Nat) :=
  let w := op.word
  (List.range (bits w 52 12)).map fun i =>
    (x.trf (64 * (effLine op.areg w 16 12 28 + i)), x.tst (copyLine w (effLine op.areg w 32 16 48) i))

/-- LD: lines of the TST to the TRF. -/
def runLd (x : TileIn) (op : QueuedOp) (t : TileRun) : TileEff :=
  { run := copyLines ((ldLines x op).map fun p => (p.2, p.1)) { mem := x.mem }, t := t }

/-- ST: lines of the TRF to the TST. -/
def runSt (x : TileIn) (op : QueuedOp) (t : TileRun) : TileEff :=
  { run := copyLines (ldLines x op) { mem := x.mem }, t := t }

def execLd (g : Nat) (s : State) : Host.Outcome State Fault Refusal := .next (tileOp s g 0x30 2 runLd)

def execSt (g : Nat) (s : State) : Host.Outcome State Fault Refusal := .next (tileOp s g 0x31 2 runSt)

/-! ## GTGT and GZERO (R212, R213) -/

/-- GTGT: the target latched at decode is in force for the capturing MMAs that follow it. -/
def execGtgt (g : Nat) (s : State) : Host.Outcome State Fault Refusal :=
  .next (tileOp s g 0x40 0 fun x _ t => { run := { mem := x.mem }, t := t })

/-- GZERO: lines of the TST set to +0. -/
def runGzero (x : TileIn) (op : QueuedOp) (t : TileRun) : TileEff :=
  let w := op.word
  let first := effLine op.areg w 16 16 32
  { run := (List.range (bits w 36 16)).foldl (fun r i => r.storeAt (x.tst (first + i)) (List.replicate 64 0)) { mem := x.mem }
    t := t }

def execGzero (g : Nat) (s : State) : Host.Outcome State Fault Refusal := .next (tileOp s g 0x41 0 runGzero)

/-! ## GROUP_OVER_LIMIT (R129) -/

/-- A group exceeds MXE_CFG.GROUP_LIMIT on a tile whose program may not spill: it is counted, and raised at LOG severity. -/
def execGroupOverLimit (g : Nat) (s : State) : Host.Outcome State Fault Refusal :=
  .next (match s.tileOf g with
    | some (h, c, t) =>
      if (t.open0 || t.open1) && pl c.packet 414 1 = 0 && bits (c.tileReg h g bMXE 0) 0 8 ≠ 0 then
        (s.countTile g bMXE 3 1).occur (tileHalf g) (dieSourceNum (g / 48 % 4) 0x72) c.ctx
      else s
    | none => s)

/-! ## TILE_PROGRAM_LOAD (R125) -/

def plMask (p : Nat) : Nat := pl p 0 384
def plWord (p : Nat) : Nat := pl p 384 18
def plLength (p : Nat) : Nat := pl p 416 16
def plInline (p : Nat) : Bool := pl p 432 1 = 1

/-- The op words of an INLINE load. -/
def plWords (p : Nat) : List Nat := (List.range (plLength p)).map fun i => pl p (512 + 128 * i) 128

/-- A refusal for an invalid op word names the bit offset from the first op word (R125). -/
def programRefusal (footprint : Nat) (ws : List Nat) : Option Result := (programBad footprint 0 [] ws).map refuseField

def specTileProgramLoad : OpSpec where
  ring := .c
  lo := 1
  hi := 64
  head e p :=
    checks [(512, (bitIndices (plMask p) 384).any fun g => tileOutside e.footprint g), (112, plInline p && plLength p > 4 * (pkUnits p - 1)),
      (512 + 416, plLength p = 0 || plLength p > 16384 || plWord p + plLength p > 262144),
      (512 + 448, !plInline p && pl p 448 48 % 16 ≠ 0)]
    ++ reservedPl p [(402, 14), (433, 15), (496, 16)]
  headMore e p := if plInline p then programRefusal e.footprint (plWords p) else none
  exam s _ p x0 :=
    let x := if plInline p then x0 else
      let y := x0.record (512 + 448) (pl p 448 48) (16 * plLength p)
      if y.2.refused then y.2 else
        match programRefusal (s.footprintOf (pkCtx p)) ((List.range (plLength p)).map fun i => bits y.1 (128 * i) 128) with
        | some r => y.2.bad [{ bit := 512 + 448, res := r }]
        | none => y.2
    { x with empty := plMask p = 0, workHome := 1 }
  mirrored s h p := (bitIndices (plMask p) 384).any (fun g => tileHalf g ≠ h) && s.together h
  domains _ _ p := tileDomains (bitIndices (plMask p) 384)

/-- TILE_PROGRAM_LOAD: the words reach the TST of every selected tile. -/
def execTileProgramLoad (id : Nat) (s : State) : Host.Outcome State Fault Refusal :=
  .next (onCommand s id 0x0201 (fun _ => true) fun s h c =>
    let p := c.packet
    let e := s.envCmd h c
    let words := if plInline p then plWords p else (List.range (plLength p)).map fun i => bits (c.recordNum 0) (128 * i) 128
    let tiles := bitIndices (plMask p) 384
    let put1 (g : Nat) (r : Run) : Run :=
      (words.zip (List.range words.length)).foldl
        (fun r x => r.storeAt (tstKey e g (16 * (plWord p + x.2))) (bytesOf 16 x.1)) r
    s.applyRun h c e (tiles.foldl (fun r g => put1 g r) { mem := s.view }) fun _ => okResult (plLength p) tiles.length 0)

/-! ## TILE_RUN (R126, R127) -/

/-- Units of work that fall to the tiles of a half, when `units` are divided over `count` tiles from `first` on in equal runs (R134,
R152). -/
def unitsIn (h : Half) (first count units : Nat) : Nat :=
  let per := ceilDiv units (max count 1)
  total ((List.range count).map fun t =>
    if tileHalf (first + t) = h then min units (per * (t + 1)) - min units (per * t) else 0)

/-- Work of a MATMUL or VECTOR, divided between the halves in proportion to the units their tiles compute (R65). -/
def Exm.workUnits (x : Exm) (home : Half) (first count units n : Nat) : Exm :=
  let a := n * unitsIn home first count units / max units 1
  { x with workHome := x.workHome + a, workOther := x.workOther + (n - a) }

/-- Staging lines and TRF of the named tiles are undefined after a command that used them (R134, R152, R228). -/
def State.unstage (s : State) (tiles : List Nat) (line lines : Nat) : State :=
  { s with
    mem := tiles.foldl (fun m g =>
      (m.veil (tstOfTile g (64 * line)) (tstOfTile g (64 * (line + lines))) s.drawnFree).veil
        (trfOfTile g 0) (trfOfTile g 262144) s.drawnFree) s.mem
    drawnFree := s.drawnFree + 1 }

/-- The range of a context's memory that lies in this module becomes undefined. -/
def State.veilRange (s : State) (e : Env) (cxa n : Nat) : State :=
  { s.commit ((pieces 2048 cxa n).foldl (fun m p =>
      match e.translate p.1 with | .here dpa true => m.veil dpa (dpa + p.2) s.drawnFree | _ => m) s.view) with
    drawnFree := s.drawnFree + 1 }

/-- The scratch slots of a SOLVE_BATCH hold no meaning once it has ended, and so after a teardown too (R250). -/
def State.endScratch (s : State) (h : Half) (c : Cmd) : State :=
  if pkOpcode c.packet = 0x0501 then s.veilRange (s.envCmd h c) (pl c.packet 128 48) (pl c.packet 192 32 * pl c.packet 224 32) else s

/-- Does any tile of a command have FORCE_STRICT set in a register of its block at its admission (R130, R148)? -/
def Cmd.forced (c : Cmd) (h : Half) (block bit : Nat) : Bool :=
  (tilesOf c.packet).any fun g => bitSet (c.tileReg h g block 0) bit

/-- Work of a command divided between the halves in proportion to their tiles (R65). -/
def Exm.workTiles (x : Exm) (home : Half) (tiles : List Nat) (n : Nat) : Exm :=
  let mine := (tiles.filter fun g => tileHalf g = home).length
  let a := n * mine / max tiles.length 1
  { x with workHome := x.workHome + a, workOther := x.workOther + (n - a) }

def specTileRun : OpSpec where
  ring := .c
  lo := 1
  hi := 4
  classes := List.range 16
  head e p :=
    checks [(512, (tilesOf p).any fun g => tileOutside e.footprint g), (512 + 402, pl p 414 1 = 1 && pl p 402 12 + 128 > 4096)]
    ++ reservedPl p [(415, 1), (464, 48), (896, 128 * (min (pkUnits p - 1) 1)), (1024, 512 * (pkUnits p - 2))]
  busy := tilesBusy
  domains _ _ p := tileDomains (tilesOf p)
  exam _ h p x :=
    { x with empty := plMask p = 0 }.workTiles h (tilesOf p) (if pkClass p = 0 then 1 else pl p 416 48)
  mirrored := tilesAcross

/-- A free buffer of 1,024 accumulator cells, whose contents are undefined at the start of a TILE_RUN (R121). -/
def freeAcc (n : Nat) : List Nat := (List.range 1024).map fun i => (Config.freeWord (n + i)).toNat

/-- The sequencer of the tile of a given rank as a TILE_RUN starts it (R126). -/
def startTile (p rank free : Nat) : TileRun :=
  { pc := plWord p
    areg := if pkUnits p < 2 then List.replicate 8 0 else
      (List.range 8).map fun n => unsigned ((pl p (512 + 32 * n) 32 : Nat) + signed (pl p (768 + 16 * n) 16) 16 * (rank : Nat)) 32
    acc0 := freeAcc free, acc1 := freeAcc (free + 1024) }

/-- What PC of MXE_STATUS reads once the program that starts now has left the tile: the rules do not say (R130). -/
def State.leavePc (s : State) (g free : Nat) : State :=
  s.modHalf (tileHalf g) fun x =>
    x.setField (tileHalf g) (regKey bMXE (g / 48 % 4) (g % 48) 1) 8 18 (Config.freeWord free).toNat

/-- TILE_RUN: every selected tile starts its program; the command waits for their ENDs. -/
def execTileRun (id : Nat) (s : State) : Host.Outcome State Fault Refusal :=
  .next (onCommand s id 0x0202 (fun _ => true) fun s h c =>
    let tiles := tilesOf c.packet
    let runs := (tiles.zip (List.range tiles.length)).map fun x => (x.1, startTile c.packet x.2 (s.drawnFree + 2048 * x.2))
    let s1 := (tiles.zip (List.range tiles.length)).foldl (fun (t : State) x => t.leavePc x.1 (s.drawnFree + 2048 * tiles.length + x.2)) s
    { s1 with drawnFree := s.drawnFree + 2049 * tiles.length }.setCmd h { c with tiles := runs, waiting := true })

/-! ## Suspension (R129) -/

/-- May the tiles of a command be suspended now: with SPILL_EN = 0 only where no buffer is open (R129)? -/
def Cmd.mayPause (c : Cmd) : Bool :=
  c.tiles.all fun t => pl c.packet 414 1 = 1 || !(t.2.open0 || t.2.open1)

/-- With SPILL_EN = 1 a suspended tile's buffers are written to its spill lines, ACC0 first (R129). -/
def Cmd.spill (c : Cmd) (m : Mem) : Mem :=
  if pl c.packet 414 1 = 0 then m else
  c.tiles.foldl (fun m t =>
    if t.2.ended then m
    else m.write (trfOfTile t.1 (64 * pl c.packet 402 12)) ((t.2.acc0 ++ t.2.acc1).flatMap (bytesOf 4))) m

end Sys2Proof.Machine
end

