-- ==== Sys2Proof/Machine/Vector.lean ====
section
/-! DEFINITION. The Vector Engine (R137 to R154): the VXE ops of tile programs and the VECTOR command. -/

namespace Sys2Proof.Machine

/-! ## One result (R140, R142) -/

/-- The lane format of a width (R137). -/
def laneFmt (w16 : Bool) : Fmt := if w16 then .bf16 else .fp32

/-- The condition of VSEL on a (R140): false for a NaN, but for the last. -/
def vselCond (mode : Nat) (a : FVal) : Bool :=
  match mode with
  | 0 => FVal.le FVal.zero a
  | 1 => FVal.lt FVal.zero a
  | 2 => a.isZero
  | _ => a.isNan

/-- The result of an element-wise op on lane codes (R140, R142), rounded once into the lane format. -/
def vxElem (o mode : Nat) (f : Fmt) (md : FMode) (a b c : Nat) : Nat :=
  let x := input f md false a
  let y := input f md false b
  let z := input f md false c
  let out (v : FVal) : Nat := (roundTo f md v).code
  match o with
  | 0x20 => out (match mode with | 0 => FVal.add x y | 1 => FVal.add x y.negate | _ => FVal.add y x.negate)
  | 0x21 => out (FVal.mul x y)
  | 0x22 =>
    out (match mode with
      | 0 => FVal.add (FVal.mul x y) z
      | 1 => FVal.add (FVal.mul x y) z.negate
      | _ => FVal.add z (FVal.mul x y).negate)
  | 0x23 => out (maximum x y)
  | 0x24 => out (minimum x y)
  | 0x25 => out (if vselCond mode x then y else z)
  | 0x26 => vexp2 f md a
  | 0x27 => vlog2 f md a
  | 0x28 => vrcp f md a
  | 0x29 => vrsqrt f md a
  | _ => out x

/-- Is a code of a format NaN or an infinity? -/
def nonFinite (f : Fmt) (c : Nat) : Bool := !(f.decode false c).isFinite

/-! ## VXE ops of tile programs (R138 to R145) -/

/-- The operands of one VXE op as bytes in the TRF: first byte, bytes from one position to the next (0 for a broadcast), bytes of a
vector. -/
structure Stream where
  base : Nat
  step : Nat
  size : Nat

/-- Source A, B or C of an op. -/
def vxSource (x : TileIn) (op : QueuedOp) (lo sel size : Nat) (broadcast : Bool) : Stream :=
  { base := x.trf (64 * effLine op.areg op.word lo 12 sel), step := if broadcast then 0 else size, size := size }

/-- Is a streamed source of position `p` inside what earlier positions of the same op write? The spec orders nothing there, so the
result is a free value. -/
def Stream.clash (s : Stream) (dst written p : Nat) : Bool := s.step ≠ 0 && overlaps (s.base + s.step * p) s.size dst written

/-- `n` free codes of a format. -/
def freeCodes (f : Fmt) (free n : Nat) : List Nat :=
  (List.range n).map fun i => (Config.freeWord (free + i)).toNat % 2 ^ (8 * f.bytes)

/-- Read the vector of a source at a position. -/
def Stream.read (s : Stream) (fmt p : Nat) (r : Run) : List Nat × Run :=
  r.codesAt (s.base + s.step * p) fmt (s.size / fmtBytes fmt)

/-- A broadcast source is read once, at the start of the op, into a latch (R144). -/
def Stream.latch (s : Stream) (fmt : Nat) (r : Run) : Option (List Nat) × Run :=
  if s.step = 0 then let x := s.read fmt 0 r; (some x.1, x.2) else (none, r)

/-- The vector of a source at a position: that of the latch, or the next of the stream. -/
def Stream.vector (s : Stream) (held : Option (List Nat)) (fmt p : Nat) (r : Run) : List Nat × Run :=
  match held with
  | some v => (v, r)
  | none => s.read fmt p r

/-- An element-wise VXE op: COUNT positions in order (R139, R140). -/
def runVx (x : TileIn) (op : QueuedOp) (t : TileRun) : TileEff :=
  let w := op.word
  let o := opOpc w
  let f := laneFmt (vxW16 w)
  let md := FMode.ofStrict (bitSet w 94 || x.vxeStrict)
  let n := 256 / f.bytes
  let a := vxSource x op 16 28 256 (bitSet w 97)
  let b := vxSource x op 32 44 256 (bits w 99 2 ≠ 0)
  let c := vxSource x op 48 60 256 (bitSet w 98)
  let d := x.trf (64 * effLine op.areg w 64 12 76)
  let la := a.latch f.code { mem := x.mem }
  let lb := if usesB o then b.latch f.code la.2 else (none, la.2)
  let lc := if usesC o then c.latch f.code lb.2 else (none, lb.2)
  let step (e : TileEff) (p : Nat) : TileEff :=
    let va := a.vector la.1 f.code p e.run
    let vb := if usesB o then b.vector lb.1 f.code p va.2 else ([], va.2)
    let vc := if usesC o then c.vector lc.1 f.code p vb.2 else ([], vb.2)
    let bs := if bits w 99 2 = 2 then List.replicate n (vb.1.getD (bits w 101 7) 0) else vb.1
    let clash := a.clash d (256 * p) p || (usesB o && b.clash d (256 * p) p) || (usesC o && c.clash d (256 * p) p)
    let out := if clash then freeCodes f (x.free + e.drawn) n else
      (List.range n).map fun i => vxElem o (vxMode w) f md (va.1.getD i 0) (bs.getD i 0) (vc.1.getD i 0)
    { e with
      run := vc.2.storeAt (d + 256 * p) (out.flatMap (bytesOf f.bytes))
      nonfinite := e.nonfinite + (out.filter (nonFinite f)).length
      drawn := e.drawn + (if clash then n else 0) }
  (List.range (vxCount w)).foldl step { run := lc.2, t := t }

/-- VCVT: 64 elements of a position converted from FMT_SRC to FMT_DST, through OUT_SLOT if asked for (R140, R163, R168). -/
def runVcvt (x : TileIn) (op : QueuedOp) (t : TileRun) : TileEff :=
  let w := op.word
  let fs := (Fmt.ofCode (bits w 108 3)).getD .fp32
  let fd := (Fmt.ofCode (bits w 111 3)).getD .fp32
  let md := FMode.ofStrict (bitSet w 94 || x.vxeStrict)
  let slot := (find (bits w 115 12) x.slots).getD {}
  if bitSet w 114 && slot.fmtRef ≠ fd.code then { run := { mem := x.mem }, t := t, bad := true } else
  let a := vxSource x op 16 28 (64 * fs.bytes) (bitSet w 97)
  let d := x.trf (64 * effLine op.areg w 64 12 76)
  let dv := 64 * fd.bytes
  let la := a.latch fs.code { mem := x.mem }
  let step (e : TileEff) (p : Nat) : TileEff :=
    let va := a.vector la.1 fs.code p e.run
    let clash := a.clash d (dv * p) p
    let outs := va.1.map fun c => (widen fs .strict c, convert fd md (if bitSet w 114 then some slot.exp else none) (widen fs md c))
    let out := if clash then freeCodes fd (x.free + e.drawn) 64 else outs.map (·.2.code)
    { e with
      run := va.2.storeAt (d + dv * p) (out.flatMap (bytesOf fd.bytes))
      reports := if bitSet w 114 then
          outs.foldl (fun rs y => let q := reportOf y.1 y.2; addReport rs (bits w 115 12) q.1 q.2) e.reports
        else e.reports
      nonfinite := e.nonfinite + (out.filter (nonFinite fd)).length
      drawn := e.drawn + (if clash then 64 else 0) }
  (List.range (vxCount w)).foldl step { run := la.2, t := t }

/-- One step of a lane-wise reduction, on FP32 accumulators (R143); the first vector initialises them. -/
def lredStep (mode : Nat) (f : Fmt) (md : FMode) (acc : Option (List Nat)) (v : List Nat) : List Nat :=
  let wide := v.map (widen f md)
  match acc with
  | none => if mode = 1 then wide.map (fun a => mul32 md a a) else wide
  | some acc =>
    (acc.zip wide).map fun y =>
      match mode with
      | 0 => add32 md y.1 y.2
      | 1 => fma32 md y.2 y.2 y.1
      | 2 => round32 md (maximum (f32in md y.1) (f32in md y.2))
      | _ => round32 md (minimum (f32in md y.1) (f32in md y.2))

/-- VLRED: a lane-wise reduction over COUNT vectors, written in FP32 (R141, R143). -/
def runVlred (x : TileIn) (op : QueuedOp) (t : TileRun) : TileEff :=
  let w := op.word
  let f := laneFmt (vxW16 w)
  let md := FMode.ofStrict (bitSet w 94 || x.vxeStrict)
  let a := vxSource x op 16 28 256 (bitSet w 97)
  let d := x.trf (64 * effLine op.areg w 64 12 76)
  let la := a.latch f.code { mem := x.mem }
  let z := (List.range (vxCount w)).foldl (fun (y : Option (List Nat) × Run) p =>
    let v := a.vector la.1 f.code p y.2
    (some (lredStep (vxMode w) f md y.1 v.1), v.2)) (none, la.2)
  let out := z.1.getD []
  { run := z.2.storeAt d (out.flatMap (bytesOf 4)), t := t, nonfinite := (out.filter (nonFinite .fp32)).length }

/-- Neighbouring lanes combined, as one level of the reduction tree (R143). -/
def pairUp (g : Nat → Nat → Nat) : List Nat → List Nat
  | a :: b :: rest => g a b :: pairUp g rest
  | l => l

/-- A vector of 64 lanes reduced by the six levels of the tree (R143). -/
def laneTree (max' : Bool) (md : FMode) (v : List Nat) : Nat :=
  let g (a b : Nat) : Nat := if max' then round32 md (maximum (f32in md a) (f32in md b)) else add32 md a b
  (pairUp g (pairUp g (pairUp g (pairUp g (pairUp g (pairUp g v)))))).getD 0 0

/-- VXRED: each vector reduced across its lanes, packed or splat (R140, R141, R143). DESIGN CHOICE (log entry 100): a splat result that is
not finite counts once for each of the 64 lanes it is written to, a packed one once. -/
def runVxred (x : TileIn) (op : QueuedOp) (t : TileRun) : TileEff :=
  let w := op.word
  let n := vxCount w
  let md := FMode.ofStrict (bitSet w 94 || x.vxeStrict)
  let splat := vxMode w ≥ 2
  let a := vxSource x op 16 28 256 (bitSet w 97)
  let d := x.trf (64 * effLine op.areg w 64 12 76)
  let la := a.latch 0 { mem := x.mem }
  let step (e : TileEff) (p : Nat) : TileEff :=
    let v := a.vector la.1 0 p e.run
    let clash := a.clash d (if splat then 256 * p else 256 * ceilDiv p 64) p
    let y := if clash then (freeCodes .fp32 (x.free + e.drawn) 1).getD 0 0 else laneTree (vxMode w % 2 = 1) md v.1
    { e with
      run := if splat then v.2.storeAt (d + 256 * p) ((List.replicate 64 y).flatMap (bytesOf 4)) else v.2.storeAt (d + 4 * p) (bytesOf 4 y)
      nonfinite := e.nonfinite + (if nonFinite .fp32 y then (if splat then 64 else 1) else 0)
      drawn := e.drawn + (if clash then 1 else 0) }
  let e := (List.range n).foldl step { run := la.2, t := t }
  if splat then e else { e with run := e.run.storeAt (d + 4 * n) (List.replicate (4 * (64 * ceilDiv n 64 - n)) 0) }

def execVadd (g : Nat) (s : State) : Host.Outcome State Fault Refusal := .next (tileOp s g 0x20 1 runVx)
def execVmul (g : Nat) (s : State) : Host.Outcome State Fault Refusal := .next (tileOp s g 0x21 1 runVx)
def execVfma (g : Nat) (s : State) : Host.Outcome State Fault Refusal := .next (tileOp s g 0x22 1 runVx)
def execVmax (g : Nat) (s : State) : Host.Outcome State Fault Refusal := .next (tileOp s g 0x23 1 runVx)
def execVmin (g : Nat) (s : State) : Host.Outcome State Fault Refusal := .next (tileOp s g 0x24 1 runVx)
def execVsel (g : Nat) (s : State) : Host.Outcome State Fault Refusal := .next (tileOp s g 0x25 1 runVx)
def execVexp2 (g : Nat) (s : State) : Host.Outcome State Fault Refusal := .next (tileOp s g 0x26 1 runVx)
def execVlog2 (g : Nat) (s : State) : Host.Outcome State Fault Refusal := .next (tileOp s g 0x27 1 runVx)
def execVrcp (g : Nat) (s : State) : Host.Outcome State Fault Refusal := .next (tileOp s g 0x28 1 runVx)
def execVrsqrt (g : Nat) (s : State) : Host.Outcome State Fault Refusal := .next (tileOp s g 0x29 1 runVx)
def execVcvt (g : Nat) (s : State) : Host.Outcome State Fault Refusal := .next (tileOp s g 0x2A 1 runVcvt)
def execVlred (g : Nat) (s : State) : Host.Outcome State Fault Refusal := .next (tileOp s g 0x2B 1 runVlred)
def execVxred (g : Nat) (s : State) : Host.Outcome State Fault Refusal := .next (tileOp s g 0x2C 1 runVxred)
def execVmov (g : Nat) (s : State) : Host.Outcome State Fault Refusal := .next (tileOp s g 0x2D 1 runVx)

/-! ## VECTOR (R149 to R154) -/

/-- A field of payload unit u of a packet. -/
def vu (p u lo width : Nat) : Nat := pl p (512 * u + lo) width

def vuKind (p u : Nat) (operand : Nat) : Nat := vu p u (12 + 2 * operand) 2
def vuFmt (p u : Nat) (operand : Nat) : Nat := if operand = 3 then vu p u 288 3 else vu p u (18 + 3 * operand) 3
def vuDesc (p u : Nat) (operand : Nat) : Nat := vu p u (32 + 64 * operand) 48
def vuStage (p : Nat) : Nat := pl p 336 16

/-- Does a unit use a source (R140)? -/
def vuUses (p u operand : Nat) : Bool :=
  operand = 0 || (operand = 1 && usesB (vu p u 0 8)) || (operand = 2 && usesC (vu p u 0 8))

/-- Checks of one unit of a VECTOR on its own (R149, R151, R168). -/
def vectorUnitChecks (p u : Nat) : List Check :=
  let b := 512 * (u + 1)
  let o := vu p u 0 8
  let ds (k : Nat) : Bool := vuDesc p u k % 64 ≠ 0
  checks ([(b, !((0x20 ≤ o && o ≤ 0x2A) || o = 0x2D)), (b + 8, o = 0x2A && vu p u 8 1 = 1), (b + 10, vu p u 10 2 > modeMax o)]
    ++ ([0, 1, 2].map fun k =>
      (b + 12 + 2 * k, vuKind p u k = 3 || (vuUses p u k && vuKind p u k = 0) || (!vuUses p u k && vuKind p u k ≠ 0)
        || (u = 0 && vuKind p u k = 2)))
    ++ ([0, 1, 2].map fun k => (b + 18 + 3 * k, decide (vuFmt p u k ≥ 5)))
    ++ ([0, 1, 2].map fun k => (b + 32 + 64 * k, vuKind p u k = 1 && ds k))
    ++ [(b + 224, ds 3 || (u + 1 = pkUnits p && vuDesc p u 3 = 0)), (b + 288, decide (vuFmt p u 3 ≥ 5)),
        (b + 291, vu p u 291 1 = 1 && vuFmt p u 3 ≠ 3 && vuFmt p u 3 ≠ 4)])
    ++ reservedPl p ((([(27, 5), (80, 16), (144, 16), (208, 16), (272, 16), (304, 8), (330, 6), (352, 160)] : List (Nat × Nat)).map
      fun r => (512 * u + r.1, r.2)) ++ if u = 0 then [] else [(512 * u + 312, 18), (512 * u + 336, 16)])

/-- The tensors of a chain in the order in which their descriptors are read: unit and operand, 3 for the destination. -/
def vectorTensors (p : Nat) : List (Nat × Nat) :=
  (List.range (pkUnits p)).flatMap fun u =>
    ([0, 1, 2].filter fun k => vuKind p u k = 1).map (fun k => (u, k)) ++ (if vuDesc p u 3 ≠ 0 then [(u, 3)] else [])

/-- Read the descriptors of a chain (R150, R151), checking each, and its extents against the first. -/
def examVectorDescs (p footprint : Nat) : List (Nat × Nat) → Option Desc → Exm → List (Nat × Nat × Desc) × Exm
  | [], _, x => ([], x)
  | (u, k) :: rest, first, x =>
    let bit := 512 * (u + 1) + 32 + 64 * k
    let eb := fmtBytes (vuFmt p u k)
    let y := x.desc bit (vuDesc p u k) eb (k = 3) false footprint
    let d := y.1
    let differs := match first with
      | some f => (List.range 5).find? fun i => d.ext.getD i 1 ≠ f.ext.getD i 1
      | none => none
    let z1 := match differs with | some i => y.2.badWhen true bit (1 + 128 * i + 128) | none => y.2
    let z2 := if k = 3 then
        ((z1.badWhen (!d.reduce && !d.disjoint) bit 1).badWhen (d.reduce && vuFmt p u k > 2) bit (1 + 52)).badWhen
          (d.reduce && vu p u 291 1 = 1) bit (1 + 52)
      else z1
    let w := examVectorDescs p footprint rest (some (first.getD d)) z2
    ((u, k, d) :: w.1, w.2)

/-- VXE cycles for one vector of an op (R140). -/
def vxCycles (o : Nat) (strict : Bool) : Nat := (if 0x26 ≤ o ∧ o ≤ 0x29 then 4 else 1) * (if strict then 8 else 1)

def specVector : OpSpec where
  ring := .c
  lo := 1
  hi := 4
  classes := [0, 5, 14, 15]
  head e p :=
    tileChecks p (512 + 312) 384 (tileOutside e.footprint) ++ checks [(512 + 336, vuStage p + 2048 > 65536)] ++ (List.range (pkUnits p)).flatMap (vectorUnitChecks p)
  busy s h p := tilesBusy s h p || moversBusy s h p
  domains _ _ p := tileDomains (tilesOf p)
  exam s h p x0 :=
    let fp := s.footprintOf (pkCtx p)
    let y := examVectorDescs p fp (vectorTensors p) none x0
    let slots := (s.ctxAny h (pkCtx p)).scales
    let x1 := (List.range (pkUnits p)).foldl (fun x u =>
      x.badWhen (vu p u 291 1 = 1 && ((find (vu p u 292 12) slots).getD {}).fmtRef ≠ vuFmt p u 3) (512 * (u + 1) + 291)) y.2
    let count := match y.1 with | t :: _ => t.2.2.count | [] => 0
    let forced := (tilesOf p).any fun g =>
      bitSet ((s.half (tileHalf g)).cell (tileHalf g) (regKey bVXE (g / 48 % 4) (g % 48) 0)) 0
    let lanes := total ((List.range (pkUnits p)).map fun u =>
      let per := if vu p u 8 1 = 1 then 128 else 64
      ceilDiv count per * vxCycles (vu p u 0 8) (vu p u 9 1 = 1 || forced) * per)
    let bytes := fun (dst : Bool) => total ((y.1.filter fun t => (t.2.1 = 3) = dst).map fun t =>
      t.2.2.inBounds (!dst) * fmtBytes (vuFmt p t.1 t.2.1))
    let n := match pkClass p with | 5 => lanes | 14 => bytes false | 15 => bytes true | _ => 1
    { x1 with empty := count = 0 }.workUnits h (tileSpan p).1 (tileSpan p).2 (ceilDiv count 8192) n
  mirrored := tilesAcross

/-- Counts of a VECTOR or MATMUL: conversions that saturated, NaN writes, dropped writes (R136, R154), reports to slots, out-of-bounds
reads filled (R190), and by tile the NaN or infinite results of VXE ops (R148). -/
structure WriteTally where
  saturated : Nat := 0
  nans : Nat := 0
  drops : Nat := 0
  reports : List (Nat × Nat × Nat) := []
  fills : Nat := 0
  nonfinite : Table := []

/-- Write an FP32 value to an element of a destination (R150, R194): replaced through a conversion, or added under REDUCE. Of an element
that another module updates, no outcome is seen here (R347; see `WriteTally.far`). -/
def writeValue (e : Env) (d : Desc) (f : Fmt) (md : FMode) (slot : Option (Nat × Int)) (place : Elem) (raw v : Nat)
    (r : Run) (t : WriteTally) : Run × WriteTally :=
  match place with
  | .outside _ => (r, { t with drops := t.drops + 1 })
  | .inside a =>
    if d.reduce then
      let strict := decide (md = .strict)
      let y := r.reduceElem e d f.code strict a v
      let z := if y.2.stop.isSome then (0, y.2) else
        match e.translate a.toNat with
        | .here _ _ => let w := y.2.loadElem e d f.bytes a; (w.1, y.2)
        | _ => (0, y.2)
      (y.2, { t with saturated := t.saturated + y.1, nans := t.nans + (if (f.decode true z.1).isNan then 1 else 0) })
    else
      let c := convert f md (slot.map (·.2)) v
      let q := reportOf raw c
      (r.storeElem e d f.bytes a c.code,
        { t with
          saturated := t.saturated + q.2
          nans := t.nans + (if (f.decode true c.code).isNan then 1 else 0)
          reports := match slot with | some s => addReport t.reports s.1 q.1 q.2 | none => t.reports })

/-- What a VECTOR has done so far: its run, its counts, and what its zero-stride sources have latched (R150, R190). -/
structure VecRun where
  run : Run
  t : WriteTally := {}
  latches : Latches := []

/-- A source of a unit as a code of its lane format (R150). -/
def vectorSource (e : Env) (p : Nat) (descs : List (Nat × Nat × Desc)) (u k i : Nat) (f : Fmt) (md : FMode) (prev : Nat × Fmt)
    (x : VecRun) : Nat × VecRun :=
  if vuKind p u k = 2 then ((roundTo f md (input prev.2 md true prev.1)).code, x)
  else if vuKind p u k = 1 then
    match descs.find? fun t => t.1 = u && t.2.1 = k with
    | some t =>
      let g := (Fmt.ofCode (vuFmt p u k)).getD .fp32
      let y := x.run.readOnce e x.latches (4 * u + k) t.2.2 g.bytes (indexOf t.2.2.ext i)
      ((roundTo f md (input g md true y.1)).code,
        { run := y.2.2.1, latches := y.2.2.2, t := { x.t with fills := x.t.fills + y.2.1 } })
    | none => (0, x)
  else (0, x)

/-- The tile that computes an element of a VECTOR (R152). -/
def vectorTile (p count i : Nat) : Nat := (tileSpan p).1 + i / 8192 / max (ceilDiv (ceilDiv count 8192) (max (tileSpan p).2 1)) 1

/-- The result of a VCVT unit in its destination format (R168). -/
def vcvtResult (fd : Fmt) (md : FMode) (slot : Option (Nat × Int)) (wide : Nat) : Rounded := convert fd md (slot.map (·.2)) wide

/-- The counts of one result of a unit: NaN or infinite (R148), and for a VCVT through a slot its report (R168). -/
def WriteTally.result (t : WriteTally) (tile : Nat) (inf : Bool) (report : Option (Nat × Nat × Nat)) : WriteTally :=
  { t with
    nonfinite := if inf then t.nonfinite.bump tile 1 else t.nonfinite
    reports := match report with | some r => addReport t.reports r.1 r.2.1 r.2.2 | none => t.reports }

/-- One element through the units of a chain (R150). `prev` is the previous unit's result with its lane format. DESIGN CHOICE (log entry
100): each unit's result counts once in VXE_NONFINITE, that of a VCVT as it is in the destination format. -/
def vectorElem (e : Env) (p : Nat) (strict : Bool) (scales : List (Nat × Int)) (descs : List (Nat × Nat × Desc)) (tile i : Nat) :
    Nat → Nat → Nat × Fmt → VecRun → VecRun
  | _, 0, _, x => x
  | u, left + 1, prev, x =>
    let f := laneFmt (vu p u 8 1 = 1)
    let md := FMode.ofStrict (strict || vu p u 9 1 = 1)
    let a := vectorSource e p descs u 0 i f md prev x
    let b := vectorSource e p descs u 1 i f md prev a.2
    let c := vectorSource e p descs u 2 i f md prev b.2
    let o := vu p u 0 8
    let v := vxElem o (vu p u 10 2) f md a.1 b.1 c.1
    let wide := widen f md v
    let raw := widen f .strict v
    let fd := (Fmt.ofCode (vuFmt p u 3)).getD .fp32
    let slot := if vu p u 291 1 = 1 then some (vu p u 292 12, (find (vu p u 292 12) scales).getD 0) else none
    let cvt := vcvtResult fd md slot wide
    let report := match (if o = 0x2A then slot else none) with
      | some z => let q := reportOf raw cvt; some (z.1, q.1, q.2)
      | none => none
    let t := c.2.t.result tile (if o = 0x2A then nonFinite fd cvt.code else nonFinite f v) report
    let y := match descs.find? fun d => d.1 = u && d.2.1 = 3 with
      | some d =>
        let w := writeValue e d.2.2 fd md slot (d.2.2.elem fd.bytes i) raw wide c.2.run t
        (w.1, if o = 0x2A then { w.2 with reports := t.reports } else w.2)
      | none => (c.2.run, t)
    let out := if o = 0x2A then
        round32 md ((input fd md true cvt.code).scale (match slot with | some z => z.2 | none => 0))
      else v
    vectorElem e p strict scales descs tile i (u + 1) left (out, f) { c.2 with run := y.1, t := y.2 }

/-- The elements of a chain in canonical order (R152, R195). -/
def vectorElems (e : Env) (p : Nat) (strict : Bool) (scales : List (Nat × Int)) (descs : List (Nat × Nat × Desc)) (count : Nat) :
    Nat → Nat → VecRun → VecRun
  | _, 0, x => x
  | i, left + 1, x =>
    vectorElems e p strict scales descs count (i + 1) left
      (vectorElem e p strict scales descs (vectorTile p count i) i 0 (pkUnits p) (0, .fp32) x)

/-- Is an element of a destination out of bounds (R191)? -/
def Desc.anyOutside (d : Desc) (eb : Nat) : Bool :=
  (List.range d.count).any fun i => match d.elem eb i with | .outside _ => true | .inside _ => false

/-- The tensors of a VECTOR with their descriptors. -/
def vectorDescs (c : Cmd) : List (Nat × Nat × Desc) :=
  ((vectorTensors c.packet).zip (List.range (vectorTensors c.packet).length)).map fun t => (t.1.1, t.1.2, c.desc t.2)

/-- The elements of a VECTOR. -/
def vectorRun (s : State) (h : Half) (c : Cmd) : Run × WriteTally :=
  let n := match vectorDescs c with | t :: _ => t.2.2.count | [] => 0
  let z := vectorElems (s.envCmd h c) c.packet (c.forced h bVXE 0) c.scales (vectorDescs c) n 0 n { run := { mem := s.view } }
  (z.run, z.t)

/-- Saturations and NaN updates of a run with those of updates that other modules perform, of which the spec has no report come back
(R136, R154, R347): free values, from draw `free` on, no greater than the number of the updates. -/
def WriteTally.far (t : WriteTally) (r : Run) (free : Nat) : WriteTally :=
  let some' (i : Nat) : Nat := (Config.freeWord (free + i)).toNat % (r.farUpdates + 1)
  { t with saturated := t.saturated + some' 0, nans := t.nans + some' 1 }

/-- The retries that the tiles of a MATMUL or VECTOR lost to bank conflicts: timing, free values (R111, R147). -/
def State.countStalls (s : State) (vxe : Bool) : List Nat → State
  | [] => s
  | g :: rest =>
    ({ s with drawnFree := s.drawnFree + 1 }.countRetries g (Config.freeWord s.drawnFree).toNat vxe).countStalls vxe rest

/-- What a MATMUL or VECTOR counts beside its detail words: retries, results that are not finite, and on the movers that stage it the
out-of-bounds elements (R147, R148, R198, R208); its staging lines and the TRF are undefined after it (R134, R152). -/
def State.afterTiles (s : State) (p : Nat) (vxe : Bool) (t : WriteTally) (line lines : Nat) : State :=
  let s1 := t.nonfinite.foldl (fun (u : State) (e : Nat × Nat) => u.countTile e.1 bVXE 3 e.2) (s.countStalls vxe (tilesOf p))
  (s1.countOob (moversOf p) t.fills t.drops).unstage (tilesOf p) line lines

/-- VECTOR: a chain of one to four ops, element by element (R150 to R154). -/
def runVector (s0 : State) (h : Half) (c : Cmd) : State :=
  let p := c.packet
  let e := s0.envCmd h c
  let refused := (vectorDescs c).find? fun t => t.2.1 = 3 && t.2.2.refuse && t.2.2.anyOutside (fmtBytes (vuFmt p t.1 3))
  match refused with
  | some t => s0.finish h c (boundsResult (512 * (t.1 + 1) + 224))
  | none =>
    let s : State := { s0 with drawnFree := s0.drawnFree + 2 }
    let z := vectorRun s h c
    let t := z.2.far z.1 s0.drawnFree
    let s1 := s.applyRun h { c with reports := if z.1.need.isEmpty then t.reports else c.reports } e z.1 fun _ =>
      okResult t.saturated t.nans t.drops
    if z.1.need.isEmpty then s1.afterTiles p true t (vuStage p) 2048 else s1

def execVector (id : Nat) (s : State) : Host.Outcome State Fault Refusal :=
  .next (onCommand s id 0x0204 (fun _ => true) runVector)

end Sys2Proof.Machine
end

