-- ==== Sys2Proof/Machine/Matrix.lean ====
section
/-! DEFINITION. MATMUL (R131 to R136) with Gram capture (R214 to R217), and the fold of captured partials. -/

namespace Sys2Proof.Machine

/-! ## Fields (R131, R214) -/

def mmM (p : Nat) : Nat := pl p 0 32
def mmN (p : Nat) : Nat := pl p 32 32
def mmK (p : Nat) : Nat := pl p 64 32
def mmFmtA (p : Nat) : Nat := pl p 352 3
def mmFmtB (p : Nat) : Nat := pl p 355 3
def mmFmtC (p : Nat) : Nat := pl p 358 3
def mmAccAdd (p : Nat) : Bool := pl p 364 1 = 1
def mmBias (p : Nat) : Bool := pl p 366 1 = 1
def mmOutScale (p : Nat) : Bool := pl p 368 1 = 1
def mmCapture (p : Nat) : Bool := pl p 369 1 = 1
def mmSlice (p : Nat) : Nat := 2 ^ pl p 370 4
def mmStage (p : Nat) : Nat := pl p 448 16
def cpGram (p : Nat) : Nat := pl p 512 48
def cpPart (p : Nat) : Nat := pl p 576 48
/-- Block edge of a BLOCK code (R214). -/
def blockEdge (code : Nat) : Nat := 32 * 2 ^ code
def cpBlock (p : Nat) : Nat := pl p 640 2
def cpEdge (p : Nat) : Nat := blockEdge (cpBlock p)
/-- The captured operand is B. -/
def cpB (p : Nat) : Bool := pl p 642 1 = 1
def cpAccumulate (p : Nat) : Bool := pl p 643 1 = 1
def cpScale (p : Nat) : Bool := pl p 644 1 = 1
/-- Gram blocks of a capture: ⌈K ÷ b⌉ (R214). -/
def cpBlocks (p : Nat) : Nat := ceilDiv (mmK p) (cpEdge p)

/-- Row and column panels of a batch item (R134). -/
def rowPanels (p : Nat) : Nat := ceilDiv (mmM p) 128
def colPanels (p : Nat) : Nat := ceilDiv (mmN p) 128

/-- Batch items of a descriptor (R132). -/
def Desc.batch (d : Desc) : Nat := (d.ext.drop 2).foldl (· * ·) 1

/-! ## Checks -/

def matmulHead (e : HeadEnv) (p : Nat) : List Check :=
  let f := (tileSpan p).1
  let n := (tileSpan p).2
  let c := pkClass p
  let a := mmFmtA p
  checks [(72, (c = 1 && !(3 ≤ a && a ≤ 5)) || (c = 2 && !(a = 1 || a = 2)) || (c = 3 && a ≠ 0) || (c = 4 && !mmCapture p)),
      (112, mmCapture p && pkUnits p < 2),
      (512 + 96, pl p 96 48 % 64 ≠ 0), (512 + 160, pl p 160 48 % 64 ≠ 0), (512 + 224, pl p 224 48 % 64 ≠ 0),
      (512 + 288, mmBias p && pl p 288 48 % 4 ≠ 0), (512 + 352, !pairOk a (mmFmtB p)), (512 + 358, mmFmtC p > 4),
      (512 + 361, pl p 361 1 = 1 && a ≠ 5), (512 + 362, pl p 362 1 = 1 && mmFmtB p ≠ 5),
      (512 + 368, mmOutScale p && mmFmtC p ≠ 3 && mmFmtC p ≠ 4), (512 + 370, pl p 370 4 < 5),
      (512 + 448, mmStage p + 10240 > 65536)]
    ++ tileChecks p (512 + 416) 384 (tileOutside e.footprint) ++ reservedPl p [(144, 16), (208, 16), (272, 16), (336, 16), (374, 2), (412, 4), (434, 14), (464, 48)]
    ++ (if mmCapture p && pkUnits p ≥ 2 then
      let g := 2 ^ cpBlock p
      checks [(512 + 416, cpBlock p ≠ 3 && f % g ≠ 0), (512 + 425, cpBlock p ≠ 3 && n % g ≠ 0), (1024, cpGram p % 64 ≠ 0), (1024 + 64, cpPart p % 64 ≠ 0),
        (1024 + 128, cpBlock p = 3), (1024 + 130, cpB p && a = 5),
        (1024 + 132, cpScale p && !(let q := if cpB p then mmFmtB p else a; q = 3 || q = 4))]
      ++ reservedPl p [(560, 16), (624, 16), (645, 379), (1024, 512 * (pkUnits p - 2))]
    else reservedPl p [(512, 512 * (pkUnits p - 1))])

/-- Byte ranges of a command's operands: where an overlap would be named, first byte and length. -/
def Desc.span (d : Desc) (eb : Nat) : Nat × Nat :=
  match d.range eb with
  | some (lo, hi) => (lo.toNat, (hi - lo).toNat + eb)
  | none => (0, 0)

/-- Checks of C as a destination (R193, R194). DESIGN CHOICE (log entry 101): an ALIASED destination without REDUCE names BASE. -/
def Exm.dest (x : Exm) (bit fmt : Nat) (d : Desc) (scaled added : Bool) : Exm :=
  ((x.badWhen (!d.reduce && !d.disjoint) bit 1).badWhen (d.reduce && fmt > 2) bit (1 + 52)).badWhen (d.reduce && (scaled || added)) bit
    (1 + 52)

/-- Work of a MATMUL (R135). -/
def matmulWork (p batch : Nat) : Nat :=
  match pkClass p with
  | 0 => 1
  | 14 => batch * (colPanels p * mmM p + rowPanels p * mmN p) * mmK p * fmtBytes (mmFmtA p)
  | 15 => batch * mmM p * mmN p * fmtBytes (mmFmtC p) * (if mmAccAdd p then 2 else 1)
  | _ => batch * mmM p * mmN p * mmK p

def specMatmul : OpSpec where
  ring := .c
  lo := 1
  hi := 4
  classes := [0, 1, 2, 3, 4, 14, 15]
  head := matmulHead
  busy s h p := tilesBusy s h p || moversBusy s h p
  domains _ _ p := tileDomains (tilesOf p)
  exam s h p x0 :=
    let fp := s.footprintOf (pkCtx p)
    let ea := fmtBytes (mmFmtA p)
    let eb := fmtBytes (mmFmtB p)
    let ec := fmtBytes (mmFmtC p)
    let ya := x0.desc (512 + 96) (pl p 96 48) ea false false fp
    let yb := ya.2.desc (512 + 160) (pl p 160 48) eb false false fp
    let yc := yb.2.desc (512 + 224) (pl p 224 48) ec true false fp
    let a := ya.1
    let b := yb.1
    let c := yc.1
    let x1 := ((yc.2.badWhen (a.ext.getD 1 1 ≠ mmM p || c.ext.getD 1 1 ≠ mmM p) 512).badWhen
      (b.ext.getD 0 1 ≠ mmN p || c.ext.getD 0 1 ≠ mmN p) (512 + 32)).badWhen
      (a.ext.getD 0 1 ≠ mmK p || b.ext.getD 1 1 ≠ mmK p) (512 + 64)
    let x2 := [2, 3, 4].foldl (fun x k =>
      (x.badWhen (a.ext.getD k 1 ≠ b.ext.getD k 1) (512 + 160) (1 + 128 * k + 128)).badWhen
        (a.ext.getD k 1 ≠ c.ext.getD k 1) (512 + 224) (1 + 128 * k + 128)) x1
    let x3 := x2.dest (512 + 224) (mmFmtC p) c (mmOutScale p) (mmAccAdd p)
    let x4 := if mmBias p then x3.range (512 + 288) (pl p 288 48) (4 * mmN p) false else x3
    let slots := (s.ctxAny h (pkCtx p)).scales
    let x5 := x4.badWhen (mmOutScale p && ((find (pl p 400 12) slots).getD {}).fmtRef ≠ mmFmtC p) (512 + 368)
    let x6 := if !mmCapture p then x5 else
      let tri := triBytes (cpEdge p) * cpBlocks p
      let sets := a.batch * (if cpB p then colPanels p else rowPanels p)
      let tensors := [a.span ea, b.span eb, c.span ec]
      let hit (lo n : Nat) : Bool := tensors.any fun t => overlaps lo n t.1 t.2
      (((x5.range 1024 (cpGram p) tri true).range (1024 + 64) (cpPart p) (tri * sets) true).badWhen
        (hit (cpGram p) tri || overlaps (cpGram p) tri (cpPart p) (tri * sets)) 1024).badWhen (hit (cpPart p) (tri * sets)) (1024 + 64)
    let batch := a.batch
    { x6 with empty := mmM p = 0 || mmN p = 0 || mmK p = 0 || batch = 0 }.workUnits h (tileSpan p).1 (tileSpan p).2
      (batch * rowPanels p * colPanels p) (matmulWork p batch)
  mirrored := tilesAcross

/-! ## The product (R133) -/

/-- What reading the operands of a product has done: its run, out-of-bounds elements filled, and what zero strides repeat (R190). -/
structure Reads where
  run : Run
  fills : Nat := 0
  latches : Latches := []

/-- Read one row of matrix operand `k`: `n` elements along dimension 0 at coordinate i1 and a batch index. -/
def readRow (e : Env) (d : Desc) (eb k i1 : Nat) (batch : List Nat) : Nat → Nat → Reads → List Nat × Reads
  | _, 0, x => ([], x)
  | i0, n + 1, x =>
    let v := x.run.readOnce e x.latches k d eb (i0 :: i1 :: batch)
    let y := readRow e d eb k i1 batch (i0 + 1) n { run := v.2.2.1, latches := v.2.2.2, fills := x.fills + v.2.1 }
    (v.1 :: y.1, y.2)

/-- Read a matrix operand, row by row. -/
def readMatrix (e : Env) (d : Desc) (eb k cols : Nat) (batch : List Nat) : Nat → Nat → Reads → List (List Nat) × Reads
  | _, 0, x => ([], x)
  | i1, n + 1, x =>
    let v := readRow e d eb k i1 batch 0 cols x
    let y := readMatrix e d eb k cols batch (i1 + 1) n v.2
    (v.1 :: y.1, y.2)

/-- A table of byte counts in which what was added since `before` counts `n` times: operands are streamed for each panel (R134). -/
def repeatCounts (before after : Table) (n : Nat) : Table :=
  after.map fun e => (e.1, before.at e.1 + n * (e.2 - before.at e.1))

/-- The result of one cell before the store path (R133): slices of K, each a chain from zero, summed in FP32 or INT32. -/
def sliceSum (fa fb : Fmt) (sa sb : Bool) (md : FMode) (slice : Nat) (pairs : List (Nat × Nat)) : Nat :=
  match chunks slice pairs with
  | [] => 0
  | first :: rest =>
    rest.foldl (fun acc ps =>
      let part := macChain fa fb sa sb md ps 0
      if fa = .int8 then (acc + part) % 2 ^ 32 else add32 md acc part) (macChain fa fb sa sb md first 0)

/-- What a MATMUL computes with, apart from its operands. -/
structure MatCtx where
  env : Env
  md : FMode
  scale : Nat
  slot : Option (Nat × Int)
  bias : List Nat

/-- One element of C through the store path (R123, R133, R194). -/
def matmulElem (x : MatCtx) (p : Nat) (c : Desc) (batch row : List Nat) (cols : List (List Nat)) (m n : Nat) (r : Run)
    (t : WriteTally) : Run × WriteTally :=
  let fa := (Fmt.ofCode (mmFmtA p)).getD .fp32
  let fb := (Fmt.ofCode (mmFmtB p)).getD .fp32
  let fc := (Fmt.ofCode (mmFmtC p)).getD .fp32
  let acc := sliceSum fa fb (pl p 361 1 = 1) (pl p 362 1 = 1) x.md (mmSlice p) (row.zip (cols.getD n []))
  let place := c.placeAt fc.bytes (n :: m :: batch) []
  let old := if mmAccAdd p then r.readElem x.env c fc.bytes place else (0, 0, r)
  let v := storeValue x.md (decide (fa = .int8)) x.scale acc (if mmAccAdd p then some (widen fc x.md old.1) else none)
    (if mmBias p then some (x.bias.getD n 0) else none) (pl p 365 1 = 1)
  writeValue x.env c fc x.md x.slot place v v old.2.2 t

/-- The elements of one row of C. -/
def matmulRow (x : MatCtx) (p : Nat) (c : Desc) (batch row : List Nat) (cols : List (List Nat)) (m : Nat) :
    Nat → Nat → Run → WriteTally → Run × WriteTally
  | _, 0, r, t => (r, t)
  | n, left + 1, r, t =>
    let y := matmulElem x p c batch row cols m n r t
    matmulRow x p c batch row cols m (n + 1) left y.1 y.2

/-- The rows of C of one batch item. -/
def matmulRows (x : MatCtx) (p : Nat) (c : Desc) (batch : List Nat) (cols : List (List Nat)) :
    Nat → List (List Nat) → Run → WriteTally → Run × WriteTally
  | _, [], r, t => (r, t)
  | m, row :: rest, r, t =>
    let y := matmulRow x p c batch row cols m 0 (mmN p) r t
    matmulRows x p c batch cols (m + 1) rest y.1 y.2

/-- Partials of one batch item (R210, R215): for each panel of 128 rows of A, or columns of B, the packed blocks over K. `vecs`
holds the captured vectors, one for each row m of A or column n of B, of K codes. -/
def capturePartials (p : Nat) (md : FMode) (exp : Int) (vecs : List (List Nat)) : List Nat :=
  let f := (Fmt.ofCode (if cpB p then mmFmtB p else mmFmtA p)).getD .fp32
  let sgn := !(cpB p) && pl p 361 1 = 1
  (chunks 128 (vecs.map fun v => v.map (bfCode f sgn md))).flatMap fun panel =>
    (List.range (cpBlocks p)).flatMap fun w =>
      (triPairs (cpEdge p)).map fun ij =>
        let k (i : Nat) : Nat := w * cpEdge p + i
        if k ij.2 ≥ mmK p then 0 else
        let g := macChain .bf16 .bf16 false false md (panel.map fun v => (v.getD (k ij.1) 0, v.getD (k ij.2) 0)) 0
        if cpScale p then mul32 .strict g (pow2Code (2 * exp)) else g

/-- Columns of a matrix held by rows. -/
def transpose (cols : Nat) (rows : List (List Nat)) : List (List Nat) := (List.range cols).map (columnOf rows)

/-- A run whose loads since another count `n` times: operands are streamed for each panel (R134). -/
def Run.streamed (r before : Run) (n : Nat) : Run :=
  { r with rd := repeatCounts before.rd r.rd n, crossed := repeatCounts before.crossed r.crossed n }

/-- The batch items of a MATMUL in order. -/
def matmulBatches (x : MatCtx) (p : Nat) (a b c : Desc) (exp : Int) :
    Nat → Nat → Reads → WriteTally → List Nat → Run × WriteTally × List Nat
  | _, 0, r, t, ps => (r.run, { t with fills := r.fills }, ps)
  | i, left + 1, r, t, ps =>
    let batch := indexOf (a.ext.drop 2) i
    let ra := readMatrix x.env a (fmtBytes (mmFmtA p)) 0 (mmK p) batch 0 (mmM p) r
    let r1 := { ra.2 with run := ra.2.run.streamed r.run (colPanels p) }
    let rb := readMatrix x.env b (fmtBytes (mmFmtB p)) 1 (mmN p) batch 0 (mmK p) r1
    let r2 := { rb.2 with run := rb.2.run.streamed r1.run (rowPanels p) }
    let cols := transpose (mmN p) rb.1
    let y := matmulRows x p c batch cols 0 ra.1 r2.run t
    let more := if mmCapture p then capturePartials p x.md exp (if cpB p then cols else ra.1) else []
    matmulBatches x p a b c exp (i + 1) left { r2 with run := y.1 } y.2 (ps ++ more)

/-- Windows a capture completes on each capturing tile: the tile of each panel in the first panel column or row, with one window
for each block of K and each 32 vectors (R134, R215). -/
def captureWindows (p batch : Nat) : List (Nat × Nat) :=
  let rows := rowPanels p
  let cols := colPanels p
  let per := ceilDiv (batch * rows * cols) (max (tileSpan p).2 1)
  (List.range batch).flatMap fun i => (List.range (if cpB p then cols else rows)).map fun j =>
    let panel := i * rows * cols + (if cpB p then j * rows else j)
    let size := min 128 ((if cpB p then mmN p else mmM p) - 128 * j)
    ((tileSpan p).1 + panel / max per 1, cpBlocks p * ceilDiv size 32)

/-- Element codes of consecutive numbers of `n` elements from a CXA. -/
def Run.codes (e : Env) (r : Run) (cxa fmt n : Nat) : List Nat × Run :=
  let x := r.load e cxa (n * fmtBytes fmt)
  ((chunks (fmtBytes fmt) x.1).map numOf, x.2)

/-- The batches of a MATMUL: the run, its counts, and with CAPTURE its partials. -/
def matmulRun (s : State) (h : Half) (c : Cmd) : Run × WriteTally × List Nat :=
  let p := c.packet
  let e := s.envCmd h c
  let md := FMode.ofStrict (pl p 363 1 = 1 || c.forced h bMXE 8)
  let exp (n : Nat) : Int := (find n c.scales).getD 0
  let r0 : Run := { mem := s.view }
  let bias := if mmBias p then r0.codes e (pl p 288 48) 0 (mmN p) else ([], r0)
  let x : MatCtx :=
    { env := e, md := md, bias := bias.1
      scale := if pl p 367 1 = 1 then mul32 md (pow2Code (exp (pl p 376 12))) (pow2Code (exp (pl p 388 12))) else 0x3F800000
      slot := if mmOutScale p then some (pl p 400 12, exp (pl p 400 12)) else none }
  matmulBatches x p (c.desc 0) (c.desc 1) (c.desc 2) (exp (pl p (if cpB p then 388 else 376) 12)) 0 (c.desc 0).batch
    { run := bias.2 } {} []

/-- Bytes of the partial area of a capture (R214). -/
def partBytes (p batch : Nat) : Nat := triBytes (cpEdge p) * cpBlocks p * (batch * (if cpB p then colPanels p else rowPanels p))

/-- MATMUL (R131 to R136, R214 to R216). A capturing one goes on to its fold; where the product ends in an error its partial area is
undefined. -/
def runMatmul (s0 : State) (h : Half) (c : Cmd) : State :=
  let p := c.packet
  let e := s0.envCmd h c
  let d := c.desc 2
  if d.refuse && d.anyOutside (fmtBytes (mmFmtC p)) then s0.finish h c (boundsResult (512 + 224)) else
  let s : State := { s0 with drawnFree := s0.drawnFree + 2 }
  let z := matmulRun s h c
  if !z.1.need.isEmpty then s.applyRun h c e z.1 fun _ => okResult 0 0 0 else
  let t := z.2.1.far z.1 s0.drawnFree
  let s1 := (s.applyRun h { c with reports := t.reports } e z.1 fun _ =>
    okResult t.saturated t.nans t.drops).afterTiles p false t (mmStage p) 10240
  if !mmCapture p then s1 else
  match s1.cmd? c.id with
  | some (g, k) =>
    match k.done with
    | some res =>
      if isError res.status then s1.veilRange e (cpPart p) (partBytes p (c.desc 0).batch) else
      let s2 := (captureWindows p (c.desc 0).batch).foldl (fun t w => t.countTile w.1 bGRU 1 w.2) s1
      s2.setCmd g { k with done := none, waiting := true, held := some res, partials := some z.2.2 }
    | none => s1
  | none => s1

def execMatmul (id : Nat) (s : State) : Host.Outcome State Fault Refusal :=
  .next (onCommand s id 0x0203 (fun c => c.partials.isNone) runMatmul)

/-! ## The fold (R215) -/

/-- Fold the partials of one element onto a starting value, in order (R215). -/
def foldElem (start : Option Nat) (ps : List Nat) : Nat :=
  match start, ps with
  | some g, ps => ps.foldl (add32 .strict) g
  | none, p :: rest => rest.foldl (add32 .strict) p
  | none, [] => 0

/-- The Gram elements in storage order. -/
def foldGram (e : Env) (p : Nat) (sets : List (List Nat)) (r : Run) : Run :=
  let b := cpEdge p
  let tri := triPairs b
  let elems := (List.range (cpBlocks p)).flatMap fun w => (tri.zip (List.range tri.length)).map fun x => (w, x)
  (elems.zip (List.range elems.length)).foldl (fun r x =>
    let w := x.1.1
    let ij := x.1.2.1
    let at' := cpGram p + w * triBytes b + 4 * x.1.2.2
    if w * b + ij.2 ≥ mmK p then (if cpAccumulate p then r else r.store e at' (bytesOf 4 0))
    else
      let old := if cpAccumulate p then r.loadNum e at' 4 else (0, r)
      old.2.store e at' (bytesOf 4 (foldElem (if cpAccumulate p then some old.1 else none) (sets.map fun ps => ps.getD x.2 0)))) r

/-- CAPTURE_FOLD: the CSE of the die of TILE_FIRST folds the partials of a capturing MATMUL; the command then finishes. -/
def execCaptureFold (die : Nat) (s : State) : Host.Outcome State Fault Refusal :=
  .next (match s.allCmds.find? fun c =>
      c.2.partials.isSome && c.2.done.isNone && c.2.phase = .running && (tileSpan c.2.packet).1 / 48 = die with
    | some (h, c) =>
      let p := c.packet
      let e := { s.envCmd h c with part := Half.ofPart (die / 4) }
      let size := cpBlocks p * (triPairs (cpEdge p)).length
      let sets := chunks (max size 1) (c.partials.getD [])
      let r := foldGram e p sets { mem := s.view }
      if !r.need.isEmpty then s.applyRun h c e r fun _ => okResult 0 0 0
      else
        (s.applyRun h { c with partials := none } e r fun _ => c.held.getD (okResult 0 0 0)).veilRange e (cpPart p)
          (triBytes (cpEdge p) * cpBlocks p * sets.length)
    | none => s)

end Sys2Proof.Machine
end

