-- ==== Sys2Proof/Machine/Curvature.lean ====
section
/-! DEFINITION. The Curvature and Solver Engine's matrix work (R218 to R232): GRAM_REDUCE, ROOT and ORTHO. The engine computes in
IEEE 754-2019 binary32 with subnormals, so every operation here is strict (R220). -/

namespace Sys2Proof.Machine

/-- Is an FP32 code finite? -/
def finite32 (c : Nat) : Bool := (f32 c).isFinite

/-- Is an FP32 code finite and not negative (R222, R229)? -0 is not negative. -/
def notNegative (c : Nat) : Bool := finite32 c && !(FVal.lt (f32 c) FVal.zero)

/-- The half of a global die. -/
def dieHalf (d : Nat) : Half := Half.ofPart (d / 4)

/-- A command whose CSE lies in the other half is mirrored (R31). -/
def csesAcross (s : State) (h : Half) (p : Nat) : Bool := (csesOf p).any (fun d => dieHalf d ≠ h) && s.together h

/-- Count in a register of the CSE of a global die. -/
def State.countCse (s : State) (d index n : Nat) : State :=
  s.modHalf (dieHalf d) fun x => x.count32 (dieHalf d) (regKey bCSE (d % 4) 0 index) 0 n

/-- Do two of several ranges share a byte? The later one's place is named. -/
def overlapChecks : List (Nat × Nat × Nat) → List Check
  | [] => []
  | r :: rest => (rest.map fun q => (q.1, overlaps r.2.1 r.2.2 q.2.1 q.2.2)) ++ overlapChecks rest

/-! ## GRAM_REDUCE (R218, R219) -/

def grSrc (p : Nat) : Nat := pl p 0 48
def grFac (p : Nat) : Nat := pl p 64 48
def grCount (p : Nat) : Nat := pl p 128 32
def grFirst (p : Nat) : Bool := pl p 162 1 = 1
/-- Elements of a GRAM_REDUCE. -/
def grElems (p : Nat) : Nat := grCount p * (triBytes (blockEdge (pl p 160 2)) / 4)

def specGramReduce : OpSpec where
  ring := .c
  lo := 1
  hi := 2
  classes := [0, 6, 14, 15]
  head e p :=
    let n := 4 * grElems p
    checks [(512, grSrc p % 64 ≠ 0), (512 + 64, grFac p % 64 ≠ 0 || (grSrc p ≠ grFac p && overlaps (grSrc p) n (grFac p) n)),
      (512 + 160, pl p 160 2 = 3), (512 + 168, dieOutside e.footprint (pl p 168 3)), (512 + 192, !finite32 (pl p 192 32)),
      (512 + 224, !finite32 (pl p 224 32))]
    ++ reservedPl p [(48, 16), (112, 16), (163, 5), (171, 21), (256, 256), (512, 512 * (pkUnits p - 1))]
  busy := csesBusy
  domains _ _ p := (csesOf p).map uncoreDomain
  exam _ h p x0 :=
    let n := 4 * grElems p
    let x := (x0.range 512 (grSrc p) n false).range (512 + 64) (grFac p) n true
    { x with empty := grCount p = 0 }.work h (dieHalf (pl p 168 3))
      (match pkClass p with | 6 => 2 * grElems p | 14 => (if grFirst p then n else 2 * n) | 15 => n | _ => 1)
  mirrored := csesAcross

/-- The elements of a GRAM_REDUCE in ascending order (R219). -/
def gramElems (e : Env) (p : Nat) : Nat → Nat → Run → Run
  | _, 0, r => r
  | i, n + 1, r =>
    let sv := r.loadNum e (grSrc p + 4 * i) 4
    let t := mul32 .strict (pl p 192 32) sv.1
    let fv := if grFirst p then (0, sv.2) else sv.2.loadNum e (grFac p + 4 * i) 4
    let v := if grFirst p then t else fma32 .strict (pl p 224 32) fv.1 t
    gramElems e p (i + 1) n (fv.2.store e (grFac p + 4 * i) (bytesOf 4 v))

/-- GRAM_REDUCE: the step's statistics fold into the running factor. -/
def execGramReduce (id : Nat) (s : State) : Host.Outcome State Fault Refusal :=
  .next (onCommand s id 0x0401 (fun _ => true) fun s h c =>
    let e := { s.envCmd h c with part := dieHalf (pl c.packet 168 3) }
    s.applyRun h c e (gramElems e c.packet 0 (grElems c.packet) { mem := s.view }) fun _ => okResult 0 0 0)

/-! ## Matrices of FP32 codes -/

/-- A matrix of FP32 codes, row by row. -/
abbrev Mat := List (List Nat)

/-- Element (i, j), +0 outside. -/
def Mat.at (a : Mat) (i j : Nat) : Nat := (a.getD i []).getD j 0

/-- A matrix from a function of row and column. -/
def Mat.build (rows cols : Nat) (g : Nat → Nat → Nat) : Mat := (List.range rows).map fun i => (List.range cols).map (g i)

/-- A product with each element an fma32 chain over the inner index from +0, under a mode and operand format (R133, R220). -/
def Mat.prod (f : Fmt) (md : FMode) (cols : Nat) (a b : Mat) : Mat :=
  let bs := transpose cols b
  a.map fun row => bs.map fun col => macChain f f false false md (row.zip col) 0

/-- The sum of squares, a row-major fma32 chain from +0 (R223, R229). -/
def Mat.sumSquares (a : Mat) : Nat := a.foldl (fun s row => row.foldl (fun s x => fma32 .strict x x s) s) 0

/-- The largest of FP32 magnitudes; NaN if one is NaN. -/
def maxAbs (l : List Nat) : Nat := l.foldl (fun m x => round32 .strict (maximum (f32 m) (f32 x).abs)) 0

/-- max |A − I| (R223, R229). -/
def Mat.residual (a : Mat) : Nat :=
  maxAbs ((a.zip (List.range a.length)).flatMap fun r =>
    (r.1.zip (List.range r.1.length)).map fun x => sub32 .strict x.1 (if x.2 = r.2 then 0x3F800000 else 0))

/-- Is every element finite, as a code of a format? -/
def Mat.finiteAs (a : Mat) (f : Fmt) : Bool := a.all fun r => r.all fun c => (f.decode false c).isFinite

/-- Upper triangle mirrored below. -/
def Mat.mirror (n : Nat) (a : Mat) : Mat := Mat.build n n fun i j => if i ≤ j then a.at i j else a.at j i

/-! ## ROOT (R221 to R226) -/

def rtSrc (p : Nat) : Nat := pl p 0 48
def rtDst (p : Nat) : Nat := pl p 64 48
def rtRec (p : Nat) : Nat := pl p 128 48
def rtScratch (p : Nat) : Nat := pl p 192 48
def rtN (p : Nat) : Nat := pl p 256 11
def rtCount (p : Nat) : Nat := pl p 272 32
def rtPow (p : Nat) : Nat := pl p 304 2
def rtPacked (p : Nat) : Bool := pl p 306 1 = 1
def rtIters (p : Nat) : Nat := pl p 312 7
def rtStep (p : Nat) : Nat := pl p 416 32
/-- Bytes from one source block to the next (R221). -/
def rtBlock (p : Nat) : Nat := if rtPacked p then triBytes (rtN p) else 4 * rtN p * rtN p

def specRoot : OpSpec where
  ring := .c
  lo := 1
  hi := 2
  classes := [0, 6, 14, 15]
  head e p :=
    let n := rtN p
    let sq := 4 * n * n
    let ranges := [(512, rtSrc p, rtCount p * rtBlock p), (512 + 64, rtDst p, rtCount p * sq), (512 + 128, rtRec p, 64 * rtCount p),
      (512 + 192, rtScratch p, 4 * sq * (csesOf p).length)]
    checks [(512, rtSrc p % 64 ≠ 0), (512 + 64, rtDst p % 64 ≠ 0), (512 + 128, rtRec p % 64 ≠ 0), (512 + 192, rtScratch p % 64 ≠ 0),
      (512 + 256, n % 32 ≠ 0 || n < 32 || n > 1024), (512 + 306, rtPacked p && n ≠ 32 && n ≠ 64 && n ≠ 128),
      (512 + 312, rtIters p = 0 || rtIters p > 64), (512 + 320, !notNegative (pl p 320 32)), (512 + 352, !notNegative (pl p 352 32)),
      (512 + 384, !(finite32 (pl p 384 32) && FVal.lt FVal.zero (f32 (pl p 384 32)))),
      (512 + 448, pl p 448 8 = 0 || (csesOf p).any (dieOutside e.footprint))]
    ++ overlapChecks ranges
    ++ reservedPl p [(48, 16), (112, 16), (176, 16), (240, 16), (267, 5), (307, 5), (319, 1), (456, 56), (512, 512 * (pkUnits p - 1))]
  busy := csesBusy
  domains _ _ p := (csesOf p).map uncoreDomain
  exam _ h p x0 :=
    let n := rtN p
    let sq := 4 * n * n
    let x := (((x0.range 512 (rtSrc p) (rtCount p * rtBlock p) false).range (512 + 64) (rtDst p) (rtCount p * sq) true).range
      (512 + 128) (rtRec p) (64 * rtCount p) true).range (512 + 192) (rtScratch p) (4 * sq * (csesOf p).length) true
    let dies := csesOf p
    let mine (g : Half) : Nat := total ((List.range (rtCount p)).map fun i => if dieHalf (dies.getD (i % max dies.length 1) 0) = g then 1 else 0)
    let per := match pkClass p with
      | 6 => rtIters p * (2 + rtPow p) * 2 * n * n * n
      | 14 => rtBlock p + 64
      | 15 => sq + 64
      | _ => 0
    let y := { x with empty := rtCount p = 0 }
    if pkClass p = 0 then y.work h h 1 else (y.work h h (per * mine h)).work h h.other (per * mine h.other)
  mirrored := csesAcross

/-- How a block ends (R224). -/
inductive RootOutcome where
  | installed (x : Mat)
  | budget
  | stalled
  | nonfinite
deriving DecidableEq, Repr

/-- OUTCOME of a root record (R224). -/
def RootOutcome.code : RootOutcome → Nat
  | .installed _ => 1
  | .budget => 2
  | .stalled => 3
  | .nonfinite => 4

/-- Iterations of R223: matrices X and M, the previous residual, and how many residuals in a row did not fall. The result gives the
outcome, the iterations run and the last residual. -/
def rootLoop (n pow : Nat) (tol limit : Nat) : Nat → Nat → Mat → Mat → Option Nat → Nat → RootOutcome × Nat × Nat
  | 0, k, _, _, prev, _ => (.budget, k, prev.getD 0)
  | left + 1, k, x, m, prev, rising =>
    let p1 := round32 .strict (FVal.ofInt (2 ^ pow + 1))
    let t := Mat.build n n fun i j =>
      div32 (sub32 .strict (if i = j then p1 else 0) (m.at i j)) (round32 .strict (FVal.ofInt (2 ^ pow)))
    let q := (List.range pow).foldl (fun q _ => Mat.prod .fp32 .strict n q q) t
    let x1 := Mat.mirror n (Mat.prod .fp32 .strict n x t)
    let m1 := Mat.mirror n (Mat.prod .fp32 .strict n q m)
    let r := Mat.residual m1
    let up := match prev with | some v => if v ≤ r then rising + 1 else 0 | none => 0
    if !(x1.finiteAs .fp32 && m1.finiteAs .fp32 && finite32 r) then (.nonfinite, k + 1, Fmt.fp32.nanCode)
    else if r ≤ tol then (.installed x1, k + 1, r)
    else if limit ≠ 0 && up ≥ limit then (.stalled, k + 1, r)
    else rootLoop n pow tol limit left (k + 1) x1 m1 (some r) up

/-- An integer quotient rounded up, for a positive divisor. -/
def ceilInt (a : Int) (b : Nat) : Int := -((-a) / (b : Int))

/-- The smallest f with S ≤ 2^(2f), for a finite S > 0 (R223). -/
def rootExp (v : FVal) : Int :=
  match v with
  | .fin _ m e => ceilInt (ceilLog2 m e) 2
  | _ => 0

/-- One block of R223: outcome, iterations, residual, λ and the exponent e, if it was chosen. -/
def rootBlock (p limit : Nat) (a0 : Mat) : RootOutcome × Nat × Nat × Nat × Option Int :=
  let n := rtN p
  let pow := rtPow p
  let lam := add32 .strict (pl p 320 32) (mul32 .strict (pl p 352 32) (maxAbs ((List.range n).map fun i => a0.at i i)))
  let a := Mat.build n n fun i j => add32 .strict (a0.at i j) (mul32 .strict lam (if i = j then 0x3F800000 else 0))
  let sum := a.sumSquares
  if (f32 sum).isZero || !finite32 sum then (.nonfinite, 0, Fmt.fp32.nanCode, lam, none) else
  let e : Int := (2 ^ pow : Nat) * ceilInt (rootExp (f32 sum)) (2 ^ pow)
  let x := Mat.build n n fun i j => if i = j then pow2Code (-(e / (2 ^ pow : Nat))) else 0
  let m := a.map fun row => row.map fun v => round32 .strict ((f32 v).scale (-e))
  let z := rootLoop n pow (pl p 384 32) limit (rtIters p) 0 x m none 0
  (z.1, z.2.1, z.2.2, lam, some e)

/-- The upper triangle of source block i, mirrored (R221, R223). -/
def readBlock (e : Env) (p i : Nat) (r : Run) : Mat × Run :=
  let n := rtN p
  let base := rtSrc p + i * rtBlock p
  let z := (triPairs n).foldl (fun (y : List Nat × Run) ij =>
    let v := y.2.loadNum e (base + (if rtPacked p then triOffset n ij.1 ij.2 else 4 * (ij.1 * n + ij.2))) 4
    (v.1 :: y.1, v.2)) ([], r)
  let vals := z.1.reverse
  (Mat.build n n fun i j => vals.getD (triOffset n (min i j) (max i j) / 4) 0, z.2)

/-- Totals of a ROOT: blocks installed and not, largest staleness, failures and NONFINITE ends by die, free values drawn. -/
structure RootTally where
  installed : Nat := 0
  failed : Nat := 0
  stale : Nat := 0
  fails : List Nat := []
  nonfinite : List Nat := []
  drawn : Nat := 0

/-- One block of a ROOT with its record (R223 to R225). -/
def rootOne (e : Env) (p free : Nat) (limits : Nat → Nat) (i : Nat) (r : Run) (t : RootTally) : Run × RootTally :=
  let n := rtN p
  let dies := csesOf p
  let die := dies.getD (i % max dies.length 1) 0
  let rec0 := r.loadNum e (rtRec p + 64 * i) 64
  let a := readBlock e p i rec0.2
  let z := rootBlock p (limits die) a.1
  let ok := match z.1 with | .installed _ => true | _ => false
  let exp := match z.2.2.2.2 with
    | some x => unsigned x 8
    | none => (Config.freeWord (free + t.drawn)).toNat % 256
  let valid := ok || bitSet rec0.1 32
  let step := if ok then rtStep p else bits rec0.1 0 32
  let fails := if ok then 0 else sat32 (bits rec0.1 160 32 + 1)
  let rec1 := place step 0 32 + place (if valid then 1 else 0) 32 1 + place z.1.code 40 3 + place z.2.1 48 8
    + place z.2.2.1 64 32 + place z.2.2.2.1 96 32 + place exp 128 8 + place fails 160 32
  let r1 := match z.1 with
    | .installed x => a.2.store e (rtDst p + 4 * n * n * i) (x.flatMap fun row : List Nat => row.flatMap (bytesOf 4))
    | _ => a.2
  let staleness := if valid then (rtStep p + 2 ^ 32 - step) % 2 ^ 32 else max32
  (r1.store e (rtRec p + 64 * i) (bytesOf 64 rec1),
    { installed := t.installed + (if ok then 1 else 0), failed := t.failed + (if ok then 0 else 1), stale := max t.stale staleness
      fails := if ok then t.fails else t.fails ++ [die]
      nonfinite := if z.1.code = 4 then t.nonfinite ++ [die] else t.nonfinite
      drawn := t.drawn + (if z.2.2.2.2.isNone then 1 else 0) })

/-- The blocks of a ROOT in order; the first stop ends them. -/
def rootBlocks (e : Env) (p free : Nat) (limits : Nat → Nat) : Nat → Nat → Run → RootTally → Run × RootTally
  | _, 0, r, t => (r, t)
  | i, left + 1, r, t =>
    if r.stop.isSome then (r, t) else
    let y := rootOne e p free limits i r t
    rootBlocks e p free limits (i + 1) left y.1 (if y.1.stop.isSome then t else y.2)

/-- Report a staleness to the table of a half (R225, R459). -/
def HalfState.reportStale (x : HalfState) (h : Half) (ctx layer v : Nat) : HalfState :=
  if layer < 4096 then { x with stale := put layer (v + place ctx 32 4) x.stale }
  else
    let k := hubKey bGAU 1
    x.setField h k 16 16 (min (bits (x.cell h k) 16 16 + 1) 0xFFFF)

/-- STALL_LIMIT of a die's CSE as the command found it at admission (R232). -/
def Cmd.stallLimit (c : Cmd) (h : Half) (d : Nat) : Nat :=
  let k := regKey bCSE (d % 4) 0 0
  bits ((find k (if dieHalf d = h then c.cfg else c.cfgOther)).getD (regReset (dieHalf d) k)) 0 4

/-- The blocks of a ROOT. -/
def rootRun (s : State) (h : Half) (c : Cmd) : Run × RootTally :=
  rootBlocks (s.envCmd h c) c.packet s.drawnFree (c.stallLimit h) 0 (rtCount c.packet) { mem := s.view } {}

/-- ROOT (R221 to R226). -/
def runRoot (s : State) (h : Half) (c : Cmd) : State :=
  let p := c.packet
  let e := s.envCmd h c
  let z := rootRun s h c
  let t := z.2
  let s1 := s.applyRun h c e z.1 fun _ => okResult t.installed t.failed t.stale
  if !z.1.need.isEmpty then s1 else
  let s2 := { s1 with drawnFree := s1.drawnFree + t.drawn }.veilRange e (rtScratch p) (16 * rtN p * rtN p * (csesOf p).length)
  let s3 := t.nonfinite.foldl (fun u d => u.countCse d 3 1) (t.fails.foldl (fun u d => u.countCse d 2 1) s2)
  if z.1.stop.isSome then s3 else
  (((csesOf p).map dieHalf).eraseDups).foldl (fun u g => u.modHalf g fun x => x.reportStale g (pkCtx p) (pkLayer p) t.stale) s3

def execRoot (id : Nat) (s : State) : Host.Outcome State Fault Refusal :=
  .next (onCommand s id 0x0402 (fun _ => true) runRoot)

/-! ## ORTHO (R228 to R230) -/

def orFmtSrc (p : Nat) : Nat := pl p 192 3
def orFmtDst (p : Nat) : Nat := pl p 195 3
def orStrict (p : Nat) : Bool := pl p 198 1 = 1
def orIters (p : Nat) : Nat := pl p 199 5
def orDie (p : Nat) : Nat := pl p 208 3
def orStage (p : Nat) : Nat := pl p 384 16
def orCoef (p i : Nat) : Nat := pl p (224 + 32 * i) 32

def specOrtho : OpSpec where
  ring := .c
  lo := 1
  hi := 2
  classes := [0, 2, 3, 6, 14, 15]
  head e p :=
    let g := dieHalf (orDie p)
    checks [(72, (pkClass p = 2 && orStrict p) || (pkClass p = 3 && !orStrict p)), (512, pl p 0 48 % 64 ≠ 0),
      (512 + 64, pl p 64 48 % 64 ≠ 0), (512 + 128, pl p 128 48 % 64 ≠ 0), (512 + 192, orFmtSrc p > 1), (512 + 195, orFmtDst p > 1),
      (512 + 199, orIters p = 0 || orIters p > 16), (512 + 208, dieOutside e.footprint (orDie p)),
      (512 + 224, !finite32 (orCoef p 0)), (512 + 256, !finite32 (orCoef p 1)), (512 + 288, !finite32 (orCoef p 2)),
      (512 + 320, !notNegative (orCoef p 3)),
      (512 + 384, orStage p + 10240 > 65536)]
    ++ tileChecks p (512 + 352) 192 (fun t => tileOutside e.footprint t || tileHalf t ≠ g)
    ++ reservedPl p [(48, 16), (112, 16), (176, 16), (204, 4), (211, 13), (370, 14), (400, 112), (512, 512 * (pkUnits p - 1))]
  busy s h p := tilesBusy s h p || csesBusy s h p
  domains _ _ p := tileDomains (tilesOf p) ++ [uncoreDomain (orDie p)]
  exam s h p x0 :=
    let fp := s.footprintOf (pkCtx p)
    let a := x0.desc 512 (pl p 0 48) (fmtBytes (orFmtSrc p)) false false fp
    let b := a.2.desc (512 + 64) (pl p 64 48) (fmtBytes (orFmtDst p)) true false fp
    let src := a.1
    let dst := b.1
    let rows := src.ext.getD 1 1
    let cols := src.ext.getD 0 1
    let n := min rows cols
    let x1 := (b.2.badWhen (src.rank ≠ 2) 512 (1 + 48)).badWhen (dst.rank ≠ 2) (512 + 64) (1 + 48)
    let x2 := (x1.badWhen dst.reduce (512 + 64) (1 + 52)).badWhen (!dst.disjoint) (512 + 64) 1
    let x3 := [0, 1].foldl (fun x k =>
      (x.badWhen (src.ext.getD k 1 > 8192) 512 (1 + 128 * k + 128)).badWhen (src.ext.getD k 1 ≠ dst.ext.getD k 1) (512 + 64)
        (1 + 128 * k + 128)) x2
    let x4 := x3.range (512 + 128) (pl p 128 48) (12 * rows * cols + 16 * n * n) true
    { x4 with empty := rows = 0 || cols = 0 }.work h (dieHalf (orDie p))
      (match pkClass p with
        | 0 => 1
        | 6 => orIters p * (2 * rows * cols + 3 * n * n) + 2 * rows * cols
        | 14 => src.inBounds true * fmtBytes (orFmtSrc p)
        | 15 => dst.inBounds false * fmtBytes (orFmtDst p)
        | _ => orIters p * (2 * n * n * max rows cols + n * n * n))
  mirrored s h p := dieHalf (orDie p) ≠ h && s.together h

/-- A product of ORTHO (R133, R229): BF16 products in fast mode or FP32 products in strict mode, one slice of 2¹³ steps at most,
through a store path that only rounds. -/
def orthoProd (prec strict : Bool) (cols : Nat) (a b : Mat) : Mat :=
  let f := if prec then Fmt.fp32 else Fmt.bf16
  let md := FMode.ofStrict (prec || strict)
  (Mat.prod f md cols a b).map fun row => row.map fun v => storeValue md false 0x3F800000 v none none false

/-- cvt() of R229. -/
def orthoCvt (prec : Bool) (a : Mat) : Mat :=
  if prec then a else a.map fun row => row.map fun v => (convert .bf16 .strict none v).code

/-- One iteration of R229: the next X and the residual, or none for a non-finite value. The residual, if it was formed, comes
first. -/
def orthoStep (p : Nat) (strict : Bool) (rows cols : Nat) (x : Mat) : Option Nat × Option Mat :=
  let prec := orStrict p
  let n := min rows cols
  let f := if prec then Fmt.fp32 else Fmt.bf16
  let xb := orthoCvt prec x
  let xt := transpose cols xb
  let a := if rows ≤ cols then orthoProd prec strict n xb xt else orthoProd prec strict n xt xb
  let r := Mat.residual a
  if !(xb.finiteAs f && a.finiteAs .fp32 && finite32 r) then (none, none) else
  let ab := orthoCvt prec a
  let a2 := orthoProd prec strict n ab ab
  let b := Mat.build n n fun i j => fma32 .strict (orCoef p 2) (a2.at i j) (mul32 .strict (orCoef p 1) (a.at i j))
  let bb := orthoCvt prec b
  let y := if rows ≤ cols then orthoProd prec strict cols bb xb else orthoProd prec strict cols xb bb
  let x1 := Mat.build rows cols fun i j => fma32 .strict (orCoef p 0) (x.at i j) (y.at i j)
  (some r, if ab.finiteAs f && a2.finiteAs .fp32 && b.finiteAs .fp32 && bb.finiteAs f && y.finiteAs .fp32 && x1.finiteAs .fp32 then some x1 else none)

/-- The iterations: the final X if all were finite, the last residual, and how many were completed. -/
def orthoLoop (p : Nat) (strict : Bool) (rows cols : Nat) : Nat → Nat → Mat → Option Nat → Option Mat × Option Nat × Nat
  | 0, k, x, r => (some x, r, k)
  | left + 1, k, x, r =>
    match orthoStep p strict rows cols x with
    | (some r1, some x1) => orthoLoop p strict rows cols left (k + 1) x1 (some r1)
    | (some r1, none) => (none, some r1, k)
    | (none, _) => (none, r, k)

/-- ORTHO's computation (R229): the destination values or none, the outcome, the last residual, and the iterations completed. -/
def orthoCompute (p : Nat) (strict : Bool) (rows cols : Nat) (x : Mat) : Option Mat × Nat × Option Nat × Nat :=
  let d := round32 .strict (FVal.add (FVal.sqrt (f32 x.sumSquares)) (f32 (orCoef p 3)))
  if !finite32 d then (none, 2, none, 0)
  else if (f32 d).isZero then (none, 1, none, 0)
  else
    let x0 := x.map fun row => row.map fun v => div32 v d
    let z := orthoLoop p strict rows cols (orIters p) 0 x0 none
    (z.1, if z.1.isSome then 0 else 2, z.2.1, z.2.2)

/-- The work of an ORTHO: the run that writes its matrix; its status, residual and work. -/
def orthoRun (s : State) (h : Half) (c : Cmd) : Run × Nat × Option Nat × Nat :=
  let p := c.packet
  let e := { s.envCmd h c with part := dieHalf (orDie p) }
  let fs := (Fmt.ofCode (orFmtSrc p)).getD .fp32
  let fd := (Fmt.ofCode (orFmtDst p)).getD .fp32
  let rows := (c.desc 0).ext.getD 1 1
  let cols := (c.desc 0).ext.getD 0 1
  let m := readMatrix e (c.desc 0) fs.bytes 0 cols [0, 0, 0] 0 rows { run := { mem := s.view } }
  let z := orthoCompute p (c.forced h bMXE 8) rows cols (m.1.map fun row => row.map (widen fs .strict))
  ((List.range (rows * cols)).foldl (fun r i =>
    match (c.desc 1).elem fd.bytes i with
    | .inside a => r.storeElem e (c.desc 1) fd.bytes a
        (match z.1 with | some v => (convert fd .strict none (v.at (i / cols) (i % cols))).code | none => 0)
    | .outside _ => r) m.2.run, z.2)

/-- ORTHO (R228 to R230). The residual of a run without an iteration is a value the spec does not state. -/
def runOrtho (s : State) (h : Half) (c : Cmd) : State :=
  let p := c.packet
  let e := { s.envCmd h c with part := dieHalf (orDie p) }
  let rows := (c.desc 0).ext.getD 1 1
  let cols := (c.desc 0).ext.getD 0 1
  if (c.desc 1).refuse && (c.desc 1).anyOutside ((Fmt.ofCode (orFmtDst p)).getD .fp32).bytes then
    s.finish h c (boundsResult (512 + 64)) else
  let z := orthoRun s h c
  let r := z.2.2.1.getD (Config.freeWord s.drawnFree).toNat
  let s1 := s.applyRun h c e z.1 fun _ => okResult z.2.1 r z.2.2.2
  if !z.1.need.isEmpty then s1 else
  let s2 := (({ s1 with drawnFree := s1.drawnFree + 1 }).veilRange e (pl p 128 48) (12 * rows * cols + 16 * min rows cols * min rows cols)).afterTiles
    p false {} (orStage p) 10240
  if z.2.1 = 2 && z.1.stop.isNone then s2.countCse (orDie p) 3 1 else s2

def execOrtho (id : Nat) (s : State) : Host.Outcome State Fault Refusal :=
  .next (onCommand s id 0x0403 (fun _ => true) runOrtho)

end Sys2Proof.Machine
end

