-- ==== Sys2Proof/Machine/Frames.lean ====
section
/-! DEFINITION. How a half receives a link frame addressed to it (R377, R379, R380): version, duplicates, generation, residency, the
acknowledgement that follows and the NACK that refuses. -/

namespace Sys2Proof.Machine

/-- Half of the sequence space (R380). -/
def seqHalf : Nat := 2 ^ 23

/-- The distance of a sequence number from another, modulo 2²⁴ (R380). -/
def seqAfter (a b : Nat) : Nat := (b + 2 ^ 24 - a % 2 ^ 24) % 2 ^ 24

/-- Has a frame been seen: it lies before what is expected in order, or among those seen beyond it (R380)? -/
def HalfState.isDuplicate (x : HalfState) (src seq : Nat) : Bool :=
  seqAfter (x.rxHigh.at src) seq ≥ seqHalf || x.rxSeen.contains (src, seq)

/-- Move past the numbers that are now in order; `fuel` bounds the steps. -/
def inOrder (src : Nat) : Nat → Nat → List (Nat × Nat) → Nat × List (Nat × Nat)
  | 0, next, seen => (next, seen)
  | fuel + 1, next, seen =>
    if seen.contains (src, next) then inOrder src fuel ((next + 1) % 2 ^ 24) (seen.filter (· ≠ (src, next))) else (next, seen)

/-- Numbers beyond what is expected in order that a half remembers of each source (R380). -/
def seqWindow : Nat := 1024

/-- Remember a number that lies in the window (R380). -/
def HalfState.noteSeq (x : HalfState) (src seq : Nat) : HalfState :=
  if seqAfter (x.rxHigh.at src) seq < seqWindow then { x with rxSeen := x.rxSeen ++ [(src, seq)] } else x

/-- Record a sequence number as received (R380). -/
def HalfState.markSeen (x : HalfState) (src seq : Nat) : HalfState :=
  let z := x.noteSeq src seq
  let y := inOrder src z.rxSeen.length (z.rxHigh.at src) z.rxSeen
  { z with rxHigh := z.rxHigh.set src y.1, rxSeen := y.2 }

/-- An ACK is due to a source (R380). -/
def HalfState.owesAck (x : HalfState) (src : Nat) : HalfState :=
  { x with rxSince := x.rxSince.bump src 1, rxOwed := if x.rxSince.at src = 0 then x.rxOwed.set src x.count else x.rxOwed }

/-- An ACK goes out: the highest number received in order from its destination (R379, R380). -/
def State.sendAck (s : State) (h : Half) (src : Nat) : State :=
  let x := s.half h
  ((s.modHalf h fun y => { y with rxSince := y.rxSince.set src 0 }).send h none
    { type := 0x3, dst := src, mgmt := true, arg := (x.rxHigh.at src + 2 ^ 24 - 1) % 2 ^ 24 }).1

/-- After 64 frames an ACK goes out (R380). -/
def State.ackMany (s : State) (h : Half) (src : Nat) : State := if 64 ≤ (s.half h).rxSince.at src then s.sendAck h src else s

/-- After 200 strokes an ACK goes out to every source that one is due to (R380). -/
def State.ackOld (s : State) (h : Half) : State :=
  let x := s.half h
  (x.rxSince.filter fun e => e.2 ≠ 0 && x.rxOwed.at e.1 + 200 ≤ x.count).foldl (fun t e => t.sendAck h e.1) s

/-- A frame dropped and counted at a port (R405). -/
def HalfState.dropFrame (x : HalfState) (h : Half) (port : Nat) : HalfState := x.count32 h (regKey bLNK 4 port 5) 0 1

/-- What becomes of a frame before its type is looked at (R377, R380). -/
inductive Arrival where
  | take
  | duplicate
  /-- Dropped and counted: another version, or an ended generation. -/
  | dropped
  /-- Answered with NACK. -/
  | refused (reason : Nat)
deriving DecidableEq, Repr

/-- The checks of R377 and R380 in order. Answers to this module's own frames need no resident context. -/
def HalfState.arrival (x : HalfState) (h : Half) (f : Frame) : Arrival :=
  if f.ver ≠ x.e2eVer h then .dropped
  else if isAcked f && x.isDuplicate f.src f.seq then .duplicate
  else if f.mgmt then .take
  else if f.gen < x.gen f.ctx then .dropped
  else if frameClass f = 1 then .take
  else if x.gen f.ctx < f.gen || x.resident ≠ some f.ctx then .refused rsPeer
  else .take

/-- What the handler of a frame answers. -/
inductive Answer where
  /-- Done; the frame is acknowledged with the next ACK. -/
  | done (s : State)
  /-- Refused with a reason. -/
  | refuse (s : State) (reason : Nat)
  /-- Accepted; the acknowledgement follows what it started. -/
  | later (s : State)

/-- Answer a frame with NACK and count it (R379, R405). -/
def State.nackFrame (s : State) (h : Half) (port : Nat) (f : Frame) (reason : Nat) : State :=
  let s1 := s.modHalf h fun x => x.count32 h (regKey bLNK 4 port 5) 32 1
  (s1.send h none { type := 0x4, dst := f.src, ctx := f.ctx, mgmt := f.mgmt, gen := f.gen, addr := f.seq, arg := reason }).1

/-- The frame as it enters: the payload of a partner that seals nothing is sealed at ingress (R349). -/
def HalfState.ingress (x : HalfState) (h : Half) (port : Nat) (f : Frame) : Frame :=
  if x.foreign h port && !(framePayload f).isEmpty then { f with crc := crc32c (framePayload f) } else f

/-- What a refusal puts into ARG: the reason, and for an engine's refusal the source number behind it. -/
def nackCode (r : Result) : Nat :=
  if r.status = stIntegrity then rsSeal else if r.d0 = rsEngine then rsEngine + 2 ^ 16 * (r.d1 % 1024) else r.d0

/-- Bytes that come in through a port (R455). -/
def HalfState.countIn (x : HalfState) (port : Nat) (f : Frame) : HalfState :=
  x.gauge 0x02 (6 * 512 + port * 4 + gaugeClass f) 1 (frameBytesOf f)

/-- A frame has been dealt with: its number counts as received where it has one, and an acknowledgement is owed if it is `due`
(R379, R380). -/
def State.noteFrame (t : State) (h : Half) (f : Frame) (due : Bool) : State :=
  (t.modHalf h fun y =>
    let z := if isAcked f then y.markSeen f.src f.seq else y
    if due && isAcked f && f.type ≠ 0x0 then z.owesAck f.src else z).ackMany h f.src

/-- A frame is dropped and counted, and not acknowledged: its number is remembered, but does not move what is received in order (R377, R380, R405). -/
def State.dropNoted (t : State) (h : Half) (port : Nat) (f : Frame) : State :=
  t.modHalf h fun y => (if isAcked f then y.noteSeq f.src f.seq else y).dropFrame h port

/-- What a handler answers to a frame that has been taken in: it is noted and acknowledged, refused, or waits for its answer (R379,
R380). -/
def State.settleAnswer (h : Half) (port : Nat) (f : Frame) : Answer → State
  | .done t => t.noteFrame h f true
  | .refuse t r => (t.noteFrame h f false).nackFrame h port f r
  | .later t => t

/-- A half receives a frame addressed to it. Only frames whose acknowledgement is ACK make one due; a READ_REQ is answered by
its READ_RESP. -/
def State.receive (s0 : State) (h : Half) (port : Nat) (f0 : Frame) (type : Nat) (act : State → Frame → Answer) : State :=
  let x := s0.half h
  if port > 3 || x.portState h port ≠ 2 || x.resetting || f0.type ≠ type || f0.dst ≠ x.myPos h then s0 else
  let s := s0.modHalf h fun y => y.countIn port f0
  let f := x.ingress h port f0
  match x.arrival h f with
  | .duplicate => s
  | .dropped => s.dropNoted h port f
  | .refused r => (s.noteFrame h f false).nackFrame h port f r
  | .take => State.settleAnswer h port f (act s f)

/-! ## The spur (R383) -/

/-- What R383 and R380 answer to the context of a frame of the spur, in the half concerned: an ended generation or a dead context is
TORN_DOWN; a newer generation has no context here. -/
def HalfState.spurGate (x : HalfState) (f : Frame) : Option Nat :=
  if f.mgmt then none
  else if f.gen < x.gen f.ctx || (x.ctx f.ctx).st = .dead then some rsTornDown
  else if x.gen f.ctx < f.gen then some rsField
  else none

/-- The source of a spur frame that is dropped or refused (R383, R428). -/
def srcSpurFrame : Nat := 0x009

/-- A bridge receives a frame of its spur that is addressed to itself. Its data is sealed as it enters (R349). -/
def State.receiveSpur (s0 : State) (f0 : Frame) (type : Nat) (act : State → Frame → Answer) : State :=
  let x := s0.q
  if x.portState .q 4 ≠ 2 || !x.isBridge .q || x.resetting || f0.type ≠ type || f0.dst ≠ x.myPos .q then s0 else
  let s := s0.modHalf .q fun y => y.countIn 4 f0
  let f : Frame := { f0 with src := x.myPos .q, crc := if f0.data.isEmpty then 0 else crc32c f0.data }
  if f.ver ≠ x.e2eVer .q then s.dropNoted .q 4 f
  else if x.isDuplicate f.src f.seq then s
  else match act s f with
    | .done t => t.noteFrame .q f true
    | .refuse t r => ((t.noteFrame .q f false).nackFrame .q 4 f r).occur .q srcSpurFrame none
    | .later t => t

/-- The port towards a position: the one through which a frame that a bridge passed on is taken to have come. -/
def HalfState.portTowards (x : HalfState) (h : Half) (pos : Nat) : Nat := min (x.route h pos % 8) 3

/-- A half receives a frame of a spur that the bridge of its pump group passed on: a resident context is not needed (R383). -/
def State.receiveRelayed (s0 : State) (h : Half) (f : Frame) (type : Nat) (act : State → Frame → Answer) : State :=
  let x := s0.half h
  let port := x.portTowards h f.src
  if x.portState h port ≠ 2 || x.resetting || f.type ≠ type || f.dst ≠ x.myPos h then s0 else
  let s := s0.modHalf h fun y => y.countIn port f
  if f.ver ≠ x.e2eVer h then s.dropNoted h port f
  else if x.isDuplicate f.src f.seq then s
  else State.settleAnswer h port f (act s f)

/-- The command of a half that sent a frame which nothing has acknowledged: by destination and number. -/
def HalfState.sentFrame (x : HalfState) (dst seq : Nat) : Option Unacked :=
  x.unacked.find? fun u => u.frame.dst = dst && u.frame.seq = seq

/-- A frame is answered: nothing waits for it any more. -/
def HalfState.answered (x : HalfState) (dst seq : Nat) : HalfState :=
  { x with unacked := x.unacked.filter fun u => !(u.frame.dst = dst && u.frame.seq = seq) }

/-- Has a command read requests that nothing has answered? -/
def State.awaitsRead (s : State) (id : Nat) : Bool :=
  [s.q, s.k].any fun x => x.unacked.any fun u => u.cmd = some id && u.frame.type = 0x0

end Sys2Proof.Machine
end

