-- ==== Sys2Proof/Machine/Update.lean ====
section
/-! DEFINITION. The Update Unit (R254 to R280): UPDATE, RECONCILE, SHARD_DIGEST and the comparison of replicas. The unit computes in
IEEE 754-2019 binary32 with subnormals, so every operation here is strict (R254). -/

namespace Sys2Proof.Machine

/-! ## Units and shares -/

/-- Global dies whose UPU a command occupies (R256, R268, R273, R320). -/
def upusOf (p : Nat) : List Nat :=
  if pkOpcode p = 0x0601 then bitIndices (pl p (512 + 448) 8) 8
  else if pkOpcode p = 0x0602 then bitIndices (pl p 440 8) 8
  else if pkOpcode p = 0x0603 then bitIndices (pl p 352 8) 8
  else if pkOpcode p = 0x0705 then bitIndices (pl p 448 8) 8
  else []

/-- A command that names a busy UPU is not ready (R254). -/
def upusBusy (s : State) (_ : Half) (p : Nat) : Bool :=
  let mine := upusOf p
  s.allCmds.any fun c => (upusOf c.2.packet).any fun d => mine.contains d

/-- A command whose UPUs lie in the other half is mirrored (R258). -/
def upusAcross (s : State) (h : Half) (p : Nat) : Bool := (upusOf p).any (fun d => dieHalf d ≠ h) && s.together h

/-- The mask names no die outside the footprint, and at least one. -/
def maskBad (e : HeadEnv) (p : Nat) : Bool := (upusOf p).isEmpty || (upusOf p).any (dieOutside e.footprint)

/-- Shares of `count` elements cut into chunks of `chunk`: die, first element, number (R258). -/
def shares (dies : List Nat) (count chunk : Nat) : List (Nat × Nat × Nat) :=
  let per := ceilDiv (ceilDiv count chunk) (max dies.length 1) * chunk
  (dies.zip (List.range dies.length)).map fun d =>
    let lo := min count (per * d.2)
    (d.1, lo, min count (per * (d.2 + 1)) - lo)

/-- Elements of a chunk (R258). -/
def chunkElems : Nat := 65536

/-- Work of the shares in each half: `f` gives the work of a share. -/
def Exm.workShares (x : Exm) (home : Half) (dies : List Nat) (count chunk : Nat) (f : Nat → Nat) : Exm :=
  (shares dies count chunk).foldl (fun y d => y.work home (dieHalf d.1) (f d.2.2)) x

/-- Count in a register of the UPU of a global die (R280). -/
def State.countUpu (s : State) (d index n : Nat) : State :=
  s.modHalf (dieHalf d) fun x => x.count32 (dieHalf d) (regKey bUPU (d % 4) 0 index) 0 n

/-- The FP32 code of an integer. -/
def intCode (i : Int) : Nat := round32 .strict (FVal.ofInt i)

def isZero32 (c : Nat) : Bool := (f32 c).isZero
def less32 (a b : Nat) : Bool := FVal.lt (f32 a) (f32 b)
def one32 : Nat := 0x3F800000
def positive32 (c : Nat) : Bool := finite32 c && FVal.lt FVal.zero (f32 c)

/-! ## Eight-bit moments (R159, R260) -/

/-- Decode `n` values of a 132-byte block: signed, or of the square-root domain. -/
def decodeMoments (root : Bool) (bs : List Nat) (n : Nat) : List Nat :=
  let s := numOf (bs.drop 128)
  (bs.take n).map fun (c : Nat) =>
    if root then
      let r := mul32 .strict (intCode c) s
      mul32 .strict r r
    else mul32 .strict (intCode (max (-127) (signed c 8))) s

/-- Encode values as a block of 132 bytes; codes beyond them are zero. -/
def encodeMoments (root : Bool) (vs : List Nat) : List Nat :=
  let rs := if root then vs.map sqrt32 else vs
  let a := greatest (rs.map abs32)
  let top : Int := if root then 255 else 127
  let s := if a = 0 then 0 else div32 a (intCode top)
  let code (v : Nat) : Nat :=
    if isZero32 s then 0
    else unsigned (max (if root then 0 else -127) (min top (rneInt (f32 (div32 v s))))) 8
  rs.map code ++ List.replicate (128 - vs.length) 0 ++ bytesOf 4 s

/-! ## UPDATE (R255 to R267) -/

def upMaster (p : Nat) : Nat := pl p 0 48
def upWork (p : Nat) : Nat := pl p 64 48
def upGrad (p : Nat) : Nat := pl p 128 48
def upM (p : Nat) : Nat := pl p 192 48
def upV (p : Nat) : Nat := pl p 256 48
def upDigest (p : Nat) : Nat := pl p 320 48
def upCount (p : Nat) : Nat := pl p 384 48
def upBase (p : Nat) : Nat := pl p 448 64
/-- A field of payload unit 1 of UPDATE. -/
def up1 (p lo w : Nat) : Nat := pl p (512 + lo) w
def upRule (p : Nat) : Nat := up1 p 0 4
def upMasterless (p : Nat) : Bool := up1 p 4 1 = 1
def upMom (p : Nat) : Bool := up1 p 5 1 = 1
def upFmtG (p : Nat) : Nat := up1 p 8 3
def upFmtW (p : Nat) : Nat := up1 p 11 3
def upSlot (p : Nat) : Nat := up1 p 14 12
def upStep (p : Nat) : Nat := up1 p 32 32
def upTensor (p : Nat) : Nat := up1 p 64 32
/-- Does the rule keep a first and a second moment (R257)? -/
def upKeepsM (p : Nat) : Bool := upRule p = 1 || upMom p
def upKeepsV (p : Nat) : Bool := upRule p = 1
/-- Element size of the weights at MASTER_CXA. -/
def upBytes (p : Nat) : Nat := if upMasterless p then 2 else 4
/-- Bytes of the moment blocks of `n` elements (R260). -/
def momentBytes (n : Nat) : Nat := 132 * ceilDiv n 128

/-- A hyperparameter at a bit of unit 1 (R257): used, and then in its range; unused, and then zero. -/
def hyper (p lo : Nat) (used : Bool) (ok : Nat → Bool) : Check :=
  let v := up1 p lo 32
  (1024 + lo, if used then !(finite32 v && ok v) else v ≠ 0)

/-- The arrays of an UPDATE: packet bit, address, bytes. -/
def upArrays (p : Nat) : List (Nat × Nat × Nat) :=
  let n := upCount p
  [(512, upMaster p, n * upBytes p)]
    ++ (if upMasterless p then [] else [(512 + 64, upWork p, n * fmtBytes (upFmtW p))])
    ++ [(512 + 128, upGrad p, n * fmtBytes (upFmtG p))]
    ++ (if upKeepsM p then [(512 + 192, upM p, momentBytes n)] else [])
    ++ (if upKeepsV p then [(512 + 256, upV p, momentBytes n)] else [])
    ++ (if upDigest p = 0 then [] else [(512 + 320, upDigest p, 64)])

/-- Bytes read and written by a share of `n` elements. -/
def upReads (p n : Nat) : Nat :=
  n * (upBytes p + fmtBytes (upFmtG p)) + momentBytes n * ((if upKeepsM p then 1 else 0) + if upKeepsV p then 1 else 0)

def upWrites (p n : Nat) : Nat :=
  n * (upBytes p + if upMasterless p then 0 else fmtBytes (upFmtW p))
    + momentBytes n * ((if upKeepsM p then 1 else 0) + if upKeepsV p then 1 else 0)

def specUpdate : OpSpec where
  ring := .c
  lo := 2
  hi := 4
  classes := [0, 8, 14, 15]
  head e p :=
    let rule := upRule p
    let w := upFmtW p
    let fp8 : Bool := w = 3 || w = 4
    let atLeast1 (v : Nat) : Bool := !(less32 v one32)
    let below1 (v : Nat) : Bool := notNegative v && less32 v one32
    checks [(512, upMaster p % 64 ≠ 0),
      (512 + 64, upWork p % 64 ≠ 0 || (upMasterless p && upWork p ≠ 0) || (!upMasterless p && upWork p = 0)),
      (512 + 128, upGrad p % 64 ≠ 0),
      (512 + 192, upM p % 64 ≠ 0 || (upM p ≠ 0) ≠ upKeepsM p),
      (512 + 256, upV p % 64 ≠ 0 || (upV p ≠ 0) ≠ upKeepsV p),
      (512 + 320, upDigest p % 64 ≠ 0 || (upDigest p ≠ 0 && (upMaster p % 256 ≠ 0 || upCount p * upBytes p % 256 ≠ 0))),
      (512 + 448, upBase p % 128 ≠ 0),
      (1024, rule > 2), (1024 + 5, rule = 1 && upMom p), (1024 + 6, up1 p 6 1 = 1 && !(rule = 0 && upMom p)),
      (1024 + 8, upFmtG p > 2), (1024 + 11, if upMasterless p then w ≠ 1 else !(w = 1 || fp8)),
      (1024 + 14, w = 1 && upSlot p ≠ 0), (1024 + 448, maskBad e p)]
    ++ checks [hyper p 96 true notNegative, hyper p 128 true notNegative, hyper p 160 (upKeepsM p) below1,
      hyper p 192 (rule = 1) below1, hyper p 224 (rule = 1) positive32, hyper p 256 (rule = 1) atLeast1,
      hyper p 288 (rule = 1) atLeast1, hyper p 320 true (fun _ => true), hyper p 352 true positive32,
      hyper p 384 true positive32, hyper p 416 true positive32]
    ++ overlapChecks (upArrays p)
    ++ reservedPl p [(48, 16), (112, 16), (176, 16), (240, 16), (304, 16), (368, 16), (432, 16), (512 + 7, 1), (512 + 26, 6),
      (512 + 456, 56), (1024, 512 * (pkUnits p - 2))]
  busy := upusBusy
  domains _ _ p := (upusOf p).map uncoreDomain
  exam s h p x0 :=
    let x1 := (upArrays p).foldl (fun x a => x.range a.1 a.2.1 a.2.2 (a.1 ≠ 512 + 128)) x0
    let slots := (s.ctxAny h (pkCtx p)).scales
    let x2 := x1.badWhen (upFmtW p ≠ 1 && ((find (upSlot p) slots).getD {}).fmtRef ≠ upFmtW p) (1024 + 14)
    let y := { x2 with empty := upCount p = 0 }
    match pkClass p with
    | 8 => y.workShares h (upusOf p) (upCount p) chunkElems id
    | 14 => y.workShares h (upusOf p) (upCount p) chunkElems (upReads p)
    | 15 => (y.workShares h (upusOf p) (upCount p) chunkElems (upWrites p)).work h h (if upDigest p = 0 then 0 else 24)
    | _ => y.work h h 1
  mirrored := upusAcross

/-- Counts of the UPU: non-finite values replaced, values clamped, elements saturated, and the slot report. -/
structure UpTally where
  nonfinite : Nat := 0
  clamps : Nat := 0
  saturated : Nat := 0
  amax : Nat := 0
  /-- Elements presented to conversion. -/
  shown : Nat := 0
deriving DecidableEq, Repr

/-- clampv of R259. -/
def clampv (t : UpTally) (v bound : Nat) : Nat × UpTally :=
  if !finite32 v then (0, { t with nonfinite := t.nonfinite + 1 })
  else if less32 v (neg32 bound) then (neg32 bound, { t with clamps := t.clamps + 1 })
  else if less32 bound v then (bound, { t with clamps := t.clamps + 1 })
  else (v, t)

/-- fin of R259. -/
def finv (t : UpTally) (v : Nat) : Nat × UpTally :=
  if finite32 v then (v, t) else (0, { t with nonfinite := t.nonfinite + 1 })

/-- What a rule makes of an element: the new weight and the moments kept. -/
structure UpElem where
  w : Nat
  m : Nat
  v : Nat

/-- Hyperparameters of an update rule (R256), FP32 codes; shared by UPDATE and the fold of embedding rows. -/
structure UpRule where
  rule : Nat
  mom : Bool
  nesterov : Bool
  lr : Nat
  wd : Nat
  b1 : Nat
  b2 : Nat
  eps : Nat
  bc1 : Nat
  bc2 : Nat
  scale : Nat
  gBound : Nat
  uBound : Nat
  wBound : Nat
deriving DecidableEq, Repr

/-- Does a rule keep a first moment? -/
def UpRule.keepsM (k : UpRule) : Bool := k.rule = 1 || k.mom

/-- The rules on one element (R259): FP32 weight, gradient and old moments. -/
def UpRule.element (k : UpRule) (t : UpTally) (w grad m0 v0 : Nat) : UpElem × UpTally :=
  let mul := mul32 .strict
  let fma := fma32 .strict
  let g := clampv t (mul k.scale grad) k.gBound
  let c1 := sub32 .strict one32 k.b1
  let c2 := sub32 .strict one32 k.b2
  let mRaw := if k.rule = 1 then fma k.b1 m0 (mul c1 g.1) else fma k.b1 m0 g.1
  let vRaw := fma k.b2 v0 (mul c2 (mul g.1 g.1))
  let u0 :=
    if k.rule = 1 then div32 (mul mRaw k.bc1) (add32 .strict (sqrt32 (mul vRaw k.bc2)) k.eps)
    else if k.mom then (if k.nesterov then fma k.b1 mRaw g.1 else mRaw)
    else g.1
  let m := if k.keepsM then finv g.2 mRaw else (0, g.2)
  let v := if k.rule = 1 then finv m.2 vRaw else (0, m.2)
  let u := clampv v.2 u0 k.uBound
  let w1 := fma (neg32 (mul k.lr k.wd)) w w
  let w2 := clampv u.2 (fma (neg32 k.lr) u.1 w1) k.wBound
  ({ w := w2.1, m := m.1, v := v.1 }, w2.2)

/-- The hyperparameters of an UPDATE. -/
def upRuleOf (p : Nat) : UpRule :=
  { rule := upRule p, mom := upMom p, nesterov := up1 p 6 1 = 1, lr := up1 p 96 32, wd := up1 p 128 32, b1 := up1 p 160 32
    b2 := up1 p 192 32, eps := up1 p 224 32, bc1 := up1 p 256 32, bc2 := up1 p 288 32, scale := up1 p 320 32
    gBound := up1 p 352 32, uBound := up1 p 384 32, wBound := up1 p 416 32 }

/-- x of R261: the value that the working element stands for. -/
def workValue (fmtW : Nat) (exp : Int) (w : Nat) : FVal := (f32 w).scale (if fmtW = 1 then 0 else -exp)

/-- The keys and format under which a weight is rounded to its working copy (R178, R261). -/
structure WorkKeys where
  fmtW : Nat
  exp : Int
  seed : Nat
  step : Nat
  tensor : Nat

/-- The working element of a weight with an element index (R261, R263). -/
def WorkKeys.round (k : WorkKeys) (index w : Nat) : Rounded :=
  stochastic ((Fmt.ofCode k.fmtW).getD .bf16) (randomWord k.seed k.step k.tensor index) (workValue k.fmtW k.exp w)

/-- A code of a weight array as FP32. -/
def weightIn (p c : Nat) : Nat := if upMasterless p then widen .bf16 .strict c else c

/-- Elements of a block, one after another: new weights, moments, codes of the working or MASTERLESS copy. -/
def upElems (p : Nat) (keys : WorkKeys) : Nat → List (Nat × Nat × Nat × Nat) → UpTally → List UpElem × List Nat × UpTally
  | _, [], t => ([], [], t)
  | i, (w, g, m, v) :: rest, t =>
    let fg := (Fmt.ofCode (upFmtG p)).getD .fp32
    let x := (upRuleOf p).element t (weightIn p w) (widen fg .strict g) m v
    let r := keys.round (upBase p + i) x.1.w
    let t1 := { x.2 with saturated := x.2.saturated + (if r.overflow then 1 else 0), amax := max x.2.amax (abs32 x.1.w), shown := x.2.shown + 1 }
    let y := upElems p keys (i + 1) rest t1
    (x.1 :: y.1, r.code :: y.2.1, y.2.2)

/-- Codes of `eb` bytes each. -/
def codesOf (eb : Nat) (bs : List Nat) : List Nat := (chunks eb bs).map numOf

/-- One moment block of a shard, `n` elements from `lo` on (R259 to R263): the run, counts and new weights' bytes. -/
def upBlock (e : Env) (p : Nat) (keys : WorkKeys) (lo n : Nat) (r : Run) (t : UpTally) : Run × UpTally × List Nat :=
  let wb := upBytes p
  let gb := fmtBytes (upFmtG p)
  let w := r.load e (upMaster p + lo * wb) (n * wb)
  let g := w.2.load e (upGrad p + lo * gb) (n * gb)
  let mAt := upM p + 132 * (lo / 128)
  let vAt := upV p + 132 * (lo / 128)
  let m := if upKeepsM p then g.2.load e mAt 132 else ([], g.2)
  let v := if upKeepsV p then m.2.load e vAt 132 else ([], m.2)
  if v.2.stop.isSome then (v.2, t, []) else
  let ms := if upKeepsM p then decodeMoments false m.1 n else List.replicate n 0
  let vs := if upKeepsV p then decodeMoments true v.1 n else List.replicate n 0
  let x := upElems p keys lo ((codesOf wb w.1).zip ((codesOf gb g.1).zip (ms.zip vs))) t
  let fresh := if upMasterless p then x.2.1.flatMap (bytesOf 2) else x.1.flatMap fun y => bytesOf 4 y.w
  let r1 := v.2.store e (upMaster p + lo * wb) fresh
  let fb := fmtBytes (upFmtW p)
  let r2 := if upMasterless p then r1 else r1.store e (upWork p + lo * fb) (x.2.1.flatMap (bytesOf fb))
  let r3 := if upKeepsM p then r2.store e mAt (encodeMoments false (x.1.map (·.m))) else r2
  let r4 := if upKeepsV p then r3.store e vAt (encodeMoments true (x.1.map (·.v))) else r3
  (r4, x.2.2, fresh)

/-- Moment blocks of a share in order; `fuel` is their number. -/
def upBlocks (e : Env) (p : Nat) (keys : WorkKeys) : Nat → Nat → Nat → Run → UpTally → Run × UpTally × List Nat
  | 0, _, _, r, t => (r, t, [])
  | fuel + 1, lo, n, r, t =>
    if r.stop.isSome then (r, t, []) else
    let k := min 128 n
    let x := upBlock e p keys lo k r t
    let y := upBlocks e p keys fuel (lo + k) (n - k) x.1 x.2.1
    (y.1, y.2.1, x.2.2 ++ y.2.2)

/-- The shares of the UPUs, one after another: run, tallies by die, new weights' bytes. -/
def upShares (e : Env) (p : Nat) (keys : WorkKeys) : List (Nat × Nat × Nat) → Run → Run × List (Nat × UpTally) × List Nat
  | [], r => (r, [], [])
  | (d, lo, n) :: rest, r =>
    let x := upBlocks { e with part := dieHalf d } p keys (ceilDiv n 128) lo n r {}
    let y := upShares e p keys rest x.1
    (y.1, (d, x.2.1) :: y.2.1, x.2.2 ++ y.2.2)

/-! ### Digests (R271, R272) -/

/-- The digest of seals of consecutive blocks from global index `k` on (R271). -/
def digestSeals : Nat → List Nat → Nat
  | _, [] => 0
  | k, s :: rest => (mix64 ((k % 2 ^ 32) * 2 ^ 32 + s) + digestSeals (k + 1) rest) % 2 ^ 64

/-- Bits [191:0] of a digest record (R272). -/
def digestHead (digest blocks step tag : Nat) : Nat := place digest 0 64 + place blocks 64 64 + place step 128 32 + place tag 160 32

/-- The seed of the command's context (R178). -/
def State.seedOf (s : State) (h : Half) (c : Cmd) : Nat := match c.ctx with | some i => (s.ctxAny h i).seed | none => 0

/-- The exponent of a slot as read at admission (R169); 0 when the context had never written it. -/
def Cmd.slotExp (c : Cmd) (slot : Nat) : Int := (find slot c.scales).getD 0

/-- What an UPDATE keys its random bits with. -/
def updateKeys (s : State) (h : Half) (c : Cmd) : WorkKeys :=
  { fmtW := upFmtW c.packet, exp := c.slotExp (upSlot c.packet), seed := s.seedOf h c, step := upStep c.packet
    tensor := upTensor c.packet }

/-- The shares of an UPDATE on its Update Units. -/
def updateShares (s : State) (h : Half) (c : Cmd) : Run × List (Nat × UpTally) × List Nat :=
  upShares (s.envCmd h c) c.packet (updateKeys s h c) (shares (upusOf c.packet) (upCount c.packet) chunkElems) { mem := s.view }

/-- The run of an UPDATE: its shares, and the shard digest where the packet asks for one. -/
def updateRun (s : State) (h : Half) (c : Cmd) : Run :=
  let p := c.packet
  if upDigest p = 0 then (updateShares s h c).1 else
    let seals := (chunks 256 (updateShares s h c).2.2).map crc32c
    (updateShares s h c).1.store (s.envCmd h c) (upDigest p)
      (bytesOf 24 (digestHead (digestSeals (upBase p * upBytes p / 256) seals) seals.length (upStep p) (upTensor p)))

/-- UPDATE (R258 to R263, R267, R271). -/
def runUpdate (s : State) (h : Half) (c : Cmd) : State :=
  let p := c.packet
  let e := s.envCmd h c
  let x := updateShares s h c
  let r := updateRun s h c
  let sum (f : UpTally → Nat) : Nat := total (x.2.1.map fun d => f d.2)
  let report := if upFmtW p = 1 || sum (·.shown) = 0 then c.reports
    else addReport c.reports (upSlot p) (greatest (x.2.1.map fun d => d.2.amax)) (sum (·.saturated))
  let s1 := s.applyRun h { c with reports := if r.need.isEmpty then report else c.reports } e r fun _ =>
    okResult (sum (·.nonfinite)) (sum (·.clamps)) (sum (·.saturated))
  if r.need.isEmpty then
    x.2.1.foldl (fun t d =>
      ((t.countUpu d.1 1 d.2.nonfinite).countUpu d.1 2 d.2.clamps).countUpu d.1 3 d.2.saturated) s1
  else s1

def execUpdate (id : Nat) (s : State) : Host.Outcome State Fault Refusal :=
  .next (onCommand s id 0x0601 (fun _ => true) runUpdate)

/-! ## RECONCILE (R268 to R270) -/

def rcMaster (p : Nat) : Nat := pl p 0 48
def rcWork (p : Nat) : Nat := pl p 64 48
def rcList (p : Nat) : Nat := pl p 128 48
def rcMax (p : Nat) : Nat := pl p 192 32
def rcCount (p : Nat) : Nat := pl p 224 48
def rcBase (p : Nat) : Nat := pl p 288 64
def rcFmt (p : Nat) : Nat := pl p 416 3
def rcSlot (p : Nat) : Nat := pl p 419 12
def rcExact (p : Nat) : Bool := pl p 431 1 = 1
def rcRepair (p : Nat) : Bool := pl p 432 1 = 1

/-- The arrays of a RECONCILE. -/
def rcArrays (p : Nat) : List (Nat × Nat × Nat) :=
  [(512, rcMaster p, 4 * rcCount p), (512 + 64, rcWork p, fmtBytes (rcFmt p) * rcCount p)]
    ++ (if rcList p = 0 then [] else [(512 + 128, rcList p, 8 * rcMax p)])

def specReconcile : OpSpec where
  ring := .c
  lo := 1
  hi := 1
  classes := [0, 8, 14]
  head e p :=
    checks [(512, rcMaster p % 64 ≠ 0), (512 + 64, rcWork p % 64 ≠ 0 || rcWork p = 0),
      (512 + 128, rcList p % 64 ≠ 0 || (rcList p = 0 && rcMax p ≠ 0)), (512 + 192, rcList p ≠ 0 && rcMax p = 0),
      (512 + 288, rcBase p % 128 ≠ 0), (512 + 352, !rcExact p && pl p 352 32 ≠ 0), (512 + 384, !rcExact p && pl p 384 32 ≠ 0),
      (512 + 416, !(rcFmt p = 1 || rcFmt p = 3 || rcFmt p = 4)), (512 + 419, rcFmt p = 1 && rcSlot p ≠ 0),
      (512 + 432, rcRepair p && !rcExact p), (512 + 440, maskBad e p)]
    ++ overlapChecks (rcArrays p)
    ++ reservedPl p [(48, 16), (112, 16), (176, 16), (272, 16), (433, 7), (448, 64)]
  busy := upusBusy
  domains _ _ p := (upusOf p).map uncoreDomain
  exam s h p x0 :=
    let x1 := (rcArrays p).foldl (fun x a => x.range a.1 a.2.1 a.2.2 (a.1 = 512 + 128 || (a.1 = 512 + 64 && rcRepair p))) x0
    let slots := (s.ctxAny h (pkCtx p)).scales
    let x2 := x1.badWhen (rcFmt p ≠ 1 && ((find (rcSlot p) slots).getD {}).fmtRef ≠ rcFmt p) (512 + 419)
    let y := { x2 with empty := rcCount p = 0 }
    match pkClass p with
    | 8 => y.workShares h (upusOf p) (rcCount p) chunkElems id
    | 14 => y.workShares h (upusOf p) (rcCount p) chunkElems fun n => n * (4 + fmtBytes (rcFmt p))
    | _ => y.work h h 1
  mirrored := upusAcross

/-- How RECONCILE classes an element (R269). -/
inductive RcClass where
  | conforming
  | saturated
  | exception
deriving DecidableEq, Repr

/-- The class of a working code against its master and the exact result (R269). -/
def rcClass (f : Fmt) (exact : Bool) (x : FVal) (code right : Nat) : RcClass :=
  let n := neighbours f x
  let isOver : Bool := match x with | .fin _ m e => cmpDyadic m e f.maxFinite.1 f.maxFinite.2 = .gt | _ => false
  let same (a : Nat) : Bool := code = a || ((f.decode false a).isZero && (f.decode false code).isZero)
  if !x.isFinite then .exception
  else if isOver then (if code = n.1 then .saturated else .exception)
  else if exact then (if code = right then .conforming else .exception)
  else if same n.1 || same n.2 then .conforming
  else .exception

/-- Totals of RECONCILE: exceptions and their indices, conforming saturated, repaired, and the report of repairs. -/
structure RcTally where
  exceptions : Nat := 0
  listed : List Nat := []
  saturated : Nat := 0
  repaired : Nat := 0
  amax : Nat := 0
  overs : Nat := 0
deriving DecidableEq, Repr

/-- Elements of a share in order (R269). -/
def rcElems (e : Env) (p : Nat) (keys : WorkKeys) : Nat → Nat → Run → RcTally → Run × RcTally
  | _, 0, r, t => (r, t)
  | i, n + 1, r, t =>
    if r.stop.isSome then (r, t) else
    let f := (Fmt.ofCode (rcFmt p)).getD .bf16
    let w := r.loadNum e (rcMaster p + 4 * i) 4
    let c := w.2.loadNum e (rcWork p + f.bytes * i) f.bytes
    if c.2.stop.isSome then (c.2, t) else
    let x := workValue (rcFmt p) keys.exp w.1
    let right := keys.round (rcBase p + i) w.1
    match rcClass f (rcExact p) x c.1 right.code with
    | .conforming => rcElems e p keys (i + 1) n c.2 t
    | .saturated => rcElems e p keys (i + 1) n c.2 { t with saturated := t.saturated + 1 }
    | .exception =>
      let t1 := { t with exceptions := t.exceptions + 1, listed := t.listed ++ [rcBase p + i] }
      if rcRepair p && x.isFinite then
        rcElems e p keys (i + 1) n (c.2.store e (rcWork p + f.bytes * i) (bytesOf f.bytes right.code))
          { t1 with repaired := t1.repaired + 1, amax := max t1.amax (abs32 w.1), overs := t1.overs + (if right.overflow then 1 else 0) }
      else rcElems e p keys (i + 1) n c.2 t1

/-- The shares of a RECONCILE. -/
def rcShares (e : Env) (p : Nat) (keys : WorkKeys) : List (Nat × Nat × Nat) → Run → Run × List (Nat × RcTally)
  | [], r => (r, [])
  | (d, lo, n) :: rest, r =>
    let x := rcElems { e with part := dieHalf d } p keys lo n r {}
    let y := rcShares e p keys rest x.1
    (y.1, (d, x.2) :: y.2)

/-- What a RECONCILE keys its random bits with. -/
def reconcileKeys (s : State) (h : Half) (c : Cmd) : WorkKeys :=
  { fmtW := rcFmt c.packet, exp := c.slotExp (rcSlot c.packet), seed := s.seedOf h c, step := pl c.packet 352 32
    tensor := pl c.packet 384 32 }

/-- The shares of a RECONCILE on its Update Units. -/
def reconcileShares (s : State) (h : Half) (c : Cmd) : Run × List (Nat × RcTally) :=
  rcShares (s.envCmd h c) c.packet (reconcileKeys s h c) (shares (upusOf c.packet) (rcCount c.packet) chunkElems) { mem := s.view }

/-- The run of a RECONCILE: its shares, and the list of its exceptions where the packet asks for one. -/
def reconcileRun (s : State) (h : Half) (c : Cmd) : Run :=
  let x := reconcileShares s h c
  if rcList c.packet = 0 then x.1 else
    x.1.store (s.envCmd h c) (rcList c.packet) (((x.2.flatMap fun d => d.2.listed).take (rcMax c.packet)).flatMap (bytesOf 8))

/-- RECONCILE (R269, R270). -/
def runReconcile (s : State) (h : Half) (c : Cmd) : State :=
  let p := c.packet
  let e := s.envCmd h c
  let x := reconcileShares s h c
  let sum (f : RcTally → Nat) : Nat := total (x.2.map fun d => f d.2)
  let r := reconcileRun s h c
  let report := if rcFmt p = 1 || sum (·.repaired) = 0 then c.reports
    else addReport c.reports (rcSlot p) (greatest (x.2.map fun d => d.2.amax)) (sum (·.overs))
  let s1 := s.applyRun h { c with reports := if r.need.isEmpty then report else c.reports } e r fun _ =>
    okResult (sum (·.exceptions)) (sum (·.saturated)) (sum (·.repaired))
  if r.need.isEmpty then x.2.foldl (fun t d => (t.countUpu d.1 4 d.2.exceptions).countUpu d.1 3 d.2.overs) s1 else s1

def execReconcile (id : Nat) (s : State) : Host.Outcome State Fault Refusal :=
  .next (onCommand s id 0x0602 (fun _ => true) runReconcile)

/-! ## SHARD_DIGEST (R273 to R279) -/

def sdRange (p : Nat) : Nat := pl p 0 48
def sdBytes (p : Nat) : Nat := pl p 64 48
def sdRecord (p : Nat) : Nat := pl p 128 48
def sdBase (p : Nat) : Nat := pl p 192 32
def sdTag (p : Nat) : Nat := pl p 224 32
def sdMode (p : Nat) : Nat := pl p 256 2
def sdHalt (p : Nat) : Bool := pl p 258 1 = 1
def sdPlane (p : Nat) : Half := Half.ofPart (pl p 259 1)
def sdPrimary (p : Nat) : Nat := pl p 272 8
def sdGroup (p : Nat) : Nat := pl p 288 48
/-- Replicas of the group (R273). -/
def sdCount (p : Nat) : Nat := pl p 264 8 + 1

/-- Where R274 says that TAG lies: the number that its refusals carry. -/
def tagBit : Nat := 224

/-- Positions of the list, as read at examination (R273). -/
def groupList (v n : Nat) : List Nat := (List.range n).map fun i => bits v (16 * i) 16

/-- Tags that hold a place of this module as the primary for a context: arrived messages on either plane, and admitted commands that have
sent no verdict (R274). -/
def State.placeTags (s : State) (ctx : Nat) : List Nat :=
  let mine (c : Cmd) : Option Nat :=
    if c.ctx = some ctx && s.isPrimary c && c.verdict.isNone then some (sdTag c.packet) else none
  let places (x : HalfState) : List Nat := (x.ctx ctx).places.map (·.1) ++ (x.cmds ++ x.suspended).filterMap mine
  (places s.q ++ places s.k).eraseDups

def specShardDigest : OpSpec where
  ring := .c
  lo := 1
  hi := 1
  classes := [0, 14]
  head e p :=
    let compare := sdMode p ≠ 0
    checks [(512, sdRange p % 256 ≠ 0), (512 + 64, sdBytes p % 256 ≠ 0), (512 + 128, sdRecord p % 64 ≠ 0),
      (512 + 256, sdMode p = 3), (512 + 258, !compare && sdHalt p),
      (512 + 259, if compare then outside e (sdPlane p) else pl p 259 1 ≠ 0),
      (512 + 264, (if compare then pl p 264 8 = 0 else pl p 264 8 ≠ 0)),
      (512 + 272, if compare then sdPrimary p ≥ sdCount p else sdPrimary p ≠ 0),
      (512 + 288, sdGroup p % 64 ≠ 0 || (!compare && sdGroup p ≠ 0)), (512 + 352, maskBad e p)]
    ++ reservedPl p [(48, 16), (112, 16), (176, 16), (260, 4), (280, 8), (336, 16), (360, 152)]
  busy := upusBusy
  domains _ _ p := (upusOf p).map uncoreDomain
  exam s h p x0 :=
    let plane := sdPlane p
    let pos := (s.half plane).myPos plane
    let x1 := (x0.range 512 (sdRange p) (sdBytes p) false).range (512 + 128) (sdRecord p) 64 true
    let work := if pkClass p = 14 then (if sdMode p = 2 then 0 else sdBytes p) else 1
    let blocks := sdBytes p / 256
    let done (x : Exm) : Exm :=
      let y := { x with empty := sdBytes p = 0 }
      if pkClass p = 14 && sdMode p ≠ 2 then y.workShares h (upusOf p) blocks (chunkElems * 4 / 256) (256 * ·) else y.work h h work
    if sdMode p = 0 then done x1 else
    let g := x1.record (512 + 288) (sdGroup p) (2 * sdCount p)
    let l := groupList g.1 (sdCount p)
    let stray := (List.range l.length).find? fun i => (l.take i).contains (l.getD i 0)
    let x2 := match stray with
      | some i => g.2.badWhen true (512 + 288) (1 + 16 * i)
      | none => g.2.badWhen (!l.contains pos) (512 + 288) 1
    let tags := s.placeTags (pkCtx p)
    let x3 := x2.badWhen (l.getD (sdPrimary p) 0 = pos && !tags.contains (sdTag p) && tags.length ≥ 16) tagBit
    if sdMode p = 2 then
      let r := x3.record (512 + 128) (sdRecord p) 64
      done (r.2.badWhen (bits r.1 64 64 ≠ blocks) (512 + 128) (1 + 64))
    else done x3
  mirrored := upusAcross

/-- Seals of blocks in order: each block is read and its seal checked (R271). -/
def sealsOf (e : Env) : Nat → Nat → Run → List Nat × Run
  | _, 0, r => ([], r)
  | cxa, n + 1, r =>
    if r.stop.isSome then ([], r) else
    let x := r.load e cxa 256
    let y := sealsOf e (cxa + 256) n x.2
    (crc32c x.1 :: y.1, y.2)

/-- The digest of the range of a SHARD_DIGEST. -/
def digestRange (e : Env) (p : Nat) (r : Run) : Nat × Run :=
  let x := sealsOf e (sdRange p) (sdBytes p / 256) r
  (digestSeals (sdBase p) x.1, x.2)

/-- A digest record as SHARD_DIGEST writes it (R272). -/
def digestRecord (digest blocks tag mismatches primary : Nat) (compared restored : Bool) (differ : Nat) : Nat :=
  digestHead digest blocks 0 tag + place mismatches 192 32 + place primary 224 12 + place (if compared then 1 else 0) 236 1
    + place (if restored then 1 else 0) 237 1 + place differ 256 256

/-- SHARD_DIGEST_COMPUTE (R271, R273, R279). -/
def runCompute (s : State) (h : Half) (c : Cmd) : State :=
  let p := c.packet
  let e := s.envCmd h c
  let d := digestRange e p { mem := s.view }
  let r := d.2.store e (sdRecord p) (bytesOf 64 (digestRecord d.1 (sdBytes p / 256) (sdTag p) 0 0 false false 0))
  s.applyRun h c e r fun _ => okResult (d.1 % 2 ^ 32) (d.1 / 2 ^ 32) 0

def execShardDigestCompute (id : Nat) (s : State) : Host.Outcome State Fault Refusal :=
  .next (onCommand s id 0x0603 (fun c => sdMode c.packet = 0) runCompute)

/-! ### The comparison -/

/-- The source of a replica divergence (R428). -/
def srcDivergence : Nat := 0x040

/-- The list of a SHARD_DIGEST, its primary, and this module's position on its plane. -/
def Cmd.group (c : Cmd) : List Nat := groupList (c.recordNum 0) (sdCount c.packet)
def Cmd.primaryPos (c : Cmd) : Nat := c.group.getD (sdPrimary c.packet) 0

/-- ERR_DIVERGENCE (R275). -/
def divergenceResult (h : Half) (source : Nat) : Result :=
  { status := stDivergence, d0 := rsEngine, d1 := h.part * 1024 + source }

/-- A MESSAGE of a comparison (R274, R379): ARG [0] is 1 for a verdict, and the payload holds DIGEST, MISMATCHES, DIFFER, POLICY. -/
def digestFrame (dst ctx gen tag : Nat) (verdict : Bool) (digest mismatches differ : Nat) (halt : Bool) : Frame :=
  dataFrame 0x8 dst ctx gen tag (if verdict then 1 else 0)
    (bytesOf 8 digest ++ bytesOf 4 mismatches ++ bytesOf 4 (if halt then 1 else 0) ++ bytesOf 32 differ)

/-- A context stops admitting all but what R277 lists, in every half of its footprint. -/
def State.haltCtx (s : State) (ctx : Nat) : State :=
  let go (t : State) (g : Half) : State :=
    if ((t.half g).ctx ctx).alive then t.modHalf g fun x => x.modCtx ctx fun c => { c with halted := true } else t
  go (go s .q) .k

/-- A command's result as its reply gives it: the primary of a comparison that diverged, and a replica that differed, end with
ERR_DIVERGENCE whatever else goes wrong after the verdict (R14, R275). -/
def Cmd.outcome (c : Cmd) (r : Result) : Result :=
  match c.verdict with
  | some v => if v.mismatches ≠ 0 && isError r.status then divergenceResult (sdPlane c.packet) srcDivergence else r
  | none => r

/-- The record that a command writes on the verdict (R272, R274). -/
def verdictRecord (c : Cmd) (digest : Nat) (v : Verdict) (restored : Bool) : List Nat :=
  bytesOf 64 (digestRecord digest (sdBytes c.packet / 256) (sdTag c.packet) v.mismatches c.primaryPos true restored v.differ)

/-- The outcome of a comparison at a replica: its record, and the result that R275 gives it. -/
def State.conclude (s : State) (h : Half) (c : Cmd) (digest : Nat) (v : Verdict) (differs restored : Bool) (r : Run) : State :=
  let p := c.packet
  let e := s.envCmd h c
  let s1 := s.applyRun h { c with fetched := [] } e (r.store e (sdRecord p) (verdictRecord c digest v restored)) fun _ =>
    if differs then divergenceResult (sdPlane p) srcDivergence
    else okResult (digest % 2 ^ 32) (digest / 2 ^ 32) v.mismatches
  if v.halt && v.mismatches ≠ 0 then (match c.ctx with | some i => s1.haltCtx i | none => s1) else s1

/-- A DIVERGENCE event (R275). -/
def State.diverges (s : State) (c : Cmd) : State := s.occur (sdPlane c.packet) srcDivergence c.ctx

/-- The primary compares once it holds every digest, sends the verdicts and frees the place (R274, R275). A divergence stands also where a
replica cannot be reached. -/
def State.judge (s : State) (h : Half) (c : Cmd) (digest : Nat) (arrived : Table) : State :=
  let p := c.packet
  let l := c.group
  let others := (List.range l.length).filter (· ≠ sdPrimary p)
  if !(others.all fun j => (find (l.getD j 0) arrived).isSome) then s else
  let bad := others.filter fun j => arrived.at (l.getD j 0) ≠ digest
  let differ := total (bad.map (2 ^ ·))
  let ctx := c.ctx.getD 0
  let v : Verdict := { src := 0, seq := 0, digest := digest, mismatches := bad.length, differ := differ, halt := sdHalt p }
  let c1 := { c with verdict := some v }
  let s1 := s.modHalf (sdPlane p) fun x => x.modCtx ctx fun k => { k with places := k.places.filter (·.1 ≠ sdTag p) }
  let a := s1.sendAll (sdPlane p) (some c.id) (others.map fun j =>
    digestFrame (l.getD j 0) ctx c.gen (sdTag p) true digest bad.length differ (sdHalt p))
  let s2 := if bad.isEmpty then a.1 else a.1.diverges c
  if a.2 then s2.conclude h c1 digest v (!bad.isEmpty) false { mem := s2.view }
  else
    let s3 := s2.occur h srcUnreachable c.ctx
    if bad.isEmpty then s3.finish h c1 (engineResult h srcUnreachable)
    else s3.conclude h c1 digest v true false { mem := s3.view }

/-- A replica that has its digest sends it to the primary, or, being the primary, looks whether it has all (R274). -/
def State.compare (s : State) (h : Half) (c0 : Cmd) (digest : Nat) : State :=
  let p := c0.packet
  let c := { c0 with digest := some digest, waiting := true, idle := 0, idleOther := 0 }
  let s1 := s.setCmd h c
  let x := s1.half (sdPlane p)
  if c.primaryPos = x.myPos (sdPlane p) then
    s1.judge h c digest ((find (sdTag p) (x.ctx (c.ctx.getD 0)).places).getD [])
  else
    let a := s1.send (sdPlane p) (some c.id) (digestFrame c.primaryPos (c.ctx.getD 0) c.gen (sdTag p) false digest 0 0 false)
    if a.2 then a.1 else (a.1.occur h srcUnreachable c.ctx).finish h c (engineResult h srcUnreachable)

/-- SHARD_DIGEST_COMPUTE_COMPARE: the digest, then the comparison (R273, R274). -/
def runComputeCompare (s : State) (h : Half) (c : Cmd) : State :=
  let e := s.envCmd h c
  let d := digestRange e c.packet { mem := s.view }
  let r := d.2.settle
  if r.stop.isSome || !r.need.isEmpty then s.applyRun h c e d.2 fun _ => okResult 0 0 0
  else (s.countRun (attrKey c.packet) r).compare h c d.1

def execShardDigestComputeCompare (id : Nat) (s : State) : Host.Outcome State Fault Refusal :=
  .next (onCommand s id 0x0603 (fun c => sdMode c.packet = 1) runComputeCompare)

/-- SHARD_DIGEST_COMPARE_RECORD: the DIGEST that the record holds is compared (R273, R274). -/
def execShardDigestCompareRecord (id : Nat) (s : State) : Host.Outcome State Fault Refusal :=
  .next (onCommand s id 0x0603 (fun c => sdMode c.packet = 2) fun s h c => s.compare h c (bits (c.recordNum 1) 0 64))

/-- The waiting SHARD_DIGEST of a context and tag on a plane that is, or is not, the primary's own. -/
def State.digestCmd (s : State) (plane : Half) (ctx tag : Nat) (primary : Bool) : Option (Half × Cmd) :=
  s.allCmds.find? fun c =>
    c.2.ctx = some ctx && pkOpcode c.2.packet = 0x0603 && sdMode c.2.packet ≠ 0 && sdPlane c.2.packet = plane
      && sdTag c.2.packet = tag && c.2.done.isNone && c.2.phase = .running
      && decide (c.2.primaryPos = (s.half plane).myPos plane) = primary

/-- DIGEST_MESSAGE: a digest reaches the primary (R274). It takes a place for its TAG, or finds none and is refused. -/
def takeDigest (h : Half) (s : State) (f : Frame) : Answer :=
  if !Frame.intact f then .refuse s rsSeal else
  let x := s.half h
  let places := (x.ctx f.ctx).places
  let tags := s.placeTags f.ctx
  if !tags.contains f.addr && tags.length ≥ 16 then .refuse s rsField else
  let arrived := put f.src (numOf (f.data.take 8)) ((find f.addr places).getD [])
  let s1 := s.modHalf h fun y => y.modCtx f.ctx fun k => { k with places := put f.addr arrived k.places }
  .done (match s1.digestCmd h f.ctx f.addr true with
    | some (g, c) => (match c.digest with | some d => s1.judge g c d arrived | none => s1)
    | none => s1)

def execDigestMessage (h : Half) (port : Nat) (f : Frame) (s : State) : Host.Outcome State Fault Refusal :=
  .next (if f.arg % 2 = 0 then s.receive h port f 0x8 (takeDigest h) else s)

/-- A differing replica writes its record and reads the primary's range (R274, R276). -/
def State.startRestore (s0 : State) (h : Half) (c : Cmd) (digest : Nat) (v : Verdict) : State :=
  let p := c.packet
  let c1 := { c with verdict := some v, fetched := [], waiting := true, idle := 0, idleOther := 0 }
  let e := s0.envCmd h c
  let r := (({ mem := s0.view } : Run).store e (sdRecord p) (verdictRecord c digest v false)).settle
  let s := (s0.diverges c).applyPart h c1 e r c1
  if r.stop.isSome then s else
  let a := s.sendAll (sdPlane p) (some c.id) ((List.range (sdBytes p / 256)).map fun i =>
    { type := 0x0, dst := c.primaryPos, ctx := c.ctx.getD 0, gen := c.gen, addr := sdRange p + 256 * i, arg := 256 })
  if a.2 then a.1 else (a.1.occur h srcUnreachable c.ctx).finish h c1 (engineResult h srcUnreachable)

/-- A replica owes the acknowledgement of its verdict once its copy is over (R276). -/
def State.ackVerdict (s : State) (c : Cmd) : State :=
  match c.verdict with
  | some v => s.modHalf (sdPlane c.packet) fun x => if x.isDuplicate v.src v.seq then x else (x.markSeen v.src v.seq).owesAck v.src
  | none => s

/-- The blocks read have all come: they replace the range, the digest is computed again, and the verdict is acknowledged
(R276). -/
def State.endRestore (s : State) (h : Half) (c : Cmd) (v : Verdict) : State :=
  let p := c.packet
  let e := s.envCmd h c
  let bs := (List.range (sdBytes p)).map fun i => c.fetched.at (sdRange p + i)
  let r := ({ mem := s.view } : Run).store e (sdRange p) bs
  let d := digestSeals (sdBase p) ((chunks 256 bs).map crc32c)
  (s.conclude h c d v true (d = v.digest) r).ackVerdict c

/-- DIGEST_VERDICT: a replica receives the verdict (R274 to R277). One that comes a second time while the copy runs is not acknowledged
before its end. -/
def takeVerdict (h : Half) (s : State) (f : Frame) : Answer :=
  if !Frame.intact f then .refuse s rsSeal else
  match s.digestCmd h f.ctx f.addr false with
  | none => .done s
  | some (g, c) =>
    match c.digest with
    | none => .done s
    | some own =>
      if c.primaryPos ≠ f.src then .done s
      else if c.verdict.isSome then .later s else
      let v : Verdict :=
        { src := f.src, seq := f.seq, digest := numOf (f.data.take 8), mismatches := numOf ((f.data.drop 8).take 4)
          halt := (f.data.getD 12 0) % 2 = 1, differ := numOf ((f.data.drop 16).take 32) }
      let differs := own ≠ v.digest
      if differs && !v.halt then .later (s.startRestore g c own v)
      else .done ((if differs then s.diverges c else s).conclude g (if differs then { c with verdict := some v } else c) own v differs false
        { mem := s.view })

def execDigestVerdict (h : Half) (port : Nat) (f : Frame) (s : State) : Host.Outcome State Fault Refusal :=
  .next (if f.arg % 2 = 1 then s.receive h port f 0x8 (takeVerdict h) else s)

end Sys2Proof.Machine
end

