-- ==== Sys2Proof/Machine/Checkpoints.lean ====
section
/-! DEFINITION. Checkpoint slots and high-water marks (R408 to R410), preserved ranges (R416), and the neighbour checkpoints that
a job resumes from (R417 to R423). -/

namespace Sys2Proof.Machine

/-! ## CKPT_SLOT_DEFINE (R408, R409) -/

def ckOp (p : Nat) : Nat := pl p 0 3
def ckSlot (p : Nat) : Nat := pl p 8 12
def ckStage (p : Nat) : Nat := pl p 20 3
def ckCxa (p : Nat) : Nat := pl p 32 48
def ckBytes (p : Nat) : Nat := pl p 96 48

/-- The half that owns a slot of a context. -/
def State.slotHome (s : State) (ctx n : Nat) : Option Half :=
  [Half.q, .k].find? fun g => ((s.half g).ctx ctx).slots.any (·.num = n)

/-- A slot of a context in a half. -/
def Ctx.slot? (c : Ctx) (n : Nat) : Option CkptSlot := c.slots.find? (·.num = n)

/-- HELD_MIB of a stage: bytes of its HELD slots in MiB, rounded up (R410). -/
def Ctx.heldMib (c : Ctx) (stage : Nat) : Nat :=
  ceilDiv (total ((c.slots.filter fun k => k.held && k.stage = stage).map (·.bytes))) (2 ^ 20)

/-- HWM_MIB follows HELD_MIB upwards (R410). -/
def Ctx.raiseHwm (c : Ctx) (stage : Nat) : Ctx := { c with hwm := c.hwm.set stage (max (c.hwm.at stage) (c.heldMib stage)) }

/-- A field that an OP does not use must be zero (R408). -/
def ckUnused (p : Nat) : List Check :=
  let op := ckOp p
  checks [(512 + 8, op > 4 && ckSlot p ≠ 0), (512 + 20, op ≠ 1 && op ≠ 7 && ckStage p ≠ 0),
    (512 + 32, (op = 2 || op = 3 || op = 4 || op = 7) && ckCxa p ≠ 0),
    (512 + 96, (op = 2 || op = 3 || op = 4 || op = 7) && ckBytes p ≠ 0)]

/-- The pages of a range. -/
def pagesOf (cxa n : Nat) : List Nat := (List.range (n / frameBytes)).map (cxa / frameBytes + ·)

/-- Frames of a half under a range of a map, by page (R416). -/
def rangeFrames (map : Table) (g : Half) (cxa n : Nat) : List (Nat × Nat) :=
  (pagesOf cxa n).filterMap fun q =>
    let e := map.at q
    if (meKind e = 1 || meKind e = 2) && frameHalf (meFrame e) = g then some (q, meFrame e) else none

def specCkptSlot : OpSpec where
  ring := .c
  lo := 1
  hi := 1
  classes := [0]
  head _ p :=
    let op := ckOp p
    checks [(512, op = 0), (512 + 32, (op = 1 && ckCxa p % 256 ≠ 0) || ((op = 5 || op = 6) && ckCxa p % frameBytes ≠ 0)),
      (512 + 96, (op = 1 && (ckBytes p = 0 || ckBytes p % 256 ≠ 0)) ||
        ((op = 5 || op = 6) && (ckBytes p = 0 || ckBytes p % frameBytes ≠ 0)) || ckCxa p + ckBytes p > 2 ^ 48)]
      ++ ckUnused p ++ reservedPl p [(3, 5), (23, 9), (80, 16), (144, 368)]
  exam s h p x0 :=
    let ctx := pkCtx p
    let home := s.slotHome ctx (ckSlot p)
    let slot := home.bind fun g => ((s.half g).ctx ctx).slot? (ckSlot p)
    let held := match slot with | some k => k.held | none => false
    let all := (s.q.ctx ctx).slots ++ (s.k.ctx ctx).slots
    let c := s.ctxAny h ctx
    let x := match ckOp p with
      | 1 => (x0.badWhen home.isSome (512 + 8)).badWhen
          (all.any fun k => overlaps k.cxa k.bytes (ckCxa p) (ckBytes p)) (512 + 32)
      | 2 => x0.badWhen (home.isNone || held) (512 + 8)
      | 3 => x0.badWhen (home.isNone || !held) (512 + 8)
      | 4 => x0.badWhen (home.isNone || held) (512 + 8)
      | 5 =>
        let full (g : Half) : Bool := !(rangeFrames c.map g (ckCxa p) (ckBytes p)).isEmpty &&
          ((s.half g).preserved.filter fun (r : Preserve) => r.ctx = ctx).length ≥ 64 &&
          !(s.half g).preserved.any fun (r : Preserve) => r.ctx = ctx && r.cxa = ckCxa p && r.bytes = ckBytes p && r.frames = rangeFrames c.map g r.cxa r.bytes
        (x0.bad (x0.env.checkRange (512 + 32) (ckCxa p) (ckBytes p) true true)).badWhen (full .q || full .k) (512 + 32)
      | _ => x0
    x.work h h 1
  mirrored s h p :=
    (match ckOp p with
      | 2 | 3 | 4 => (match s.slotHome (pkCtx p) (ckSlot p) with | some g => g ≠ h | none => false)
      | 5 | 6 => inFootprint (s.ctxAny h (pkCtx p)).footprint h.other
      | _ => false) && s.together h

/-- Change the slot that a command names, in the half that owns it, and let the high-water mark follow (R410). -/
def State.changeSlot (s : State) (h : Half) (c : Cmd) (f : CkptSlot → Option CkptSlot) : State :=
  let ctx := pkCtx c.packet
  let n := ckSlot c.packet
  (match s.slotHome ctx n with
  | none => s
  | some g => s.modHalf g fun x => x.modCtx ctx fun k =>
      match k.slot? n with
      | none => k
      | some slot => ({ k with slots := k.slots.filterMap fun (y : CkptSlot) => if y.num = n then f y else some y }).raiseHwm slot.stage).finish h c
    (okResult 0 0 0)

/-- DEFINE: a FREE slot, owned by the home half of the issuing ring (R409). -/
def execCkptSlotDefine (id : Nat) (s : State) : Host.Outcome State Fault Refusal :=
  .next (onCommand s id 0x0A01 (fun c => ckOp c.packet = 1) fun t h c =>
    let p := c.packet
    (t.modHalf h fun x => x.modCtx (pkCtx p) fun k =>
      { k with slots := k.slots ++ [{ num := ckSlot p, stage := ckStage p, cxa := ckCxa p, bytes := ckBytes p }] }).finish h c
        (okResult 0 0 0))

/-- HOLD: a FREE slot becomes HELD (R409). -/
def execCkptSlotHold (id : Nat) (s : State) : Host.Outcome State Fault Refusal :=
  .next (onCommand s id 0x0A01 (fun c => ckOp c.packet = 2) fun t h c => t.changeSlot h c fun y => some { y with held := true })

/-- RELEASE: a HELD slot becomes FREE (R409). -/
def execCkptSlotRelease (id : Nat) (s : State) : Host.Outcome State Fault Refusal :=
  .next (onCommand s id 0x0A01 (fun c => ckOp c.packet = 3) fun t h c => t.changeSlot h c fun y => some { y with held := false })

/-- DELETE: a FREE slot goes (R409). -/
def execCkptSlotDelete (id : Nat) (s : State) : Host.Outcome State Fault Refusal :=
  .next (onCommand s id 0x0A01 (fun c => ckOp c.packet = 4) fun t h c => t.changeSlot h c fun _ => none)

/-- HWM_RESET: the mark of a stage falls to its current HELD_MIB (R409). -/
def execHwmReset (id : Nat) (s : State) : Host.Outcome State Fault Refusal :=
  .next (onCommand s id 0x0A01 (fun c => ckOp c.packet = 7) fun t h c =>
    let stage := ckStage c.packet
    (t.modHalf h fun x => x.modCtx (pkCtx c.packet) fun k => { k with hwm := k.hwm.set stage (k.heldMib stage) }).finish h c
      (okResult 0 0 0))

/-! ## PRESERVE and UNPRESERVE (R416) -/

/-- PRESERVE: every half that holds frames of the range records them for the context ID (R416). -/
def execPreserve (id : Nat) (s : State) : Host.Outcome State Fault Refusal :=
  .next (onCommand s id 0x0A01 (fun c => ckOp c.packet = 5) fun t h c =>
    let p := c.packet
    let map := (t.ctxAny h (pkCtx p)).map
    let mark (u : State) (g : Half) : State :=
      let fs := rangeFrames map g (ckCxa p) (ckBytes p)
      let r : Preserve := { ctx := pkCtx p, cxa := ckCxa p, bytes := ckBytes p, frames := fs }
      if fs.isEmpty then u else u.modHalf g fun x =>
        if x.preserved.contains r then x else { x with preserved := x.preserved ++ [r] }
    (mark (mark t .q) .k).finish h c (okResult 0 0 0))

/-- The frames of a half whose mark an UNPRESERVE clears: those recorded under a page of its range, and those mapped there now. -/
def HalfState.unmarked (x : HalfState) (map : Table) (g : Half) (ctx cxa n : Nat) : List Nat :=
  let pages := pagesOf cxa n
  let mine := (x.preserved.filter (·.ctx = ctx)).flatMap (·.frames)
  let mapped := (rangeFrames map g cxa n).map (·.2)
  (mine.filter fun f => pages.contains f.1 || mapped.contains f.2).map (·.2)

/-- Marks of frames go; ranges without a frame left go too. -/
def HalfState.unmark (x : HalfState) (ctx : Nat) (fs : List Nat) : HalfState :=
  let strip (p : Preserve) : Preserve := if p.ctx = ctx then { p with frames := p.frames.filter fun f => !fs.contains f.2 } else p
  { x with preserved := (x.preserved.map strip).filter fun p => !p.frames.isEmpty }

/-- UNPRESERVE: the marks of the range are cleared; frames that the context does not name become scrub-pending (R416). -/
def execUnpreserve (id : Nat) (s : State) : Host.Outcome State Fault Refusal :=
  .next (onCommand s id 0x0A01 (fun c => ckOp c.packet = 6) fun t h c =>
    let p := c.packet
    let ctx := pkCtx p
    let k := t.ctxAny h ctx
    let clear (u : State) (g : Half) : State :=
      let fs := (u.half g).unmarked k.map g ctx (ckCxa p) (ckBytes p)
      let loose := fs.filter fun f => !k.frames.contains f
      u.modHalf g fun x =>
        let y := x.unmark ctx fs
        { y with scrub := y.scrub ++ (loose.filter fun f => !y.scrub.any (·.1 = f)).eraseDups.map (·, ctx) }
    (clear (clear t .q) .k).finish h c (okResult 0 0 0))

/-! ## Manifests (R418) -/

/-- Sources of a checkpoint (R428). -/
def srcManifest : Nat := 0x042
def srcCkptDivergence : Nat := 0x043

/-- A manifest as one number (R418). -/
def manifest (valid : Bool) (tag bytes pos digest stroke : Nat) : Nat :=
  place (if valid then 1 else 0) 0 1 + place tag 32 32 + place bytes 64 48 + place pos 112 16 + place digest 128 64 + place stroke 192 64

/-- Does a manifest hold a complete checkpoint of a tag and size (R420)? -/
def manifestOk (m tag bytes : Nat) : Bool := bitSet m 0 && bits m 32 32 = tag && bits m 64 48 = bytes

/-- Blocks of context memory in ascending order, each with its seal checked. -/
def readBlocks (e : Env) : Nat → Nat → Run → List (List Nat) × Run
  | _, 0, r => ([], r)
  | cxa, n + 1, r =>
    if r.stop.isSome then ([], r) else
    let x := r.load e cxa 256
    let y := readBlocks e (cxa + 256) n x.2
    (x.1 :: y.1, y.2)

/-- The digest of blocks with BLOCK_BASE = 0 (R271, R418). -/
def blocksDigest (bs : List (List Nat)) : Nat := digestSeals 0 (bs.map crc32c)

/-! ## NEIGHBOUR_CKPT (R417 to R420) -/

def ncSrc (p : Nat) : Nat := pl p 0 48
def ncDst (p : Nat) : Nat := pl p 64 48
def ncBytes (p : Nat) : Nat := pl p 128 48
def ncManifest (p : Nat) : Nat := pl p 192 48
def ncTag (p : Nat) : Nat := pl p 256 32
def ncVerify (p : Nat) : Bool := pl p 288 1 = 1
def ncHalt (p : Nat) : Bool := pl p 289 1 = 1
def ncPlane (p : Nat) : Half := Half.ofPart (pl p 290 1)

/-- Work counts of both commands (R423). -/
def ckptWork (p bytes rd wr : Nat) : Nat :=
  match pkClass p with
  | 11 => bytes
  | 14 => rd
  | 15 => wr
  | _ => 1

def specNeighbourCkpt : OpSpec where
  ring := .c
  lo := 1
  hi := 2
  classes := [0, 11, 14, 15]
  head e p :=
    checks [(512, ncSrc p % 256 ≠ 0 || overlaps (ncSrc p) (ncBytes p) (ncDst p) (ncBytes p) ||
          overlaps (ncSrc p) (ncBytes p) (ncManifest p) 64),
        (512 + 64, ncDst p % 256 ≠ 0), (512 + 128, ncBytes p % 256 ≠ 0), (512 + 192, ncManifest p % 64 ≠ 0),
        (512 + 289, !ncVerify p && ncHalt p), (512 + 290, outside e (ncPlane p))]
      ++ reservedPl p [(48, 16), (112, 16), (176, 16), (240, 16), (299, 213), (512, 512 * (pkUnits p - 1))]
  busy := moversBusy
  domains := moverDomains
  exam _ h p x0 :=
    let x := x0.range 512 (ncSrc p) (ncBytes p) false
    { x with empty := ncBytes p = 0 }.work h h (ckptWork p (ncBytes p) (ncBytes p) 0)
  mirrored s h p := ncPlane p ≠ h && s.together h

/-- A frame of a NEIGHBOUR_CKPT or NEIGHBOUR_RESTORE: it names a CXA of the receiver's own map. -/
def ckptRead (c : Cmd) (pos cxa : Nat) : Frame :=
  { type := 0x0, dst := pos, ctx := c.ctx.getD 0, gen := c.gen, addr := cxa, arg := 256 }

/-- Write frames of whole blocks, or of a manifest, to another module's own map. -/
def ckptWrite (c : Cmd) (pos cxa : Nat) (bs : List Nat) : Frame := dataFrame 0x2 pos (c.ctx.getD 0) c.gen cxa bs.length bs

/-- The next stage of a command that has sent what the last one sends; a destination that cannot be reached ends it (R388). -/
def State.ckptStage (s : State) (h : Half) (c : Cmd) (plane : Half) (fs : List Frame) : State :=
  let a := (s.setCmd h { c with cursor := c.cursor + 1, idle := 0, idleOther := 0 }).sendAll plane (some c.id) fs
  if a.2 then a.1 else (a.1.occur h srcUnreachable c.ctx).finish h c (engineResult h srcUnreachable)

/-- The manifest that a WRITE leaves while its data is on the way: VALID is 0, and what DIGEST and DONE_STROKE hold is free. -/
def State.openManifest (s : State) (p pos : Nat) : Nat :=
  manifest false (ncTag p) (ncBytes p) pos
    ((Config.freeWord s.drawnFree).toNat + 2 ^ 32 * (Config.freeWord (s.drawnFree + 1)).toNat)
    ((Config.freeWord (s.drawnFree + 2)).toNat + 2 ^ 32 * (Config.freeWord (s.drawnFree + 3)).toNat)

/-- A WRITE (R419), one stage at a time, each after the acknowledgement of the one before: the manifest without VALID; the data,
with its digest; the manifest with VALID. -/
def runCkptWrite (s : State) (h : Half) (c : Cmd) : State :=
  let p := c.packet
  let plane := ncPlane p
  let pos := (s.half plane).neighbour plane 1
  let me := (s.half plane).myPos plane
  if s.hasUnacked c.id then s else
  match c.cursor with
  | 0 => { s.ckptStage h c plane [ckptWrite c pos (ncManifest p) (bytesOf 64 (s.openManifest p me))] with drawnFree := s.drawnFree + 4 }
  | 1 =>
    let e := s.envCmd h c
    let x := readBlocks e (ncSrc p) (ncBytes p / 256) { mem := s.view }
    if x.2.stop.isSome || !x.2.need.isEmpty then s.applyRun h c e x.2 fun _ => okResult 0 0 0
    else
      (s.countRun (attrKey p) x.2).ckptStage h { c with digest := some (blocksDigest x.1) } plane
        (x.1.zipIdx.map fun b => ckptWrite c pos (ncDst p + 256 * b.2) b.1)
  | _ =>
    let d := c.digest.getD 0
    let a := s.sendAll plane (some c.id)
      [ckptWrite c pos (ncManifest p) (bytesOf 64 (manifest true (ncTag p) (ncBytes p) me d (s.now h)))]
    if a.2 then a.1.finish h c (okResult (d % 2 ^ 32) (d / 2 ^ 32) 0)
    else (a.1.occur h srcUnreachable c.ctx).finish h c (engineResult h srcUnreachable)

def execNeighbourCkptWrite (id : Nat) (s : State) : Host.Outcome State Fault Refusal :=
  .next (onCommand s id 0x0A02 (fun c => !ncVerify c.packet) runCkptWrite)

/-- Bytes that a read of another module has brought, from a CXA on. -/
def Cmd.fetchedBytes (c : Cmd) (cxa n : Nat) : List Nat := (List.range n).map fun i => c.fetched.at (cxa + i)

/-- A manifest that does not match ends the command (R420, R421). -/
def State.manifestFails (s : State) (h : Half) (c : Cmd) (plane : Half) : State :=
  (s.occur plane srcManifest c.ctx).finish h c (engineResult plane srcManifest)

/-- Copies that differ although both are intact (R354, R420, R421). -/
def State.ckptDiverges (s : State) (h : Half) (c : Cmd) (plane : Half) (halt : Bool) : State :=
  let s1 := (s.finish h c (divergenceResult plane srcCkptDivergence)).occur plane srcCkptDivergence c.ctx
  if halt then (match c.ctx with | some i => s1.haltCtx i | none => s1) else s1

/-- A VERIFY (R420), one stage at a time: the manifest is read and checked, the area is read, and the blocks are compared. Under
PRIMARY_WINS the differing blocks are written from SRC, and the manifest with the digest of SRC. -/
def runCkptVerify (s : State) (h : Half) (c : Cmd) : State :=
  let p := c.packet
  let plane := ncPlane p
  let pos := (s.half plane).neighbour plane 1
  let n := ncBytes p / 256
  if s.hasUnacked c.id then s else
  match c.cursor with
  | 0 => s.ckptStage h c plane [ckptRead c pos (ncManifest p / 256 * 256)]
  | 1 =>
    if manifestOk (numOf (c.fetchedBytes (ncManifest p) 64)) (ncTag p) (ncBytes p) then
      s.ckptStage h c plane ((List.range n).map fun i => ckptRead c pos (ncDst p + 256 * i))
    else s.manifestFails h c plane
  | _ =>
    let e := s.envCmd h c
    let x := readBlocks e (ncSrc p) n { mem := s.view }
    let d := blocksDigest x.1
    let differ := x.1.zipIdx.filter fun b => b.1 ≠ c.fetchedBytes (ncDst p + 256 * b.2) 256
    if x.2.stop.isSome || !x.2.need.isEmpty then s.applyRun h c e x.2 fun _ => okResult 0 0 0
    else
      let s1 := s.countRun (attrKey p) x.2
      if differ.isEmpty then s1.finish h c (okResult (d % 2 ^ 32) (d / 2 ^ 32) 0)
      else if ncHalt p then s1.ckptDiverges h c plane true
      else
        let m := setBits (numOf (c.fetchedBytes (ncManifest p) 64)) 128 64 d
        let a := s1.sendAll plane (some c.id)
          ((differ.map fun b => ckptWrite c pos (ncDst p + 256 * b.2) b.1) ++ [ckptWrite c pos (ncManifest p) (bytesOf 64 m)])
        a.1.ckptDiverges h c plane false

def execNeighbourCkptVerify (id : Nat) (s : State) : Host.Outcome State Fault Refusal :=
  .next (onCommand s id 0x0A02 (fun c => ncVerify c.packet) runCkptVerify)

/-! ## NEIGHBOUR_RESTORE (R421) -/

def nrDst (p : Nat) : Nat := pl p 0 48
def nrSrc (p : Nat) : Nat := pl p 64 48
def nrBytes (p : Nat) : Nat := pl p 128 48
def nrManifest (p : Nat) : Nat := pl p 192 48
def nrTag (p : Nat) : Nat := pl p 256 32
def nrPlane (p : Nat) : Half := Half.ofPart (pl p 288 1)
def nrHolder (p : Nat) : Nat := pl p 289 12

def specNeighbourRestore : OpSpec where
  ring := .c
  lo := 1
  hi := 2
  classes := [0, 11, 14, 15]
  head e p :=
    checks [(512, nrDst p % 256 ≠ 0), (512 + 64, nrSrc p % 256 ≠ 0), (512 + 128, nrBytes p % 256 ≠ 0),
        (512 + 288, outside e (nrPlane p))]
      ++ reservedPl p [(48, 16), (112, 16), (176, 16), (240, 16), (301, 211), (512, 512 * (pkUnits p - 1))]
  exam s h p x0 :=
    let x := x0.range 512 (nrDst p) (nrBytes p) true
    let own := nrHolder p = (s.half (nrPlane p)).myPos (nrPlane p)
    { x with empty := nrBytes p = 0 }.work h h (ckptWork p (nrBytes p) (if own then nrBytes p else 0) (nrBytes p))
  mirrored s h p := nrPlane p ≠ h && s.together h

/-- The copy of a restore (R421): blocks replace DST, and their digest must be the manifest's. -/
def State.restoreBlocks (s : State) (h : Half) (c : Cmd) (m : Nat) (x : List (List Nat) × Run) : State :=
  let p := c.packet
  let e := s.envCmd h c
  let d := blocksDigest x.1
  let r := x.2.store e (nrDst p) x.1.flatten
  if r.stop.isNone && r.need.isEmpty && d ≠ bits m 128 64 then
    ((s.countRun (attrKey p) r).veilRange e (nrDst p) (nrBytes p)).ckptDiverges h c (nrPlane p) true
  else s.applyRun h c e r fun _ => okResult (d % 2 ^ 32) (d / 2 ^ 32) 0

/-- NEIGHBOUR_RESTORE, one stage at a time: the manifest is read and checked, the area is read, and the copy is made. A module that
is itself the holder reads its own memory (R424). -/
def runRestore (s : State) (h : Half) (c : Cmd) : State :=
  let p := c.packet
  let plane := nrPlane p
  let pos := nrHolder p
  let n := nrBytes p / 256
  if s.hasUnacked c.id then s
  else if pos = (s.half plane).myPos plane then
    let e := s.envCmd h c
    let m := ({ mem := s.view } : Run).loadNum e (nrManifest p) 64
    if m.2.stop.isSome || !m.2.need.isEmpty then s.applyRun h c e m.2 fun _ => okResult 0 0 0
    else if manifestOk m.1 (nrTag p) (nrBytes p) then s.restoreBlocks h c m.1 (readBlocks e (nrSrc p) n m.2)
    else s.manifestFails h c plane
  else match c.cursor with
  | 0 => s.ckptStage h c plane ((blocksOf 256 [nrManifest p, nrManifest p + 63]).map fun b => ckptRead c pos (256 * b))
  | 1 =>
    if manifestOk (numOf (c.fetchedBytes (nrManifest p) 64)) (nrTag p) (nrBytes p) then
      s.ckptStage h c plane ((List.range n).map fun i => ckptRead c pos (nrSrc p + 256 * i))
    else s.manifestFails h c plane
  | _ =>
    s.restoreBlocks h { c with fetched := [] } (numOf (c.fetchedBytes (nrManifest p) 64))
      ((List.range n).map fun i => c.fetchedBytes (nrSrc p + 256 * i) 256, { mem := s.view })

def execNeighbourRestore (id : Nat) (s : State) : Host.Outcome State Fault Refusal :=
  .next (onCommand s id 0x0A03 (fun _ => true) runRestore)

end Sys2Proof.Machine
end

