-- ==== Sys2Proof/Machine/Clock.lean ====
section
/-! DEFINITION. The Stroke Unit copies (R43 to R49, R499): the stroke exchange word, choice of parent, states of a copy, the stroke
master and STROKE_REF. -/

namespace Sys2Proof.Machine

/-! ## The exchange word (R47) -/

def xwTx (w : Nat) : Nat := bits w 0 64
def xwEcho (w : Nat) : Nat := bits w 64 64
def xwTurn (w : Nat) : Nat := bits w 128 32
def xwPos (w : Nat) : Nat := bits w 160 12
def xwValid (w : Nat) : Bool := bitSet w 172
def xwHops (w : Nat) : Nat := bits w 173 8
def xwState (w : Nat) : Nat := bits w 181 3
def xwRootQ (w : Nat) : Bool := bitSet w 184

/-- The link that carries exchange words: torus ports 0 to 3, and 8 for the Siphon, as STU_STATUS.PARENT numbers it. -/
def HalfState.timePort (x : HalfState) (p : Nat) : Port := if p = 8 then x.timeLink else x.port p

def HalfState.setTimePort (x : HalfState) (p : Nat) (v : Port) : HalfState :=
  if p = 8 then { x with timeLink := v } else x.setPort p v

/-- Does a link carry exchange words: a torus port whose receiver holds block lock, or the Siphon while it is up (R47)? -/
def State.timeLinkUp (s : State) (h : Half) (p : Nat) : Bool :=
  let x := s.half h
  x.boot ≠ .off && !x.resetting
    && ((p < 4 && (x.portState h p = 1 || x.portState h p = 2)) || (p = 8 && s.siphonUp))

/-- The signed difference of two counts of 64 bits. -/
def countDiff (a b : Nat) : Int := signed ((a + 2 ^ 64 - b % 2 ^ 64) % 2 ^ 64) 64

/-! ## States and parent (R46 to R49) -/

/-- PARENT of STU_STATUS: 0 to 3 the Q ports, 4 to 7 the K ports, 8 the Siphon, 15 none (R44). -/
def parentCode (h : Half) (p : Nat) : Nat := if p = 8 then 8 else 4 * h.part + p

/-- The link of the parent, if there is one. -/
def HalfState.parentLink (x : HalfState) (h : Half) : Option Nat :=
  let c := bits (x.stuStatus h) 3 4
  if c = 8 then some 8 else if c = 15 then none else some (c % 4)

/-- Write STATE, PARENT and HOPS of STU_STATUS. -/
def HalfState.setStu (x : HalfState) (h : Half) (st parent hops : Nat) : HalfState :=
  let v := x.stuStatus h
  x.setCell (hubKey bSTU 3) (setBits (setBits (setBits v 0 3 st) 3 4 parent) 8 8 hops)

/-- May a copy follow the sender of a word (R47, R48)? `rootQ`: only chains that end at a Q-half master. -/
def xwEligible (w : Nat) (rootQ : Bool) : Bool :=
  xwValid w && (xwState w = 2 || xwState w = 4) && xwHops w < 0xFE && (!rootQ || xwRootQ w)

/-- Is the K-half copy the one of the master module (R48)? -/
def State.masterModule (s : State) : Bool := s.q.stuState .q == 4

/-- Order of candidates: lowest MASTER_POS, fewest HOPS, then N, E, S, W (R47). -/
def xwRank (w p : Nat) : Nat := (xwPos w * 256 + xwHops w) * 4 + p

/-- The link that a copy takes as parent (R47, R48). -/
def State.chooseParent (s : State) (h : Half) : Option Nat :=
  if h = .k && s.siphonUp then some 8 else
  let x := s.half h
  let fit (p : Nat) : Bool := s.timeLinkUp h p && xwEligible (x.port p).lastWord (h = .k && s.masterModule)
  match least (([0, 1, 2, 3].filter fit).map fun p => xwRank (x.port p).lastWord p) with
  | some r => some (r % 4)
  | none => none

def srcMasterConflict : Nat := 0x010
def srcHoldover : Nat := 0x011

/-- HOPS of a copy with a parent: a Siphon crossing adds none (R47). -/
def hopsFrom (w p : Nat) : Nat := if p = 8 then xwHops w else min (xwHops w + 1) 0xFE

/-- A copy that is not the Q-half master chooses its parent again (R47 to R49). A copy with no parent enters HOLDOVER, stays ACQUIRING
before READY, or, in the K half of the master module, is the source of its plane; a copy that is FREE stays so while it never had
a parent (R504). A copy that has been READY since it left reset counts as READY (R42). -/
def State.refreshParent (s : State) (h : Half) : State :=
  let x := s.half h
  let st := x.stuState h
  let ready : Bool := x.boot = .ready || x.wasReady
  let orphan : Bool := bits (x.stuStatus h) 3 4 = 0xF
  if x.boot = .off || x.resetting || (h = .q && st = 4) then s else
  match s.chooseParent h with
  | some p =>
    let hops := hopsFrom (x.timePort p).lastWord p
    if bits (x.stuStatus h) 3 4 = parentCode h p then s.modHalf h fun y => y.setStu h st (parentCode h p) hops
    else
      let st' := if ready then (if st = 4 then 3 else st) else 1
      s.modHalf h fun y => (y.setStu h st' (parentCode h p) hops).setTimePort p { y.timePort p with goodRun := 0 }
  | none =>
    if h = .k && s.masterModule then s.modHalf h fun y => y.setStu h 4 0xF 0
    else if ready then
      if (st = 0 && orphan) || st = 3 then s.modHalf h fun y => y.setStu h st 0xF 0xFF
      else (s.modHalf h fun y => y.setStu h 3 0xF 0xFF).occur h srcHoldover none
    else s.modHalf h fun y => y.setStu h (if st = 0 then 0 else 1) 0xF 0xFF

/-- The Q-half copy stops acting as master and disciplines itself (R45, R46); a READY copy is not LOCKED before R46 says so. -/
def State.yieldMaster (s : State) : State :=
  let s1 := (s.modHalf .q fun x => x.setStu .q (if x.boot = .ready || x.wasReady then 2 else 1) 0xF 0xFF).refreshParent .q
  let s2 := if s1.q.stuState .q = 2 then s1.modHalf .q fun x => x.setField .q (hubKey bSTU 3) 0 3 3 else s1
  s2.refreshParent .k

/-- A rate correction of at most ±50 ppm towards an offset; how firmware chooses it is left open (R46). -/
def slewFor (free : Nat) (offset : Int) : Int :=
  let m : Int := (free % 51 : Nat)
  if offset = 0 then 0 else if offset < 0 then -m else m

/-! ## Exchange -/

/-- The word that a copy sends (R47). -/
def State.exchangeWord (s : State) (h : Half) (p subcount : Nat) : Nat :=
  let x := s.half h
  let v := x.timePort p
  let tx := (16 * x.count + subcount % 16) % 2 ^ 64
  let echo := xwTx v.lastWord
  let turn := if echo = 0 then 0 else (tx + 2 ^ 64 - v.lastArrival % 2 ^ 64) % 2 ^ 64
  let st := x.stuState h
  let about : Nat :=
    if st = 4 then place (x.myPos h) 160 12 + place 1 172 1 + place (if h = .q then 1 else 0) 184 1
    else match x.parentLink h with
      | some l =>
        let w := (x.timePort l).lastWord
        place (xwPos w) 160 12 + place (if xwValid w then 1 else 0) 172 1 + place (hopsFrom w l) 173 8
          + place (if xwRootQ w then 1 else 0) 184 1
      | none => 0
  place tx 0 64 + place echo 64 64 + place turn 128 32 + about + place st 181 3

/-- Is a word due on a link: the first one, or 1,024 strokes after the one before it (R46, R47)? -/
def Port.wordDue (v : Port) (count : Nat) : Bool := match v.sentAt with | none => true | some t => t + 1024 ≤ count

/-- STROKE_EXCHANGE_SEND: a word goes out on a link 1,024 strokes after the one before it (R46, R47), across the Siphon in the TIME
class (R26). -/
def execStrokeExchangeSend (h : Half) (port subcount : Nat) (s : State) : Host.Outcome State Fault Refusal :=
  let x := s.half h
  let v := x.timePort port
  .next (if s.timeLinkUp h port && v.wordDue x.count then
      s.modHalf h fun y => (y.setTimePort port { v with sentWord := s.exchangeWord h port subcount, sentAt := some x.count }).crossing
        .time (if port = 8 then 32 else 0)
    else s)

/-- A moment of a counter that has stepped: what was so many strokes ago still is (before stroke 0, nothing is kept). -/
def moveMoment (before after : Nat) (t : Option Nat) : Option Nat :=
  t.bind fun n => if before ≤ after + n then some (after + n - before) else none

/-- A port after a step of its copy: words were sent and received as long ago as before (R47 TURNAROUND). -/
def Port.moved (v : Port) (before after : Nat) : Port :=
  { v with
    sentAt := moveMoment before after v.sentAt
    triedAt := moveMoment before after v.triedAt
    lastArrival := (v.lastArrival + 16 * after + 2 ^ 64 - 16 * before % 2 ^ 64) % 2 ^ 64 }

/-- The counter of a half steps (R46): intervals that run in strokes, from the last admission, the last attempt on the Siphon and the
words sent, are as long as before. -/
def HalfState.stepTo (x : HalfState) (count : Nat) : HalfState :=
  { x with
    count := count % 2 ^ 64
    lastAdmission := moveMoment x.count count x.lastAdmission
    siphonTry := moveMoment x.count count x.siphonTry
    rxOwed := x.rxOwed.map fun e => (e.1, (moveMoment x.count count (some e.2)).getD 0)
    timeLink := x.timeLink.moved x.count count
    ports := x.ports.map fun v => v.moved x.count count }

/-- The offset of a partner from the word it sent, in 1/16 stroke (R47); none before it has echoed a word. -/
def xwOffset (arrival w : Nat) : Option Int :=
  if xwEcho w = 0 then none else
  let d := (countDiff arrival (xwEcho w) - (xwTurn w : Int)) / 2
  some (countDiff (xwTx w) arrival + d)

/-- Do the counts of the two copies of the module differ by at most 1 stroke (R24, R32)? -/
def State.inStep (s : State) : Bool := s.q.count ≤ s.k.count + 1 && s.k.count ≤ s.q.count + 1

/-- A copy measures its parent (R46, R49): ACQUIRING, before READY, it steps to its parent's value, from then on it slews; 64 good
exchanges in a row lock it, across the Siphon only within 1 stroke (R24), and a locked copy more than 100 strokes away goes to
HOLDOVER. `arrival`: the sub-count of the word, in 1/16 stroke. -/
def State.followParent (s : State) (h : Half) (p arrival : Nat) (offset : Int) : State :=
  let x := s.half h
  let st := x.stuState h
  let good : Bool := -4 < offset && offset < 4
  let run := if good then (x.timePort p).goodRun + 1 else 0
  let steps := st = 1 && x.boot ≠ .ready && !x.wasReady
  let s1 := ({ s with drawnFree := s.drawnFree + 1 } : State).modHalf h fun y =>
    let v := y.setField h (hubKey bSTU 3) 16 16 (unsigned offset 16)
    let w := v.setTimePort p { v.timePort p with goodRun := run }
    if steps then { w.stepTo ((((16 * w.count + arrival % 16 : Nat) : Int) + offset).toNat / 16) with slewPpm := 0 }
    else { w with slewPpm := slewFor (Config.freeWord s.drawnFree).toNat offset }
  if st = 2 && (1600 < offset || offset < -1600) then
    (s1.modHalf h fun y => y.setField h (hubKey bSTU 3) 0 3 3).occur h srcHoldover none
  else if 64 ≤ run && st ≠ 2 && (p ≠ 8 || s1.inStep) then s1.modHalf h fun y => y.setField h (hubKey bSTU 3) 0 3 2
  else s1

/-- STROKE_EXCHANGE_RECEIVE: a word arrives at a sub-count of the current stroke (R45 to R49). -/
def execStrokeExchangeReceive (h : Half) (port arrival word : Nat) (s : State) : Host.Outcome State Fault Refusal :=
  .next (if !s.timeLinkUp h port then s else
    let x := s.half h
    let r := (16 * x.count + arrival % 16) % 2 ^ 64
    let s1 := s.modHalf h fun y => y.setTimePort port { y.timePort port with lastWord := word % 2 ^ 256, lastArrival := r }
    -- a master that hears of one at a lower position stops acting as master (R45)
    let yields : Bool := h = .q && x.stuState h = 4 && xwValid word && xwPos word < x.myPos h
    let s4 := if yields then (s1.yieldMaster).occur h srcMasterConflict none else s1.refreshParent h
    match xwOffset r word with
    | some o => if (s4.half h).parentLink h = some port && (s4.half h).stuState h ≠ 4 then s4.followParent h port arrival o else s4
    | none => s4)

/-! ## The master (R45, R499) -/

/-- REF_PERIOD in 1/16 stroke: zero acts as 0x64 (R44). -/
def HalfState.refPeriod (x : HalfState) (h : Half) : Nat :=
  let n := bits (x.stuCfg h) 8 16
  16 * 1000000 * (if n = 0 then 0x64 else n)

/-- STROKE_REF_EDGE: the master with REF_EN timestamps an edge to 1/16 stroke and steers its rate by it; an edge more than 100 strokes
from its place is ignored, and three such edges in a row restart the capture (R45, R499). -/
def execStrokeRefEdge (subcount : Nat) (s : State) : Host.Outcome State Fault Refusal :=
  .next (if s.q.boot = .off || s.q.resetting || s.q.stuState .q ≠ 4 || !bitSet (s.q.stuCfg .q) 1 then s else
    let t := 16 * s.q.count + subcount % 16
    match s.q.refBase with
    | none => s.modHalf .q fun x => { x with refBase := some t, refMisplaced := 0 }
    | some b =>
      let per := s.q.refPeriod .q
      let k := (t - b + per / 2) / per
      let err : Int := (t : Int) - ((b + k * per : Nat) : Int)
      if 1600 < err || err < -1600 then
        s.modHalf .q fun x =>
          if 2 ≤ x.refMisplaced then { x with refBase := none, refMisplaced := 0, refIgnored := x.refIgnored + 1 }
          else { x with refMisplaced := x.refMisplaced + 1, refIgnored := x.refIgnored + 1 }
      else
        ({ s with drawnFree := s.drawnFree + 1 } : State).modHalf .q fun x => { x with refMisplaced := 0, slewPpm := slewFor (Config.freeWord s.drawnFree).toNat (-err) })

/-- A commit of STU_CFG (R44, R45): MASTER makes the Q-half copy the master or ends its part as one; REF_EN begins a capture. -/
def State.commitStu (s : State) (before : Nat) : State :=
  let now := s.q.stuCfg .q
  let s1 := if bitSet now 1 ≠ bitSet before 1 then s.modHalf .q fun x => { x with refBase := none, refMisplaced := 0 } else s
  if bitSet now 0 = bitSet before 0 then s1
  else if bitSet now 0 then (s1.modHalf .q fun x => x.setStu .q 4 0xF 0).refreshParent .k
  else if s1.q.stuState .q = 4 then s1.yieldMaster
  else s1

/-- A write of STU_EPOCH_OFFSET: reported in gauge headers and in a trace record, and used for nothing (R43, R463). -/
def HalfState.writeEpochOffset (x : HalfState) (v : Nat) : HalfState :=
  (x.setCell (hubKey bSTU 1) (v % 2 ^ 64)).traceEvent 9 0 0 (v % 2 ^ 64)

def execStuEpochOffsetWrite (h : Half) (value : Nat) (s : State) : Host.Outcome State Fault Refusal :=
  .next (if (s.half h).boot = .off || (s.half h).resetting then s else s.modHalf h fun x => x.writeEpochOffset value)

end Sys2Proof.Machine
end

