-- ==== Sys2Proof/Machine/Wellhead.lean ====
section
/-! DEFINITION. Embedding tables as data (R282 to R284, R312, R313) and the Wellhead of a die (R299 to R305, R332): which entry owns a
row, how the owner die reads and writes it through its line cache, hot set or stacks. -/

namespace Sys2Proof.Machine

/-! ## Tables -/

/-- A field of a table's payload. -/
def TableDef.fld (t : TableDef) (lo w : Nat) : Nat := bits t.payload lo w
def TableDef.scored (t : TableDef) : Bool := t.fld 9 1 = 1
def TableDef.touched (t : TableDef) : Bool := t.fld 10 1 = 1
def TableDef.pinned (t : TableDef) : Bool := t.fld 11 1 = 1
def TableDef.fmt (t : TableDef) : Nat := t.fld 12 3
def TableDef.width (t : TableDef) : Nat := t.fld 16 13
def TableDef.rows (t : TableDef) : Nat := t.fld 32 48
def TableDef.slot (t : TableDef) : Nat := t.fld 256 12
def TableDef.fixExp (t : TableDef) : Int := signed (t.fld 272 8) 8
def TableDef.masterless (t : TableDef) : Bool := t.fld 512 1 = 1
def TableDef.mEn (t : TableDef) : Bool := t.fld 513 1 = 1
def TableDef.vEn (t : TableDef) : Bool := t.fld 514 1 = 1
/-- A signed companion offset. -/
def TableDef.off (t : TableDef) (lo : Nat) : Int := signed (t.fld lo 64) 64
def TableDef.stageBytes (t : TableDef) : Nat := t.fld (1024 + 192) 64

/-- The pitch of a row of `n` bytes (R283). -/
def rowPitch (n : Nat) : Nat :=
  if n ≤ 1024 then ([64, 128, 256, 512].find? fun k => n ≤ k).getD 1024 else roundUp n 256

def TableDef.pitch (t : TableDef) : Nat := rowPitch (t.width * fmtBytes t.fmt)
/-- A wide table (R283). -/
def TableDef.wide (t : TableDef) : Bool := t.width * fmtBytes t.fmt > 1024

/-- Pitches of the companion arrays (R313). -/
def TableDef.masterPitch (t : TableDef) : Nat := roundUp (4 * t.width) 256
def TableDef.momentPitch (t : TableDef) : Nat := roundUp (132 * ceilDiv t.width 128) 256
def TableDef.shadowPitch (t : TableDef) : Nat := roundUp (64 + 8 * t.width) 256

/-- The address of companion data of row `k` of an entry (R313). -/
def TableDef.companion (t : TableDef) (e : Shard) (lo pitch k : Nat) : Nat := ((e.cxa : Int) + t.off lo + (k * pitch : Nat)).toNat
def TableDef.rowAt (t : TableDef) (e : Shard) (row : Nat) : Nat := e.cxa + (row - e.first) * t.pitch
def TableDef.masterAt (t : TableDef) (e : Shard) (row : Nat) : Nat :=
  if t.off (512 + 64) = 0 then t.rowAt e row else t.companion e (512 + 64) t.masterPitch (row - e.first)
def TableDef.mAt (t : TableDef) (e : Shard) (row : Nat) : Nat := t.companion e (512 + 128) t.momentPitch (row - e.first)
def TableDef.vAt (t : TableDef) (e : Shard) (row : Nat) : Nat := t.companion e (512 + 192) t.momentPitch (row - e.first)
def TableDef.shadowAt (t : TableDef) (e : Shard) (row : Nat) : Nat := t.companion e 1024 t.shadowPitch (row - e.first)
/-- The byte of the touched bitmap that holds the bit of a row. -/
def TableDef.bitmapAt (t : TableDef) (e : Shard) (row : Nat) : Nat := t.companion e (1024 + 64) 1 ((row - e.first) / 8)
def TableDef.stageAt (t : TableDef) (e : Shard) : Nat := t.companion e (1024 + 128) 0 0
/-- Bytes of a staged record (R318). -/
def TableDef.recordBytes (t : TableDef) : Nat := roundUp (32 + 4 * t.width) 64

/-- Insert an entry into a map, rows ascending; one with the same first row is replaced. -/
def insertShard (e : Shard) : List Shard → List Shard
  | [] => [e]
  | a :: rest => if e.first < a.first then e :: a :: rest else if e.first = a.first then e :: rest else a :: insertShard e rest

/-- The shard map for commands admitted at a stroke (R328): a migration counts from its SWITCH_STROKE on. -/
def TableDef.mapAt (t : TableDef) (admitted : Nat) : List Shard :=
  t.moves.foldl (fun es m => if m.stroke ≤ admitted then insertShard m.target es else es) t.shards

/-- The shard map with every migration in it. -/
def TableDef.mapFull (t : TableDef) : List Shard := t.moves.foldl (fun es m => insertShard m.target es) t.shards

/-- The entry of a map that owns a row (R284). -/
def ownerIn (es : List Shard) (row : Nat) : Option Shard := (es.filter fun e => e.first ≤ row).getLast?

/-- Rows of an entry of a map. -/
def TableDef.rowsOf (t : TableDef) (es : List Shard) (e : Shard) : Nat :=
  ((es.find? fun x => e.first < x.first).map (·.first)).getD t.rows - e.first

/-- Regions of an entry with `n` rows (R313, R314): address and bytes. -/
def TableDef.regions (t : TableDef) (e : Shard) (n : Nat) : List (Nat × Nat) :=
  [(e.cxa, n * t.pitch)]
    ++ (if t.off (512 + 64) = 0 then [] else [(t.companion e (512 + 64) 0 0, n * t.masterPitch)])
    ++ (if t.mEn then [(t.companion e (512 + 128) 0 0, n * t.momentPitch)] else [])
    ++ (if t.vEn then [(t.companion e (512 + 192) 0 0, n * t.momentPitch)] else [])
    ++ (if t.touched then [(t.stageAt e, t.stageBytes)]
        else [(t.companion e 1024 0 0, n * t.shadowPitch), (t.companion e (1024 + 64) 0 0, roundUp (ceilDiv n 8) 256)])

/-- The storage at a position of the entries of a map (R345), each region with the index of its entry. -/
def TableDef.ownRegions (t : TableDef) (es : List Shard) (pos : Nat) : List (Nat × (Nat × Nat)) :=
  ((List.range es.length).zip es).flatMap fun e => if e.2.pos = pos then (t.regions e.2 (t.rowsOf es e.2)).map (e.1, ·) else []

/-- Does a migration move the row? -/
def Move.has (m : Move) (row : Nat) : Bool := m.target.first ≤ row && row < m.target.first + m.count

/-- Every entry a row has had, the latest first. -/
def TableDef.places (t : TableDef) (row : Nat) : List Shard :=
  ((t.moves.filter (·.has row)).map (·.target)).reverse ++ (ownerIn t.shards row).toList

/-- The half of a footprint that keeps the tables of a context. -/
def tableHome (footprint : Nat) : Half := if inFootprint footprint .q then .q else .k

/-- The tables of a context. -/
def State.tableHalf (s : State) (ctx : Nat) : Half := tableHome (s.footprintOf ctx)
def State.table? (s : State) (ctx tid : Nat) : Option TableDef := find tid ((s.half (s.tableHalf ctx)).ctx ctx).tables
def State.setTable (s : State) (ctx tid : Nat) (t : TableDef) : State :=
  s.modHalf (s.tableHalf ctx) fun x => x.modCtx ctx fun c => { c with tables := put tid t c.tables }

/-- This module's position as a half of the footprint knows it. -/
def State.ownPos (s : State) (ctx : Nat) : Nat := (s.half (s.tableHalf ctx)).myPos (s.tableHalf ctx)

/-! ## Plain access by an owner die -/

/-- The half of a global die (4 × partition + die). -/
def halfOfDie (d : Nat) : Half := Half.ofPart (d / 4)

/-- An access that meets a REMOTE page finds no row there (R345). -/
def Run.ownOnly (r : Run) : Run :=
  match r.need with
  | [] => r
  | a :: _ => { r with need := [], stop := some (missResult stFault rsMapMiss a) }

/-- Count bytes of a run, attributed to the key of a command if there is one, and raise its seal faults (R352, R455). -/
def State.countAccess (s : State) (ctx : Nat) (key : Option Nat) (r : Run) : State :=
  let s1 := match key with
    | some k => s.countRun k r
    | none => (s.countTraffic r.rd r.wr).crossRun none r
  r.seals.foldl (fun t d => t.sealFault d (some ctx)) s1

/-- A run without its traffic in the stacks: what it read and wrote was in the Wellhead. -/
def Run.inWell (r : Run) : Run := { r with rd := [], wr := [] }

/-- Read bytes of a context at a die, from the stacks or (`held`) from a line of the Wellhead: their values, or what stopped the
access. -/
def State.readFrom (s : State) (held : Bool) (d ctx : Nat) (key : Option Nat) (cxa n : Nat) : State × Except Result (List Nat) :=
  let x := ({ mem := s.view } : Run).load (s.envOf (halfOfDie d) ctx) cxa n
  let r := x.2.ownOnly
  (s.countAccess ctx key (if held then r.inWell else r), match r.stop with | some res => .error res | none => .ok x.1)

/-- Write bytes of a context at a die, to the stacks or (`held`) to a line of the Wellhead. -/
def State.writeTo (s : State) (held : Bool) (d ctx : Nat) (key : Option Nat) (cxa : Nat) (bs : List Nat) : State × Except Result Unit :=
  let r := (({ mem := s.view } : Run).store (s.envOf (halfOfDie d) ctx) cxa bs).settle
  if !r.puts.isEmpty then (s, .error (missResult stFault rsMapMiss cxa)) else
  ((s.commit r.mem).countAccess ctx key (if held then r.inWell else r),
    match r.stop with | some res => .error res | none => .ok ())

/-- Read bytes of a context at a die. -/
def State.readAt (s : State) (d ctx : Nat) (key : Option Nat) (cxa n : Nat) : State × Except Result (List Nat) :=
  s.readFrom false d ctx key cxa n

/-- Write bytes of a context at a die. -/
def State.writeAt (s : State) (d ctx : Nat) (key : Option Nat) (cxa : Nat) (bs : List Nat) : State × Except Result Unit :=
  s.writeTo false d ctx key cxa bs

/-- Device addresses and lengths of bytes of context memory in this module, by 256-byte block. -/
def Env.spots (e : Env) (cxa n : Nat) : List (Nat × Nat) :=
  (pieces 256 cxa n).filterMap fun p => match e.translate p.1 with | .here a _ => some (a, p.2) | _ => none

/-- The seals of the 256-byte parts of bytes (R299, R348). -/
def partSeals (bs : List Nat) : List Nat := (chunks 256 bs).map crc32c

/-! ## The Wellhead -/

/-- The Wellhead of a die of a half. -/
def HalfState.well (x : HalfState) (i : Nat) : Well := x.wells.getD i {}
def HalfState.setWell (x : HalfState) (i : Nat) (w : Well) : HalfState :=
  { x with wells := (List.range 4).map fun j => if j = i then w else x.well j }
def State.well (s : State) (d : Nat) : Well := (s.half (halfOfDie d)).well (d % 4)
def State.setWell (s : State) (d : Nat) (w : Well) : State := s.modHalf (halfOfDie d) fun x => x.setWell (d % 4) w

/-- Deep counters of a die, or of the hub as die 4, that count an event, while GAU_CFG.DEEP_EN is set (R462, R471). -/
def HalfState.deepCounters (x : HalfState) (h : Half) (die event : Nat) : List Nat :=
  if !bitSet (x.cell h (hubKey bGAU 0)) 0 then [] else
  (List.range 16).filter fun n => bits (x.cell h (regKey bGAU die 0 4)) (4 * n) 4 = event

/-- Count an event in the deep counters that chose it. -/
def HalfState.deep (x : HalfState) (h : Half) (die event n : Nat) : HalfState :=
  (x.deepCounters h die event).foldl (fun y c => y.gauge 0x07 (die * 16 + c) 0 n) x

/-- Count in a register of the Wellhead of a die (R311); hits and misses are events of the deep counters, too (R462). -/
def State.countWell (s : State) (d index n : Nat) : State :=
  s.modHalf (halfOfDie d) fun x =>
    let y := x.count32 (halfOfDie d) (regKey bWH (d % 4) 0 index) 0 n
    if index = 2 then y.deep (halfOfDie d) (d % 4) 5 n else if index = 3 then y.deep (halfOfDie d) (d % 4) 6 n else y
/-- Count in a register of the EME of a die (R310). -/
def State.countEme (s : State) (d index n : Nat) : State :=
  s.modHalf (halfOfDie d) fun x => x.count32 (halfOfDie d) (regKey bEME (d % 4) 0 index) 0 n
/-- Bytes through the Wellhead of a die (R455). -/
def State.wellBytes (s : State) (d sub n : Nat) : State :=
  s.modHalf (halfOfDie d) fun x => x.gauge 0x02 (2 * 512 + d % 4) sub n

def State.whStatus (s : State) (d : Nat) : Nat := (s.half (halfOfDie d)).cell (halfOfDie d) (regKey bWH (d % 4) 0 1)
def State.whCfg (s : State) (d : Nat) : Nat := (s.half (halfOfDie d)).cell (halfOfDie d) (regKey bWH (d % 4) 0 0)
def State.degraded (s : State) (d : Nat) : Bool := bitSet (s.whStatus d) 0
def State.masked (s : State) (d way : Nat) : Bool := bitSet (s.whStatus d) (way + 1)
/-- Ways that the automatic cache has: those below the hot-set ways (R299, R311). -/
def State.autoWays (s : State) (d : Nat) : Nat := 16 - min 16 (bits (s.whCfg d) 0 5)

/-- The key of the line that holds a row, and the row's place in it (R300). -/
def TableDef.lineRows (t : TableDef) : Nat := 1024 / t.pitch
def TableDef.group (t : TableDef) (row : Nat) : Nat := row / t.lineRows
def lineKey (tid g : Nat) : Nat := tid * 2 ^ 40 + g
def lineSet (key : Nat) : Nat := mix64 (key ^^^ 0x9E3779B97F4A7C15) % 2048
/-- The sketch counters of a key, by row × 65,536 + counter (R300, R301). -/
def sketchKeys (key : Nat) : List Nat :=
  let h1 := mix64 key
  (List.range 4).map fun j => j * 65536 + bits h1 (16 * j) 16
/-- The estimate of a key: the smallest of its counters (R301). -/
def Well.estimate (w : Well) (key : Nat) : Nat := ((sketchKeys key).map w.sketch.at).foldl min 255
/-- A fetch of a key is counted in the sketch (R301). -/
def Well.countKey (w : Well) (key : Nat) : Well :=
  { w with
    sketch := (sketchKeys key).foldl (fun t k => t.set k (min 255 (t.at k + 1))) w.sketch
    increments := w.increments + 1 }

/-- The key of a row among the rows on the move (R332). -/
def rowKey (tid row : Nat) : Nat := tid * 2 ^ 40 + row
/-- An automatic move of rows within the die starts (R332). -/
def Well.startMove (w : Well) (keys : List Nat) : Well :=
  { w with moving := w.moving ++ keys.filter fun k => !w.moving.contains k }

/-- Does the automatic cache of a die serve a table (R300)? -/
def State.cached (s : State) (d : Nat) (t : TableDef) : Bool := !t.pinned && !t.wide && !s.degraded d

/-- Bytes of storage behind a line: its rows that exist. -/
def TableDef.lineBytes (t : TableDef) (g : Nat) : Nat := (min t.lineRows (t.rows - g * t.lineRows)) * t.pitch

/-- The rows of a line, as row keys. -/
def TableDef.lineRowKeys (t : TableDef) (tid g : Nat) : List Nat :=
  (List.range (min t.lineRows (t.rows - g * t.lineRows))).map fun i => rowKey tid (g * t.lineRows + i)

/-- A line leaves the automatic cache; a dirty one is written back to its rows first (R302, R303). -/
def State.evict (s : State) (d ctx : Nat) (l : WhLine) : State :=
  let tid := l.key / 2 ^ 40
  let g := l.key % 2 ^ 40
  let w := s.well d
  let s1 := s.setWell d { w with lines := w.lines.filter (· ≠ l) }
  let s2 := match s.table? ctx tid with
    | none => s1
    | some t => s1.setWell d ((s1.well d).startMove (t.lineRowKeys tid g))
  if !l.dirty then s2 else
  (s2.commit (l.over s2.view)).countTraffic [] (l.places.foldl (fun n p => n.bump (stackKey p.1) p.2) [])

/-- Dirty lines of a die are written back and stay (R303), or with `invalidate` leave. -/
def State.flushWell (s : State) (d ctx : Nat) (keep : WhLine → Bool) : State :=
  ((s.well d).lines.filter fun l => !keep l).foldl (fun t l => t.evict d ctx l) s

/-- Fill a line, if R302 admits it: into the lowest-numbered invalid way, or in place of the victim. The result says whether it was
admitted. -/
def State.fillLine (s : State) (d ctx : Nat) (t : TableDef) (e : Shard) (key : Nat) (bs : List Nat) : State × Bool :=
  let set := lineSet key
  let w := s.well d
  let mine := w.lines.filter (·.set = set)
  let ways := s.autoWays d
  let free := (List.range ways).find? fun i => !(s.masked d i) && !mine.any (·.way = i)
  let add (u : State) (way : Nat) : State :=
    let v := u.well d
    let all := bs ++ List.replicate (1024 - bs.length) 0
    let l : WhLine :=
      { key := key, set := set, way := way, bytes := all, seals := partSeals all
        places := (s.envOf (halfOfDie d) ctx).spots (t.rowAt e (key % 2 ^ 40 * t.lineRows)) bs.length }
    let fresh : Well := { v with lines := v.lines ++ [l] }
    (u.setWell d (fresh.startMove (t.lineRowKeys (key / 2 ^ 40) (key % 2 ^ 40)))).wellBytes d 1 bs.length
  if !bitSet (s.whCfg d) 8 then (s, false) else
  match free with
  | some i => (add s i, true)
  | none =>
    let pick (best : Option WhLine) (l : WhLine) : Option WhLine :=
      match best with
      | none => some l
      | some b =>
        if w.estimate l.key < w.estimate b.key || (w.estimate l.key = w.estimate b.key && l.way < b.way) then some l else best
    match mine.foldl pick none with
    | none => (s, false)
    | some v => if w.estimate v.key < w.estimate key then (add (s.evict d ctx v) v.way, true) else (s, false)

/-- Does a line of the automatic cache hold a row? -/
def Well.holds (w : Well) (tid : Nat) (t : TableDef) (row : Nat) : Bool :=
  w.lines.any fun l => t.lineRows ≠ 0 && l.key = lineKey tid (t.group row)

/-- A hot row is read: the seal of each of its parts is checked (R281, R299). -/
def State.readHot (s : State) (d ctx : Nat) (key : Option Nat) (t : TableDef) (r : HotRow) : State × Except Result (List Nat) :=
  match (copyParts r.places r.bytes r.seals).find? fun p => !p.2.2 with
  | some p => (s.countAccess ctx key { mem := {}, seals := [p.1] }, .error (sealResult p.1))
  | none => (s.wellBytes d 0 t.pitch, .ok r.bytes)

/-- The owner EME serves one row fetch from its hot set, its line cache or its stacks (R290, R301, R302). -/
def State.fetchRow (s : State) (d ctx tid : Nat) (t : TableDef) (key : Option Nat) (e : Shard) (row : Nat) :
    State × Except Result (List Nat) :=
  let w := s.well d
  match w.hot.find? fun r => r.table = tid && r.row = row with
  | some r => ((s.countWell d 2 1).readHot d ctx key t r)
  | none =>
    if !s.cached d t then (s.countWell d 3 1).readAt d ctx key (t.rowAt e row) t.pitch else
    let g := t.group row
    let k := lineKey tid g
    let s1 := s.setWell d (w.countKey k)
    let inLine (bs : List Nat) : List Nat := (bs.drop ((row % t.lineRows) * t.pitch)).take t.pitch
    if w.lines.any (·.key = k) then
      ((s1.countWell d 2 1).wellBytes d 0 t.pitch).readFrom true d ctx key (t.rowAt e row) t.pitch
    else
      let s2 := s1.countWell d 3 1
      let line := s2.readAt d ctx key (t.rowAt e (g * t.lineRows)) (t.lineBytes g)
      match line.2 with
      | .error _ => ((s2.countWell d 4 1).readAt d ctx key (t.rowAt e row) t.pitch)
      | .ok bs =>
        let a := line.1.fillLine d ctx t e k bs
        (if a.2 then a.1 else a.1.countWell d 4 1, .ok (inLine bs))

/-- A row as it stands at its owner, without a fetch. -/
def State.peekRow (s : State) (d ctx tid : Nat) (t : TableDef) (key : Option Nat) (e : Shard) (row : Nat) :
    State × Except Result (List Nat) :=
  let w := s.well d
  match w.hot.find? fun r => r.table = tid && r.row = row with
  | some r => s.readHot d ctx key t r
  | none =>
    if w.holds tid t row then (s.wellBytes d 0 t.pitch).readFrom true d ctx key (t.rowAt e row) t.pitch
    else s.readAt d ctx key (t.rowAt e row) t.pitch

/-- Write a row through the owner die: a hot row and HBM together (R305), a line alone, which becomes dirty (R303), or HBM. -/
def State.writeRow (s : State) (d ctx tid : Nat) (t : TableDef) (key : Option Nat) (e : Shard) (row : Nat) (bs : List Nat) :
    State × Except Result Unit :=
  let w := s.well d
  let line := w.holds tid t row
  let s1 := if line || w.hot.any (fun r => r.table = tid && r.row = row) then s.wellBytes d 1 t.pitch else s
  s1.writeTo line d ctx key (t.rowAt e row) bs

/-- Lines of the hot-set ways that nothing occupies, in ascending way and set (R299). -/
def State.freeHotLines (s : State) (d : Nat) : List Nat :=
  let used := (s.well d).hot.flatMap (·.lines)
  let ways := (List.range 16).filter fun i => s.autoWays d ≤ i && !s.masked d i
  (ways.flatMap fun i => (List.range 2048).map fun j => i * 2048 + j).filter fun l => !used.contains l

/-- Free hot-set lines of a die, as a count. -/
def State.freeHotCount (s : State) (d : Nat) : Nat :=
  let used := total ((s.well d).hot.map (·.lines.length))
  2048 * ((List.range 16).filter fun i => s.autoWays d ≤ i && !s.masked d i).length - used

/-- Save of a context: dirty lines of the half are written back, and the Wellheads let go of the context's rows, which its hot sets
list again at restore (R303, R308). -/
def State.saveWells (s : State) (h : Half) (ctx : Nat) : State :=
  let s1 := [0, 1, 2, 3].foldl (fun t i => t.flushWell (4 * h.part + i) ctx fun _ => false) s
  s1.modHalf h fun x => { x with wells := [] }

/-- Restore of a context: cold Wellheads with zero sketches, and every hot set to be reloaded (R301, R303, R308). -/
def HalfState.coldWells (x : HalfState) (ctx : Nat) : HalfState :=
  let y := x.modCtx ctx fun c => { c with hotSets := c.hotSets.map fun r => { r with reload := true } }
  { y with wells := [] }

end Sys2Proof.Machine
end

