-- ==== Sys2Proof/Machine/Embedding.lean ====
section
/-! DEFINITION. Embedding tables, lookups and hot sets (R281 to R311, R332): TABLE_DEFINE, LOOKUP, HOTSET_LOAD, row requests and
replies, and the background work of a Wellhead. -/

namespace Sys2Proof.Machine

/-! ## What the commands share -/

/-- The table that a command of the embedding family names. -/
def tableOf (p : Nat) : Option Nat :=
  let op := pkOpcode p
  if op = 0x0701 || op = 0x0702 || op = 0x0703 || op = 0x0704 || op = 0x0706 then some (pl p 0 8)
  else if op = 0x0705 then some (pl p 456 8)
  else none

/-- Does an admitted, uncompleted command of the context name the table (R285)? -/
def State.tableUsed (s : State) (ctx tid : Nat) : Bool :=
  [s.q, s.k].any fun x => (x.cmds ++ x.suspended).any fun c => c.ctx = some ctx && tableOf c.packet = some tid

/-- Global dies whose EME a command occupies (R281, R287, R306, R315). -/
def emesOf (p : Nat) : List Nat :=
  let op := pkOpcode p
  if op = 0x0702 || op = 0x0704 then bitIndices (pl p 304 8) 8
  else if op = 0x0703 then [pl p 8 3]
  else []

/-- A command that names an EME which already serves four is not ready (R281). -/
def emesBusy (s : State) (_ : Half) (p : Nat) : Bool :=
  (emesOf p).any fun d => (s.allCmds.filter fun c => (emesOf c.2.packet).contains d).length ≥ 4

/-- A command whose EMEs lie in the other half is mirrored (R289). -/
def emesAcross (s : State) (h : Half) (p : Nat) : Bool := (emesOf p).any (fun d => halfOfDie d ≠ h) && s.together h

/-- The source of a remote table miss (R428). -/
def srcTableMiss : Nat := 0x044

/-! ## TABLE_DEFINE (R282 to R286, R312 to R314) -/

def tdDelete (p : Nat) : Bool := pl p 8 1 = 1

/-- The four payload units of a TABLE_DEFINE. -/
def tdPayload (p : Nat) : Nat := bits p 512 2048

/-- The table of a TABLE_DEFINE, before its map and fill row are read. -/
def tdOf (p : Nat) : TableDef := { payload := tdPayload p, shards := [], fill := [] }

/-- A shard-map entry (R284). -/
def shardOf (v : Nat) : Shard :=
  { first := bits v 0 48, pos := bits v 64 12, die := 4 * bits v 76 1 + bits v 77 2, cxa := bits v 80 48 }

/-- The entries of a shard map read as one number. -/
def shardsOf (v n : Nat) : List Shard := (List.range n).map fun i => shardOf (bits v (256 * i) 256)

/-- Do two of several ranges share a byte? -/
def anyOverlap : List (Nat × Nat) → Bool
  | [] => false
  | r :: rest => (rest.any fun q => overlaps r.1 r.2 q.1 q.2) || anyOverlap rest

/-- Do two of the regions of the entries at a position overlap (R314)? -/
def TableDef.regionsOverlap (t : TableDef) (es : List Shard) (pos : Nat) : Bool :=
  anyOverlap ((es.filter (·.pos = pos)).flatMap fun e => t.regions e (t.rowsOf es e))

/-- Does a half of a module own more than 2²⁴ rows of an EXACT_SUM table (R285)? -/
def TableDef.exactOver (t : TableDef) (es : List Shard) : Bool :=
  !t.touched && es.any fun e =>
    total ((es.filter fun x => x.pos = e.pos && x.die / 4 = e.die / 4).map (t.rowsOf es)) > 2 ^ 24

/-- The first fault of a shard map: its bit offset (R284, R285). -/
def shardFault (t : TableDef) (footprint pos v n : Nat) : Option Nat :=
  let es := shardsOf v n
  firstBad ((List.range n).flatMap fun i =>
    let e := es.getD i { first := 0, pos := 0, die := 0, cxa := 0 }
    let b := 256 * i
    [(b, (i = 0 && e.first ≠ 0) || e.first % 16 ≠ 0 || (i ≠ 0 && e.first ≤ (es.getD (i - 1) e).first)
        || (i + 1 = n && e.first ≥ t.rows)),
     reservedCheck 0 v (b + 48) 16, (b + 76, e.pos = pos && dieOutside footprint e.die), (b + 79, bits v (b + 79) 1 ≠ 0),
     (b + 80, e.cxa % 256 ≠ 0), reservedCheck 0 v (b + 128) 128])

def specTableDefine : OpSpec where
  ring := .c
  lo := 1
  hi := 4
  head _ p :=
    let t := tdOf p
    let define := !tdDelete p
    let fp8 : Bool := t.fmt = 3 || t.fmt = 4
    let master := t.off (512 + 64)
    let pages (lo : Nat) (on : Bool) : Check := (512 + lo, define && (t.fld lo 64 % 256 ≠ 0 || (t.fld lo 64 ≠ 0) ≠ on))
    checks [(112, define && pkUnits p < 3), (512 + 12, define && t.fmt > 4), (512 + 16, define && (t.width < 8 || t.width > 4096)),
      (512 + 32, define && (t.rows = 0 || t.rows > 2 ^ 40)), (512 + 96, define && pl p 96 48 % 32 ≠ 0),
      (512 + 160, define && (pl p 160 17 = 0 || pl p 160 17 > 65536)), (512 + 256, define && t.slot ≠ 0 && !fp8),
      (512 + 272, define && (if t.touched then t.fixExp ≠ 0 else t.fixExp < -100 || t.fixExp > 40)),
      (1024, define && t.masterless && t.fmt ≠ 1), (1024 + 2, define && t.vEn && !t.mEn),
      (1024 + 64, define && (t.fld (512 + 64) 64 % 256 ≠ 0 || (if t.masterless || t.fmt = 0 then master ≠ 0 else master = 0))),
      pages (512 + 128) t.mEn, pages (512 + 192) t.vEn, pages 1024 (!t.touched), pages (1024 + 64) (!t.touched),
      (1536 + 128, define && (t.fld (1024 + 128) 64 % 256 ≠ 0 || (!t.touched && t.fld (1024 + 128) 64 ≠ 0))),
      pages (1024 + 192) t.touched]
    ++ reservedPl p ([(15, 1), (29, 3), (80, 16), (144, 16), (177, 15), (240, 16), (268, 4), (280, 232)]
      ++ if define then [(512 + 3, 61), (512 + 256, 256), (1024 + 256, 256), (1536, 512)] else [(512, 1536)])
  exam s h p x :=
    let t := tdOf p
    let ctx := pkCtx p
    let x0 := examTogether s h p x
    if tdDelete p then
      x0.badWhen ((s.table? ctx (t.fld 0 8)).isNone || s.tableUsed ctx (t.fld 0 8)) 512 |>.work h h 1
    else
      let x1 := x0.badWhen (s.table? ctx (t.fld 0 8)).isSome 512
      let n := pl p 160 17
      let m := x1.record (512 + 96) (pl p 96 48) (32 * n)
      let es := shardsOf m.1 n
      let x2 := match shardFault t (s.footprintOf ctx) (s.ownPos ctx) m.1 n with
        | some off => m.2.badWhen true (512 + 96) (1 + off)
        | none =>
          let y := (m.2.badWhen (t.exactOver es) (512 + 10)).badWhen (t.regionsOverlap es (s.ownPos ctx)) (512 + 96) (1 + 80)
          match (t.ownRegions es (s.ownPos ctx)).find? fun (r : Nat × (Nat × Nat)) => x.env.meetsRemote r.2 with
          | some r => y.badWhen true (512 + 96) (1 + (256 * r.1 + 80))
          | none => y
      if pl p 192 48 = 0 then x2.work h h 1 else
      let f := x2.record (512 + 192) (pl p 192 48) t.pitch
      let used := 8 * t.width * fmtBytes t.fmt
      (f.2.badWhen (f.1 >>> used ≠ 0) (512 + 192) (1 + used)).work h h 1
  mirrored s h p := ctxBoth s h p

/-- TABLE_DEFINE with ACTION = 0 (R285): the table is kept with its map and fill row as read at admission. -/
def execTableDefine (id : Nat) (s : State) : Host.Outcome State Fault Refusal :=
  .next (onCommand s id 0x0701 (fun c => !tdDelete c.packet) fun s h c =>
    let p := c.packet
    let t0 := tdOf p
    let fill := if pl p 192 48 = 0 then List.replicate t0.pitch 0 else bytesOf t0.pitch (c.recordNum 1)
    let t := { t0 with shards := shardsOf (c.recordNum 0) (pl p 160 17), fill := fill }
    (s.setTable (pkCtx p) (t.fld 0 8) t).finish h c (okResult 0 0 0))

/-- A table's hot rows and lines leave a die without write-back. -/
def Well.dropTable (w : Well) (tid : Nat) : Well :=
  { w with lines := w.lines.filter fun l => l.key / 2 ^ 40 ≠ tid, hot := w.hot.filter (·.table ≠ tid)
           moving := w.moving.filter fun k => k / 2 ^ 40 ≠ tid }

/-- TABLE_DEFINE with ACTION = 1: the table and its hot sets on every die go, and no data is written back (R285). -/
def execTableDelete (id : Nat) (s : State) : Host.Outcome State Fault Refusal :=
  .next (onCommand s id 0x0701 (fun c => tdDelete c.packet) fun s h c =>
    let ctx := pkCtx c.packet
    let tid := pl c.packet 0 8
    let go (t : State) (g : Half) : State := t.modHalf g fun x =>
      let y := x.modCtx ctx fun k => { k with tables := drop tid k.tables, hotSets := k.hotSets.filter (·.table ≠ tid) }
      { y with wells := y.wells.map fun w => w.dropTable tid }
    (((footprintHalves (s.footprintOf ctx)).foldl go s).finish h c (okResult 0 0 0)))

/-! ## LOOKUP (R287 to R296) -/

def lkWide (p : Nat) : Bool := pl p 8 1 = 0
def lkIdxBytes (p : Nat) : Nat := if lkWide p then 8 else 4
def lkPool (p : Nat) : Nat := pl p 9 2
def lkFmt (p : Nat) : Nat := pl p 11 3
def lkIdx (p : Nat) : Nat := pl p 16 48
def lkOff (p : Nat) : Nat := pl p 64 48
def lkWgt (p : Nat) : Nat := pl p 112 48
def lkOut (p : Nat) : Nat := pl p 160 48
def lkBags (p : Nat) : Nat := pl p 208 32
def lkIndices (p : Nat) : Nat := pl p 240 32
def lkPitch (p : Nat) : Nat := pl p 272 32

/-- Checks that LOOKUP and EMB_GRAD share; `defined` is where their reserved bits begin (R287, R288, R315). -/
def lookHead (defined : Nat) (e : HeadEnv) (p : Nat) : List Check :=
  checks [(512 + 9, lkPool p = 3), (512 + 11, lkFmt p > 2), (512 + 16, lkIdx p % lkIdxBytes p ≠ 0), (512 + 64, lkOff p % 4 ≠ 0),
      (512 + 112, lkWgt p % 4 ≠ 0), (512 + 160, lkOut p % 64 ≠ 0), (512 + 272, lkPitch p % 64 ≠ 0),
      (512 + 304, pl p 304 8 = 0 || (emesOf p).any (dieOutside e.footprint))]
    ++ reservedPl p [(14, 2), (defined, 512 - defined), (512, 512 * (pkUnits p - 1))]

/-- Offset `b` of the offset array. -/
def offAt (v b : Nat) : Nat := bits v (32 * b) 32

/-- The offsets start at 0, never decrease and end at INDICES (R288). -/
def offsetsBad (v bags indices : Nat) : Bool :=
  offAt v 0 ≠ 0 || offAt v bags ≠ indices || (List.range bags).any fun b => offAt v (b + 1) < offAt v b

/-- Where the pooled rows (or their gradients) lie: bytes from OUT_CXA on. -/
def outBytes (p width : Nat) : Nat :=
  if lkBags p = 0 then 0 else (lkBags p - 1) * lkPitch p + width * fmtBytes (lkFmt p)

/-- The shares of the EMEs: die, first bag, bags (R289). -/
def lkShares (p : Nat) : List (Nat × Nat × Nat) := shares (emesOf p) (lkBags p) 256

/-- Indices of a lookup: the rows of in-bounds positions (R293). -/
def lkRows (p rows : Nat) (bs : List Nat) : List (Option Nat) :=
  (chunks (lkIdxBytes p) bs).map fun b =>
    let v := signed (numOf b) (8 * lkIdxBytes p)
    if v < 0 || v ≥ (rows : Int) then none else some v.toNat

/-- A fetch of a lookup: EME, gather window, row (R291). -/
structure Fetch where
  die : Nat
  window : Nat
  row : Nat
deriving DecidableEq, Repr

/-- The fetches of an EME's positions: each distinct in-bounds row once in each window of 4,096 (R291). -/
def fetchesOf (die : Nat) (rows : List (Option Nat)) : List Fetch :=
  let ws := chunks 4096 rows
  (ws.zip (List.range ws.length)).flatMap fun w =>
    (w.1.filterMap id).eraseDups.map fun r => { die := die, window := w.2, row := r }

/-- Positions of a share. -/
def sharePositions (offs : Nat) (rows : List (Option Nat)) (sh : Nat × Nat × Nat) : List (Option Nat) :=
  let lo := offAt offs sh.2.1
  (rows.drop lo).take (offAt offs (sh.2.1 + sh.2.2) - lo)

/-- Rows of the index array as it stands, if the module can read it by itself. -/
def State.indexRows (s : State) (h : Half) (p : Nat) (t : TableDef) : Option (List (Option Nat)) :=
  let a := ({ mem := s.view } : Run).load (s.envOf h (pkCtx p)) (lkIdx p) (lkIndices p * lkIdxBytes p)
  if a.2.stop.isSome || !a.2.need.isEmpty then none else some (lkRows p t.rows a.1)

/-- Does this module own a row, for a command admitted now? -/
def State.ownsRow (s : State) (h : Half) (ctx : Nat) (t : TableDef) (row : Nat) : Bool :=
  match ownerIn (t.mapAt (s.now h)) row with | some e => e.pos = s.ownPos ctx | none => false

/-- Fetches of a share from this module (R291, R298). DESIGN CHOICE (log entry 104): one for each position where the index array
cannot be read here beforehand. -/
def State.ownFetches (s : State) (h : Half) (p : Nat) (t : TableDef) (offs : Nat) (sh : Nat × Nat × Nat) : Nat :=
  match s.indexRows h p t with
  | some rows => ((fetchesOf sh.1 (sharePositions offs rows sh)).filter fun f => s.ownsRow h (pkCtx p) t f.row).length
  | none => offAt offs (sh.2.1 + sh.2.2) - offAt offs sh.2.1

/-- Partials of a share to this module: each distinct row of a chunk of 256 bags (R317 to R319), as `ownFetches`. -/
def State.ownPartials (s : State) (h : Half) (p : Nat) (t : TableDef) (offs : Nat) (sh : Nat × Nat × Nat) : Nat :=
  match s.indexRows h p t with
  | some rows => total ((List.range (ceilDiv sh.2.2 256)).map fun i =>
      let ps := sharePositions offs rows (sh.1, sh.2.1 + 256 * i, min 256 (sh.2.2 - 256 * i))
      (((ps.filterMap id).eraseDups).filter (s.ownsRow h (pkCtx p) t)).length)
  | none => offAt offs (sh.2.1 + sh.2.2) - offAt offs sh.2.1

/-- Bags of a share that have members. -/
def grownBags (offs : Nat) (sh : Nat × Nat × Nat) : Nat :=
  ((List.range sh.2.2).filter fun i => offAt offs (sh.2.1 + i) < offAt offs (sh.2.1 + i + 1)).length

/-- The checks of R288 against table and offsets. A page of an array of a LOOKUP that is not mapped shows only as the lookup runs
(R296). -/
def examLookup (write : Bool) (s : State) (h : Half) (p : Nat) (x0 : Exm) : Exm :=
  match s.table? (pkCtx p) (pl p 0 8) with
  | none => x0.badWhen true 512
  | some t =>
    let x1 := (x0.badWhen (decide (lkPool p = 2) ≠ t.scored) (512 + 9)).badWhen (decide (lkWgt p ≠ 0) ≠ t.scored) (512 + 112)
    let x2 := x1.badWhen (lkPitch p < t.width * fmtBytes (lkFmt p)) (512 + 272)
    let ib := lkIndices p * lkIdxBytes p
    let ob := 4 * (lkBags p + 1)
    let wb := if t.scored then 4 * lkIndices p else 0
    let out := outBytes p t.width
    let clash := write && [(lkIdx p, ib), (lkOff p, ob), (lkWgt p, wb)].any fun r => overlaps r.1 r.2 (lkOut p) out
    let x3 := if write then
        ((((x2.badWhen clash (512 + 160)).span (lkIdx p) ib).span (lkWgt p) wb).span (lkOut p) out)
      else (((x2.range (512 + 16) (lkIdx p) ib false).range (512 + 112) (lkWgt p) wb false).range (512 + 160) (lkOut p) out false)
    if lkBags p = 0 || lkIndices p = 0 then { x3 with empty := true } else
    let o := if write then x3.recordLate (512 + 64) (lkOff p) ob else x3.record (512 + 64) (lkOff p) ob
    let x4 := o.2.badWhen (!o.2.lastMissed && offsetsBad o.1 (lkBags p) (lkIndices p)) (512 + 64)
    let outRow := t.width * fmtBytes (lkFmt p)
    let work (sh : Nat × Nat × Nat) : Nat :=
      let n := offAt o.1 (sh.2.1 + sh.2.2) - offAt o.1 sh.2.1
      match pkClass p with
      | 9 => n * t.width * fmtBytes t.fmt
      | 10 => n * t.width * (if t.touched then 4 else 8)
      | 14 => n * (lkIdxBytes p + if t.scored then 4 else 0) + 4 * (sh.2.2 + 1)
          + (if write then s.ownFetches h p t o.1 sh * t.pitch
            else grownBags o.1 sh * outRow + if t.touched then 0 else s.ownPartials h p t o.1 sh * (64 + 8 * t.width))
      | 15 => if write then sh.2.2 * outRow
          else s.ownPartials h p t o.1 sh * (if t.touched then t.recordBytes else 64 + 8 * t.width)
      | _ => 0
    if pkClass p = 0 then x4.work h h 1
    else (lkShares p).foldl (fun y sh => y.work h (halfOfDie sh.1) (work sh)) x4

def specLookup : OpSpec where
  ring := .c
  lo := 1
  hi := 2
  classes := [0, 9, 14, 15]
  head := lookHead 312
  busy := emesBusy
  domains _ _ p := (emesOf p).map memoryDomain
  exam := examLookup true
  mirrored := emesAcross

/-- Has a row of a destination not arrived yet (R329)? -/
def TableDef.awaited (t : TableDef) (e : Shard) (row : Nat) : Bool :=
  t.moves.any fun m => m.target = e && m.has row && m.phase ≠ 2 && !m.arrived.contains row

/-- Has the source of a row retired (R330)? An entry to which a later migration has moved the row back has not. -/
def TableDef.retired (t : TableDef) (e : Shard) (row : Nat) : Bool :=
  match (t.moves.filter fun m => m.has row && (m.source = e || m.target = e)).getLast? with
  | some m => m.source = e && m.phase = 2
  | none => false

/-- FP32 codes of a row's elements (R294). -/
def rowValues (t : TableDef) (exp : Int) (bs : List Nat) : List Nat :=
  let f := (Fmt.ofCode t.fmt).getD .fp32
  (codesOf f.bytes (bs.take (t.width * f.bytes))).map fun c =>
    if f.isFp8 then round32 .strict ((f.decode false c).scale exp) else widen f .strict c

/-- Pool the members of one bag (R294): weights and rows in ascending position. -/
def poolBag (pool width : Nat) (members : List (Nat × List Nat)) : List Nat :=
  match members with
  | [] => List.replicate width 0
  | (w0, r0) :: rest =>
    let first := if pool = 2 then r0.map (mul32 .strict w0) else r0
    let sum := rest.foldl (fun acc m =>
      (acc.zip m.2).map fun x => if pool = 2 then fma32 .strict m.1 x.2 x.1 else add32 .strict x.1 x.2) first
    if pool = 1 then sum.map fun a => div32 a (intCode members.length) else sum

/-- The rows of a lookup as they came: fetch and bytes. -/
abbrev Fetched := List (Fetch × List Nat)

/-- Bytes of a command that go from a die to a die of the other half cross the Siphon in the TENSOR class (R26, R290). -/
def State.crossDies (s : State) (c : Cmd) (from' to' n : Nat) : State :=
  if halfOfDie from' = halfOfDie to' then s else s.crossFor (some (attrKey c.packet)) (halfOfDie from') .tensor n

/-- Fetch the rows of a lookup, each from where it is: the command's own module at once, others as they were delivered. The result
stops at the first that fails. -/
def State.fetchAll (s : State) (c : Cmd) (t : TableDef) (tid : Nat) : Nat → List Fetch → State × Except Result Fetched
  | _, [] => (s, .ok [])
  | i, f :: rest =>
    let ctx := c.ctx.getD 0
    let key := some (attrKey c.packet)
    match ownerIn (t.mapAt c.admitted) f.row with
    | none => (s, .error (engineResult .q srcTableMiss))
    | some e =>
      let here := e.pos = s.ownPos ctx
      let got : State × Except Result (List Nat) :=
        if !here then (s, .ok ((find i c.rowsIn).getD []))
        else if t.retired e f.row then (s, .error (engineResult (halfOfDie e.die) srcTableMiss))
        else ((s.crossDies c f.die e.die flitBytes).crossDies c e.die f.die t.pitch).fetchRow e.die ctx tid t key e f.row
      match got.2 with
      | .error r => (got.1, .error r)
      | .ok bs =>
        let s1 := if e.die = f.die && here then got.1 else got.1.countEme f.die 2 1
        let more := s1.fetchAll c t tid (i + 1) rest
        (more.1, match more.2 with | .ok l => .ok ((f, bs) :: l) | .error r => .error r)

/-- Row requests to other modules (R290): one frame for each fetch, numbered. -/
def State.askRows (s : State) (c : Cmd) (t : TableDef) (tid : Nat) : Nat → List Fetch → State × Bool
  | _, [] => (s, true)
  | i, f :: rest =>
    match ownerIn (t.mapAt c.admitted) f.row with
    | none => s.askRows c t tid (i + 1) rest
    | some e =>
      if e.pos = s.ownPos (c.ctx.getD 0) then s.askRows c t tid (i + 1) rest else
      let a := s.send (halfOfDie e.die) (some c.id)
        { type := 0x5, dst := e.pos, ctx := c.ctx.getD 0, gen := c.gen, addr := e.die, arg := i, row := .request tid [f.row] }
      let z := a.1.askRows c t tid (i + 1) rest
      (z.1, a.2 && z.2)

/-- The output rows of one share: bags in order. -/
def lkStore (e : Env) (p : Nat) (t : TableDef) (exp : Int) (offs : Nat) (rows : List (Option Nat)) (weights : List Nat)
    (got : Fetched) (sh : Nat × Nat × Nat) (r0 : Run) : Run × Nat × Nat :=
  let base := offAt offs sh.2.1
  let fill := rowValues t exp t.fill
  let member (j : Nat) : Nat × List Nat :=
    let w := weights.getD j 0
    match rows.getD j none with
    | none => (w, fill)
    | some row =>
      let f : Fetch := { die := sh.1, window := (j - base) / 4096, row := row }
      (w, rowValues t exp (((got.find? fun x => x.1 = f).map (·.2)).getD []))
  let f := (Fmt.ofCode (lkFmt p)).getD .fp32
  (List.range sh.2.2).foldl (fun (acc : Run × Nat × Nat) i =>
    let b := sh.2.1 + i
    let n := offAt offs (b + 1) - offAt offs b
    let vs := poolBag (lkPool p) t.width ((List.range n).map fun j => member (offAt offs b + j))
    let codes := vs.map fun v => (convert f .strict none v).code
    let nonfinite := (codes.filter fun c => !(f.decode false c).isFinite).length
    (acc.1.store e (lkOut p + b * lkPitch p) (codes.flatMap (bytesOf f.bytes)), acc.2.1 + nonfinite,
      acc.2.2 + if n = 0 then 1 else 0)) (r0, 0, 0)

/-- The arrays a lookup reads before any row: indices and weights. -/
def lkArrays (e : Env) (p : Nat) (t : TableDef) (r0 : Run) : List (Option Nat) × List Nat × Run :=
  let a := r0.load e (lkIdx p) (lkIndices p * lkIdxBytes p)
  let w := if t.scored then a.2.load e (lkWgt p) (4 * lkIndices p) else ([], a.2)
  (lkRows p t.rows a.1, codesOf 4 w.1, w.2)

/-- Count the out-of-bounds positions of the shares (R293). -/
def State.countOutside (s : State) (offs : Nat) (rows : List (Option Nat)) (shs : List (Nat × Nat × Nat)) : State :=
  shs.foldl (fun t sh =>
    let n := ((sharePositions offs rows sh).filter (·.isNone)).length
    t.modHalf (halfOfDie sh.1) fun x => x.gauge 0x05 (sh.1 % 4) 0 n) s

/-- The fetches of a LOOKUP whose indices are `idx`, share by share (R289). -/
def lookupPlan (c : Cmd) (idx : List (Option Nat)) : List Fetch :=
  (lkShares c.packet).flatMap fun sh => fetchesOf sh.1 (sharePositions (c.recordNum 0) idx sh)

/-- The output of a LOOKUP from its rows, share by share: the run, its overflows, and the overflows by Embedding Engine (R293). -/
def lookupStores (s : State) (h : Half) (c : Cmd) (t : TableDef) (idx : List (Option Nat)) (weights : List Nat) (rows : Fetched)
    (r0 : Run) : Run × Nat × List (Nat × Nat) :=
  (lkShares c.packet).foldl (fun acc sh =>
    let x := lkStore (s.envCmd h c) c.packet t (c.slotExp t.slot) (c.recordNum 0) idx weights rows sh acc.1
    (x.1, acc.2.1 + x.2.2, acc.2.2 ++ [(sh.1, x.2.1)])) (r0, 0, [])

/-- Output rows of bags become undefined (R296). -/
def State.veilBags (s : State) (e : Env) (p : Nat) (t : TableDef) (bags : List Nat) : State :=
  bags.foldl (fun u b => u.veilRange e (lkOut p + b * lkPitch p) (t.width * fmtBytes (lkFmt p))) s

/-- The bags of a LOOKUP in the order in which the model writes their rows. -/
def lkOrder (p : Nat) : List Nat := (lkShares p).flatMap fun sh => (List.range sh.2.2).map (sh.2.1 + ·)

/-- The bags whose rows a LOOKUP has not written: from the first on whose row cannot be written (R296). -/
def lkUnwritten (e : Env) (p : Nat) (t : TableDef) : List Nat :=
  (lkOrder p).dropWhile fun b => (e.checkRange 0 (lkOut p + b * lkPitch p) (t.width * fmtBytes (lkFmt p)) true false).isEmpty

/-- A LOOKUP ends with an error before a row of its output is written: all of them are undefined (R296). -/
def State.endLookup (s : State) (h : Half) (c : Cmd) (r : Result) : State :=
  match s.table? (pkCtx c.packet) (pl c.packet 0 8) with
  | none => s.finish h c r
  | some t => (s.finish h c r).veilBags (s.envCmd h c) c.packet t (lkOrder c.packet)

/-- LOOKUP (R289 to R296). Rows of other modules are asked for first; the row is performed again when they have come. While a row of
a migration has not arrived here, nothing happens. -/
def runLookup (s : State) (h : Half) (c : Cmd) : State :=
  let p := c.packet
  let ctx := pkCtx p
  let tid := pl p 0 8
  match s.table? ctx tid with
  | none => s.finish h c (engineResult h srcTableMiss)
  | some t =>
    let e := s.envCmd h c
    let offs := c.recordNum 0
    if c.recordMissed 0 then s.endLookup h c (missResult stFault rsMapMiss (lkOff p)) else
    let a := lkArrays e p t { mem := s.view }
    if a.2.2.stop.isSome then (s.applyRun h c e a.2.2 fun _ => okResult 0 0 0).veilBags e p t (lkOrder p) else
    if !a.2.2.need.isEmpty then s.applyRun h c e a.2.2 fun _ => okResult 0 0 0 else
    let plan := lookupPlan c a.1
    let owner (f : Fetch) : Option Shard := ownerIn (t.mapAt c.admitted) f.row
    let remote := plan.any fun f => match owner f with | some x => x.pos ≠ s.ownPos ctx | none => false
    let late := plan.filterMap fun f => match owner f with
      | some x => if x.pos = s.ownPos ctx && t.awaited x f.row then some x.die else none
      | none => none
    if remote && !c.asked then
      let dies := (plan.zip (List.range plan.length)).map fun f => (f.2, f.1.die)
      let b := (s.setCmd h { c with asked := true, waiting := true, fetchDies := dies }).askRows c t tid 0 plan
      if b.2 then b.1 else (b.1.occur h srcUnreachable c.ctx).finish h c (engineResult h srcUnreachable)
    else if !late.isEmpty then s.setCmd h { c with heldAt := late.eraseDups }
    else
      let got := s.fetchAll c t tid 0 plan
      match got.2 with
      | .error r =>
        let s1 := if r.d0 = rsEngine then got.1.occur h srcTableMiss c.ctx else got.1
        (s1.finish h c r).veilBags e p t (lkOrder p)
      | .ok rows =>
        let z := lookupStores s h c t a.1 a.2.1 rows { a.2.2 with mem := got.1.view }
        let outside := (a.1.filter (·.isNone)).length
        let s0 := (got.1.countOutside offs a.1 (lkShares p)).applyRun h c e z.1 fun _ => okResult outside plan.length z.2.1
        let s1 := if z.1.stop.isSome then s0.veilBags e p t (lkUnwritten e p t) else s0
        let coalesced (sh : Nat × Nat × Nat) : Nat :=
          ((sharePositions offs a.1 sh).filter (·.isSome)).length - (plan.filter (·.die = sh.1)).length
        let s2 := (lkShares p).foldl (fun t sh => t.countEme sh.1 1 (coalesced sh)) s1
        z.2.2.foldl (fun t d => t.countEme d.1 3 d.2) s2

def execLookup (id : Nat) (s : State) : Host.Outcome State Fault Refusal :=
  .next (onCommand s id 0x0702 (fun _ => true) runLookup)

/-! ## Row requests and replies (R290, R379) -/

/-- The reply to a row request. Damage of the row is told by a reply without bytes, which carries the DPA of the block. -/
def State.replyRow (s : State) (h : Half) (f : Frame) (tid row : Nat) (got : Except Result (List Nat)) : State :=
  let body : Nat × List Nat := match got with
    | .ok bs => (f.arg, bs)
    | .error r => (r.d1 + (r.d2 % 2 ^ 12) * 2 ^ 32, [])
  (s.send h none { type := 0x5, dst := f.src, ctx := f.ctx, gen := f.gen, addr := f.seq, arg := body.1, row := .reply tid row body.2 }).1

/-- The owner EME serves a request, holds it until the row arrives, or refuses it (R286, R290, R329, R330). -/
def serveRow (h : Half) (port : Nat) (s : State) (f : Frame) : Answer :=
  match f.row with
  | .request tid (row :: _) =>
    (match s.table? f.ctx tid with
    | none => .refuse s rsEngine
    | some t =>
      match (t.places row).find? fun e => e.die = f.addr && e.pos = s.ownPos f.ctx && halfOfDie e.die = h with
      | none => .refuse s rsEngine
      | some e =>
        if t.retired e row || row ≥ t.rows then .refuse s rsEngine
        else if t.awaited e row then
          .done (s.modHalf h fun x => x.modCtx f.ctx fun k => { k with heldRows := k.heldRows ++ [(port, f)] })
        else
          let got := s.fetchRow e.die f.ctx tid t none e row
          match got.2 with
          | .ok _ => .done (got.1.replyRow h f tid row got.2)
          | .error r => if r.status = stIntegrity then .done (got.1.replyRow h f tid row got.2) else .refuse got.1 rsEngine)
  | _ => .refuse s rsField

/-- ROW_REQUEST (R290). -/
def execRowRequest (h : Half) (port : Nat) (f : Frame) (s : State) : Host.Outcome State Fault Refusal :=
  .next (match f.row with
    | .request _ _ => s.receive h port f 0x5 (serveRow h port)
    | _ => s)

/-- A command of a half gets one remote row or block; with the last one it goes on (R290, R344). -/
def State.delivered (s : State) (g : Half) (c : Cmd) : State :=
  s.setCmd g { c with waiting := s.awaitsRead c.id, idle := 0, idleOther := 0 }

/-- ROW_REPLY: a row arrives at the issuing EME (R291). -/
def takeRow (h : Half) (s : State) (f : Frame) : Answer :=
  match (s.half h).sentFrame f.src f.addr, f.row with
  | some u, .reply _ _ bs =>
    let s1 := s.modHalf h fun x => x.answered f.src f.addr
    (match u.cmd.bind s1.cmd? with
    | some (g, c) =>
      if c.done.isSome then .done s1
      else if bs.isEmpty then .done (s1.endLookup g c (sealResult f.arg))
      else if !Frame.intact f then .done { s1.endLookup g c s1.linkSeal with drawnFree := s1.drawnFree + 2 }
      else .done (s1.delivered g { c with rowsIn := put f.arg bs c.rowsIn })
    | none => .done s1)
  | _, _ => .done s

def execRowReply (h : Half) (port : Nat) (f : Frame) (s : State) : Host.Outcome State Fault Refusal :=
  .next (match f.row with
    | .reply _ _ _ => s.receive h port f 0x5 (takeRow h)
    | _ => s)

/-! ## Hot sets (R305 to R308) -/

def hsDie (p : Nat) : Nat := pl p 8 3
def hsClear (p : Nat) : Bool := pl p 11 1 = 1
def hsList (p : Nat) : Nat := pl p 16 48
def hsCount (p : Nat) : Nat := pl p 64 32
def hsRefresh (p : Nat) : Nat := pl p 96 32

/-- May a hot set of the table lie on the die (R305)? -/
def State.hotAllowed (s : State) (d : Nat) (t : TableDef) : Bool := t.pinned || t.wide || s.degraded d

def specHotsetLoad : OpSpec where
  ring := .c
  lo := 1
  hi := 2
  classes := [0, 14]
  head e p :=
    checks [(512 + 8, dieOutside e.footprint (hsDie p)), (512 + 16, hsList p % 8 ≠ 0), (512 + 96, hsRefresh p ≠ 0 && hsCount p = 0)]
    ++ reservedPl p [(12, 4), (128, 384), (512, 512 * (pkUnits p - 1))]
  busy := emesBusy
  domains _ _ p := (emesOf p).map memoryDomain
  exam s h p x :=
    match s.table? (pkCtx p) (pl p 0 8) with
    | none => x.badWhen true 512
    | some t =>
      let x1 := (x.badWhen (!s.hotAllowed (hsDie p) t) 512).range (512 + 16) (hsList p) (8 * hsCount p) false
      let none' := hsCount p = 0
      { x1 with empty := none' && !hsClear p, untested := none' && hsClear p }.work h (halfOfDie (hsDie p))
        (if pkClass p = 14 then hsCount p * (8 + t.pitch) else 1)
  mirrored := emesAcross

/-- What loading a list did. -/
structure HotTally where
  loaded : Nat := 0
  skipped : Nat := 0
  left : Nat := 0

/-- Rows of a list enter the hot set in order (R307). -/
def State.loadHot (s : State) (d ctx tid : Nat) (t : TableDef) (key : Option Nat) (es : List Shard) :
    List Int → HotTally → State × Except Result HotTally
  | [], n => (s, .ok n)
  | v :: rest, n =>
    let row := v.toNat
    let e := ownerIn es row
    let mine : Bool := match e with | some e => e.pos = s.ownPos ctx && e.die = d | none => false
    let present := (s.well d).hot.any fun r => r.table = tid && r.row = row
    if v < 0 || row ≥ t.rows || !mine || present then s.loadHot d ctx tid t key es rest { n with skipped := n.skipped + 1 } else
    let need := ceilDiv t.pitch 1024
    if s.freeHotCount d < need then s.loadHot d ctx tid t key es rest { n with left := n.left + 1 } else
    match e with
    | none => (s, .ok n)
    | some e =>
      let got := s.peekRow d ctx tid t key e row
      match got.2 with
      | .error r => (got.1, .error r)
      | .ok bs =>
        let w := got.1.well d
        let r : HotRow :=
          { table := tid, row := row, lines := (got.1.freeHotLines d).take need, bytes := bs, seals := partSeals bs
            places := (s.envOf (halfOfDie d) ctx).spots (t.rowAt e row) t.pitch }
        ((got.1.setWell d (Well.startMove { w with hot := w.hot ++ [r] } [rowKey tid row])).wellBytes d 1 t.pitch).loadHot
          d ctx tid t key es rest { n with loaded := n.loaded + 1 }

/-- The hot rows of a table leave a die, but for those that `keep` names. -/
def State.dropHot (s : State) (d tid : Nat) (keep : Nat → Bool) : State :=
  let w := s.well d
  let gone := w.hot.filter fun r => r.table = tid && !keep r.row
  s.setWell d (Well.startMove { w with hot := w.hot.filter fun r => r.table ≠ tid || keep r.row }
    (gone.map fun r => rowKey tid r.row))

/-- The entries of a row list. -/
def hotEntries (bs : List Nat) : List Int := (chunks 8 bs).map fun b => signed (numOf b) 64

/-- Does a list name a row of the die whose copy by a migration has not arrived? Its request is held until it has (R307, R329). -/
def State.hotAwaits (s : State) (d ctx : Nat) (t : TableDef) (es : List Shard) (vs : List Int) : Bool :=
  vs.any fun v => v ≥ 0 && decide (v.toNat < t.rows) && match ownerIn es v.toNat with
    | some e => e.pos = s.ownPos ctx && e.die = d && t.awaited e v.toNat
    | none => false

/-- HOTSET_LOAD (R305 to R307). -/
def runHotset (s : State) (h : Half) (c : Cmd) : State :=
  let p := c.packet
  let ctx := pkCtx p
  let tid := pl p 0 8
  let d := hsDie p
  match s.table? ctx tid with
  | none => s.finish h c (engineResult h srcTableMiss)
  | some t =>
    let e := s.envCmd h c
    let l := ({ mem := s.view } : Run).load e (hsList p) (8 * hsCount p)
    if l.2.stop.isSome || !l.2.need.isEmpty then s.applyRun h c e l.2 fun _ => okResult 0 0 0 else
    if s.hotAwaits d ctx t (t.mapAt c.admitted) (hotEntries l.1) then s.setCmd h { c with heldAt := [d] } else
    let s0 := s.countRun (attrKey p) l.2
    let s1 := if hsClear p then s0.dropHot d tid fun _ => false else s0
    let others (k : Ctx) : List HotSet := k.hotSets.filter fun x => !(x.table = tid && x.die = d)
    let set : HotSet := { table := tid, die := d, list := hsList p, count := hsCount p, refresh := hsRefresh p, due := 0 }
    let s2 := s1.modHalf (halfOfDie d) fun x => x.modCtx ctx fun k =>
      { k with hotSets := others k ++ if hsCount p = 0 then [] else [set] }
    if hsCount p = 0 then s2.finish h c emptyResult else
    let got := s2.loadHot d ctx tid t (some (attrKey p)) (t.mapAt c.admitted) (hotEntries l.1) {}
    got.1.finish h c (match got.2 with | .ok n => okResult n.loaded n.skipped n.left | .error r => r)

def execHotsetLoad (id : Nat) (s : State) : Host.Outcome State Fault Refusal :=
  .next (onCommand s id 0x0703 (fun _ => true) runHotset)

/-- The next refresh of a hot set after a stroke, on the grid of its completion (R308). -/
def HotSet.next (r : HotSet) (now : Nat) : Nat :=
  if now < r.due || r.refresh = 0 then r.due else r.due + 1000 * r.refresh * ((now - r.due) / (1000 * r.refresh) + 1)

/-- A refresh of a hot set is due, or its reload after a restore (R308). -/
def HotSet.isDue (r : HotSet) (now : Nat) : Bool := r.reload || (r.refresh ≠ 0 && r.due ≠ 0 && r.due ≤ now)

/-- Change the hot set of a table on a die. -/
def State.modHot (s : State) (ctx table die : Nat) (f : HotSet → HotSet) : State :=
  s.modHalf (halfOfDie die) fun y => y.modCtx ctx fun k =>
    { k with hotSets := k.hotSets.map fun r => if r.table = table && r.die = die then f r else r }

/-- Read requests for the blocks of a list on REMOTE pages (R308, R345). `false`: an owner is unreachable. -/
def State.askList (s : State) (e : Env) (ctx gen : Nat) (r : HotSet) : List Nat → State × Bool
  | [] => (s, true)
  | b :: rest =>
    match e.remoteOf b with
    | none => s.askList e ctx gen r rest
    | some (plane, pos, frame) =>
      let a := s.sendAs plane (fun u => { u with hot := some (r.table, r.die) })
        { type := 0x0, dst := pos, ctx := ctx, gen := gen, addr := b, arg := 256 + remoteArg frame }
      let z := a.1.askList e ctx gen r rest
      (z.1, a.2 && z.2)

/-- HOTSET_REFRESH: a hot set of a die that is due, or reloaded after a restore, is read again from its list and brought into line with
it (R308). Blocks of the list on REMOTE pages are asked for first. A list that cannot be read leaves the set as it is. -/
def execHotsetRefresh (die : Nat) (s : State) : Host.Outcome State Fault Refusal :=
  let h := halfOfDie die
  let x := s.half h
  .next (match x.resident with
    | none => s
    | some ctx =>
      match (x.ctx ctx).hotSets.find? fun r => r.die = die && r.isDue x.count with
      | none => s
      | some r =>
        match s.table? ctx r.table with
        | none => s
        | some t =>
          let ended (u : State) : State := u.modHot ctx r.table die fun y =>
            { y with reload := false, fetched := [], due := y.next x.count }
          let e : Env := { s.envOf h ctx with fetched := r.fetched }
          let l := ({ mem := s.view } : Run).load e r.list (8 * r.count)
          if l.2.stop.isSome then (ended s).countAccess ctx none l.2
          else if !l.2.need.isEmpty then
            (if [s.q, s.k].any fun y => y.unacked.any (·.hot = some (r.table, r.die)) then s else
              let a := s.askList e ctx (x.gen ctx) r l.2.need
              if a.2 then a.1 else ended a.1)
          else if s.hotAwaits die ctx t (t.mapAt x.count) (hotEntries l.1) then s
          else
            let vs := hotEntries l.1
            ((((ended s).countAccess ctx none l.2).dropHot die r.table fun row => vs.contains (row : Int)).loadHot
              die ctx r.table t none (t.mapAt x.count) vs {}).1)

/-- SKETCH_AGING: after 65,536 increments every counter of the sketch is halved (R301). -/
def execSketchAging (die : Nat) (s : State) : Host.Outcome State Fault Refusal :=
  let w := s.well die
  .next (if w.increments < 65536 then s else
    s.setWell die { w with
      sketch := w.sketch.filterMap fun c => if c.2 / 2 = 0 then none else some (c.1, c.2 / 2)
      increments := w.increments - 65536 })

/-- The source of a masked Wellhead way (R428). -/
def srcWayMasked (die : Nat) : Nat := dieSourceNum (die % 4) 0x67

/-- WELLHEAD_DEGRADED: a masked way stops the automatic cache of the die, whose readable dirty lines are written back, and drops
the hot rows it held (R304). -/
def execWellheadDegraded (die way : Nat) (s : State) : Host.Outcome State Fault Refusal :=
  let h := halfOfDie die
  .next (if (s.half h).boot = .off || s.masked die way || way > 15 then s else
    let w0 := s.well die
    let s0 := s.setWell die { w0 with lines := w0.lines.filter (·.way ≠ way) }
    let s1 := match (s0.half h).resident with | some ctx => s0.flushWell die ctx fun _ => false | none => s0
    let s2 := s1.modHalf h fun x =>
      (x.setField h (regKey bWH (die % 4) 0 1) 0 1 1).setField h (regKey bWH (die % 4) 0 1) (way + 1) 1 1
    let w := s2.well die
    let s3 := s2.setWell die { w with lines := [], hot := w.hot.filter fun r => !r.lines.any fun l => l / 2048 = way }
    s3.occur h (srcWayMasked die) none)

/-- ROW_MOVE_COMPLETE: an automatic move of a row within the die ends when nothing is pending on it, and the row's epoch advances
(R332). -/
def execRowMoveComplete (die row : Nat) (s : State) : Host.Outcome State Fault Refusal :=
  let w := s.well die
  .next (match w.moving.find? fun k => k % 2 ^ 40 = row with
    | none => s
    | some k =>
      let s1 := s.setWell die { w with moving := w.moving.filter (· ≠ k) }
      match (s1.half (halfOfDie die)).resident with
      | none => s1
      | some ctx =>
        match s1.table? ctx (k / 2 ^ 40) with
        | none => s1
        | some t => s1.setTable ctx (k / 2 ^ 40) { t with epochs := t.epochs.set row ((t.epochs.at row + 1) % 2 ^ 16) })

end Sys2Proof.Machine
end

