-- ==== Sys2Proof/Machine/Sparse.lean ====
section
/-! DEFINITION. Sparse updates and row migration (R312 to R334): EMB_GRAD and its partials, EMB_FOLD, and ROW_MIGRATE with the events
of a range that moves. -/

namespace Sys2Proof.Machine

/-- The source of a staging overflow (R428). -/
def srcStaging : Nat := 0x045

/-! ## Partials at their owner (R317, R318, R329) -/

/-- A partial on its way to a row's owner. -/
inductive Partial where
  /-- Sums of codes, and the positions behind them (R317). -/
  | exact (n : Nat) (sums : List Nat)
  /-- The key of a record (its header without ROW_K) and its FP32 values (R318). -/
  | record (key : Nat) (values : List Nat)
deriving DecidableEq, Repr

/-- The frame body of a partial. -/
def Partial.body (x : Partial) (tid row : Nat) : RowBody :=
  match x with
  | .exact n sums => .exactSum tid row n (sums.map fun (v : Nat) => (v : Int))
  | .record key vs => .staged tid row key vs

/-- Add into a shadow row (R317): elements modulo 2⁶⁴, COUNT saturating, and the touched bit, in one act. -/
def State.addShadow (s : State) (d ctx : Nat) (t : TableDef) (key : Option Nat) (e : Shard) (row n touch : Nat) (sums : List Nat) :
    State × Except Result Unit :=
  let a := s.readAt d ctx key (t.shadowAt e row) (64 + 8 * t.width)
  match a.2 with
  | .error r => (a.1, .error r)
  | .ok bs =>
    let count := min max32 (numOf (bs.take 4) + n)
    let els := (List.range t.width).map fun i => (numOf ((bs.drop (64 + 8 * i)).take 8) + sums.getD i 0) % 2 ^ 64
    let b := a.1.writeAt d ctx key (t.shadowAt e row) (bytesOf 4 count ++ (bs.drop 4).take 60 ++ els.flatMap (bytesOf 8))
    match b.2 with
    | .error r => (b.1, .error r)
    | .ok () =>
      let c := b.1.readAt d ctx key (t.bitmapAt e row) 1
      match c.2 with
      | .error r => (c.1, .error r)
      | .ok o =>
        let bit := 2 ^ ((row - e.first) % 8)
        c.1.writeAt d ctx key (t.bitmapAt e row) [if touch = 0 then o.getD 0 0 else (o.getD 0 0) ||| bit]

/-- The staging of an entry. -/
def TableDef.staging (t : TableDef) (e : Shard) : Staged := (t.stage.find? (·.cxa = e.cxa)).getD { cxa := e.cxa, used := 0 }
def TableDef.setStaging (t : TableDef) (x : Staged) : TableDef :=
  { t with stage := (t.stage.filter (·.cxa ≠ x.cxa)) ++ [x] }

/-- Append a record to an entry's staging, or mark the entry OVERFLOWED (R318). -/
def State.addRecord (s : State) (d ctx tid : Nat) (t : TableDef) (ck : Option Nat) (e : Shard) (row key : Nat) (vs : List Nat) :
    State × Except Result Unit :=
  let st := t.staging e
  if st.used + t.recordBytes > t.stageBytes then
    (s.setTable ctx tid (t.setStaging { st with overflowed := true }), .error (engineResult (halfOfDie d) srcStaging))
  else
    let header := bytesOf 32 (place (row - e.first) 0 40 + key)
    let rec0 := header ++ vs.flatMap (bytesOf 4)
    let a := s.writeAt d ctx ck (t.stageAt e + st.used) (rec0 ++ List.replicate (t.recordBytes - rec0.length) 0)
    match a.2 with
    | .error r => (a.1, .error r)
    | .ok () => (a.1.setTable ctx tid (t.setStaging { st with used := st.used + t.recordBytes }), .ok ())

/-- A partial takes effect at an entry. -/
def State.landPartial (s : State) (ctx tid : Nat) (key : Option Nat) (e : Shard) (row : Nat) (x : Partial) :
    State × Except Result Unit :=
  match s.table? ctx tid with
  | none => (s, .error (engineResult (halfOfDie e.die) srcTableMiss))
  | some t =>
    match x with
    | .exact n sums => s.addShadow e.die ctx t key e row n 1 sums
    | .record k vs => s.addRecord e.die ctx tid t key e row k vs

/-- Change the migration that a command here takes part in. -/
def TableDef.setMove (t : TableDef) (m : Move) : TableDef := { t with moves := updateFirst (·.cmd = m.cmd) (fun _ => m) t.moves }

/-- Who brought a partial: a command of this module, whose traffic it is, or a frame that came through a port. -/
inductive Bringer where
  | cmd (id key : Nat)
  | frame (port : Nat) (f : Frame)

/-- The key of the traffic of a partial (R458). -/
def Bringer.key : Bringer → Option Nat
  | .cmd _ k => some k
  | .frame _ _ => none

/-- Send a partial on to the destination of its range. What brought it completes only when the destination has taken it (R319). -/
def State.forward (s : State) (by' : Bringer) (plane : Half) (f : Frame) : State × Bool :=
  match by' with
  | .cmd id _ => s.send plane (some id) f
  | .frame port g => s.sendAs plane (fun u => { u with relay := some (port, g) }) f

/-- The migration whose source an entry is for a row, if it is the last that concerns the entry (R329). -/
def TableDef.leaving (t : TableDef) (e : Shard) (row : Nat) : Option Move :=
  match (t.moves.filter fun m => m.has row && (m.source = e || m.target = e)).getLast? with
  | some m => if m.source = e then some m else none
  | none => none

/-- A partial reaches an entry of this module: a source under migration forwards it, a retired one refuses (R329, R330). `true`: it
is on its way to another module. -/
def State.acceptPartial (s : State) (ctx gen tid : Nat) (t : TableDef) (by' : Bringer) (e : Shard) (row : Nat) (x : Partial) :
    State × Except Result Bool :=
  let land (u : State) (d : Shard) : State × Except Result Bool :=
    let a := u.landPartial ctx tid by'.key d row x
    (a.1, match a.2 with | .ok () => .ok false | .error r => .error r)
  match t.leaving e row with
  | none => land s e
  | some m =>
    if m.phase = 2 then (s, .error (engineResult (halfOfDie e.die) srcTableMiss)) else
    let s1 := (s.setTable ctx tid (t.setMove { m with forwarded := m.forwarded + 1 })).countEme e.die 5 1
    if m.target.pos = s.ownPos ctx then land s1 m.target
    else
      let a := s1.forward by' (halfOfDie m.target.die)
        { type := 0x5, dst := m.target.pos, ctx := ctx, gen := gen, addr := m.target.die, row := x.body tid row }
      (a.1, if a.2 then .ok true else .error (engineResult (halfOfDie e.die) srcUnreachable))

/-- Is a frame already held, or forwarded and not yet answered? -/
def State.underWay (s : State) (h : Half) (f : Frame) : Bool :=
  let same (g : Frame) : Bool := g.src = f.src && g.seq = f.seq && g.type = f.type
  ((s.half h).ctx f.ctx).heldRows.any (fun y => same y.2)
    || [s.q, s.k].any fun x => x.unacked.any fun u => match u.relay with | some y => same y.2 | none => false

/-- Hold a frame that concerns rows which a migration is yet to bring here: its answer waits for it (R329). -/
def State.holdFrame (s : State) (h : Half) (port : Nat) (f : Frame) : Answer :=
  .later (s.modHalf h fun x => x.modCtx f.ctx fun k => { k with heldRows := k.heldRows ++ [(port, f)] })

/-- The owner of a partial takes it from a frame, forwards it, or refuses (R286, R318, R330). One for a row that has never been here
waits for the ROW_MIGRATE that brings the row (R329). -/
def takePartial (h : Half) (port : Nat) (s : State) (f : Frame) : Answer :=
  let go (tid row : Nat) (x : Partial) : Answer :=
    match s.table? f.ctx tid with
    | none => .refuse s rsEngine
    | some t =>
      if !Frame.intact f then .refuse s rsSeal
      else if row ≥ t.rows || f.addr / 4 ≠ h.part then .refuse s rsEngine
      else if s.underWay h f then .later s else
      match (t.places row).find? fun e => e.die = f.addr && e.pos = s.ownPos f.ctx with
      | none => s.holdFrame h port f
      | some e =>
        let a := s.acceptPartial f.ctx f.gen tid t (.frame port f) e row x
        match a.2 with
        | .ok false => .done a.1
        | .ok true => .later a.1
        | .error r => .refuse a.1 (nackCode r)
  match f.row with
  | .exactSum tid row n sums => go tid row (.exact n (sums.map fun v => unsigned v 64))
  | .staged tid row key vs => go tid row (.record key vs)
  | _ => .refuse s rsField

/-- EXACT_SUM_PARTIAL (R317). -/
def execExactSumPartial (h : Half) (port : Nat) (f : Frame) (s : State) : Host.Outcome State Fault Refusal :=
  .next (match f.row with
    | .exactSum _ _ _ _ => s.receive h port f 0x5 (takePartial h port)
    | _ => s)

/-- STAGING_RECORD (R318). -/
def execStagingRecord (h : Half) (port : Nat) (f : Frame) (s : State) : Host.Outcome State Fault Refusal :=
  .next (match f.row with
    | .staged _ _ _ _ => s.receive h port f 0x5 (takePartial h port)
    | _ => s)

/-! ## EMB_GRAD (R315 to R319) -/

def specEmbGrad : OpSpec where
  ring := .c
  lo := 1
  hi := 2
  classes := [0, 10, 14, 15]
  head := lookHead 344
  busy := emesBusy
  domains _ _ p := (emesOf p).map memoryDomain
  exam := examLookup false
  mirrored := emesAcross

/-- What a position contributes to the elements of its row (R316). -/
def contribution (pool n w : Nat) (ds : List Nat) : List Nat :=
  if pool = 0 then ds else if pool = 1 then ds.map fun d => div32 d (intCode n) else ds.map fun d => mul32 .strict w d

/-- The code of an EXACT_SUM contribution, and 1 when it was replaced or saturated (R317). -/
def exactCode (fixExp : Int) (v : Nat) : Int × Nat :=
  if !finite32 v then (0, 1) else
  let c := rneInt ((f32 v).scale (-fixExp))
  let top : Int := 2 ^ 39 - 1
  if c > top then (top, 1) else if c < -top then (-top, 1) else (c, 0)

/-- Positions of a chunk: row and contribution, in ascending order. -/
abbrev Contribs := List (Nat × List Nat)

/-- The partials of a chunk, one for each row, and the contributions replaced (R317, R318). -/
def chunkPartials (t : TableDef) (key : Nat) (cs : Contribs) : List (Nat × Partial) × Nat :=
  let rows := (cs.map (·.1)).eraseDups
  let codes (vs : List Nat) : List (Int × Nat) := vs.map (exactCode t.fixExp)
  let one (row : Nat) : Nat × Partial :=
    let mine := (cs.filter (·.1 = row)).map (·.2)
    if t.touched then
      (row, .record key (match mine with
        | [] => []
        | v :: rest => rest.foldl (fun p w => (p.zip w).map fun x => add32 .strict x.1 x.2) v))
    else
      let zero := List.replicate t.width 0
      (row, .exact mine.length (mine.foldl (fun p v =>
        (p.zip (codes v)).map fun x => unsigned ((x.1 : Int) + x.2.1) 64) zero))
  (rows.map one, if t.touched then 0 else total (cs.map fun c => total ((codes c.2).map (·.2))))

/-- The contributions of the bags of a chunk: `lo` is its first bag, `n` their number. -/
def chunkContribs (p : Nat) (t : TableDef) (offs : Nat) (rows : List (Option Nat)) (ws : List Nat) (grads : List (Nat × List Nat))
    (lo n : Nat) : Contribs :=
  (List.range n).flatMap fun i =>
    let b := lo + i
    let members := offAt offs (b + 1) - offAt offs b
    let ds := ((grads.find? (·.1 = b)).map (·.2)).getD (List.replicate t.width 0)
    (List.range members).filterMap fun k =>
      let j := offAt offs b + k
      (rows.getD j none).map fun row => (row, contribution (lkPool p) members (ws.getD j 0) ds)

/-- The output gradients of bags that have members (R316). -/
def loadGrads (e : Env) (p : Nat) (t : TableDef) (offs : Nat) : Nat → Nat → Run → List (Nat × List Nat) × Run
  | _, 0, r => ([], r)
  | b, n + 1, r =>
    if offAt offs (b + 1) = offAt offs b then loadGrads e p t offs (b + 1) n r else
    let f := (Fmt.ofCode (lkFmt p)).getD .fp32
    let x := r.load e (lkOut p + b * lkPitch p) (t.width * f.bytes)
    let y := loadGrads e p t offs (b + 1) n x.2
    ((b, (codesOf f.bytes x.1).map (widen f .strict)) :: y.1, y.2)

/-- Deliver partials, each from the die of its EME to its row's owner; the first failure is kept. One for a die of the other half
crosses the Siphon (R26). -/
def State.deliver (s : State) (c : Cmd) (tid : Nat) : List (Nat × Nat × Partial) → State × Option Result
  | [] => (s, none)
  | (d, row, x) :: rest =>
    let ctx := c.ctx.getD 0
    let a : State × Option Result :=
      match s.table? ctx tid with
      | none => (s, some (engineResult .q srcTableMiss))
      | some t =>
        match ownerIn (t.mapAt c.admitted) row with
        | none => (s, some (engineResult .q srcTableMiss))
        | some e =>
          if e.pos = s.ownPos ctx then
            let f : Frame := { type := 0x5, row := x.body tid row }
            let z := (s.crossDies c d e.die (frameBytesOf f)).acceptPartial ctx c.gen tid t (.cmd c.id (attrKey c.packet)) e row x
            (z.1, match z.2 with | .ok _ => none | .error r => some r)
          else
            let z := s.send (halfOfDie e.die) (some c.id)
              { type := 0x5, dst := e.pos, ctx := ctx, gen := c.gen, addr := e.die, row := x.body tid row }
            (z.1, if z.2 then none else some (engineResult (halfOfDie e.die) srcUnreachable))
    let b := a.1.deliver c tid rest
    (b.1, a.2.or b.2)

/-- The partials of an EMB_GRAD on the Embedding Engine of each share, chunk by chunk, with the saturations (R316, R317). -/
def gradWork (s : State) (c : Cmd) (t : TableDef) (idx : List (Option Nat)) (weights : List Nat)
    (grads : List (Nat × List Nat)) :
    List (Nat × List (List (Nat × Partial) × Nat)) :=
  let p := c.packet
  let key (chunk : Nat) : Nat := place (s.ownPos (pkCtx p)) 40 12 + place (pl p 312 32) 64 32 + place chunk 96 24
  (lkShares p).map fun sh => (sh.1, (List.range (ceilDiv sh.2.2 256)).map fun i =>
    let lo := sh.2.1 + 256 * i
    chunkPartials t (key (lo / 256)) (chunkContribs p t (c.recordNum 0) idx weights grads lo (min 256 (sh.2.2 - 256 * i))))

/-- The saturations of one share. -/
def gradSats (x : List (List (Nat × Partial) × Nat)) : Nat := total (x.map (·.2))

/-- EMB_GRAD (R315 to R319). -/
def runEmbGrad (s : State) (h : Half) (c : Cmd) : State :=
  let p := c.packet
  let ctx := pkCtx p
  let tid := pl p 0 8
  match s.table? ctx tid with
  | none => (s.occur h srcTableMiss c.ctx).finish h c (engineResult h srcTableMiss)
  | some t =>
    let e := s.envCmd h c
    let offs := c.recordNum 0
    let a := lkArrays e p t { mem := s.view }
    let g := loadGrads e p t offs 0 (lkBags p) a.2.2
    let r := g.2
    if r.stop.isSome || !r.need.isEmpty then s.applyRun h c e r fun _ => okResult 0 0 0 else
    let all := gradWork s c t a.1 a.2.1 g.1
    let parts := all.flatMap fun x => x.2.flatMap (·.1)
    let s1 := (s.countRun (attrKey p) r).countOutside offs a.1 (lkShares p)
    let s2 := all.foldl (fun u x => u.countEme x.1 6 (gradSats x.2)) s1
    let z := s2.deliver c tid (all.flatMap fun x => (x.2.flatMap (·.1)).map (x.1, ·))
    let res := match z.2 with
      | some b => b
      | none => okResult (a.1.filter (·.isNone)).length parts.length (total (all.map fun x => gradSats x.2))
    let fault : State := match z.2 with
      | some b => if b.d0 = rsEngine then z.1.occur h (b.d1 % 1024) c.ctx else z.1
      | none => z.1
    fault.finish h c res

def execEmbGrad (id : Nat) (s : State) : Host.Outcome State Fault Refusal :=
  .next (onCommand s id 0x0704 (fun _ => true) runEmbGrad)

/-! ## EMB_FOLD (R320 to R326) -/

def efTable (p : Nat) : Nat := pl p 456 8
def efDiscard (p : Nat) : Bool := pl p 464 1 = 1
def efUnits (p : Nat) : Nat := pl p 472 40

/-- A hyperparameter of an EMB_FOLD: used, and then in its range; unused, and then zero (R257, R320). -/
def foldHyper (p lo : Nat) (used : Bool) (ok : Nat → Bool) : Check :=
  let v := pl p lo 32
  (512 + lo, if used then !(finite32 v && ok v) else v ≠ 0)

/-- The update rule of an EMB_FOLD (R320). -/
def foldRule (p : Nat) : UpRule :=
  { rule := pl p 0 4, mom := pl p 5 1 = 1, nesterov := pl p 6 1 = 1, lr := pl p 96 32, wd := pl p 128 32, b1 := pl p 160 32
    b2 := pl p 192 32, eps := pl p 224 32, bc1 := pl p 256 32, bc2 := pl p 288 32, scale := pl p 320 32
    gBound := pl p 352 32, uBound := pl p 384 32, wBound := pl p 416 32 }

/-- An incomplete migration of the table whose source or destination lies on a named die keeps a fold from being ready (R331). -/
def foldBlocked (s : State) (_ : Half) (p : Nat) : Bool :=
  match s.table? (pkCtx p) (efTable p) with
  | none => false
  | some t => t.moves.any fun m =>
      (s.cmd? m.cmd).isSome && [m.source, m.target].any fun e => e.pos = s.ownPos (pkCtx p) && (upusOf p).contains e.die

def specEmbFold : OpSpec where
  ring := .c
  lo := 1
  hi := 1
  classes := [0, 8, 14, 15]
  head e p :=
    let k := foldRule p
    let apply := !efDiscard p
    let atLeast1 (v : Nat) : Bool := !(less32 v one32)
    let below1 (v : Nat) : Bool := notNegative v && less32 v one32
    let adam := apply && k.rule = 1
    checks ([(512, if apply then k.rule > 2 else k.rule ≠ 0), (512 + 4, pl p 4 1 ≠ 0),
      (512 + 5, k.mom && (!apply || k.rule = 1)), (512 + 6, k.nesterov && !(apply && k.rule = 0 && k.mom)),
      (512 + 8, pl p 8 3 ≠ 0), (512 + 11, pl p 11 3 ≠ 0), (512 + 14, pl p 14 12 ≠ 0),
      (512 + 32, !apply && pl p 32 32 ≠ 0), (512 + 64, !apply && pl p 64 32 ≠ 0),
      foldHyper p 96 apply notNegative, foldHyper p 128 apply notNegative, foldHyper p 160 (apply && k.keepsM) below1,
      foldHyper p 192 adam below1, foldHyper p 224 adam positive32, foldHyper p 256 adam atLeast1,
      foldHyper p 288 adam atLeast1, foldHyper p 320 apply (fun _ => true), foldHyper p 352 apply positive32,
      foldHyper p 384 apply positive32, foldHyper p 416 apply positive32, (512 + 448, maskBad e p)])
    ++ reservedPl p [(7, 1), (26, 6), (465, 7)]
  busy s h p := upusBusy s h p || foldBlocked s h p
  domains _ _ p := (upusOf p).map uncoreDomain ++ (upusOf p).map memoryDomain
  exam s h p x :=
    match s.table? (pkCtx p) (efTable p) with
    | none => x.badWhen true (512 + 456)
    | some t =>
      let k := foldRule p
      let x1 := x.badWhen (!efDiscard p && !(t.mEn = k.keepsM && t.vEn = decide (k.rule = 1))) 512
      if pkClass p = 0 then x1.work h h 1 else
      let n := (upusOf p).length
      let far := ((upusOf p).filter fun d => halfOfDie d ≠ h).length
      let other := efUnits p * far / max n 1
      (x1.work h h (efUnits p - other)).work h h.other other
  mirrored := upusAcross

/-- Totals of a fold: rows updated, rows or records discarded, and the UPU's counts. -/
structure FoldTally where
  rows : Nat := 0
  discarded : Nat := 0
  dups : Nat := 0
  t : UpTally := {}

/-- What the row functions of a fold share. -/
structure FoldEnv where
  ctx : Nat
  tid : Nat
  t : TableDef
  key : Option Nat
  rule : UpRule
  keys : WorkKeys
  discard : Bool

/-- Moments of a row as read: its blocks of 128 elements (R313). -/
def rowMoments (root : Bool) (width : Nat) (bs : List Nat) : List Nat :=
  (List.range (ceilDiv width 128)).flatMap fun i => decodeMoments root ((bs.drop (132 * i)).take 132) (min 128 (width - 128 * i))

/-- Moments of a row as written (R260, R313). -/
def momentRow (root : Bool) (vs : List Nat) : List Nat := (chunks 128 vs).flatMap (encodeMoments root)

/-- Apply a gradient to the elements of a row, one after another. -/
def foldElems (k : UpRule) : List (Nat × Nat × Nat × Nat) → UpTally → List UpElem × UpTally
  | [], t => ([], t)
  | (w, g, m, v) :: rest, t =>
    let x := k.element t w g m v
    let y := foldElems k rest x.2
    (x.1 :: y.1, y.2)

/-- Apply the gradient of one row (R321): old weights and moments, the rule, and what is written. -/
def State.foldRow (s : State) (fe : FoldEnv) (e : Shard) (row : Nat) (g : List Nat) (n : FoldTally) :
    State × Option Result × FoldTally :=
  let t := fe.t
  let own := t.masterless || t.fmt = 0
  let f := (Fmt.ofCode t.fmt).getD .fp32
  let mb := 132 * ceilDiv t.width 128
  let a : State × Except Result (List Nat) :=
    if own then s.peekRow e.die fe.ctx fe.tid t fe.key e row
    else s.readAt e.die fe.ctx fe.key (t.masterAt e row) (4 * t.width)
  let m : State × Except Result (List Nat) := if t.mEn then a.1.readAt e.die fe.ctx fe.key (t.mAt e row) mb else (a.1, .ok [])
  let v : State × Except Result (List Nat) := if t.vEn then m.1.readAt e.die fe.ctx fe.key (t.vAt e row) mb else (m.1, .ok [])
  match a.2, m.2, v.2 with
  | .ok wb, .ok mbs, .ok vbs =>
    let zeros := List.replicate t.width 0
    let w := if own then (codesOf f.bytes (wb.take (t.width * f.bytes))).map (widen f .strict) else codesOf 4 wb
    let ms := if t.mEn then rowMoments false t.width mbs else zeros
    let vs := if t.vEn then rowMoments true t.width vbs else zeros
    let x := foldElems fe.rule (w.zip (g.zip (ms.zip vs))) n.t
    let ws := x.1.map (·.w)
    let rounded := (ws.zip (List.range ws.length)).map fun y => fe.keys.round (row * t.width + y.2) y.1
    let codes := if t.fmt = 0 then ws else rounded.map (·.code)
    let sat := if t.fmt = 0 then 0 else (rounded.filter (·.overflow)).length
    let bytes := codes.flatMap (bytesOf f.bytes)
    let padded := bytes ++ List.replicate (t.pitch - bytes.length) 0
    let s1 := v.1.writeRow e.die fe.ctx fe.tid t fe.key e row padded
    let s2 := if own then s1 else s1.1.writeAt e.die fe.ctx fe.key (t.masterAt e row) (ws.flatMap (bytesOf 4))
    let s3 := if t.mEn then s2.1.writeAt e.die fe.ctx fe.key (t.mAt e row) (momentRow false (x.1.map (·.m))) else s2
    let s4 := if t.vEn then s3.1.writeAt e.die fe.ctx fe.key (t.vAt e row) (momentRow true (x.1.map (·.v))) else s3
    match s1.2, s2.2, s3.2, s4.2 with
    | .ok (), .ok (), .ok (), .ok () =>
      (s4.1, none, { n with
        rows := n.rows + 1
        t := { x.2 with saturated := x.2.saturated + sat, amax := max x.2.amax (greatest (ws.map abs32)) } })
    | .error r, _, _, _ => (s4.1, some r, n)
    | _, .error r, _, _ => (s4.1, some r, n)
    | _, _, .error r, _ => (s4.1, some r, n)
    | _, _, _, .error r => (s4.1, some r, n)
  | .error r, _, _ => (v.1, some r, n)
  | _, .error r, _ => (v.1, some r, n)
  | _, _, .error r => (v.1, some r, n)

/-- Clear the shadow, COUNT and touched bit of a row (R321). -/
def State.clearShadow (s : State) (fe : FoldEnv) (e : Shard) (row : Nat) : State × Except Result Unit :=
  let a := s.writeAt e.die fe.ctx fe.key (fe.t.shadowAt e row) (List.replicate (64 + 8 * fe.t.width) 0)
  match a.2 with
  | .error r => (a.1, .error r)
  | .ok () =>
    let b := a.1.readAt e.die fe.ctx fe.key (fe.t.bitmapAt e row) 1
    match b.2 with
    | .error r => (b.1, .error r)
    | .ok o => b.1.writeAt e.die fe.ctx fe.key (fe.t.bitmapAt e row) [setBits (o.getD 0 0) ((row - e.first) % 8) 1 0]

/-- g_e of a shadow element (R322). -/
def shadowValue (fixExp : Int) (v : Nat) : Nat := round32 .strict ((FVal.ofInt (signed v 64)).scale fixExp)

/-- One row of an EXACT_SUM entry, if its touched bit is set (R322). -/
def State.foldExact (s : State) (fe : FoldEnv) (e : Shard) (row : Nat) (n : FoldTally) : State × Option Result × FoldTally :=
  let a := s.readAt e.die fe.ctx fe.key (fe.t.bitmapAt e row) 1
  match a.2 with
  | .error r => (a.1, some r, n)
  | .ok o =>
    if !bitSet (o.getD 0 0) ((row - e.first) % 8) then (s, none, n) else
    let b := a.1.readAt e.die fe.ctx fe.key (fe.t.shadowAt e row) (64 + 8 * fe.t.width)
    match b.2 with
    | .error r => (b.1, some r, n)
    | .ok bs =>
      let g := (codesOf 8 (bs.drop 64)).map (shadowValue fe.t.fixExp)
      let c : State × Option Result × FoldTally :=
        if fe.discard || numOf (bs.take 4) > 2 ^ 24 then (b.1, none, { n with discarded := n.discarded + 1 })
        else b.1.foldRow fe e row g n
      if c.2.1.isSome then c else
      let d := c.1.clearShadow fe e row
      (d.1, match d.2 with | .ok () => none | .error r => some r, c.2.2)

/-- A staged record: sort key (ROW_K, SRC_POS, SRC_SEQ, CHUNK), and its values (R318, R323). -/
structure Rcrd where
  k : Nat
  key : Nat
  values : List Nat

/-- The record of header and values at a place of the staging. -/
def recordOf (bs : List Nat) (width : Nat) : Rcrd :=
  let h := numOf (bs.take 32)
  { k := bits h 0 40, key := (bits h 40 12 * 2 ^ 32 + bits h 64 32) * 2 ^ 24 + bits h 96 24
    values := codesOf 4 ((bs.drop 32).take (4 * width)) }

/-- Insert a record, after those with an equal or smaller key. -/
def insertRecord (x : Rcrd) : List Rcrd → List Rcrd
  | [] => [x]
  | y :: rest => if x.k < y.k || (x.k = y.k && x.key < y.key) then x :: y :: rest else y :: insertRecord x rest

/-- Records in sorted order, equal keys in staging order (R323). -/
def sortRecords (l : List Rcrd) : List Rcrd := l.foldl (fun acc x => insertRecord x acc) []

/-- Records whose key repeats the one before. -/
def dupKeys : List Rcrd → Nat
  | a :: b :: rest => (if a.k = b.k && a.key = b.key then 1 else 0) + dupKeys (b :: rest)
  | _ => 0

/-- Apply the rows of sorted records in ascending order (R323): the condition that stopped them, the rows left, and the tally. -/
def State.foldRecords (s : State) (fe : FoldEnv) (e : Shard) (recs : List Rcrd) :
    List Nat → FoldTally → State × Option Result × List Nat × FoldTally
  | [], n => (s, none, [], n)
  | k :: rest, n =>
    let g := match (recs.filter (·.k = k)).map (·.values) with
      | [] => []
      | v :: more => more.foldl (fun p w => (p.zip w).map fun x => add32 .strict x.1 x.2) v
    let a := s.foldRow fe e (e.first + k) g n
    if a.2.1.isSome then (a.1, a.2.1, k :: rest, a.2.2) else a.1.foldRecords fe e recs rest a.2.2

/-- Set how many bytes of an entry's staging are in use. -/
def State.setUsed (s : State) (ctx tid cxa used : Nat) : State :=
  match s.table? ctx tid with
  | some t => s.setTable ctx tid (t.setStaging { cxa := cxa, used := used })
  | none => s

/-- The staging of one entry (R323): discarded when it overflowed, else applied; the records of the rows applied leave it (R321). -/
def State.foldStaged (s : State) (fe : FoldEnv) (e : Shard) (n : FoldTally) : State × Option Result × FoldTally :=
  let st := fe.t.staging e
  let rb := fe.t.recordBytes
  let count := st.used / max rb 1
  if st.overflowed || fe.discard then (s.setUsed fe.ctx fe.tid e.cxa 0, none, { n with discarded := n.discarded + count }) else
  if count = 0 then (s, none, n) else
  let a := s.readAt e.die fe.ctx fe.key (fe.t.stageAt e) st.used
  match a.2 with
  | .error r => (a.1, some r, n)
  | .ok bs =>
    let staged := chunks rb bs
    let recs := sortRecords (staged.map fun b => recordOf b fe.t.width)
    let b := a.1.foldRecords fe e recs ((recs.map (·.k)).eraseDups) { n with dups := n.dups + dupKeys recs }
    let stay := (staged.filter fun x => b.2.2.1.contains (recordOf x fe.t.width).k).flatten
    let w := if stay.isEmpty then b.1 else (b.1.writeAt e.die fe.ctx fe.key (fe.t.stageAt e) stay).1
    (w.setUsed fe.ctx fe.tid e.cxa stay.length, b.2.1, b.2.2.2)

/-- The rows of an EXACT_SUM entry in ascending order. -/
def State.foldRows (s : State) (fe : FoldEnv) (e : Shard) : Nat → Nat → FoldTally → State × Option Result × FoldTally
  | _, 0, n => (s, none, n)
  | row, left + 1, n =>
    let a := s.foldExact fe e row n
    if a.2.1.isSome then a else a.1.foldRows fe e (row + 1) left a.2.2

/-- Entries one after another, each with its own tally, up to the first that stops. -/
def State.foldEntries (s : State) (fe : FoldEnv) (es : List Shard) : List Shard → State × Option Result × List (Nat × FoldTally)
  | [] => (s, none, [])
  | e :: rest =>
    let a := if fe.t.touched then s.foldStaged fe e {} else s.foldRows fe e e.first (fe.t.rowsOf es e) {}
    if a.2.1.isSome then (a.1, a.2.1, [(e.die, a.2.2)]) else
    let b := a.1.foldEntries fe es rest
    (b.1, b.2.1, (e.die, a.2.2) :: b.2.2)

/-- The fold of a table's entries that lie on the Update Units an EMB_FOLD names (R319, R320). -/
def foldWork (s : State) (h : Half) (c : Cmd) (t : TableDef) : State × Option Result × List (Nat × FoldTally) :=
  let p := c.packet
  let fe : FoldEnv :=
    { ctx := pkCtx p, tid := efTable p, t := t, key := some (attrKey p), rule := foldRule p, discard := efDiscard p
      keys := { fmtW := t.fmt, exp := if t.fmt = 3 || t.fmt = 4 then c.slotExp t.slot else 0, seed := s.seedOf h c, step := pl p 32 32
                tensor := pl p 64 32 } }
  let es := t.mapAt c.admitted
  s.foldEntries fe es (es.filter fun e => e.pos = s.ownPos (pkCtx p) && (upusOf p).contains e.die)

/-- A sum over the Update Units of a fold. -/
def foldSum (f : FoldTally → Nat) (l : List (Nat × FoldTally)) : Nat := total (l.map fun x => f x.2)

/-- EMB_FOLD, applying or discarding, on the entries of this module whose dies' UPUs are named (R320 to R323, R326). -/
def runFold (s : State) (h : Half) (c : Cmd) : State :=
  let p := c.packet
  let ctx := pkCtx p
  match s.table? ctx (efTable p) with
  | none => s.finish h c (engineResult h srcTableMiss)
  | some t =>
    let fp8 : Bool := t.fmt = 3 || t.fmt = 4
    let z := foldWork s h c t
    let sum (f : FoldTally → Nat) : Nat := foldSum f z.2.2
    let report := if fp8 && sum (·.rows) ≠ 0 then
        addReport c.reports t.slot (greatest (z.2.2.map fun x => x.2.t.amax)) (sum (·.t.saturated))
      else c.reports
    let s1 := z.2.2.foldl (fun u x =>
      (((u.countUpu x.1 1 x.2.t.nonfinite).countUpu x.1 2 x.2.t.clamps).countUpu x.1 3 x.2.t.saturated).countEme x.1 7 x.2.dups) z.1
    s1.finish h { c with reports := report } (match z.2.1 with
      | some r => r
      | none => okResult (sum (·.rows)) (sum (·.discarded)) (sum (·.t.nonfinite) + sum (·.t.clamps)))

/-- EMB_FOLD with DISCARD = 0. -/
def execEmbFold (id : Nat) (s : State) : Host.Outcome State Fault Refusal :=
  .next (onCommand s id 0x0705 (fun c => !efDiscard c.packet) runFold)

/-- EMB_FOLD with DISCARD = 1: shadows and staging are cleared without being applied (R320). -/
def execEmbFoldDiscard (id : Nat) (s : State) : Host.Outcome State Fault Refusal :=
  .next (onCommand s id 0x0705 (fun c => efDiscard c.packet) runFold)

/-! ## ROW_MIGRATE (R327 to R331) -/

def rmFirst (p : Nat) : Nat := pl p 16 48
def rmCount (p : Nat) : Nat := pl p 64 48
def rmStroke (p : Nat) : Nat := pl p 192 64
/-- The new entry of a ROW_MIGRATE. -/
def rmTo (p : Nat) : Shard :=
  { first := rmFirst p, pos := pl p 128 12, die := 4 * pl p 140 1 + pl p 141 2, cxa := pl p 144 48 }

/-- Bytes of a row with its companions, as a migration moves them: each array with its pitch (R313, R333). -/
def TableDef.movedBytes (t : TableDef) : Nat :=
  t.pitch + (if t.off (512 + 64) = 0 then 0 else t.masterPitch)
    + (if t.mEn then t.momentPitch else 0) + (if t.vEn then t.momentPitch else 0)
    + if t.touched then 0 else t.shadowPitch

/-- Bytes of staged records that a migration takes from its source, as its staging stands (R329, R333). -/
def State.movedRecords (s : State) (ctx : Nat) (t : TableDef) (m : Move) : Nat :=
  let st := t.staging m.source
  if !t.touched || st.used = 0 || m.source.pos ≠ s.ownPos ctx then 0 else
  let bs := (({ mem := s.view } : Run).load (s.envOf (halfOfDie m.source.die) ctx) (t.stageAt m.source) st.used).1
  t.recordBytes * ((chunks t.recordBytes bs).filter fun b => m.has (m.source.first + numOf (b.take 5))).length

/-- Is a region mapped to frames of the stacks of a die (R284, R327)? -/
def Env.onDie (e : Env) (d : Nat) (r : Nat × Nat) : Bool :=
  (pieces 2048 r.1 r.2).all fun p => match e.translate p.1 with
    | .here dpa _ => dpaRegion dpa = 0 && dpaDie dpa = d
    | _ => false

def specRowMigrate : OpSpec where
  ring := .c
  lo := 1
  hi := 2
  classes := [0, 10, 14]
  head _ p :=
    checks [(512 + 16, rmFirst p % 16 ≠ 0), (512 + 64, rmCount p = 0), (512 + 144, pl p 144 48 % 256 ≠ 0)]
    ++ reservedPl p [(8, 8), (112, 16), (143, 1), (256, 256), (512, 512 * (pkUnits p - 1))]
  exam s h p x0 :=
    let ctx := pkCtx p
    let x := examTogether s h p x0
    match s.table? ctx (pl p 0 8) with
    | none => x.badWhen true 512
    | some t =>
      let es := t.mapFull
      let target := rmTo p
      match ownerIn es (rmFirst p) with
      | none => x.badWhen true (512 + 16)
      | some e =>
        let busy := t.moves.any fun m => (s.cmd? m.cmd).isSome && (m.source = e || m.target = e)
        let x1 := x.badWhen (rmFirst p + rmCount p ≠ e.first + t.rowsOf es e) (512 + 64)
        let x2 := x1.badWhen (target.pos = e.pos && target.die = e.die) (512 + 128)
        let after := insertShard target es
        let x3 := (x2.badWhen (after.length > 65536) 512).badWhen (t.exactOver after) (512 + 128)
        let x4 := (x3.badWhen busy 512).badWhen (rmStroke p < s.now h + 1000) (512 + 192)
        let mine := target.pos = s.ownPos ctx
        let regions := t.regions target (rmCount p)
        let others := (after.filter fun y => y.pos = target.pos && y ≠ target).flatMap fun y => t.regions y (t.rowsOf after y)
        let env := s.envOf (halfOfDie target.die) ctx
        let x5 := x4.badWhen (mine && ((dieOutside (s.footprintOf ctx) target.die) || !(regions.all (env.onDie target.die))
          || regions.any fun r => others.any fun q => overlaps r.1 r.2 q.1 q.2)) (512 + 144)
        let n := rmCount p * t.movedBytes
          + s.movedRecords ctx t { target := target, source := e, count := rmCount p, stroke := 0, cmd := 0 }
        if pkClass p = 0 then x5.work h h 1 else
        let y := if e.pos = s.ownPos ctx then x5.work h (halfOfDie e.die) n else x5
        if mine then y.work h (halfOfDie target.die) n else y
  mirrored s h p := ctxBoth s h p

/-- What a copied row carries: row, master and moments, and in EXACT_SUM the shadow row with its touched bit in front. -/
structure RowCopy where
  bytes : List Nat
  shadow : List Int

/-- The data of a row at its source (R329). -/
def State.copyOf (s : State) (ctx tid : Nat) (t : TableDef) (key : Option Nat) (e : Shard) (row : Nat) : State × Except Result RowCopy :=
  let d := e.die
  let mb := 132 * ceilDiv t.width 128
  let a := s.peekRow d ctx tid t key e row
  let b : State × Except Result (List Nat) :=
    if t.off (512 + 64) = 0 then (a.1, .ok []) else a.1.readAt d ctx key (t.masterAt e row) (4 * t.width)
  let m : State × Except Result (List Nat) := if t.mEn then b.1.readAt d ctx key (t.mAt e row) mb else (b.1, .ok [])
  let v : State × Except Result (List Nat) := if t.vEn then m.1.readAt d ctx key (t.vAt e row) mb else (m.1, .ok [])
  let sh : State × Except Result (List Nat) := if t.touched then (v.1, .ok []) else v.1.readAt d ctx key (t.shadowAt e row) (64 + 8 * t.width)
  let bit : State × Except Result (List Nat) := if t.touched then (sh.1, .ok []) else sh.1.readAt d ctx key (t.bitmapAt e row) 1
  match a.2, b.2, m.2, v.2, sh.2, bit.2 with
  | .ok a1, .ok b1, .ok m1, .ok v1, .ok s1, .ok t1 =>
    let touched := if bitSet (t1.getD 0 0) ((row - e.first) % 8) then 1 else 0
    let shadow : List Int := if t.touched then [] else
      (touched : Int) :: ((numOf (s1.take 4) : Nat) : Int) :: (codesOf 8 (s1.drop 64)).map fun (x : Nat) => (x : Int)
    (bit.1, .ok { bytes := a1 ++ b1 ++ m1 ++ v1, shadow := shadow })
  | .error r, _, _, _, _, _ => (bit.1, .error r)
  | _, .error r, _, _, _, _ => (bit.1, .error r)
  | _, _, .error r, _, _, _ => (bit.1, .error r)
  | _, _, _, .error r, _, _ => (bit.1, .error r)
  | _, _, _, _, .error r, _ => (bit.1, .error r)
  | _, _, _, _, _, .error r => (bit.1, .error r)

/-- Serve the requests held for a row that has now arrived (R329). -/
def State.serveHeld (s : State) (h : Half) (ctx row : Nat) : State :=
  let waits (x : Nat × Frame) : Bool := match x.2.row with | .request _ (r :: _) => r = row | _ => false
  let held := ((s.half h).ctx ctx).heldRows.filter waits
  let s1 := s.modHalf h fun x => x.modCtx ctx fun k => { k with heldRows := k.heldRows.filter fun y => !waits y }
  held.foldl (fun t y => State.settleAnswer h y.1 y.2 (serveRow h y.1 t y.2)) s1

/-- A copied row arrives at its new entry (R329): it is written with its companions, its shadow is added, and requests held for it
are served. -/
def State.landCopy (s : State) (ctx tid : Nat) (t : TableDef) (key : Option Nat) (m : Move) (row : Nat) (x : RowCopy) :
    State × Except Result Unit :=
  let d := m.target.die
  let mb := 132 * ceilDiv t.width 128
  let n1 := t.pitch
  let n2 := n1 + if t.off (512 + 64) = 0 then 0 else 4 * t.width
  let n3 := n2 + if t.mEn then mb else 0
  let part (lo n : Nat) : List Nat := (x.bytes.drop lo).take n
  let a := s.writeAt d ctx key (t.rowAt m.target row) (part 0 n1)
  let b := if n2 = n1 then a else a.1.writeAt d ctx key (t.masterAt m.target row) (part n1 (4 * t.width))
  let c := if t.mEn then b.1.writeAt d ctx key (t.mAt m.target row) (part n2 mb) else b
  let v := if t.vEn then c.1.writeAt d ctx key (t.vAt m.target row) (part n3 mb) else c
  let w : State × Except Result Unit := match x.shadow with
    | touched :: count :: els => v.1.addShadow d ctx t key m.target row count.toNat touched.toNat (els.map fun y => unsigned y 64)
    | _ => (v.1, .ok ())
  match a.2, b.2, c.2, v.2, w.2 with
  | .ok (), .ok (), .ok (), .ok (), .ok () =>
    let s1 := match w.1.table? ctx tid with
      | some t1 => (match t1.moves.find? (fun (y : Move) => decide (y.cmd = m.cmd)) with
        | some m1 => w.1.setTable ctx tid (t1.setMove { m1 with arrived := m1.arrived ++ [row] })
        | none => w.1)
      | none => w.1
    (s1.serveHeld (halfOfDie d) ctx row, .ok ())
  | .error r, _, _, _, _ => (w.1, .error r)
  | _, .error r, _, _, _ => (w.1, .error r)
  | _, _, .error r, _, _ => (w.1, .error r)
  | _, _, _, .error r, _ => (w.1, .error r)
  | _, _, _, _, .error r => (w.1, .error r)

/-- The command of a migration ends with a result. -/
def State.endMove (s : State) (m : Move) (r : Result) : State :=
  match s.cmd? m.cmd with
  | some (h, c) => if c.done.isNone then s.finish h c r else s
  | none => s

/-- What this module holds of the rows of a range, at the old owner and at the new one, becomes undefined (R331). -/
def State.veilMove (s : State) (ctx : Nat) (t : TableDef) (m : Move) : State :=
  let row := m.target.first
  let veil (u : State) (e : Shard) : State :=
    if e.pos ≠ s.ownPos ctx then u else
    let env := s.envOf (halfOfDie e.die) ctx
    let a := u.veilRange env (t.rowAt e row) (m.count * t.pitch)
    let b := if t.off (512 + 64) = 0 then a else a.veilRange env (t.masterAt e row) (m.count * t.masterPitch)
    let c := if t.mEn then b.veilRange env (t.mAt e row) (m.count * t.momentPitch) else b
    if t.vEn then c.veilRange env (t.vAt e row) (m.count * t.momentPitch) else c
  [m.source, m.target].foldl veil s

/-- A participant cannot complete: its ROW_MIGRATE ends with ERR_FAULT, and the rows of the range are undefined (R331). -/
def State.failMove (s : State) (ctx tid id : Nat) (r : Result) : State :=
  let res : Result := { r with status := stFault }
  match (s.table? ctx tid).bind fun t => (t.moves.find? (·.cmd = id)).map (t, ·) with
  | none => (match s.cmd? id with | some (h, c) => s.finish h c res | none => s)
  | some (t, m) => ((s.veilMove ctx t m).setTable ctx tid (t.setMove { m with failed := true })).endMove m res

/-- A command ends with an error from outside: a ROW_MIGRATE as R331 says. -/
def State.failCmd (s : State) (h : Half) (c : Cmd) (r : Result) : State :=
  if pkOpcode c.packet = 0x0706 then s.failMove (pkCtx c.packet) (pl c.packet 0 8) c.id r else s.finish h c r

/-- The source copies its rows in ascending order (R329). -/
def State.copyRows (s : State) (c : Cmd) (tid : Nat) (t : TableDef) (m : Move) : Nat → Nat → State × Option Result
  | _, 0 => (s, none)
  | row, left + 1 =>
    let ctx := c.ctx.getD 0
    let key := some (attrKey c.packet)
    let a := s.copyOf ctx tid t key m.source row
    match a.2 with
    | .error r => (a.1, some r)
    | .ok x =>
      let b : State × Option Result :=
        if m.target.pos = s.ownPos ctx then
          let z := (a.1.crossDies c m.source.die m.target.die t.movedBytes).landCopy ctx tid t key m row x
          (z.1, match z.2 with | .ok () => none | .error r => some r)
        else
          let z := a.1.send (halfOfDie m.target.die) (some c.id)
            { type := 0x5, dst := m.target.pos, ctx := ctx, gen := c.gen, addr := m.target.die, row := .copy tid row x.bytes x.shadow }
          (z.1, if z.2 then none else some (engineResult (halfOfDie m.target.die) srcUnreachable))
      match b.2 with
      | some r => (b.1, some r)
      | none => b.1.copyRows c tid t m (row + 1) left

/-- The records of a range leave the source's staging for the destination's (R329). -/
def State.moveRecords (s : State) (c : Cmd) (tid : Nat) (t : TableDef) (m : Move) : State × Nat × Option Result :=
  let ctx := c.ctx.getD 0
  let key := some (attrKey c.packet)
  let st := t.staging m.source
  if !t.touched || st.used = 0 then (s, 0, none) else
  let a := s.readAt m.source.die ctx key (t.stageAt m.source) st.used
  match a.2 with
  | .error r => (a.1, 0, some r)
  | .ok bs =>
    let all := chunks t.recordBytes bs
    let inRange (b : List Nat) : Bool := m.has (m.source.first + numOf (b.take 5))
    let stay := (all.filter fun b => !inRange b).flatten
    let go := all.filter inRange
    let b := a.1.writeAt m.source.die ctx key (t.stageAt m.source) stay
    let s1 := match b.1.table? ctx tid with
      | some t1 => b.1.setTable ctx tid (t1.setStaging { st with used := stay.length })
      | none => b.1
    let parts := go.map fun r =>
      let hd := numOf (r.take 32)
      (m.source.first + bits hd 0 40, Partial.record (hd - bits hd 0 40) (codesOf 4 ((r.drop 32).take (4 * t.width))))
    let send (acc : State × Option Result) (x : Nat × Partial) : State × Option Result :=
      if m.target.pos = s.ownPos ctx then
        let z := (acc.1.crossDies c m.source.die m.target.die t.recordBytes).landPartial ctx tid key m.target x.1 x.2
        (z.1, acc.2.or (match z.2 with | .ok () => none | .error r => some r))
      else
        let z := acc.1.send (halfOfDie m.target.die) (some c.id)
          { type := 0x5, dst := m.target.pos, ctx := ctx, gen := c.gen, addr := m.target.die, row := x.2.body tid x.1 }
        (z.1, acc.2.or (if z.2 then none else some (engineResult (halfOfDie m.target.die) srcUnreachable)))
    let z := parts.foldl send (s1, none)
    (z.1, parts.length, z.2)

/-- MIGRATION_COPY at the new owner; a copy that comes before the command here is held until it (R329). One that cannot be written ends
the migration here, and is refused (R331). -/
def takeCopy (h : Half) (port : Nat) (s : State) (f : Frame) : Answer :=
  match f.row with
  | .copy tid row bs sh =>
    (match s.table? f.ctx tid with
    | none => .refuse s rsEngine
    | some t =>
      if !Frame.intact f then .refuse s rsSeal else
      if s.underWay h f then .later s else
      match t.moves.find? fun m => m.has row && m.phase < 2 && m.target.die = f.addr && m.target.pos = s.ownPos f.ctx && m.source.pos = f.src with
      | none => s.holdFrame h port f
      | some m =>
        let z := s.landCopy f.ctx tid t none m row { bytes := bs, shadow := sh }
        match z.2 with
        | .ok () => .done z.1
        | .error r => .refuse (z.1.failMove f.ctx tid m.cmd r) (nackCode r))
  | _ => .refuse s rsField

def execMigrationCopy (h : Half) (port : Nat) (f : Frame) (s : State) : Host.Outcome State Fault Refusal :=
  .next (match f.row with
    | .copy _ _ _ _ => s.receive h port f 0x5 (takeCopy h port)
    | _ => s)

/-- What takes a frame that was held for a migration. -/
def takeMoved (h : Half) (port : Nat) (s : State) (f : Frame) : Answer :=
  match f.row with
  | .copy _ _ _ _ => takeCopy h port s f
  | _ => takePartial h port s f

/-- Copies and partials that were held for a migration whose command has now come (R329). -/
def State.takeHeldCopies (s : State) (h : Half) (ctx tid : Nat) : State :=
  let moved (x : Nat × Frame) : Bool := match x.2.row with
    | .copy i _ _ _ => i = tid
    | .exactSum i _ _ _ => i = tid
    | .staged i _ _ _ => i = tid
    | _ => false
  let held := ((s.half h).ctx ctx).heldRows.filter moved
  let s1 := s.modHalf h fun x => x.modCtx ctx fun k => { k with heldRows := k.heldRows.filter fun y => !moved y }
  held.foldl (fun t y => State.settleAnswer h y.1 y.2 (takeMoved h y.1 t y.2)) s1

/-- ROW_MIGRATE: this module takes its role; a source installs the forwarding and copies (R328, R329). The command stays until the
switch, or as source or destination until the range retires. -/
def runRowMigrate (s : State) (h : Half) (c : Cmd) : State :=
  let p := c.packet
  let ctx := pkCtx p
  let tid := pl p 0 8
  match s.table? ctx tid with
  | none => s.finish h c (engineResult h srcTableMiss)
  | some t0 =>
    match ownerIn t0.mapFull (rmFirst p) with
    | none => s.finish h c (engineResult h srcTableMiss)
    | some e =>
      let m : Move := { target := rmTo p, source := e, count := rmCount p, stroke := rmStroke p, cmd := c.id }
      let t := { t0 with moves := t0.moves ++ [m] }
      let s1 := (s.setTable ctx tid t).setCmd h { c with waiting := true, idle := 0, idleOther := 0 }
      let pos := s.ownPos ctx
      if e.pos ≠ pos then
        (if m.target.pos = pos then s1.takeHeldCopies (halfOfDie m.target.die) ctx tid else s1)
      else
        let a := s1.copyRows c tid t m m.target.first m.count
        let b := match a.1.table? ctx tid with
          | some t1 => a.1.moveRecords c tid t1 m
          | none => (a.1, 0, none)
        match a.2.or b.2.2 with
        | some r => b.1.failMove ctx tid c.id r
        | none =>
          match b.1.table? ctx tid with
          | some t1 => (match t1.moves.find? (·.cmd = c.id) with
            | some m1 => b.1.setTable ctx tid (t1.setMove { m1 with copied := m.count, records := b.2.1 })
            | none => b.1)
          | none => b.1

def execRowMigrate (id : Nat) (s : State) : Host.Outcome State Fault Refusal :=
  .next (onCommand s id 0x0706 (fun _ => true) runRowMigrate)

/-- Change every migration of a table of the resident context of a half. -/
def State.onMoves (s : State) (h : Half) (tid : Nat) (f : State → Nat → TableDef → Move → State) : State :=
  match (s.half h).resident with
  | none => s
  | some ctx =>
    match s.table? ctx tid with
    | none => s
    | some t => t.moves.foldl (fun u m => match u.table? ctx tid with | some t1 => f u ctx t1 m | none => u) s

/-- MIGRATION_SWITCH: at SWITCH_STROKE the routing of the range changes, and users complete (R328, R330). -/
def execMigrationSwitch (h : Half) (table : Nat) (s : State) : Host.Outcome State Fault Refusal :=
  .next (s.onMoves h table fun u ctx t m =>
    if m.switched || s.now h < m.stroke then u else
    let v := u.setTable ctx table (t.setMove { m with switched := true })
    if m.source.pos = s.ownPos ctx || m.target.pos = s.ownPos ctx then v else v.endMove m (okResult 0 0 0))

/-- MIGRATION_FORWARDING: the source's range enters FORWARDING once its copy is done and the switch stroke reached (R330). -/
def execMigrationForwarding (h : Half) (table : Nat) (s : State) : Host.Outcome State Fault Refusal :=
  .next (s.onMoves h table fun u ctx t m =>
    if m.phase = 0 && !m.failed && m.switched && m.source.pos = s.ownPos ctx && m.copied = m.count && !s.hasUnacked m.cmd then
      u.setTable ctx table (t.setMove { m with phase := 1 })
    else u)

/-- Epochs of the rows of a range, each advanced by one (R330). -/
def bumpEpochs (t : Table) (first : Nat) : Nat → Table
  | 0 => t
  | n + 1 => (bumpEpochs t first n).set (first + n) (((bumpEpochs t first n).at (first + n) + 1) % 2 ^ 16)

/-- The lines and hot rows of a range that has retired leave its old owner: nothing is written to storage that is no longer the row's
(R303, R330). -/
def Well.dropRows (w : Well) (tid : Nat) (t : TableDef) (m : Move) : Well :=
  { w with
    lines := w.lines.filter fun l => !(l.key / 2 ^ 40 = tid && m.has (l.key % 2 ^ 40 * t.lineRows))
    hot := w.hot.filter fun r => !(r.table = tid && m.has r.row) }

/-- MIGRATION_RETIRE: 100,000 strokes after the switch, with nothing pending, the range retires: the source refuses it, row epochs
advance at the destination, and source and destination complete (R330). -/
def execMigrationRetire (h : Half) (table : Nat) (s : State) : Host.Outcome State Fault Refusal :=
  .next (s.onMoves h table fun u ctx t m =>
    let pos := s.ownPos ctx
    let source : Bool := m.source.pos = pos
    let dest : Bool := m.target.pos = pos
    let ready := if source then m.phase = 1 else dest && m.switched && m.arrived.length = m.count
    if m.phase = 2 || m.failed || !ready || s.now h < m.stroke + 100000 then u else
    let t1 := t.setMove { m with phase := 2 }
    let t2 := if dest then { t1 with epochs := bumpEpochs t1.epochs m.target.first m.count } else t1
    let v := if source then u.setWell m.source.die ((u.well m.source.die).dropRows table t m) else u
    (v.setTable ctx table t2).endMove m (if source then okResult m.copied m.forwarded m.records else okResult 0 0 0))

end Sys2Proof.Machine
end

