-- ==== Sys2Proof/Machine/Contexts.lean ====
section
/-! DEFINITION. Contexts, rings and the memory map: CTX_DEFINE, CTX_SWITCH and its sequence, CTX_TEARDOWN, CTX_RELEASE,
RING_DEFINE, RING_DELETE, MAP_WRITE, and the events of a switch, a teardown and a drained map (R81, R94 to R101, R104, R515). -/

namespace Sys2Proof.Machine

/-! ## CTX_DEFINE (R94) -/

def cdFootprint (p : Nat) : Nat := pl p 0 2
def cdGen (p : Nat) : Nat := pl p 32 32

def specCtxDefine : OpSpec where
  ring := .m
  lo := 1
  hi := 1
  unsupported p :=
    if Config.protocolVersion < pl p 8 8 then some (512 + 8) else if pl p 16 8 < Config.protocolVersion then some (512 + 16) else none
  head _ p := checks [(32, pkGen p ≠ 0), (512, cdFootprint p = 0), (512 + 128, pl p 128 48 % frameBytes ≠ 0),
      (512 + 192, pl p 192 8 > 63), (512 + 200, pl p 200 8 > 63),
      (512 + 208, pl p 208 8 = 0 || pl p 208 8 > 64), (512 + 216, pl p 216 8 = 0 || pl p 216 8 > 64)]
    ++ reservedPl p [(3, 5), (24, 8), (176, 16), (224, 288)]
  exam s h p x :=
    let halves := footprintHalves (cdFootprint p)
    -- the ID must be UNDEFINED in the module, as far as the home half can see it (R96)
    let seen := if s.together h then [h, h.other] else [h]
    let x1 := x.badWhen (seen.any fun g => ((s.half g).ctx (pkCtx p)).st ≠ .undefined) 24
    let x2 := x1.badWhen (halves.any fun g => cdGen p ≤ (s.half g).gen (pkCtx p)) (512 + 32)
    let reach := inFootprint (cdFootprint p) h.other && !s.together h
    -- a two-half footprint waits for the generation records (R24, R447) and for equal firmware versions (R484)
    let pair := cdFootprint p = 3 && (s.q.recordsLost || s.k.recordsLost || s.q.fwVersion ≠ s.k.fwVersion)
    x2.badWhen (reach || pair) 512
  mirrored s h p := inFootprint (cdFootprint p) h.other && s.together h

/-- The context that a CTX_DEFINE creates in each half of its footprint (R94, R166). -/
def ctxOfPacket (p : Nat) : Ctx :=
  { id := pkCtx p, gen := cdGen p, st := .defined, footprint := cdFootprint p, peers := pl p 2 1 = 1
    version := Config.protocolVersion, seed := pl p 64 64, saveCxa := pl p 128 48, peerX := pl p 192 8, peerY := pl p 200 8
    peerW := pl p 208 8, peerH := pl p 216 8 }

/-- CTX_DEFINE: the new generation becomes the record of every half of the footprint, and each holds the context DEFINED. The
negotiated version is returned in DETAIL0 (R88, R94). -/
def runCtxDefine (s : State) (h : Half) (c : Cmd) : State :=
  let define (t : State) (g : Half) : State :=
    t.modHalf g fun x => { x.setCtx (ctxOfPacket c.packet) with gens := x.gens.set (pkCtx c.packet) (cdGen c.packet) }
  ((footprintHalves (cdFootprint c.packet)).foldl define s).finish h c (okResult Config.protocolVersion 0 0)

def execCtxDefine (id : Nat) (s : State) : Host.Outcome State Fault Refusal :=
  .next (onCommand s id 0x0101 (fun _ => true) runCtxDefine)

/-! ## CTX_SWITCH (R95 to R97) -/

/-- Bytes of the save area (R95). -/
def saveBytes (footprint : Nat) : Nat :=
  let halves := (footprintHalves footprint).length
  (Config.tstKib + Config.trfKib) * 1024 * Config.tilesPerCd * Config.cdPerHalf * halves
    + Config.wellheadMib * 2 ^ 20 * Config.cdPerHalf * halves + 2 ^ 20

/-- CTX_SWITCH while the halves cannot act together (R517). DESIGN CHOICE (log entry 98): where the context that leaves has the other half
alone as footprint the home half holds no record of it, and acts alone; the rule can also be read to refuse. -/
def specCtxSwitch : OpSpec where
  ring := .m
  lo := 0
  hi := 0
  isScoped _ := true
  exempt := true
  busy s _ _ := s.switch.isSome || s.allCmds.any fun c => pkOpcode c.2.packet = 0x0102 && c.2.done.isNone
  exam s h p x0 :=
    let c := s.ctxAny h (pkCtx p)
    let x := examAlive s h p x0
    let x1 := x.badWhen (c.st ≠ .defined && c.st ≠ .resident) 24
    let outside := inFootprint c.footprint h.other ||
      (match (s.half h).resident with | some r => inFootprint ((s.half h).ctx r).footprint h.other | none => false)
    let x2 := x1.badWhen (outside && !s.together h) 24
    let e := s.envOf (if inFootprint c.footprint h then h else h.other) c.id
    if c.st = .defined then x2.bad (e.checkRange 24 c.saveCxa (saveBytes c.footprint) true true) else x2
  mirrored s h _ := s.together h

/-- Trace the start of a switch step in the halves it acts in (R463 KIND 4). -/
def State.traceSwitch (s : State) (w : Switch) (step : Nat) : State :=
  let go (t : State) (g : Half) : State := t.modHalf g fun x => x.traceEvent 4 w.incoming step w.incoming
  (if w.both then [w.home, w.home.other] else [w.home]).foldl go s

/-- Halves a switch acts in. -/
def Switch.halves (w : Switch) : List Half := if w.both then [w.home, w.home.other] else [w.home]

/-- Is a command of an outgoing context still in its engines in a half (R97 step 2)? -/
def HalfState.draining (x : HalfState) : Bool :=
  x.cmds.any fun c => match c.ctx with
    | some i => c.ring ≠ .mgmt && (x.ctx i).st = .switchingOut
    | none => false

/-- Step 2 of a switch ends when no command of an outgoing context is left in the engines. -/
def State.advanceSwitch (s : State) : State :=
  match s.switch with
  | some w =>
    if w.step = 2 ∧ ¬ s.q.draining ∧ ¬ s.k.draining then
      ({ s with switch := some { w with step := 3 } }).traceSwitch w 3
    else s
  | none => s

/-- CTX_SWITCH begins: admission for the outgoing context stops, it becomes SWITCHING_OUT and the named one SWITCHING_IN. A
switch to the resident context has no effect; without a resident context only the restore steps run (R96). After separate residency the
resident context of each half is switched out, the named one too where one half alone holds it (R517). -/
def runCtxSwitch (s : State) (h : Half) (c : Cmd) : State :=
  let id := pkCtx c.packet
  let halves := if c.twoHalf then [h, h.other] else [h]
  if halves.all fun g => (s.half g).resident = some id then s.finish h c (okResult 0 0 0)
  else
    let leaving := halves.any fun g => (s.half g).resident.isSome
    let w : Switch := { cmd := c.id, home := h, step := if leaving then 2 else 5, incoming := id, both := c.twoHalf }
    let go (t : State) (g : Half) : State := t.modHalf g fun x =>
      let y := match x.resident with
        | some r => if inFootprint (x.ctx r).footprint g then x.modCtx r fun k => { k with st := .switchingOut } else x
        | none => x
      let z := if inFootprint (y.ctx id).footprint g && x.resident ≠ some id then y.modCtx id fun k => { k with st := .switchingIn } else y
      { z with resident := none }
    ((halves.foldl go { s with switch := some w }).setCmd h { c with waiting := true }).traceSwitch w 1
      |>.advanceSwitch

def execCtxSwitch (id : Nat) (s : State) : Host.Outcome State Fault Refusal :=
  .next (onCommand s id 0x0102 (fun _ => true) runCtxSwitch)

/-- A running command of an outgoing context reaches its engine's preemption point and is suspended with its state (R97 step 2).
A firmware activation suspends in the same way (R483). -/
def runSuspend (s : State) (h : Half) (c : Cmd) : State :=
  match c.ctx with
  | none => s
  | some i =>
    if ((s.half h).ctx i).st = .switchingOut && c.ring ≠ .mgmt && c.phase = .running && c.mayPause then
      ({ s with mem := c.spill s.mem }.modHalf h fun x =>
        { x with cmds := x.cmds.filter (·.id ≠ c.id), suspended := x.suspended ++ [{ c with phase := .suspended }] }).advanceSwitch
    else s

def execCommandSuspend (id : Nat) (s : State) : Host.Outcome State Fault Refusal :=
  .next (match s.cmd? id with | some (h, c) => runSuspend s h c | none => s)

/-- Contexts leaving a half. -/
def HalfState.outgoing (x : HalfState) : List Nat := (x.ctxs.filter (·.st = .switchingOut)).map (·.id)

/-- Quiesce ends once every frame the outgoing contexts sent has been acknowledged or refused (R97 step 3, R380). -/
def execQuiesceComplete (s : State) : Host.Outcome State Fault Refusal :=
  let waits (x : HalfState) : Bool := x.unacked.any fun u => !u.frame.mgmt && (s.q.outgoing ++ s.k.outgoing).contains u.frame.ctx
  .next (match s.switch with
    | some w =>
      if w.step = 3 && !waits s.q && !waits s.k then ({ s with switch := some { w with step := 4 } }).traceSwitch w 4 else s
    | none => s)

/-- The TST and TRF of a half as one list of ranges. -/
def storeRanges (h : Half) : List (Nat × Nat) :=
  [(2 ^ 41 + h.part * 2 ^ 40, 2 ^ 41 + (h.part + 1) * 2 ^ 40), (trfOfTile (192 * h.part) 0, trfOfTile (192 * (h.part + 1)) 0)]

/-- The listed bytes of a half's tile stores. -/
def Mem.tileCells (m : Mem) (h : Half) : List Host.Cell :=
  m.cells.filter fun c => (storeRanges h).any fun r => r.1 ≤ c.1 && c.1 < r.2

/-- Save the outgoing context of a half: dirty Wellhead lines are written back, its tile stores are kept with the context, the save area's bytes become undefined
because the spec gives the saved state no layout, and the context is DEFINED (R95, R97 step 4). -/
def State.saveCtx (s : State) (h : Half) (id : Nat) : State :=
  let c := (s.half h).ctx id
  let s := s.saveWells h id
  let e := s.envOf h id
  let area := (pieces frameBytes c.saveCxa (saveBytes c.footprint)).filterMap fun p =>
    match e.translate p.1 with | .here dpa true => some (dpa, dpa + p.2) | _ => none
  let s1 := s.modHalf h fun x => x.modCtx id fun k =>
    { k with
      st := .defined, wasSaved := true, saved := s.mem.tileCells h
      savedBadLines := s.mem.badLines.filter fun l => dpaHalf (l * 64) = h }
  { s1 with mem := area.foldl (fun m r => m.veil r.1 r.2 s.drawnFree) s1.mem, drawnFree := s.drawnFree + 1 }

/-- The save ends: every outgoing context becomes DEFINED and the restore begins (R96, R97). -/
def execSaveComplete (s : State) : Host.Outcome State Fault Refusal :=
  .next (match s.switch with
    | some w =>
      if w.step = 4 then
        let save (t : State) (g : Half) : State := (t.half g).outgoing.foldl (fun u i => u.saveCtx g i) t
        let enter (t : State) (g : Half) : State := t.modHalf g fun x =>
          if (x.ctx w.incoming).st = .defined && inFootprint (x.ctx w.incoming).footprint g then
            x.modCtx w.incoming fun k => { k with st := .switchingIn } else x
        let s1 := w.halves.foldl enter (save (save s .q) .k)
        ({ s1 with switch := some { w with step := 5 } }).traceSwitch w 5
      else s
    | none => s)

/-- Restore a context in a half: the tile stores it was saved with, undefined ones for a context never saved (the spec says
nothing of them), its suspended commands back at their preemption points, and RESIDENT (R96, R97 step 5). -/
def State.restoreCtx (s : State) (h : Half) (id : Nat) : State :=
  let c := (s.half h).ctx id
  let blank := (storeRanges h).foldl (fun m r => if c.wasSaved then m.clear r.1 r.2 else m.veil r.1 r.2 s.drawnFree) s.mem
  let mem := { c.saved.foldl (fun m x => m.setByte x.1 x.2) blank with badLines := blank.badLines ++ c.savedBadLines }
  let back := (s.half h).suspended.filter (·.ctx = some id)
  { (s.modHalf h fun x =>
      { ((x.modCtx id fun k => { k with st := .resident, saved := [], savedBadLines := [] }).coldWells id) with
        suspended := x.suspended.filter (·.ctx ≠ some id)
        cmds := x.cmds ++ back.map fun k => { k with phase := .running, resumed := x.count } }) with
    mem := mem, drawnFree := s.drawnFree + 1 }

/-- The restore ends: the incoming context is RESIDENT, admission resumes in both halves, and CTX_SWITCH replies OK (R97 step 6).
An abandoned restore leaves no resident context and CTX_SWITCH ends with TORN_DOWN (R100). -/
def execRestoreComplete (s : State) : Host.Outcome State Fault Refusal :=
  .next (match s.switch with
    | some w =>
      if w.step ≠ 5 then s else
      let fin (t : State) (r : Result) : State := match t.cmd? w.cmd with | some (h, c) => t.finish h c r | none => t
      if w.abandoned then
        fin { s with switch := none } (tornResult (match s.cmd? w.cmd with | some (_, c) => pkGen c.packet | none => 0))
      else
        let go (t : State) (g : Half) : State :=
          let u := if ((t.half g).ctx w.incoming).st = .switchingIn then t.restoreCtx g w.incoming else t
          u.modHalf g fun x => { x with resident := some w.incoming }
        fin ((w.halves.foldl go { s with switch := none }).traceSwitch w 6) (okResult 0 0 0)
    | none => s)

/-! ## CTX_TEARDOWN and CTX_RELEASE (R99, R101) -/

def specCtxTeardown : OpSpec where
  ring := .m
  lo := 0
  hi := 0
  isScoped _ := true
  exempt := true
  exam s h p x := examTogether s h p (examAlive s h p x)
  mirrored s h p := ctxBoth s h p

/-- CTX_TEARDOWN: the teardown runs in every half of the footprint; its reply waits for step 5 there (R99). -/
def execCtxTeardown (id : Nat) (s : State) : Host.Outcome State Fault Refusal :=
  .next (onCommand s id 0x0103 (fun _ => true) fun t h c =>
    (t.setCmd h { c with waiting := true }).teardownFrom h (pkCtx c.packet) true)

def specCtxRelease : OpSpec where
  ring := .m
  lo := 0
  hi := 0
  isScoped _ := true
  exempt := true
  exam s h p x :=
    (examTogether s h p (examAlive s h p x)).badWhen ((s.ctxAny h (pkCtx p)).st ≠ .defined) 24
  mirrored s h p := ctxBoth s h p

/-- CTX_RELEASE: steps 1, 3, 5 and 6 of a teardown, with no notices (R101). -/
def execCtxRelease (id : Nat) (s : State) : Host.Outcome State Fault Refusal :=
  .next (onCommand s id 0x0104 (fun _ => true) fun t h c =>
    (t.setCmd h { c with waiting := true }).teardownFrom h (pkCtx c.packet) false)

/-- A command of a torn-down context, or one that a watchdog ended, stops at its preemption point: its reply is written and the
teardown goes on once none is left (R99 steps 2 and 3). -/
def execTeardownStop (id : Nat) (s : State) : Host.Outcome State Fault Refusal :=
  .next (match s.cmd? id with
    | some (h, c) =>
      match c.stopWith, c.ctx with
      | some r, some i =>
        if r.d0 = rsTornDown then (((s.endScratch h c).retire h { c with reports := [] } r).tearEnd i) else s
      | _, _ => s
    | none => s)

/-- Scrubbing of a half ends for a context ID: zeros with fresh seals in every frame it held, and the ID becomes UNDEFINED once no
half has one left. IDs of 16 and above stand for the scrub of the whole half after READY (R99 step 6, R446). -/
def execScrubComplete (h : Half) (ctx : Nat) (s : State) : Host.Outcome State Fault Refusal :=
  .next (if ctx ≥ Config.contexts then
      if (s.half h).scrubAll && s.ready h then
        { s.modHalf h fun x => { x with scrubAll := false } with
          mem := s.mem.clear (h.part * 2 ^ 40) ((h.part + 1) * 2 ^ 40) }
      else s
    else if !(s.q.ctx ctx).tearing && !(s.k.ctx ctx).tearing && ((s.half h).scrub.any (·.2 = ctx) || ((s.half h).ctx ctx).st = .dead) then
      let mine := ((s.half h).scrub.filter (·.2 = ctx)).map (·.1)
      let s1 := { s.modHalf h fun x => { x with scrub := x.scrub.filter (·.2 ≠ ctx) } with
        mem := mine.foldl (fun m f => m.clear (f * frameBytes) ((f + 1) * frameBytes)) s.mem }
      let left := s1.q.scrub.any (·.2 = ctx) || s1.k.scrub.any (·.2 = ctx)
      let clearId (x : HalfState) : HalfState :=
        if (x.ctx ctx).st = .dead then { x with ctxs := x.ctxs.filter (·.id ≠ ctx) } else x
      if left then s1 else { s1 with q := clearId s1.q, k := clearId s1.k }
    else s)

/-! ## RING_DEFINE and RING_DELETE (R81) -/

def rdHome (p : Nat) : Half := Half.ofPart (pl p 5 1)

/-- What is wrong with the memory of a ring named at packet bit `bit`: a page that is INVALID or lacks WRITABLE (R39, R81), or a frame
of another half or module. -/
def Env.ringMemory (e : Env) (g : Half) (bit cxa n : Nat) : List Bad :=
  let bs := e.checkRange bit cxa n true true
  if !bs.isEmpty then bs else
  badIf (!(pieces 2048 cxa (min n (2048 * 2048))).all fun p =>
    match e.translate p.1 with | .here dpa _ => dpaHalf dpa = g | _ => false) bit

def specRingDefine : OpSpec where
  ring := .m
  lo := 1
  hi := 1
  isScoped _ := true
  head e p := checks [(512 + 5, outside e (rdHome p)), (512 + 8, pl p 8 8 < 6 || pl p 8 8 > 16),
      (512 + 16, pl p 16 8 < 6 || pl p 16 8 > 16), (512 + 32, pl p 32 48 % (64 * 2 ^ pl p 8 8) ≠ 0),
      (512 + 96, pl p 96 48 % (32 * 2 ^ pl p 16 8) ≠ 0)]
    ++ reservedPl p [(24, 8), (80, 16), (144, 16), (164, 348)]
  exam s h p x0 :=
    let x := examAlive s h p x0
    let g := rdHome p
    let e := s.envOf g (pkCtx p)
    let x1 := x.badWhen (g ≠ h && !s.together h) (512 + 5)
    let x2 := x1.badWhen (s.q.ring? (.ctx (pkCtx p) (pl p 0 5))).isSome 512
    let x3 := x2.badWhen (s.k.ring? (.ctx (pkCtx p) (pl p 0 5))).isSome 512
    (x3.bad (e.ringMemory g (512 + 32) (pl p 32 48) (64 * 2 ^ pl p 8 8))).bad
      (e.ringMemory g (512 + 96) (pl p 96 48) (32 * 2 ^ pl p 16 8))
  mirrored s h p := rdHome p ≠ h && s.together h

/-- The ring that a RING_DEFINE creates (R81). -/
def ringOfPacket (p : Nat) : Ring :=
  { ctx := some (pkCtx p), num := pl p 0 5, priority := pl p 6 2, slotsLog2 := pl p 8 8, replyLog2 := pl p 16 8
    cmdBase := pl p 32 48, rplBase := pl p 96 48, stage := if pl p 163 1 = 1 then some (pl p 160 3) else none }

/-- RING_DEFINE: the ring comes into being, empty, in its home half. -/
def execRingDefine (id : Nat) (s : State) : Host.Outcome State Fault Refusal :=
  .next (onCommand s id 0x0105 (fun _ => true) fun t h c =>
    (t.modHalf (rdHome c.packet) fun x => { x with rings := x.rings ++ [ringOfPacket c.packet] }).finish h c (okResult 0 0 0))

/-- The half that homes a ring of a context. -/
def State.ringHome (s : State) (ctx n : Nat) : Option Half :=
  if (s.q.ring? (.ctx ctx n)).isSome then some .q else if (s.k.ring? (.ctx ctx n)).isSome then some .k else none

def specRingDelete : OpSpec where
  ring := .m
  lo := 1
  hi := 1
  isScoped _ := true
  head _ p := reservedPl p [(5, 507)]
  exam s h p x0 :=
    let x := examAlive s h p x0
    match s.ringHome (pkCtx p) (pl p 0 5) with
    | none => x.badWhen true 512
    | some g =>
      let y := s.half g
      let holds := (y.cmds ++ y.suspended).any fun c => c.ring = .ctx (pkCtx p) (pl p 0 5)
      x.badWhen (holds || (g ≠ h && !s.together h)) 512
  mirrored s h p := match s.ringHome (pkCtx p) (pl p 0 5) with | some g => g ≠ h && s.together h | none => false

/-- RING_DELETE: the ring is gone (R81). -/
def execRingDelete (id : Nat) (s : State) : Host.Outcome State Fault Refusal :=
  .next (onCommand s id 0x0106 (fun _ => true) fun t h c =>
    let gone (x : HalfState) : HalfState :=
      { x with rings := x.rings.filter fun r => !(r.ctx = some (pkCtx c.packet) && r.num = pl c.packet 0 5) }
    ({ t with q := gone t.q, k := gone t.k }).finish h c (okResult 0 0 0))

/-! ## MAP_WRITE (R36 to R38, R343, R366, R515) -/

def mwFirst (p : Nat) : Nat := pl p 0 48
def mwCount (p : Nat) : Nat := pl p 64 9
/-- Entry `j` of a MAP_WRITE (R515). -/
def mwEntry (p j : Nat) : Nat := pl p (512 + 64 * j) 64
/-- The page entry `j` applies to. -/
def mwPage (p j : Nat) : Nat := mwFirst p / frameBytes + j

/-- Frames that are never given to a context (R80, R340): frame 0 of the first stack of a half, and the last 96 of the last. -/
def frameReserved (f : Nat) : Bool :=
  (bits f 15 4 = 0 && bits f 0 15 = 0) || (bits f 15 4 = 14 && bits f 0 15 ≥ 32672)

/-- Checks of one map entry on its own, with the field offsets of R36: reserved fields by KIND, GROUP, INDEX and a FRAME that
exists, lies in the footprint and may be given away. -/
def entryChecks (footprint page e base : Nat) : List Check :=
  let k := meKind e
  let n := groupPages (meGroup e)
  let held := k = 1 || k = 2
  [(base + 2, (k ≠ 2 && meGroup e ≠ 0) || (k = 2 && meGroup e = 3)),
   (base + 4, (k ≠ 2 && meIndex e ≠ 0) || (k = 2 && meGroup e < 3 && meIndex e ≠ page % n)),
   (base + 9, k = 0 && meWritable e), reservedCheck base e 10 2,
   (base + 12, if held then bits (meFrame e) 15 2 = 3 || frameReserved (meFrame e) || !inFootprint footprint (frameHalf (meFrame e))
      else meFrame e ≠ 0),
   (base + 32, k ≠ 3 && meRemote e ≠ 0), (base + 32, k = 3 && bits (meRemote e) 15 2 = 3)]

/-- The shadow map after a MAP_WRITE (R515). -/
def mwApply (p : Nat) (t : Table) : Table :=
  (List.range (mwCount p)).foldl (fun u j => u.set (mwPage p j) (mwEntry p j)) t

/-- Does the run of an interleaved page break R37: pages of another kind or group, a repeated INDEX or stack, or a stack outside the
group's die, half or module? -/
def runBroken (t : Table) (page : Nat) : Bool :=
  let e := t.at page
  if meKind e ≠ 2 then false else
  let n := groupPages (meGroup e)
  let base := page - page % n
  let es := ((List.range n).map fun i => t.at (base + i)).filter fun x => meKind x ≠ 0
  let stackOf (x : Nat) : Nat := bits (meFrame x) 15 5
  let scope (x : Nat) : Nat := if meGroup e = 0 then stackOf x / 4 else if meGroup e = 1 then stackOf x / 16 else 0
  es.any (fun x => meKind x ≠ 2 || meGroup x ≠ meGroup e) || hasRepeat (es.map meIndex) || hasRepeat (es.map stackOf)
    || es.any fun x => scope x ≠ scope e

/-- A page breaks R37 in the table: its own run, or a run of any group size that it lies in. -/
def pageBroken (t : Table) (page : Nat) : Bool :=
  [3, 12, 24].any fun n =>
    (List.range n).any fun i =>
      let q := page - page % n + i
      meKind (t.at q) = 2 && groupPages (meGroup (t.at q)) = n && runBroken t q

/-- Is a frame owned by a context other than `id`, or preserved for one (R38, R416)? -/
def State.frameTaken (s : State) (id f : Nat) : Bool :=
  (match s.preservedBy f with | some o => o ≠ id | none => false) ||
  [s.q, s.k].any fun x => x.ctxs.any fun c => c.id ≠ id && c.frames.contains f

/-- Is a frame awaiting scrub (R38, R446)? -/
def State.scrubPending (s : State) (f : Nat) : Bool :=
  let x := s.half (frameHalf f)
  x.scrubAll || x.scrub.any (·.1 = f)

/-- Pages that may not become REMOTE: the rings of the context, its save area, and the rows of its tables with their companion arrays
(R345). -/
def State.localOnly (s : State) (id page : Nat) : Bool :=
  let lies (cxa n : Nat) : Bool := overlaps (page * frameBytes) frameBytes cxa n
  ([s.q, s.k].any fun x => (x.ctx id).tables.any fun t =>
    (t.2.ownRegions t.2.mapFull (s.ownPos id)).any fun r => lies r.2.1 r.2.2) ||
  ([s.q, s.k].any fun x => x.rings.any fun r => r.ctx = some id &&
    (lies r.cmdBase (64 * r.slots) || lies r.rplBase (32 * r.entries))) ||
  [s.q, s.k].any fun x => let c := x.ctx id; c.alive && lies c.saveCxa (saveBytes c.footprint)

def specMapWrite : OpSpec where
  ring := .m
  lo := 1
  hi := 64
  isScoped _ := true
  head e p := checks [(512, mwFirst p % frameBytes ≠ 0), (512 + 64, mwCount p > 504),
      (112, mwCount p > 8 * (pkUnits p - 1)), (512 + 64, mwFirst p + mwCount p * frameBytes > 2 ^ 48)]
    ++ reservedPl p [(48, 16), (73, 439)]
    ++ (List.range (min (mwCount p) (8 * (pkUnits p - 1)))).flatMap (fun j =>
      entryChecks e.footprint (mwPage p j) (mwEntry p j) (1024 + 64 * j))
    ++ (List.range (8 * (pkUnits p - 1))).map fun j => (1024 + 64 * j, j ≥ mwCount p && mwEntry p j ≠ 0)
  exam s h p x0 :=
    let x := examTogether s h p (examAlive s h p x0)
    let c := s.ctxAny h (pkCtx p)
    let after := mwApply p c.shadow
    let frames := framesIn after ++ c.epochs.flatMap fun e => framesIn e.entries
    let bad (j : Nat) : Bool × Nat :=
      let e := mwEntry p j
      let held := meKind e = 1 || meKind e = 2
      let f := meFrame e
      (if (match c.window with | some (a, n) => a ≤ mwPage p j && mwPage p j < a + n | none => false) then (true, 0)
       else if held && (s.frameTaken c.id f || s.scrubPending f || (frames.filter (· = f)).length > 1) then (true, 12)
       else if pageBroken after (mwPage p j) then (true, 0)
       else if meKind e = 3 && bits (meRemote e) 20 12 = (s.half h).myPos h then (true, 32 + 20)
       else if meKind e = 3 && s.localOnly c.id (mwPage p j) then (true, 0)
       else (false, 0))
    let x1 := (List.range (mwCount p)).foldl (fun y j => y.badWhen (bad j).1 (1024 + 64 * j + (bad j).2)) x
    { x1 with empty := mwCount p = 0 }
  mirrored s h p := ctxBoth s h p

/-- MAP_WRITE: entries apply to the map shadow set of every half of the footprint, in index order (R515); a commit of the same stroke
is done first (R103). -/
def execMapWrite (id : Nat) (s : State) : Host.Outcome State Fault Refusal :=
  .next (onCommand s id 0x0107 (fun _ => true) fun t h c =>
    if t.q.commitDue || t.k.commitDue then t else
    let go (u : State) (g : Half) : State := u.modHalf g fun x =>
      x.modCtx (pkCtx c.packet) fun k => { k with shadow := mwApply c.packet k.shadow }
    ((footprintHalves (t.ctxAny h (pkCtx c.packet)).footprint).foldl go t).finish h c (okResult 0 0 0))

/-- A commit of a map shadow set in a half: translation changes, and frames no longer named drain (R102, R104). -/
def HalfState.commitMap (x : HalfState) (id : Nat) : HalfState :=
  x.modCtx id fun c =>
    let kept := framesIn c.shadow ++ c.epochs.flatMap fun e => framesIn e.entries
    { c.taking kept with map := c.shadow, draining := c.draining ++ (framesIn c.map).filter fun f => !kept.contains f }

/-- Accesses issued before a commit have drained: frames removed from the map become scrub-pending, but for preserved ones, which
stay with the ID (R104, R416). -/
def execMapDrain (h : Half) (ctx : Nat) (s : State) : Host.Outcome State Fault Refusal :=
  let c := (s.half h).ctx ctx
  .next ((c.draining.filter fun f => frameHalf f = h && (s.preservedBy f).isNone).foldl
    (fun t f => t.modHalf h fun y => if y.scrub.any (·.1 = f) then y else { y with scrub := y.scrub ++ [(f, ctx)] })
    (s.modHalf h fun x => x.modCtx ctx fun k => { k with draining := [] }))

end Sys2Proof.Machine
end

