-- ==== Sys2Proof/Machine/Weights.lean ====
section
/-! DEFINITION. Weight streams (R355 to R365), weight epochs (R366 to R370) and the patrol of a stack (R339). -/

namespace Sys2Proof.Machine

/-! ## WEIGHT_STREAM: its payload and its keep entries (R356, R359) -/

def wsId (p : Nat) : Nat := pl p 0 16
def wsUp (p : Nat) : Nat := pl p 16 4
def wsDown (p : Nat) : Nat := pl p 20 4
def wsVerify (p : Nat) : Bool := pl p 24 2 = 1
def wsHalt (p : Nat) : Bool := pl p 26 1 = 1
def wsPacked (p : Nat) : Bool := pl p 27 1 = 1
def wsEpoch (p : Nat) : Nat := pl p 32 32
def wsWire (p : Nat) : Nat := pl p 64 48
def wsData (p : Nat) : Nat := pl p 128 48
def wsKeeps (p : Nat) : Nat := pl p 192 48
def wsCount (p : Nat) : Nat := pl p 256 32
/-- The half of a port code of UPSTREAM or DOWNSTREAM; SP counts as Q (R357). -/
def wsHalf (code : Nat) : Half := if code = 8 then .q else Half.ofPart (code / 4)
/-- The port of a port code: 0 to 3 N, E, S, W; 4 SP. -/
def wsPort (code : Nat) : Nat := if code = 8 then 4 else code % 4
/-- Blocks on the wire (R358). -/
def wsBlocks (p : Nat) : Nat := ceilDiv (wsWire p) 256

/-- A keep entry (R359). -/
structure Keep where
  off : Nat
  bytes : Nat
  dst : Nat
  xform : Nat
  src : Nat
  fmt : Nat
  block : Bool
  slot : Nat
  scale : Nat
deriving DecidableEq, Repr

/-- The keep entry at a 512-bit number. -/
def Keep.parse (v : Nat) : Keep :=
  { off := bits v 0 48, bytes := bits v 64 48, dst := bits v 128 48, xform := bits v 192 2, src := bits v 194 3
    fmt := bits v 197 3, block := bitSet v 200, slot := bits v 201 12, scale := bits v 256 48 }

def Keep.layout (k : Keep) : Bool := k.xform = 1 || k.xform = 3
def Keep.quant (k : Keep) : Bool := 2 ≤ k.xform
/-- Source elements of an entry. -/
def Keep.elems (k : Keep) : Nat := k.bytes / fmtBytes k.src
/-- Destination bytes of an entry. -/
def Keep.out (k : Keep) : Nat := k.elems * fmtBytes k.fmt

/-- Checks of one keep entry on its own: field offsets within the entry (R359). -/
def Keep.checks (k : Keep) (v data : Nat) : List Check :=
  Sys2Proof.Machine.checks
    [(0, k.off % 256 ≠ 0), (48, bits v 48 16 ≠ 0), (64, k.bytes % fmtBytes k.src ≠ 0 || k.off + k.bytes > data),
     (112, bits v 112 16 ≠ 0), (128, k.dst % (if k.layout then 64 else 256) ≠ 0), (176, bits v 176 16 ≠ 0),
     (194, (Fmt.ofCode k.src).isNone || (k.quant && k.src > 2)),
     (197, if k.quant then !(k.fmt = 3 || k.fmt = 4) else k.fmt ≠ k.src), (200, k.block && !k.quant),
     (201, k.block && k.slot ≠ 0), (213, bits v 213 43 ≠ 0), (256, if k.block then k.scale % 4 ≠ 0 else k.scale ≠ 0),
     (304, bits v 304 208 ≠ 0)]

/-- The keep entries of a list read as one number, with their numbers. -/
def keepList (v n : Nat) : List (Nat × Keep) := (List.range n).map fun i => (i, Keep.parse (bits v (512 * i) 512))

/-- Where the descriptor of a LAYOUT entry lies among the records read: after the list, in order. -/
def descIndex (ks : List (Nat × Keep)) (i : Nat) : Nat :=
  1 + ((ks.filter fun k => k.1 < i && k.2.layout && k.2.bytes ≠ 0).length)

/-- Does a page lie in a window? -/
def inWindow (w : Option (Nat × Nat)) (page : Nat) : Bool :=
  match w with | some (first, n) => first ≤ page && page < first + n | none => false

/-- Does a range of CXAs break the rule on the window: inside it without EPOCH, or outside it with one (R359)? -/
def windowBad (w : Option (Nat × Nat)) (epoch lo n : Nat) : Bool :=
  if n = 0 then false else
  let a := lo / frameBytes
  let b := (lo + n - 1) / frameBytes
  if epoch = 0 then (match w with | some (first, m) => a < first + m && first ≤ b | none => false)
  else !(inWindow w a && inWindow w b)

/-- The address range that an entry writes, from its descriptor if it has one. -/
def Keep.range (k : Keep) (d : Desc) : Option (Nat × Nat) :=
  if k.bytes = 0 then none
  else if k.layout then (match d.range (fmtBytes k.fmt) with
    | some (lo, hi) => some (lo.toNat, hi.toNat + fmtBytes k.fmt - lo.toNat)
    | none => none)
  else some (k.dst, k.out)

/-- Examine one keep entry: itself, its descriptor, its slot, its destination and its scales. Faults of a descriptor are named by the
entry's DST. -/
def examKeep (s : State) (h : Half) (p : Nat) (x0 : Exm) (e : Nat × Keep) (v : Nat) : Exm × Option (Nat × Nat) :=
  let k := e.2
  let at' (o : Nat) : Nat := 1 + 512 * e.1 + o
  match firstBad (k.checks (bits v (512 * e.1) 512) (wsData p)) with
  | some o => (x0.badWhen true (512 + 192) (at' o), none)
  | none =>
    let slots := (s.ctxAny h (pkCtx p)).scales
    let x1 := x0.badWhen (k.quant && !k.block && ((find k.slot slots).getD {}).fmtRef ≠ k.fmt) (512 + 192) (at' 201)
    let w := (s.ctxAny h (pkCtx p)).window
    if k.bytes = 0 then (x1, none) else
    let dx : Desc × Exm :=
      if k.layout then
        let y := ({ x1 with bads := [] } : Exm).desc (512 + 192) k.dst (fmtBytes k.fmt) true false 3
        let named : List Bad := y.2.bads.map fun b => if b.res.d0 = rsField then
          { bit := 512 + 192, res := refuseField (512 + 192) (at' 128) } else b
        (y.1, { y.2 with bads := x1.bads ++ named })
      else (Desc.parse 0, x1)
    if dx.2.refused then (dx.2, none) else
    let d := dx.1
    let x2 := dx.2.badWhen (k.layout && (d.reduce || d.refuse || !d.disjoint || d.count ≠ k.elems)) (512 + 192) (at' 128)
    let r := k.range d
    let x3 := match r with
      | some (lo, n) => x2.badWhen (windowBad w (wsEpoch p) lo n) (512 + 192) (at' 128)
      | none => x2
    let x4 := if k.layout then x3 else x3.range (512 + 192) k.dst k.out true
    let x5 := if k.block then x4.range (512 + 192) k.scale (4 * ceilDiv k.elems 128) true else x4
    (x5, r)

/-- Examine the keep entries in order; destinations must not overlap one another (R359). -/
def examKeeps (s : State) (h : Half) (p v : Nat) : List (Nat × Keep) → List (Nat × Nat) → Exm → Exm
  | [], _, x => x
  | e :: rest, seen, x =>
    let y := examKeep s h p x e v
    match y.2 with
    | none => examKeeps s h p v rest seen y.1
    | some r =>
      let hit := seen.any fun q => overlaps r.1 r.2 q.1 q.2
      examKeeps s h p v rest (r :: seen) (y.1.badWhen hit (512 + 192) (1 + 512 * e.1 + 128))

/-- Admitted WEIGHT_STREAMs. -/
def State.streams (s : State) : List (Half × Cmd) := s.allCmds.filter fun c => pkOpcode c.2.packet = 0x0801

/-- The environment of a stream's writes: the window goes through EPOCH, not through the header's epoch (R356). -/
def State.envStream (s : State) (h : Half) (ctx p : Nat) (e : Env) : Env :=
  { e with part := wsHalf (wsUp p), epoch := (match (s.ctxAny h ctx).epochs.find? (·.num = wsEpoch p) with
    | some x => if wsEpoch p = 0 then [] else x.entries
    | none => []) }

def specWeightStream : OpSpec where
  ring := .c
  lo := 1
  hi := 4
  classes := [0, 13, 14, 15]
  head e p :=
    checks [(192, pkEpoch p ≠ 0), (512 + 16, wsUp p > 8 || outside e (wsHalf (wsUp p))),
      (512 + 20, (8 ≤ wsDown p && wsDown p ≠ 15) || (wsDown p < 8 && wsHalf (wsDown p) ≠ wsHalf (wsUp p))),
      (512 + 24, pl p 24 2 > 1), (512 + 26, wsHalt p && !wsVerify p),
      (512 + 128, if wsPacked p then wsData p % 256 ≠ 0 else wsData p ≠ wsWire p), (512 + 192, wsKeeps p % 64 ≠ 0)]
    ++ reservedPl p [(28, 4), (112, 16), (176, 16), (240, 16), (336, 176), (512, 512 * (pkUnits p - 1))]
  -- a WSE that already runs four streams (R355)
  busy s _ p := (s.streams.filter fun c => wsHalf (wsUp c.2.packet) = wsHalf (wsUp p)).length ≥ 4
  domains _ _ p := [17 * (wsHalf (wsUp p)).part + 13]
  exam s h p x0 :=
    let c := s.ctxAny h (pkCtx p)
    let x1 := x0.badWhen (s.streams.any fun k => wsId k.2.packet = wsId p) 512
    let x2 := x1.badWhen (wsEpoch p ≠ 0 && !(c.epochs.any fun e => e.num = wsEpoch p && e.st = .loaded)) (512 + 32)
    let work := match pkClass p with | 13 => wsWire p | 14 => pl p 288 48 | 15 => pl p 288 48 | _ => 1
    let done (x : Exm) : Exm := { x with empty := wsWire p = 0 }.work h (wsHalf (wsUp p)) work
    if wsCount p = 0 then done x2 else
    let g := ({ x2 with env := s.envStream h (pkCtx p) p x2.env } : Exm).record (512 + 192) (wsKeeps p) (64 * wsCount p)
    if g.2.refused then done g.2 else
    done (examKeeps s h p g.1 (keepList g.1 (wsCount p)) [] g.2)
  mirrored s h p := wsHalf (wsUp p) ≠ h && s.together h

/-! ## CBF1 (R361) -/

/-- How far a compressed stream reads: complete, cut inside a block, or malformed. -/
inductive CbfEnd where
  | complete
  | cut
  | malformed
deriving DecidableEq, Repr

/-- The 256 bytes of a compressed block, with the length of its payload; `none` where the header is malformed. -/
def cbfBlock (h0 h1 h2 h3 : Nat) (rest : List Nat) : Option (Nat × List Nat) :=
  if h2 ≠ 0 || h3 ≠ 0 then none
  else if h0 = 0 && h1 = 0 then some (256, rest.take 256)
  else if h0 = 1 && h1 = 0 then some (0, List.replicate 256 0)
  else if h0 = 2 && h1 = 0 then some (4, (List.range 256).map fun i => rest.getD (i % 4) 0)
  else if h0 = 3 && 1 ≤ h1 && h1 ≤ 8 then
    let b := rest.getD 0 0
    let v := numOf ((rest.drop 1).take (32 * h1))
    some (1 + 32 * h1, (List.range 256).map fun i => (b + bits v (i * h1) h1) % 256)
  else none

/-- The bytes that a compressed stream expands to; `fuel` bounds the number of compressed blocks. -/
def cbfExpand : Nat → List Nat → List Nat × CbfEnd
  | 0, l => ([], if l.isEmpty then .complete else .cut)
  | fuel + 1, l =>
    match l with
    | [] => ([], .complete)
    | h0 :: h1 :: h2 :: h3 :: rest =>
      (match cbfBlock h0 h1 h2 h3 rest with
      | none => ([], .malformed)
      | some (n, out) =>
        if rest.length < n then ([], .cut) else
        let more := cbfExpand fuel (rest.drop n)
        (out ++ more.1, more.2))
    | _ => ([], .cut)

/-! ## Transforms (R360, R362) -/

/-- The exponent of a block of values in BLOCK mode (R362). -/
def quantExp (f : Fmt) (vs : List Nat) : Int :=
  match f32 (greatest ((vs.map fun v => abs32 v).filter fun v => (f32 v).isFinite)) with
  | .fin _ m e => if m = 0 then 0 else max (-63) (min 63 (smallestExp f false m e))
  | _ => 0

/-- The codes that an entry writes, the block scales, the largest magnitude and the overflow events (R362). -/
def Keep.transform (k : Keep) (slotExp : Int) (src : List Nat) : List Nat × List Nat × Nat × Nat :=
  if !k.quant then (src, [], 0, 0) else
  match Fmt.ofCode k.src, Fmt.ofCode k.fmt with
  | some f, some g =>
    let vs := src.map (widen f .strict)
    let one (e : Int) (b : List Nat) : List (Nat × Nat) := b.map fun v =>
      let r := convert g .strict (some e) v
      (r.code, if r.overflow then 1 else 0)
    if k.block then
      let bs := chunks 128 vs
      let out := bs.flatMap fun b => one (quantExp g b) b
      (out.map (·.1), bs.map fun b => pow2Code (quantExp g b), 0, total (out.map (·.2)))
    else
      let out := one slotExp vs
      (out.map (·.1), [], greatest ((vs.map fun v => abs32 v).filter fun v => (f32 v).isFinite), total (out.map (·.2)))
  | _, _ => (src, [], 0, 0)

/-- The write of the elements of a kept range from element `lo` on (R360). -/
def Keep.write (k : Keep) (e : Env) (d : Desc) (lo : Nat) (codes scales : List Nat) (r : Run) : Run :=
  let eb := fmtBytes k.fmt
  let r1 := if k.layout then
      ((List.range codes.length).zip codes).foldl (fun q c => match d.elem eb (lo + c.1) with
        | .inside a => q.storeElem e d eb a c.2
        | .outside _ => q) r
    else r.store e (k.dst + lo * eb) (codes.flatMap (bytesOf eb))
  if scales.isEmpty then r1 else r1.store e (k.scale + 4 * (lo / 128)) (scales.flatMap (bytesOf 4))

/-- Perform the elements `lo` to `hi` of one entry on the decompressed stream: their writes, the reports to the entry's slot, and the
overflow events. -/
def Cmd.keep (c : Cmd) (e : Env) (ks : List (Nat × Keep)) (data : List Nat) (r : Run) (x : Nat × Keep) (lo hi : Nat) :
    Run × Cmd × Nat :=
  let k := x.2
  if hi ≤ lo then (r, c, 0) else
  let eb := fmtBytes k.src
  let src := (chunks eb ((data.drop (k.off + lo * eb)).take ((hi - lo) * eb))).map numOf
  let t := k.transform (c.slotExp k.slot) src
  let r1 := k.write e (c.desc (descIndex ks x.1)) lo t.1 t.2.1 r
  (r1, if k.quant && !k.block then { c with reports := addReport c.reports k.slot t.2.2.1 t.2.2.2 } else c, t.2.2.2)

/-- Perform parts of entries in order: an entry, its first element and the one after its last. -/
def Cmd.keepParts (c : Cmd) (e : Env) (ks : List (Nat × Keep)) (data : List Nat) :
    List ((Nat × Keep) × Nat × Nat) → Run → Run × Cmd × Nat
  | [], r => (r, c, 0)
  | (x, lo, hi) :: rest, r =>
    let a := c.keep e ks data r x lo hi
    let b := a.2.1.keepParts e ks data rest a.1
    (b.1, b.2.1, a.2.2 + b.2.2)

/-- Perform the entries of a list in order. -/
def Cmd.keepAll (c : Cmd) (e : Env) (ks : List (Nat × Keep)) (data : List Nat) (l : List (Nat × Keep)) (r : Run) : Run × Cmd × Nat :=
  c.keepParts e ks data (l.map fun x => (x, 0, x.2.elems)) r

/-- The elements of an entry that may be written once so many bytes of the stream have come: whole destination blocks, and the rest
with the last of its source (R360, R365). -/
def Keep.ready (k : Keep) (have' : Nat) : Nat :=
  if k.off + k.bytes ≤ have' then k.elems
  else
    let unit := 256 / fmtBytes k.fmt
    (have' - k.off) / fmtBytes k.src / unit * unit

/-- The keep entries of an admitted command. -/
def Cmd.keeps (c : Cmd) : List (Nat × Keep) := if wsCount c.packet = 0 then [] else keepList (c.recordNum 0) (wsCount c.packet)

/-! ## The stream -/

def srcStreamDivergence : Nat := 0x041
def srcStreamAborted : Nat := 0x047
def srcMalformed : Nat := 0x048

/-- The lowest stream place of a WSE that no running stream holds (R355). -/
def State.streamPlace (s : State) (h : Half) : Nat :=
  let used := s.streams.filterMap fun c => if wsHalf (wsUp c.2.packet) = h then c.2.stream.map (·.place) else none
  ((List.range 4).find? fun i => !used.contains i).getD 0

/-- Count bytes of a stream (R455, family 0x06). -/
def State.countStream (s : State) (c : Cmd) (sub n : Nat) : State :=
  match c.stream with
  | some r => s.modHalf (wsHalf (wsUp c.packet)) fun x => x.gauge 0x06 r.place sub n
  | none => s

/-- Credit for a stream is granted: from now on its blocks are accepted (R355). -/
def startStream (s : State) (h : Half) (c : Cmd) : State :=
  s.setCmd h { c with stream := some { place := s.streamPlace (wsHalf (wsUp c.packet)) }, waiting := true, idle := 0, idleOther := 0 }

/-- Blocks of HBM that differ between two memories at the addresses written. -/
def changedBlocks (a b : Mem) : List Nat :=
  blocksOf 256 (((a.cells ++ b.cells).map (·.1)).filter fun k => a.byte k ≠ b.byte k)

/-- The comparison of VERIFY once the stream is complete (R354, R364): every destination block that the entries write, its seal
checked, against the block as it would be. -/
def State.verifyStream (s : State) (h : Half) (c : Cmd) (data : List Nat) : State :=
  let p := c.packet
  let g := wsHalf (wsUp p)
  let e := s.envStream h (pkCtx p) p (s.envCmd h c)
  let ks := c.keeps
  let w := c.keepAll e ks data ks { mem := s.view }
  -- bytes on remote pages are read from their owner before they are compared
  let far := w.1.puts.foldl (fun (q : Run) (u : Put) => (q.load e u.cxa u.bytes.length).2) ({ mem := s.view } : Run)
  if !far.need.isEmpty then s.applyRun h c e far fun _ => okResult 0 0 0 else
  let torn := w.1.torn
  if w.1.stop.isSome || !torn.isEmpty then
    s.applyRun h c e { w.1 with mem := s.view, puts := [], torn := [], seals := w.1.seals ++ torn.take 1
                                stop := (match w.1.stop with | some x => some x | none => torn.head?.map sealResult) } fun _ => okResult 0 0 0
  else
    let near := changedBlocks s.view w.1.mem
    let wrong := w.1.puts.filter fun u => (({ mem := s.view } : Run).load e u.cxa u.bytes.length).1 ≠ u.bytes
    let differ := near.length + (blocksOf 256 (wrong.map (·.cxa))).length
    if differ = 0 then
      (s.finish h w.2.1 (okResult ks.length w.2.2 0))
    else
      let s1 := (s.modHalf g fun x => x.count32 g (hubKey bWSE 1) 0 differ).occur g srcStreamDivergence c.ctx
      if wsHalt p then
        (match c.ctx with | some i => (s1.finish h c (divergenceResult g srcStreamDivergence)).haltCtx i | none => s1)
      else s1.applyRun h w.2.1 e { w.1 with puts := wrong } fun _ => divergenceResult g srcStreamDivergence

/-- Decompressed bytes of a stream so far, and whether it is malformed by now (R361). -/
def streamData (p : Nat) (wire : List Nat) (last : Bool) : List Nat × Bool :=
  if !wsPacked p then (wire, false) else
  let x := cbfExpand (wire.length + 1) wire
  (x.1, x.2 = .malformed || x.1.length > wsData p || (last && (x.2 ≠ .complete || x.1.length ≠ wsData p)))

/-- A block has been fed to the transforms (R358, R360): what the entries can make of it is written in order, so that a stream that is
interrupted leaves its destinations partly written (R365); after the last block the command finishes, or in VERIFY compares. -/
def State.feedStream (s : State) (h : Half) (c : Cmd) (run : StreamRun) : State :=
  let p := c.packet
  let g := wsHalf (wsUp p)
  let last := run.next = wsBlocks p
  let d := streamData p run.wire last
  if d.2 then (s.occur g srcMalformed c.ctx).finish h { c with stream := some run } (engineResult g srcMalformed)
  else if wsVerify p then
    if last then s.verifyStream h { c with stream := some run } d.1 else s.setCmd h { c with stream := some run }
  else
    let ks := c.keeps
    let parts := ks.map fun k => (k, run.kept.at k.1, k.2.ready d.1.length)
    let e := s.envStream h (pkCtx p) p (s.envCmd h c)
    let w := c.keepParts e ks d.1 parts { mem := s.view }
    let run1 := { run with kept := parts.foldl (fun t x => t.set x.1.1 (max x.2.1 x.2.2)) run.kept, overs := run.overs + w.2.2 }
    let next : Cmd := { w.2.1 with stream := some run1, idle := 0, idleOther := 0 }
    let s1 := s.countStream { c with stream := some run } 2 (total (parts.map fun x => (x.2.2 - x.2.1) * fmtBytes x.1.2.src))
    if last then s1.applyRun h next e w.1 fun _ => okResult ks.length run1.overs 0
    else s1.applyPart h next e w.1 next

/-- The running stream that takes a frame of a port of a half. -/
def State.streamOf (s : State) (h : Half) (port id : Nat) : Option (Half × Cmd) :=
  s.streams.find? fun c =>
    wsId c.2.packet = id && wsHalf (wsUp c.2.packet) = h && wsPort (wsUp c.2.packet) = port && c.2.stream.isSome
      && c.2.done.isNone && c.2.phase = .running

/-- A frame of a stream to the downstream module, block seal unchanged (R358). -/
def streamFrame (c : Cmd) (block : Nat) (abort : Bool) (data : List Nat) (crc : Nat) : Frame :=
  { type := 0x7, ctx := pkCtx c.packet, gen := c.gen, addr := block, arg := wsId c.packet + (if abort then 2 ^ 16 else 0)
    data := data, crc := crc }

/-- An abort marker to the downstream module, if there is one (R358). -/
def State.abortDown (s : State) (c : Cmd) : State :=
  if wsDown c.packet = 15 then s else
  s.sendPort (wsHalf (wsUp c.packet)) (wsDown c.packet % 4) none
    (streamFrame c 0 true (List.replicate 256 0) (crc32c (List.replicate 256 0)))

/-- A block of a stream (R358): its seal is checked, it is forwarded with its seal, and fed to the keeps. -/
def takeBlock (h : Half) (port : Nat) (s : State) (f : Frame) : Answer :=
  match s.streamOf h port (bits f.arg 0 16) with
  | none => .done s
  | some (g, c) =>
    match c.stream with
    | none => .done s
    | some run =>
      if f.addr ≠ run.next then .done s else
      let s0 := s.countStream c 0 256
      if !Frame.intact f then
        .done ((s0.endSeal g c).abortDown c)
      else
        let s1 := if wsDown c.packet = 15 then s0 else
          (s0.sendPort h (wsDown c.packet % 4) (some c.id) (streamFrame c f.addr false f.data f.crc)).countStream c 1 256
        let n := min 256 (wsWire c.packet - 256 * run.next)
        if wsDown c.packet ≠ 15 && (s0.half h).peerGone h (wsDown c.packet % 4) then
          .done ((s1.occur h srcUnreachable c.ctx).finish g c (engineResult h srcUnreachable)) else
        .done (s1.feedStream g c { run with wire := run.wire ++ f.data.take n, next := run.next + 1 })

/-- May a block arrive: it needs the credit of its stream (R355)? What is on its way when a stream has ended is taken and
discarded. -/
def State.streamCredit (s : State) (h : Half) (port : Nat) (f : Frame) : Bool :=
  (s.streamOf h port (bits f.arg 0 16)).isSome || f.addr ≠ 0

/-- A frame of a stream that the spur of a bridge brings: one of an ended generation is refused (R383). -/
def spurStream (take : State → Frame → Answer) (s : State) (f : Frame) : Answer :=
  match s.q.spurGate f with | some r => .refuse s r | none => take s f

/-- STREAM: from a torus port, or from the spur of a bridge (R355, R358, R383). -/
def execStream (h : Half) (port : Nat) (f : Frame) (s : State) : Host.Outcome State Fault Refusal :=
  .next (if bitSet f.arg 16 then s
    else if port = 4 then
      (if h = .q && (s.streamCredit .q 4 f || (s.q.spurGate f).isSome) then s.receiveSpur f 0x7 (spurStream (takeBlock .q 4)) else s)
    else if s.streamCredit h port f then s.receive h port f 0x7 (takeBlock h port)
    else s)

/-- An abort marker (R358): the module ends its stream and passes the marker on. -/
def takeAbort (h : Half) (port : Nat) (s : State) (f : Frame) : Answer :=
  .done (match s.streamOf h port (bits f.arg 0 16) with
    | none => s
    | some (g, c) => ((s.occur h srcStreamAborted c.ctx).finish g c (engineResult h srcStreamAborted)).abortDown c)

def execStreamAbort (h : Half) (port : Nat) (f : Frame) (s : State) : Host.Outcome State Fault Refusal :=
  .next (if !bitSet f.arg 16 then s
    else if port = 4 then (if h = .q then s.receiveSpur f 0x7 (spurStream (takeAbort .q 4)) else s)
    else s.receive h port f 0x7 (takeAbort h port))

/-- WEIGHT_STREAM_STORE: the WSE grants credit; the blocks that follow do the work (R355, R360). -/
def execWeightStreamStore (id : Nat) (s : State) : Host.Outcome State Fault Refusal :=
  .next (onCommand s id 0x0801 (fun c => !wsVerify c.packet && c.stream.isNone) startStream)

/-- WEIGHT_STREAM_VERIFY: the WSE grants credit; a comparison that waited for remote blocks is made once they have come (R364). -/
def execWeightStreamVerify (id : Nat) (s : State) : Host.Outcome State Fault Refusal :=
  .next (onCommand s id 0x0801 (fun c => wsVerify c.packet) fun t h c =>
    match c.stream with
    | none => startStream t h c
    | some run =>
      if run.next = wsBlocks c.packet then t.verifyStream h c (streamData c.packet run.wire true).1 else t)

/-! ## EPOCH_SWITCH (R366 to R370) -/

def esOp (p : Nat) : Nat := pl p 0 3
def esEpoch (p : Nat) : Nat := pl p 32 32
def esBatch (p : Nat) : Nat := pl p 64 32
def esBase (p : Nat) : Nat := pl p 128 48
def esPages (p : Nat) : Nat := pl p 192 32
def esEntries (p : Nat) : Nat := pl p 256 48

/-- The map entries of a CREATE, by page. -/
def esTable (p v : Nat) : Table :=
  (List.range (esPages p)).foldl (fun t i => t.set (esBase p / frameBytes + i) (bits v (64 * i) 64)) []

/-- Frames that a context already names: through its maps or through a live epoch (R366). -/
def Ctx.namedFrames (c : Ctx) : List Nat := framesIn c.map ++ framesIn c.shadow ++ c.epochs.flatMap fun e => framesIn e.entries

/-- Examination of the entry list of a CREATE (R36 to R38, R343, R366): the first entry found invalid, and its field. -/
def examEntries (s : State) (h : Half) (p v : Nat) (x : Exm) : Exm :=
  let c := s.ctxAny h (pkCtx p)
  let t := esTable p v
  let frames := framesIn t
  let bad (i : Nat) : Option Nat :=
    let e := bits v (64 * i) 64
    let page := esBase p / frameBytes + i
    let held := meKind e = 1 || meKind e = 2
    let f := meFrame e
    match firstBad (entryChecks c.footprint page e 0) with
    | some o => some o
    | none =>
      if meKind e = 0 then some 0
      else if held && (s.frameTaken c.id f || s.scrubPending f || c.namedFrames.contains f || (frames.filter (· = f)).length > 1)
      then some 12
      else if pageBroken t page then some 0
      else if meKind e = 3 && bits (meRemote e) 20 12 = (s.half h).myPos h then some (32 + 20)
      else none
  match (List.range (esPages p)).find? fun i => (bad i).isSome with
  | some i => x.badWhen true (512 + 256) (1 + 64 * i + (bad i).getD 0)
  | none => x

/-- Does an admitted WEIGHT_STREAM write an epoch of a context (R367)? -/
def State.streamWrites (s : State) (ctx epoch : Nat) : Bool :=
  s.streams.any fun c => c.2.ctx = some ctx && wsEpoch c.2.packet = epoch

/-- The current epoch of a context. -/
def Ctx.currentEpoch (c : Ctx) : Option Nat := (c.epochs.find? (·.st = .current)).map (·.num)

def specEpochSwitch : OpSpec where
  ring := .c
  lo := 1
  hi := 1
  classes := [0]
  head _ p :=
    let op := esOp p
    checks [(192, pkEpoch p ≠ 0), (512, op = 0 || op > 5),
      (512 + 32, (op = 1 && esEpoch p = 0) || (op = 4 && esEpoch p ≠ 0)), (512 + 64, op ≠ 3 && op ≠ 4 && esBatch p ≠ 0),
      (512 + 128, if op = 1 then esBase p % frameBytes ≠ 0 else esBase p ≠ 0),
      (512 + 192, if op = 1 then esPages p > 786432 || esBase p + esPages p * frameBytes > 2 ^ 48 else esPages p ≠ 0),
      (512 + 256, if op = 1 then esEntries p % 64 ≠ 0 else esEntries p ≠ 0)]
    ++ reservedPl p [(3, 29), (96, 32), (176, 16), (224, 32), (304, 208)]
  -- an epoch that a stream is writing cannot become current yet (R367)
  busy s _ p := esOp p = 2 && s.streamWrites (pkCtx p) (esEpoch p)
  exam s h p x :=
    let c := s.ctxAny h (pkCtx p)
    let named := c.epochs.find? (·.num = esEpoch p)
    let loaded : Bool := match named with | some e => e.st = .loaded | none => false
    match esOp p with
    | 1 =>
      let first := esBase p / frameBytes
      let x1 := x.badWhen (esEpoch p ≤ c.lastEpoch || c.epochs.length ≥ 8) (512 + 32)
      let x2 := match c.window with
        | some (a, n) => (x1.badWhen (a ≠ first) (512 + 128)).badWhen (n ≠ esPages p && esPages p ≠ 0) (512 + 192)
        | none => x1
      let mapped (t : Table) : Bool := t.any fun e => first ≤ e.1 && e.1 < first + esPages p && meKind e.2 ≠ 0
      let x3 := x2.badWhen (mapped c.map || mapped c.shadow) (512 + 128)
      if esPages p = 0 then { x3 with empty := true } else
      let r := x3.record (512 + 256) (esEntries p) (8 * esPages p)
      if r.2.refused then r.2 else examEntries s h p r.1 r.2
    | 2 => x.badWhen (!loaded) (512 + 32)
    | 3 => (x.badWhen (c.currentEpoch.isNone || (esEpoch p ≠ 0 && c.currentEpoch ≠ some (esEpoch p))) (512 + 32)).badWhen
        (c.binds.any (·.1 = esBatch p) || c.binds.length ≥ 256) (512 + 64)
    | 4 => x.badWhen (!(c.binds.any (·.1 = esBatch p))) (512 + 64)
    | _ => x.badWhen (!loaded || s.epochHeld (pkCtx p) (esEpoch p)) (512 + 32)
  mirrored := ctxBoth

/-- Change a context in every half of its footprint: the epoch table is mirrored (R366). -/
def State.modBoth (s : State) (ctx : Nat) (f : Ctx → Ctx) : State :=
  let go (t : State) (g : Half) : State := if ((t.half g).ctx ctx).alive then t.modHalf g fun x => x.modCtx ctx f else t
  go (go s .q) .k

/-- CREATE (R366, R367). -/
def execEpochSwitchCreate (id : Nat) (s : State) : Host.Outcome State Fault Refusal :=
  .next (onCommand s id 0x0802 (fun c => esOp c.packet = 1) fun t h c =>
    let p := c.packet
    (t.modBoth (pkCtx p) fun k => { k.taking (framesIn (esTable p (c.recordNum 0))) with
      window := some (esBase p / frameBytes, esPages p), lastEpoch := esEpoch p
      epochs := k.epochs ++ [{ num := esEpoch p, st := .loaded, entries := esTable p (c.recordNum 0) }] }).finish h c (okResult 0 0 0))

/-- MAKE_CURRENT: at one stroke in both halves the epoch becomes current and the one before it RETIRING, or FREED without a
reference (R368, R370). -/
def execEpochSwitchMakeCurrent (id : Nat) (s : State) : Host.Outcome State Fault Refusal :=
  .next (onCommand s id 0x0802 (fun c => esOp c.packet = 2) fun t h c =>
    let p := c.packet
    let turn (e : Epoch) : Epoch :=
      if e.num = esEpoch p then { e with st := .current } else if e.st = .current then { e with st := .retiring } else e
    ((t.modBoth (pkCtx p) fun k => { k with epochs := k.epochs.map turn }).freeEpochs (pkCtx p)).finish h c (okResult 0 0 0))

/-- BIND: a batch holds a reference on the current epoch, which DETAIL0 returns (R367, R369). -/
def execEpochSwitchBind (id : Nat) (s : State) : Host.Outcome State Fault Refusal :=
  .next (onCommand s id 0x0802 (fun c => esOp c.packet = 3) fun t h c =>
    let p := c.packet
    let n := ((t.ctxAny h (pkCtx p)).currentEpoch).getD 0
    (t.modBoth (pkCtx p) fun k => { k with binds := k.binds ++ [(esBatch p, n)] }).finish h c (okResult n 0 0))

/-- RELEASE: the batch's reference ends (R368). -/
def execEpochSwitchRelease (id : Nat) (s : State) : Host.Outcome State Fault Refusal :=
  .next (onCommand s id 0x0802 (fun c => esOp c.packet = 4) fun t h c =>
    let p := c.packet
    ((t.modBoth (pkCtx p) fun k => { k with binds := k.binds.filter (·.1 ≠ esBatch p) }).freeEpochs (pkCtx p)).finish h c
      (okResult 0 0 0))

/-- DROP: a LOADED epoch without a reference becomes FREED (R368). -/
def execEpochSwitchDrop (id : Nat) (s : State) : Host.Outcome State Fault Refusal :=
  .next (onCommand s id 0x0802 (fun c => esOp c.packet = 5) fun t h c =>
    let p := c.packet
    (t.modBoth (pkCtx p) fun k => k.freeing fun e => e.num ≠ esEpoch p).finish h c (okResult 0 0 0))

/-! ## Patrol (R339) -/

/-- PATROL: a controller reads a block of its stack; lines that ECC corrects are counted, and a seal mismatch is a finding with the
block's address (R338, R339, R342). PATROL_HOURS = 0 disables it. -/
def execPatrol (h : Half) (stack block corrected : Nat) (s : State) : Host.Outcome State Fault Refusal :=
  let die := stack / 3
  let key := fun i => regKey bHBM die (stack % 3) i
  let x := s.half h
  let off := block * 256
  let a := hbmAddr h.part die (stack % 3) off
  .next (if !x.running || stack > 11 || off ≥ 2 ^ 36 || (bits (x.cell h (key 0)) 0 8 = 0) then s else
    let s1 := if corrected = 0 then s else s.modHalf h fun y => (y.count32 h (key 2) 0 corrected).setCell (key 5) (place off 0 36 + place 1 36 2 + place 1 38 1)
    if s1.mem.intact a then s1 else
    (s1.modHalf h fun y => y.noteBlock h die (stack % 3) off (s1.mem.deadLines a) true).occur h (dieSourceNum die (0x6B + stack % 3)) none)

end Sys2Proof.Machine
end

