-- ==== Sys2Proof/Machine/Links.lean ====
section
/-! DEFINITION. Sprinpa Link (R372 to R389): remote reads and writes at their owner, acknowledgements and refusals, credits and
replay, ports, route changes, and the notices of a plane. -/

namespace Sys2Proof.Machine

/-! ## Remote accesses at their owner (R344 to R347) -/

/-- Where a READ_REQ or WRITE lands: through the LOCAL entry that holds the frame it names, or through the receiver's own map when it
names none (R276, R344, R418). -/
def State.ownerAddr (s : State) (h : Half) (f : Frame) : Loc :=
  if bitSet f.arg 27 then
    let frame := bits f.arg 28 20
    match ((s.half h).ctx f.ctx).map.find? fun e => meKind e.2 = 1 && meFrame e.2 = frame with
    | some e => .here (frame * frameBytes + f.addr % frameBytes) (meWritable e.2)
    | none => .miss
  else (s.envOf h f.ctx).translate f.addr

/-- Bytes that a remote command moves in an HBM stack (R455). -/
def State.countHbm (s : State) (dpa sub n : Nat) : State :=
  if dpaRegion dpa = 0 then s.modHalf (dpaHalf dpa) fun x => x.gauge 0x02 (3 * 512 + dpaStack dpa) sub n else s

/-- READ_REQ at the owner: the block is sent back with its stored seal (R344, R351). -/
def takeRead (h : Half) (s : State) (f : Frame) : Answer :=
  match s.ownerAddr h f with
  | .here dpa _ =>
    let b := dpa / 256
    let s1 := s.countHbm dpa 0 256
    let s2 := if s1.view.intact dpa then s1 else s1.sealFault dpa (some f.ctx)
    .done (s2.send h none
      { type := 0x1, dst := f.src, ctx := f.ctx, gen := f.gen, addr := f.addr, arg := f.seq
        data := s2.view.bytes (b * 256) 256, crc := s2.view.sealOf b }).1
  | _ => .refuse s rsMapMiss

def execReadReq (h : Half) (port : Nat) (f : Frame) (s : State) : Host.Outcome State Fault Refusal :=
  .next (s.receive h port f 0x0 (takeRead h))

/-- May a WRITE that names no frame land: it carries a neighbour checkpoint, and its frame is preserved for the context (R419)? -/
def State.ckptFrame (s : State) (f : Frame) (dpa : Nat) : Bool :=
  bitSet f.arg 27 || s.preservedBy (dpa / frameBytes) = some f.ctx

/-- WRITE at the owner: bytes, or one reduce-on-store update performed at this controller (R194, R344, R347, R419). -/
def takeWrite (h : Half) (s : State) (f : Frame) : Answer :=
  match s.ownerAddr h f with
  | .here dpa true =>
    if !s.ckptFrame f dpa then .refuse s rsMapMiss
    else if !Frame.intact f then .refuse s rsSeal else
    let r0 : Run := { mem := s.view }
    let r := if bitSet f.arg 9 then
        (match Fmt.ofCode (bits f.arg 10 3) with
        | some fmt =>
          let old := r0.loadAt dpa fmt.bytes
          let y := reduceBits fmt (FMode.ofStrict (bitSet f.arg 13)) (numOf old.1) (numOf (f.data.take 4))
          (old.2.storeAt dpa (bytesOf fmt.bytes y.1)).settle
        | none => r0)
      else (r0.storeAt dpa (f.data.take (bits f.arg 0 9))).settle
    (match r.stop with
    | some _ => .refuse (s.sealFault dpa (some f.ctx)) rsSeal
    | none => .done ((s.commit r.mem).countHbm dpa 1 (bits f.arg 0 9)))
  | .here _ false => .refuse s rsReadonly
  | _ => .refuse s rsMapMiss

def execWrite (h : Half) (port : Nat) (f : Frame) (s : State) : Host.Outcome State Fault Refusal :=
  .next (s.receive h port f 0x2 (takeWrite h))

/-! ## Answers -/

/-- An answer that a bridge passes on to its host with the host's number (R383). -/
def State.toSpur (s : State) (f : Frame) : State :=
  s.modHalf .q fun x => x.transmit .q 4 { f with dst := x.myPos .q, src := x.myPos .q, ver := x.e2eVer .q, vc := 1 + 4 * frameClass f }

/-- Bytes of a read arrive at the command that asked for them: it goes on once all have come; a replica that restores then replaces
its range (R276). -/
def State.readArrived (s : State) (g : Half) (c : Cmd) (addr : Nat) (bs : List Nat) : State :=
  let base := addr / 256 * 256
  let c1 := { c with fetched := ((List.range 256).zip bs).foldl (fun t b => put (base + b.1) b.2 t) c.fetched, idle := 0, idleOther := 0 }
  let s1 := s.setCmd g c1
  match c1.verdict with
  | some v => if s1.awaitsRead c1.id then s1 else s1.endRestore g c1 v
  | none => s1.delivered g c1

/-- A block of the list of a hot set comes for its refresh; one with a wrong seal ends that refresh (R308, R351). -/
def State.listArrived (s : State) (f : Frame) (tid d : Nat) : State :=
  let now := (s.half (halfOfDie d)).count
  s.modHot f.ctx tid d fun r =>
    if Frame.intact f then
      { r with fetched := ((List.range 256).zip f.data).foldl (fun t b => put (f.addr / 256 * 256 + b.1) b.2 t) r.fetched }
    else { r with reload := false, fetched := [], due := r.next now }

/-- READ_RESP: the data reaches the requesting command, a hot set's refresh, or the host through the spur (R352, R353, R379). -/
def takeReadResp (h : Half) (s : State) (f : Frame) : Answer :=
  match (s.half h).sentFrame f.src f.arg with
  | none => .done s
  | some u =>
    if u.frame.type ≠ 0x0 then .done s else
    let s1 := s.modHalf h fun x => x.answered f.src f.arg
    .done (match u.spur with
    | some n =>
      if Frame.intact f then s1.toSpur { f with arg := n, crc := 0 }
      else s1.toSpur { type := 0x4, ctx := f.ctx, mgmt := f.mgmt, gen := f.gen, addr := n, arg := rsSeal }
    | none =>
      match u.cmd.bind s1.cmd? with
      | none => (match u.hot with | some (tid, d) => s1.listArrived f tid d | none => s1)
      | some (g, c) =>
        if c.done.isSome then s1
        else if Frame.intact f then
          (if g = h then s1 else s1.crossFor (some (attrKey c.packet)) h .tensor f.data.length).readArrived g c f.addr f.data
        else if bitSet u.frame.arg 27 then
          s1.finish g c (sealResult (bits u.frame.arg 28 20 * frameBytes + f.addr % frameBytes))
        else s1.endSeal g c)

def execReadResp (h : Half) (port : Nat) (f : Frame) (s : State) : Host.Outcome State Fault Refusal :=
  .next (s.receive h port f 0x1 (takeReadResp h))

/-- Is a sent frame answered by a frame of its own rather than by ACK (R379)? -/
def Unacked.byReply (u : Unacked) : Bool :=
  u.frame.type = 0x0 || (match u.frame.row with | .request _ _ => u.frame.type = 0x5 | _ => false)

/-- ACK: every frame to its sender up to the number it carries is acknowledged (R380). A bridge tells its host. -/
def takeAck (h : Half) (s : State) (f : Frame) : Answer :=
  let x := s.half h
  let hit (u : Unacked) : Bool := u.frame.dst = f.src && !u.byReply && seqAfter u.frame.seq f.arg < seqHalf
  let gone := x.unacked.filter hit
  let s1 := s.modHalf h fun y => { y with unacked := y.unacked.filter fun u => !hit u }
  let awake (t : State) (u : Unacked) : State :=
    match u.cmd.bind t.cmd? with
    | some (g, c) => t.setCmd g (c.progress g h)
    | none => match u.spur, u.relay with
      | some n, _ => t.toSpur { type := 0x3, mgmt := true, arg := n }
      | none, some (port, g) => State.settleAnswer h port g (.done t)
      | none, none => t
  .done (gone.foldl awake s1)

def execAck (h : Half) (port : Nat) (f : Frame) (s : State) : Host.Outcome State Fault Refusal :=
  .next (s.receive h port f 0x3 (takeAck h))

/-- ACK_SEND: the highest number received in order from a source is acknowledged; a bridge acknowledges its host's frames through the
spur (R380, R383). -/
def execAckSend (h : Half) (src : Nat) (s : State) : Host.Outcome State Fault Refusal :=
  .next (if (s.half h).rxSince.at src = 0 then s else s.sendAck h src)

/-- The result that a refusal of a frame gives its command (R98, R286, R318, R344, R346). A payload that names no frame has no DPA,
and the detail words are free. -/
def State.nackResult (s : State) (h : Half) (u : Unacked) (arg src : Nat) : Result :=
  let reason := arg % 2 ^ 16
  if reason = rsPeer then { status := stFault, d0 := rsPeer, d1 := src }
  else if reason = rsMapMiss || reason = rsReadonly then missResult stFault reason u.frame.addr
  else if reason = rsSeal then
    if bitSet u.frame.arg 27 then sealResult (bits u.frame.arg 28 20 * frameBytes + u.frame.addr % frameBytes) else s.linkSeal
  else if reason = rsEngine then engineResult h (if arg / 2 ^ 16 % 1024 = 0 then srcTableMiss else arg / 2 ^ 16 % 1024)
  else if reason = rsTornDown then lostResult u.frame.gen
  else faultField tagBit 0

/-- The refusal of a frame without a command: one that forwards another refuses that in its turn (R319, R329), and the refresh of a hot
set leaves the set as it is (R308). -/
def State.relayNack (s : State) (h : Half) (u : Unacked) (reason : Nat) : State :=
  match u.relay, u.hot with
  | some (port, f), _ => State.settleAnswer h port f (.refuse s reason)
  | none, some (tid, d) =>
    s.modHot u.frame.ctx tid d fun r => { r with reload := false, fetched := [], due := r.next (s.half (halfOfDie d)).count }
  | none, none => s

/-- NACK: the refused frame's command ends (R98, R379); a bridge tells its host (R383). -/
def takeNack (h : Half) (s : State) (f : Frame) : Answer :=
  match (s.half h).sentFrame f.src f.addr with
  | none => .done s
  | some u =>
    let s1 := s.modHalf h fun x => x.answered f.src f.addr
    .done (match u.spur with
    | some n => (s1.toSpur { f with addr := n }).occur .q srcSpurFrame none
    | none =>
      match u.cmd.bind s1.cmd? with
      | none => s1.relayNack h u f.arg
      | some (g, c) =>
        if c.done.isSome && !(match c.done with | some r => !isError r.status | none => false) then s1 else
        let r := s1.nackResult h u f.arg f.src
        let s2 := if r.d0 = rsEngine then s1.occur h (r.d1 % 1024) c.ctx else s1
        ({ s2 with drawnFree := s2.drawnFree + 2 } : State).failCmd g c r)

def execNack (h : Half) (port : Nat) (f : Frame) (s : State) : Host.Outcome State Fault Refusal :=
  .next (s.receive h port f 0x4 (takeNack h))

/-! ## Credits and replay (R374, R381) -/

/-- Frames of a queue that hold credit and have no earlier one of their account and origin before them (R380, R381). -/
def Port.eligible (p : Port) (mine : Nat) : List Frame → List (Nat × Bool) → List Frame
  | [], _ => []
  | f :: rest, seen =>
    let key := (creditOf f, decide (f.src = mine))
    let more := p.eligible mine rest (key :: seen)
    if !seen.contains key && p.hasCredit (creditOf f) (frameUnits f) then f :: more else more

/-- Within a class forwarded and local frames alternate (R381). -/
def Port.ofClass (p : Port) (mine c : Nat) (es : List Frame) : Option Frame :=
  let mineFirst := es.find? fun f => frameClass f = c && f.src = mine
  let farFirst := es.find? fun f => frameClass f = c && f.src ≠ mine
  if p.turn.forwarded.contains c then mineFirst.or farFirst else farFirst.or mineFirst

/-- The next frame of a port's queue that may go: URGENT first, then the classes by weighted round robin (R381). -/
def Port.next (p : Port) (mine : Nat) : Option Frame :=
  let es := p.eligible mine p.queue []
  match es.find? fun f => frameClass f = 3 with
  | some f => some f
  | none => [0, 1, 2, 3].findSome? fun i => p.ofClass mine (roundClasses.getD ((p.turn.slot + i) % 4) 0) es

/-- Put queued frames on the wire while there is credit and room in the retry buffer; `fuel` bounds their number. -/
def Port.drain (p : Port) (mine : Nat) : Nat → Port × List Frame
  | 0 => (p, [])
  | fuel + 1 =>
    if p.retry.length ≥ 1024 then (p, []) else
    match p.next mine with
    | none => (p, [])
    | some f =>
      let q := p.put mine (p.slotAfter (frameClass f)) f
      let a := Port.drain { q with queue := p.queue.erase f } mine fuel
      (a.1, f :: a.2)

/-- The oldest frames of a virtual channel, or of a collective's tag, whose buffers have been freed leave the retry buffer. -/
def freedFrames (vc : Nat) : Nat → List Frame → List Frame
  | _, [] => []
  | units, f :: rest =>
    if creditOf f = vc && frameUnits f ≤ units then freedFrames vc (units - frameUnits f) rest
    else f :: freedFrames vc (if creditOf f = vc then 0 else units) rest

/-- CREDIT_RETURN: the receiver of a port has freed buffers of a virtual channel (R381). -/
def execCreditReturn (h : Half) (port vc units : Nat) (s : State) : Host.Outcome State Fault Refusal :=
  let x := s.half h
  .next (if port > 4 || x.portState h port ≠ 2 || units = 0 then s else
    let p := x.port port
    let left := freedFrames vc units p.retry
    let p1 : Port := { p with
      used := p.used.set vc (p.used.at vc - units), retry := left, failedReplays := if left.head? = p.retry.head? then p.failedReplays else 0 }
    let d := p1.drain (x.myPos h) p1.queue.length
    s.modHalf h fun y => d.2.foldl
      (fun z f => z.gauge 0x02 (6 * 512 + port * 4 + gaugeClass f) 0 (frameBytesOf f)) (y.setPort port d.1))

/-- LINK_REPLAY: the receiver discarded a frame, and the sender sends it again from its retry buffer, in order (R374). -/
def execLinkReplay (h : Half) (port : Nat) (s : State) : Host.Outcome State Fault Refusal :=
  let x := s.half h
  .next (if port > 4 || x.portState h port ≠ 2 || (x.port port).retry.isEmpty then s else
    s.modHalf h fun y =>
      (y.setPort port { y.port port with failedReplays := (y.port port).failedReplays + 1 }).count32 h (regKey bLNK 4 port 4) 0 1)

/-! ## Route changes (R387 to R389) -/

/-- Strokes from detection to commit (R387). -/
def routeDelay : Nat := 500000

/-- A fact joins the commit of its stroke: one entry for each stroke, 32 entries, the latest takes what finds no room (R387). -/
def HalfState.queueRoute (x : HalfState) (detected : Nat) (f : RouteFact) : HalfState :=
  let at' := detected + routeDelay
  let join (e : RoutePending) : RoutePending := { e with facts := e.facts ++ [f] }
  if x.routePending.any (·.stroke = at') then
    { x with routePending := updateFirst (fun e => e.stroke = at') join x.routePending }
  else if x.routePending.length < 32 then { x with routePending := x.routePending ++ [{ stroke := at', facts := [f] }] }
  else
    let last := greatest (x.routePending.map (·.stroke))
    { x with routePending := updateFirst (fun e => e.stroke = last) join x.routePending }

/-- Send a notice on every ACTIVE torus port of a plane but one (R387). -/
def HalfState.flood (x : HalfState) (h : Half) (except : Nat) (f : Frame) : HalfState :=
  [0, 1, 2, 3].foldl (fun y p => if p ≠ except && y.portState h p = 2 then y.transmit h p f else y) x

/-- A route-change NOTICE: detection stroke in ADDR; position, port and state in ARG (R379, R387). -/
def routeNotice (x : HalfState) (h : Half) (detected : Nat) (f : RouteFact) : Frame :=
  { noticeFrame 0 3 (detected % 2 ^ 48) with
    arg := 3 + place f.port 8 3 + place (if f.down then 1 else 0) 11 1 + place f.pos 12 12, src := x.myPos h, ver := x.e2eVer h }

/-- The fact that a route-change NOTICE carries. -/
def noticeFact (f : Frame) : RouteFact := { pos := bits f.arg 12 12, port := bits f.arg 8 3, down := bitSet f.arg 11 }

/-- A stroke from its low 48 bits, the nearest to the count of the half. -/
def nearStroke (now low : Nat) : Nat :=
  let base := now / 2 ^ 48 * 2 ^ 48 + low
  if base + 2 ^ 47 < now then base + 2 ^ 48
  else if now + 2 ^ 47 < base && 2 ^ 48 ≤ base then base - 2 ^ 48 else base

/-- A hub detects a change of its own port: the fact is flooded and joins its own commit (R387). -/
def HalfState.raiseRoute (x : HalfState) (h : Half) (f : RouteFact) : HalfState :=
  let y := x.queueRoute x.count f
  { y.flood h 4 (routeNotice x h x.count f) with
    routeSeen := x.routeSeen ++ [(f.pos, f.port * 2 + (if f.down then 1 else 0), x.count % 2 ^ 48)] }

/-- May a notice on a port be heard? -/
def HalfState.hears (x : HalfState) (h : Half) (port : Nat) (f : Frame) (kind : Nat) : Bool :=
  port < 4 && x.portState h port = 2 && !x.resetting && f.type = 0xB && f.arg % 256 = kind && f.ver = x.e2eVer h

/-- What a NOTICE that is not heard leaves: one of another LINK_VER is dropped and counted (R377, R405). -/
def State.unheard (s : State) (h : Half) (port : Nat) (f : Frame) (kind : Nat) : State :=
  let x := s.half h
  if port < 4 && x.portState h port = 2 && !x.resetting && f.type = 0xB && f.arg % 256 = kind && f.ver ≠ x.e2eVer h then
    s.modHalf h fun y => (y.countIn port f).dropFrame h port
  else s

/-- ROUTE_CHANGE_NOTICE: the first copy is forwarded on every other ACTIVE port and queued (R387). -/
def execRouteChangeNotice (h : Half) (port : Nat) (f : Frame) (s : State) : Host.Outcome State Fault Refusal :=
  let x := s.half h
  let fact := noticeFact f
  let id := (fact.pos, fact.port * 2 + (if fact.down then 1 else 0), f.addr)
  .next (if !x.hears h port f 3 then s.unheard h port f 3
    else if x.routeSeen.contains id then s.modHalf h fun y => y.countIn port f else
    s.modHalf h fun y =>
      { ((y.countIn port f).queueRoute (nearStroke y.count f.addr) fact).flood h port f with routeSeen := y.routeSeen ++ [id] })

/-- The opposite port. -/
def oppositePort (p : Nat) : Nat := (p + 2) % 4

/-- One hop on a torus of given extents: 0 N, 1 E, 2 S, 3 W (R385). -/
def hop (ex ey p o : Nat) : Nat :=
  let a := p % 64
  let b := p / 64
  match o with
  | 0 => position a ((b + 1) % ey)
  | 1 => position ((a + 1) % ex) b
  | 2 => position a ((b + ey - 1) % ey)
  | _ => position ((a + ex - 1) % ex) b

/-- Is the link of a port up, as far as the facts of both its ends say? -/
def linkUp (ex ey : Nat) (facts : List RouteFact) (p o : Nat) : Bool :=
  !(facts.any fun f => f.down && ((f.pos = p && f.port = o) || (f.pos = hop ex ey p o && f.port = oppositePort o)))

/-- Does a path of hops use links that are up only? -/
def pathUp (ex ey : Nat) (facts : List RouteFact) : Nat → List Nat → Bool
  | _, [] => true
  | p, o :: rest => linkUp ex ey facts p o && pathUp ex ey facts (hop ex ey p o) rest

/-- Hops in one direction before the first link that is down. -/
def clearRun (ex ey : Nat) (facts : List RouteFact) : Nat → Nat → Nat → Nat
  | _, _, 0 => 0
  | p, o, n + 1 => if linkUp ex ey facts p o then 1 + clearRun ex ey facts (hop ex ey p o) o n else 0

/-- Hops from `a` to `b` on a ring of `ext` in the direction of a port. -/
def hopsTo (ext a b o : Nat) : Nat := if o ≤ 1 then (b + ext - a) % ext else (a + ext - b) % ext

/-- Both directions of a dimension, the shorter way first, E and N at equal length (R386); one of them where nothing is to go. -/
def directions (ext a b up down : Nat) : List Nat :=
  if a = b then [up] else if ringWay a b ext up down = up then [up, down] else [down, up]

/-- Paths to a destination in the order in which equal lengths are preferred: without a sidestep, then sidesteps of X transit through
row y + 1 and row y − 1, then of Y transit through column x + 1 and x − 1 (R389). The flag says that the path sidesteps. -/
def candidatePaths (ex ey : Nat) (facts : List RouteFact) (p d : Nat) : List (Bool × List Nat) :=
  let as := directions ex (p % 64) (d % 64) 1 3
  let bs := directions ey (p / 64) (d / 64) 0 2
  let kx (a : Nat) : Nat := hopsTo ex (p % 64) (d % 64) a
  let straight := as.flatMap fun a => bs.map fun b =>
    (false, List.replicate (kx a) a ++ List.replicate (hopsTo ey (p / 64) (d / 64) b) b)
  let sideX := as.flatMap fun a =>
    let j := clearRun ex ey facts p a (kx a)
    if j ≥ kx a then [] else
    [0, 2].flatMap fun t =>
      let row := hop ex ey p t / 64
      (directions ey row (d / 64) 0 2).map fun b =>
        (true, List.replicate j a ++ [t] ++ List.replicate (kx a - j) a ++ List.replicate (hopsTo ey row (d / 64) b) b)
  let sideY := as.flatMap fun a => bs.flatMap fun b =>
    let ky := hopsTo ey (p / 64) (d / 64) b
    let j := clearRun ex ey facts (position (d % 64) (p / 64)) b ky
    if j ≥ ky then [] else
    [1, 3].map fun t =>
      (true, List.replicate (kx a) a ++ List.replicate j b ++ [t] ++ List.replicate (ky - j) b ++ [oppositePort t])
  (straight ++ sideX ++ sideY).filter fun c => pathUp ex ey facts p c.2

/-- The shortest of a list of paths, the first among equals. -/
def shortest : List (Bool × List Nat) → Option (Bool × List Nat)
  | [] => none
  | c :: rest => match shortest rest with
    | some b => if b.2.length < c.2.length then some b else some c
    | none => some c

/-- The route entry that firmware gives a destination (R386, R389). -/
def routeEntry (ex ey : Nat) (facts : List RouteFact) (p d : Nat) : Nat :=
  if d = p then 4 else
  match shortest (candidatePaths ex ey facts p d) with
  | some (side, o :: _) => o + (if side then 8 else 0)
  | _ => 7

/-- The table that a half commits: entries that differ from the default (R386, R387). -/
def HalfState.recompute (x : HalfState) (h : Half) (facts : List RouteFact) : Table :=
  let ex := x.extX h
  let ey := x.extY h
  (List.range ey).foldl (fun t b => (List.range ex).foldl (fun u a =>
    let d := position a b
    let e := routeEntry ex ey facts (x.myPos h) d
    if e = x.defaultRoute h d then u else put d e u) t) []

/-- Facts after a change: what is DOWN stays listed, once. -/
def mergeFact (facts : List RouteFact) (f : RouteFact) : List RouteFact :=
  let others := facts.filter fun g => !(g.pos = f.pos && g.port = f.port)
  if f.down then others ++ [f] else others

/-- Does a command take part in a collective of a plane (R391, R395)? -/
def isCollectiveOn (h : Half) (c : Cmd) : Bool :=
  (pkOpcode c.packet = 0x0901 || pkOpcode c.packet = 0x0902 || pkOpcode c.packet = 0x0903)
    && (pl c.packet 199 1 = 1 || pl c.packet 198 1 = h.part)

def srcInterrupted : Nat := 0x04A

/-- Commands end with an engine's result, each with an occurrence of its source. -/
def State.failAll (s : State) (h : Half) (source : Nat) (ids : List Nat) : State :=
  ids.foldl (fun t id => match t.cmd? id with
    | some (g, c) => if c.done.isSome && !(match c.done with | some r => !isError r.status | none => false) then t
        else (t.occur h source c.ctx).failCmd g c (engineResult h source)
    | none => t) s

/-- Frames that were held are routed again; `came` is local (R388). -/
def HalfState.reroute (x : HalfState) (h : Half) (fs : List Frame) : HalfState :=
  fs.foldl (fun y f => (y.routeFrame h f 4).1) x

/-- A route commit of a half at a stroke: the facts of that stroke are merged, the table recomputed, frames held are routed again, and
frames to a destination that has become unreachable are lost: the second part (R387, R388). -/
def HalfState.commitRoutes (x : HalfState) (h : Half) (stroke : Nat) : HalfState × List Unacked :=
  let now := x.routePending.filter (·.stroke = stroke)
  let facts := (now.flatMap (·.facts)).foldl mergeFact x.facts
  let gen := (bits (x.portReg h 0 2) 16 8 + 1) % 256
  let ports := if h = .q then [0, 1, 2, 3, 4] else [0, 1, 2, 3]
  let held := [0, 1, 2, 3].flatMap fun p => (x.port p).held
  let y : HalfState := { x with
    routePending := x.routePending.filter (·.stroke ≠ stroke), facts := facts, routes := x.recompute h facts
    ports := (List.range 5).map fun p => if p < 4 then { x.port p with held := [] } else x.port p }
  let z := (ports.foldl (fun (w : HalfState) p => w.setField h (regKey bLNK 4 p 2) 16 8 gen) y).traceEvent 7 0 gen 0
  let lost (u : Unacked) : Bool := z.route h u.frame.dst % 8 = 7
  ({ z with unacked := z.unacked.filter fun u => !lost u }.reroute h held, z.unacked.filter lost)

/-- The collectives of the plane of a half that have not ended. -/
def State.runningCollectives (s : State) (h : Half) : List Nat :=
  (s.allCmds.filter fun c => isCollectiveOn h c.2 && c.2.done.isNone).map fun c => c.2.id

/-- Proxies at a CLE whose collective a route commit interrupts are over (R395). -/
def State.stopProxies (s : State) (h : Half) : State :=
  s.modHalf h fun x => match x.resident with
    | some ctx => x.modCtx ctx fun q =>
        { q with colls := q.colls.map fun k => if k.proxy && !k.finished then { k with proxy := false, finished := true } else k }
    | none => x

/-- ROUTE_COMMIT: at the stroke of the earliest pending commit a recomputed table takes effect, held frames are routed again, and
collectives of the plane and commands with frames to a destination that has become unreachable end (R387, R388, R395). -/
def execRouteCommit (h : Half) (s : State) : Host.Outcome State Fault Refusal :=
  let x := s.half h
  .next (match least (x.routePending.map (·.stroke)) with
    | none => s
    | some stroke =>
      if x.count < stroke || x.resetting || x.freezeDue then s else
      let r := x.commitRoutes h stroke
      let s0 := r.2.foldl (fun t u => t.relayNack h u (nackCode (engineResult h srcUnreachable))) (s.setHalf h r.1)
      let s1 := s0.failAll h srcUnreachable (r.2.filterMap (·.cmd)).eraseDups
      (s1.failAll h srcInterrupted (s1.runningCollectives h)).stopProxies h)

/-! ## Ports (R373 to R376) -/

/-- The source of a port that has gone DOWN (R428). -/
def srcPortDown (port : Nat) : Nat := 0x018 + port

/-- A port stops carrying frames, in state DOWN (0) or DISABLED (3): what its retry buffer and queue hold waits, and a torus port's
change is flooded (R374, R387, R388). -/
def HalfState.stopPort (x : HalfState) (h : Half) (port state cause : Nat) (route : Bool) : HalfState :=
  let p := x.port port
  let y := x.setPort port { p with held := p.held ++ p.retry ++ p.queue, retry := [], queue := [], used := [], failedReplays := 0, lastWord := 0, turn := {} }
  let z := (y.setField h (regKey bLNK 4 port 2) 0 3 state).setField h (regKey bLNK 4 port 2) 3 3 cause
  if route && port < 4 then z.raiseRoute h { pos := z.myPos h, port := port, down := true } else z

/-- A port goes DOWN (R374, R387, R388): what its retry buffer and queue hold waits, the cause is recorded, the source occurs, and
a torus port's change is flooded, and the Stroke copy chooses its parent again (R49). -/
def State.lowerPort (s : State) (h : Half) (port cause : Nat) (route : Bool) : State :=
  ((s.modHalf h fun x => x.stopPort h port 0 cause route).occur h (srcPortDown port) none).refreshParent h

/-- Does a half have the port: four torus ports, and the spur in the Q half (R405)? -/
def hasPort (h : Half) (port : Nat) : Bool := port < 4 || (port = 4 && h = .q)

/-- PORT_DOWN: eight failed replays (cause 4), or 1,000 strokes without block lock (cause 1) (R374). -/
def execPortDown (h : Half) (port cause : Nat) (s : State) : Host.Outcome State Fault Refusal :=
  let x := s.half h
  .next (if !hasPort h port || x.resetting || x.portState h port ≠ 2 then s
    else if cause = 1 || (cause = 4 && (x.port port).failedReplays ≥ 8) then s.lowerPort h port cause true
    else s)

/-- The link versions this module implements (R375). -/
def linkVersion : Nat := 1

/-- The capability record that a half sends through a port (R375). -/
def HalfState.capability (x : HalfState) (h : Half) (port : Nat) : Nat :=
  place 1 0 8 + place Config.archGen 16 8 + place linkVersion 24 8 + place linkVersion 32 8 + place (x.myPos h) 40 12
    + place h.part 52 1 + place port 53 3 + place (x.extX h) 56 7 + place (x.extY h) 63 7

/-- PORT_RETRAIN: firmware retrains a DOWN port while it is enabled, 100,000,000 strokes after the last attempt; its
capability record goes out (R374, R375). -/
def execPortRetrain (h : Half) (port : Nat) (s : State) : Host.Outcome State Fault Refusal :=
  let x := s.half h
  let due : Bool := match (x.port port).triedAt with | none => true | some t => t + 100000000 ≤ x.count
  .next (if hasPort h port && x.running && x.portState h port = 0 && bitSet (x.portReg h port 1) 0 && due then
      s.modHalf h fun y => (y.setPort port { y.port port with triedAt := some y.count, sentCap := y.capability h port }).setField h (regKey bLNK 4 port 2) 0 3 1
    else s)

/-- Why a received capability record keeps a port from becoming ACTIVE: the DOWN_CAUSE, or `none` (R376). This module accepts only
E2E_VER = 1 (R377). -/
def capRefusal (x : HalfState) (h : Half) (port rec : Nat) : Option Nat :=
  let kind := bits rec 8 2
  if !(bits rec 24 8 ≤ linkVersion && linkVersion ≤ bits rec 32 8) || (x.extX h ≠ 0 && x.e2eVer h ≠ linkVersion) then some 2
  else if port = 4 then (if kind = 1 && x.isBridge h then none else some 5)
  else if !(kind = 0 || kind = 2) then some 5
  else if x.extX h = 0 || bits rec 52 1 ≠ h.part || bits rec 53 3 ≠ oppositePort port || bits rec 40 12 ≠ x.neighbour h port
      || bits rec 56 7 ≠ x.extX h || bits rec 63 7 ≠ x.extY h then some 3
  else none

/-- CAPABILITY_EXCHANGE: a port in training becomes ACTIVE or goes DOWN (R375, R376). A torus port that becomes ACTIVE, also
in the TRAINING of its half (DEDUCED, log entry 62), is flooded as repaired, with every port that the committed table treats as DOWN (R387). -/
def execCapabilityExchange (h : Half) (port record : Nat) (s : State) : Host.Outcome State Fault Refusal :=
  let x := s.half h
  .next (if !hasPort h port || x.resetting || x.portState h port ≠ 1 then s else
    let s1 := s.modHalf h fun y => y.setCell (regKey bLNK 4 port 3) (record % 2 ^ 64)
    match capRefusal x h port record with
    | some cause => s1.lowerPort h port cause false
    | none => s1.modHalf h fun y =>
      let k := regKey bLNK 4 port 2
      let z := ((y.setField h k 0 3 2).setField h k 3 3 0).setField h k 8 8 linkVersion
      if port < 4 then
        let up := z.raiseRoute h { pos := z.myPos h, port := port, down := false }
        (z.facts.filter fun f => !(f.pos = z.myPos h && f.port = port)).foldl (fun w f => w.raiseRoute h f) up
      else z)

/-! ## Transit (R377, R386, R388) -/

/-- The pump group of a position: the 2 × 4 rectangle that holds it (R384). -/
def groupOf (p : Nat) : Nat × Nat := (p % 64 / 2, p / 64 / 4)

/-- A frame of the spur that the bridge does not keep for itself: of a type that may come (R383) and for its own pump group (R384)
it goes on with the bridge's position and number; the host's number is kept for the answer. A frame for a ring of the K half
crosses the Siphon here (R34). -/
def State.relaySpur (s : State) (f0 : Frame) : State :=
  let x := s.q
  let f : Frame := { f0 with crc := if f0.data.isEmpty then 0 else crc32c f0.data }
  let s0 := s.modHalf .q fun y => y.countIn 4 f0
  if f.ver ≠ x.e2eVer .q then s0.modHalf .q fun y => y.dropFrame .q 4
  else if !(f.type = 0x0 || f.type = 0x7 || f.type = 0x9 || f.type = 0xA) then
    (s0.modHalf .q fun y => y.dropFrame .q 4).occur .q srcSpurFrame none
  else if groupOf f.dst ≠ groupOf (x.myPos .q) then
    (s0.nackFrame .q 4 { f with src := x.myPos .q } rsField).occur .q srcSpurFrame none
  else
    let g := if f.type = 0x7 then .q else Half.ofPart (bits f.addr 0 1)
    if g = .k && !s0.siphonUp then s else
    let n := (s0.half g).seqNext.at (seqKey g f.dst)
    let mark (u : Unacked) : Unacked := if u.frame.dst = f.dst && u.frame.seq = n then { u with spur := some f0.seq } else u
    (s0.send g none f).1.modHalf g fun y => { y with unacked := y.unacked.map mark }

/-- FRAME_FORWARD: a frame that is not for this module goes out through the route table, or waits while its port is not ACTIVE
(R386, R388). A frame of another version or of a reserved type is dropped and counted (R377, R379). -/
def execFrameForward (h : Half) (port : Nat) (f : Frame) (s : State) : Host.Outcome State Fault Refusal :=
  let x := s.half h
  .next (if !hasPort h port || x.portState h port ≠ 2 || x.resetting then s
    else if port = 4 then
      (if !x.isBridge h || (f.dst = x.myPos h && (f.type = 0x0 || f.type = 0x7 || f.type = 0x9 || f.type = 0xA)) || f.type = 0xA then s
       else s.relaySpur f)
    else if f.ver ≠ x.e2eVer h || f.type ≥ 0xC then s.modHalf h fun y => (y.countIn port f).dropFrame h port
    else if f.dst = x.myPos h || (f.type = 0xB && f.arg % 256 ≠ 0) then s
    else s.modHalf h fun y => ((y.countIn port f).routeFrame h (y.ingress h port f) port).1)

/-! ## Notices -/

/-- TEARDOWN_NOTICE: a notice of the current generation of a context ends it here; it propagates no further (R99). One
of an ended generation is dropped and counted (R380). -/
def execTeardownNotice (h : Half) (port : Nat) (f : Frame) (s : State) : Host.Outcome State Fault Refusal :=
  let x := s.half h
  .next (if f.dst ≠ x.myPos h then s
    else if !x.hears h port f 0 then s.unheard h port f 0
    else
      let s1 := s.modHalf h fun y => y.countIn port f
      if f.gen < x.gen f.ctx then s1.modHalf h fun y => y.dropFrame h port
      else if (x.ctx f.ctx).alive && x.gen f.ctx = f.gen then s1.teardownFrom h f.ctx false
      else s1)

/-- FAULT_BROADCAST: a fault notice of the other half crosses the Siphon in the URGENT class (R26, R27). The spec gives it no effect on
the Fault Collector of the half that receives it, which acts on its own sources (R426). -/
def execFaultBroadcast (h : Half) (_ : Nat) (s : State) : Host.Outcome State Fault Refusal :=
  .next (s.cross h.other .urgent flitBytes)

end Sys2Proof.Machine
end

