-- ==== Sys2Proof/Machine/Collectives.lean ====
section
/-! DEFINITION. The Collective Engine (R390 to R404): REDUCE_SCATTER, ALL_GATHER and ALL_REDUCE frame by frame in their fixed order,
descriptor frames, deadlines, proxies, the late ledger and the statistics. -/

namespace Sys2Proof.Machine

/-! ## The payload (R391) -/

def cuSrc (u : Nat) : Nat := bits u 0 48
def cuDst (u : Nat) : Nat := bits u 64 48
def cuCount (u : Nat) : Nat := bits u 128 48
def cuFmt (u : Nat) : Nat := bits u 192 3
def cuMax (u : Nat) : Bool := bits u 195 2 = 1
def cuWire (u : Nat) : Bool := bitSet u 197
def cuCross (u : Nat) : Bool := bitSet u 199
def cuFold (u : Nat) : Bool := bitSet u 200
def cuStats (u : Nat) : Bool := bitSet u 201
def cuMean (u : Nat) : Bool := bitSet u 202
def cuW (u : Nat) : Nat := bits u 224 8
def cuH (u : Nat) : Nat := bits u 232 8
def cuDeadline (u : Nat) : Nat := bits u 256 64
def cuTag (u : Nat) : Nat := bits u 320 32
def cuScale (u : Nat) : Nat := bits u 352 32
def cuLedger (u : Nat) : Nat := bits u 384 48
def cuStatsCxa (u : Nat) : Nat := bits u 448 48
/-- Element size in memory. -/
def cuBytes (u : Nat) : Nat := fmtBytes (cuFmt u)

/-- The CLEs that a collective runs on (R390, R391). -/
def cuHalves (u : Nat) : List Half := if cuCross u then [.q, .k] else [Half.ofPart (bits u 198 1)]

/-- The fields of a payload unit that hold addresses. -/
def addressFields : List (Nat × Nat) := [(0, 48), (64, 48), (384, 48), (448, 48)]

/-- A payload without its addresses, as descriptor frames compare it (R398). -/
def withoutAddresses (u : Nat) : Nat := addressFields.foldl (fun v f => setBits v f.1 f.2 0) u

/-- Unit 0 as it acts in a half: with CROSS the K half's addresses lie in unit 1 (R392). -/
def unitFor (p : Nat) (h : Half) : Nat :=
  let u := pl p 0 512
  if cuCross u && h = .k then addressFields.foldl (fun v f => setBits v f.1 f.2 (pl p (512 + f.1) f.2)) u else u

/-! ## Members, chunks and pieces (R394, R395) -/

/-- Are all links of the rings of a dimension ACTIVE in the committed table (R395): no fact says a port of that dimension is DOWN, in the
rows or columns a group crosses? -/
def HalfState.ringsWhole (x : HalfState) (ports : List Nat) (within : Nat → Bool) : Bool :=
  x.facts.all fun f => !(f.down && ports.contains f.port && within f.pos)

/-- Does position `p` lie in rows (or columns) lo, lo+1, …, lo+n−1 of an extent, wrapping? -/
def inSpan (p lo n ext : Nat) : Bool := (p + max ext 1 - lo % max ext 1) % max ext 1 < n

/-- Ring phases that a collective may run in X and in Y (R395). -/
def HalfState.ringPhases (x : HalfState) (h : Half) (u : Nat) : Bool × Bool :=
  (cuW u = x.extX h && x.ringsWhole [1, 3] (fun q => inSpan (q / 64) (bits u 216 8) (cuH u) (x.extY h)),
   cuH u = x.extY h && x.ringsWhole [0, 2] (fun q => inSpan (q % 64) (bits u 208 8) (cuW u) (x.extX h)))

/-- One dimension of a group at a member: extent, the member's rank, ring or line, the ports of the + and − ways, and the elements
concerned. -/
structure CDim where
  n : Nat
  r : Nat
  ring : Bool
  plus : Nat
  minus : Nat
  lo : Nat
  hi : Nat
deriving DecidableEq, Repr

/-- Chunk `k` of a dimension: first element and the one after its last. -/
def CDim.chunk (d : CDim) (k : Nat) : Nat × Nat := (d.lo + (d.hi - d.lo) * k / d.n, d.lo + (d.hi - d.lo) * (k + 1) / d.n)

/-- The elements of chunk `k` that travel one way: in a ring the first half goes +, the rest −; in a line all go both ways (R396). -/
def CDim.way (d : CDim) (k dir : Nat) : Nat × Nat :=
  let c := d.chunk k
  if d.ring then
    let mid := c.1 + (c.2 - c.1) / 2
    if dir = 0 then (c.1, mid) else (mid, c.2)
  else c

def CDim.port (d : CDim) (dir : Nat) : Nat := if dir = 0 then d.plus else d.minus

/-- The X dimension of a collective at a half. -/
def HalfState.dimX (x : HalfState) (h : Half) (u : Nat) (ring : Bool) : CDim :=
  let ex := max (x.extX h) 1
  { n := max (cuW u) 1, r := (x.myX h + ex - bits u 208 8 % ex) % ex, ring := ring && 2 ≤ cuW u, plus := 1, minus := 3
    lo := 0, hi := cuCount u }

/-- The Y dimension: the sub-chunks of the member's X chunk (R394). -/
def HalfState.dimY (x : HalfState) (h : Half) (u : Nat) (ring : Bool) : CDim :=
  let ey := max (x.extY h) 1
  let dx := x.dimX h u false
  let c := dx.chunk dx.r
  { n := max (cuH u) 1, r := (x.myY h + ey - bits u 216 8 % ey) % ey, ring := ring && 2 ≤ cuH u, plus := 0, minus := 2
    lo := c.1, hi := c.2 }

/-- The member's block: first element and the one after its last (R394). -/
def HalfState.block (x : HalfState) (h : Half) (u : Nat) : Nat × Nat :=
  let d := x.dimY h u false
  d.chunk d.r

/-- Cut elements into frames; no elements give one empty frame, which carries the counts. -/
def cuts (per lo hi : Nat) : List (Nat × Nat) :=
  if hi ≤ lo then [(lo, 0)]
  else (List.range (ceilDiv (hi - lo) per)).map fun i => (lo + i * per, min per (hi - lo - i * per))

/-- Elements of a frame of a reduce phase, and of a gather phase (R378, R391). -/
def reducePer (u : Nat) : Nat := 256 / (if cuWire u then cuBytes u else 4)
def gatherPer (u : Nat) : Nat := 256 / cuBytes u

/-- Chunks that a member begins to send in a reduce phase, with their way (R396). -/
def CDim.begins (d : CDim) : List (Nat × Nat) :=
  if d.n < 2 then []
  else if d.ring then [((d.r + d.n - 1) % d.n, 0), ((d.r + 1) % d.n, 1)]
  else (if d.r = 0 then (List.range (d.n - 1)).map fun k => (k + 1, 0) else [])
    ++ (if d.r + 1 = d.n then (List.range (d.n - 1)).map fun k => (k, 1) else [])

/-- Pieces of its own chunk that a member must get in a reduce phase: way and first element. -/
def CDim.awaits (d : CDim) (per : Nat) : List Nat :=
  let of (dir : Nat) : List Nat := (cuts per (d.way d.r dir).1 (d.way d.r dir).2).map fun c => dir * 2 ^ 48 + c.1
  if d.n < 2 then [] else if d.ring then of 0 ++ of 1
  else (if d.r = 0 then [] else of 0) ++ (if d.r + 1 = d.n then [] else of 1)

/-- Ways on which a member begins to send its own data in a gather phase. -/
def CDim.gatherBegins (d : CDim) : List Nat :=
  if d.n < 2 then [] else if d.ring then [0, 1] else (if d.r + 1 < d.n then [0] else []) ++ (if 0 < d.r then [1] else [])

/-- Does a member pass a chunk on in a gather phase? -/
def CDim.passes (d : CDim) (k dir : Nat) : Bool :=
  if d.ring then (if dir = 0 then (d.r + 1) % d.n ≠ k else (d.r + d.n - 1) % d.n ≠ k)
  else if dir = 0 then d.r + 1 < d.n else 0 < d.r

/-- The key of a piece of a gather phase. -/
def gatherKey (k dir a : Nat) : Nat := (k * 2 + dir) * 2 ^ 48 + a

/-- Pieces that a member must get in a gather phase. -/
def CDim.gatherAwaits (d : CDim) (per : Nat) : List Nat :=
  if d.n < 2 then [] else
  (List.range d.n).flatMap fun k =>
    if k = d.r then [] else
    (if d.ring then [0, 1] else if k < d.r then [0] else [1]).flatMap fun dir =>
      (cuts per (d.way k dir).1 (d.way k dir).2).map fun c => gatherKey k dir c.1

/-! ## Arithmetic (R396, R397) -/

/-- The value of a code of FMT as FP32, and back: partials are representable, so both are exact. -/
def collWide (u c : Nat) : Nat := match Fmt.ofCode (cuFmt u) with | some f => widen f .strict c | none => c
def codeOf (u v : Nat) : Rounded := match Fmt.ofCode (cuFmt u) with | some f => convert f .strict none v | none => roundTo .fp32 .strict (f32 v)

/-- add of R396 on FP32 codes, `none` being an absent value. -/
def collAdd (u : Nat) (a b : Option Nat) : Option Nat :=
  match a, b with
  | none, y => y
  | x, none => x
  | some x, some y =>
    if cuMax u then some (round32 .strict (maximum (f32 x) (f32 y)))
    else if cuWire u then some (collWide u (codeOf u (add32 .strict x y)).code)
    else some (add32 .strict x y)

/-- A value on the wire (R391 WIRE). -/
def toWire (u : Nat) (v : Option Nat) : Option Nat := v.map fun x => if cuWire u then (codeOf u x).code else x
def fromWire (u : Nat) (v : Option Nat) : Option Nat := v.map fun x => if cuWire u then collWide u x else x

/-- The value of an element after a reduce phase at its owner (R396). -/
def ReducePart.value (rp : ReducePart) (u : Nat) (d : CDim) (own : Nat → Option Nat) (e : Nat) : Option Nat :=
  if d.ring then (find e rp.near).getD none
  else collAdd u (if d.r = 0 then own e else (find e rp.near).getD none) (if d.r + 1 = d.n then none else (find e rp.far).getD none)

/-- The contributions behind it. -/
def ReducePart.count (rp : ReducePart) (d : CDim) (own : Nat) : Nat :=
  if d.ring then rp.nearCount else (if d.r = 0 then own else rp.nearCount) + (if d.r + 1 = d.n then 0 else rp.farCount)

/-- A result of the X phase. -/
def Coll.xValue (k : Coll) (d : CDim) (e : Nat) : Option Nat := k.x.value k.unit0 d (fun i => k.own.getD i none) e
def Coll.xCount (k : Coll) (d : CDim) : Nat := k.x.count d (if k.proxy then 0 else 1)
/-- A result of the Y phase. -/
def Coll.yValue (k : Coll) (dx dy : CDim) (e : Nat) : Option Nat := k.y.value k.unit0 dy (k.xValue dx) e
def Coll.yCount (k : Coll) (dx dy : CDim) : Nat := k.y.count dy (k.xCount dx)

/-- The sum of squares of FP32 codes as an fma32 chain from +0 (R402). -/
def squares (vs : List Nat) : Nat := vs.foldl (fun a v => fma32 .strict v v a) 0

/-- The finish of one element (R397). -/
def finishElem (u p : Nat) (v : Option Nat) : Rounded :=
  let a := v.getD (if cuMax u then 0xFF800000 else 0)
  let b := if cuMean u then div32 a (round32 .strict (FVal.ofInt p)) else a
  codeOf u (mul32 .strict b (cuScale u))

/-! ## A CLE's collectives -/

/-- The collective of a tag at a half, if it is known. -/
def Ctx.coll? (c : Ctx) (tag : Nat) : Option Coll := c.colls.find? (·.tag = tag)

/-- Replace or add a collective. -/
def Ctx.setColl (c : Ctx) (k : Coll) : Ctx :=
  { c with colls := if c.colls.any (·.tag = k.tag) then updateFirst (·.tag = k.tag) (fun _ => k) c.colls else c.colls ++ [k] }

def State.setColl (s : State) (h : Half) (ctx : Nat) (k : Coll) : State :=
  s.modHalf h fun x => x.modCtx ctx fun c => c.setColl k

/-- Does the CLE act for the collective, as a member or as a proxy? -/
def Coll.active (k : Coll) : Bool := (k.cmd.isSome || k.proxy) && !k.finished

/-- The record of a member whose command ended early. -/
def Coll.isOver (k : Coll) : Bool := k.finished && !k.proxy

def Coll.dims (k : Coll) (x : HalfState) (h : Half) : CDim × CDim :=
  (x.dimX h k.unit0 k.ringX, x.dimY h k.unit0 k.ringY)

/-- A data frame (R379). Bits of ARG that R379 leaves open carry the chunk and the way. -/
def collFrame (k : Coll) (ctx phase chunk dir addr : Nat) (elems : List (Option Nat)) (present : Nat)
    (stats : List (Nat × Option Nat × Nat)) : Frame :=
  { type := 0x6, ctx := ctx, gen := k.gen, addr := addr, elems := elems, present := present, stats := stats
    arg := place k.tag 0 32 + place phase 32 4 + place chunk 37 6 + place dir 43 1 }

/-- Progress in a half of the command behind a collective (R437). -/
def State.progress (s : State) (h : Half) (id : Option Nat) : State :=
  match id.bind s.cmd? with
  | some (g, c) => s.setCmd g (c.progress g h)
  | none => s

/-- Neighbours of a member in its rings or lines, by port (R398). -/
def Coll.neighbours (dx dy : CDim) : List Nat :=
  let of (d : CDim) : List Nat :=
    if d.n < 2 then [] else if d.ring then (if d.n = 2 then [d.plus] else [d.plus, d.minus])
    else (if d.r + 1 < d.n then [d.plus] else []) ++ (if 0 < d.r then [d.minus] else [])
  of dx ++ of dy

/-- Descriptor frames to each neighbour: unit 0, and the opcode behind it (R398). -/
def State.sendDescriptors (s : State) (h : Half) (ctx : Nat) (k : Coll) : State :=
  let d := k.dims (s.half h) h
  let body := bytesOf 64 k.unit0 ++ bytesOf 2 k.opcode
  (Coll.neighbours d.1 d.2).foldl (fun t p => t.sendPort h p k.cmd
    (dataFrame 0x6 0 ctx k.gen 0 (place k.tag 0 32 + 2 ^ 36) body)) s

/-- Begin a reduce phase: initial partials go out (R396). -/
def State.beginReduce (s : State) (h : Half) (ctx : Nat) (k : Coll) (phase : Nat) (d : CDim) (own : Nat → Option Nat) (n : Nat) : State :=
  d.begins.foldl (fun t c =>
    (cuts (reducePer k.unit0) (d.way c.1 c.2).1 (d.way c.1 c.2).2).foldl (fun w z =>
      w.sendPort h (d.port c.2) k.cmd (collFrame k ctx phase c.1 c.2 z.1
        ((List.range z.2).map fun i => toWire k.unit0 (own (z.1 + i))) n [])) t) s

/-- Begin a gather phase: the member's own chunk goes out. -/
def State.beginGather (s : State) (h : Half) (ctx : Nat) (k : Coll) (phase : Nat) (d : CDim) : State :=
  d.gatherBegins.foldl (fun t dir =>
    (cuts (gatherPer k.unit0) (d.way d.r dir).1 (d.way d.r dir).2).foldl (fun w z =>
      w.sendPort h (d.port dir) k.cmd (collFrame k ctx phase d.r dir z.1
        ((List.range z.2).map fun i => some (k.fin.at (z.1 + i))) k.present k.stats)) t) s

/-! ## Completion of a member -/

/-- Members of the group in both planes where they take part. -/
def cuMembers (u : Nat) : Nat := cuW u * cuH u * (if cuCross u then 2 else 1)

/-- The statistics record (R402): OWN_SQ values in rank order, then block values of the owners, each block once. -/
def statsRecord (u : Nat) (own : Option Nat) (present : Nat) (stats other : List (Nat × Option Nat × Nat)) : List Nat :=
  let chain (vs : List Nat) : Nat := match vs with | [] => 0 | v :: rest => rest.foldl (add32 .strict) v
  let ranks := List.range (cuW u * cuH u)
  let sq (l : List (Nat × Option Nat × Nat)) : List Nat := ranks.filterMap fun r => (l.find? (·.1 = r)).bind (·.2.1)
  let blocks := ranks.filterMap fun r => (stats.find? (·.1 = r)).map (·.2.2)
  bytesOf 64 (place (own.getD 0x7FC00000) 0 32 + place (chain (sq stats ++ sq other)) 32 32 + place (chain blocks) 64 32
    + place present 96 16 + place (cuTag u) 128 32)

/-- What a member or a proxy writes: its DST, and the statistics. -/
def Coll.writes (k : Coll) (x : HalfState) (h : Half) (stats other : List (Nat × Option Nat × Nat)) : List (Nat × List Nat) :=
  let u := k.unit0
  let b := if k.opcode = 0x0901 then x.block h u else (0, cuCount u)
  (cuDst u, ((List.range (b.2 - b.1)).flatMap fun i => bytesOf (cuBytes u) (k.fin.at (b.1 + i)))) ::
    (if cuStats u then [(cuStatsCxa u, statsRecord u (if k.proxy then none else k.ownSq) k.present stats other)] else [])

/-- The result of a member (R401). -/
def collResult (k : Coll) (folded : Bool) : Result :=
  let absent := cuMembers k.unit0 - k.present
  { okResult absent (if folded then 2 else 0) k.overs with
    status := if absent ≠ 0 then stPartial else if folded then stLateFolded else stOk }

/-- The result of a late command (R401). -/
def lateResult (u absent overs : Nat) (ran : Bool) : Result :=
  { okResult absent (1 + (if cuFold u then 0 else 4) + (if ran then 0 else 8)) overs with status := stPartial }

/-- The other half's part of a collective with CROSS. -/
def State.partner (s : State) (h : Half) (ctx : Nat) (k : Coll) : Option Coll :=
  if cuCross k.unit0 then ((s.half h.other).ctx ctx).coll? k.tag else none

/-- Scalars of the statistics in the order of ranks, the Q half's first (R394, R402). -/
def statsPair (h : Half) (k : Coll) (other : Option Coll) : List (Nat × Option Nat × Nat) × List (Nat × Option Nat × Nat) :=
  let o := match other with | some x => x.stats | none => []
  if h = .q then (k.stats, o) else if cuCross k.unit0 then (o, k.stats) else (k.stats, [])

/-- A late command and the proxies of its tag have all finished: it completes, and the records go (R399, R401). -/
def State.endLate (s : State) (id ctx tag : Nat) : State :=
  match s.cmd? id with
  | none => s
  | some (h, c) =>
    let halves := cuHalves (pl c.packet 0 512)
    let ks := halves.filterMap fun g => ((s.half g).ctx ctx).coll? tag
    if ks.any fun k => k.proxy && !k.finished then s else
    let absent := match ks.head? with | some k => cuMembers k.unit0 - k.present | none => 0
    let overs := match ks.head? with | some k => k.overs | none => 0
    let s1 := halves.foldl (fun t g => t.modHalf g fun x => x.modCtx ctx fun q => { q with colls := q.colls.filter (·.tag ≠ tag) }) s
    s1.finish h c (lateResult (pl c.packet 0 512) absent overs true)

/-- Every part of a collective is done: a member's command writes and finishes; a proxy writes through the descriptor it received
(R397, R399). -/
def State.concludeColl (s : State) (h : Half) (ctx : Nat) (k : Coll) : State :=
  let other := s.partner h ctx k
  let sp := statsPair h k other
  match k.cmd with
  | some id =>
    (match s.cmd? id with
    | some (g, c) =>
      if c.done.isSome then s else
      let parts := (h, k) :: (match other with | some o => [(h.other, o)] | none => [])
      let e := s.envCmd g c
      let r := parts.foldl (fun (r : Run) (p : Half × Coll) =>
        (p.2.writes (s.half p.1) p.1 sp.1 sp.2).foldl (fun (q : Run) w => q.store { e with part := p.1 } w.1 w.2) r) ({ mem := s.view } : Run)
      let s1 := s.applyRun g c e r fun _ => collResult k (parts.any fun p => p.2.folded)
      parts.foldl (fun t p => t.modHalf p.1 fun x => x.modCtx ctx fun q => { q with colls := q.colls.filter (·.tag ≠ k.tag) }) s1
    | none => s)
  | none =>
    let e := s.envOf h ctx
    let r := ((k.writes (s.half h) h sp.1 sp.2).foldl (fun (q : Run) w => q.store e w.1 w.2) ({ mem := s.view } : Run)).settle
    -- frames of a proxy belong to the late command, if it waits already
    let owner : Cmd := { id := k.late.getD 0, ring := .mgmt, packet := 0, ctx := some ctx, gen := k.gen }
    let s0 := ((((s.commit r.mem).countTraffic r.rd r.wr).crossRun none r).sendPuts e owner (mergePuts r.puts)).1
    let s1 := (r.seals.foldl (fun t d => t.sealFault d (some ctx)) s0).setColl h ctx { k with finished := true }
    match k.late with
    | some id => s1.endLate id ctx k.tag
    | none => s1

/-! ## The phases -/

/-- One step of a collective in a half, if its stage is complete. -/
def State.stepColl (s : State) (h : Half) (ctx tag : Nat) : State :=
  let x := s.half h
  match (x.ctx ctx).coll? tag with
  | none => s
  | some k =>
    if !k.active then s else
    let u := k.unit0
    let d := k.dims x h
    let dx := d.1
    let dy := d.2
    let have' (need got : List Nat) : Bool := need.all got.contains
    if k.stage = 0 then
      if !have' (dx.awaits (reducePer u)) k.x.got then s else
      let k1 := { k with stage := 1 }
      (s.setColl h ctx k1).beginReduce h ctx k1 1 dy (k.xValue dx) (k.xCount dx)
    else if k.stage = 1 then
      if have' (dy.awaits (reducePer u)) k.y.got then s.setColl h ctx { k with stage := 2 } else s
    else if k.stage = 2 then
      let other := s.partner h ctx k
      let ready : Bool := !cuCross u || (match other with | some o => 2 ≤ o.stage && o.active || 2 < o.stage | none => false)
      if !ready then s else
      let mine (g : Half) (j : Coll) : (Nat → Option Nat) × Nat :=
        let e := j.dims (s.half g) g
        (j.yValue e.1 e.2, j.yCount e.1 e.2)
      let a := mine h k
      let b := match other with | some o => mine h.other o | none => (fun _ => none, 0)
      let block := dy.chunk dy.r
      let es := (List.range (block.2 - block.1)).map (block.1 + ·)
      let value (e : Nat) : Option Nat := if h = .q then collAdd u (a.1 e) (b.1 e) else if cuCross u then collAdd u (b.1 e) (a.1 e) else a.1 e
      let p := a.2 + b.2
      let outs := es.map fun e => (e, finishElem u p (value e))
      let sq := squares (es.filterMap value)
      let k1 := { k with
        fin := outs.foldl (fun t o => t.set o.1 o.2.code) k.fin, present := p
        overs := (outs.filter fun o => o.2.overflow).length, stats := [(dy.r * dx.n + dx.r, k.ownSq, sq)]
        stage := if k.opcode = 0x0901 then 5 else 3 }
      let s0 := if cuCross u then
          s.crossFor ((k.cmd.bind s.cmd?).map fun c => attrKey c.2.packet) h .coll
            (es.length * (if cuWire u then fmtBytes (cuFmt u) else 4))
        else s
      let s1 := s0.setColl h ctx k1
      if k1.stage = 3 then s1.beginGather h ctx k1 2 dy else s1
    else if k.stage = 3 then
      if !have' (dy.gatherAwaits (gatherPer u)) k.gotY then s else
      let k1 := { k with stage := 4 }
      (s.setColl h ctx k1).beginGather h ctx k1 3 dx
    else if k.stage = 4 then
      if have' (dx.gatherAwaits (gatherPer u)) k.gotX then s.setColl h ctx { k with stage := 5 } else s
    else
      let together : Bool := !cuCross u || (match s.partner h ctx k with | some o => o.stage = 5 | none => false)
      let heard := (Coll.neighbours dx dy).length ≤ k.descs.length
      if together && heard then s.concludeColl h ctx k else s

/-- Take every step that has become possible, in both halves: a collective has five stages in each. -/
def State.runColl (s : State) (ctx tag : Nat) : State :=
  (List.range 7).foldl (fun t _ => (t.stepColl .q ctx tag).stepColl .k ctx tag) s

/-- A member or a proxy starts: descriptor frames, then the first data (R398). -/
def State.startColl (s : State) (h : Half) (ctx : Nat) (k : Coll) : State :=
  let d := k.dims (s.half h) h
  let s1 := (s.setColl h ctx k).sendDescriptors h ctx k
  if k.opcode = 0x0902 then s1.beginGather h ctx k 2 d.2
  else s1.beginReduce h ctx k 0 d.1 (fun i => k.own.getD i none) (if k.proxy then 0 else 1)

def srcMismatch : Nat := 0x049

/-- Does a descriptor of a neighbour disagree with a member's (R398)? -/
def Coll.disagrees (k : Coll) (x : Nat × Nat × Nat) : Bool := withoutAddresses x.1 ≠ withoutAddresses k.unit0 || x.2.1 ≠ k.opcode

/-- A member that met a descriptor which disagrees ends (R398). -/
def State.mismatch (s : State) (h : Half) (k : Coll) : State :=
  match k.cmd.bind s.cmd? with
  | some (g, c) =>
    if c.done.isSome || !(k.descs.any k.disagrees) then s
    else (s.occur h srcMismatch c.ctx).finish g c (engineResult h srcMismatch)
  | none => s

/-! ## Commands -/

/-- Admitted collectives that a CLE serves (R390). -/
def State.cleLoad (s : State) (h : Half) : Nat := (s.allCmds.filter fun c => isCollectiveOn h c.2).length

/-- Checks of R391 to R393 that rest on the packet alone. -/
def collHead (gather scatter : Bool) (e : HeadEnv) (p : Nat) : List Check :=
  let u := pl p 0 512
  let dl := cuDeadline u ≠ 0
  let aligns (b : Nat) : List Check :=
    [(512 + b, pl p b 48 % 256 ≠ 0), (512 + b + 64, pl p (b + 64) 48 % 256 ≠ 0), (512 + b + 384, pl p (b + 384) 48 % 64 ≠ 0),
     (512 + b + 448, pl p (b + 448) 48 % 64 ≠ 0)]
  let zero (b : Nat) : List Check :=
    [(512 + b + 384, (pl p (b + 384) 48 = 0) = dl), (512 + b + 448, !cuStats u && pl p (b + 448) 48 ≠ 0)]
  aligns 0 ++ zero 0 ++
  checks [(112, cuCross u && pkUnits p < 2), (512 + 192, if gather then (Fmt.ofCode (cuFmt u)).isNone else cuFmt u > 2),
    (512 + 195, bits u 195 2 ≥ 2 || (gather && bits u 195 2 ≠ 0)), (512 + 197, gather && cuWire u),
    (512 + 198, (cuCross u && bits u 198 1 = 1) || (!cuCross u && outside e (Half.ofPart (bits u 198 1)))),
    (512 + 199, cuCross u && (outside e .q || outside e .k)), (512 + 201, cuStats u && (gather || scatter || cuMax u)),
    (512 + 202, cuMean u && (gather || cuMax u)), (512 + 208, bits u 208 8 > 63), (512 + 216, bits u 216 8 > 63),
    (512 + 224, cuW u = 0 || cuW u > 64), (512 + 232, cuH u = 0 || cuH u > 64), (512 + 256, gather && dl),
    (512 + 352, !finite32 (cuScale u) || (f32 (cuScale u)).isZero || ((gather || cuMax u) && cuScale u ≠ 0x3F800000)),
    (512 + 384, gather && cuLedger u ≠ 0)]
  ++ reservedPl p [(48, 16), (112, 16), (176, 16), (203, 5), (240, 16), (432, 16), (496, 16)]
  ++ (if cuCross u then aligns 512 ++ zero 512 ++ reservedPl p [(560, 16), (624, 272), (944, 16), (1008, 16)]
      else reservedPl p [(512, 512 * (pkUnits p - 1))])

/-- Bytes that a member's CLE sends in one dimension, reduce or gather (R403, R404). -/
def CDim.sends (d : CDim) (gather : Bool) (size : Nat) : Nat :=
  let len (k dir : Nat) : Nat := (d.way k dir).2 - (d.way k dir).1
  if d.n < 2 then 0
  else if gather then
    total ([0, 1].flatMap fun dir => (List.range d.n).map fun k =>
      let reaches := d.ring || (if dir = 0 then k ≤ d.r else d.r ≤ k)
      if reaches && d.passes k dir then len k dir * size else 0)
  else if d.ring then total ([0, 1].flatMap fun dir => (List.range d.n).map fun k => if k = d.r then 0 else len k dir * size)
  else total ((List.range d.n).map fun k => if k = d.r then 0 else len k 0 * size)

/-- The class-12 work of a collective in a half (R404). -/
def HalfState.collWork (x : HalfState) (h : Half) (op u : Nat) : Nat :=
  let rg := x.ringPhases h u
  let dx := x.dimX h u rg.1
  let dy := x.dimY h u rg.2
  let wb := if cuWire u then cuBytes u else 4
  let b := dy.chunk dy.r
  (if op = 0x0902 then 0 else dx.sends false wb + dy.sends false wb + (if cuCross u then (b.2 - b.1) * wb else 0))
    + (if op = 0x0901 then 0 else dy.sends true (cuBytes u) + dx.sends true (cuBytes u))

/-- The arrays of a collective in a half: field, address, bytes; SRC, DST, ledger, statistics. -/
def HalfState.collArrays (x : HalfState) (h : Half) (op u base : Nat) : List (Nat × Nat × Nat) :=
  let b := x.block h u
  let whole := cuCount u * cuBytes u
  let part := (b.2 - b.1) * cuBytes u
  [(base, cuSrc u, if op = 0x0902 then part else whole), (base + 64, cuDst u, if op = 0x0901 then part else whole)]
    ++ (if cuDeadline u = 0 then [] else [(base + 384, cuLedger u, 64 + 4 * cuCount u)])
    ++ (if cuStats u then [(base + 448, cuStatsCxa u, 64)] else [])

/-- Is a ledger header VALID with another ELEMS, or VALID (R400)? -/
def ledgerValid (v : Nat) : Bool := bitSet v 0

/-- Examination of a collective (R393, R400, R404). -/
def examColl (op : Nat) (s : State) (h : Half) (p : Nat) (x0 : Exm) : Exm :=
  let one (x : Exm) (g : Half) : Exm :=
    let u := unitFor p g
    let y := s.half g
    let base := 512 + if cuCross u && g = .k then 512 else 0
    let dx := y.dimX g u false
    let dy := y.dimY g u false
    let x1 := (((x.badWhen (cuW u > y.extX g) (512 + 224)).badWhen (cuH u > y.extY g) (512 + 232)).badWhen
      (dx.r ≥ cuW u) (512 + 208)).badWhen (dy.r ≥ cuH u) (512 + 216)
    let arrays := y.collArrays g op u base
    let same := op = 0x0903 && cuSrc u = cuDst u
    let clash := overlapChecks (if same then arrays.drop 1 else arrays)
    let x2 := clash.foldl (fun z c => z.badWhen c.2 c.1) x1
    let x3 := arrays.foldl (fun z a => z.range a.1 a.2.1 a.2.2 (a.1 ≠ base)) x2
    let onTime := s.now h < cuDeadline u
    let ledger : Nat × Exm :=
      if cuFold u && cuDeadline u ≠ 0 && onTime then x3.record (base + 384) (cuLedger u) 64 else (0, x3)
    let x4 := ledger.2.badWhen (ledgerValid ledger.1 && bits ledger.1 64 48 ≠ cuCount u) (base + 384) (1 + 64)
    let work := match pkClass p with
      | 12 => y.collWork g op u
      | 14 => (arrays.getD 0 (0, 0, 0)).2.2 + (if ledgerValid ledger.1 then 64 + 4 * cuCount u else 0)
      | 15 => (arrays.getD 1 (0, 0, 0)).2.2 + (if cuStats u then 64 else 0) + (if ledgerValid ledger.1 then 64 else 0)
      | _ => if g = h || !cuCross u then 1 else 0
    { x4 with empty := cuCount u = 0 }.work h g work
  (cuHalves (pl p 0 512)).foldl one x0

/-- What the three collectives supply to the pipeline. -/
def specCollective (op : Nat) : OpSpec where
  ring := .c
  lo := 1
  hi := 2
  classes := [0, 12, 14, 15]
  head e p := collHead (op = 0x0902) (op = 0x0901) e p
  busy s _ p := (cuHalves (pl p 0 512)).any fun g => s.cleLoad g ≥ 4
  domains _ _ p := (cuHalves (pl p 0 512)).map fun g => 17 * g.part + 13
  exam := examColl op
  mirrored s h p := ((cuHalves (pl p 0 512)).any fun g => g ≠ h) && s.together h

def specReduceScatter : OpSpec := specCollective 0x0901
def specAllGather : OpSpec := specCollective 0x0902
def specAllReduce : OpSpec := specCollective 0x0903

/-- Load elements as codes of FMT. -/
def loadCodes (e : Env) (u cxa n : Nat) (r : Run) : List Nat × Run :=
  let x := r.load e cxa (n * cuBytes u)
  ((chunks (cuBytes u) x.1).map numOf, x.2)

/-- The contribution of a member in one half, with a VALID ledger folded in and its header cleared (R400). -/
def collContribution (e : Env) (op : Nat) (x : HalfState) (h : Half) (u : Nat) (r : Run) : List Nat × Bool × Run :=
  let b := x.block h u
  if op = 0x0902 then let v := loadCodes e u (cuSrc u) (b.2 - b.1) r; (v.1, false, v.2) else
  let v := loadCodes e u (cuSrc u) (cuCount u) r
  let src := v.1.map (collWide u)
  if !cuFold u || cuDeadline u = 0 then (src, false, v.2) else
  let hd := v.2.loadNum e (cuLedger u) 64
  if !ledgerValid hd.1 then (src, false, hd.2) else
  let l := hd.2.load e (cuLedger u + 64) (4 * cuCount u)
  (src.zipWith (add32 .strict) ((chunks 4 l.1).map numOf), true, l.2.store e (cuLedger u) (List.replicate 64 0))

/-- The ledger work of a late command in one half (R400). -/
def ledgerWork (e : Env) (u : Nat) (r : Run) : Run :=
  if !cuFold u then r else
  let v := loadCodes e u (cuSrc u) (cuCount u) r
  let src := v.1.map (collWide u)
  let hd := v.2.loadNum e (cuLedger u) 64
  let l := hd.2.load e (cuLedger u + 64) (4 * cuCount u)
  let sum := if ledgerValid hd.1 then src.zipWith (fun a b => add32 .strict b a) ((chunks 4 l.1).map numOf) else src
  let head := place 1 0 1 + place (bits hd.1 32 32 + 1) 32 32 + place (cuCount u) 64 48
  (l.2.store e (cuLedger u + 64) (sum.flatMap (bytesOf 4))).store e (cuLedger u) (bytesOf 64 head)

/-- A command admitted at or after its deadline is late (R50, R399). -/
def lateCmd (c : Cmd) : Bool := cuDeadline (pl c.packet 0 512) ≠ 0 && cuDeadline (pl c.packet 0 512) ≤ c.admitted

/-- A late command: its ledger work, then it waits for the proxies of its tag; with no proxy there is no result (R399 to R401). -/
def runLate (s : State) (h : Half) (c : Cmd) : State :=
  let p := c.packet
  let u := pl p 0 512
  let e := s.envCmd h c
  let halves := cuHalves u
  let r := halves.foldl (fun (q : Run) g => ledgerWork { e with part := g } (unitFor p g) q) ({ mem := s.view } : Run)
  let settled := r.settle
  if settled.stop.isSome || !settled.need.isEmpty then s.applyRun h c e r fun _ => okResult 0 0 0 else
  let s1 := (s.applyPart h c e r { c with waiting := true, idle := 0, idleOther := 0 })
  let s2 := halves.foldl (fun t g => t.modHalf g fun x => x.count32 g (hubKey bCLE 1) 0 1) s1
  let proxies := halves.filter fun g => match ((s2.half g).ctx (pkCtx p)).coll? (cuTag u) with | some k => k.proxy | none => false
  if proxies.isEmpty then
    { (s2.finish h c (lateResult u (Config.freeWord s2.drawnFree).toNat 0 false)) with drawnFree := s2.drawnFree + 1 }
  else
    let s3 := proxies.foldl (fun t g => t.modHalf g fun x => x.modCtx (pkCtx p) fun q =>
      { q with colls := q.colls.map fun k => if k.tag = cuTag u then { k with late := some c.id } else k }) s2
    s3.endLate c.id (pkCtx p) (cuTag u)

/-- Does a member have a ring or line neighbour that is UNREACHABLE (R388, R398)? -/
def State.memberCut (s : State) (h : Half) (u : Nat) : Bool :=
  let x := s.half h
  (Coll.neighbours (x.dimX h u false) (x.dimY h u false)).any (x.peerGone h ·)

/-- What the halves of a module contribute to a collective: half by half, and the run that read it (R396). -/
def collReads (s : State) (h : Half) (c : Cmd) (op : Nat) : List (Half × List Nat × Bool) × Run :=
  (cuHalves (pl c.packet 0 512)).foldl (fun acc g =>
    let x := collContribution { s.envCmd h c with part := g } op (s.half g) g (unitFor c.packet g) acc.2
    (acc.1 ++ [(g, x.1, x.2.1)], x.2.2)) ([], { mem := s.view })

/-- A half becomes a member with its contribution (R396 to R399). -/
def collBegin (c : Cmd) (op : Nat) (t : State) (y : Half × List Nat × Bool) : State :=
  let ctx := pkCtx c.packet
  let g := y.1
  let u := unitFor c.packet g
  let x := t.half g
  let rings := if g = .q then c.rings.1 else c.rings.2
  let old := (x.ctx ctx).coll? (cuTag u)
  let b := x.block g u
  let k : Coll :=
    { tag := cuTag u, gen := c.gen, opcode := op, unit0 := u, cmd := some c.id, ringX := rings.1, ringY := rings.2
      descs := (match old with | some o => if o.isOver then [] else o.descs | none => []), own := if op = 0x0902 then [] else y.2.1.map some
      ownSq := if cuStats u then some (squares y.2.1) else none, folded := y.2.2
      stage := if op = 0x0902 then 3 else 0, present := if op = 0x0902 then cuMembers u else 0
      fin := if op = 0x0902 then ((List.range (b.2 - b.1)).zip y.2.1).foldl (fun t e => t.set (b.1 + e.1) e.2) [] else [] }
  (t.startColl g ctx k).mismatch g k

/-- A collective starts at its member (R394 to R400). -/
def runCollective (op : Nat) (s : State) (h : Half) (c : Cmd) : State :=
  if lateCmd c then runLate s h c else
  let p := c.packet
  let ctx := pkCtx p
  let halves := cuHalves (pl p 0 512)
  let e := s.envCmd h c
  let got := collReads s h c op
  let settled := got.2.settle
  if settled.stop.isSome || !settled.need.isEmpty then s.applyRun h c e got.2 fun _ => okResult 0 0 0 else
  if halves.any fun g => s.memberCut g (unitFor p g) then
    (s.occur h srcUnreachable c.ctx).finish h c (engineResult h srcUnreachable) else
  let s1 := s.applyPart h c e got.2 { c with waiting := true, idle := 0, idleOther := 0 }
  (got.1.foldl (collBegin c op) s1).runColl ctx (cuTag (pl p 0 512))

def execReduceScatter (id : Nat) (s : State) : Host.Outcome State Fault Refusal :=
  .next (onCommand s id 0x0901 (fun _ => true) (runCollective 0x0901))

def execAllGather (id : Nat) (s : State) : Host.Outcome State Fault Refusal :=
  .next (onCommand s id 0x0902 (fun _ => true) (runCollective 0x0902))

def execAllReduce (id : Nat) (s : State) : Host.Outcome State Fault Refusal :=
  .next (onCommand s id 0x0903 (fun _ => true) (runCollective 0x0903))

/-! ## Frames -/

def cfTag (f : Frame) : Nat := bits f.arg 0 32
def cfPhase (f : Frame) : Nat := bits f.arg 32 4
def cfChunk (f : Frame) : Nat := bits f.arg 37 6
def cfDir (f : Frame) : Nat := bits f.arg 43 1

/-- Put elements into a list by key. -/
def putElems (first : Nat) (vs : List (Option Nat)) (t : List (Nat × Option Nat)) : List (Nat × Option Nat) :=
  ((List.range vs.length).zip vs).foldl (fun u e => put (first + e.1) e.2 u) t

/-- A data frame of a reduce phase (R396): the member's input is added, and the partial is kept or passed on. -/
def State.reduceFrame (s : State) (h : Half) (k : Coll) (f : Frame) (d : CDim) (own : Nat → Option Nat) (n : Nat)
    (rp : ReducePart) (keep : ReducePart → Coll) : State :=
  let u := k.unit0
  let c := cfChunk f
  let dir := cfDir f
  let vs := f.elems.map (fromWire u)
  let last := c = d.r
  let raw := last && !d.ring && dir = 1
  let sum := if raw then vs else ((List.range vs.length).zip vs).map fun e => collAdd u e.2 (own (f.addr + e.1))
  let count := f.present + if raw then 0 else n
  if last then
    let key := dir * 2 ^ 48 + f.addr
    s.setColl h f.ctx (keep (if raw then
      { rp with far := putElems f.addr sum rp.far, farCount := count, got := rp.got ++ [key] }
    else { rp with near := putElems f.addr sum rp.near, nearCount := count, got := rp.got ++ [key] }))
  else
    s.sendPort h (d.port dir) k.cmd (collFrame k f.ctx (cfPhase f) c dir f.addr (sum.map (toWire u)) count [])

/-- A data frame of a gather phase: bits are copied, and passed on. -/
def State.gatherFrame (s : State) (h : Half) (k : Coll) (f : Frame) (d : CDim) (inY : Bool) : State :=
  let key := gatherKey (cfChunk f) (cfDir f) f.addr
  let fin := ((List.range f.elems.length).zip f.elems).foldl (fun t e => t.set (f.addr + e.1) (e.2.getD 0)) k.fin
  let stats := k.stats ++ f.stats.filter fun x => !(k.stats.any (·.1 = x.1))
  let k1 : Coll := { k with fin := fin, stats := stats, gotY := if inY then k.gotY ++ [key] else k.gotY, gotX := if inY then k.gotX else k.gotX ++ [key] }
  let s1 := s.setColl h f.ctx k1
  if d.passes (cfChunk f) (cfDir f) then s1.sendPort h (d.port (cfDir f)) k.cmd { f with seq := 0, vc := 0 } else s1

/-- Can a data frame be taken: its tag has a member or a proxy here (or a member that ended early, which discards it), and the phase's
input is there (R399)? Until then it waits on the tag's own credit. -/
def State.collReady (s : State) (h : Half) (f : Frame) : Bool :=
  match ((s.half h).ctx f.ctx).coll? (cfTag f) with
  | some k => k.isOver || (k.active && (cfPhase f ≠ 1 || 1 ≤ k.stage))
  | none => false

/-- A payload of a collective whose seal failed is not used, and what read it ends (R352): the member's command; at a proxy the late
command if it waits, and the proxy's part is over. -/
def State.spoilColl (s : State) (h : Half) (ctx : Nat) (k : Coll) : State :=
  match (k.cmd.or k.late).bind s.cmd? with
  | some (g, c) =>
    let s1 := if c.done.isSome then s else s.endSeal g c
    if k.proxy then s1.setColl h ctx { k with finished := true, proxy := false, late := none } else s1
  | none => if k.proxy then s.setColl h ctx { k with finished := true, proxy := false } else s

def takeData (h : Half) (s : State) (f : Frame) : Answer :=
  match ((s.half h).ctx f.ctx).coll? (cfTag f) with
  | none => .done s
  | some k =>
    if k.isOver then .done s else
    if !Frame.intact f then .done (s.spoilColl h f.ctx k) else
    let d := k.dims (s.half h) h
    let s1 := s.progress h k.cmd
    let s2 :=
      if cfPhase f = 0 then s1.reduceFrame h k f d.1 (fun i => k.own.getD i none) (if k.proxy then 0 else 1) k.x fun r => { k with x := r }
      else if cfPhase f = 1 then s1.reduceFrame h k f d.2 (k.xValue d.1) (k.xCount d.1) k.y fun r => { k with y := r }
      else if cfPhase f = 2 then s1.gatherFrame h k f d.2 true
      else s1.gatherFrame h k f d.1 false
    .done (s2.runColl f.ctx (cfTag f))

/-- COLLECTIVE_FRAME (R396, R399). -/
def execCollectiveFrame (h : Half) (port : Nat) (f : Frame) (s : State) : Host.Outcome State Fault Refusal :=
  .next (if bitSet f.arg 36 then s
    else if (s.half h).arrival h f = .take && !s.collReady h f then s
    else s.receive h port f 0x6 (takeData h))

/-- A descriptor frame: kept for a command that comes, or compared with the member's own payload (R398, R399). One whose seal failed is
not used; where no command or proxy reads it, its sender is told (R352). -/
def takeDescriptor (h : Half) (s : State) (f : Frame) : Answer :=
  if !Frame.intact f then
    (match ((s.half h).ctx f.ctx).coll? (cfTag f) with
    | some k => if k.active then .done (s.spoilColl h f.ctx k) else .refuse s rsSeal
    | none => .refuse s rsSeal)
  else
  let u := numOf (f.data.take 64)
  let op := numOf ((f.data.drop 64).take 2)
  match ((s.half h).ctx f.ctx).coll? (cfTag f) with
  | none => .done (s.setColl h f.ctx { tag := cfTag f, gen := f.gen, opcode := op, unit0 := u, descs := [(u, op, f.src)] })
  | some k =>
    if k.isOver then .done (s.setColl h f.ctx { tag := cfTag f, gen := f.gen, opcode := op, unit0 := u, descs := [(u, op, f.src)] }) else
    let k1 := { k with descs := k.descs ++ [(u, op, f.src)] }
    .done (((s.setColl h f.ctx k1).mismatch h k1).runColl f.ctx (cfTag f))

def execCollectiveDescriptorFrame (h : Half) (port : Nat) (f : Frame) (s : State) : Host.Outcome State Fault Refusal :=
  .next (if bitSet f.arg 36 then s.receive h port f 0x6 (takeDescriptor h) else s)

/-! ## Deadlines (R399) -/

/-- Has a command of a tag been admitted in the context, and not late? -/
def State.collAdmitted (s : State) (h : Half) (ctx tag : Nat) : Bool :=
  s.allCmds.any fun c => isCollectiveOn h c.2 && c.2.ctx = some ctx && cuTag (pl c.2.packet 0 512) = tag && c.2.done.isNone && !lateCmd c.2

/-- The proxy record that goes when a further one is needed: with sixteen, the oldest (R399). -/
def Ctx.evicted (c : Ctx) : Option Coll := if (c.colls.filter (·.proxy)).length < 16 then none else c.colls.find? (·.proxy)

def Ctx.evict (c : Ctx) : Ctx :=
  match c.evicted with
  | some k => { c with colls := c.colls.filter (·.tag ≠ k.tag) }
  | none => c

/-- A late command that waits for the record that goes completes with NO_RESULT (R399, R401). -/
def State.endEvicted (s : State) (h : Half) (ctx : Nat) : State :=
  match ((s.half h).ctx ctx).evicted.bind (·.late) with
  | none => s
  | some id =>
    match s.cmd? id with
    | some (g, c) =>
      { s.finish g c (lateResult (pl c.packet 0 512) (Config.freeWord s.drawnFree).toNat 0 false) with drawnFree := s.drawnFree + 1 }
    | none => s

/-- COLLECTIVE_DEADLINE: the CLE becomes proxy for a member that has not been admitted; it contributes nothing in the X phase and
does everything else (R399). -/
def execCollectiveDeadline (h : Half) (tag : Nat) (s : State) : Host.Outcome State Fault Refusal :=
  let x := s.half h
  .next (match x.resident with
    | none => s
    | some ctx =>
      match (x.ctx ctx).coll? tag with
      | none => s
      | some k =>
        if k.cmd.isSome || k.proxy || k.isOver || cuDeadline k.unit0 = 0 || x.count < cuDeadline k.unit0 || x.resetting
          || s.collAdmitted h ctx tag then s else
        let rings := x.ringPhases h k.unit0
        let k1 : Coll :=
          { k with proxy := true, ringX := rings.1, ringY := rings.2, own := List.replicate (cuCount k.unit0) none }
        let s0 := s.endEvicted h ctx
        let s1 := s0.modHalf h fun y => (y.modCtx ctx Ctx.evict).count32 h (hubKey bCLE 1) 32 1
        (s1.startColl h ctx k1).runColl ctx tag)

end Sys2Proof.Machine
end

