-- ==== Sys2Proof/Machine/Graph.lean ====
section
/-! DEFINITION. The wait-for graph of a context (R439 to R442): the commands it covers, its edges, the search for a cycle, the order in
which edges are returned; and HANG_REPORT in its two modes (R440, R444). -/

namespace Sys2Proof.Machine

/-! ## Nodes and edges (R439, R441) -/

/-- Reasons of an edge (R439). -/
def eWait : Nat := 0
def eTileWait : Nat := 1
def eSignaller : Nat := 2
def eBusy : Nat := 3
def eOrdered : Nat := 4
def eRingOrder : Nat := 5
def ePeer : Nat := 6
def eHost : Nat := 7

/-- The node of a command: home half, ring, and the slot index of its header (R441). -/
def nodeCmd (h : Half) (ring slot : Nat) : Nat := place h.part 3 1 + place ring 4 5 + place slot 9 17
/-- The node of a gate. -/
def nodeGate (g : Nat) : Nat := 1 + place (gateHome g).part 3 1 + place g 4 12
/-- The node of a peer on a plane. -/
def nodePeer (plane : Half) (pos : Nat) : Nat := 2 + place plane.part 3 1 + place pos 4 12
/-- The node of the host. -/
def nodeHost : Nat := 3

/-- An edge of the graph, with the SEQ, gate value and threshold that go with it (R441). -/
structure Edge where
  tail : Nat
  head : Nat
  reason : Nat
  seq : Nat
  value : Nat := 0
  threshold : Nat := 0
deriving DecidableEq, Repr

/-- A command that the graph covers: its node, its packet, and whether it is admitted. -/
structure Covered where
  node : Nat
  packet : Nat
  admitted : Option (Half × Cmd) := none
deriving DecidableEq, Repr

/-- The ring number of a reference; management rings hold no command of a context that the graph covers. -/
def ringNum : RingRef → Nat
  | .mgmt => 0
  | .ctx _ n => n

/-- Packets of a ring from a pointer on whose first slot lies in the first 1,024 past CMD_HEAD; `fuel` bounds their number. -/
def State.scanRing (s : State) (h : Half) (r : Ring) : Nat → Nat → List (Nat × Nat)
  | 0, _ => []
  | fuel + 1, ptr =>
    if 1024 ≤ ringGap r.slots r.cmdHead ptr then [] else
    let avail := ringGap r.slots ptr r.cmdTail
    if avail = 0 then [] else
    let n := 1 + pkUnits (numOf (s.readSlots h r ptr 1))
    if avail < n then [] else
      (ptr, numOf (s.readSlots h r ptr n)) :: s.scanRing h r fuel ((ptr + n) % (2 * r.slots))

/-- Unadmitted packets of a ring that the graph covers, in order. -/
def State.waitingPackets (s : State) (h : Half) (r : Ring) : List (Nat × Nat) := s.scanRing h r 1024 r.cmdHead

/-- Does a ring hold unadmitted commands beyond the slots scanned (R441)? -/
def State.scanCut (s : State) (h : Half) (r : Ring) : Bool :=
  match (s.waitingPackets h r).getLast? with
  | none => false
  | some l =>
    let after := (l.1 + 1 + pkUnits l.2) % (2 * r.slots)
    1024 ≤ ringGap r.slots r.cmdHead after && ringGap r.slots after r.cmdTail ≠ 0

/-- Rings of a context in a half. -/
def HalfState.ringsOf (x : HalfState) (ctx : Nat) : List Ring := x.rings.filter (·.ctx = some ctx)

/-- Admitted, uncompleted commands of a context's rings in a half, suspended ones included. -/
def HalfState.commandsOf (x : HalfState) (ctx : Nat) : List Cmd :=
  (x.cmds ++ x.suspended).filter fun c => match c.ring with | .ctx i _ => i = ctx | .mgmt => false

/-- What the graph covers of a half (R439). -/
def State.coveredIn (s : State) (h : Half) (ctx : Nat) : List Covered :=
  ((s.half h).commandsOf ctx).map (fun c => { node := nodeCmd h (ringNum c.ring) c.slot, packet := c.packet, admitted := some (h, c) })
  ++ ((s.half h).ringsOf ctx).flatMap fun r =>
    (s.waitingPackets h r).map fun w => { node := nodeCmd h r.num w.1, packet := w.2 }

/-- Does a command hold a place that a head packet needs and finds taken (R439)? -/
def State.holdsPlace (s : State) (p : Nat) (c : Cmd) : Bool :=
  let q := c.packet
  let shares (f : Nat → List Nat) : Bool := (f p).any (f q).contains
  let full (f : Nat → List Nat) (limit : Nat) : Bool :=
    (f p).any fun k => (f q).contains k && limit ≤ (s.allCmds.filter fun d => (f d.2.packet).contains k).length
  let stream : Bool := pkOpcode p = 0x0801 && pkOpcode q = 0x0801 && wsHalf (wsUp p) = wsHalf (wsUp q)
    && 4 ≤ (s.streams.filter fun d => wsHalf (wsUp d.2.packet) = wsHalf (wsUp p)).length
  let collective : Bool := pkOpcode p / 256 = 0x09
    && (cuHalves (pl p 0 512)).any fun g => isCollectiveOn g c && 4 ≤ s.cleLoad g
  shares tilesOf || shares csesOf || shares upusOf || full moversOf 4 || full emesOf 4 || stream || collective

/-- Signals of a packet, and the gate that a GATE_SET names (R91, R439). -/
def signalled (p : Nat) : List Nat :=
  ((pkSignals p).map (·.1) ++ (if pkOpcode p = 0x0005 then [pl p 32 12] else [])).eraseDups

/-! ### Peers that a command awaits -/

/-- Peers from which a collective at a half awaits frames of its stage, or a descriptor (R396 to R398). -/
def State.collPeers (s : State) (h : Half) (k : Coll) : List Nat :=
  let x := s.half h
  let u := k.unit0
  let d := k.dims x h
  let missing (need got : List Nat) : List Nat := need.filter fun e => !got.contains e
  let from' (c : CDim) (ks : List Nat) : List Nat :=
    [0, 1].flatMap fun dir => if ks.any fun e => e / 2 ^ 48 % 2 = dir then [c.port (1 - dir)] else []
  let data := match k.stage with
    | 0 => from' d.1 (missing (d.1.awaits (reducePer u)) k.x.got)
    | 1 => from' d.2 (missing (d.2.awaits (reducePer u)) k.y.got)
    | 3 => from' d.2 (missing (d.2.gatherAwaits (gatherPer u)) k.gotY)
    | 4 => from' d.1 (missing (d.1.gatherAwaits (gatherPer u)) k.gotX)
    | _ => []
  let silent := (Coll.neighbours d.1 d.2).filter fun p => !(k.descs.any fun e => e.2.2 = x.neighbour h p)
  ((data ++ silent).map fun p => x.neighbour h p).eraseDups.map (nodePeer h)

/-- Owners of rows that a LOOKUP has asked for and not got (R290). -/
def State.rowPeers (s : State) (h : Half) (c : Cmd) : List Nat :=
  match s.table? (pkCtx c.packet) (pl c.packet 0 8) with
  | none => []
  | some t =>
    let p := c.packet
    let a := lkArrays (s.envCmd h c) p t { mem := s.view }
    let plan := (lkShares p).flatMap fun sh => fetchesOf sh.1 (sharePositions (c.recordNum 0) a.1 sh)
    (plan.zip (List.range plan.length)).filterMap fun f =>
      match ownerIn (t.mapAt c.admitted) f.1.row with
      | some e => if e.pos = s.ownPos (pkCtx p) || (find f.2 c.rowsIn).isSome then none else some (nodePeer (halfOfDie e.die) e.pos)
      | none => none

/-- Peers that an admitted command awaits: acknowledgements and data of frames it sent, digests or a verdict, members and data of a
collective, rows, rows of a migration, and the stream of its upstream neighbour (R439). -/
def State.awaitedPeers (s : State) (h : Half) (c : Cmd) : List Nat :=
  let p := c.packet
  let sent (g : Half) : List Nat :=
    ((s.half g).unacked.filter (·.cmd = some c.id)).map fun u => nodePeer u.plane u.frame.dst
  let digest : List Nat :=
    if pkOpcode p = 0x0603 && sdMode p ≠ 0 && c.waiting && c.done.isNone then
      let x := s.half (sdPlane p)
      if c.primaryPos = x.myPos (sdPlane p) then
        let got := (find (sdTag p) (x.ctx (c.ctx.getD 0)).places).getD []
        (c.group.filter fun m => m ≠ c.primaryPos && (find m got).isNone).map (nodePeer (sdPlane p))
      else if c.verdict.isNone then [nodePeer (sdPlane p) c.primaryPos] else []
    else []
  let coll : List Nat := [Half.q, .k].flatMap fun g =>
    ((((s.half g).ctx (c.ctx.getD 0)).colls.filter (·.cmd = some c.id)).flatMap (s.collPeers g))
  let rows : List Nat := if pkOpcode p = 0x0702 && c.asked && c.waiting then s.rowPeers h c else []
  let moves : List Nat := if pkOpcode p ≠ 0x0706 then [] else
    (s.ctxAny h (pkCtx p)).tables.flatMap fun t => t.2.moves.filterMap fun m =>
      if m.cmd = c.id && m.target.pos = s.ownPos (pkCtx p) && m.source.pos ≠ m.target.pos && m.arrived.length < m.count then
        some (nodePeer (halfOfDie m.source.die) m.source.pos) else none
  let stream : List Nat := if pkOpcode p = 0x0801 && wsUp p < 8 && c.stream.isSome && c.done.isNone then
    [nodePeer (wsHalf (wsUp p)) ((s.half (wsHalf (wsUp p))).neighbour (wsHalf (wsUp p)) (wsUp p % 4))] else []
  (sent .q ++ sent .k ++ digest ++ coll ++ rows ++ moves ++ stream).eraseDups

/-- Gates and thresholds at which tiles of a TILE_RUN are stalled (R116). -/
def State.tileStalls (s : State) (h : Half) (c : Cmd) : List (Nat × Nat) :=
  (c.tiles.filterMap fun t =>
    if t.2.ended then none else
    let x := s.tileIn h c t.1
    match x.ahead 3 64 t.2 with
    | .error _ => none
    | .ok t1 => match x.decode t1 with
      | .ok w =>
        if opOpc w = 0x02 && !waitHolds (s.gate (c.ctx.getD 0) (bits w 16 12)) (bits w 32 32)
        then some (bits w 16 12, bits w 32 32) else none
      | .error _ => none).eraseDups

/-! ### All edges -/

/-- Edges that leave an admitted command. -/
def State.edgesAdmitted (s : State) (ctx : Nat) (v : Covered) (h : Half) (c : Cmd) : List Edge :=
  (s.tileStalls h c).map (fun g =>
    { tail := v.node, head := nodeGate g.1, reason := eTileWait, seq := pkSeq v.packet, value := s.gate ctx g.1, threshold := g.2 })
  ++ (s.awaitedPeers h c).map fun n => { tail := v.node, head := n, reason := ePeer, seq := pkSeq v.packet }

/-- Edges that leave the head of a ring. -/
def State.edgesHead (s : State) (ctx : Nat) (covered : List Covered) (h : Half) (r : Ring) (ptr p : Nat) : List Edge :=
  let node := nodeCmd h r.num ptr
  let edge (head reason : Nat) : Edge := { tail := node, head := head, reason := reason, seq := pkSeq p }
  ((pkWaits p).filter fun w => !waitHolds (s.gate ctx w.1) w.2).map
    (fun w => { edge (nodeGate w.1) eWait with value := s.gate ctx w.1, threshold := w.2 })
  ++ (covered.filterMap fun v => match v.admitted with
    | some c => if s.holdsPlace p c.2 then some (edge v.node eBusy) else none
    | none => none)
  ++ (covered.filterMap fun v => match v.admitted with
    | some c => if pkOrdered p && c.1 = h && c.2.ring = r.ref then some (edge v.node eOrdered) else none
    | none => none)
  ++ if (s.half h).fetches r then [] else [edge nodeHost eHost]

/-- RING_ORDER edges: each unadmitted command but the head waits for the one before it. -/
def ringOrderEdges (h : Half) (r : Ring) (ws : List (Nat × Nat)) : List Edge :=
  (ws.zip (ws.drop 1)).map fun w =>
    { tail := nodeCmd h r.num w.2.1, head := nodeCmd h r.num w.1.1, reason := eRingOrder, seq := pkSeq w.2.2 }

/-- The edges of the graph of a context over some halves (R439). Edges to gates of a half that is not covered are left out. -/
def State.edges (s : State) (ctx : Nat) (halves : List Half) : List Edge :=
  let covered := halves.flatMap fun h => s.coveredIn h ctx
  let fromAdmitted := covered.flatMap fun v => match v.admitted with | some c => s.edgesAdmitted ctx v c.1 c.2 | none => []
  let fromRings := halves.flatMap fun h => ((s.half h).ringsOf ctx).flatMap fun r =>
    let ws := s.waitingPackets h r
    (match ws.head? with | some w => s.edgesHead ctx covered h r w.1 w.2 | none => []) ++ ringOrderEdges h r ws
  let fromGates := covered.flatMap fun v => (signalled v.packet).map fun g =>
    { tail := nodeGate g, head := v.node, reason := eSignaller, seq := pkSeq v.packet : Edge }
  let inside (e : Edge) : Bool :=
    let ok (n : Nat) : Bool := n % 8 ≠ 1 || halves.contains (Half.ofPart (n / 8 % 2))
    ok e.tail && ok e.head
  (fromAdmitted ++ fromRings ++ fromGates).filter inside

/-! ## Order and cycle (R442) -/

/-- (FROM, TO, REASON) of an edge as one number that keeps the order. -/
def Edge.key (e : Edge) : Nat := (e.tail * 2 ^ 32 + e.head) * 256 + e.reason

/-- Put an edge into a list in ascending order, after its equals. -/
def insertEdge (e : Edge) : List Edge → List Edge
  | [] => [e]
  | f :: rest => if e.key < f.key then e :: f :: rest else f :: insertEdge e rest

/-- Edges in ascending (FROM, TO, REASON). -/
def sortEdges (es : List Edge) : List Edge := es.foldl (fun l e => insertEdge e l) []

/-- A depth-first search for a cycle: the nodes on the way down, each with the edge that led to it and the edges not yet followed. It
answers the cycle, or the nodes seen. `fuel` bounds the steps, of which each follows an edge or gives up a node. -/
def searchCycle (es : List Edge) : Nat → List (Nat × Option Edge × List Edge) → List Nat → Option (List Edge) × List Nat
  | 0, _, seen => (none, seen)
  | _, [], seen => (none, seen)
  | fuel + 1, (_, _, []) :: up, seen => searchCycle es fuel up seen
  | fuel + 1, (n, via, e :: more) :: up, seen =>
    let path := (n, via, more) :: up
    if path.any (·.1 = e.head) then
      let back := path.takeWhile (·.1 ≠ e.head)
      (some ((back.filterMap (·.2.1)).reverse ++ [e]), seen)
    else if seen.contains e.head then searchCycle es fuel path seen
    else searchCycle es fuel ((e.head, some e, es.filter (·.tail = e.head)) :: path) (e.head :: seen)

/-- Search from each node in ascending order. -/
def cycleFrom (es : List Edge) : List Nat → List Nat → List Edge
  | [], _ => []
  | n :: rest, seen =>
    if seen.contains n then cycleFrom es rest seen else
    match searchCycle es (2 * es.length + 2) [(n, none, es.filter (·.tail = n))] (n :: seen) with
    | (some c, _) => c
    | (none, seen') => cycleFrom es rest seen'

/-- A cycle turned so that it starts with the edge of the smallest FROM. -/
def turnCycle (c : List Edge) : List Edge :=
  match least (c.map (·.tail)) with
  | none => c
  | some m => c.dropWhile (·.tail ≠ m) ++ c.takeWhile (·.tail ≠ m)

/-- The cycle that firmware reports, of edges in ascending order. -/
def findCycle (es : List Edge) : List Edge := turnCycle (cycleFrom es ((es.map (·.tail)).eraseDups) [])

/-- Edges in the order of R442: the cycle, then the rest. -/
def orderedEdges (es : List Edge) : List Edge × List Edge :=
  let sorted := sortEdges es
  let c := findCycle sorted
  (c, c.foldl (fun l e => l.erase e) sorted)

/-- Orphan waits: WAIT and TILE_WAIT edges whose gate nothing signals (R439). -/
def orphanWaits (es : List Edge) : Nat :=
  (es.filter fun e => e.reason ≤ eTileWait && !(es.any fun f => f.reason = eSignaller && f.tail = e.head)).length

/-! ## The report (R441) -/

/-- The halves that a report of a context covers. -/
def reportHalves (h : Half) (both : Bool) : List Half := if both then [.q, .k] else [h]

/-- The key under which a half remembers since when a command has been blocked on an edge. -/
def blockKey (ctx : Nat) (e : Edge) : Nat × Nat × Nat := (ctx * 2 ^ 32 + e.tail, e.head, e.reason)

/-- WAITED of an edge: counted in the home half of the FROM command. A gate waits for nothing, and the spec gives no value for it. -/
def State.waited (s : State) (ctx i : Nat) (e : Edge) : Nat :=
  if e.reason = eSignaller then (Config.freeWord (s.drawnFree + i)).toNat else
  let h := Half.ofPart (e.tail / 8 % 2)
  let k := blockKey ctx e
  match (s.half h).blocked.find? fun b => (b.1, b.2.1, b.2.2.1) = k with
  | some b => sat32 (s.now h - b.2.2.2)
  | none => 0

/-- An edge as it is returned: 32 bytes. -/
def State.edgeBytes (s : State) (ctx i : Nat) (e : Edge) : List Nat :=
  bytesOf 32 (place e.tail 0 32 + place e.head 32 32 + place e.reason 64 8 + place e.seq 96 32 + place e.value 128 32
    + place e.threshold 160 32 + place (s.waited ctx i e) 192 32)

/-- The result of GRAPH mode: the summary and as many edges as `room` takes after the first `skip`, and how many free values it
draws. -/
def State.graphReport (s : State) (h : Half) (ctx : Nat) (both : Bool) (skip room : Nat) : List Nat × Nat :=
  let halves := reportHalves h both
  let es := s.edges ctx halves
  let o := orderedEdges es
  let out := ((o.1 ++ o.2).drop skip).take room
  let cut := halves.any fun g => ((s.half g).ringsOf ctx).any (s.scanCut g)
  let summary := place es.length 0 32 + place out.length 32 16 + place (if o.1.isEmpty then 0 else 1) 48 1
    + place (if cut then 1 else 0) 49 1 + place o.1.length 56 8 + place (orphanWaits es) 64 32 + place (s.now h) 128 64
  (bytesOf 64 summary ++ (out.zip (List.range out.length)).flatMap (fun e => s.edgeBytes ctx e.2 e.1), out.length)

/-! ## HANG_REPORT (R440, R444) -/

def hrMode (p : Nat) : Nat := pl p 0 2
def hrCtx (p : Nat) : Nat := pl p 2 4
def hrBoth (p : Nat) : Bool := pl p 6 1 = 1
def hrPart (p : Nat) : Half := Half.ofPart (pl p 7 1)

/-- Where the record of a half is kept: reserved frames of the last stack of the other half (R340, R444). -/
def collectedAt (part : Half) : Nat := hbmAddr part.other.part 3 2 (32672 * 2 ^ 21)

def specHangReport : OpSpec where
  ring := .m
  lo := 1
  hi := 64
  head _ p :=
    checks [(512, hrMode p ≥ 2), (512 + 2, hrMode p = 1 && hrCtx p ≠ 0), (512 + 6, hrMode p = 1 && hrBoth p),
      (512 + 7, hrMode p = 0 && pl p 7 1 ≠ 0), (512 + 32, hrMode p = 1 && pl p 32 32 ≠ 0),
      (512 + 64, if hrMode p = 0 then pl p 64 32 ≠ 0 else pl p 64 32 % 64 ≠ 0)]
    ++ reservedPl p [(8, 24), (96, 416)]
  exam s h p x :=
    if hrMode p = 0 then
      let c := s.ctxAny h (hrCtx p)
      (x.badWhen (c.st = .undefined) (512 + 2)).badWhen
        (hrBoth p && (s.footprintOf (hrCtx p) ≠ 3 || !s.together h)) (512 + 6)
    else x.badWhen (hrPart p = h && !s.together h) (512 + 7)

/-- HANG_REPORT_GRAPH (R440 to R442). -/
def execHangReportGraph (id : Nat) (s : State) : Host.Outcome State Fault Refusal :=
  .next (onCommand s id 0x0006 (fun c => hrMode c.packet = 0) fun s h c =>
    let p := c.packet
    let r := s.graphReport h (hrCtx p) (hrBoth p) (pl p 32 32) (2 * (pkUnits p - 1))
    ({ s with drawnFree := s.drawnFree + r.2 } : State).finish h c { okResult 0 0 0 with payload := some r.1 })

/-- HANG_REPORT_READ_COLLECTED (R444): bytes of the record of a half from OFFSET on. -/
def execHangReportReadCollected (id : Nat) (s : State) : Host.Outcome State Fault Refusal :=
  .next (onCommand s id 0x0006 (fun c => hrMode c.packet = 1) fun s h c =>
    let p := c.packet
    let holder := (hrPart p).other
    if !bitSet ((s.half holder).cell holder (hubKey bFCL 5)) 0 then s.finish h c emptyResult else
    let base := collectedAt (hrPart p)
    let len := s.view.word (base + 24) 8
    let want := 64 * pkUnits p
    let have' := min want (len - pl p 64 32)
    match (s.view.damageIn base 64).or (s.view.damageIn (base + pl p 64 32) have') with
    | some a => (s.finish h c (sealResult a)).sealFault a c.ctx
    | none =>
    let bs := s.view.bytes (base + pl p 64 32) have' ++ List.replicate (want - have') 0
    s.finish h c { okResult have' 0 0 with payload := some bs })

end Sys2Proof.Machine
end

