-- ==== Sys2Proof/Machine/Mover.lean ====
section
/-! DEFINITION. The Layout Movers: MOVE, GATHER_BLOCKS and SCATTER_BLOCKS (R198 to R208). -/

namespace Sys2Proof.Machine

/-! ## What the three commands share -/

def mvFmt (p : Nat) : Nat := pl p 128 3
def mvStrict (p : Nat) : Bool := pl p 131 1 = 1
def mvHalf (p : Nat) : Half := Half.ofPart (pl p 132 1)

/-- Checks of payload unit 0 (R199), and zero units from unit `defined` on. -/
def moverHead (defined : Nat) (e : HeadEnv) (p : Nat) : List Check :=
  checks [(512, pl p 0 48 % 64 ≠ 0), (512 + 64, pl p 64 48 % 64 ≠ 0), (512 + 128, (Fmt.ofCode (mvFmt p)).isNone),
      (512 + 132, outside e (mvHalf p)), (512 + 133, pl p 133 3 > 4),
      (512 + 136, pl p 136 4 = 0 || (pl p 133 3 = 4 && pl p 136 4 > 3))]
    ++ reservedPl p [(48, 16), (112, 16), (140, 372), (512 * defined, 512 * (pkUnits p - defined))]

/-- Work count of a mover command (R202) over `blocks` blocks. -/
def moverWork (p : Nat) (eb : Nat) (src dst : Desc) (blocks listBytes : Nat) : Nat :=
  match pkClass p with
  | 11 => dst.inBounds false * eb * blocks
  | 14 => (if src.tst then 0 else src.inBounds true * eb * blocks) + listBytes
  | 15 => if dst.tst then 0 else dst.inBounds false * eb * blocks
  | _ => 1

/-- REDUCE takes FP32, BF16 and FP16 only (R194). -/
def reduceFormatBad (d : Desc) (fmt : Nat) : Bool := d.reduce && fmt > 2

/-- Counts of a copy: out-of-bounds reads filled, writes dropped, overflow events. -/
structure Tally where
  fills : Nat := 0
  drops : Nat := 0
  overs : Nat := 0
deriving DecidableEq, Repr

/-- One element to copy: its place in the source and in the destination, and its repetition group in the source (R190). -/
structure Pair where
  src : Elem
  dst : Elem
  group : Nat
deriving DecidableEq, Repr

/-- The pair of element `i` of a source and the places it is copied between. -/
def pairOf (src : Desc) (i : Nat) (a b : Elem) : Pair :=
  { src := a, dst := b, group := latchGroup src.ext src.stride (indexOf src.ext i) 1 }

/-- Copy one element to one element, or add it under REDUCE (R190, R191, R194, R200). -/
def copyElem (e : Env) (src dst : Desc) (fmt : Nat) (strict : Bool) (r : Run) (t : Tally) (ls : Latches) (p : Pair) :
    Run × Tally × Latches :=
  let eb := fmtBytes fmt
  let x := r.readHeld e ls src eb 0 p.group p.src
  let t1 := { t with fills := t.fills + x.2.1 }
  let z : Run × Tally := match p.dst with
    | .outside _ => (x.2.2.1, { t1 with drops := t1.drops + 1 })
    | .inside i =>
      if dst.reduce then
        let v := match Fmt.ofCode fmt with | some f => (roundTo .fp32 .strict (f.decode true x.1)).code | none => 0
        let y := x.2.2.1.reduceElem e dst fmt strict i v
        (y.2, { t1 with overs := t1.overs + y.1 })
      else (x.2.2.1.storeElem e dst eb i x.1, t1)
  (z.1, z.2, x.2.2.2)

/-- Copy elements pair by pair, in order (R193). -/
def copyElems (e : Env) (src dst : Desc) (fmt : Nat) (strict : Bool) : List Pair → Run → Tally → Latches → Run × Tally
  | [], r, t, _ => (r, t)
  | p :: rest, r, t, ls =>
    let x := copyElem e src dst fmt strict r t ls p
    copyElems e src dst fmt strict rest x.1 x.2.1 x.2.2

/-! ## MOVE (R200) -/

/-- Address ranges of two descriptors in the same space and tile overlap (R200). -/
def rangesOverlap (src dst : Desc) (eb : Nat) : Bool :=
  src.tst = dst.tst && (!src.tst || src.tile = dst.tile) &&
  match src.range eb, dst.range eb with
  | some a, some b => decide (a.1 < b.2 + eb) && decide (b.1 < a.2 + eb)
  | _, _ => false

def specMove : OpSpec where
  ring := .c
  lo := 1
  hi := 4
  classes := [0, 11, 14, 15]
  head := moverHead 1
  busy := moversBusy
  domains := moverDomains
  exam s h p x0 :=
    let eb := fmtBytes (mvFmt p)
    let fp := s.footprintOf (pkCtx p)
    let a := x0.desc 512 (pl p 0 48) eb false true fp
    let b := a.2.desc (512 + 64) (pl p 64 48) eb true true fp
    let x := b.2
    let differs := (List.range 5).find? fun k => a.1.ext.getD k 1 ≠ b.1.ext.getD k 1
    let x1 := match differs with | some k => x.badWhen true (512 + 64) (1 + 128 * k + 128) | none => x
    let x2 := x1.badWhen (reduceFormatBad b.1 (mvFmt p)) (512 + 64) (1 + 52)
    let x3 := x2.badWhen (rangesOverlap a.1 b.1 eb) (512 + 64) 1
    { x3 with empty := a.1.count = 0 }.work h (mvHalf p) (moverWork p eb a.1 b.1 1 0)
  mirrored s h p := mvHalf p ≠ h && s.together h

/-- The copy of a MOVE. -/
def moveRun (s : State) (h : Half) (c : Cmd) : Run × Tally :=
  copyElems { s.envCmd h c with part := mvHalf c.packet } (c.desc 0) (c.desc 1) (mvFmt c.packet) (mvStrict c.packet)
    ((List.range (c.desc 0).count).map fun i =>
      pairOf (c.desc 0) i ((c.desc 0).elem (fmtBytes (mvFmt c.packet)) i) ((c.desc 1).elem (fmtBytes (mvFmt c.packet)) i))
    { mem := s.view } {} []

/-- The movers that run a MOVE: one alone where the destination is ALIASED (R193). DEDUCED (log entry 101): that one is the lowest mover
named, as R207 has it for the block commands. -/
def moveMovers (c : Cmd) : List Nat := if (c.desc 1).disjoint then maskMovers c.packet else (maskMovers c.packet).take 1

/-- MOVE: destination element i takes source element i, in canonical order (R193, R200). -/
def runMove (s : State) (h : Half) (c : Cmd) : State :=
  let p := c.packet
  let dst := c.desc 1
  let e := { s.envCmd h c with part := mvHalf p }
  let out := (List.range (c.desc 0).count).any fun i =>
    match dst.elem (fmtBytes (mvFmt p)) i with | .outside _ => true | .inside _ => false
  if dst.refuse && out then s.finish h c (boundsResult (512 + 64))
  else
    let x := moveRun s h c
    (s.applyRun h c e x.1 fun _ => okResult x.2.fills 0 x.2.drops).countOob
      (if x.1.need.isEmpty then moveMovers c else []) x.2.fills x.2.drops

def execMove (id : Nat) (s : State) : Host.Outcome State Fault Refusal :=
  .next (onCommand s id 0x0301 (fun _ => true) runMove)

/-! ## GATHER_BLOCKS and SCATTER_BLOCKS (R203 to R207) -/

def bkList (p : Nat) : Nat := pl p 512 48
def bkCount (p : Nat) : Nat := pl p (512 + 64) 32
def bkStep (p : Nat) : Int := signed (pl p (512 + 128) 64) 64
def bkExt (p k : Nat) : Nat := pl p (512 + 192 + 16 * k) 16
def isGather (p : Nat) : Bool := pkOpcode p == 0x0302

/-- Checks of payload unit 1 (R203). -/
def blockHead (e : HeadEnv) (p : Nat) : List Check :=
  moverHead 2 e p ++ checks [(1024, bkList p % 16 ≠ 0), (1024 + 128, bkStep p % fmtBytes (mvFmt p) ≠ 0)]
    ++ reservedPl p [(512 + 48, 16), (512 + 96, 32), (512 + 272, 240)]

/-- The packed side's byte range over all blocks lies in its space (R204). -/
def packedRangeBad (d : Desc) (eb count : Nat) (step : Int) : Bool :=
  match d.range eb with
  | none => false
  | some (lo, hi) =>
    let far : Int := step * ((count - 1 : Nat) : Int)
    let top : Int := (if d.tst then 4194304 else 2 ^ 48 : Int) - eb
    count > 0 && (decide (lo + min far 0 < 0) || decide (hi + max far 0 > top))

/-- The pages of the lowest and highest in-bounds address of the packed side, over all blocks (R188, R204). -/
def Exm.packedPages (x : Exm) (bit : Nat) (d : Desc) (eb count : Nat) (step : Int) (write : Bool) : Exm :=
  if x.refused || d.tst || count = 0 then x else
  match d.range eb with
  | none => x
  | some (lo, hi) =>
    let far : Int := step * ((count - 1 : Nat) : Int)
    let l := (lo + min far 0).toNat
    let u := (hi + max far 0).toNat + eb
    let a := x.env.checkByte bit l write false
    { x.bad (if a.isEmpty then x.env.checkByte bit (u - 1) write false else a) with ranges := x.ranges ++ [(l, u - l)] }

/-- Examination of a block command: both descriptors, equal block extents (R203), the packed range, and the stride rules of R205 and
R206. DESIGN CHOICE (log entry 101): a SCATTER_BLOCKS destination that fails the DISJOINT test names STRIDE0. -/
def examBlocks (s : State) (h : Half) (p : Nat) (x0 : Exm) : Exm :=
  let eb := fmtBytes (mvFmt p)
  let fp := s.footprintOf (pkCtx p)
  let a := x0.desc 512 (pl p 0 48) eb false true fp
  let b := a.2.desc (512 + 64) (pl p 64 48) eb true true fp
  let src := a.1
  let dst := b.1
  let packed := if isGather p then dst else src
  let mismatch := (List.range 5).find? fun k => src.ext.getD k 1 ≠ bkExt p k || dst.ext.getD k 1 ≠ bkExt p k
  let x1 := match mismatch with | some k => b.2.badWhen true (1024 + 192 + 16 * k) | none => b.2
  let x2 := x1.badWhen (reduceFormatBad dst (mvFmt p)) (512 + 64) (1 + 52)
  let x3 := (x2.badWhen (packedRangeBad packed eb (bkCount p) (bkStep p)) (1024 + 128)).packedPages
    (512 + (if isGather p then 64 else 0)) packed eb (bkCount p) (bkStep p) (isGather p)
  let x4 := x3.badWhen (isGather p && bkStep p = 0 && bkCount p > 1 && !dst.reduce) (1024 + 128)
  let unbounded := (List.range 5).find? fun k => k < dst.rank && dst.bound.getD k 0 = 0
  let x5 := if isGather p then x4 else
    match unbounded with
    | some k => x4.badWhen true (512 + 64) (1 + 128 * k + 224)
    | none => x4.badWhen (!disjointDims ((dst.bound.map fun b => max b 1).zip dst.stride)) (512 + 64) (1 + 160)
  let zero := bkCount p = 0 || (List.range 5).any fun k => bkExt p k = 0
  { x5 with empty := zero }.work h (mvHalf p) (moverWork p eb src dst (bkCount p) (16 * bkCount p))

def specGatherBlocks : OpSpec where
  ring := .c
  lo := 2
  hi := 4
  classes := [0, 11, 14, 15]
  head := blockHead
  busy := moversBusy
  domains := moverDomains
  exam := examBlocks
  mirrored s h p := mvHalf p ≠ h && s.together h

def specScatterBlocks : OpSpec where
  ring := .c
  lo := 2
  hi := 4
  classes := [0, 11, 14, 15]
  head := blockHead
  busy := moversBusy
  domains := moverDomains
  exam := examBlocks
  mirrored s h p := mvHalf p ≠ h && s.together h

/-- Coordinates and SKIP of a list entry (R204). -/
def entryCoords (v : Nat) : List Int := (List.range 5).map fun k => signed (bits v (24 * k) 24) 24
def entrySkip (v : Nat) : Bool := bitSet v 120

/-- The place of element `i` of a block on the whole-tensor side (R205). -/
def wholePlace (d : Desc) (eb : Nat) (cs : List Int) (i : Nat) : Elem :=
  let shift := (List.range 5).map fun k => cs.getD k 0 * (d.ext.getD k 1 : Nat)
  d.placeAt eb (indexOf d.ext i) shift

/-- The place of element `i` of block `b` on the packed side (R205). -/
def packedPlace (d : Desc) (eb : Nat) (step : Int) (b i : Nat) : Elem :=
  match d.elem eb i with
  | .inside a => .inside (a + b * step)
  | .outside k => .outside k

/-- The elements of entry `b`, to be copied. -/
def blockPairs (p : Nat) (src dst : Desc) (b v : Nat) : List Pair :=
  let eb := fmtBytes (mvFmt p)
  (List.range src.count).map fun i =>
    if isGather p then pairOf src i (wholePlace src eb (entryCoords v) i) (packedPlace dst eb (bkStep p) b i)
    else pairOf src i (packedPlace src eb (bkStep p) b i) (wholePlace dst eb (entryCoords v) i)

/-- Is an in-bounds element of the whole-tensor side of an entry outside its space (R204)? -/
def wholeOutside (p : Nat) (src dst : Desc) (v : Nat) : Bool :=
  let eb := fmtBytes (mvFmt p)
  let d := if isGather p then src else dst
  let top : Int := (if d.tst then 4194304 else 2 ^ 48 : Int) - eb
  (List.range d.count).any fun i =>
    match wholePlace d eb (entryCoords v) i with
    | .inside a => decide (a < 0) || decide (a > top)
    | .outside _ => false

/-- The coordinate concerned by an address outside its space: the lowest-numbered that is not zero (R204). -/
def coordOffset (v : Nat) : Nat := 24 * ((List.range 5).find? fun k => bits v (24 * k) 24 ≠ 0).getD 0

/-- The fault found in list entry `k` before it moves anything (R204). -/
def entryFault (p : Nat) (src dst : Desc) (k v : Nat) : Option Result :=
  if bits v 121 7 ≠ 0 then some (faultField 1024 (1 + 128 * k + 121))
  else if !entrySkip v && wholeOutside p src dst v then some (faultField 1024 (1 + 128 * k + coordOffset v))
  else none

/-- Read list entry `k`, and check it. -/
def readEntry (e : Env) (p : Nat) (src dst : Desc) (k : Nat) (r : Run) : Nat × Run :=
  let x := r.loadNum e (bkList p + 16 * k) 16
  match entryFault p src dst k x.1 with
  | some f => (x.1, x.2.halt f)
  | none => x

/-- Read the whole list, entry 0 first. -/
def readList (e : Env) (p : Nat) (src dst : Desc) : Nat → Nat → Run → List Nat × Run
  | _, 0, r => ([], r)
  | k, n + 1, r =>
    let x := readEntry e p src dst k r
    let y := readList e p src dst (k + 1) n x.2
    (x.1 :: y.1, y.2)

/-- Does a destination block of an entry fall out of bounds (R191, R205, R206)? -/
def blockOut (p : Nat) (src dst : Desc) (b v : Nat) : Bool :=
  !entrySkip v && (blockPairs p src dst b v).any fun x => match x.dst with | .outside _ => true | .inside _ => false

/-- Counts of a block command: the copy's, entries skipped, repeats, and fills and drops by mover. -/
structure BlockTally where
  t : Tally := {}
  skipped : Nat := 0
  repeats : Nat := 0
  fillsBy : List (Nat × Nat) := []
  dropsBy : List (Nat × Nat) := []
deriving DecidableEq, Repr

/-- Perform entries in list order; an entry that meets a fault writes nothing, and later ones do nothing (R204, R205, R206). DESIGN
CHOICE (log entry 101): coordinates repeat those of an earlier entry only if that entry moved a block, so that SKIP entries neither count
nor are counted against. -/
def blockLoop (e : Env) (p : Nat) (src dst : Desc) (movers : List Nat) :
    Nat → Nat → List (List Int) → Run → BlockTally → Run × BlockTally
  | _, 0, _, r, t => (r, t)
  | k, n + 1, seen, r, t =>
    if r.stop.isSome then (r, t) else
    let x := readEntry e p src dst k r
    let v := x.1
    if x.2.stop.isSome then (x.2, t)
    else if entrySkip v then
      blockLoop e p src dst movers (k + 1) n seen x.2 { t with skipped := t.skipped + 1 }
    else
      let y := copyElems e src dst (mvFmt p) (mvStrict p) (blockPairs p src dst k v) x.2 t.t []
      if y.1.stop.isSome then ({ x.2 with stop := y.1.stop, seals := y.1.seals }, t)
      else
        let m := movers.getD (k % max movers.length 1) 0
        let cs := entryCoords v
        blockLoop e p src dst movers (k + 1) n (seen ++ [cs]) y.1
          { t with
            t := y.2
            repeats := t.repeats + (if seen.contains cs then 1 else 0)
            fillsBy := t.fillsBy ++ [(m, y.2.fills - t.t.fills)]
            dropsBy := t.dropsBy ++ [(m, y.2.drops - t.t.drops)] }

/-- Is the packed destination of a gather ALIASED, its blocks a sixth dimension (R205)? -/
def blockAliased (p : Nat) (dst : Desc) : Bool :=
  let eb : Int := fmtBytes (mvFmt p)
  isGather p && !disjointDims (dst.ext.zip dst.stride ++ [(bkCount p, bkStep p / eb)])

/-- The movers that handle the entries: one alone when R193 confines the writes to it (R205, R207). -/
def blockMovers (p : Nat) (dst : Desc) : List Nat := if blockAliased p dst then (maskMovers p).take 1 else maskMovers p

/-- The entries of a GATHER_BLOCKS or SCATTER_BLOCKS. -/
def blockRun (s : State) (h : Half) (c : Cmd) : Run × BlockTally :=
  blockLoop { s.envCmd h c with part := mvHalf c.packet } c.packet (c.desc 0) (c.desc 1) (blockMovers c.packet (c.desc 1)) 0
    (bkCount c.packet) [] { mem := s.view } {}

/-- GATHER_BLOCKS and SCATTER_BLOCKS (R204 to R207). With OOB_REFUSE the whole list is read and tested first, and a fault found in an
entry leaves nothing written. -/
def runBlocks (s : State) (h : Half) (c : Cmd) : State :=
  let p := c.packet
  let src := c.desc 0
  let dst := c.desc 1
  let e := { s.envCmd h c with part := mvHalf p }
  let r0 : Run := { mem := s.view }
  let pre := readList e p src dst 0 (bkCount p) r0
  if dst.refuse && (pre.2.stop.isSome || !pre.2.need.isEmpty) then s.applyRun h c e pre.2 fun _ => okResult 0 0 0
  else if dst.refuse && ((List.range (bkCount p)).any fun k => blockOut p src dst k (pre.1.getD k 0)) then
    s.finish h c (boundsResult (512 + 64))
  else
    let x0 := blockRun s h c
    let x := if dst.refuse && (match x0.1.stop with | some res => res.status = stFault | none => false) then
      ({ x0.1 with mem := s.view, puts := [], torn := [], parts := [] }, x0.2) else x0
    let s1 := s.applyRun h c e x.1 fun _ =>
      okResult x.2.t.fills (if isGather p then x.2.skipped else x.2.repeats) x.2.t.drops
    if x.1.need.isEmpty then (s1.countMovers 1 x.2.fillsBy).countMovers 2 x.2.dropsBy else s1

def execGatherBlocks (id : Nat) (s : State) : Host.Outcome State Fault Refusal :=
  .next (onCommand s id 0x0302 (fun _ => true) runBlocks)

def execScatterBlocks (id : Nat) (s : State) : Host.Outcome State Fault Refusal :=
  .next (onCommand s id 0x0303 (fun _ => true) runBlocks)

end Sys2Proof.Machine
end

