-- ==== Sys2Proof/Machine/Solver.lean ====
section
/-! DEFINITION. Batched sparse solvers (R233 to R253): problem storage, range analysis, fixed-point and wide-scalar arithmetic,
preconditioners, CG and MINRES, results, and the deadline. -/

namespace Sys2Proof.Machine

/-! ## Fields (R233) -/

def sbProb (p : Nat) : Nat := pl p 0 48
def sbResult (p : Nat) : Nat := pl p 64 48
def sbScratch (p : Nat) : Nat := pl p 128 48
def sbSlot (p : Nat) : Nat := pl p 192 32
def sbCount (p : Nat) : Nat := pl p 224 32
def sbMinres (p : Nat) : Bool := pl p 256 2 = 1
def sbPre (p : Nat) : Nat := pl p 258 2
/-- Edge of the preconditioner's blocks; Jacobi is block-Jacobi of edge 1 (R242). -/
def sbEdge (p : Nat) : Nat := if sbPre p = 2 then pl p 260 7 else 1
def sbHead (p : Nat) : Nat := if pl p 267 5 = 0 then 8 else pl p 267 5
def sbIters (p : Nat) : Nat := pl p 272 16
def sbTol (p : Nat) : Nat := pl p 288 32
def sbPivot (p : Nat) : Nat := if pl p 320 5 = 0 then 24 else pl p 320 5
def sbShift (p : Nat) : Nat := if pl p 325 5 = 0 then 16 else pl p 325 5
def sbDeadline (p : Nat) : Nat := pl p 352 64

def specSolveBatch : OpSpec where
  ring := .c
  lo := 1
  hi := 2
  classes := [0, 7, 14, 15]
  head e p :=
    let n := sbCount p
    checks [(512, sbProb p % 64 ≠ 0), (512 + 64, sbResult p % 32 ≠ 0), (512 + 128, sbScratch p % 64 ≠ 0),
      (512 + 192, sbSlot p = 0 || sbSlot p % 64 ≠ 0), (512 + 224, n > 16777216), (512 + 256, pl p 256 2 > 1), (512 + 258, sbPre p = 3),
      (512 + 260, if sbPre p = 2 then pl p 260 7 < 2 || pl p 260 7 > 64 else pl p 260 7 ≠ 0), (512 + 267, pl p 267 5 > 16),
      (512 + 272, sbIters p = 0), (512 + 288, !(finite32 (sbTol p) && FVal.lt FVal.zero (f32 (sbTol p)))),
      (512 + 336, pl p 336 8 = 0 || (csesOf p).any (dieOutside e.footprint))]
    ++ overlapChecks [(512, sbProb p, 64 * n), (512 + 64, sbResult p, 32 * n), (512 + 128, sbScratch p, sbSlot p * n)]
    ++ reservedPl p [(48, 16), (112, 16), (176, 16), (330, 6), (344, 8), (464, 48), (512, 512 * (pkUnits p - 1))]
  busy := csesBusy
  domains _ _ p := (csesOf p).map uncoreDomain
  exam _ h p x0 :=
    let n := sbCount p
    let x := ((x0.range 512 (sbProb p) (64 * n) false).range (512 + 64) (sbResult p) (32 * n) true).range (512 + 128) (sbScratch p)
      (sbSlot p * n) true
    let dies := csesOf p
    let mine := (dies.filter fun d => dieHalf d = h).length
    let w := if pkClass p = 0 then 1 else pl p 416 48
    { x with empty := n = 0, workHome := w * mine / max dies.length 1, workOther := w - w * mine / max dies.length 1 }
  mirrored := csesAcross

/-! ## Fixed point (R158, R241) -/

/-- v × 2^k rounded to an integer, ties to even. -/
def rneScale (v k : Int) : Int :=
  if k ≥ 0 then v * (2 ^ k.toNat : Nat)
  else
    let m : Int := (rneShift v.natAbs (-k).toNat : Nat)
    if v < 0 then -m else m

/-- The symmetric range of the 32-bit fixed-point format. -/
def fixMax : Int := 2147483647

/-- Saturation, and whether it happened. -/
def satFix (v : Int) : Int × Bool :=
  if v > fixMax then (fixMax, true) else if v < -fixMax then (-fixMax, true) else (v, false)

/-- Saturate a vector. -/
def satVec (l : List Int) : List Int × Bool := (l.map fun v => (satFix v).1, l.any fun v => (satFix v).2)

/-- Sum and difference of vectors. -/
def addVec (a b : List Int) : List Int × Bool := satVec ((a.zip b).map fun x => x.1 + x.2)
def subVec (a b : List Int) : List Int × Bool := satVec ((a.zip b).map fun x => x.1 - x.2)

/-! ## Wide scalars (R241) -/

/-- Round m × 2^e to a wide scalar; `sticky` says that the exact value lies strictly beyond m in magnitude by less than one unit. -/
def wideOf (v : Int) (e : Int) (sticky : Bool) : Wide :=
  let m := v.natAbs
  if m = 0 then { m := 0, e := 0 } else
  let m' := if sticky then 2 * m + 1 else 2 * m
  let k := Nat.log2 m'
  let r := if k ≤ 30 then m' <<< (30 - k) else rneShift m' (k - 30)
  let e' := e - 1 + (k : Int) - 30
  let q : Int := (if r = 2 ^ 31 then 2 ^ 30 else r : Nat)
  { m := if v < 0 then -q else q, e := if r = 2 ^ 31 then e' + 1 else e' }

/-- Zero as a wide scalar. -/
def Wide.zero : Wide := { m := 0, e := 0 }

def Wide.mul (a b : Wide) : Wide := wideOf (a.m * b.m) (a.e + b.e) false
def Wide.neg (a : Wide) : Wide := { a with m := -a.m }

/-- An exact sum, rounded once. -/
def Wide.add (a b : Wide) : Wide :=
  if a.m = 0 then b else if b.m = 0 then a else
  let lo := min a.e b.e
  wideOf (a.m * (2 ^ (a.e - lo).toNat : Nat) + b.m * (2 ^ (b.e - lo).toNat : Nat)) lo false

/-- A wide scalar that the spec does not state: a quotient by zero, or the root of a negative value. -/
def Wide.free (a b : Wide) : Wide :=
  let n := Config.functionChoice 0x501 (unsigned a.m 32 + unsigned b.m 32 * 2 ^ 32)
  wideOf (signed (n % 2 ^ 32) 32) (signed (n / 2 ^ 32 % 2 ^ 16) 16) false

/-- A quotient, formed exactly and rounded once. -/
def Wide.div (a b : Wide) : Wide :=
  if b.m = 0 then Wide.free a b else
  let num := a.m.natAbs <<< 64
  let q := num / b.m.natAbs
  let v : Int := if (a.m < 0) != (b.m < 0) then -(q : Int) else q
  wideOf v (a.e - b.e - 64) (num % b.m.natAbs ≠ 0)

/-- A square root, formed exactly and rounded once. -/
def Wide.sqrt (a : Wide) : Wide :=
  if a.m < 0 then Wide.free a Wide.zero else
  let k : Nat := if a.e % 2 = 0 then 64 else 65
  let n := a.m.natAbs <<< k
  let r := isqrt n
  wideOf r ((a.e - k) / 2) (r * r ≠ n)

/-- a < b on wide scalars. -/
def Wide.lt (a b : Wide) : Bool :=
  let lo := min a.e b.e
  a.m * (2 ^ (a.e - lo).toNat : Nat) < b.m * (2 ^ (b.e - lo).toNat : Nat)

/-- a ≤ b on wide scalars. -/
def Wide.le (a b : Wide) : Bool := !(Wide.lt b a)

/-- The exact value of an FP32 code as a wide scalar. -/
def Wide.ofCode (c : Nat) : Wide :=
  match f32 c with
  | .fin n m e => wideOf (if n then -(m : Int) else m) e false
  | _ => Wide.zero

/-- A wide scalar times 2^k as an FP32 code. -/
def Wide.toCode (a : Wide) (k : Int) : Nat := round32 .strict (.fin (a.m < 0) a.m.natAbs (a.e + k))

/-- A vector times a scalar, each product rounded once to the exponent of the vector. -/
def scaleVec (s : Wide) (v : List Int) : List Int × Bool := satVec (v.map fun x => rneScale (x * s.m) s.e)

/-- Inner product of two vectors at exponent e, rounded once (R241). -/
def dotVec (e : Int) (a b : List Int) : Wide := wideOf ((a.zip b).foldl (fun s x => s + x.1 * x.2) 0) (2 * e) false

/-- Matrix times vector: exact row sums, each rounded once (R241). -/
def matVec (rows : List (List (Nat × Int))) (v : List Int) : List Int × Bool :=
  satVec (rows.map fun row => rneScale (row.foldl (fun s c => s + c.2 * v.getD c.1 0) 0) (-31))

/-! ## Preconditioners (R242) -/

/-- The fma32 chain of a column of the factorisation over the earlier columns, with rows `li` and `lk` of L (R242): from the diagonal
element, subtracting, for a pivot; from zero, adding, for an element below it. DEDUCED (log entry 103): the product of the two elements of
L is rounded first, as the rule writes it, and its product with d[j] is the exact product of the step. -/
def ldlChain (minus : Bool) (start : Nat) (li lk d : List Nat) : Nat :=
  (li.zip (lk.zip d)).foldl (fun acc x =>
    let l := mul32 .strict x.1 x.2.1
    fma32 .strict (if minus then neg32 l else l) x.2.2 acc) start

/-- State of a factorisation: rows of L so far, pivots, replacements and a negative pivot. -/
structure Ldl where
  rows : List (List Nat)
  d : List Nat
  regs : Nat := 0
  neg : Bool := false

/-- Column k of the factorisation of a b × b block (R242). -/
def ldlColumn (p : Nat) (a : Mat) (delta mu : Nat) (b : Nat) (k : Nat) (s : Ldl) : Ldl :=
  let lk := s.rows.getD k []
  let d0 := ldlChain true (a.at k k) lk lk s.d
  let tiny := FVal.le (f32 d0).abs ((f32 delta).scale (-(sbPivot p : Int)))
  let d1 := if tiny then (if FVal.le FVal.zero (f32 d0) then add32 .strict d0 mu else sub32 .strict d0 mu) else d0
  let rows := (List.range b).map fun i =>
    let li := s.rows.getD i []
    if i > k then li ++ [div32 (sub32 .strict (a.at i k) (ldlChain false 0 li lk s.d)) d1] else li
  { rows := rows, d := s.d ++ [d1], regs := s.regs + (if tiny then 1 else 0), neg := s.neg || FVal.lt (f32 d1) FVal.zero }

/-- A factor as fixed point at an exponent; a factor that is not finite is a value the spec does not state, but for its range (R158). -/
def factorFix (g : Int) (c : Nat) : Int :=
  (satFix (if finite32 c then rneInt ((f32 c).scale (-g)) else signed (Config.functionChoice 0x502 c % 2 ^ 32) 32)).1

/-- The smallest integer g with every magnitude below 2^(g + 31). -/
def blockExp (codes : List Nat) : Int :=
  match f32 (maxAbs (codes.filter finite32)) with
  | .fin _ m e => if m = 0 then -180 else topExp m e + 1 - 31
  | _ => 0

/-- Factorise one diagonal block of Ã, given its FP32 values (R242). -/
def factorBlock (p first b : Nat) (a : Mat) : PreBlock × Nat × Bool :=
  let delta := maxAbs ((List.range b).map fun i => a.at i i)
  let unit : Int := -(sbShift p : Int)
  let mu := if (f32 delta).isZero then pow2Code unit else round32 .strict ((f32 delta).scale unit)
  let z := (List.range b).foldl (fun s k => ldlColumn p a delta mu b k s) { rows := List.replicate b [], d := [] }
  let dinv := z.d.map fun d => div32 0x3F800000 (abs32 d)
  let g := blockExp (dinv ++ z.rows.flatten)
  ({ first := first, exp := g, lower := z.rows.map fun r => r.map (factorFix g), dinv := dinv.map (factorFix g) }, z.regs, z.neg)

/-- Forward substitution with L: each product rounded to the vector's exponent, sums exact until saturation (R158, R242). -/
def forwardSub (g : Int) : List (List Int) → List Int → List Int → Bool → List Int × Bool
  | row :: rows, v :: vs, done, s =>
    let y := satFix (v - (row.zip done).foldl (fun acc x => acc + rneScale (x.1 * x.2) g) 0)
    forwardSub g rows vs (done ++ [y.1]) (s || y.2)
  | _, _, done, s => (done, s)

/-- Back substitution with Lᵀ, from the last row up. `done` holds the later results, first one next. -/
def backSub (g : Int) (lower : List (List Int)) : List (Nat × Int) → List Int → Bool → List Int × Bool
  | [], done, s => (done, s)
  | (i, v) :: rest, done, s =>
    let col := (lower.drop (i + 1)).map fun row => row.getD i 0
    let y := satFix (v - (col.zip done).foldl (fun acc x => acc + rneScale (x.1 * x.2) g) 0)
    backSub g lower rest (y.1 :: done) (s || y.2)

/-- M⁻¹ of one block: forward substitution, scaling, back substitution (R242). -/
def PreBlock.apply (b : PreBlock) (r : List Int) : List Int × Bool :=
  let v := (r.drop b.first).take b.dinv.length
  let f := forwardSub b.exp b.lower v [] false
  let m := satVec ((f.1.zip b.dinv).map fun x => rneScale (x.1 * x.2) b.exp)
  let back := backSub b.exp b.lower (((List.range m.1.length).zip m.1).reverse) [] false
  (back.1, f.2 || m.2 || back.2)

/-- M⁻¹ r. -/
def Loaded.minv (l : Loaded) (r : List Int) : List Int × Bool :=
  if l.blocks.isEmpty then (r, false)
  else l.blocks.foldl (fun acc b => let y := b.apply r; (acc.1 ++ y.1, acc.2 || y.2)) ([], false)

/-! ## Iterations (R243 to R245) -/

/-- How a problem ends (R247). -/
inductive SolveOutcome where
  | converged
  | budget
  | breakdown
  | deadline
deriving DecidableEq, Repr

/-- OUTCOME of a result record (R247). -/
def SolveOutcome.code : SolveOutcome → Nat
  | .converged => 0
  | .budget => 1
  | .breakdown => 2
  | .deadline => 3

/-- One iteration of CG (R243): the state after it, and the outcome if it ends the problem. -/
def cgStep (p : Nat) (l : Loaded) (s : CgState) : Loaded × Option SolveOutcome :=
  let q := matVec l.rows s.p
  let pq := dotVec l.e s.p q.1
  let sat0 := l.saturated || q.2
  if pq.m ≤ 0 then ({ l with saturated := sat0 }, some .breakdown) else
  let alpha := s.rz.div pq
  let ap := scaleVec alpha s.p
  let x := addVec s.x ap.1
  let aq := scaleVec alpha q.1
  let r := subVec s.r aq.1
  let rr := dotVec l.e r.1 r.1
  let better := rr.lt s.best2
  let k := l.k + 1
  let tol := Wide.ofCode (sbTol p)
  let s1 : CgState := { s with x := x.1, r := r.1, best := if better then x.1 else s.best
                               best2 := if better then rr else s.best2, bestK := if better then k else s.bestK }
  let sat1 := sat0 || ap.2 || x.2 || aq.2 || r.2
  if rr.le ((tol.mul tol).mul s.bn2) then
    ({ l with saturated := sat1, k := k, it := .cg { s1 with best := x.1, best2 := rr, bestK := k } }, some .converged)
  else
    let z := l.minv r.1
    let rz1 := dotVec l.e r.1 z.1
    let bp := scaleVec (rz1.div s.rz) s.p
    let pn := addVec z.1 bp.1
    ({ l with saturated := sat1 || z.2 || bp.2 || pn.2, k := k, it := .cg { s1 with rz := rz1, p := pn.1 } },
      if k ≥ sbIters p then some .budget else none)

/-- One iteration of MINRES (R244). -/
def minresStep (p : Nat) (l : Loaded) (s : MinresState) : Loaded × Option SolveOutcome :=
  let k := l.k + 1
  let one := wideOf 1 0 false
  let v := scaleVec (one.div s.beta) s.y
  let y0 := matVec l.rows v.1
  let t0 := scaleVec (s.beta.div s.oldb) s.r1
  let y1 := if k ≥ 2 then subVec y0.1 t0.1 else y0
  let alfa := dotVec l.e v.1 y1.1
  let t1 := scaleVec (alfa.div s.beta) s.r2
  let y2 := subVec y1.1 t1.1
  let z := l.minv y2.1
  let beta := (dotVec l.e y2.1 z.1).sqrt
  let delta := (s.cs.mul s.dbar).add (s.sn.mul alfa)
  let gbar := (s.sn.mul s.dbar).add (s.cs.mul alfa).neg
  let epsln := s.sn.mul beta
  let dbar := (s.cs.mul beta).neg
  let gamma := ((gbar.mul gbar).add (beta.mul beta)).sqrt
  let sat0 := l.saturated || v.2 || y0.2 || (k ≥ 2 && (t0.2 || y1.2)) || t1.2 || y2.2 || z.2
  if gamma.m = 0 then ({ l with saturated := sat0 }, some .breakdown) else
  let cs := gbar.div gamma
  let sn := beta.div gamma
  let phi := cs.mul s.phibar
  let phibar := sn.mul s.phibar
  let a := scaleVec s.epsln s.w2
  let b := scaleVec delta s.w
  let c := subVec v.1 a.1
  let d := subVec c.1 b.1
  let w := scaleVec (one.div gamma) d.1
  let px := scaleVec phi w.1
  let x := addVec s.x px.1
  let s1 : MinresState :=
    { s with x := x.1, y := z.1, r1 := s.r2, r2 := y2.1, w := w.1, w2 := s.w, beta := beta, oldb := s.beta, phibar := phibar
             cs := cs, sn := sn, dbar := dbar, epsln := epsln }
  let l1 := { l with saturated := sat0 || a.2 || b.2 || c.2 || d.2 || w.2 || px.2 || x.2, k := k, it := .minres s1 }
  if phibar.le ((Wide.ofCode (sbTol p)).mul s.bnorm) then (l1, some .converged)
  else if beta.m = 0 then (l1, some .breakdown)
  else (l1, if k ≥ sbIters p then some .budget else none)

/-- Advance a loaded problem by one iteration. -/
def Loaded.step (p : Nat) (l : Loaded) : Loaded × Option SolveOutcome :=
  match l.it with
  | .cg s => cgStep p l s
  | .minres s => minresStep p l s

/-! ## Load (R235 to R240) -/

/-- FNV-1a over bytes (R238). -/
def fnv (bs : List Nat) : Nat := bs.foldl (fun h b => (h ^^^ b) * 0x100000001B3 % 2 ^ 64) 0xCBF29CE484222325

/-- An exact non-negative value rounded to FP32 toward +Infinity (R240). -/
def roundUp32 : FVal → FVal
  | .fin n m e =>
    if m = 0 then .fin n m e else
    let qe := max (topExp m e) (-126) - 23
    if qe ≤ e then .fin n m e else
    let k := (qe - e).toNat
    let q := m >>> k + (if m % 2 ^ k = 0 then 0 else 1)
    if cmpDyadic q qe Fmt.fp32.maxFinite.1 Fmt.fp32.maxFinite.2 = .gt then .inf false else .fin n q qe
  | v => v

/-- Row sum of magnitudes, in storage order, rounded toward +Infinity (R240). -/
def rowBound (vals : List Nat) : FVal := vals.foldl (fun s v => roundUp32 (FVal.add s (f32 v).abs)) FVal.zero

/-- The larger of two values. -/
def maxVal (a b : FVal) : FVal := if FVal.lt a b then b else a

/-- Scratch need of a problem (R237). -/
def scratchNeed (p n : Nat) : Nat :=
  let b := sbEdge p
  64 + 40 * n + (if sbPre p = 0 then 0 else if sbPre p = 1 then 4 * n
    else n / b * (2 * b * (b + 1)) + 2 * (n % b) * (n % b + 1))

/-- What loading a problem gives: INVALID with what its record says of its size, EMPTY with its fingerprint and whether it offered a warm
start and that was accepted (R239), a problem that ended at load (a zero right-hand side), or one to iterate on. -/
inductive LoadResult where
  | invalid (size : Nat)
  | empty (print : Nat) (warm : Option Bool)
  | zero (l : Loaded)
  | ready (l : Loaded)

/-- Is a problem record invalid before its arrays are read (R237)? -/
def recordBad (p v : Nat) : Bool :=
  let n := bits v 0 16
  let nnz := bits v 32 32
  n > 4096 || (n > 0 && (nnz = 0 || nnz > min (n * n) 1048576)) || bits v 16 16 ≠ 0 || bits v 112 16 ≠ 0 || bits v 176 16 ≠ 0
    || bits v 240 16 ≠ 0 || bits v 304 16 ≠ 0 || bits v 385 127 ≠ 0 || bits v 64 48 % 4 ≠ 0 || bits v 128 48 % 8 ≠ 0
    || bits v 192 48 % 4 ≠ 0 || bits v 256 48 % 4 ≠ 0 || scratchNeed p n > sbSlot p

/-- Are the numbers of a list non-decreasing; strictly ascending? -/
def rises (strict : Bool) : List Nat → Bool
  | a :: b :: rest => (if strict then a < b else a ≤ b) && rises strict (b :: rest)
  | _ => true

/-- Split entries into rows by the row pointers (R236). -/
def splitRows (entries : List Nat) : List Nat → List (List Nat)
  | a :: b :: rest => (entries.take (b - a)) :: splitRows (entries.drop (b - a)) (b :: rest)
  | _ => []

/-- An FP32 code times 2^k, rounded. -/
def scale32 (k : Int) (c : Nat) : Nat := round32 .strict ((f32 c).scale k)

/-- The diagonal blocks of the prescaled matrix, factorised (R242): blocks, replacements, negative pivot. -/
def factorAll (p n : Nat) (rows : List (List (Nat × Nat))) : List PreBlock × Nat × Bool :=
  if sbPre p = 0 then ([], 0, false) else
  let edge := max (sbEdge p) 1
  (List.range (ceilDiv n edge)).foldl (fun acc i =>
    let first := edge * i
    let b := min edge (n - first)
    let a := Mat.build b b fun r c => (((rows.getD (first + r) []).find? (·.1 = first + c)).map (·.2)).getD 0
    let z := factorBlock p first b a
    (acc.1 ++ [z.1], acc.2.1 + z.2.1, acc.2.2 || z.2.2)) ([], 0, false)

/-- σ and e where the rules give no number: a row bound above FP32's range or of zero, or a zero right-hand side (R240). They are free
values of the problem's own data (R248). -/
def openExp (what data : Nat) : Int := signed (Config.functionChoice (0x510 + what) data % 2 ^ 16) 16

/-- Numbers below 2³³ as one number, no two lists alike. -/
def packNums (l : List Nat) : Nat := l.foldl (fun acc n => acc * 2 ^ 33 + (n + 1)) 0

/-- The data of a problem on which its bits may depend (R248): its structure and values, its right-hand side, the warm start if it is
accepted, and the fields of the batch that enter R240 to R244. -/
def problemData (p print : Nat) (entries : List (List (Nat × Nat))) (rhs : List Nat) (warm : Option (List Nat)) : Nat :=
  packNums (entries.flatten.flatMap (fun c => [c.1, c.2]) ++ rhs ++ (warm.getD []) ++
    [rhs.length, if warm.isSome then 1 else 0, print % 2 ^ 32, print / 2 ^ 32, pl p 256 32, pl p 288 32, pl p 320 10])

/-- Begin the iteration of a problem (R243, R244): the state before k = 1, or none when MINRES ends at once because r1 = 0. -/
def startIterate (p : Nat) (l : Loaded) (b x0 : List Int) : Loaded × Bool :=
  let ax := matVec l.rows x0
  let r := subVec b ax.1
  let z := l.minv r.1
  let sat := l.saturated || ax.2 || r.2 || z.2
  if sbMinres p then
    let mb := l.minv b
    let beta := (dotVec l.e r.1 z.1).sqrt
    let zeros := List.replicate x0.length (0 : Int)
    let bnorm := (dotVec l.e b mb.1).sqrt
    ({ l with
       saturated := sat || mb.2
       it := .minres { x := x0, y := z.1, r1 := r.1, r2 := r.1, w := zeros, w2 := zeros, beta := beta, oldb := Wide.zero
                       bnorm := bnorm, phibar := beta, cs := wideOf (-1) 0 false, sn := Wide.zero
                       dbar := Wide.zero, epsln := Wide.zero } },
      beta.m = 0 && r.1.all (· = 0))
  else
    ({ l with
       saturated := sat
       it := .cg { x := x0, p := z.1, r := r.1, rz := dotVec l.e r.1 z.1, bn2 := dotVec l.e b b, best := x0
                   best2 := dotVec l.e r.1 r.1, bestK := 0 } }, false)

/-- Scale and start a problem whose data is valid (R238 to R242). `entries` are the codes by row; `warm` the values at X_CXA when the
record offers them with a matching fingerprint. -/
def scaleProblem (p v print : Nat) (entries : List (List (Nat × Nat))) (rhs : List Nat) (warm : Option (List Nat)) : LoadResult :=
  let offered := bitSet v 384
  let accepted : Option (List Nat) := match warm with | some w => if w.all finite32 then some w else none | none => none
  let data := problemData p print entries rhs accepted
  let rho := (entries.map fun row => rowBound (row.map (·.2))).foldl maxVal FVal.zero
  let sigma := match rho with | .fin _ m e => if m = 0 then openExp 0 data else ceilLog2 m e | _ => openExp 0 data
  let zero := rhs.all fun c => (f32 c).isZero
  let top := (rhs.map fun c => ((f32 c).abs).scale (-sigma)).foldl maxVal FVal.zero
  let beta := ((accepted.getD []).map fun c => (f32 c).abs).foldl maxVal top
  let e := match beta with
    | .fin _ m x => if m = 0 then openExp 1 data else ceilLog2 m x - 31 + (sbHead p : Int)
    | _ => openExp 1 data
  let fix (k : Int) (c : Nat) : Int := rneInt ((f32 c).scale (k - e))
  let b := satVec (rhs.map (fix (-sigma)))
  let x0 := match accepted with | some w => satVec (w.map (fix 0)) | none => (rhs.map (fun _ => (0 : Int)), false)
  let rows := entries.map fun row => row.map fun c => (c.1, (satFix (rneInt ((f32 c.2).scale (31 - sigma)))).1)
  let pre := factorAll p rhs.length (entries.map fun row => row.map fun c => (c.1, scale32 (-sigma) c.2))
  let l : Loaded :=
    { xCxa := bits v 256 48, rows := rows, blocks := pre.1, e := e, sigma := sigma, print := print
      saturated := !zero && (b.2 || x0.2), pivots := pre.2.1, negPivot := pre.2.2 && !sbMinres p
      warmUsed := accepted.isSome, warmRejected := offered && accepted.isNone, k := 0
      it := .cg { x := x0.1, p := [], r := [], rz := Wide.zero, bn2 := Wide.zero, best := x0.1.map fun _ => 0, best2 := Wide.zero
                  bestK := 0 } }
  if zero then .zero l
  else
    let s := startIterate p l b.1 x0.1
    if s.2 then .zero s.1 else .ready s.1

/-- Load problem `i` of a batch (R235 to R242). -/
def loadProblem (e : Env) (p i : Nat) (r : Run) : LoadResult × Run :=
  let v := r.loadNum e (sbProb p + 64 * i) 64
  let n := bits v.1 0 16
  let nnz := bits v.1 32 32
  let size := v.1 % 2 ^ 64
  if recordBad p v.1 || (n = 0 && nnz ≠ 0) then (.invalid size, v.2)
  else if n = 0 then
    let print := fnv (bytesOf 2 n ++ bytesOf 4 nnz)
    (.empty print (if bitSet v.1 384 then some (bits v.1 320 64 = print) else none), v.2) else
  let ptr := v.2.codes e (bits v.1 64 48) 0 (n + 1)
  let first := ptr.1.getD 0 0
  if !rises false ptr.1 || ptr.1.getD n 0 - first ≠ nnz then (.invalid size, ptr.2) else
  let ents := ptr.2.load e (bits v.1 128 48 + 8 * first) (8 * nnz)
  let words := (chunks 8 ents.1).map numOf
  let rhs := ents.2.codes e (bits v.1 192 48) 0 n
  let rows := splitRows words ptr.1
  let bad := rows.any (fun row => !rises true (row.map fun w => bits w 0 16) || row.any fun w => bits w 0 16 ≥ n)
    || words.any (fun w => bits w 16 16 ≠ 0 || !finite32 (bits w 32 32)) || rhs.1.any (fun c => !finite32 c)
  if bad then (.invalid size, rhs.2) else
  let print := fnv (bytesOf 2 n ++ bytesOf 4 nnz ++ ((ptr.1.drop 1).flatMap fun x => bytesOf 4 (x - first))
    ++ words.flatMap fun w => bytesOf 2 (bits w 0 16))
  let warm := if bitSet v.1 384 && bits v.1 320 64 = print then
      let w := rhs.2.codes e (bits v.1 256 48) 0 n; (some w.1, w.2) else (none, rhs.2)
  (scaleProblem p v.1 print (rows.map fun row => row.map fun w => (bits w 0 16, bits w 32 32)) rhs.1 warm.1, warm.2)

/-! ## Results (R246, R247) -/

/-- A result record (R246). -/
def resultRecord (status outcome flags iters best res ref print e sigma pivots : Nat) : Nat :=
  place status 0 16 + place outcome 16 3 + place flags 19 5 + place iters 32 16 + place best 48 16 + place res 64 32
  + place ref 96 32 + place print 128 64 + place e 192 16 + place sigma 208 16 + place (min pivots 0xFFFF) 224 16

/-- Fields of the record of a problem that its outcome leaves unstated: free values of what is known of the problem (R248). -/
def openField (what data : Nat) : Nat := Config.functionChoice (0x520 + what) data

/-- The record of a problem that was not iterated on. -/
def plainRecord (data status outcome flags res : Nat) (print : Option Nat) : Nat :=
  let n := 8 * data + outcome
  resultRecord status outcome flags 0 0 res res (print.getD (openField 0 n % 2 ^ 64)) (openField 1 n) (openField 2 n) 0

/-- The best iterate of a problem, its iteration, and the two norms (R243 to R245). -/
def Loaded.best (l : Loaded) : List Int × Nat × Nat × Nat :=
  match l.it with
  | .cg s => (s.best, s.bestK, s.best2.sqrt.toCode l.sigma, s.bn2.sqrt.toCode l.sigma)
  | .minres s => (s.x, l.k, s.phibar.toCode l.sigma, s.bnorm.toCode l.sigma)

/-- Write the results of a problem that ended with an outcome: its x, then its record (R246), which is not written where x met a seal
mismatch (R250). -/
def finishProblem (e : Env) (p i : Nat) (l : Loaded) (o : SolveOutcome) (r : Run) : Run :=
  let b := l.best
  let x := b.1.map fun c => round32 .strict (.fin (c < 0) c.natAbs l.e)
  let flag (c : Bool) (n : Nat) : Nat := if c then 2 ^ n else 0
  let flags := flag l.saturated 0 + flag (l.pivots ≠ 0) 1 + flag l.negPivot 2 + flag l.warmUsed 3 + flag l.warmRejected 4
  let rec0 := resultRecord (if o = .deadline then stPartial else stOk) o.code flags l.k b.2.1 b.2.2.1 b.2.2.2 l.print (unsigned l.e 16)
    (unsigned l.sigma 16) l.pivots
  ((r.store e l.xCxa (x.flatMap (bytesOf 4))).settle.store e (sbResult p + 32 * i) (bytesOf 32 rec0)).settle

/-! ## The batch (R248 to R250) -/

/-- What visits did: memory, the CSEs, problems CONVERGED, OK_PARTIAL and other, and counts for the solver registers by die. -/
structure BatchStep where
  run : Run
  cses : List CseRun
  solved : Nat × Nat × Nat
  saturations : List Nat := []
  pivots : List (Nat × Nat) := []
  rejects : List Nat := []

/-- The CSEs of a batch before their first visit: up to 65,536 problems each (R234, R248). -/
def startCses (p : Nat) : List CseRun :=
  let dies := csesOf p
  (dies.zip (List.range dies.length)).map fun d =>
    let mine := (List.range (ceilDiv (sbCount p - d.2) dies.length)).map fun j => d.2 + j * dies.length
    { die := d.1, flight := (mine.take 65536).map fun i => { index := i }, next := d.2 + 65536 * dies.length }

/-- The problem at the place of a round leaves, and the next unloaded one joins unless the deadline has passed (R248, R249). -/
def CseRun.leave (c : CseRun) (p : Nat) (more : Bool) : CseRun :=
  let rest := (c.flight.take c.place) ++ c.flight.drop (c.place + 1)
  let joins := more && c.next < sbCount p
  { c with flight := rest ++ (if joins then [{ index := c.next }] else [])
           next := if joins then c.next + (csesOf p).length else c.next }

/-- One visit of a CSE: load the problem at the place of the round, or advance it by one iteration (R248). A visit that meets a fault
counts nothing (R250). `more`: problems still join. -/
def visit (e0 : Env) (p : Nat) (more : Bool) (b : BatchStep) (c : CseRun) : BatchStep × CseRun :=
  let e := { e0 with part := dieHalf c.die }
  let c0 := if c.place ≥ c.flight.length then { c with place := 0 } else c
  match c0.flight[c0.place]? with
  | none => (b, c0)
  | some pr =>
    let i := pr.index
    let close (b : BatchStep) (r : Run) (b1 : BatchStep) : BatchStep × CseRun :=
      if r.stop.isSome || !r.need.isEmpty then ({ b with run := r }, c0) else ({ b1 with run := r }, c0.leave p more)
    let ended (b : BatchStep) (l : Loaded) (o : SolveOutcome) : BatchStep × CseRun :=
      close b (finishProblem e p i l o b.run) { b with
         solved := if o = .converged then (b.solved.1 + 1, b.solved.2) else (b.solved.1, b.solved.2.1, b.solved.2.2 + 1)
         saturations := if l.saturated then b.saturations ++ [c.die] else b.saturations }
    let kept (b : BatchStep) (l : Loaded) : BatchStep × CseRun :=
      (b, { c0 with flight := c0.flight.set c0.place { pr with data := some l }, place := c0.place + 1 })
    let other (b : BatchStep) (rec0 : Nat) : BatchStep × CseRun :=
      close b (b.run.store e (sbResult p + 32 * i) (bytesOf 32 rec0)).settle
        { b with solved := (b.solved.1, b.solved.2.1, b.solved.2.2 + 1) }
    match pr.data with
    | some l => (match l.step p with | (l1, some o) => ended b l1 o | (l1, none) => kept b l1)
    | none =>
      let x := loadProblem e p i b.run
      let b0 := { b with run := x.2 }
      if x.2.stop.isSome || !x.2.need.isEmpty then (b0, c0) else
      let rejected (no : Bool) (b : BatchStep) : BatchStep := if no then { b with rejects := b.rejects ++ [c.die] } else b
      let counted (l : Loaded) : BatchStep :=
        rejected l.warmRejected { b0 with pivots := if l.pivots ≠ 0 then b0.pivots ++ [(c.die, l.pivots)] else b0.pivots }
      match x.1 with
      | .invalid size => other b0 (plainRecord size stDesc 6 0 Fmt.fp32.nanCode none)
      | .empty print warm =>
        other (rejected (warm = some false) b0)
          (plainRecord 0 stEmpty 5 (match warm with | some true => 8 | some false => 16 | none => 0) 0 (some print))
      | .zero l => ended (counted l) l .converged
      | .ready l => kept (counted l) l

/-- One visit of every CSE that `may` make one. -/
def visitAll (e : Env) (p : Nat) (may : Nat → Bool) (b : BatchStep) : BatchStep :=
  b.cses.foldl (fun acc c =>
    if may c.die then let y := visit e p true acc c; { y.1 with cses := acc.cses ++ [y.2] } else { acc with cses := acc.cses ++ [c] })
    { b with cses := [] }

/-- The deadline has passed for the CSE of a die, by the counter of its half (R249). -/
def State.pastDeadline (s : State) (p d : Nat) : Bool := sbDeadline p ≠ 0 && sbDeadline p ≤ s.now (dieHalf d)

/-- Has the run of a batch met a fault, or does it wait for remote blocks? -/
def BatchStep.stuck (b : BatchStep) : Bool := b.run.stop.isSome || !b.run.need.isEmpty

/-- Loads and iterations that are in progress on a CSE at the deadline complete (R249): the next visits of the round, each of another
problem, and of none that joins. -/
def finishBusy (e : Env) (p : Nat) : Nat → BatchStep → CseRun → BatchStep × CseRun
  | 0, b, c => (b, c)
  | n + 1, b, c => if b.stuck then (b, c) else let y := visit e p false b c; finishBusy e p n y.1 y.2

/-- Unfinished problems of a CSE at the deadline: DEADLINE with the best iterate, or NOT_STARTED (R249). -/
def closeCse (e0 : Env) (p : Nat) (b : BatchStep) (c : CseRun) : BatchStep :=
  let e := { e0 with part := dieHalf c.die }
  let waiting := (List.range (ceilDiv (sbCount p - c.next) (max (csesOf p).length 1))).map fun j =>
    ({ index := c.next + j * (csesOf p).length } : Problem)
  let go (b : BatchStep) (pr : Problem) : BatchStep :=
    let r := match pr.data with
      | some l => finishProblem e p pr.index l .deadline b.run
      | none => (b.run.store e (sbResult p + 32 * pr.index) (bytesOf 32 (plainRecord 0 stPartial 4 0 Fmt.fp32.nanCode none))).settle
    if r.stop.isSome || !r.need.isEmpty then { b with run := r } else
    { b with
      run := r
      solved := (b.solved.1, b.solved.2.1 + 1, b.solved.2.2)
      saturations := match pr.data with | some l => if l.saturated then b.saturations ++ [c.die] else b.saturations | none => b.saturations }
  (c.flight ++ waiting).foldl go b

/-- A CSE at the deadline: `busy` visits complete, and every unfinished problem ends (R249). -/
def deadlineCse (e : Env) (p busy : Nat) (b : BatchStep) (c : CseRun) : BatchStep :=
  let x := finishBusy e p (min busy c.flight.length) b c
  if x.1.stuck then { x.1 with cses := x.1.cses ++ [x.2] }
  else let y := closeCse e p x.1 x.2; { y with cses := y.cses ++ [{ x.2 with flight := [], next := sbCount p }] }

/-- The CSEs of a batch that have passed the deadline end their problems. `busy` gives the visits in progress at each. -/
def deadlineAll (e : Env) (p : Nat) (late : Nat → Bool) (busy : Nat → Nat) (b : BatchStep) : BatchStep :=
  b.cses.foldl (fun acc k => if late k.die then deadlineCse e p (busy k.die) acc k else { acc with cses := acc.cses ++ [k] })
    { b with cses := [] }

/-- Visits in progress on a CSE at the deadline, at most 8: timing, a free value, but none in a batch that was admitted or resumed after
the deadline (R249). -/
def State.busyVisits (s : State) (c : Cmd) (die : Nat) : Nat :=
  if sbDeadline c.packet ≤ max c.admitted c.resumed then 0 else (Config.freeWord (s.drawnFree + die)).toNat % 9

/-- Bring the outcome of visits into the module: registers, memory, and the end of the batch once no problem is left (R247). -/
def State.applyBatch (s : State) (h : Half) (c : Cmd) (e : Env) (b : BatchStep) : State :=
  let p := c.packet
  if !b.run.need.isEmpty then s.applyRun h c e b.run fun _ => okResult 0 0 0 else
  let s1 := b.saturations.foldl (fun t d => t.countCse d 5 1) s
  let s2 := b.pivots.foldl (fun t d => t.countCse d.1 6 d.2) s1
  let s3 := b.rejects.foldl (fun t d => t.countCse d 7 1) s2
  let size := sbSlot p * sbCount p
  if b.run.stop.isSome then (s3.applyRun h { c with solver := none } e b.run fun _ => okResult 0 0 0).veilRange e (sbScratch p) size
  else if b.cses.all fun k => k.flight.isEmpty then
    let res := okResult b.solved.1 b.solved.2.1 b.solved.2.2
    (s3.applyRun h { c with solver := none } e b.run fun _ =>
      { res with status := if b.solved.2.1 = 0 then stOk else stPartial }).veilRange e (sbScratch p) size
  else s3.applyPart h c e b.run { c with solver := some b.cses, solved := b.solved, idle := 0, idleOther := 0 }

/-- SOLVE_BATCH: one visit of each CSE whose deadline has not passed (R248). The row is performed again until the batch ends. -/
def execSolveBatch (id : Nat) (s : State) : Host.Outcome State Fault Refusal :=
  .next (onCommand s id 0x0501 (fun _ => true) fun s h c =>
    let p := c.packet
    let e := s.envCmd h c
    let b : BatchStep := { run := { mem := s.view }, cses := c.solver.getD (startCses p), solved := c.solved }
    if b.cses.all fun k => s.pastDeadline p k.die then s
    else s.applyBatch h c e (visitAll e p (fun d => !s.pastDeadline p d) b))

/-- SOLVE_DEADLINE: at the deadline stroke the loads and iterations in progress, at most 8 on each CSE, complete, and every
unfinished problem ends (R249). How many were in progress is timing, so it is a free value. -/
def execSolveDeadline (id : Nat) (s : State) : Host.Outcome State Fault Refusal :=
  .next (onCommand s id 0x0501 (fun _ => true) fun s h c =>
    let p := c.packet
    let e := s.envCmd h c
    let b : BatchStep := { run := { mem := s.view }, cses := c.solver.getD (startCses p), solved := c.solved }
    if b.cses.any fun k => !k.flight.isEmpty && s.pastDeadline p k.die then
      { s with drawnFree := s.drawnFree + 8 }.applyBatch h c e (deadlineAll e p (s.pastDeadline p) (s.busyVisits c) b)
    else s)

end Sys2Proof.Machine
end

