-- ==== Sys2Proof/Machine/Live.lean ====
section
/-! DEFINITION. What a read of a register gives (R9, R78): the fields that report other state (R44, R55, R130, R155, R208, R231, R232,
R253, R280, R310, R334, R342, R371, R406, R411, R449, R471), and the counts that a read clears. -/

namespace Sys2Proof.Machine

/-- Draw `i` of the free values of a register read. -/
def State.fresh (s : State) (i : Nat) : Nat := (Config.freeWord (s.drawnFree + i)).toNat

/-- The admitted command that occupies a tile, if there is one (R127). -/
def State.tileUser (s : State) (g : Nat) : Option Cmd :=
  (s.allCmds.find? fun c => (tilesOf c.2.packet).contains g).map (·.2)

/-- The program of a TILE_RUN on a tile. -/
def State.tileRun? (s : State) (g : Nat) : Option TileRun := (s.tileUser g).bind fun c => find g c.tiles

/-- Does a tile hold a suspended program (R129)? -/
def State.tileSuspended (s : State) (g : Nat) : Bool :=
  [s.q, s.k].any fun x => x.suspended.any fun c => (find g c.tiles).isSome

/-- MXE_STATUS (R130). Without a program on the tile PC is its reset value until one has run there, then a free value. -/
def State.mxeStatus (s : State) (g : Nat) : Nat :=
  let t := s.tileRun? g
  let opened (f : TileRun → Bool) : Nat := match t with | some r => if f r then 1 else 0 | none => 0
  place (if (s.tileUser g).isSome then 1 else 0) 0 1 + place (opened fun r => r.open0) 1 1
    + place (opened fun r => r.open1) 2 1 + place (if s.tileSuspended g then 1 else 0) 3 1
    + place (match t with
        | some r => r.pc
        | none => bits ((s.half (tileHalf g)).cell (tileHalf g) (regKey bMXE (g / 48 % 4) (g % 48) 1)) 8 18) 8 18

/-- VXE_STATUS (R148). Whether the oldest op of the queue is in flight at the stroke of the read is left open. DESIGN CHOICE (log
entry 72): QUEUED counts every op that has been queued and has not completed, the one in flight too, and reads 0 while a VECTOR, which
has no queue of op words, occupies the tile. -/
def State.vxeStatus (s : State) (g : Nat) : Nat :=
  let n := match s.tileRun? g with | some r => (r.queued.filter (·.queue = 1)).length | none => 0
  let works : Bool := match s.tileUser g with | some c => pkOpcode c.packet = 0x0204 || n > 0 | none => false
  place (if works then s.fresh 0 else 0) 0 1 + place n 1 5

/-- GRU_STATUS (R231). Whether a capturing MMA is in flight at the stroke of the read is left open. -/
def State.gruStatus (s : State) (g : Nat) : Nat :=
  match s.tileRun? g with
  | some r =>
    let captures := r.queued.any fun o => opOpc o.word = 0x10 && bitSet o.word 75
    let now := match r.queued.find? (·.queue = 0) with | some o => o.target | none => r.target
    place (if captures then s.fresh 0 else 0) 0 1 + place (if r.target.isSome then 1 else 0) 1 1
      + place (match now with | some t => t.window | none => 0) 16 16
  | none =>
    let captures : Bool := match s.tileUser g with | some c => pkOpcode c.packet = 0x0203 && mmCapture c.packet && c.works && c.held.isNone | none => false
    place (if captures then s.fresh 0 else 0) 0 1

/-- OP of CSE_STATUS for the commands that occupy a CSE (R232, R253). -/
def cseOp (op : Nat) : Nat := match op with | 0x0402 => 1 | 0x0403 => 2 | 0x0401 => 3 | 0x0501 => 5 | _ => 0

/-- CSE_STATUS (R232). The iteration that a command is in at the stroke of the read is left open. A capture fold runs on the CSE of the
die of TILE_FIRST (R215). DESIGN CHOICE (log entry 72): while a command occupies the CSE, OP names it, also when a fold is due there. -/
def State.cseStatus (s : State) (d : Nat) : Nat :=
  let user := s.allCmds.find? fun c => (csesOf c.2.packet).contains d
  let fold := s.allCmds.any fun c => c.2.partials.isSome && (tileSpan c.2.packet).1 / 48 = d
  match user with
  | some c => place (cseOp (pkOpcode c.2.packet)) 0 3 + place (s.fresh 0) 8 8
  | none => if fold then 4 else 0

/-- Problems in flight at a CSE (R253). -/
def State.inFlight (s : State) (d : Nat) : Nat :=
  total (s.allCmds.map fun c => match c.2.solver with
    | some ks => total ((ks.filter (·.die = d)).map fun k => k.flight.length)
    | none => 0)

/-- UPU_STATUS (R280). -/
def State.upuStatus (s : State) (d : Nat) : Nat :=
  match s.allCmds.find? fun c => (upusOf c.2.packet).contains d with
  | none => 0
  | some c =>
    let op := match pkOpcode c.2.packet with | 0x0602 => 2 | 0x0603 => 3 | _ => 1
    place 1 0 1 + place op 1 2 + place (if op = 3 && c.2.digest.isSome && c.2.verdict.isNone && c.2.done.isNone then 1 else 0) 3 1

/-- Row fetches of the EME of a die that other modules have not answered. -/
def State.fetchesOut (s : State) (d : Nat) : Nat :=
  total ([s.q, s.k].map fun x => (x.unacked.filter fun u =>
    match u.frame.row, u.cmd.bind s.cmd? with
    | .request _ _, some c => c.2.fetchDies.any fun e => e.1 = u.frame.arg && e.2 = d
    | _, _ => false).length)

/-- EME_STATUS (R310). Fetches in flight beyond those that other modules have not answered, and whether a
refresh that is due runs at the stroke of the read, are left open. -/
def State.emeStatus (s : State) (d : Nat) : Nat :=
  let n := (s.allCmds.filter fun c => (emesOf c.2.packet).contains d).length
  let h := halfOfDie d
  let x := s.half h
  let due : Bool := match x.resident with
    | some c => (x.ctx c).hotSets.any fun k => k.die = d && k.isDue x.count
    | none => false
  let out := min 4096 (s.fetchesOut d)
  place (if n > 0 then 1 else 0) 0 1 + place (min n 7) 1 3
    + place (if n > 0 then out + s.fresh 0 % (4097 - out) else 0) 4 13
    + place (if due then s.fresh 1 else 0) 17 1

/-- Migrations of a context that a die takes part in as source, in COPYING or FORWARDING (R334). -/
def State.migrating (s : State) (d : Nat) : Nat :=
  let h := halfOfDie d
  match (s.half h).resident with
  | none => 0
  | some c => total ((s.ctxAny h c).tables.map fun t =>
      (t.2.moves.filter fun m => m.source.die = d && m.source.pos = (s.half h).myPos h && m.phase < 2 && (s.cmd? m.cmd).isSome).length)

/-- Does a die hold requests for rows that have not arrived, from other modules or from commands here (R329, R334)? -/
def State.holdsRows (s : State) (d : Nat) : Bool :=
  let h := halfOfDie d
  let request (f : Frame) : Bool := match f.row with | .request _ _ => f.addr % 8 = d | _ => false
  s.allCmds.any (fun c => c.2.done.isNone && c.2.heldAt.contains d) || match (s.half h).resident with
  | none => false
  | some c => ((s.half h).ctx c).heldRows.any fun r => request r.2

/-- The mover that runs the ALIASED write of a MOVE or GATHER_BLOCKS alone, while the command is at work (R193, R207). -/
def Cmd.serialMover (c : Cmd) : Option Nat :=
  let aliased : Bool := (pkOpcode c.packet = 0x0301 && !(c.desc 1).disjoint) || (pkOpcode c.packet = 0x0302 && blockAliased c.packet (c.desc 1))
  if aliased && c.done.isNone then (maskMovers c.packet).head? else none

/-- LMV_STATUS of a mover (R208). Whether a SCATTER_BLOCKS waits on it for an earlier entry with the same coordinates at the stroke of the
read is left open. -/
def State.lmvStatus (s : State) (key : Nat) : Nat :=
  let n := s.moverLoad key
  let repeats := s.allCmds.any fun c =>
    pkOpcode c.2.packet = 0x0303 && c.2.done.isNone && bkCount c.2.packet > 1 && (maskMovers c.2.packet).contains key
  let serial := if s.allCmds.any fun c => c.2.serialMover = some key then 1 else if repeats then s.fresh 0 else 0
  place (if n > 0 then 1 else 0) 0 1 + place n 1 3 + place serial 4 1

/-- WSE_STATUS (R371): a stream is held when its frames wait for credit on a torus port. -/
def State.wseStatus (s : State) (h : Half) : Nat :=
  let n := (s.streams.filter fun c => wsHalf (wsUp c.2.packet) = h && c.2.stream.isSome && c.2.done.isNone).length
  let holding := [0, 1, 2, 3].any fun i => ((s.half h).port i).queue.any fun f => f.type = 0x7
  place n 0 3 + place (if holding then 1 else 0) 3 1

/-- CLE_STATUS (R406). -/
def State.cleStatus (s : State) (h : Half) : Nat :=
  let x := s.half h
  let proxies := match x.resident with | some c => ((x.ctx c).colls.filter (·.proxy)).length | none => 0
  place (s.cleLoad h) 0 3 + place proxies 3 5

/-- CMP_STAGE_n (R410, R411). -/
def HalfState.stageReg (x : HalfState) (n : Nat) : Nat :=
  match x.resident with
  | some c => place ((x.ctx c).heldMib n) 0 32 + place ((x.ctx c).hwm.at n) 32 32
  | none => 0

/-- The earliest escalation deadline and its source, the lowest among equals (R449). -/
def earliest : List (Nat × Nat) → Option (Nat × Nat)
  | [] => none
  | e :: rest => match earliest rest with
    | some b => if b.2 < e.2 then some b else some e
    | none => some e

/-- The fields of a hub register that report other state. -/
def State.liveHub (s : State) (h : Half) (block index base : Nat) : Nat :=
  let x := s.half h
  if block = bSTU && index = 0 then x.count
  else if block = bCSC then
    match index with
    | 1 => setBits base 16 16 (x.level / 10 ^ 12)
    | 2 => setBits base 16 16 (x.debt / 10 ^ 12)
    | 5 => place x.tjMax 0 8 + place x.derate 8 8
    | _ => base
  else if block = bFCL then
    match index, earliest x.deadlines with
    | 1, some e => setBits (setBits base 0 1 1) 1 10 e.1
    | 2, some e => e.2
    | _, _ => base
  else if block = bSIPHON && index = 1 then place s.siphon 0 3 + place s.lanesRepaired 8 8
  else if block = bCMP && index < 8 then x.stageReg index
  else if block = bCLE && index = 0 then s.cleStatus h
  else if block = bWSE && index = 0 then s.wseStatus h
  else if block = bGAU then
    match index with
    | 1 => place (if x.frozen.isSome then 1 else 0) 0 1
        + place (match x.frozen with | some z => if z.late then 1 else 0 | none => 0) 1 1
        + place (if x.trace.on then 1 else 0) 2 1 + place (if x.pendingFreeze.isSome then 1 else 0) 3 1
        + place (bits base 8 24) 8 24 + place (match x.frozen with | some z => z.freezeId | none => 0) 32 32
    | 2 => match x.frozen with | some z => z.stroke | none => 0
    | 3 => place x.trace.next 0 21 + place (if x.trace.wrapped then 1 else 0) 21 1 + place x.trace.drops 32 32
    | _ => base
  else base

/-- Lines of the hot-set ways that rows use at a Wellhead (R310). -/
def Well.hotLines (w : Well) : Nat := total (w.hot.map fun r => r.lines.length)

/-- What a read of a register gives, before it clears counts (R78). A stack is in self-refresh while its domain is gated (R335).
Temperature and ECS count of a stack that is not OFF are what its sensors say, and free. -/
def State.liveReg (s : State) (h : Half) (k : Nat) : Nat :=
  let x := s.half h
  let block := k / 2 ^ 17
  let die := k / 2 ^ 14 % 8
  let unit := k / 256 % 64
  let index := k % 256
  let base := x.cell h k
  let tile := 192 * h.part + 48 * die + unit
  let d := 4 * h.part + die
  if block = bLMV then (if index = 0 then s.lmvStatus (moverKey h.part die unit) else base)
  else if die = 4 then s.liveHub h block index base
  else if block = bMXE then (if index = 1 then s.mxeStatus tile else base)
  else if block = bVXE then (if index = 1 then s.vxeStatus tile else base)
  else if block = bGRU then (if index = 0 then s.gruStatus tile else base)
  else if block = bHBM then
    (if index = 1 && bits base 0 3 ≠ 0 then
      setBits (setBits (setBits base 0 3 (if bits base 0 3 = 2 && x.gated.contains (3 * die + 1) then 3 else bits base 0 3))
        8 8 (s.fresh 0)) 24 8 (s.fresh 1) else base)
  else if block = bCSE then (if index = 1 then s.cseStatus d else if index = 4 then s.inFlight d else base)
  else if block = bUPU then (if index = 0 then s.upuStatus d else base)
  else if block = bEME then
    (if index = 0 then s.emeStatus d
      else if index = 4 then place (s.migrating d) 0 4 + place (if s.holdsRows d then 1 else 0) 4 1 else base)
  else if block = bWH then (if index = 5 then place ((x.wells.getD die {}).hotLines) 0 16 else base)
  else base

/-- A register with its read-clear fields at zero. -/
def clearedCell (fs : List Field) (v : Nat) : Nat := fs.foldl (fun w f => if f.acc = .rc then setBits w f.lo f.width 0 else w) v

/-- Fields that software reads: write-only fields read as zero (R9). -/
def shownCell (fs : List Field) (v : Nat) : Nat := fs.foldl (fun w f => if f.acc = .wo then setBits w f.lo f.width 0 else w) v

/-- A read of a register: its value, and the state after it, whose read-clear counts are zero (R9, R78). -/
def State.readReg (s : State) (h : Half) (k : Nat) : Nat × State :=
  let fs := (keyFields h k).getD []
  let v := shownCell fs (s.liveReg h k)
  let s1 : State := { s with drawnFree := s.drawnFree + 2 }
  (v, if fs.any (fun f => f.acc = .rc) then s1.modHalf h fun x => x.setCell k (clearedCell fs (x.cell h k)) else s1)

end Sys2Proof.Machine
end

