-- ==== Sys2Proof/Machine/Faults.lean ====
section
/-! DEFINITION. Faults as the Fault Collector sees them (R427 to R438): occurrences of sources, wire faults, escalation, watchdogs,
heartbeats, acknowledgement and forcing; and the collection of a resetting half's state (R444, R445). -/

namespace Sys2Proof.Machine

/-! ## Occurrences and wire faults (R427, R429, R436) -/

/-- The power domain that a source lies in, by index within its half (R67, R428). -/
def sourceDomain (n : Nat) : Nat :=
  if n < 0x100 then (if 0x028 ≤ n && n ≤ 0x02B then 13 else 16) else
  let d := (n - 0x100) / 0x80
  let o := (n - 0x100) % 0x80
  if o < 0x60 then 3 * d else if o = 0x62 || (0x67 ≤ o && o ≤ 0x70) then 3 * d + 1 else 3 * d + 2

/-- Is the pair of a source sampled: its half is powered, and its domain not gated (R427)? -/
def HalfState.samples (x : HalfState) (n : Nat) : Bool := x.boot ≠ .off && !x.gated.contains (sourceDomain n)

/-- Does a source report an engine fault, which stops the work of a command (R428)? -/
def isEngineFault (n : Nat) : Bool :=
  (0x028 ≤ n && n ≤ 0x02B) || (0x100 ≤ n && n < 0x300 && 0x30 ≤ (n - 0x100) % 0x80 && (n - 0x100) % 0x80 < 0x67)

/-- Does a command occupy the engine that a source of a half reports? -/
def engineServes (h : Half) (n : Nat) (c : Cmd) : Bool :=
  let p := c.packet
  if n = 0x028 then isCollectiveOn h c
  else if n = 0x029 then pkOpcode p = 0x0801 && wsHalf (wsUp p) = h
  else if n = 0x02A || n = 0x02B then (moversOf p).contains (moverKey h.part 4 (n - 0x02A))
  else
    let d := (n - 0x100) / 0x80
    let o := (n - 0x100) % 0x80
    let g := 4 * h.part + d
    if o < 0x60 then (tilesOf p).contains (48 * g + (o - 0x30))
    else if o = 0x60 then (csesOf p).contains g
    else if o = 0x61 then (upusOf p).contains g
    else if o = 0x62 then (emesOf p).contains g
    else (moversOf p).contains (moverKey h.part d (o - 0x63))

/-- An engine fault meets a command: it ends there, or, if it met an error in the same stroke, with the higher ranked of the two
(R14). -/
def State.engineFault (s : State) (g : Half) (c : Cmd) (r : Result) : State :=
  match c.done with
  | none => s.finish g { c with tiles := [] } r
  | some d => if isError d.status && c.doneAt = s.now g then s.setCmd g { c with done := some (worse d r) } else s

/-- FAULT_OCCURRENCE: the pair of a source asserts (R427). An engine fault ends the command whose work it stopped (R128, R428);
without such a command it affected background work of the resident context (R436). -/
def execFaultOccurrence (h : Half) (source id : Nat) (s : State) : Host.Outcome State Fault Refusal :=
  .next (
    let x := s.half h
    if !x.samples source then s else
    match s.cmd? id with
    | some (g, c) =>
      if isEngineFault source && !engineServes h source c then s else
      let s1 := if isEngineFault source then s.engineFault g c (engineResult h source) else s
      s1.occur h source c.ctx
    | none => s.occur h source (match sourceInfo h source with | some i => if i.context then x.resident else none | none => none))

/-- The wire-fault source of the die that holds the pair of a source (R427, R428). -/
def wireSource (n : Nat) : Nat := if n < 0x100 then 0x0FF else dieSourceNum ((n - 0x100) / 0x80) 0x7F

/-- WIRE_FAULT: equal rails mask a pair; FCL_WIRE_LAST records it, and the die's wire-fault source raises an occurrence (R427). -/
def execWireFault (h : Half) (source : Nat) (s : State) : Host.Outcome State Fault Refusal :=
  .next (
    let x := s.half h
    if (sourceInfo h source).isNone || !x.samples source || bitSet (x.sev h source) 6 then s else
    let s1 := s.modHalf h fun y =>
      let z := y.setField h (sevKey source) 6 1 1
      let w := z.cell h (hubKey bFCL 4)
      z.setCell (hubKey bFCL 4) (place source 0 10 + place 1 10 1 + place (bits w 16 11 + 1) 16 11)
    s1.occur h (wireSource source) none)

/-! ## Escalation, acknowledgement, forcing (R431 to R433) -/

/-- ESCALATION: a deadline reached while its source is still sticky resets the half (R432). -/
def execEscalation (h : Half) (s : State) : Host.Outcome State Fault Refusal :=
  .next (match earliest (s.half h).deadlines with
    | some e => if e.2 ≤ s.now h && (s.half h).boot ≠ .off then s.halfReset h e.1 2 else s
    | none => s)

/-- Writing 1 to STICKY of a source clears it and disarms its deadline; a deadline whose stroke has come was tested first (R432). -/
def HalfState.ackSource (x : HalfState) (h : Half) (n : Nat) : HalfState :=
  if (sourceInfo h n).isNone || x.boot = .off then x else
  let late : Bool := match find n x.deadlines with | some t => t ≤ x.count | none => false
  { x.setField h (sevKey n) 2 1 0 with deadlines := if late then x.deadlines else drop n x.deadlines }

/-- Writing 1 to FORCE of a source: one occurrence at the next stroke (R431). -/
def HalfState.forceSource (x : HalfState) (h : Half) (n : Nat) : HalfState :=
  if (sourceInfo h n).isNone || x.boot = .off || x.forced.contains n then x else { x with forced := x.forced ++ [n] }

def execFclStickyAck (h : Half) (source : Nat) (s : State) : Host.Outcome State Fault Refusal :=
  .next (s.modHalf h fun x => x.ackSource h source)

def execFclForce (h : Half) (source : Nat) (s : State) : Host.Outcome State Fault Refusal :=
  .next (s.modHalf h fun x => x.forceSource h source)

/-- An occurrence that a stroke samples: its source, the context it affects, and whether FORCE produced it (R427, R431). -/
structure Sampled where
  source : Nat
  affected : Option Nat := none
  forced : Bool := false
deriving DecidableEq, Repr

/-- Put an occurrence into a list in ascending source number, after its equals (R433). -/
def insertSampled (o : Sampled) : List Sampled → List Sampled
  | [] => [o]
  | p :: rest => if o.source < p.source then o :: p :: rest else p :: insertSampled o rest

/-- The occurrences that wait for the next stroke of a half, in the order in which it handles them (R433). A forced occurrence of a CONTEXT
source affects the resident context (R431). -/
def HalfState.sampled (x : HalfState) (h : Half) : List Sampled :=
  let ctx (n : Nat) : Option Nat := match sourceInfo h n with | some i => if i.context then x.resident else none | none => none
  (x.sealsMet.map (fun m => ({ source := sealSource m.1, affected := m.2 } : Sampled)) ++ x.asserted.map (fun n => ({ source := n } : Sampled))
    ++ x.forced.map fun n => ({ source := n, affected := ctx n, forced := true } : Sampled)).foldl (fun l o => insertSampled o l) []

/-- The occurrences sampled at the start of a stroke (R427, R431, R433): a HARD one among them leaves of the SOFT ones only their STICKY. A
masked pair raises nothing but what FORCE produces. -/
def State.strokeFaults (s : State) (h : Half) : State :=
  let x := s.half h
  let os := x.sampled h
  let hard := os.any fun o => bits (x.sev h o.source) 0 2 = 3
  let noted := x.sealsMet.foldl (fun (u : State) m => u.noteSeal m.1)
    (s.modHalf h fun y => { y with sealsMet := [], asserted := [], forced := [] })
  os.foldl (fun t o => if bitSet ((t.half h).sev h o.source) 6 && !o.forced then t else t.occurUnmasked h o.source o.affected hard) noted

/-! ## Watchdogs (R437, R438) -/

def srcWatchdog : Nat := 0x04B

/-- What a command ends with whose budget has passed: an error that its engines met before it comes first (R14). -/
def expiredResult (c : Cmd) (r : Result) : Result :=
  match c.done with | some d => if isError d.status then d else r | none => r

/-- A command no longer waits for the acknowledgement of what it sent. -/
def State.abandonFrames (s : State) (id : Nat) : State :=
  let go (x : HalfState) : HalfState :=
    { x with unacked := x.unacked.map fun u => if u.cmd = some id then { u with cmd := none } else u }
  { s with q := go s.q, k := go s.k }

/-- Does a count of strokes reach the budget of a half's watchdogs (R437)? A budget of zero disables them. -/
def HalfState.outOfBudget (x : HalfState) (h : Half) (idle : Nat) : Bool := x.budget h ≠ 0 && x.budget h * 1000 ≤ idle

/-- The count of the watchdog of a command that has expired: the home half's, or that of the other half, whose part of a mirrored command
makes no progress (R437). -/
def State.expired (s : State) (h : Half) (c : Cmd) : Option Nat :=
  if (s.half h).outOfBudget h c.idle then some c.idle
  else if c.twoHalf && (s.half h.other).outOfBudget h.other c.idleOther then some c.idleOther
  else none

/-- WATCHDOG_EXPIRY: a command without progress for its budget stops, and ends with ERR_TIMEOUT (R437). -/
def execWatchdogExpiry (id : Nat) (s : State) : Host.Outcome State Fault Refusal :=
  .next (match s.cmd? id with
    | some (h, c) =>
      if c.phase ≠ .running || c.stopWith.isSome || (c.done.isSome && !s.hasUnacked id) then s else
      match s.expired h c with
      | none => s
      | some n =>
        let r : Result := { status := stTimeout, d0 := rsWatchdog, d1 := sat32 n }
        ((s.abandonFrames id).finish h { c with tiles := [], waiting := false } (expiredResult c r)).occur h srcWatchdog c.ctx
    | none => s)

/-- HEARTBEAT_MISSED: a management core has not signalled for 100 ms (R438). -/
def execHeartbeatMissed (h : Half) (core : Nat) (s : State) : Host.Outcome State Fault Refusal :=
  .next (if core < 4 && (s.half h).running && (s.half h).heartbeatOn then s.occur h 0x001 none else s)

/-! ## Collection (R444, R445) -/

/-- Every source of a half, ascending. -/
def sourcesOf (h : Half) : List Nat := (List.range 0x400).filter fun n => (sourceInfo h n).isSome

/-- The instances of each block (R79): block, dies, units, and a bound for its indices. -/
def blockSpans : List (Nat × List Nat × Nat × Nat) :=
  [(bSTU, [4], 1, 4), (bCSC, [4], 1, 22), (bFCL, [4], 5, 256), (bSIPHON, [4], 1, 3), (bCMP, [4], 1, 11), (bCLE, [4], 1, 2),
   (bWSE, [4], 1, 2), (bLMV, [0, 1, 2, 3, 4], 4, 3), (bMXE, [0, 1, 2, 3], 48, 5), (bVXE, [0, 1, 2, 3], 48, 4),
   (bGRU, [0, 1, 2, 3], 48, 2), (bCSE, [0, 1, 2, 3], 1, 8), (bUPU, [0, 1, 2, 3], 1, 5), (bEME, [0, 1, 2, 3], 1, 8),
   (bWH, [0, 1, 2, 3], 1, 6), (bHBM, [0, 1, 2, 3], 3, 6), (bLNK, [4], 5, 6), (bGAU, [0, 1, 2, 3, 4], 1, 5)]

/-- Every register of a half, by key. -/
def registersOf (h : Half) : List Nat :=
  (blockSpans.flatMap fun b => b.2.1.flatMap fun d => (List.range b.2.2.1).flatMap fun u =>
    (List.range b.2.2.2).map fun i => regKey b.1 d u i).filter fun k => (keyFields h k).isSome

/-- Registers that hold only RO and RC fields (R445). -/
def readOnlyRegs (h : Half) : List Nat :=
  (registersOf h).filter fun k => ((keyFields h k).getD []).all fun f => f.acc = .ro || f.acc = .rc

/-- The address word of a register in a REG_READ entry (R78). -/
def entryAddr (h : Half) (k : Nat) : Nat :=
  place h.part 0 1 + place (k / 2 ^ 14 % 8) 1 3 + place (k / 256 % 64) 4 6 + place (k / 2 ^ 17) 10 6 + place (k % 256) 16 8

/-- Free bytes of the record, where R445 names contents and no layout. -/
def freeBytes (base n : Nat) : List Nat := (List.range n).map fun i => (Config.freeByte base i).toNat

/-- A section: heading, then a body padded to 64 bytes (R445). -/
def recordSection (kind : Nat) (body : List Nat) : List Nat :=
  bytesOf 16 (place kind 0 8 + place body.length 32 64) ++ body ++ List.replicate (roundUp body.length 64 - body.length) 0

/-- The sections of the record of a half in their order (R445). What R445 gives no layout for, engine and counts of a command, the
fields of a ring, and committed energies, is free. -/
def State.sections (s : State) (h : Half) (resident : Option Nat) : List (List Nat) :=
  let x := s.half h
  let n := s.drawnFree
  let cmds := x.cmds ++ x.suspended
  let hang : List Nat := match resident with | some c => (s.graphReport h c false 0 65535).1 | none => bytesOf 64 (place x.count 128 64)
  let gates : List Nat := match resident with
    | some c => (List.range 2048).flatMap fun i => bytesOf 4 (s.gate c (2048 * h.part + i))
    | none => []
  [recordSection 1 ((sourcesOf h).flatMap fun i => bytesOf 8 (x.sev h i)), recordSection 6 hang,
   recordSection 4 ((cmds.zip (List.range cmds.length)).flatMap fun c => bytesOf 64 (c.1.packet % 2 ^ 512) ++ freeBytes (n + 1 + c.2) 16),
   recordSection 2 (freeBytes n (32 * x.rings.length)), recordSection 3 gates,
   recordSection 7 (((List.range 22).flatMap fun i => bytesOf 8 (s.liveReg h (hubKey bCSC i))) ++ freeBytes (n + 1 + cmds.length) (8 * x.rings.length)),
   recordSection 5 ((readOnlyRegs h).flatMap fun k => bytesOf 8 (entryAddr h k) ++ bytesOf 8 (s.liveReg h k))]

/-- The record of a half whose reset is `r`; `whole` sections of it were written (R445). -/
def State.record (s : State) (h : Half) (r : Reset) (whole : Nat) : List Nat :=
  let body := ((s.sections h r.resident).take whole).flatMap id
  let head := 1 + place h.part 8 1 + place (if whole = 7 then 1 else 0) 9 1 + place r.cause 16 11 + place r.trigger 27 3
    + place whole 32 32 + place r.start 64 64 + place (s.now h) 128 64 + place (64 + body.length) 192 64
  bytesOf 64 head ++ body

/-- COLLECTION_END: the other half has written the record of a resetting half, which it read across the Siphon in the COMMAND class, or
its time has run out (R444); then the switched
domains are reset (R446 step 4). How many sections were whole when the time ran out is left open. -/
def execCollectionEnd (h : Half) (s : State) : Host.Outcome State Fault Refusal :=
  .next (match (s.half h).reset with
    | some r =>
      if !r.collecting then s else
      let o := h.other
      let isOver : Bool := r.start + (s.half o).collectMs o * 100000 ≤ s.now h
      let whole := if isOver then s.fresh 0 % 7 else 7
      let bs := s.record h r whole
      let s1 := s.modHalf h fun x => { x with reset := some { r with collecting := false } }
      let s2 : State := if !s.siphonUp || !s.ready o then s1 else
        let w := (s1.cross h .command bs.length).putMem none [(collectedAt h, bs)]
        if w.2.isSome then w.1 else
        ({ w.1 with drawnFree := w.1.drawnFree + 3 + (s.half h).cmds.length + (s.half h).suspended.length } : State).modHalf o fun x =>
          x.setCell (hubKey bFCL 5) (1 + place (if whole = 7 then 1 else 0) 1 1 + place (ceilDiv bs.length 1024) 8 24)
      s2.resetDomains h
    | none => s)

end Sys2Proof.Machine
end

