-- ==== Sys2Proof/Machine/Gauges.lean ====
section
/-! DEFINITION. Gauges, attribution and traces (R452 to R465) and the global freeze (R466 to R470): GAUGE_READ, TRACE_CTL, FREEZE_ARM,
the firing of a freeze, freeze notices, and the trace queue. -/

namespace Sys2Proof.Machine

/-! ## Selectors (R453 to R455) -/

/-- Does a BUSY instance exist (R454)? -/
def busyExists (inst : Nat) : Bool :=
  let die := bits inst 9 3
  let kind := bits inst 6 3
  let unit := bits inst 0 6
  match kind with
  | 0 => die < 4 && unit < 48
  | 1 => die < 4 && unit < 48
  | 2 => die < 4 && unit < 48
  | 6 => (die < 4 && unit < 4) || (die = 4 && unit < 2)
  | 7 => die = 4 && unit < 3
  | _ => die < 4 && unit = 0

/-- Does a BYTES instance exist in a half (R455)? -/
def bytesExists (h : Half) (inst : Nat) : Bool :=
  let i := bits inst 0 9
  match bits inst 9 3 with
  | 0 => i < 192
  | 1 => i < 192
  | 2 => i < 4
  | 3 => i < 12
  | 4 => i < 10
  | 5 => i < 5
  | 6 => i < 16 || (h = .q && i < 20)
  | _ => false

/-- Does a gauge exist (R454)? -/
def gaugeExists (h : Half) (family inst sub : Nat) : Bool :=
  inst < 4096 &&
  match family with
  | 0x01 => busyExists inst && sub < 2
  | 0x02 => bytesExists h inst && sub < 2
  | 0x03 => (inst < 520) && sub < 8
  | 0x04 => inst < 1024 && sub = 0
  | 0x05 => inst < 4 && sub = 0
  | 0x06 => inst < 4 && sub < 3
  | 0x07 => inst < 80 && sub = 0
  | _ => false

/-! ## GAUGE_READ (R460, R461) -/

def ggSource (p : Nat) : Nat := pl p 0 3
def ggHalf (p : Nat) : Half := Half.ofPart (pl p 3 1)
def ggFamily (p : Nat) : Nat := pl p 8 8
def ggInst (p : Nat) : Nat := pl p 16 12
def ggSub (p : Nat) : Nat := pl p 28 4
def ggFirst (p : Nat) : Nat := pl p 32 32
def ggCount (p : Nat) : Nat := pl p 64 16
/-- Is a source a frozen one? -/
def ggFrozen (p : Nat) : Bool := ggSource p == 1 || ggSource p == 3 || ggSource p == 5

/-- Payload units that results take (R460). -/
def ggUnits (p : Nat) : Nat :=
  match ggSource p with
  | 0 => ceilDiv (ggCount p) 8
  | 1 => ceilDiv (ggCount p) 8
  | 2 => 2 * ggCount p
  | 3 => 2 * ggCount p
  | 6 => ceilDiv (ggCount p) 2
  | _ => ceilDiv (ggCount p) 8

/-- Records of a trace buffer (R463). -/
def traceRecords : Nat := 2097152

/-- Does every gauge, entry or record of the range exist in the half read (R460)? -/
def ggExists (x : HalfState) (p : Nat) : Bool :=
  let last := ggFirst p + ggCount p
  match ggSource p with
  | 0 => (List.range (ggCount p)).all fun i => gaugeExists (ggHalf p) (ggFamily p) (ggInst p + i) (ggSub p)
  | 1 => (List.range (ggCount p)).all fun i => gaugeExists (ggHalf p) (ggFamily p) (ggInst p + i) (ggSub p)
  | 2 => last ≤ 1024
  | 3 => last ≤ 1024
  | 4 => last ≤ 4096
  | 5 => last ≤ 4096
  | _ => last ≤ (if x.trace.wrapped then traceRecords else x.trace.next)

def specGaugeRead : OpSpec where
  ring := .a
  lo := 1
  hi := 64
  head e p :=
    let gauges := ggSource p < 2
    checks [(512, ggSource p = 7 || (ggSource p = 6 && !e.mgmt)), (512 + 8, !gauges && pl p 8 24 ≠ 0),
      (512 + 32, gauges && ggFirst p ≠ 0), (512 + 64, pkUnits p < 1 + ggUnits p)]
    ++ reservedPl p [(4, 4), (80, 432)]
  exam s h p x :=
    let y := x.badWhen (ggHalf p ≠ h && !s.together h) (512 + 3)
    let z := y.badWhen (!ggExists (s.half (ggHalf p)) p) (if ggSource p < 2 then 512 + 8 else 512 + 32)
    { z with empty := ggCount p = 0 }

/-- Does a BYTES gauge count traffic of the half fabric, whose links this model does not follow? -/
def untracked (family inst : Nat) : Bool := family == 0x02 && bits inst 9 3 == 4

/-- Free value `i` of 64 bits. -/
def State.fresh64 (s : State) (i : Nat) : Nat := s.fresh (2 * i) + 2 ^ 32 * s.fresh (2 * i + 1)

/-- Attribution entry `i` (R457, R458): entries stand in the order of their allocation, the overflow entry last. -/
def attrEntry (es : List Attr) (i : Nat) : Option Attr :=
  if i = 1023 then es.find? fun a => a.key = 2 ^ 48 - 1 else (es.filter fun a => a.key ≠ 2 ^ 48 - 1)[i]?

/-- The 128 bytes of an attribution entry; `mine` limits it to one context (R460). -/
def attrBytes (mine : Option Nat) (e : Option Attr) : List Nat :=
  match e with
  | none => List.replicate 128 0
  | some a =>
    if (match mine with | some c => a.key = 2 ^ 48 - 1 || a.key % 16 ≠ c | none => false) then List.replicate 128 0
    else bytesOf 8 a.key ++ (List.range 15).flatMap fun j => bytesOf 8 (a.counts.getD j 0)

/-- The 8 bytes of a staleness entry. -/
def staleBytes (t : Table) (mine : Option Nat) (i : Nat) : List Nat :=
  let v := t.at i
  bytesOf 8 (match mine with | some c => if bits v 32 4 = c then v else 0 | none => v)

/-- Where the trace buffer of a half begins (R340, R463). -/
def traceAt (h : Half) : Nat := hbmAddr h.part 3 2 (32736 * 2 ^ 21)

/-- The values that GAUGE_READ returns from unit 1 on. -/
def State.gaugeValues (s : State) (p : Nat) (mine : Option Nat) : List Nat :=
  let h := ggHalf p
  let x := s.half h
  let idx := List.range (ggCount p)
  let gauges (t : Table) : List Nat := idx.flatMap fun i =>
    bytesOf 8 (if untracked (ggFamily p) (ggInst p + i) then s.fresh64 i else t.at (gaugeSel (ggFamily p) (ggInst p + i) (ggSub p)))
  let frozen : Frozen := x.frozen.getD { freezeId := 0, stroke := 0, late := false, gauges := [], attr := [], stale := [], offset := 0 }
  match ggSource p with
  | 0 => gauges x.gauges
  | 1 => gauges frozen.gauges
  | 2 => idx.flatMap fun i => attrBytes mine (attrEntry x.attr (ggFirst p + i))
  | 3 => idx.flatMap fun i => attrBytes mine (attrEntry frozen.attr (ggFirst p + i))
  | 4 => idx.flatMap fun i => staleBytes x.stale mine (ggFirst p + i)
  | 5 => idx.flatMap fun i => staleBytes frozen.stale mine (ggFirst p + i)
  | _ => idx.flatMap fun i => s.view.bytes (traceAt h + 32 * (ggFirst p + i)) 32

/-- The header that replaces unit 0 (R461). A read takes no time here, so its first and last strokes are one. -/
def State.gaugeHead (s : State) (p : Nat) : List Nat :=
  let h := ggHalf p
  let x := s.half h
  bytesOf 64 (match ggFrozen p, x.frozen with
    | true, some z => place z.stroke 0 64 + place z.stroke 64 64 + place z.offset 128 64 + place z.freezeId 192 32
        + place (if z.late then 1 else 0) 224 1
    | _, _ => place x.count 0 64 + place x.count 64 64 + place (x.epochOffset h) 128 64)

/-- GAUGE_READ (R460, R461). -/
def execGaugeRead (id : Nat) (s : State) : Host.Outcome State Fault Refusal :=
  .next (onCommand s id 0x0008 (fun _ => true) fun s h c =>
    let p := c.packet
    if ggFrozen p && (s.half (ggHalf p)).frozen.isNone then s.finish h c emptyResult else
    let damage := if ggSource p < 6 then none else s.view.damageIn (traceAt (ggHalf p) + 32 * ggFirst p) (32 * ggCount p)
    if damage.isSome then (s.finish h c (sealResult (damage.getD 0))).sealFault (damage.getD 0) c.ctx else
    let bs := s.gaugeHead p ++ s.gaugeValues p c.ctx
    ({ s with drawnFree := s.drawnFree + 2 * ggCount p } : State).finish h c { okResult 0 0 0 with payload := some bs })

/-! ## Traces (R463, R464) -/

def tcOp (p : Nat) : Nat := pl p 0 3
def tcHalf (p : Nat) : Half := Half.ofPart (pl p 3 1)

def specTraceCtl : OpSpec where
  ring := .m
  lo := 1
  hi := 1
  head _ p :=
    checks [(512, tcOp p = 0 || 4 < tcOp p), (512 + 4, tcOp p ≠ 1 && pl p 4 1 ≠ 0),
      (512 + 16, if tcOp p = 1 then bitSet (pl p 16 16) 0 || pl p 26 6 ≠ 0 else pl p 16 16 ≠ 0)]
    ++ reservedPl p [(5, 11), (32, 480)]
  exam s h p x := x.badWhen (tcHalf p ≠ h && !s.together h) (512 + 3)

/-- The work of a TRACE_CTL operation on the half it names. -/
def traceCtl (s : State) (id op : Nat) (f : HalfState → Half → Nat → HalfState) : State :=
  onCommand s id 0x0009 (fun c => tcOp c.packet = op) fun s h c =>
    let g := tcHalf c.packet
    (s.modHalf g fun x => f x g c.packet).finish h c (okResult 0 0 0)

/-- START: tracing begins, with a KIND 9 record (R463). -/
def execTraceCtlStart (id : Nat) (s : State) : Host.Outcome State Fault Refusal :=
  .next (traceCtl s id 1 fun x g p =>
    ({ x with trace := { x.trace with on := true, wrap := pl p 4 1 = 1, mask := pl p 16 16 } } : HalfState).traceEvent 9 0 0 (x.epochOffset g))

/-- STOP: records already queued are still written. -/
def execTraceCtlStop (id : Nat) (s : State) : Host.Outcome State Fault Refusal :=
  .next (traceCtl s id 2 fun x _ _ => { x with trace := { x.trace with on := false } })

/-- RESET: write index 0, WRAPPED and DROPS clear. -/
def execTraceCtlReset (id : Nat) (s : State) : Host.Outcome State Fault Refusal :=
  .next (traceCtl s id 3 fun x _ _ => { x with trace := { x.trace with next := 0, wrapped := false, drops := 0 } })

/-- CLEAR_ATTR: the attribution table is cleared at one stroke. -/
def execTraceCtlClearAttr (id : Nat) (s : State) : Host.Outcome State Fault Refusal :=
  .next (traceCtl s id 4 fun x _ _ => { x with attr := [] })

/-- TRACE_GAP: once the queue has space again, a record tells how many were dropped (R464). -/
def execTraceGap (h : Half) (s : State) : Host.Outcome State Fault Refusal :=
  .next (s.modHalf h fun x =>
    if x.trace.gap = 0 || 4096 ≤ x.trace.queue.length then x
    else ({ x with trace := { x.trace with gap := 0 } } : HalfState).traceEvent 8 0 0 x.trace.gap)

/-- The oldest queued record is written into the trace buffer (R463, R464). A buffer that is full and may not wrap stops tracing; what
is still queued then is dropped. A record that meets a damaged block is lost (DESIGN CHOICE, log entry 105). -/
def State.drainTrace (s : State) (h : Half) : State :=
  let x := s.half h
  match x.trace.queue with
  | [] => s
  | r :: rest =>
    let t := x.trace
    if traceRecords ≤ t.next && !t.wrap then
      s.modHalf h fun y => { y with trace := { t with on := false, queue := [], drops := sat32 (t.drops + t.queue.length) } }
    else
      let i := t.next % traceRecords
      let full := traceRecords ≤ t.next + 1
      (s.putMem none [(traceAt h + 32 * i, bytesOf 32 r)]).1.modHalf h fun y =>
        { y with trace := { t with
            queue := rest
            next := if t.wrap then (i + 1) % traceRecords else i + 1
            wrapped := t.wrapped || (t.wrap && full)
            on := t.on && !(full && !t.wrap) } }

/-! ## The freeze (R466 to R470) -/

def faMode (p : Nat) : Nat := pl p 0 2
def faMachine (p : Nat) : Bool := pl p 2 1 = 1
def faSource (p : Nat) : Nat := pl p 16 11
def faId (p : Nat) : Nat := pl p 32 32
def faStroke (p : Nat) : Nat := pl p 64 64
def faLead (p : Nat) : Nat := pl p 128 16

def faArm (p : Nat) : FreezeArm :=
  { freezeId := faId p, machine := faMachine p, replace := pl p 3 1 = 1, stopTrace := pl p 4 1 = 1, lead := faLead p }

def specFreezeArm : OpSpec where
  ring := .m
  lo := 1
  hi := 1
  head _ p :=
    let m := faMode p
    checks [(512, m = 3), (512 + 2, m = 2 && pl p 2 3 ≠ 0), (512 + 16, m ≠ 1 && faSource p ≠ 0),
      (512 + 32, if m = 2 then faId p ≠ 0 else faId p = 0), (512 + 64, m ≠ 0 && faStroke p ≠ 0),
      (512 + 128, if m = 1 && faMachine p then faLead p < 1000 else faLead p ≠ 0)]
    ++ reservedPl p [(5, 11), (27, 5), (144, 368)]
  exam s h p x :=
    if faMode p = 1 then
      let g := Half.ofPart (faSource p / 1024)
      x.badWhen ((sourceInfo g (faSource p % 1024)).isNone || (g ≠ h && !s.together h)) (512 + 16)
    else
      let y := x.badWhen (!s.together h) 512
      if faMode p = 0 then y.badWhen (!s.q.slotFree (faStroke p) || !s.k.slotFree (faStroke p)) (512 + 64) else y

/-- FREEZE_ARM_AT_STROKE: an event in each half (R52, R53); with MACHINE the notice goes out at once (R468). -/
def execFreezeArmAtStroke (id : Nat) (s : State) : Host.Outcome State Fault Refusal :=
  .next (onCommand s id 0x0007 (fun c => faMode c.packet = 0) fun s h c =>
    let p := c.packet
    let a := faArm p
    if 8 ≤ s.q.slotsUsed || 8 ≤ s.k.slotsUsed then s else
    let arm (g : Half) (x : HalfState) : HalfState :=
      let y : HalfState := { x with events := x.events ++ [{ stroke := faStroke p, both := true, kind := .freeze a }] }
      if a.machine then { y.floodFreeze g 4 (faStroke p) a with freezeSeen := y.freezeSeen ++ [a.freezeId] } else y
    ((s.modHalf .q (arm .q)).modHalf .k (arm .k)).finish h c (okResult 0 0 0))

/-- FREEZE_ARM_ON_SOURCE: the next occurrence of the source is the trigger (R466). -/
def execFreezeArmOnSource (id : Nat) (s : State) : Host.Outcome State Fault Refusal :=
  .next (onCommand s id 0x0007 (fun c => faMode c.packet = 1) fun s h c =>
    let n := faSource c.packet
    (s.modHalf (Half.ofPart (n / 1024)) fun x => { x with sourceArm := some (n, faArm c.packet) }).finish h c (okResult 0 0 0))

/-- FREEZE_ARM_RELEASE: the frozen sets of both halves are discarded (R466). -/
def execFreezeArmRelease (id : Nat) (s : State) : Host.Outcome State Fault Refusal :=
  .next (onCommand s id 0x0007 (fun c => faMode c.packet = 2) fun s h c =>
    ({ s with q := { s.q with frozen := none }, k := { s.k with frozen := none } } : State).finish h c (okResult 0 0 0))

/-- A freeze fires in a half (R467, R469): it latches unless a set is held that it may not replace, and is traced in any case. -/
def HalfState.fireFreeze (x : HalfState) (h : Half) (a : FreezeArm) (late : Bool) : HalfState :=
  let z0 : Frozen :=
    { freezeId := a.freezeId, stroke := x.count, late := late, gauges := x.gauges, attr := x.attr, stale := x.stale
      offset := x.epochOffset h }
  let y : HalfState := if x.frozen.isSome && !a.replace then x.missFreeze h else { x with frozen := some z0 }
  let z := y.traceEvent 6 0 a.freezeId (x.epochOffset h)
  if a.stopTrace then { z with trace := { z.trace with on := false } } else z

/-- A due freeze of a half, and the half without it: from a slot, earliest stroke first, or from the pending register (R52). -/
def HalfState.dueFreeze (x : HalfState) : Option (FreezeArm × HalfState) :=
  let due (e : Sched) : Option Nat := match e.kind with | .freeze _ => if e.stroke ≤ x.count then some e.stroke else none | _ => none
  let fromPending : Option (FreezeArm × HalfState) := match x.pendingFreeze with
    | some p => if p.stroke ≤ x.count then some (p.arm, { x with pendingFreeze := none }) else none
    | none => none
  match least (x.events.filterMap due) with
  | some n =>
    (match x.events.find? fun e => due e = some n with
    | some e => (match e.kind with
      | .freeze a => some (a, { x with events := x.events.erase e })
      | _ => fromPending)
    | none => fromPending)
  | none => fromPending

/-- FREEZE: a due freeze fires (R50, R52, R467); none fires in a half in reset (R470). -/
def execFreeze (h : Half) (s : State) : Host.Outcome State Fault Refusal :=
  .next (s.modHalf h fun x =>
    if x.resetting then x else
    match x.dueFreeze with
    | some d => d.2.fireFreeze h d.1 false
    | none => x)

/-- A half hears of a freeze for the first time: it is held for its stroke, or fires at once if that has passed (R468). -/
def HalfState.hearFreeze (x : HalfState) (h : Half) (stroke : Nat) (a : FreezeArm) : HalfState :=
  let y : HalfState := { x with freezeSeen := x.freezeSeen ++ [a.freezeId] }
  match y.pendingFreeze with
  | some p => if p.arm.freezeId = a.freezeId then y else y.missFreeze h
  | none => if stroke < y.count then y.fireFreeze h a true else y.pendFreeze h stroke a

/-- FREEZE_NOTICE: the first copy of an identity is forwarded on every other ACTIVE port of the plane and across the Siphon, and
held (R468). -/
def execFreezeNotice (h : Half) (port : Nat) (f : Frame) (s : State) : Host.Outcome State Fault Refusal :=
  let x := s.half h
  let a : FreezeArm :=
    { freezeId := bits f.arg 8 32, machine := true, replace := bitSet f.arg 40, stopTrace := bitSet f.arg 41 }
  .next (if !x.hears h port f 2 then s.unheard h port f 2 else
    let s1 := s.modHalf h fun y => y.countIn port f
    if x.freezeSeen.contains a.freezeId then s1 else
    let stroke := nearStroke x.count f.addr
    let s2 := s1.modHalf h fun y => (y.floodFreeze h port stroke a).hearFreeze h stroke a
    if s2.siphonUp && !(s2.half h.other).resetting && !(s2.half h.other).freezeSeen.contains a.freezeId then
      (s2.cross h .urgent flitBytes).modHalf h.other fun y => (y.floodFreeze h.other 4 stroke a).hearFreeze h.other stroke a
    else s2)

end Sys2Proof.Machine
end

