-- ==== Sys2Proof/Machine/Siphon.lean ====
section
/-! DEFINITION. The Siphon between the hubs (R22 to R33): its states, lane repair, retraining, the merge of generation records
when it comes up, and the seal check of a block that crosses it. -/

namespace Sys2Proof.Machine

/-- SIPHON_RETRIES of a hub (R30). -/
def siphonRetriesKey : Nat := hubKey bSIPHON 2

/-- Two-half contexts that are resident or switching in some half (R33). -/
def State.twoHalfActive (s : State) : List Nat :=
  let active (c : Ctx) : Bool :=
    c.footprint = 3 && (c.st = .resident || c.st = .switchingIn || c.st = .switchingOut)
  ((s.q.ctxs ++ s.k.ctxs).filter active).map (·.id) |>.eraseDups

/-- The Siphon goes DOWN (R23, R33): two-half contexts that are resident or switching are torn down, each READY half reports it, and
the K copy loses its parent (R49). -/
def State.loseSiphon (s : State) : State :=
  if s.siphonUp then
    let s1 : State := { s with siphon := 0 }
    let s2 := s1.twoHalfActive.foldl (fun (t : State) (i : Nat) => t.teardown i true) s1
    let s3 := if s2.ready .q then s2.occur .q 0x020 none else s2
    let s4 := if s3.ready .k then s3.occur .k 0x020 none else s3
    ((s4.modHalf .q fun x => { x with siphonOut := {} }).modHalf .k fun x =>
      { x with timeLink := {}, siphonOut := {} }).refreshParent .k
  else { s with siphon := 0 }

/-- SIPHON_DOWN: a fault remains after all redundant lanes are used (R23). -/
def execSiphonDown (s : State) : Host.Outcome State Fault Refusal := .next s.loseSiphon

/-- SIPHON_LANE_REPAIR: a redundant lane takes the place of a faulty one, at unchanged bandwidth; with none left the Siphon goes DOWN
(R22, R23, R30). -/
def execSiphonLaneRepair (s : State) : Host.Outcome State Fault Refusal :=
  .next (if s.siphon = 0 then s
    else if s.lanesRepaired < Config.siphonSpares then
      { s with lanesRepaired := min (s.lanesRepaired + 1) 0xFF, siphon := if s.siphon = 1 then 1 else 3 }
    else s.loseSiphon)

/-- Does a half take part in training the Siphon: READY, or in TRAINING (R24)? -/
def HalfState.trainsSiphon (x : HalfState) : Bool := (x.boot = .ready || x.boot = .training) && !x.resetting

/-- A half in TRAINING has come to a step (R510). -/
def HalfState.reach (x : HalfState) (n : Nat) : HalfState := if x.boot = .training then { x with step := max x.step n } else x

/-- Start an attempt to train from a half, which keeps the stroke at which it began (R24). -/
def State.trainSiphon (s : State) (h : Half) : State :=
  { s.modHalf h fun x => { x.reach 3 with siphonTry := some x.count } with siphon := 1, siphonBy := h }

/-- SIPHON_RETRY: the firmware of a READY half tries again 100,000,000 strokes after its last attempt (R24). -/
def execSiphonRetry (h : Half) (s : State) : Host.Outcome State Fault Refusal :=
  let x := s.half h
  let due : Bool := match x.siphonTry with | none => true | some t => t + 100000000 ≤ x.count
  .next (if s.siphon = 0 && s.ready h && !x.resetting && due then s.trainSiphon h else s)

/-- SIPHON_TRAINING_REQUEST: a half that takes part answers a request of the other hub at once (R24). -/
def execSiphonTrainingRequest (h : Half) (s : State) : Host.Outcome State Fault Refusal :=
  .next (if s.siphon = 0 && (s.half h).trainsSiphon && (s.half h.other).trainsSiphon then s.trainSiphon h.other else s)

/-- SIPHON_TRAINING_TIMEOUT: an attempt lasts at most 20,000,000 strokes of the half that began it (R24). -/
def execSiphonTrainingTimeout (s : State) : Host.Outcome State Fault Refusal :=
  let x := s.half s.siphonBy
  let overdue : Bool := match x.siphonTry with | some t => t + 20000000 ≤ x.count | none => false
  .next (if s.siphon = 1 && overdue then { s with siphon := 0 } else s)

/-- Set the record of a generation. -/
def HalfState.setGen (x : HalfState) (id g : Nat) : HalfState := { x with gens := x.gens.set id g }

/-- One ID of the merge of R24: `r` is the recovered half. -/
def State.mergeGen (s : State) (r : Half) (id : Nat) : State :=
  let a := (s.half r).gen id
  let b := (s.half r.other).gen id
  if ((s.half r).ctx id).alive then s.modHalf r.other fun x => x.setGen id (max a b)
  else s.modHalf r fun x => x.setGen id (max a b)

/-- A half that lacks the other half's records takes them (R24, R447). -/
def State.mergeGens (s : State) (r : Half) : State :=
  if !(s.half r).recordsLost then s else
  ((List.range Config.contexts).foldl (fun (t : State) (i : Nat) => t.mergeGen r i) s).modHalf r fun x =>
    { x with recordsLost := false }

/-- The K copy takes the Siphon as its parent (R24, R48); a READY copy, which may not step, reports HOLDOVER until it has slewed to
within 1 stroke. -/
def State.followSiphon (s : State) : State :=
  let reports : Bool := (s.k.boot = .ready || s.k.wasReady) && s.k.stuState .k ≠ 3
  let s1 := s.refreshParent .k
  if reports then (s1.modHalf .k fun x => x.setField .k (hubKey bSTU 3) 0 3 3).occur .k srcHoldover none else s1

/-- Of two copies of a settings slot that differ, the one with the higher WRITE_SEQ, the Q half's among equals (R486). -/
def laterRecord (a b : Option Settings) : Option Settings :=
  match a, b with
  | some x, some y => if x.writeSeq < y.writeSeq then some y else some x
  | some x, none => some x
  | none, y => y

/-- The settings slots of the two devices are reconciled once both halves are READY and reach each other; each half signs its
own copy (R485, R486). -/
def State.reconcile (s : State) : State :=
  if !(s.siphonUp && s.ready .q && s.ready .k) then s else
  let a := laterRecord s.q.flash.slot0 s.k.flash.slot0
  let b := laterRecord s.q.flash.slot1 s.k.flash.slot1
  let sign (h : Half) (r : Option Settings) : Option Settings := r.map fun x => { x with signedBy := some h }
  let body (r : Option Settings) : Option Settings := r.map fun x => { x with signedBy := none }
  let take (h : Half) (f : Flash) : Flash :=
    { f with
      slot0 := if body f.slot0 = body a then f.slot0 else sign h a
      slot1 := if body f.slot1 = body b then f.slot1 else sign h b }
  (s.modHalf .q fun x => { x with flash := take .q x.flash }).modHalf .k fun x => { x with flash := take .k x.flash }

/-- SIPHON_ACTIVE: an attempt succeeds (R24). -/
def execSiphonActive (s : State) : Host.Outcome State Fault Refusal :=
  .next (if s.siphon = 1 && s.q.trainsSiphon && s.k.trainsSiphon then
      (({ s with siphon := if s.lanesRepaired = 0 then 2 else 3 } : State).mergeGens .q |>.mergeGens .k).followSiphon.reconcile
    else s)

/-- SIPHON_BLOCK_RECEIVE: the receiving hub checks the seal of a 256-byte block before it delivers it (R25). A mismatch delivers
nothing, raises 0x021 and ends a command that waited on the block; an intact block is progress of that command. -/
def execSiphonBlockReceive (h : Half) (dpa : Nat) (block : List Nat) (crc id : Nat) (s : State) :
    Host.Outcome State Fault Refusal :=
  .next (if !s.siphonUp || (s.half h).boot = .off then s else
    match s.cmd? id with
    | some (g, c) =>
      if crc32c block = crc then (if c.done.isNone then s.setCmd g { c with idle := 0, idleOther := 0 } else s)
      else if c.done.isNone then (s.finish g c (sealResult dpa)).occur h 0x021 c.ctx
      else s.occur h 0x021 c.ctx
    | none => if crc32c block = crc then s else s.occur h 0x021 none)

/-- SIPHON_FLIT_RETRY: a flit that fails its CRC is sent again and counted (R22, R30). -/
def execSiphonFlitRetry (h : Half) (s : State) : Host.Outcome State Fault Refusal :=
  .next (if s.siphonUp && (s.half h).boot ≠ .off then s.modHalf h fun x => x.count32 h siphonRetriesKey 0 1 else s)

end Sys2Proof.Machine
end

