-- ==== Sys2Proof/Machine/Control.lean ====
section
/-! DEFINITION. The control commands (R75 to R79, R91, R102 to R105): NOP, QUERY_GEOMETRY, REG_READ, REG_WRITE, CONFIG_COMMIT and
GATE_SET, and what a commit changes at once. -/

namespace Sys2Proof.Machine

/-! ## NOP and QUERY_GEOMETRY (R75, R76) -/

def specNop : OpSpec where
  ring := .a
  lo := 0
  hi := 0

/-- NOP completes with OK. -/
def execNop (id : Nat) (s : State) : Host.Outcome State Fault Refusal :=
  .next (onCommand s id 0x0000 (fun _ => true) fun t h c => t.finish h c (okResult 0 0 0))

def specQueryGeometry : OpSpec where
  ring := .a
  lo := 1
  hi := 1
  head _ p := reservedPl p [(0, 512)]

/-- QUERY_GEOMETRY overwrites its payload unit with the Device Geometry Table (R2, R76). -/
def execQueryGeometry (id : Nat) (s : State) : Host.Outcome State Fault Refusal :=
  .next (onCommand s id 0x0001 (fun _ => true) fun t h c =>
    t.finish h c { okResult 0 0 0 with payload := some (bytesOf 64 Config.geometry) })

/-! ## Register access (R78, R79) -/

/-- ADDR and VALUE of entry `i` of a register-access packet. -/
def reAddr (p i : Nat) : Nat := pl p (128 * i) 64
def reValue (p i : Nat) : Nat := pl p (128 * i + 64) 64
/-- The half an entry names. -/
def reHalf (a : Nat) : Half := Half.ofPart (bits a 0 1)
/-- The key of the register an entry names. -/
def reKey (a : Nat) : Nat := regKey (bits a 10 6) (bits a 1 3) (bits a 4 6) (bits a 16 8)
/-- Entries of a register-access packet. -/
def reCount (p : Nat) : Nat := 4 * pkUnits p

/-- Checks of an entry: a reserved DIE, a register that does not exist, reserved bits, SHADOW of a write, and the VALUE of an empty
entry of a write (R6, R78, R79). -/
def entryBad (write : Bool) (p i : Nat) : List Check :=
  let a := reAddr p i
  let b := 512 + 128 * i
  if a = 0 then [(b + 64, write && reValue p i ≠ 0)]
  else
    let clean := bits a 25 39 = 0
    [(b + 1, clean && bits a 1 3 > 4), (b, clean && bits a 1 3 ≤ 4 && (keyFields (reHalf a) (reKey a)).isNone),
      (b + 24, write && bitSet a 24), reservedCheck b a 25 39]

/-- The offset of the first entry that names the other partition. -/
def otherEntry (p : Nat) (h : Half) : Option Nat :=
  ((List.range (reCount p)).find? fun i => reAddr p i ≠ 0 && reHalf (reAddr p i) ≠ h).map fun i => 512 + 128 * i

/-- What REG_READ and REG_WRITE share: entries of the other partition need both halves (R517). -/
def specReg (write : Bool) : OpSpec where
  ring := .m
  lo := 1
  hi := 16
  exempt := true
  head _ p := (List.range (reCount p)).flatMap (entryBad write p)
  exam s h p x := match otherEntry p h with
    | some b => x.badWhen (!s.together h) b
    | none => x

def specRegRead : OpSpec := specReg false
def specRegWrite : OpSpec := specReg true

/-- The value that a read with SHADOW gives: RWS fields from the shadow set, the others as they are active (R78). -/
def HalfState.shadowValue (x : HalfState) (h : Half) (k active : Nat) : Nat :=
  commitCell ((keyFields h k).getD []) active (x.shadowCell h k)

/-- One entry of REG_READ: its 16 bytes as written back. -/
def regEntry (t : State × List Nat) (a : Nat) : State × List Nat :=
  if a = 0 then (t.1, t.2 ++ List.replicate 16 0) else
  let h := reHalf a
  let r := t.1.readReg h (reKey a)
  let v := if bitSet a 24 then (t.1.half h).shadowValue h (reKey a) r.1 else r.1
  (r.2, t.2 ++ bytesOf 8 a ++ bytesOf 8 v)

/-- Are the halves that a register-access packet names within reach? -/
def State.reaches (s : State) (h : Half) (p : Nat) : Bool := (otherEntry p h).isNone || s.together h

/-- A register-access packet that names the other partition crosses the Siphon in the COMMAND class (R26). -/
def State.crossRegs (s : State) (h : Half) (p : Nat) : State :=
  if (otherEntry p h).isSome then s.crossFor (some (attrKey p)) h .command (64 * (1 + pkUnits p)) else s

/-- REG_READ: entries in list order, written back with their values (R76, R78). -/
def execRegRead (id : Nat) (s : State) : Host.Outcome State Fault Refusal :=
  .next (onCommand s id 0x0002 (fun _ => true) fun t h c =>
    if !t.reaches h c.packet then t else
    let t := t.crossRegs h c.packet
    let r := ((List.range (reCount c.packet)).map (reAddr c.packet)).foldl regEntry (t, [])
    r.1.finish h c { okResult 0 0 0 with payload := some r.2 })

/-- A write of a value to a register (R9): RW fields change at once and RWS fields in the shadow set; a 1 in STICKY acknowledges, a 1 in
FORCE forces (R431, R432); STU_EPOCH_OFFSET is traced (R463). -/
def HalfState.writeReg (x : HalfState) (h : Half) (k v : Nat) : HalfState :=
  let fs := (keyFields h k).getD []
  if k = hubKey bSTU 1 then x.writeEpochOffset v else
  let write (code : Access) (u : Nat) (f : Field) : Nat := if f.acc = code then setBits u f.lo f.width (bits v f.lo f.width) else u
  let y := if fs.any (fun f => f.acc = .rw) then x.setCell k (fs.foldl (write .rw) (x.cell h k)) else x
  let z := if fs.any (fun f => f.acc = .rws) then
      { y with shadow := put k (fs.foldl (write .rws) (y.shadowCell h k)) y.shadow } else y
  if k / 2 ^ 17 = bFCL && k / 256 % 64 ≠ 0 then
    let n := (k / 256 % 64 - 1) * 256 + k % 256
    let w := if bitSet v 2 then z.ackSource h n else z
    if bitSet v 3 then w.forceSource h n else w
  else z

/-- Is a commit due in a half that a packet may write? Its shadow writes then wait for the next one (R103). -/
def State.commitDue (s : State) : Bool := s.q.commitDue || s.k.commitDue

/-- REG_WRITE: entries in list order (R78). A shadow write that comes in the stroke of a commit lands after it (R103). -/
def execRegWrite (id : Nat) (s : State) : Host.Outcome State Fault Refusal :=
  .next (onCommand s id 0x0003 (fun _ => true) fun t h c =>
    if !t.reaches h c.packet || t.commitDue then t else
    let write (u : State) (i : Nat) : State :=
      let a := reAddr c.packet i
      if a = 0 then u else u.modHalf (reHalf a) fun x => x.writeReg (reHalf a) (reKey a) (reValue c.packet i)
    (((List.range (reCount c.packet)).foldl write (t.crossRegs h c.packet)).ibiAfter t).finish h c (okResult 0 0 0))

/-! ## What a commit changes at once (R102 to R104) -/

/-- LNK_PORT_CFG.ENABLE of a commit: a port that loses it is held DISABLED, one that gains it is DOWN until it trains (R374, R405). -/
def HalfState.commitPort (x : HalfState) (h : Half) (port : Nat) : HalfState :=
  let enabled := bitSet (x.portReg h port 1) 0
  let st := x.portState h port
  if enabled && st = 3 then x.setField h (regKey bLNK 4 port 2) 0 3 0
  else if !enabled && st ≠ 3 then x.stopPort h port 3 0 (st = 2)
  else x

/-- The ports of a half. -/
def portsOf (h : Half) : List Nat := if h = .q then [0, 1, 2, 3, 4] else [0, 1, 2, 3]

/-- HOTSET_WAYS of a commit on a die (R311): fewer hot-set ways evict rows from those released, more evict lines of the automatic
cache, dirty ones written back. -/
def State.commitWays (s : State) (before d : Nat) : State :=
  let now := s.autoWays d
  let ctx := (s.half (halfOfDie d)).resident.getD 0
  if before < now then
    s.setWell d { s.well d with hot := (s.well d).hot.filter fun r => r.lines.all fun l => now ≤ l / 2048 }
  else if now < before then s.flushWell d ctx fun l => l.way < now
  else s

/-- A commit of the register shadow set of a half, with what hangs on it. -/
def State.commitRegs (s : State) (h : Half) : State :=
  let stu := s.q.stuCfg .q
  let dies := (List.range 4).map fun i => 4 * h.part + i
  let s1 := s.modHalf h fun x => (portsOf h).foldl (fun y p => y.commitPort h p) (x.commitRegs h)
  let s2 := dies.foldl (fun t d => t.commitWays (s.autoWays d) d) s1
  if h = .q then s2.commitStu stu else s2.refreshParent .k

/-- A commit in one half: registers, and the map of a context (R102). -/
def State.commitHalf (s : State) (h : Half) (regs map : Bool) (ctx : Nat) : State :=
  let s1 := if regs then s.commitRegs h else s
  if map && inFootprint ((s.half h).ctx ctx).footprint h then s1.modHalf h fun x => x.commitMap ctx else s1

/-! ## CONFIG_COMMIT (R102) -/

def ccRegs (p : Nat) : Bool := pl p 0 1 = 1
def ccMap (p : Nat) : Bool := pl p 1 1 = 1
def ccStroke (p : Nat) : Nat := pl p 64 64

def specConfigCommit : OpSpec where
  ring := .m
  lo := 1
  hi := 1
  isScoped := ccMap
  exempt := true
  head _ p := checks [(512, !ccRegs p && !ccMap p)] ++ reservedPl p [(2, 62), (128, 384)]
  exam s h p x0 :=
    let x := if ccMap p then examTogether s h p (examAlive s h p x0) else x0
    let free := (s.half h).slotFree (ccStroke p) && (!s.together h || (s.half h.other).slotFree (ccStroke p))
    x.badWhen (ccStroke p ≠ 0 && !free) (512 + 64)
  mirrored s h _ := s.together h

/-- The event of a CONFIG_COMMIT in a half: at its stroke, in a slot, or with COMMIT_STROKE zero at the next stroke boundary of the
half, in none (R102). -/
def commitEvent (c : Cmd) (count : Nat) : Sched :=
  { stroke := if ccStroke c.packet = 0 then count + 1 else ccStroke c.packet, both := c.twoHalf
    kind := .commit (ccRegs c.packet) (ccMap c.packet) (pkCtx c.packet) (pkGen c.packet) c.id, slotless := ccStroke c.packet = 0 }

/-- CONFIG_COMMIT: the commit is armed in each half that it concerns, and the command waits for it (R53, R102). -/
def execConfigCommit (id : Nat) (s : State) : Host.Outcome State Fault Refusal :=
  .next (onCommand s id 0x0004 (fun _ => true) fun t h c =>
    let halves := if c.twoHalf then [h, h.other] else [h]
    if ccStroke c.packet ≠ 0 && halves.any fun g => 8 ≤ (t.half g).slotsUsed then t
    else
      (halves.foldl (fun (u : State) g => u.modHalf g fun x => { x with events := x.events ++ [commitEvent c x.count] }) t).setCmd h
        { c with waiting := true })

/-- The commit of a half that is due first: earliest stroke, then the order of arming. -/
def HalfState.dueCommit (x : HalfState) : Option Sched :=
  let due (e : Sched) : Option Nat :=
    match e.kind with | .commit _ _ _ _ _ => if e.stroke ≤ x.count then some e.stroke else none | _ => none
  match least (x.events.filterMap due) with
  | some n => x.events.find? fun e => due e = some n
  | none => none

/-- CONFIG_COMMIT_FIRE: an armed commit takes effect in a half, after the freezes and route commits of its stroke (R52, R102). -/
def execConfigCommitFire (h : Half) (s : State) : Host.Outcome State Fault Refusal :=
  let x := s.half h
  .next (if x.resetting || x.freezeDue || x.routeDue then s else
    match x.dueCommit with
    | some e =>
      (match e.kind with
      | .commit regs map ctx _ _ =>
        (s.modHalf h fun y => { y with events := y.events.erase e }).commitHalf h regs map ctx
      | _ => s)
    | none => s)

/-! ## GATE_SET (R91) -/

def gsValue (p : Nat) : Nat := pl p 0 32
def gsGate (p : Nat) : Nat := pl p 32 12

def specGateSet : OpSpec where
  ring := .c
  lo := 1
  hi := 1
  head e p := checks [(512 + 32, outside e (gateHome (gsGate p)))] ++ reservedPl p [(44, 468)]
  mirrored s h p := gateHome (gsGate p) ≠ h && s.together h

/-- GATE_SET writes its value to the gate, before the signals of its completion; signals that the gate has taken in this stroke come
after it (R91). -/
def execGateSet (id : Nat) (s : State) : Host.Outcome State Fault Refusal :=
  .next (onCommand s id 0x0005 (fun _ => true) fun t h c => match c.ctx with
    | some i => (t.setGate i (gsGate c.packet) (gsValue c.packet + t.signalledNow i (gsGate c.packet))).finish h c (okResult 0 0 0)
    | none => t)

end Sys2Proof.Machine
end

