-- ==== Sys2Proof/Machine/Firmware.lean ====
section
/-! DEFINITION. Firmware, settings and identity (R472 to R491): image headers and their checks, staging and writing, the loader,
settings records, activation and attestation. -/

namespace Sys2Proof.Machine

/-! ## Image headers (R475, R476) -/

def ihFormat (v : Nat) : Nat := bits v 8 8
def ihMinLoader (v : Nat) : Nat := bits v 48 16
def ihVersion (v : Nat) : Nat := bits v 64 32
def ihRevision (v : Nat) : Nat := bits v 96 8
def ihEpoch (v : Nat) : Nat := bits v 112 16
def ihBytes (v : Nat) : Nat := bits v 128 32
def ihDigest (v : Nat) : Nat := bits v 704 512

/-- Is BODY_BYTES within its range for the format (R475)? -/
def ihBytesOk (v : Nat) : Bool :=
  ihBytes v % 64 == 0 && 64 ≤ ihBytes v && ihBytes v ≤ (if ihFormat v = 2 then 1048256 else 33554112)

/-- The checks of a header in the order of R476, each with the bit of the field it names. `formats`: those that were asked for;
`loader`: the running loader version; `floor`: SEC_FLOOR in force. -/
def headerChecks (v : Nat) (formats : List Nat) (loader floor : Nat) : List (Nat × Bool) :=
  [(0, bits v 0 8 = 1), (8, formats.contains (ihFormat v)), (16, bits v 16 16 = 0x2460), (32, bits v 32 8 = Config.archGen),
   (40, bits v 40 8 < 2), (if bits v 1216 128 ≠ 0 then 1216 else 2256, bits v 1216 128 = 0 && bits v 2256 304 = 0),
   (128, ihBytesOk v), (48, ihFormat v = 2 || ihMinLoader v ≤ loader), (112, floor ≤ ihEpoch v),
   (1344, Config.imageSignatureOk (bits v 40 8) (v % 2 ^ 1344) (bits v 1344 912))]

/-- The first check of R476 that fails: its number from 1, and the field. -/
def headerFailure (v : Nat) (formats : List Nat) (loader floor : Nat) : Option (Nat × Nat) :=
  let cs := headerChecks v formats loader floor
  ((cs.zip (List.range cs.length)).find? fun c => !c.1.2).map fun c => (c.2 + 1, c.1.1)

/-- Bytes for the functions that Config leaves open. -/
def asBytes (bs : List Nat) : List Byte := bs.map fun b => BitVec.ofNat 8 b

/-- The body's digest equals BODY_DIGEST (R476). -/
def digestOk (header : Nat) (body : List Nat) : Bool := Config.shake256 (asBytes body) 512 == ihDigest header

/-- GCM decryption with the unwrapped CEK yields TAG (R476). -/
def tagOk (header : Nat) (body : List Nat) : Bool := Config.gcmTagOk header (asBytes body)

/-- The version of the loader in a half's flash (R472, R476). -/
def Flash.loaderVersion (f : Flash) : Nat :=
  match f.loader with | some l => ihVersion l.1 % 2 ^ 16 | none => Config.loaderVersion.toNat

/-- SETTINGS_REV of the image in flash. -/
def Flash.revision (f : Flash) : Nat := ihRevision f.header

/-! ## Settings records (R485, R486) -/

/-- The header of a record as one number (R485). -/
def Settings.head (r : Settings) : Nat :=
  place r.format 0 8 + place r.revision 8 8 + place (if r.confirmed then 2 else 1) 16 2 + place r.writeSeq 32 32
  + place (16 * r.entries.length) 64 32 + place r.secFloor 96 16

/-- The bytes of a record: header, body, and trailer with its signature (R485). -/
def Settings.bytes (r : Settings) : List Nat :=
  let front := bytesOf 64 r.head ++ r.entries.flatMap fun e => bytesOf 8 e.1 ++ bytesOf 8 e.2
  front ++ bytesOf 128 (match r.signedBy with
    | some h => Config.sign h.part "SET" (numOf front) % 2 ^ 912
    | none => 0)

/-- The records of a device whose signature verifies under the SET key of its half, with their slots (R486). -/
def Flash.records (f : Flash) (h : Half) : List (Nat × Settings) :=
  ([(0, f.slot0), (1, f.slot1)].filterMap fun e => e.2.map fun r => (e.1, r)).filter fun e => e.2.signedBy = some h

/-- The highest WRITE_SEQ in either slot of a device. -/
def Flash.highSeq (f : Flash) : Nat :=
  greatest (([f.slot0, f.slot1].filterMap id).map (·.writeSeq))

/-- Put a record into a slot. -/
def Flash.setSlot (f : Flash) (i : Nat) (r : Option Settings) : Flash := if i = 0 then { f with slot0 := r } else { f with slot1 := r }

/-- The best of some records: the greatest of a rank. -/
def bestRecord (rank : Settings → Nat) : List (Nat × Settings) → Option (Nat × Settings)
  | [] => none
  | e :: rest => match bestRecord rank rest with
    | some b => if rank e.2 < rank b.2 then some b else some e
    | none => some e

/-- The choice of R486 for a firmware of a revision: the record, and the device after it; `none` means defaults. -/
def Flash.choose (f : Flash) (h : Half) (rev : Nat) : Option Settings × Flash :=
  let rs := f.records h
  let native := rs.filter (·.2.format = 2)
  let next := (f.highSeq + 1) % 2 ^ 32
  match bestRecord (·.writeSeq) (native.filter (·.2.revision = rev)) with
  | some e => (some e.2, f)
  | none =>
    match bestRecord (fun r => r.revision * 2 ^ 32 + r.writeSeq) (native.filter (·.2.revision < rev)) with
    | some e =>
      let r : Settings := { e.2 with
        revision := rev, confirmed := false, writeSeq := next, signedBy := some h
        entries := Config.convertEntries e.2.revision rev e.2.entries }
      (some r, f.setSlot (1 - e.1) (some r))
    | none =>
      match rs with
      | e :: _ =>
        if rs.all (·.2.format = 1) then
          let r : Settings := { revision := rev, writeSeq := next, signedBy := some h }
          (some r, f.setSlot (1 - e.1) (some r))
        else (none, f)
      | [] => (none, f)

/-- SEC_FLOOR of the settings in force; a half whose firmware does not run goes by the record it would choose for `rev` (R476). -/
def HalfState.secFloor (x : HalfState) (h : Half) (rev : Nat) : Nat :=
  match x.settings with
  | some r => r.secFloor
  | none => if x.bootSel = 3 then 0 else match (x.flash.choose h rev).1 with | some r => r.secFloor | none => 0

/-- Is an entry's register a class coefficient, which a record holds as a fallback only (R60, R485)? -/
def isCoefficient (k : Nat) : Bool := k / 2 ^ 17 == bCSC && 6 ≤ k % 256

/-- Does an entry pass R485: empty, or a register with an RW or RWS field, or CSC_CLASS_n? -/
def settingOk (e : Nat × Nat) : Bool :=
  if e.1 = 0 then e.2 == 0 else
  bits e.1 24 40 == 0 && bits e.1 1 3 ≤ 4 &&
  match keyFields (reHalf e.1) (reKey e.1) with
  | some fs => isCoefficient (reKey e.1) || fs.any fun f => f.acc = .rw || f.acc = .rws
  | none => false

/-- The bits of a register that a settings entry writes: its RW and RWS fields. -/
def settingMask (h : Half) (k v : Nat) : Nat :=
  ((keyFields h k).getD []).foldl (fun u f => if f.acc = .rw || f.acc = .rws then setBits u f.lo f.width (bits v f.lo f.width) else u) 0

/-- The entries of a record are written to the registers of a half in body order and committed at one stroke (R486). What software has
written to the shadow set and not committed stays there. -/
def State.applySettings (s : State) (h : Half) (r : Settings) : State :=
  let kept := (s.half h).shadow
  let write (x : HalfState) (e : Nat × Nat) : HalfState :=
    if e.1 = 0 || reHalf e.1 ≠ h || isCoefficient (reKey e.1) then x else x.writeReg h (reKey e.1) (settingMask h (reKey e.1) e.2)
  let s1 := s.modHalf h fun x => r.entries.foldl write { x with shadow := [] }
  (s1.commitRegs h).modHalf h fun x => { x with shadow := kept }

/-- The settings load of boot and activation (R486): BOOT_SEL 3 ignores every record; defaults raise 0x013. -/
def State.loadSettings (s : State) (h : Half) : State :=
  let x := s.half h
  let a := if x.bootSel = 3 then (none, x.flash) else x.flash.choose h x.flash.revision
  let s1 := s.modHalf h fun y => { y with flash := a.2, settings := a.1 }
  match a.1 with
  | some r => s1.applySettings h r
  | none => s1.occur h 0x013 none

/-! ## The loader (R479) and measurements (R490) -/

/-- WRAPPED_CEK of a header (R475). -/
def ihCek (v : Nat) : Nat := bits v 384 320

/-- Does the loader accept the flash image of a half (R476, R479)? The content key in the boot record has to be the one of the body. -/
def HalfState.imageOk (x : HalfState) (h : Half) : Bool :=
  x.flash.imageState = .valid && x.flash.cek = ihCek x.flash.header
    && (headerFailure x.flash.header [1] x.flash.loaderVersion (x.secFloor h x.flash.revision)).isNone
    && digestOk x.flash.header x.flash.body && tagOk x.flash.header x.flash.body

/-- A run of the loader: BOOT_FAILS grows, and the image starts unless recovery is due (R479). The second answer says whether it
starts. -/
def HalfState.runLoader (x : HalfState) (h : Half) : HalfState × Bool :=
  let n := x.flash.bootFails + 1
  ({ x with flash := { x.flash with bootFails := n } }, n < 3 && x.imageOk h)

/-- The measurements of a boot or activation once firmware has started (R490). -/
def HalfState.measure (x : HalfState) : HalfState :=
  let v := x.flash.header
  { x with
    fwVersion := ihVersion v
    measures :=
      { locked := true, loaderVersion := x.flash.loaderVersion, fwVersion := ihVersion v, secEpoch := ihEpoch v
        settingsId := match x.settings with | some r => place r.format 0 8 + place r.revision 8 8 | none => 0
        loaderDigest := match x.flash.loader with | some l => bits l.1 704 256 | none => Config.loaderDigest % 2 ^ 256
        imageDigest := bits v 704 256
        settingsDigest := match x.settings with | some r => Config.shake256 (asBytes r.bytes) 256 % 2 ^ 256 | none => 0
        actCount := (x.measures.actCount + 1) % 2 ^ 32 } }

/-! ## FW_STAGE (R477, R478) -/

def fsOp (p : Nat) : Nat := pl p 0 2
def fsOffset (p : Nat) : Nat := pl p 32 32
def fsBytes (p : Nat) : Nat := pl p 64 32
/-- The image header that a HEADER carries in units 1 to 5. -/
def fsHeader (p : Nat) : Nat := bits p 1024 2560

/-- Is an activation armed in a half? -/
def HalfState.activationArmed (x : HalfState) : Bool := x.events.any fun e => match e.kind with | .activation _ => true | _ => false

/-- May both flash devices be reached: both halves READY and the Siphon up (R477)? -/
def State.bothReady (s : State) : Bool := s.siphonUp && s.ready .q && s.ready .k

def specFwStage : OpSpec where
  ring := .m
  lo := 1
  hi := 64
  head e p := checks [(0, e.home = .k), (512 + 2, pl p 2 1 ≠ 0), (112, fsOp p = 1 && pkUnits p ≠ 6),
      (512 + 64, (fsOp p = 1 && fsBytes p ≠ 320) || (fsOp p = 0 && fsBytes p ≠ 64 * (pkUnits p - 1)))]
    ++ reservedPl p [(3, 29), (96, 416)]
  busy s _ p := fsOp p = 2 && s.writing.isSome
  exam s _ p x :=
    match fsOp p with
    | 0 => (match s.staging with
      | none => x.badWhen true 512
      | some g => (x.badWhen (fsOffset p ≠ g.body.length) (512 + 32)).badWhen (fsOffset p + fsBytes p > ihBytes g.header) (512 + 64))
    | 1 =>
      let y := x.badWhen s.writing.isSome 512
      (match headerFailure (fsHeader p) [1] s.q.measures.loaderVersion (s.q.secFloor .q 0) with
      | some f => y.badWhen true (1024 + f.2)
      | none => y)
    | 2 => (match s.staging with
      | none => x.badWhen true 512
      | some g =>
        let y := x.badWhen (g.body.length < ihBytes g.header || !s.bothReady || s.q.activationArmed || s.k.activationArmed) 512
        let z := y.badWhen (!digestOk g.header g.body) 704
        if digestOk g.header g.body then z.badWhen (!tagOk g.header g.body) 256 else z)
    | _ => x.badWhen s.writing.isSome 512

/-- FW_STAGE_HEADER: the header has passed R476 at examination; it replaces whatever was staged. -/
def execFwStageHeader (id : Nat) (s : State) : Host.Outcome State Fault Refusal :=
  .next (onCommand s id 0x0B01 (fun c => fsOp c.packet = 1) fun t h c =>
    ({ t with staging := some { header := fsHeader c.packet } } : State).finish h c (okResult (ihVersion (fsHeader c.packet)) 0 0))

/-- FW_STAGE_BODY: ciphertext from units 1 onward is appended. -/
def execFwStageBody (id : Nat) (s : State) : Host.Outcome State Fault Refusal :=
  .next (onCommand s id 0x0B01 (fun c => fsOp c.packet = 0) fun t h c =>
    let bs := bytesOf (fsBytes c.packet) (c.packet >>> 1024)
    ({ t with staging := t.staging.map fun g => { g with body := g.body ++ bs } } : State).finish h c (okResult 0 0 0))

/-- Steps 2 to 4 of R478 on a device. -/
def Flash.program (f : Flash) (g : Staging) : Flash :=
  { f with imageState := .valid, header := g.header, body := g.body, cek := ihCek g.header }

/-- FW_STAGE_WRITE (R478). First both boot records say WRITING, and the image starts across the Siphon in the COMMAND class; performed
again, the regions are programmed, read back and VALID. -/
def execFwStageWrite (id : Nat) (s : State) : Host.Outcome State Fault Refusal :=
  .next (onCommand s id 0x0B01 (fun c => fsOp c.packet = 2) fun t h c =>
    match t.staging with
    | none => t
    | some g =>
      let flash (u : State) (f : Flash → Flash) : State :=
        { u with q := { u.q with flash := f u.q.flash }, k := { u.k with flash := f u.k.flash } }
      if !t.bothReady then t
      else if c.cursor = 0 then
        (({ flash t (fun f => { f with imageState := .writing }) with writing := some c.id } : State).crossFor (some (attrKey c.packet)) .q
          .command (320 + ihBytes g.header)).setCmd h { c with cursor := 1, idle := 0, idleOther := 0 }
      else
        ({ flash t (fun f => f.program g) with writing := none } : State).finish h c
          (okResult (ihVersion g.header) (ihBytes g.header) 0))

/-- FW_STAGE_ABORT discards the staging. -/
def execFwStageAbort (id : Nat) (s : State) : Host.Outcome State Fault Refusal :=
  .next (onCommand s id 0x0B01 (fun c => fsOp c.packet = 3) fun t h c =>
    ({ t with staging := none } : State).finish h c (okResult 0 0 0))

/-! ## FW_ACTIVATE (R482 to R484) -/

def aaStroke (p : Nat) : Nat := pl p 0 64
def aaVersion (p : Nat) : Nat := pl p 64 32

def specFwActivate : OpSpec where
  ring := .m
  lo := 1
  hi := 1
  exempt := true
  head e p := checks [(0, e.home = .k), (512, aaStroke p = 0)] ++ reservedPl p [(96, 416)]
  exam s _ p x :=
    let free := s.q.slotFree (aaStroke p) && s.k.slotFree (aaStroke p)
    let y := x.badWhen (!free || s.q.activationArmed || s.k.activationArmed || !s.bothReady) 512
    let fits (f : Flash) : Bool := f.imageState = .valid && ihVersion f.header = aaVersion p
    y.badWhen (s.writing.isSome || !fits s.q.flash || !fits s.k.flash) (512 + 64)
  mirrored _ _ _ := true

/-- FW_ACTIVATE arms one event in each half and waits for the activation to end (R53, R482). -/
def execFwActivate (id : Nat) (s : State) : Host.Outcome State Fault Refusal :=
  .next (onCommand s id 0x0B02 (fun _ => true) fun t h c =>
    if 8 ≤ t.q.slotsUsed || 8 ≤ t.k.slotsUsed then t else
    let e : Sched := { stroke := aaStroke c.packet, both := true, kind := .activation c.id }
    let arm (x : HalfState) : HalfState := { x with events := x.events ++ [e] }
    ((t.modHalf .q arm).modHalf .k arm).setCmd h { c with waiting := true })

/-- The activation of a half that is due. -/
def HalfState.dueActivation (x : HalfState) : Option (Sched × Nat) :=
  x.events.findSome? fun e => match e.kind with
    | .activation cmd => if e.stroke ≤ x.count then some (e, cmd) else none
    | _ => none

/-- Step 2 of R483: commands of the resident context are suspended at their preemption points, and it is saved (R97). -/
def State.pauseContext (s : State) (h : Half) (id : Nat) : State :=
  let x := s.half h
  let mine (c : Cmd) : Bool := c.ctx = some id && c.ring ≠ .mgmt && c.phase = .running
  let s1 : State := { s with mem := (x.cmds.filter mine).foldl (fun m c => c.spill m) s.mem }
  let s2 := s1.modHalf h fun y =>
    { y with
      cmds := y.cmds.filter fun c => !mine c
      suspended := y.suspended ++ (y.cmds.filter mine).map fun c => { c with phase := .suspended }
      resident := none }
  if inFootprint (x.ctx id).footprint h then s2.saveCtx h id else s2

/-- Step 5 of R483. -/
def State.resumeContext (s : State) (h : Half) (id : Nat) : State :=
  let back := (s.half h).suspended.filter fun c => c.ctx = some id
  let s1 := if inFootprint ((s.half h).ctx id).footprint h then s.restoreCtx h id
    else s.modHalf h fun y =>
      { y with cmds := y.cmds ++ back.map (fun c => { c with phase := .running, resumed := y.count }), suspended := y.suspended.filter fun c => c.ctx ≠ some id }
  s1.modHalf h fun y => { y with resident := some id }

/-- The activation has ended: no half has it armed or under way, and both run firmware (R482). -/
def State.endActivation (s : State) (cmd previous : Nat) : State :=
  if s.q.activationArmed || s.k.activationArmed || s.q.activating.isSome || s.k.activating.isSome || !s.q.running || !s.k.running then s else
  match s.cmd? cmd with
  | some (h, c) => s.finish h c (okResult s.q.fwVersion previous 0)
  | none => s

/-- The first part of an activation: its event leaves the slot, the heartbeats are not checked, and the resident context is saved. -/
def State.beginActivation (s : State) (h : Half) (e : Sched) (cmd previous : Nat) : State :=
  let x := s.half h
  let a : Activation := { cmd := cmd, fired := x.count, previous := previous, ctx := x.resident }
  let s1 := s.modHalf h fun y => { y with events := y.events.erase e, activation := some a, heartbeatOn := false }
  match x.resident with | some i => s1.pauseContext h i | none => s1

/-- The second part: the half restarts through the loader, loads its settings and restores the context. A loader that does not accept
the image enters recovery (R479). -/
def State.restartFirmware (s : State) (h : Half) (a : Activation) : State :=
  let l := (s.half h).runLoader h
  if !l.2 then s.setHalf h { l.1 with boot := .recovery, recovBytes := 0, recovResult := 0 } else
  let s3 := ((s.setHalf h l.1).loadSettings h).modHalf h fun y =>
    { y.measure with flash := { y.flash with bootFails := 0 }, activation := some { a with restarted := true } }
  let s4 := match a.ctx with | some i => s3.resumeContext h i | none => s3
  s4.endActivation a.cmd a.previous

/-- The firmware version that an activation replaces, one for both halves. -/
def State.replaced (s : State) (h : Half) : Nat :=
  match (s.half h.other).activation with | some a => a.previous | none => s.q.fwVersion

/-- FIRMWARE_ACTIVATION: after the other events of its stroke (R52) a half saves its context; performed again, it restarts through the
loader, loads its settings and restores the context (R483). -/
def execFirmwareActivation (h : Half) (s : State) : Host.Outcome State Fault Refusal :=
  let x := s.half h
  .next (if x.resetting then s else
    match x.activating with
    | some a => if x.running then s.restartFirmware h a else s
    | none =>
      if x.freezeDue || x.routeDue || x.commitDue then s else
      match x.dueActivation with
      | none => s
      | some (e, cmd) => s.beginActivation h e cmd (s.replaced h))

/-- ACTIVATION_HEARTBEAT_CHECK: 100,000,000 strokes after the activation the check of R438 resumes, and a half whose firmware has
not started raises 0x001 (R484). `signalled`: its cores signal again. -/
def execActivationHeartbeatCheck (h : Half) (signalled : Bool) (s : State) : Host.Outcome State Fault Refusal :=
  .next (match (s.half h).activation with
    | some a =>
      if s.now h < a.fired + 100000000 then s else
      let s1 := s.modHalf h fun x => { x with activation := none, heartbeatOn := true }
      if signalled && a.restarted && (s.half h).running then s1 else s1.occur h 0x001 none
    | none => s)

/-! ## SETTINGS_WRITE and SETTINGS_CONFIRM (R488, R489) -/

def swOp (p : Nat) : Nat := pl p 0 2
def swOffset (p : Nat) : Nat := pl p 32 32
def swBytes (p : Nat) : Nat := pl p 64 32
/-- Bytes that the data units of a DATA hold. -/
def swData (p : Nat) : Nat := 64 * (pkUnits p - 1)

/-- Entries of a staged body. -/
def bodyEntries (bs : List Nat) : List (Nat × Nat) := (chunks 16 bs).map fun c => (numOf (c.take 8), numOf (c.drop 8))

/-- The bit offset within the body of the first entry that breaks R485. -/
def badEntry (bs : List Nat) : Option Nat :=
  let es := bodyEntries bs
  ((es.zip (List.range es.length)).find? fun e => !settingOk e.1).map fun e => 128 * e.2

/-- DATA may run into padding in its last unit, but not a unit beyond the body. -/
def specSettingsWrite : OpSpec where
  ring := .m
  lo := 1
  hi := 64
  head e p := checks [(0, e.home = .k), (512 + 64, swOp p = 1 && (swBytes p % 16 ≠ 0 || swBytes p > 65344))]
    ++ reservedPl p [(2, 30), (96, 416)]
  exam s h p x :=
    match swOp p, s.settingsStaging with
    | 2, none => x.badWhen true 512
    | 2, some g => (x.badWhen (swOffset p ≠ g.2.length) (512 + 32)).badWhen
        (roundUp (g.1 - g.2.length) 64 < swData p) 112
    | 3, none => x.badWhen true 512
    | 3, some g =>
      let y := x.badWhen (g.2.length < g.1 || !s.together h) 512
      (match badEntry g.2 with | some b => if y.refused then y else y.badWhen true b | none => y)
    | _, _ => x

/-- The work of one SETTINGS_WRITE operation. -/
def settingsWrite (s : State) (id op : Nat) (f : State → Half → Cmd → State) : State :=
  onCommand s id 0x0B03 (fun c => swOp c.packet = op) f

/-- SETTINGS_WRITE_BEGIN: an empty body of the given length is staged. -/
def execSettingsWriteBegin (id : Nat) (s : State) : Host.Outcome State Fault Refusal :=
  .next (settingsWrite s id 1 fun t h c =>
    ({ t with settingsStaging := some (swBytes c.packet, []) } : State).finish h c (okResult 0 0 0))

/-- SETTINGS_WRITE_DATA: the bytes are appended, up to the body's length. -/
def execSettingsWriteData (id : Nat) (s : State) : Host.Outcome State Fault Refusal :=
  .next (settingsWrite s id 2 fun t h c =>
    let bs := bytesOf (swData c.packet) (c.packet >>> 1024)
    ({ t with settingsStaging := t.settingsStaging.map fun g => (g.1, (g.2 ++ bs).take g.1) } : State).finish h c (okResult 0 0 0))

/-- SETTINGS_WRITE_ABORT discards the staged body. -/
def execSettingsWriteAbort (id : Nat) (s : State) : Host.Outcome State Fault Refusal :=
  .next (settingsWrite s id 0 fun t h c =>
    ({ t with settingsStaging := none } : State).finish h c (okResult 0 0 0))

/-- The slot that holds the record in force. -/
def HalfState.slotInForce (x : HalfState) : Option Nat :=
  match x.settings with
  | none => none
  | some r => if x.flash.slot0 = some r then some 0 else if x.flash.slot1 = some r then some 1 else none

/-- A record goes into a slot of both devices, in each under its own half's signature (R485, R488). -/
def State.writeSlot (s : State) (i : Nat) (r : Settings) : State :=
  let into (g : Half) (x : HalfState) : HalfState := { x with flash := x.flash.setSlot i (some { r with signedBy := some g }) }
  (s.modHalf .q (into .q)).modHalf .k (into .k)

/-- SETTINGS_WRITE_END writes a TRIAL record to both devices, into the slot that does not hold the record in force (R488). -/
def execSettingsWriteEnd (id : Nat) (s : State) : Host.Outcome State Fault Refusal :=
  .next (settingsWrite s id 3 fun t h c =>
    match t.settingsStaging with
    | none => t
    | some g =>
      if !t.siphonUp then t else
      let seq := (max t.q.flash.highSeq t.k.flash.highSeq + 1) % 2 ^ 32
      let r : Settings :=
        { revision := t.q.flash.revision, writeSeq := seq
          secFloor := match t.q.settings with | some r => r.secFloor | none => 0
          entries := bodyEntries g.2 }
      let i := match t.q.slotInForce with | some n => 1 - n | none => 0
      (t.writeSlot i r).finish h c (okResult seq 0 0))

def scSeq (p : Nat) : Nat := pl p 0 32
def scRaise (p : Nat) : Bool := pl p 32 1 = 1

def specSettingsConfirm : OpSpec where
  ring := .m
  lo := 1
  hi := 1
  head e p := checks [(0, e.home = .k)] ++ reservedPl p [(33, 479)]
  exam s h p x :=
    let inForce : Bool := match s.q.settings with | some r => r.writeSeq = scSeq p && s.q.slotInForce.isSome | none => false
    x.badWhen (!inForce || !s.together h) 512

/-- SETTINGS_CONFIRM: the record in force is CONFIRMED in both devices, their other slots are erased, and BOOT_FAILS is 0 (R489). -/
def execSettingsConfirm (id : Nat) (s : State) : Host.Outcome State Fault Refusal :=
  .next (onCommand s id 0x0B04 (fun _ => true) fun t h c =>
    match t.q.settings, t.q.slotInForce with
    | some r, some i =>
      if !t.siphonUp then t else
      let n : Settings := { r with confirmed := true, secFloor := if scRaise c.packet then t.q.measures.secEpoch else r.secFloor }
      let u := t.writeSlot i n
      let tidy (g : Half) (x : HalfState) : HalfState :=
        let same : Bool := match x.settings with | some m => m.writeSeq = r.writeSeq | none => false
        { x with
          flash := { x.flash.setSlot (1 - i) none with bootFails := 0 }
          settings := if same then some { n with signedBy := some g } else x.settings }
      ((u.modHalf .q (tidy .q)).modHalf .k (tidy .k)).finish h c (okResult 0 0 0)
    | _, _ => t)

/-! ## ATTEST (R490, R491) -/

def atMode (p : Nat) : Nat := pl p 0 2
def atNonce (p : Nat) : Nat := pl p 256 256

def specAttest : OpSpec where
  ring := .m
  lo := 2
  hi := 2
  head _ p := checks [(512, atMode p = 3)]

/-- The MEASURE record of a half (R491). -/
def Measures.record (m : Measures) : Nat :=
  place 1 0 8 + place Config.romVersion.toNat 8 8 + place m.loaderVersion 16 16 + place m.fwVersion 32 32 + place m.secEpoch 64 16
  + place m.settingsId 80 16 + place m.actCount 96 32 + place m.loaderDigest 128 256 + place m.imageDigest 384 256
  + place m.settingsDigest 640 256

/-- What ATTEST shares: results overwrite both payload units (R76, R491). -/
def attest (s : State) (id mode : Nat) (f : Half → Measures → Nat → Nat) : State :=
  onCommand s id 0x0B05 (fun c => atMode c.packet = mode) fun t h c =>
    t.finish h c { okResult 0 0 0 with payload := some (bytesOf 128 (f h (t.half h).measures c.packet)) }

/-- ATTEST_MEASURE returns the measurement record. -/
def execAttestMeasure (id : Nat) (s : State) : Host.Outcome State Fault Refusal :=
  .next (attest s id 0 fun _ m _ => m.record)

/-- The message that ATTEST signs: nonce, MEASURE record and partition byte (R491). -/
def attestMessage (nonce record part : Nat) : Nat := nonce + 2 ^ 256 * record + 2 ^ 1280 * part

/-- ATTEST_SIGN returns a signature under ID, and ACT_COUNT as signed. -/
def execAttestSign (id : Nat) (s : State) : Host.Outcome State Fault Refusal :=
  .next (attest s id 1 fun h m p =>
    place (Config.sign h.part "ID" (attestMessage (atNonce p) m.record h.part)) 0 912 + place m.actCount 912 32)

/-- ATTEST_IDENTITY returns the half's ID public key. -/
def execAttestIdentity (id : Nat) (s : State) : Host.Outcome State Fault Refusal :=
  .next (attest s id 2 fun h _ _ => place (Config.idPublicKey h.part) 0 456)

end Sys2Proof.Machine
end

