-- ==== Sys2Proof/Machine/Scales.lean ====
section
/-! DEFINITION. Scale slots (R166 to R176): SCALE_LOAD with its three operations, and SCALE_READ. -/

namespace Sys2Proof.Machine

/-! ## SCALE_LOAD (R174) -/

/-- Entry `i` of a SCALE_LOAD. -/
def slEntry (p i : Nat) : Nat := pl p (128 * i) 128

/-- Entries of a SCALE_LOAD. -/
def slEntries (p : Nat) : List Nat := (List.range (4 * pkUnits p)).map (slEntry p)

def slSlot (v : Nat) : Nat := bits v 0 12
def slOp (v : Nat) : Nat := bits v 12 4
def slCount (v : Nat) : Nat := bits v 16 13

/-- Checks of one entry, with offsets from its first bit (R174). -/
def slChecks (v : Nat) : List Check :=
  let op := slOp v
  let exp := signed (bits v 32 8) 8
  let fmt := bits v 41 3
  let set := op == 1
  checks [(0, op = 0 && slSlot v ≠ 0), (12, op > 3), (16, (op = 0 && slCount v ≠ 0) || slSlot v + slCount v > Config.scaleSlots),
    reservedCheck 0 v 29 3, (32, if set then exp < -63 || exp > 63 else bits v 32 8 ≠ 0), (40, !set && bitSet v 40),
    (41, if set then fmt ≠ 3 && fmt ≠ 4 else fmt ≠ 0), reservedCheck 0 v 44 20,
    (64, if set then bits v 64 32 ≥ 0x7F800000 else bits v 64 32 ≠ 0), reservedCheck 0 v 96 32]

def specScaleLoad : OpSpec where
  ring := .c
  lo := 1
  hi := 64
  head _ p := (List.range (4 * pkUnits p)).flatMap fun i => (slChecks (slEntry p i)).map fun c => (512 + 128 * i + c.1, c.2)
  exam s h p x :=
    { (examTogether s h p x) with empty := (slEntries p).all fun v => slOp v = 0 || slCount v = 0, workHome := 1 }
  mirrored s h p := ctxBoth s h p

/-- SET (R174). -/
def scaleSet (v : Nat) (_ : ScaleSlot) : ScaleSlot :=
  { exp := signed (bits v 32 8) 8, held := bitSet v 40, fmtRef := bits v 41 3, hist := List.replicate 16 (bits v 64 32) }

/-- ADVANCE (R171). -/
def ScaleSlot.advance (x : ScaleSlot) : ScaleSlot :=
  let hist := if x.pendingValid then x.hist.set x.head x.pendingAmax else x.hist
  let head := if x.pendingValid then (x.head + 1) % 16 else x.head
  let f := (Fmt.ofCode x.fmtRef).getD .e4m3
  let e0 := match x.held, f32 (greatest hist) with
    | false, .fin _ m e => if m = 0 then x.exp else smallestExp f true m e
    | _, _ => x.exp
  let e1 := if x.ovfNew then e0 + 1 else e0
  { x with
    hist := hist, head := head, pendingAmax := 0, pendingValid := false, ovfNew := false
    exp := min (max e1 (-63)) 63 }

/-- CLEAR_OVF (R174). -/
def ScaleSlot.clearOvf (x : ScaleSlot) : ScaleSlot := { x with ovf := false, ovfCount := 0 }

/-- The pending state and overflow bits of two halves' copies merged into one (R173). -/
def ScaleSlot.merge (x y : ScaleSlot) : ScaleSlot :=
  { x with
    pendingAmax := max x.pendingAmax y.pendingAmax, pendingValid := x.pendingValid || y.pendingValid
    ovf := x.ovf || y.ovf, ovfNew := x.ovfNew || y.ovfNew }

/-- The slots an entry names. -/
def slSlots (v : Nat) : List Nat := (List.range (slCount v)).map (slSlot v + ·)

/-- Apply a slot operation in every half of the context's footprint; `merged` first merges the halves' copies (R173). -/
def State.scaleApply (s : State) (ctx footprint v : Nat) (merged : Bool) (f : ScaleSlot → ScaleSlot) : State :=
  let both := footprint = 3 && merged
  let go (t : State) (n : Nat) : State :=
    (footprintHalves footprint).foldl (fun u g =>
      u.modHalf g fun x => x.modCtx ctx fun c =>
        let mine := c.scale n
        let start := if both then mine.merge (((t.half g.other).ctx ctx).scale n) else mine
        { c with scales := put n (f start) c.scales }) t
  (slSlots v).foldl go s

/-- The next entries of a SCALE_LOAD: those at the cursor that carry the row's OP, empty ones passed over. The command finishes with
the last. `left` bounds the entries. -/
def scaleEntries (op : Nat) (merged : Bool) (f : Nat → ScaleSlot → ScaleSlot) : Nat → State → Half → Cmd → State
  | 0, s, h, c => s.finish h c (okResult 0 0 0)
  | left + 1, s, h, c =>
    let v := slEntry c.packet c.cursor
    let next := { c with cursor := c.cursor + 1 }
    if slOp v = 0 then scaleEntries op merged f left s h next
    else if slOp v = op then
      scaleEntries op merged f left (s.scaleApply (pkCtx c.packet) (s.ctxAny h (pkCtx c.packet)).footprint v merged (f v)) h next
    else s.setCmd h c

/-- Perform the entries of a SCALE_LOAD with one OP, when the next entry that is not empty carries it. -/
def scaleRow (s : State) (id op : Nat) (merged : Bool) (f : Nat → ScaleSlot → ScaleSlot) : State :=
  onCommand s id 0x0205 (fun c => ((slEntries c.packet).drop c.cursor).find? (slOp · ≠ 0) |>.any (slOp · = op)) fun t h c =>
    scaleEntries op merged f (4 * pkUnits c.packet - c.cursor) t h c

def execScaleLoadSet (id : Nat) (s : State) : Host.Outcome State Fault Refusal := .next (scaleRow s id 1 false scaleSet)

def execScaleLoadAdvance (id : Nat) (s : State) : Host.Outcome State Fault Refusal :=
  .next (scaleRow s id 2 true fun _ => ScaleSlot.advance)

def execScaleLoadClearOvf (id : Nat) (s : State) : Host.Outcome State Fault Refusal :=
  .next (scaleRow s id 3 false fun _ => ScaleSlot.clearOvf)

/-! ## SCALE_READ (R175) -/

def srFirst (p : Nat) : Nat := pl p 0 12
def srCount (p : Nat) : Nat := pl p 16 13
def srFull (p : Nat) : Bool := pl p 29 1 = 1

def specScaleRead : OpSpec where
  ring := .c
  lo := 1
  hi := 64
  head _ p := checks [(112, if srFull p then srCount p > pkUnits p / 2 else srCount p > 4 * pkUnits p),
      (512 + 16, srFirst p + srCount p > Config.scaleSlots)] ++ reservedPl p [(12, 4), (30, 482)]
  exam s h p x := { (examTogether s h p x) with empty := srCount p = 0, workHome := 1 }
  mirrored s h p := ctxBoth s h p

/-- The compact record of a slot (R175), OVF_COUNT given. -/
def scaleRecord (x : ScaleSlot) (count : Nat) : Nat :=
  place (unsigned x.exp 8) 0 8 + place (if x.held then 1 else 0) 8 1 + place x.fmtRef 9 3 + place (if x.ovf then 1 else 0) 12 1
  + place (if x.ovfNew then 1 else 0) 13 1 + place (if x.pendingValid then 1 else 0) 14 1 + place count 16 16
  + place x.pendingAmax 32 32 + place (greatest x.hist) 64 32 + place x.head 96 4

/-- A slot as both halves of the footprint have it (R173), with the overflow events of both. -/
def State.scaleMerged (s : State) (ctx footprint n : Nat) : ScaleSlot × Nat :=
  let a := (s.q.ctx ctx).scale n
  let b := (s.k.ctx ctx).scale n
  if footprint = 3 then (a.merge b, min (a.ovfCount + b.ovfCount) 0xFFFF)
  else if footprint = 2 then (b, b.ovfCount) else (a, a.ovfCount)

/-- The bytes SCALE_READ writes over its payload. -/
def scaleBytes (s : State) (ctx footprint : Nat) (p : Nat) : List Nat :=
  (List.range (srCount p)).flatMap fun i =>
    let x := s.scaleMerged ctx footprint (srFirst p + i)
    let rec0 := bytesOf 16 (scaleRecord x.1 x.2)
    if srFull p then rec0 ++ List.replicate 48 0 ++ x.1.hist.flatMap (bytesOf 4) else rec0

/-- Payload bytes with their first part overwritten. -/
def overPayload (p : Nat) (bs : List Nat) : List Nat := bs ++ (bytesOf (64 * pkUnits p) (p >>> 512)).drop bs.length

def execScaleRead (id : Nat) (s : State) : Host.Outcome State Fault Refusal :=
  .next (onCommand s id 0x0206 (fun _ => true) fun t h c =>
    let fp := (t.ctxAny h (pkCtx c.packet)).footprint
    t.finish h c { okResult 0 0 0 with payload := some (overPayload c.packet (scaleBytes t (pkCtx c.packet) fp c.packet)) })

end Sys2Proof.Machine
end

