-- ==== Sys2Proof/Machine/OpTable.lean ====
section
/-! DEFINITION. What each opcode of protocol version 1 supplies to the pipeline (R75). -/

namespace Sys2Proof.Machine

/-- The opcode table (R75). -/
def opSpec (op : Nat) : Option OpSpec :=
  match op with
  | 0x0000 => some specNop
  | 0x0001 => some specQueryGeometry
  | 0x0002 => some specRegRead
  | 0x0003 => some specRegWrite
  | 0x0004 => some specConfigCommit
  | 0x0005 => some specGateSet
  | 0x0006 => some specHangReport
  | 0x0007 => some specFreezeArm
  | 0x0008 => some specGaugeRead
  | 0x0009 => some specTraceCtl
  | 0x0101 => some specCtxDefine
  | 0x0102 => some specCtxSwitch
  | 0x0103 => some specCtxTeardown
  | 0x0104 => some specCtxRelease
  | 0x0105 => some specRingDefine
  | 0x0106 => some specRingDelete
  | 0x0107 => some specMapWrite
  | 0x0201 => some specTileProgramLoad
  | 0x0202 => some specTileRun
  | 0x0203 => some specMatmul
  | 0x0204 => some specVector
  | 0x0205 => some specScaleLoad
  | 0x0206 => some specScaleRead
  | 0x0301 => some specMove
  | 0x0302 => some specGatherBlocks
  | 0x0303 => some specScatterBlocks
  | 0x0401 => some specGramReduce
  | 0x0402 => some specRoot
  | 0x0403 => some specOrtho
  | 0x0501 => some specSolveBatch
  | 0x0601 => some specUpdate
  | 0x0602 => some specReconcile
  | 0x0603 => some specShardDigest
  | 0x0701 => some specTableDefine
  | 0x0702 => some specLookup
  | 0x0703 => some specHotsetLoad
  | 0x0704 => some specEmbGrad
  | 0x0705 => some specEmbFold
  | 0x0706 => some specRowMigrate
  | 0x0801 => some specWeightStream
  | 0x0802 => some specEpochSwitch
  | 0x0901 => some specReduceScatter
  | 0x0902 => some specAllGather
  | 0x0903 => some specAllReduce
  | 0x0A01 => some specCkptSlot
  | 0x0A02 => some specNeighbourCkpt
  | 0x0A03 => some specNeighbourRestore
  | 0x0B01 => some specFwStage
  | 0x0B02 => some specFwActivate
  | 0x0B03 => some specSettingsWrite
  | 0x0B04 => some specSettingsConfirm
  | 0x0B05 => some specAttest
  | _ => none

end Sys2Proof.Machine
end

