-- ==== Sys2Proof/Machine/Pipeline.lean ====
section
/-! DEFINITION. The Command Processor (R72, R82 to R91, R518) and the Cistern's admission (R56 to R66): the check at the head of a
ring, examination, admission, completion, mirroring and the windows of the energy ledger. -/

namespace Sys2Proof.Machine

/-! ## The check at the head of a ring -/

/-- Checks of one wait field at packet bit `b` (R71, R89). -/
def waitChecks (p i : Nat) (footprint : Nat) : List Check :=
  let b := 256 + 48 * i
  let w := bits p b 48
  if bitSet w 12 then [(b, !inFootprint footprint (gateHome (bits w 0 12))), reservedCheck b w 13 3]
  else [reservedCheck b w 0 48]

/-- Checks of one signal field (R71, R89). -/
def signalChecks (p i : Nat) (footprint : Nat) : List Check :=
  let b := 448 + 32 * i
  let w := bits p b 32
  if bitSet w 12 then
    [(b, !inFootprint footprint (gateHome (bits w 0 12))), reservedCheck b w 13 3, (b + 16, bits w 16 16 = 0)]
  else [reservedCheck b w 0 32]

/-- Does a context or ring kind take the opcode (R72, R75)? -/
def RingKind.takes (k : RingKind) (mgmt : Bool) : Bool :=
  match k with
  | .m => mgmt
  | .c => !mgmt
  | .a => true

/-- An enabled wait or signal of a command that no context scopes (R77). -/
def unscopedGates (p : Nat) : List Check :=
  (List.range 4).map (fun i => (256 + 48 * i, (pkWait p i).2.1)) ++
  (List.range 2).map fun i => (448 + 32 * i, (pkSignal p i).2.1)

/-- Does the command act for a context: on a context ring, or scoped on a management ring (R77)? -/
def ctxOf (spec : OpSpec) (ref : RingRef) (p : Nat) : Option Nat :=
  match ref with
  | .ctx c _ => some c
  | .mgmt => if spec.isScoped p then some (pkCtx p) else none

/-- Is a command attention-class: one of five opcodes with an OPERATOR_ID from 0xF000 (R415)? -/
def isAttention (p : Nat) : Bool :=
  pkOperator p ≥ 0xF000 && [0x0203, 0x0204, 0x0301, 0x0302, 0x0303].contains (pkOpcode p)

/-- M, N and K of an attention-class MATMUL (R415). -/
def attentionChecks (p : Nat) : List Check :=
  if isAttention p && pkOpcode p = 0x0203 then
    checks [(512, mmM p > Config.maxSeq), (512 + 32, mmN p > Config.maxSeq), (512 + 64, mmK p > Config.maxSeq)]
  else []

/-- Checks of the header (R70 to R72, R77, R407, R415) that give ERR_DESC, and the opcode's own. -/
def headChecks (s : State) (h : Half) (ref : RingRef) (spec : OpSpec) (p : Nat) : List Check :=
  let footprint := match ctxOf spec ref p with | some c => s.footprintOf c | none => 3
  let mgmt := ref = .mgmt
  let queue := match ref with | .mgmt => 0 | .ctx _ n => n
  let generation : List Check := match ref with
    | .ctx c _ => [(24, pkCtx p ≠ c), (32, pkCtx p = c && s.genOf h c < pkGen p)]
    | .mgmt =>
      if spec.isScoped p then [(32, s.genOf h (pkCtx p) < pkGen p)]
      else [(24, pkOpcode p ≠ 0x0101 && pkCtx p ≠ 0), (32, pkGen p ≠ 0)]
  checks [(0, !spec.ring.takes mgmt), reservedCheck 0 p 28 4, (64, pkQueue p ≠ queue), reservedCheck 0 p 69 3,
      (72, !spec.classes.contains (pkClass p)),
      (77, pkRecompute p && (mgmt || (pkOpcode p = 0x0203 && mmCapture p))), (79, bits p 79 1 ≠ 0),
      (112, pkUnits p < spec.lo || spec.hi < pkUnits p)]
    ++ generation ++ attentionChecks p
    ++ (List.range 4).flatMap (fun i => waitChecks p i footprint)
    ++ (List.range 2).flatMap (fun i => signalChecks p i footprint)
    ++ (if (ctxOf spec ref p).isNone then unscopedGates p else [])
    ++ spec.head { home := h, footprint := footprint, mgmt := mgmt } p

/-- ERR_UNSUPPORTED, naming a field (R74). -/
def unsupportedField (bit : Nat) : Result := { status := stUnsupported, d0 := rsField, d1 := bit, signals := false }

/-- ERR_CONTEXT_DEAD, with the generation that ended (R74). -/
def deadResult (gen : Nat) : Result := { status := stDead, d0 := rsTornDown, d1 := gen, signals := false }

/-- The refusal of a packet by the checks that rest on it alone, in the order of R14: ERR_UNSUPPORTED, ERR_VERSION,
ERR_CONTEXT_DEAD, ERR_DESC. -/
def headRefusal (s : State) (h : Half) (ref : RingRef) (p : Nat) : Option Result :=
  match opSpec (pkOpcode p) with
  | none => some (unsupportedField 0)
  | some spec =>
    if pkVersion p ≠ Config.protocolVersion then some (unsupportedField 16)
    else match (if spec.lo ≤ pkUnits p then spec.unsupported p else none) with
    | some bit => some (unsupportedField bit)
    | none =>
      let dead : Bool := match ctxOf spec ref p with
        | some c => pkGen p < s.genOf h c
        | none => false
      let version : Bool := match ref with
        | .ctx c _ => (s.ctxAny h c).alive && pkVersion p ≠ (s.ctxAny h c).version
        | .mgmt => false
      if version then some { status := stVersion, d0 := rsField, d1 := 16, signals := false }
      else if dead then some (deadResult (pkGen p))
      else
        match firstBad (headChecks s h ref spec p) with
        | some bit => some (refuseField bit)
        | none => spec.headMore { home := h, footprint := match ctxOf spec ref p with | some c => s.footprintOf c | none => 3
                                  mgmt := ref = .mgmt } p

/-- Refuse the packet at the head of a ring: its reply is written at once and its slots leave the ring (R13, R518). -/
def State.refuse (s : State) (h : Half) (r : Ring) (p slots : Nat) (res : Result) : State :=
  let word := replyWord (pkSeq p) res.status (pkCtx p) (s.now h) 0 res.d0 res.d1 res.d2
  let s1 := (s.pushReply h r.ref word).portReply h r.ref (r.cmdHead % r.slots) (pkUnits p) word
  s1.modHalf h fun x => match x.ring? r.ref with
    | some y => x.setRing r.ref (y.advance slots)
    | none => x

/-- May a half fetch from a ring: management rings while its firmware runs, context rings while it is READY and the context is
resident (R82, R84)? -/
def State.serves (s : State) (h : Half) (r : Ring) : Bool :=
  let x := s.half h
  match r.ctx with
  | none => x.running
  | some c => s.ready h && x.reset.isNone && x.resident = some c && (x.ctx c).st = .resident

/-- HEAD_CHECK: a packet that reaches the head of its ring is checked on the packet alone and refused at once if it fails (R518).
One with a damaged block ends with ERR_INTEGRITY, and the slots that its header names leave the ring (R352; DESIGN CHOICE, log entry 105).
A packet longer than its ring is refused as soon as its header is there, with the slots up to CMD_TAIL (R85). -/
def execHeadCheck (h : Half) (r : RingRef) (s : State) : Host.Outcome State Fault Refusal :=
  .next (match (s.half h).ring? r with
    | none => s
    | some ring =>
      if ring.checked || !s.serves h ring || !(s.half h).fetches ring then s else
      let avail := ringGap ring.slots ring.cmdHead ring.cmdTail
      if avail = 0 then s else
      let head := numOf (s.readSlots h ring ring.cmdHead 1)
      let n := min (min (1 + pkUnits head) ring.slots) avail
      match s.slotDamage h ring ring.cmdHead n with
      | some a => (s.refuse h ring head n { sealResult a with signals := false }).sealFault a ring.ctx
      | none =>
      if 1 + pkUnits head > ring.slots then s.refuse h ring head avail (refuseField 112 avail)
      else match s.headPacket h ring with
        | none => s
        | some p =>
          match headRefusal s h r p with
          | some res => s.refuse h ring p (1 + pkUnits p) res
          | none => s.modHalf h fun x => x.setRing r { ring with checked := true })

/-! ## Readiness and examination -/

/-- Is a gate wait of a packet satisfied (R77, R90)? Gates of a context that is not resident do not hold. -/
def State.waitsHold (s : State) (h : Half) (ctx : Option Nat) (p : Nat) : Bool :=
  match ctx with
  | none => true
  | some c => (pkWaits p).isEmpty ||
      ((s.half h).resident = some c && (pkWaits p).all fun w => waitHolds (s.gate c w.1) w.2)

/-- Has every earlier command of a ring completed (R87)? Admitted and suspended commands of the ring are all earlier. -/
def HalfState.alone (x : HalfState) (r : RingRef) : Bool := (x.cmds ++ x.suspended).all (·.ring ≠ r)

/-- A halted context's rings admit SHARD_DIGEST, MOVE, GATHER_BLOCKS and SCATTER_BLOCKS only (R277). -/
def State.haltHolds (s : State) (h : Half) (ring : Ring) (p : Nat) : Bool :=
  match ring.ctx with
  | some c => ((s.half h).ctx c).halted && !([0x0603, 0x0301, 0x0302, 0x0303].contains (pkOpcode p))
  | none => false

/-- Is the head command ready (R51, R86, R87)? -/
def State.headReady (s : State) (h : Half) (ring : Ring) (spec : OpSpec) (p : Nat) : Bool :=
  ring.checked && s.serves h ring && (s.half h).fetches ring && pkStart p ≤ s.now h && !(s.haltHolds h ring p)
    && s.waitsHold h (ctxOf spec ring.ref p) p && (!pkOrdered p || (s.half h).alone ring.ref) && !spec.busy s h p

/-- The estimate of a work count in fJ (R61). -/
def HalfState.estimate (x : HalfState) (h : Half) (p work : Nat) : Nat := x.fjPerUnit h (pkClass p) * work

/-- One mJ in fJ. -/
def mj : Nat := 10 ^ 12

/-- Does an estimate exceed a whole window (R62)? -/
def HalfState.overCap (x : HalfState) (h : Half) (fj : Nat) : Bool := fj > (x.capMj h - x.baseMj h) * mj

/-- The check of the header's WEIGHT_EPOCH against the epochs of the context (R369). -/
def examEpoch (s : State) (h : Half) (ctx : Option Nat) (p : Nat) (x : Exm) : Exm :=
  match ctx with
  | some c => x.badWhen (pkEpoch p ≠ 0 && !((s.ctxAny h c).epochs.any (·.num = pkEpoch p))) 192
  | none => x.badWhen (pkEpoch p ≠ 0) 192

/-- A waiting head that names the other half's gates or rings while the halves cannot act together (R517): a two-half context. -/
def examReach (s : State) (h : Half) (ref : RingRef) (x : Exm) : Exm :=
  match ref with
  | .ctx c _ => x.badWhen (inFootprint ((s.half h).ctx c).footprint h.other && !s.together h) 24
  | .mgmt => x

/-- The examination of a ready packet (R518): the generation again, then the records and state, then the energy cap. The work count of
class 0 is one command (R59). -/
def examine (s : State) (h : Half) (ref : RingRef) (spec : OpSpec) (p : Nat) : Except Result Exam :=
  let ctx := ctxOf spec ref p
  let c : Cmd := { id := 0, ring := ref, packet := p, ctx := ctx, gen := pkGen p, cfg := (s.half h).regs, cfgOther := (s.half h.other).regs }
  let dead : Bool := match ctx with | some i => pkGen p < s.genOf h i | none => false
  if dead then .error (deadResult (pkGen p)) else
  let x0 : Exm := { env := s.envCmd h c, run := { mem := s.view }, attention := isAttention p }
  let x := spec.exam s h p (examReach s h ref (examEpoch s h ctx p x0))
  let integrity : Bool := match x.run.stop with | some r => r.status = stIntegrity | none => false
  if integrity then .ok { records := x.records, ended := x.run.stop }
  else match firstRefusal x.bads with
    | some r => .error r
    | none =>
      match x.run.stop with
      | some r => .error r
      | none =>
        if x.empty then .ok { records := x.records, ended := some emptyResult }
        else
          let home := if pkClass p = 0 && x.workHome = 0 && x.workOther = 0 then 1 else x.workHome
          let a := (s.half h).estimate h p home
          let b := (s.half h.other).estimate h.other p x.workOther
          if !spec.exempt && (s.half h).overCap h a then
            .error { status := stEnergyCap, d0 := rsEnergy, d1 := sat32 (a / mj)
                     d2 := sat32 ((s.half h).capMj h - (s.half h).baseMj h), signals := false }
          else if !spec.exempt && (s.half h.other).overCap h.other b then
            .error { status := stEnergyCap, d0 := rsEnergy, d1 := sat32 (b / mj)
                     d2 := sat32 ((s.half h.other).capMj h.other - (s.half h.other).baseMj h.other), signals := false }
          else .ok { records := x.records, workHome := home, workOther := x.workOther, untested := x.untested
                     domains := (x.ranges.flatMap x.env.rangeDomains).eraseDups }

/-! ## Energy (R57, R61 to R65) -/

/-- Admitted commands of a half that have not completed: those at work and those suspended by a context switch (R97). -/
def HalfState.uncompleted (x : HalfState) : List Cmd := x.cmds ++ x.suspended

/-- Energy committed in a half, in fJ: what admitted and uncompleted commands may still draw (R61). A command homed in the other half
counts with the part of its estimate that runs here (R65). -/
def State.committed (s : State) (h : Half) : Nat :=
  total ((s.half h).uncompleted.map fun c => c.estimate - c.metered)
    + total ((s.half h.other).uncompleted.map fun c => c.estimateOther - c.meteredOther)

/-- The allowance of the current window in fJ, which debt can bring to nothing (R57). Fractions of a mJ are kept. -/
def HalfState.allowance (x : HalfState) (h : Half) : Nat :=
  min (x.capMj h * mj * x.derate / 100 + x.level) (x.peakMj h * mj * x.derate / 100) - x.debt

/-- The allowance before debt, and the debt, compare as integers: may `need` fJ more be drawn (R57, R61)? -/
def HalfState.covers (x : HalfState) (h : Half) (need : Nat) : Bool :=
  need + x.debt ≤ min (x.capMj h * mj * x.derate / 100 + x.level) (x.peakMj h * mj * x.derate / 100)

/-- Strokes left in the current window (R54). -/
def strokesLeft (count : Nat) : Nat := 100000 - count % 100000

/-- The test of R61 for an estimate in one half. -/
def State.passes (s : State) (h : Half) (estimate : Nat) : Bool :=
  let x := s.half h
  x.covers h (x.drawn + s.committed h + estimate + x.baseMj h * mj * strokesLeft x.count / 100000)

/-- Is a half below the preferred level (R63 rule 2)? -/
def State.lowLevel (s : State) (h : Half) : Bool :=
  let x := s.half h
  !x.covers h (x.drawn + s.committed h + x.preferMj h * mj)

/-- Does the energy test apply: not to exempt commands, nor to those that examination ended (R61, R106)? -/
def needsEnergy (spec : OpSpec) (e : Exam) : Bool := !spec.exempt && e.ended.isNone && !e.untested

/-- The halves in which a command homed in `h` has work: the home half unless all of it lies in the other (R65). -/
def Exam.halves (e : Exam) (h : Half) : List Half :=
  if e.workOther = 0 then [h] else if e.workHome = 0 then [h.other] else [h, h.other]

/-- The part of a command's estimate that runs in a half (R65). -/
def State.estimateIn (s : State) (home g : Half) (p : Nat) (e : Exam) : Nat :=
  (s.half g).estimate g p (if g = home then e.workHome else e.workOther)

/-- The test of R61 in one half, for a command homed in `home`. -/
def State.passesIn (s : State) (home g : Half) (p : Nat) (e : Exam) : Bool := s.passes g (s.estimateIn home g p e)

/-- The test of R61 in every half where the command has work (R65). -/
def State.passesBoth (s : State) (h : Half) (p : Nat) (e : Exam) : Bool := (e.halves h).all fun g => s.passesIn h g p e

/-- The examined head of a ring, while it is ready. -/
def State.examined (s : State) (h : Half) (r : Ring) : Option (OpSpec × Nat × Exam) :=
  match r.exam, s.headPacket h r with
  | some e, some p =>
    match opSpec (pkOpcode p) with
    | some spec => if s.headReady h r spec p then some (spec, p, e) else none
    | none => none
  | _, _ => none

/-- The held heads that stop other non-exempt admission (R63 rule 4), in either half: with the half of their ring, Queenside and
management ring first, then in the order of the ring list. -/
def State.drainers (s : State) : List (Half × Ring) :=
  [Half.q, .k].flatMap fun g =>
    (((s.half g).mgmt :: (s.half g).rings).filter fun r => (r.drains || r.drainsOther) && (s.examined g r).isSome).map (g, ·)

/-- Does a held head, whose ring belongs to half `g`, stop other admission in half `w`? -/
def Ring.drainsIn (r : Ring) (g w : Half) : Bool := if g = w then r.drains else r.drainsOther

/-- Does a draining head stop the head of a ring in one of some halves (R63 rule 4)? DESIGN CHOICE (log entry 97): of several draining
heads the first listed goes first, and stops the others too. -/
def State.drainStops (s : State) (h : Half) (ref : RingRef) (halves : List Half) : Bool :=
  (s.drainers.takeWhile fun d => !(d.1 = h && d.2.ref = ref)).any fun d => halves.any fun w => d.2.drainsIn d.1 w

/-- Is a head admitted now: energy, the preferred level and the drain rule, in every half where it has work (R61, R63, R65)? -/
def State.admissible (s : State) (h : Half) (r : Ring) (spec : OpSpec) (p : Nat) (e : Exam) : Bool :=
  if !needsEnergy spec e then true
  else
    !s.drainStops h r.ref (e.halves h) && (pkPreferred p || (e.halves h).all fun g => !s.lowLevel g) && s.passesBoth h p e

/-! ## Admission -/

/-- Exponents of the context's scale slots as they stand (R169). -/
def Ctx.exponents (c : Ctx) : List (Nat × Int) := c.scales.map fun x => (x.1, x.2.exp)

/-- Admit the head of a ring (R518): it leaves the ring, reserves its estimate, reads engine configuration and scale exponents,
takes an epoch reference, wakes gated domains (R68) and, if it acts in both halves, is copied across the Siphon (R31). -/
def State.admitCommand (s : State) (h : Half) (r : Ring) (spec : OpSpec) (p : Nat) (e : Exam) : State :=
  let x := s.half h
  let ctx := ctxOf spec r.ref p
  let domains := (spec.domains s h p ++ e.domains).eraseDups
  let two := spec.mirrored s h p
  let c : Cmd :=
    { id := s.nextId, ring := r.ref, slot := r.cmdHead % r.slots, packet := p, ctx := ctx, gen := pkGen p, exam := e
      admitted := x.count, cfg := x.regs, cfgOther := (s.half h.other).regs, scales := (match ctx with | some i => (s.ctxAny h i).exponents | none => [])
      rings := (s.q.ringPhases .q (pl p 0 512), s.k.ringPhases .k (pl p 0 512))
      estimate := if needsEnergy spec e then x.estimate h p e.workHome else 0
      estimateOther := if needsEnergy spec e then (s.half h.other).estimate h.other p e.workOther else 0
      twoHalf := two, domains := domains, done := e.ended }
  let wake (t : State) (d : Nat) : State := t.modHalf (Half.ofPart (d / 17)) fun y =>
    if y.gated.contains (d % 17) then
      { y with gated := y.gated.filter (· ≠ d % 17), waking := y.waking ++ [d % 17] } else y
  let s1 := s.modHalf h fun y =>
    let z := match y.ring? r.ref with | some q => y.setRing r.ref (q.advance (1 + pkUnits p)) | none => y
    let ringNo := match r.ref with | .mgmt => 0 | .ctx _ n => n
    ({ z with
        cmds := z.cmds ++ [c], lastAdmission := some z.count, lastRing := some r.ref
        lastServed := if r.ctx.isSome then z.lastServed.set r.priority (r.num + 1) else z.lastServed }).tracePacket 1 p
      ringNo ((c.estimate + c.estimateOther) / 10 ^ 9)
  domains.foldl wake { s1 with nextId := s1.nextId + 1 }

/-- Hold the head of a ring for energy (R63): the stroke at which it was first held is kept, and the hold is traced. -/
def State.hold (s : State) (h : Half) (r : Ring) (p : Nat) (fj : Nat) : State :=
  s.modHalf h fun x => match x.ring? r.ref with
    | some q => if q.firstHeld.isSome then x else
        (x.setRing r.ref { q with firstHeld := some x.count }).tracePacket 3 p (match r.ref with | .mgmt => 0 | .ctx _ n => n) (fj / 10 ^ 9)
    | none => x

/-- EXAMINATION: a ready head is examined once (R518). A refusal is written at once; a command that fails the energy test is held
at the head of its ring (R63). -/
def execExamination (h : Half) (r : RingRef) (s : State) : Host.Outcome State Fault Refusal :=
  .next (match (s.half h).ring? r with
    | none => s
    | some ring =>
      match s.headPacket h ring with
      | none => s
      | some p =>
        match opSpec (pkOpcode p) with
        | none => s
        | some spec =>
          if ring.exam.isSome || !s.headReady h ring spec p then s else
          match examine s h r spec p with
          | .error res => s.refuse h ring p (1 + pkUnits p) res
          | .ok e =>
            let s1 := s.modHalf h fun x => x.setRing r { ring with exam := some e }
            if s.admissible h ring spec p e then s1 else s1.hold h ring p (s.estimateIn h h p e + s.estimateIn h h.other p e))

/-- Context rings in the order of R86: by priority, and among equals by number starting after the ring last served at it. -/
def HalfState.ringOrder (x : HalfState) (resident : Nat) : List Ring :=
  let mine := x.rings.filter (·.ctx = some resident)
  [3, 2, 1, 0].flatMap fun q =>
    (List.range 32).filterMap fun i => mine.find? fun r => r.priority = q && r.num = (x.lastServed.at q + i) % 32

/-- Rings in the order in which the CMP chooses (R86): the management ring first. -/
def HalfState.arbitration (x : HalfState) : List Ring :=
  x.mgmt :: (match x.resident with | some c => x.ringOrder c | none => [])

/-- The examined head of a ring that is ready and passes, if there is one (R86). -/
def State.candidate (s : State) (h : Half) (r : Ring) : Option (OpSpec × Nat × Exam) :=
  match s.examined h r with
  | some (spec, p, e) => if s.admissible h r spec p e then some (spec, p, e) else none
  | none => none

/-- Admit the first candidate of a list of rings; a ready head that does not pass on the way is marked held. -/
def State.admitFirst (s : State) (h : Half) : List Ring → State
  | [] => s
  | r :: rest =>
    match s.candidate h r with
    | some (spec, p, e) => s.admitCommand h r spec p e
    | none =>
      (match s.examined h r with
        | some (_, p, e) => s.hold h r p (s.estimateIn h h p e + s.estimateIn h h.other p e)
        | none => s).admitFirst h rest

/-- May the CMP admit: its interval of 80 strokes has passed (R107), and the events of the stroke have taken effect (R52)? -/
def HalfState.mayAdmit (x : HalfState) : Bool :=
  x.boot ≠ .off && x.reset.isNone && x.activating.isNone && !x.eventDue &&
  match x.lastAdmission with | some t => t + 80 ≤ x.count | none => true

/-- A held head has been considered at a window start of half `w` (R63 rule 4): it failed R61 there, which after two such window starts
makes it drain, or passed, which breaks the run. It drains until it is admitted. -/
def Ring.considered (r : Ring) (home : Bool) (failed : Bool) : Ring :=
  if home then
    let n := if failed then r.failedStarts + 1 else 0
    { r with failedStarts := n, drains := r.drains || 2 ≤ n }
  else
    let n := if failed then r.failedOther + 1 else 0
    { r with failedOther := n, drainsOther := r.drainsOther || 2 ≤ n }

/-- The held heads that a window start of half `w` put first are considered (R63 rule 1), one admission at a time as R107 has it: one
that passes is admitted in the half of its ring; one that does not leaves the list. `true`: one was admitted, or waits for the
interval of R107. -/
def State.admitHeld (s : State) (w : Half) : List (Half × RingRef) → State × Bool
  | [] => (s.modHalf w fun x => { x with windowFirst := [] }, false)
  | (g, ref) :: rest =>
    match (s.half g).ring? ref with
    | none => s.admitHeld w rest
    | some r =>
      match s.examined g r with
      | none => s.admitHeld w rest
      | some (spec, p, e) =>
        if r.firstHeld.isNone || !(e.halves g).contains w then s.admitHeld w rest
        else if s.admissible g r spec p e then
          if (s.half g).mayAdmit then
            ((s.admitCommand g r spec p e).modHalf w fun x => { x with windowFirst := rest }, true)
          else (s.modHalf w fun x => { x with windowFirst := (g, ref) :: rest }, true)
        else
          (s.modHalf g fun x => x.setRing ref (r.considered (g = w) (!s.passesIn g w p e))).admitHeld w rest

/-- ADMISSION: the CMP of a half admits one command: the held heads of the window start first (R63), then those that R86 chooses among
the heads that pass R61 to R63. -/
def execAdmission (h : Half) (s : State) : Host.Outcome State Fault Refusal :=
  .next (if (s.half h).mayAdmit then
      let t := s.admitHeld h (s.half h).windowFirst
      if t.2 then t.1 else t.1.admitFirst h (t.1.half h).arbitration
    else s)

/-- MIRRORED_COMMAND: the copy of a command that acts in both halves crosses the Siphon in the COMMAND class, and both halves act on
it (R26, R31). -/
def execMirroredCommand (id : Nat) (s : State) : Host.Outcome State Fault Refusal :=
  .next (match s.cmd? id with
    | some (h, c) =>
      if c.twoHalf && !c.mirrored && s.together h then
        (s.setCmd h { c with mirrored := true }).crossFor (some (attrKey c.packet)) h .command (64 * (1 + pkUnits c.packet))
      else s
    | none => s)

/-- REMOTE_GATE_SIGNAL: the signals that crossed the Siphon to a half are applied to its gates (R92). -/
def execRemoteGateSignal (h : Half) (s : State) : Host.Outcome State Fault Refusal :=
  .next (if s.siphonUp then
      (s.half h).gateIn.foldl (fun (t : State) (g : Nat × Nat × Nat × Nat) => t.applySignal g.1 g.2.1 g.2.2.1)
        (s.modHalf h fun x => { x with gateIn := [] })
    else s)

/-! ## Completion -/

/-- The result of a command that waits for something outside its engines, once that has come about: a teardown's step 5 (R99), a
commit that has fired in every half it concerns (R102). -/
def State.settled (s : State) (c : Cmd) : Option Result :=
  let op := pkOpcode c.packet
  if !c.waiting then none
  else if op = 0x0103 || op = 0x0104 then
    if (s.q.ctx (pkCtx c.packet)).tearing || (s.k.ctx (pkCtx c.packet)).tearing then none else some (okResult 0 0 0)
  else if op = 0x0004 then
    let armed (e : Sched) : Bool := match e.kind with | .commit _ _ _ _ n => n = c.id | _ => false
    if s.q.events.any armed || s.k.events.any armed then none else some (okResult 0 0 0)
  else none

/-- The result with which a command is ready to leave: that of its engines, or what it waited for has come about. A command that a
teardown has stopped meanwhile ends as the teardown says (R99), and one that has found a divergence with that (R275). -/
def State.resultOf (s : State) (c : Cmd) : Option Result :=
  match (match c.done with | some r => some r | none => s.settled c) with
  | some r => some (c.stopWith.getD (c.outcome r))
  | none => none

/-- A replica whose copy has failed acknowledges its verdict as it leaves (R276). -/
def State.ackReplica (s : State) (c : Cmd) : State := if s.isPrimary c then s else s.ackVerdict c

/-- COMMAND_COMPLETE: a command whose engines have finished, with every frame it sent acknowledged, signals its gates and, once
signals that cross the Siphon have been applied, writes its reply (R73, R91, R92, R380). -/
def execCommandComplete (id : Nat) (s : State) : Host.Outcome State Fault Refusal :=
  .next (match s.cmd? id with
    | some (h, c) =>
      match s.resultOf c with
      | some r =>
        if (s.hasUnacked id && c.stopWith.isNone) || s.signalsOut id then s
        else if !c.signalled && s.signalsAcross h c r && s.siphonUp then
          (s.sendSignals h c r).setCmd h { c with signalled := true }
        else match c.ctx with
          | some i => ((s.retire h c r).ackReplica c).tearEnd i
          | none => s.retire h c r
      | none => s
    | none => s)

/-! ## Cistern windows -/

/-- The part of a window's metered energy that raw meters stand for: scaled so that the meters of the half, plus its base draw, equal
what has been sampled (R64). -/
def HalfState.scaled (x : HalfState) (h : Half) (raw : Nat) : Nat :=
  if x.windowRaw = 0 then 0 else raw * (x.drawn - x.baseMj h * mj / 100 * x.windowSamples) / x.windowRaw

/-- Change every admitted and suspended command of a half. -/
def HalfState.mapCmds (x : HalfState) (f : Cmd → Cmd) : HalfState := { x with cmds := x.cmds.map f, suspended := x.suspended.map f }

/-- Raw meters read for a command in a half, the home half of the command or the other. -/
def Cmd.meter (c : Cmd) (home : Bool) (n : Nat) : Cmd := if home then { c with raw := c.raw + n } else { c with rawOther := c.rawOther + n }

/-- The measured energy of the commands follows the meters of a half, as the sampled energy of the window scales them (R64). -/
def State.rescale (s : State) (h : Half) : State :=
  let share := (s.half h).scaled h
  (s.modHalf h fun x => x.mapCmds fun c => { c with metered := c.past + share c.raw }).modHalf h.other fun x =>
    x.mapCmds fun c => { c with meteredOther := c.pastOther + share c.rawOther }

/-- What earlier windows brought stands; the meters of a half begin again (R64). -/
def State.closeMeters (s : State) (h : Half) : State :=
  (s.modHalf h fun x => x.mapCmds fun c => { c with past := c.metered, raw := 0 }).modHalf h.other fun x =>
    x.mapCmds fun c => { c with pastOther := c.meteredOther, rawOther := 0 }

/-- CSC_SAMPLE: voltage and current are sampled once every 1,000 strokes and their product integrated; the meters of the commands are
scaled, over the window, so that with the base draw they equal the sampled energy (R54, R64). `meters` gives raw meter readings by
command. -/
def execCscSample (h : Half) (millivolts milliamps : Nat) (meters : List (Nat × Nat)) (s : State) :
    Host.Outcome State Fault Refusal :=
  let x := s.half h
  let slot := x.count / 1000
  .next (if x.boot = .off || x.sampleSlot = some slot then s else
    let s1 := s.modHalf h fun y =>
      { y with drawn := y.drawn + millivolts * milliamps * 10 ^ 4, millivolts := millivolts, milliamps := milliamps, sampleSlot := some slot
               windowSamples := y.windowSamples + 1, windowRaw := y.windowRaw + total (meters.map (·.2)) }
    (meters.foldl (fun (t : State) (m : Nat × Nat) =>
      [Half.q, .k].foldl (fun (u : State) g => u.modHalf g fun y => y.mapCmds fun c => if c.id = m.1 then c.meter (g = h) m.2 else c) t) s1).rescale h)

/-- DERATE_PCT of a junction temperature (R56). -/
def deratePct (tj : Nat) : Nat := if tj ≤ 95 then 100 else 100 - 5 * (tj - 95) / 2

/-- Insert a ring into a list ordered by the stroke of its first hold, after its equals. -/
def insertHeld (r : Half × Ring) : List (Half × Ring) → List (Half × Ring)
  | [] => [r]
  | q :: rest => if r.2.firstHeld.getD 0 < q.2.firstHeld.getD 0 then r :: q :: rest else q :: insertHeld r rest

/-- The held heads that have work in a half, in the order in which they were first held (R63 rule 1), with the half of their ring. -/
def State.heldHeads (s : State) (h : Half) : List (Half × RingRef) :=
  let held (g : Half) : List (Half × Ring) :=
    (((s.half g).mgmt :: (s.half g).rings).filter fun r => r.firstHeld.isSome && (g = h || (match r.exam with | some e => e.workOther ≠ 0 | none => false))).map (g, ·)
  ((held h ++ held h.other).foldl (fun l r => insertHeld r l) []).map fun r => (r.1, r.2.ref)

/-- WINDOW_START, at the first stroke of a window (R54): committed CSC fields take effect (R104), the hottest junction sets the derating
(R56), the allowance follows (R57), and held commands are considered first, in the order in which they were first held (R63). -/
def execWindowStart (h : Half) (hottest : Nat) (s : State) : Host.Outcome State Fault Refusal :=
  let k := (s.half h).count / 100000
  .next (if (s.half h).boot = .off || (s.half h).count % 100000 ≠ 0 || (s.half h).windowBegun = some k then s else
    let s1 := (s.closeMeters h).modHalf h fun x =>
      { x.applyCsc with tjMax := hottest % 256, derate := deratePct (hottest % 256), drawn := 0, windowStarts := x.windowStarts + 1
                        windowBegun := some k, windowSamples := 0, windowRaw := 0 }
    let s2 := s1.modHalf h fun x => { x with windowFirst := s1.heldHeads h }
    if (s2.half h).mayAdmit then (s2.admitHeld h (s2.half h).windowFirst).1 else s2)

/-- Reservoir level and debt after a window, from the energy drawn in it (R58). -/
def HalfState.closeWindow (x : HalfState) (h : Half) : HalfState :=
  let cap := x.capMj h * mj * x.derate / 100
  if x.drawn ≤ cap then { x with level := min (x.level + (cap - x.drawn)) (x.depthMj h * mj), debt := 0 }
  else
    let excess := x.drawn - cap
    { x with debt := excess - x.level, level := x.level - excess }

/-- WINDOW_END, at the last stroke of a window (R54): the ledger is updated (R58). -/
def execWindowEnd (h : Half) (s : State) : Host.Outcome State Fault Refusal :=
  .next (s.modHalf h fun x =>
    let k := x.count / 100000
    if x.boot = .off || x.count % 100000 ≠ 99999 || x.windowEnded = some k then x else { x.closeWindow h with windowEnded := some k })

/-! ## Power domains (R67, R68) -/

/-- Is a domain index idle-gated: tile arrays, memory-and-embedding, CLE/WSE (R67)? -/
def idleGated (d : Nat) : Bool := (d < 12 && d % 3 ≠ 2) || d == 13

/-- Does the head of a context ring that waits on a gate name engines in a domain (R68)? -/
def State.waitNames (s : State) (g : Half) (r : Ring) (d : Nat) : Bool :=
  match s.headPacket g r with
  | some p => r.ctx = (s.half g).resident && r.checked && !s.waitsHold g r.ctx p
      && (match opSpec (pkOpcode p) with | some spec => (spec.domains s g p).contains d | none => false)
  | none => false

/-- Does anything refer to an idle-gated domain of a half: an admitted command, a gate wait, a collective or a row migration (R68)? -/
def State.domainUsed (s : State) (h : Half) (d : Nat) : Bool :=
  s.allCmds.any (fun c => c.2.domains.contains (17 * h.part + d))
    || ([Half.q, .k].any fun g => (s.half g).rings.any fun r => s.waitNames g r (17 * h.part + d))
    || (d = 13 && (s.half h).ctxs.any fun c => !c.colls.all (!·.active))
    || (d < 12 && d % 3 = 1 && (s.migrating (4 * h.part + d / 3) ≠ 0 || s.holdsRows (4 * h.part + d / 3)))

/-- IDLE_GATING: a domain that nothing has used for IDLE_STROKES is gated; zero disables gating (R68). -/
def execIdleGating (h : Half) (domain : Nat) (s : State) : Host.Outcome State Fault Refusal :=
  let x := s.half h
  .next (if x.boot = .ready && idleGated domain && x.idleStrokes h ≠ 0 && x.idleStrokes h ≤ x.domainIdle.at domain
      && !s.domainUsed h domain && !x.gated.contains domain && !x.waking.contains domain then
    s.modHalf h fun y => { y with gated := y.gated ++ [domain] }
  else s)

/-- DOMAIN_WAKE: a gated domain finishes waking, and execution in it starts (R68). -/
def execDomainWake (h : Half) (domain : Nat) (s : State) : Host.Outcome State Fault Refusal :=
  .next (s.modHalf h fun x => { x with waking := x.waking.filter (· ≠ domain), domainIdle := x.domainIdle.set domain 0 })

end Sys2Proof.Machine
end

