-- ==== Sys2Proof/Machine/Power.lean ====
section
/-! DEFINITION. Power, reset inputs and start-up (R479 to R481, R496 to R506): the pins and supervisors, the boot states of a half,
TRAINING and READY, and recovery images. -/

namespace Sys2Proof.Machine

/-! ## Power (R496 to R501, R506) -/

/-- The module is OFF: no half has left it. -/
def State.isOff (s : State) : Bool := s.q.boot = .off && s.k.boot = .off

/-- Every domain switches off: what is left is flash, the pins and the latches supplied from VIN (R472, R496, R506). -/
def State.powerOff (s : State) : State :=
  let blank : State :=
    { s with
      q := { flash := s.q.flash }, k := { flash := s.k.flash }, mem := {}, siphon := 0, lanesRepaired := 0, switch := none
      starting := false, pgood := false, staging := none, writing := none, settingsStaging := none, dynamicAddress := none
      ibiEnabled := false, maxWrite := 4162, maxRead := 4162, portOut := [], portNack := false, ibi := false, recovHalf := .q
      tapInstruction := 1, tapOut := 0, boundary := 0 }
  (blank.loseMemory .q).loseMemory .k

/-- The power-on sequence of R500 starts where nothing keeps it from starting. -/
def State.powerOn (s : State) : State :=
  if s.pwrEn && !s.holdoff && !s.powerFailed && !s.hotDies && !s.thermTrip && !s.starting && s.isOff then { s with starting := true } else s

/-- PWR_EN_RISE (R500): ignored until the holdoff of R501 has passed, VIN is good (R496) and the dies are cool (R506). -/
def execPwrEnRise (s : State) : Host.Outcome State Fault Refusal :=
  .next (if s.pwrEn then s else ({ s with pwrEn := true } : State).powerOn)

/-- PWR_EN_FALL: power-off with no save and no collection; THERMTRIP_N is released (R501, R506). -/
def execPwrEnFall (s : State) : Host.Outcome State Fault Refusal :=
  .next (if !s.pwrEn then s else
    let s1 : State := { s with pwrEn := false, thermTrip := false, holdoff := true }
    if s1.starting || !s1.isOff then s1.powerOff else s1)

/-- PWR_EN_HOLDOFF_END: 100 ms after a power-off PWR_EN counts again (R501). -/
def execPwrEnHoldoffEnd (s : State) : Host.Outcome State Fault Refusal :=
  .next (if s.holdoff then ({ s with holdoff := false } : State).powerOn else s)

/-- A power fail: everything switches off, except in a module that is OFF already (R496). -/
def State.failPower (s : State) : State :=
  if s.starting || !s.isOff then ({ s with powerFailed := true } : State).powerOff else s

/-- POWER_FAIL: VIN outside 52 to 64 V for longer than R496 rides through. -/
def execPowerFail (millivolts : Nat) (s : State) : Host.Outcome State Fault Refusal :=
  .next (if millivolts < 52000 || 64000 < millivolts then s.failPower else s)

/-- REFCLK_LOSS is handled as a power fail (R498). -/
def execRefclkLoss (s : State) : Host.Outcome State Fault Refusal := .next s.failPower

/-- POWER_RESTART: VIN has been good for 100 ms (R496). -/
def execPowerRestart (s : State) : Host.Outcome State Fault Refusal :=
  .next (if s.powerFailed then ({ s with powerFailed := false } : State).powerOn else s)

/-- Has a half not reached ROM yet, at first or through a reset that met it in ALWAYS_ON (R503)? -/
def HalfState.beforeRom (x : HalfState) : Bool := x.boot = .off || x.boot = .alwaysOn || (x.boot = .rom && !x.bootSampled)

/-- RAIL_FAIL: a rail of a domain group, 1 to 7 in the order of R500, is not in tolerance by 150 ms. -/
def execRailFail (rail : Nat) (s : State) : Host.Outcome State Fault Refusal :=
  .next (if s.starting && s.q.beforeRom && s.k.beforeRom && 1 ≤ rail && rail ≤ 7 then { s.powerOff with railFail := rail } else s)

/-- THERMAL_TRIP: a die at or above 115 °C switches the module off and latches THERMTRIP_N (R506). -/
def execThermalTrip (_h : Half) (celsius : Nat) (s : State) : Host.Outcome State Fault Refusal :=
  .next (if 115 ≤ celsius && !s.isOff then { s.powerOff with thermTrip := true, tripped := true, hotDies := true } else s)

/-- DIES_COOLED: every die reads below 95 °C (R506). -/
def execDiesCooled (s : State) : Host.Outcome State Fault Refusal :=
  .next (if s.hotDies then ({ s with hotDies := false } : State).powerOn else s)

/-! ## Power for active cables (R494) -/

/-- The half whose port a flyover connector serves (R493): FC0 to FC3 are N, E, S and W of the Q half, FC4 the spur, FC5 to FC8 those of the
K half. -/
def connectorHalf (n : Nat) : Half := if n < 5 then .q else .k

/-- Is the link-PHY domain of a half on: its switched rails are up, and it is not in reset (R443, R446, R494, R500)? -/
def HalfState.linkPhyOn (x : HalfState) : Bool := !x.beforeRom && !x.resetting

/-- FC_PWR of connector `n`: switched with the link-PHY domain of its half, and off while that half is in reset (R492, R494). -/
def State.fcPwr (s : State) (n : Nat) : Bool := n < 9 && (s.half (connectorHalf n)).linkPhyOn

/-! ## Reset inputs (R502) -/

/-- Is HALF_RESET_N of a half low? -/
def State.heldReset (s : State) : Half → Bool
  | .q => s.halfResetQ
  | .k => s.halfResetK

def State.setHeld (s : State) (h : Half) (v : Bool) : State :=
  match h with
  | .q => { s with halfResetQ := v }
  | .k => { s with halfResetK := v }

/-- HALF_RESET_N_ASSERT: a half reset with LAST_TRIGGER 3, unless the half is resetting already (R443, R502). -/
def execHalfResetNAssert (h : Half) (s : State) : Host.Outcome State Fault Refusal :=
  .next (if s.heldReset h then s else (s.setHeld h true).halfReset h 0 3)

/-- Once MOD_RESET_N is high an instruction of the test access port that drives pins acts as BYPASS (R513). -/
def State.releaseTap (s : State) : State := if 3 ≤ s.tapInstruction then { s with tapInstruction := 0, tapOut := 0 } else s

/-- HALF_RESET_N_RELEASE: the input is high again, and the half may go on (R502). With both high, MOD_RESET_N is high too. -/
def execHalfResetNRelease (h : Half) (s : State) : Host.Outcome State Fault Refusal :=
  let s1 := s.setHeld h false
  .next (if s1.halfResetQ || s1.halfResetK then s1 else { s1 with modReset := false }.releaseTap)

/-- MOD_RESET_N_ASSERT: both halves reset in one stroke, with no collection; neither is READY to write the other's notice, so each
keeps its own (R434, R448, R502). -/
def execModResetNAssert (s : State) : Host.Outcome State Fault Refusal :=
  let s0 : State := { s with modReset := true, halfResetQ := true, halfResetK := true }
  let s1 := (s0.halfReset .q 0 3).halfReset .k 0 3
  let resets : Bool := s.q.boot ≠ .off && !s.q.resetting
  .next (if resets then s1.modHalf .q fun x =>
      { x with keptNotice := some (replyWord 0xFFFFFFFF stFault 0 s.q.count 0 rsEngine (causeOf .q 0 3) 3) }
    else s1)

/-! ## Boot (R473, R479 to R481, R500, R503) -/

/-- ALWAYS_ON_ENTRY: the stroke PLLs lock and the always-on domain of a half leaves power-on reset, its counter at 0 (R42, R500). -/
def execAlwaysOnEntry (h : Half) (s : State) : Host.Outcome State Fault Refusal :=
  .next (if s.starting && (s.half h).boot = .off then s.modHalf h fun x => { x with boot := .alwaysOn } else s)

/-- Enter ROM recovery mode (R479 to R481). -/
def HalfState.recover (x : HalfState) : HalfState :=
  { x with boot := .recovery, recovery := none, recovBytes := 0, recovResult := 0, recovStep := 0 }

/-- ROM_ENTRY: a half leaves ALWAYS_ON once its switched rails are in tolerance, sampling BOOT_SEL, or its cores start again after step
4 of a reset, held while HALF_RESET_N is low (R446, R480, R500, R502). The ROM recovers the root secret (R473), and enters recovery or starts the loader. -/
def execRomEntry (h : Half) (bootSel : Nat) (secretRecovered : Bool) (s : State) : Host.Outcome State Fault Refusal :=
  let x := s.half h
  let first : Bool := x.boot = .alwaysOn || !x.bootSampled
  let again : Bool := x.boot = .rom && (match x.reset with | some r => !r.collecting | none => false)
  .next (if !(first || again) || s.heldReset h then s else
    let y : HalfState := { x with reset := none, bootSampled := true, bootSel := if first then bootSel % 4 else x.bootSel }
    let z := if !secretRecovered then { y with boot := .identityFailed }
      else if y.bootSel = 1 || y.bootSel = 2 then y.recover
      else { y with boot := .loader }
    let s1 := s.setHalf h z
    if first then { s1 with pgood := true, railFail := 0 } else s1)

/-- LOADER_BOOT (R479). -/
def execLoaderBoot (h : Half) (s : State) : Host.Outcome State Fault Refusal :=
  let x := s.half h
  .next (if x.boot ≠ .loader || x.resetting then s else
    let l := x.runLoader h
    s.setHalf h (if l.2 then { l.1 with boot := .firmware } else l.1.recover))

/-- HBM_STATUS.STATE of a stack (R342). -/
def HalfState.setStack (x : HalfState) (h : Half) (i v : Nat) : HalfState :=
  x.setField h (regKey bHBM (i / 3) (i % 3) 1) 0 3 v

/-- A stack has trained: it is ACTIVE, and how many data lanes the training replaced is free (R342). -/
def HalfState.trainedStack (x : HalfState) (h : Half) (i lanes : Nat) : HalfState :=
  (x.setStack h i 2).setField h (regKey bHBM (i / 3) (i % 3) 1) 16 8 lanes

/-- Every stack of a half in one state. -/
def HalfState.setStacks (x : HalfState) (h : Half) (v : Nat) : HalfState :=
  (List.range 12).foldl (fun y i => y.setStack h i v) x

/-- FIRMWARE_START: the settings are chosen and committed and the half enters TRAINING (R486, R490, R503); its Stroke copy begins to
acquire (R46). -/
def execFirmwareStart (h : Half) (s : State) : Host.Outcome State Fault Refusal :=
  .next (if (s.half h).boot ≠ .firmware || (s.half h).resetting then s else
    let s1 := (s.loadSettings h).modHalf h fun x =>
      let y := { x.measure with boot := .training, step := 1, heartbeatOn := true }.setStacks h 1
      if y.stuState h = 0 && !y.wasReady then y.setStu h 1 0xF 0xFF else y
    s1.refreshParent h)

/-! ## TRAINING and READY (R336, R503, R504) -/

/-- TRAINING_STEP_TIMEOUT: the Siphon's step (any port beyond 4) or a port's ends in DOWN when its time has passed (R504); so does the
training of a port of a READY half. -/
def execTrainingStepTimeout (h : Half) (port : Nat) (s : State) : Host.Outcome State Fault Refusal :=
  let x := s.half h
  .next (if !x.running then s
    else if 4 < port then (if s.siphon = 1 && x.boot = .training then { s with siphon := 0 } else s)
    else if hasPort h port && x.portState h port = 1 then (s.modHalf h fun y => y.stopPort h port 0 1 false).refreshParent h
    else s)

/-- TRAINING_FAILED: a stack fails or the calibration of BASE_MJ does; which of them, and how far the other stacks have come, is
not part of the event (R336, R503). -/
def execTrainingFailed (h : Half) (s : State) : Host.Outcome State Fault Refusal :=
  .next (if (s.half h).boot ≠ .training || (s.half h).resetting then s else
    let n := s.fresh 0 % 13
    let m := s.fresh 1
    ({ s with drawnFree := s.drawnFree + 14 } : State).modHalf h fun x =>
      (List.range 12).foldl
        (fun y i => if i = n then y.setStack h i 4 else if n = 12 || bitSet m i then y.trainedStack h i (s.fresh (2 + i)) else y.setStack h i 1)
        { x with boot := .trainingFailed, step := 0 })

/-- The calibration of R60: each class by its reference kernel, or from the settings where that fails, and BASE_MJ. -/
def HalfState.calibrate (x : HalfState) (h : Half) : HalfState :=
  let n := x.calibrations
  let fallback (c : Nat) : Nat :=
    match x.settings with
    | some r =>
      (match r.entries.find? fun e => e.1 ≠ 0 && reHalf e.1 = h && reKey e.1 = hubKey bCSC (6 + c) with
        | some e => e.2 % 2 ^ 32
        | none => (Config.defaultFj c).toNat)
    | none => (Config.defaultFj c).toNat
  let set (y : HalfState) (c : Nat) : HalfState :=
    y.setCell (hubKey bCSC (6 + c)) (if Config.calibrationOk h.part n c then (Config.calibratedFj h.part n c).toNat else fallback c)
  let y := ((List.range 16).foldl set x).setField h (hubKey bCSC 2) 0 16 (Config.calibratedBase h.part n).toNat
  { y with calibrations := n + 1 }

/-- Does a class fall back (R60)? -/
def HalfState.fallsBack (x : HalfState) (h : Half) : Bool :=
  (List.range 16).any fun c => !Config.calibrationOk h.part x.calibrations c

/-- Are the link steps of TRAINING over: Siphon and ports no longer training (R504)? -/
def State.linksSettled (s : State) (h : Half) : Bool :=
  let x := s.half h
  s.siphon ≠ 1 && (portsOf h).all fun p => x.portState h p ≠ 1

/-- A half becomes READY (R504): its stacks have trained (R342), its classes calibrated, LEVEL and DEBT zero (R58), BOOT_FAILS clear (R479); a
kept reset notice is written (R434), and the settings slots are reconciled (R486). -/
def State.becomeReady (s : State) (h : Half) : State :=
  let falls := (s.half h).fallsBack h
  let s1 := ({ s with drawnFree := s.drawnFree + 12 } : State).modHalf h fun x =>
    let y := (List.range 12).foldl (fun z i => z.trainedStack h i (s.fresh i)) (x.calibrate h)
    { y with boot := .ready, step := 0, wasReady := true, level := 0, debt := 0, heartbeatOn := true, flash := { y.flash with bootFails := 0 } }
  let s2 := if falls then s1.occur h 0x012 none else s1
  let x := s2.half h
  let s3 := match x.keptNotice with
    | some w => (if x.noticeEn h && 0 < x.mgmt.freeReplies then s2.pushReply h .mgmt w else s2).modHalf h fun y => { y with keptNotice := none }
    | none => s2
  s3.reconcile

/-- HALF_READY (R504). -/
def execHalfReady (h : Half) (s : State) : Host.Outcome State Fault Refusal :=
  let x := s.half h
  .next (if x.boot = .training && !x.resetting && s.linksSettled h && (x.stuState h = 2 || x.stuState h = 4) then s.becomeReady h else s)

/-- STROKE_PARENT_TIMEOUT: a half with no ACTIVE port of its plane and no Siphon parent has waited a second, and enters READY with its
copy FREE (R504). -/
def execStrokeParentTimeout (h : Half) (s : State) : Host.Outcome State Fault Refusal :=
  let x := s.half h
  let alone := ([0, 1, 2, 3].all fun p => x.portState h p ≠ 2) && x.parentLink h ≠ some 8 && x.stuState h ≠ 4
  .next (if x.boot = .training && !x.resetting && s.linksSettled h && alone then
      (s.modHalf h fun y => y.setStu h 0 0xF 0xFF).becomeReady h
    else s)

/-! ## Recovery images (R481, R512) -/

/-- The ROM gives up an image: RECOV_RESULT and RECOV_STEP, and a new image may start at offset 0 (R512). -/
def HalfState.refuseImage (x : HalfState) (step : Nat) : HalfState :=
  { x with recovery := none, recovBytes := 0, recovResult := 4, recovStep := step }

/-- Image bytes arrive in order; `none` when they do not fit the image (R481, R512). The header is checked under R476 once it is whole,
digest and tag once the body is. -/
def HalfState.takeImage (x : HalfState) (h : Half) (bs : List Nat) : Option HalfState :=
  let g : Staging := x.recovery.getD { header := 0 }
  let all := g.body ++ bs
  let v := numOf (all.take 320)
  let y : HalfState := { x with recovery := some { g with body := all }, recovBytes := all.length, recovResult := 1, recovStep := 0 }
  if all.length < 320 then some y else
  match headerFailure v [1, 2] x.flash.loaderVersion (x.secFloor h (ihRevision v)) with
  | some f => some (x.refuseImage f.1)
  | none =>
    if 320 + ihBytes v < all.length then none
    else if all.length < 320 + ihBytes v then some y
    else
      let body := all.drop 320
      if !digestOk v body then some (x.refuseImage 11)
      else if !tagOk v body then some (x.refuseImage 12)
      else
        let image : Staging := { header := v, loader := ihFormat v = 2, body := body }
        let flash := if ihFormat v = 2 then x.flash else { x.flash with imageState := .writing }
        some { y with recovery := some image, recovResult := 2, flash := flash }

/-- Does a half take image bytes at an offset? -/
def HalfState.takesImage (x : HalfState) (offset : Nat) : Bool :=
  x.boot = .recovery && !x.resetting && x.recovResult ≠ 2 && offset = x.recovBytes

/-- RECOVERY_IMAGE_WRITTEN: the image is in the half's own device, BOOT_FAILS is 0, and the half boots (R481). -/
def execRecoveryImageWritten (h : Half) (s : State) : Host.Outcome State Fault Refusal :=
  .next (s.modHalf h fun x =>
    match x.recovery with
    | some g =>
      if x.boot ≠ .recovery || x.resetting || x.recovResult ≠ 2 then x else
      let f := if g.loader then { x.flash with loader := some (g.header, g.body) } else x.flash.program g
      { x with boot := .loader, recovery := none, recovResult := 3, flash := { f with bootFails := 0 } }
    | none => x)

/-- SPUR_RECOVERY_STREAM: STREAM frames with STREAM_ID 0xFFFF bring the Q half its image, block by block from the header, unless
BOOT_SEL allows the management port only (R379, R480, R481). The last block is padded. -/
def execSpurRecoveryStream (f : Frame) (s : State) : Host.Outcome State Fault Refusal :=
  .next (s.modHalf .q fun x =>
    if f.type ≠ 7 || bits f.arg 0 17 ≠ 0xFFFF || x.bootSel = 2 || !(Frame.intact f) || !x.takesImage (256 * f.addr) then x else
    let all := (match x.recovery with | some g => g.body | none => []) ++ f.data
    let whole := 320 + ihBytes (numOf (all.take 320))
    let bs := if 320 ≤ all.length then f.data.take (whole - x.recovBytes) else f.data
    (x.takeImage .q bs).getD x)

end Sys2Proof.Machine
end

