-- ==== Sys2Proof/Machine/Port.lean ====
section
/-! DEFINITION. The management port (R507 to R512) and the test access port (R513). -/

namespace Sys2Proof.Machine

/-! ## Addresses (R508) -/

def staticAddress : Nat := 0x3A
/-- The broadcast address of I3C. -/
def broadcastAddress : Nat := 0x7E

/-- The port lives in the always-on domain of the Q half (R508). -/
def State.portLives (s : State) : Bool := s.q.boot ≠ .off

/-- Is the target addressed: at its dynamic address, or at the static one while it has none? -/
def State.addressed (s : State) (address : Nat) : Bool :=
  s.portLives && address = s.dynamicAddress.getD staticAddress

/-- Is a CCC for the target: broadcast or direct? -/
def State.called (s : State) (address : Nat) : Bool := s.portLives && (address = broadcastAddress || s.addressed address)

/-- Bytes that a read returns, at most the maximum read length, and no NACK. -/
def State.answer (s : State) (bs : List Nat) : State := { s with portOut := bs.take s.maxRead, portNack := false }

/-- A transaction is NACKed on its first data byte (R509). -/
def State.nackPort (s : State) : State := { s with portOut := [], portNack := true }

/-! ## STATUS (R510) -/

/-- Q_STATE and K_STATE. -/
def bootCode : Boot → Nat
  | .off => 0
  | .alwaysOn => 1
  | .rom => 2
  | .loader => 3
  | .firmware => 4
  | .training => 5
  | .ready => 6
  | .recovery => 7
  | .identityFailed => 8
  | .trainingFailed => 9

/-- Q_STEP and K_STEP; which of HBM training and calibration runs before the first link trains is left open. -/
def State.stepCode (s : State) (x : HalfState) : Nat :=
  if x.boot ≠ .training then 0 else if x.step ≤ 1 then 1 + s.fresh 0 % 2 else x.step

/-- The status record (R510). -/
def State.statusRecord (s : State) : Nat :=
  let r := s.half s.recovHalf
  place (bootCode s.q.boot) 0 4 + place (bootCode s.k.boot) 4 4 + place (s.stepCode s.q) 8 3 + place (s.stepCode s.k) 12 3
  + place (if s.pgood then 1 else 0) 16 1 + place (if s.alert then 1 else 0) 17 1 + place (if s.tripped then 1 else 0) 18 1
  + place s.railFail 19 3 + place s.q.bootSel 22 2 + place (max s.q.tjMax s.k.tjMax) 24 8
  + place (s.q.millivolts / 10) 32 16 + place ((s.q.milliamps + s.k.milliamps) / 10) 48 16
  + place (bits (s.q.cell .q (hubKey bFCL 1)) 24 11) 64 11 + place (bits (s.k.cell .k (hubKey bFCL 1)) 24 11) 75 11
  + place r.recovBytes 88 32 + place r.recovResult 120 4 + place (if r.recovResult = 4 then r.recovStep else 0) 124 4
  + place s.q.count 128 64

/-- MGMT_STATUS: the status record; the first one after a power-on clears TRIPPED (R509, R510). -/
def execMgmtStatus (address : Nat) (s : State) : Host.Outcome State Fault Refusal :=
  .next (if s.addressed address then
      { s.answer (bytesOf 32 s.statusRecord) with tripped := false, drawnFree := s.drawnFree + 1 }
    else s)

/-! ## PACKET and REPLY (R511) -/

/-- Does a half take packets: FIRMWARE, TRAINING or READY (R509)? -/
def HalfState.takesPackets (x : HalfState) : Bool := x.running

/-- The half that a partition byte names. -/
def partOf (n : Nat) : Option Half := if n = 0 then some .q else if n = 1 then some .k else none

/-- A held packet goes into the management ring when its slots are free (R511). -/
def State.enqueuePacket (s : State) (h : Half) : State :=
  let x := s.half h
  match x.mgmtHeld with
  | none => s
  | some bs =>
    let r := x.mgmt
    let n := bs.length / 64
    if r.slots < ringGap r.slots r.cmdHead r.cmdTail + n then s else
    (s.writeSlots h r (r.cmdTail % r.slots) (chunks 64 bs)).1.modHalf h fun y =>
      { y with
        mgmt := { r with cmdTail := (r.cmdTail + n) % (2 * r.slots) }, mgmtHeld := none, mgmtOutstanding := some (r.cmdTail % r.slots) }

/-- MGMT_PACKET: partition byte and a command packet; one may be outstanding for each half (R509, R511). -/
def execMgmtPacket (address : Nat) (packet : List Nat) (s : State) : Host.Outcome State Fault Refusal :=
  .next (if !s.addressed address then s else
    match packet with
    | [] => s.nackPort
    | part :: bs =>
      match partOf part with
      | none => s.nackPort
      | some h =>
        let x := s.half h
        if bs.length < 64 || bs.length ≠ 64 * (1 + pkUnits (numOf (bs.take 64))) || s.maxWrite < 2 + bs.length || !x.takesPackets
            || x.mgmtHeld.isSome || x.mgmtOutstanding.isSome then s.nackPort
        else ((s.answer []).modHalf h fun y => { y with mgmtHeld := some bs }).enqueuePacket h)

/-- MGMT_PACKET_ENQUEUE: a held packet is written once slots are free (R511). -/
def execMgmtPacketEnqueue (h : Half) (s : State) : Host.Outcome State Fault Refusal :=
  .next (if (s.half h).takesPackets then s.enqueuePacket h else s)

/-- MGMT_REPLY: the last completed packet's reply and payload (R509, R511). -/
def execMgmtReply (address part : Nat) (s : State) : Host.Outcome State Fault Refusal :=
  .next (if !s.addressed address then s else
    match partOf part with
    | none => s.nackPort
    | some h =>
      match (s.half h).mgmtLast with
      | some bs => if (s.half h).takesPackets then s.answer bs else s.nackPort
      | none => s.nackPort)

/-- MGMT_RECOVERY: 1 to 4,096 image bytes at the next offset (R509, R512). -/
def execMgmtRecovery (address part offset : Nat) (bytes : List Nat) (s : State) : Host.Outcome State Fault Refusal :=
  .next (if !s.addressed address then s else
    match partOf part with
    | none => s.nackPort
    | some h =>
      let x := s.half h
      if bytes.isEmpty || 4096 < bytes.length || s.maxWrite < 6 + bytes.length || !x.takesImage offset then s.nackPort else
      match x.takeImage h bytes with
      | some y => { (s.answer []).setHalf h y with recovHalf := h }
      | none => s.nackPort)

/-! ## Common command codes (R508) -/

/-- RSTDAA: the dynamic address is gone. -/
def execRstdaa (address : Nat) (s : State) : Host.Outcome State Fault Refusal :=
  .next (if s.called address then { s with dynamicAddress := none } else s)

/-- SETDASA: a dynamic address for the target at the static address. -/
def execSetdasa (address dynamic : Nat) (s : State) : Host.Outcome State Fault Refusal :=
  .next (if s.portLives && address = staticAddress && s.dynamicAddress.isNone then { s with dynamicAddress := some dynamic } else s)

/-- SETAASA: the static address becomes the dynamic one. -/
def execSetaasa (s : State) : Host.Outcome State Fault Refusal :=
  .next (if s.portLives && s.dynamicAddress.isNone then { s with dynamicAddress := some staticAddress } else s)

/-- ENEC enables the in-band interrupt. -/
def execEnec (address : Nat) (s : State) : Host.Outcome State Fault Refusal :=
  .next (if s.called address then { s with ibiEnabled := true } else s)

/-- DISEC disables it. -/
def execDisec (address : Nat) (s : State) : Host.Outcome State Fault Refusal :=
  .next (if s.called address then { s with ibiEnabled := false } else s)

/-- Two bytes, the high one first, as I3C sends lengths and status. -/
def twoBytes (n : Nat) : List Nat := [n / 256 % 256, n % 256]

/-- GETSTATUS; the spec gives it no value. -/
def execGetstatus (address : Nat) (s : State) : Host.Outcome State Fault Refusal :=
  .next (if s.addressed address then
      ({ s with drawnFree := s.drawnFree + 1 } : State).answer (twoBytes (Config.i3cStatus s.drawnFree).toNat)
    else s)

/-- GETBCR; the spec gives it no value. -/
def execGetbcr (address : Nat) (s : State) : Host.Outcome State Fault Refusal :=
  .next (if s.addressed address then s.answer [Config.i3cBcr.toNat] else s)

/-- GETDCR; the spec gives it no value. -/
def execGetdcr (address : Nat) (s : State) : Host.Outcome State Fault Refusal :=
  .next (if s.addressed address then s.answer [Config.i3cDcr.toNat] else s)

/-- GETMWL: the maximum write length. -/
def execGetmwl (address : Nat) (s : State) : Host.Outcome State Fault Refusal :=
  .next (if s.addressed address then s.answer (twoBytes s.maxWrite) else s)

/-- GETMRL: the maximum read length. -/
def execGetmrl (address : Nat) (s : State) : Host.Outcome State Fault Refusal :=
  .next (if s.addressed address then s.answer (twoBytes s.maxRead) else s)

/-- SETMWL may lower the maximum write length. -/
def execSetmwl (address length : Nat) (s : State) : Host.Outcome State Fault Refusal :=
  .next (if s.called address && length ≤ 4162 then { s with maxWrite := length } else s)

/-- SETMRL may lower the maximum read length. -/
def execSetmrl (address length : Nat) (s : State) : Host.Outcome State Fault Refusal :=
  .next (if s.called address && length ≤ 4162 then { s with maxRead := length } else s)

/-- RSTACT is accepted with the no-reset action, 0, and NACKed with any other; it changes nothing. -/
def execRstact (address action : Nat) (s : State) : Host.Outcome State Fault Refusal :=
  .next (if !s.called address then s else if action = 0 then s.answer [] else s.nackPort)

/-! ## The test access port (R513) -/

/-- IDCODE. -/
def tapId : Nat := 0x12460147

/-- Instructions in the order of R513: 0 BYPASS, 1 IDCODE, 2 SAMPLE/PRELOAD, 3 EXTEST, 4 CLAMP, 5 HIGHZ. What selects a register
shows it in `tapOut`; the bypass register captures 0. -/
def State.tap (s : State) (instruction out : Nat) : State := { s with tapInstruction := instruction, tapOut := out }

/-- An instruction that drives pins acts as BYPASS unless MOD_RESET_N is held low. -/
def State.tapDrive (s : State) (instruction : Nat) : State :=
  if !s.portLives then s else if s.modReset then s.tap instruction (if instruction = 3 then s.boundary else 0) else s.tap 0 0

/-- TAP_RESET: a low TRST_N resets the TAP, which selects IDCODE (IEEE 1149.1), and has no other effect. -/
def execTapReset (s : State) : Host.Outcome State Fault Refusal :=
  .next (if s.portLives then s.tap 1 tapId else s)

def execBypass (s : State) : Host.Outcome State Fault Refusal := .next (if s.portLives then s.tap 0 0 else s)

def execIdcode (s : State) : Host.Outcome State Fault Refusal := .next (if s.portLives then s.tap 1 tapId else s)

/-- SAMPLE_PRELOAD: the boundary-scan register captures the sideband pins, in an order the spec does not give, and takes a new value. -/
def execSamplePreload (preload : Nat) (s : State) : Host.Outcome State Fault Refusal :=
  .next (if s.portLives then
      { s.tap 2 (s.fresh 0) with boundary := preload, drawnFree := s.drawnFree + 1 }
    else s)

def execExtest (s : State) : Host.Outcome State Fault Refusal := .next (s.tapDrive 3)

def execClamp (s : State) : Host.Outcome State Fault Refusal := .next (s.tapDrive 4)

def execHighz (s : State) : Host.Outcome State Fault Refusal := .next (s.tapDrive 5)

end Sys2Proof.Machine
end

