-- ==== Sys2Proof/Machine/Spur.lean ====
section
/-! DEFINITION. What a host does through the spur: ring writes, ring reads and doorbells (R82 to R84, R353, R383, R384). A frame whose
SRC_POS is the module's own position came through its own spur; another came from the bridge of its pump group. -/

namespace Sys2Proof.Machine

/-! ## Ring addresses (R383) -/

def raHalf (a : Nat) : Half := Half.ofPart (bits a 0 1)
def raRing (a : Nat) : Nat := bits a 1 5
def raReply (a : Nat) : Bool := bitSet a 6
def raSlot (a : Nat) : Nat := bits a 7 16

/-- The ring that a spur frame names, if its address is well-formed and the ring is defined. -/
def State.spurRing (s : State) (f : Frame) : Option Ring :=
  let x := s.half (raHalf f.addr)
  if bits f.addr 23 25 ≠ 0 then none
  else if f.mgmt then (if raRing f.addr = 0 && x.running then some x.mgmt else none)
  else x.ring? (.ctx f.ctx (raRing f.addr))

/-- Take a spur frame, from the module's own spur or from the bridge of its group. A frame for the K half crosses the Siphon. -/
def State.takeSpur (s : State) (f : Frame) (type : Nat) (act : State → Frame → Answer) : State :=
  let g := raHalf f.addr
  if f.src = s.q.myPos .q then (if g = .k && !s.siphonUp then s else s.receiveSpur f type act)
  else s.receiveRelayed g f type act

/-- Where byte `off` of a ring lies, and why it cannot be reached (R39, R383). -/
def State.ringByte (s : State) (h : Half) (r : Ring) (base off : Nat) (write : Bool) : Except Nat Nat :=
  match r.ctx with
  | none => .ok (mgmtBase h + base + off)
  | some c =>
    match (s.envOf h c).translate (base + off) with
    | .here dpa w => if write && !w then .error rsReadonly else .ok dpa
    | _ => .error rsMapMiss

/-- The places of `n` units of `size` bytes from unit `first` of a ring of `total` units, wrapping. -/
def State.ringUnits (s : State) (h : Half) (r : Ring) (base size count first : Nat) (write : Bool) (n : Nat) : Except Nat (List Nat) :=
  (List.range n).mapM fun i => s.ringByte h r base (size * ((first + i) % count)) write

/-- RING_WRITE: one to four slots of a command ring from the payload (R383). -/
def takeRingWrite (s : State) (f : Frame) : Answer :=
  let h := raHalf f.addr
  match (s.half h).spurGate f with
  | some r => .refuse s r
  | none =>
    match s.spurRing f with
    | none => .refuse s rsField
    | some r =>
      if raReply f.addr then .refuse s rsField
      else if !Frame.intact f then .refuse s rsSeal else
      match s.ringUnits h r r.cmdBase 64 r.slots (raSlot f.addr) true (bits f.arg 0 2 + 1) with
      | .error e => .refuse s e
      | .ok places =>
        match s.putMem (if f.mgmt then none else some f.ctx) (places.zip (chunks 64 (padBlock f.data))) with
        | (t, none) => .done t
        | (t, some _) => .refuse t rsSeal

def execRingWrite (f : Frame) (s : State) : Host.Outcome State Fault Refusal :=
  .next (s.takeSpur f 0x9 takeRingWrite)

/-- SPUR_READ_REQ: bytes of slots or reply entries go back to the host, seals checked (R353, R383). -/
def takeRingRead (s : State) (f : Frame) : Answer :=
  let h := raHalf f.addr
  match (s.half h).spurGate f with
  | some r => .refuse s r
  | none =>
    match s.spurRing f with
    | none => .refuse s rsField
    | some r =>
      if f.arg = 0 || 256 < f.arg then .refuse s rsField else
      let size := if raReply f.addr then 32 else 64
      let count := if raReply f.addr then r.entries else r.slots
      let base := if raReply f.addr then r.rplBase else r.cmdBase
      match s.ringUnits h r base size count (raSlot f.addr) false (ceilDiv f.arg size) with
      | .error e => .refuse s e
      | .ok places =>
        match places.findSome? fun a => s.view.damageIn a size with
        | some a => .done (s.sealFault a (if f.mgmt then none else some f.ctx))
        | none =>
          let bs := padBlock ((places.flatMap fun a => s.view.bytes a size).take f.arg)
          let plane := if f.src = s.q.myPos .q then .q else h
          .done (s.send plane none
            { type := 0x1, dst := f.src, ctx := f.ctx, mgmt := f.mgmt, gen := f.gen, addr := f.addr, arg := f.seq, data := bs
              crc := if f.src = s.q.myPos .q then 0 else crc32c bs }).1

def execSpurReadReq (f : Frame) (s : State) : Host.Outcome State Fault Refusal :=
  .next (s.takeSpur f 0x0 takeRingRead)

/-! ## Doorbells -/

def srcDoorbell : Nat := 0x008

/-- A ring with the pointer of a doorbell, or `none` where the pointer is out of range (R82, R84). -/
def Ring.ringBell (r : Ring) (reply : Bool) (v : Nat) : Option Ring :=
  if reply then
    let n := r.entries
    if v < 2 * n && ringGap n r.rplHead v ≤ ringGap n r.rplHead r.rplTail then some { r with rplHead := v } else none
  else
    let n := r.slots
    if v < 2 * n && ringGap n r.cmdHead v ≤ n then
      some { r with cmdTail := v }
    else none

/-- DOORBELL at its target (R84, R383): refused, or acknowledged and then applied, recorded for a context that is not resident, or
discarded with a fault. Rings keep their pointers while their context is not resident, so what is recorded is the pointer. -/
def takeDoorbell (s : State) (f : Frame) : Answer :=
  let h := raHalf f.addr
  let x := s.half h
  if !f.mgmt && (f.gen < x.gen f.ctx || (x.ctx f.ctx).st = .dead) then .refuse s rsTornDown
  else if !f.mgmt && ((x.ctx f.ctx).st = .undefined || x.gen f.ctx < f.gen) then .refuse s rsField
  else match s.spurRing f with
    | none => .refuse s rsField
    | some r =>
      match r.ringBell (bitSet f.arg 17) (bits f.arg 0 17) with
      | some r1 => .done (s.modHalf h fun y => y.setRing r.ref r1)
      | none => .done (s.occur h srcDoorbell none)

def execDoorbell (f : Frame) (s : State) : Host.Outcome State Fault Refusal :=
  .next (s.takeSpur f 0xA takeDoorbell)

/-- DOORBELL_RELAY: the bridge passes a doorbell on once every ring write of its host to the same ring has been acknowledged (R83). -/
def execDoorbellRelay (f : Frame) (s : State) : Host.Outcome State Fault Refusal :=
  let same (u : Unacked) : Bool :=
    u.spur.isSome && u.frame.type = 0x9 && u.frame.dst = f.dst && u.frame.mgmt = f.mgmt && u.frame.ctx = f.ctx
      && bits u.frame.addr 0 6 = bits f.addr 0 6
  .next (if s.q.portState .q 4 ≠ 2 || !s.q.isBridge .q || s.q.resetting || f.type ≠ 0xA || f.dst = s.q.myPos .q
      || s.q.unacked.any same || s.k.unacked.any same then s
    else s.relaySpur f)

end Sys2Proof.Machine
end

