-- ==== Sys2Proof/Machine/Tick.lean ====
section
/-! DEFINITION. The passing of a stroke in a half (R42): its counter, and what is counted by strokes: idle strokes of rings and stages
(R412 to R414), BUSY gauges and attribution (R454 to R458), deep counters (R462), watchdogs (R437), the ages of wait-for edges (R441)
and idle power domains (R68); and the occurrences sampled at a stroke (R427, R431). -/

namespace Sys2Proof.Machine

/-! ## Idle strokes (R412 to R414) -/

/-- Is a gate in the range that a register field group at bit `lo` gives: FIRST, LAST, EN (R414)? -/
def inRange (reg lo g : Nat) : Bool := bitSet reg (lo + 24) && bits reg lo 12 ≤ g && g ≤ bits reg (lo + 12) 12

/-- The cause that waiting on a gate contributes (R413). -/
def HalfState.gateCause (x : HalfState) (h : Half) (g : Nat) : Nat :=
  let r0 := x.cell h (hubKey bCMP 8)
  let r1 := x.cell h (hubKey bCMP 9)
  if inRange r1 0 g then 2 else if inRange r0 0 g then 0 else if inRange r0 32 g then 1 else 7

/-- Causes by precedence (R413). -/
def causeOrder : List Nat := [6, 4, 5, 3, 2, 0, 1, 7]

/-- The highest-precedence cause of several. -/
def topCause (cs : List Nat) : Option Nat := causeOrder.find? cs.contains

/-- Causes that hold for a ring of a context (R413). A ring of a context that is neither resident nor switching, nor saved for a
firmware activation (R483), has none. -/
def State.ringCauses (s : State) (h : Half) (r : Ring) (ctx : Nat) : List Nat :=
  let x := s.half h
  let c := x.ctx ctx
  let empty := ringGap r.slots r.cmdHead r.cmdTail = 0
  let resident : Bool := x.resident = some ctx
  let saved : Bool := match x.activating with | some a => a.ctx = some ctx | none => false
  let switching : Bool := saved || (s.switch.isSome && (c.st = .switchingIn || c.st = .switchingOut))
  let head := s.headPacket h r
  let waits : List Nat := match head with
    | some p => ((pkWaits p).filter fun w => !waitHolds (s.gate ctx w.1) w.2).map fun w => x.gateCause h w.1
    | none => []
  let ordered : Bool := match head with | some p => pkOrdered p && !x.alone r.ref | none => false
  (if c.halted || c.tearing || x.resetting then [6] else []) ++ (if switching then [4] else [])
  ++ (if resident then
      (if !x.fetches r || (empty && r.stage.isSome) then [5] else []) ++ (if r.firstHeld.isSome then [3] else [])
        ++ waits ++ (if ordered then [7] else [])
    else [])

/-- The cause under which a ring is idle in the stroke, if it is (R412, R413): a head that waits for its start stroke or for an engine
alone has none. -/
def State.idleCause (s : State) (h : Half) (r : Ring) : Option Nat :=
  match r.ctx with
  | none => none
  | some ctx =>
    let x := s.half h
    let admits : Bool := x.lastAdmission = some x.count && x.lastRing = some r.ref
    let empty : Bool := ringGap r.slots r.cmdHead r.cmdTail = 0
    if (empty && r.stage.isNone) || admits then none else topCause (s.ringCauses h r ctx)

/-- Count an idle stroke against a ring, its gauge and the key of its head command (R413, R457). -/
def State.countIdle (s : State) (h : Half) (r : Ring) : State :=
  match r.ctx, s.idleCause h r with
  | some ctx, some cause =>
    s.modHalf h fun x =>
      let y := x.gauge 0x03 (ctx + 16 * r.num) cause 1
      match s.headPacket h r with | some p => y.attribute (attrKey p) 14 1 | none => y
  | _, _ => s

/-- A stage is idle when every ring of it is, under the highest-precedence cause among them (R413). -/
def State.countStage (s : State) (h : Half) (n : Nat) : State :=
  let x := s.half h
  let rs := x.rings.filter fun r => r.stage = some n && r.ctx = x.resident && r.ctx.isSome
  let causes := rs.map (s.idleCause h)
  if rs.isEmpty || causes.any (·.isNone) then s else
  match topCause (causes.filterMap id) with
  | some cause => s.modHalf h fun y => y.gauge 0x03 (512 + n) cause 1
  | none => s

/-! ## Busy engines (R454 to R457) -/

/-- Instance of a BUSY gauge (R454). -/
def busyInst (die kind unit : Nat) : Nat := die * 512 + kind * 64 + unit

/-- Which engines of a tile an admitted command keeps busy: BUSY kind and attribution counter. -/
def Cmd.tileEngines (c : Cmd) (g : Nat) : List (Nat × Nat) :=
  let mxe : List (Nat × Nat) := [(0, 1)]
  let gru : List (Nat × Nat) := [(1, 2)]
  let vxe : List (Nat × Nat) := [(2, 3)]
  match pkOpcode c.packet with
  | 0x0203 => mxe ++ (if mmCapture c.packet then gru else [])
  | 0x0204 => vxe
  | 0x0403 => mxe
  | _ =>
    match find g c.tiles with
    | some t =>
      let m := t.queued.filter (·.queue = 0)
      (if m.isEmpty then [] else mxe) ++ (if m.any (·.target.isSome) then gru else [])
        ++ (if t.queued.any (·.queue = 1) then vxe else [])
    | none => []

/-- Does the packet belong to the Command Processor itself rather than to an engine? -/
def isControl (p : Nat) : Bool := pkOpcode p / 256 ∈ [0x00, 0x01, 0x0B]

/-- The engines of a half that a command keeps busy: BUSY instance and attribution counter, where R458 has one. -/
def Cmd.engines (c : Cmd) (home h : Half) : List (Nat × Option Nat) :=
  let p := c.packet
  let mine (d : Nat) : Bool := halfOfDie d = h
  ((tilesOf p).filter fun g => tileHalf g = h).flatMap (fun g =>
    (c.tileEngines g).map fun e => (busyInst (g % 192 / 48) e.1 (g % 48), some e.2))
  ++ ((csesOf p).filter mine).map (fun d => (busyInst (d % 4) 3 0, some 4))
  ++ ((upusOf p).filter mine).map (fun d => (busyInst (d % 4) 4 0, some 5))
  ++ ((emesOf p).filter mine).map (fun d => (busyInst (d % 4) 5 0, some 6))
  ++ ((moversOf p).filter fun k => k / 32 = h.part).map (fun k => (busyInst (k / 4 % 8) 6 (k % 4), some 7))
  ++ (if isCollectiveOn h c then [(busyInst 4 7 0, some 8)] else [])
  ++ (if pkOpcode p = 0x0801 && wsHalf (wsUp p) = h && c.stream.isSome then [(busyInst 4 7 1, some 9)] else [])
  ++ (if isControl p && home = h then [(busyInst 4 7 2, none)] else [])

/-- The engines of a half that the packet of a command that has not run yet names: of a tile without an opcode's own choice all three. -/
def packetEngines (p : Nat) (home h : Half) : List Nat :=
  let c : Cmd := { id := 0, ring := .mgmt, packet := p }
  let tiles := (tilesOf p).filter fun g => tileHalf g = h && (c.tileEngines g).isEmpty
  (c.engines home h).map (·.1) ++ tiles.flatMap fun g => [0, 1, 2].map fun k => busyInst (g % 192 / 48) k (g % 48)

/-- A stroke that a command spends held for energy counts, against each engine it names, as idle with cause ENERGY_HOLD (R66). -/
def State.countHeld (s : State) (h : Half) (r : Ring) : State :=
  match s.examined h r with
  | some (_, p, _) =>
    if r.firstHeld.isNone then s else
    [Half.q, .k].foldl (fun (t : State) g => t.modHalf g fun x =>
      { x with engineHold := (packetEngines p h g).foldl (fun m i => m.bump i 1) x.engineHold }) s
  | none => s

/-- Count a busy stroke for every engine of a half that serves a command, in strokes of a wake or a suspension step too; a
shared engine credits one of them, in turn (R456, R457). -/
def State.countBusy (s : State) (h : Half) : State :=
  let users : List (Nat × Option Nat × Nat) := (s.allCmds.filter fun c => c.2.done.isNone && (!c.2.twoHalf || c.2.mirrored)).flatMap fun c =>
    (c.2.engines c.1 h).map fun e => (e.1, e.2, c.2.packet)
  (users.map (·.1)).eraseDups.foldl (fun t i =>
    let us := users.filter (·.1 = i)
    t.modHalf h fun x =>
      let y := x.gauge 0x01 i 0 1
      let z := if us.any fun u => pkRecompute u.2.2 then y.gauge 0x01 i 1 1 else y
      match us[x.count % max us.length 1]? with
      | some u => (match u.2.1 with | some a => z.attribute (attrKey u.2.2) a 1 | none => z)
      | none => z) s

/-- Events of the deep counters of a die that no step of this model shows one by one: every event but Wellhead hits and misses, of which
a hub has those of its links and movers alone (R462). -/
def deepEvents (die : Nat) : List Nat := if die = 4 then [9, 10, 11] else [1, 2, 3, 4, 7, 8, 9, 11]

/-- The number of such events in a stroke is free (R462). -/
def State.countDeep (s : State) (h : Half) : State :=
  let x := s.half h
  let cs : List (Nat × Nat) := [0, 1, 2, 3, 4].flatMap fun d => (deepEvents d).flatMap fun e =>
    (x.deepCounters h d e).map fun c => (d, c)
  let t : State := { s with drawnFree := s.drawnFree + cs.length }
  t.modHalf h fun y => (cs.zip (List.range cs.length)).foldl (fun z c => z.gauge 0x07 (c.1.1 * 16 + c.1.2) 0 (s.fresh c.2)) y

/-! ## Counts of strokes -/

/-- One stroke of the watchdogs of a half: those of its own commands, and its own of the mirrored commands of the other half (R437). -/
def State.countWatchdogs (s : State) (h : Half) : State :=
  let runs (c : Cmd) : Bool := c.phase = .running && (c.done.isNone || s.hasUnacked c.id)
  (s.modHalf h fun x => { x with cmds := x.cmds.map fun c => if runs c then { c with idle := c.idle + 1 } else c }).modHalf h.other
    fun x => { x with cmds := x.cmds.map fun c => if runs c && c.twoHalf then { c with idleOther := c.idleOther + 1 } else c }

/-- Since when commands are blocked on their edges (R441): edges that are there keep their stroke, new ones take this one. -/
def State.countBlocked (s : State) (h : Half) : State :=
  let x := s.half h
  let ids := (x.rings.filterMap (·.ctx)).eraseDups
  let now := ids.flatMap fun c => ((s.edges c [.q, .k]).filter fun e => e.reason ≠ eSignaller && Half.ofPart (e.tail / 8 % 2) = h).map (blockKey c)
  let since (k : Nat × Nat × Nat) : Nat :=
    match x.blocked.find? fun b => (b.1, b.2.1, b.2.2.1) = k with | some b => b.2.2.2 | none => x.count
  s.modHalf h fun y => { y with blocked := now.map fun k => (k.1, k.2.1, k.2.2, since k) }

/-- One stroke of the idle times of the power domains (R68). -/
def State.countDomains (s : State) (h : Half) : State :=
  s.modHalf h fun x =>
    { x with domainIdle := [0, 1, 3, 4, 6, 7, 9, 10, 13].foldl (fun (t : Table) (d : Nat) =>
        if s.domainUsed h d then t.set d 0 else t.bump d 1) x.domainIdle }

/-- A copy whose parent's link carries no words any more chooses again (R49). -/
def State.checkParent (s : State) (h : Half) : State :=
  match (s.half h).parentLink h with
  | some p => if s.timeLinkUp h p then s else s.refreshParent h
  | none => s

/-- A stroke passes in a half: what it counts is counted, flits leave for the other half (R26), the counter goes on by one (R42), and
the occurrences of the new stroke are handled. -/
def State.passStroke (s : State) (h : Half) : State :=
  let x := s.half h
  let s1 := x.rings.foldl (fun t r => t.countIdle h r) s
  let s2 := (x.mgmt :: x.rings).foldl (fun t r => t.countHeld h r) ((List.range 8).foldl (fun t n => t.countStage h n) s1)
  let s3 := ((((s2.countBusy h).countDeep h).countWatchdogs h).countBlocked h).countDomains h
  let s4 := (s3.drainTrace h).modHalf h fun y =>
    { (if s.siphonUp then y.sendFlits h else y) with count := (y.count + 1) % 2 ^ 64, strokeSignals := [] }
  ((s4.strokeFaults h).checkParent h).ackOld h

/-- Is the K-half copy locked to the Q-half copy across the Siphon (R32)? -/
def State.lockstep (s : State) : Bool :=
  s.siphonUp && s.k.boot ≠ .off && s.k.stuState .k = 2 && s.k.parentLink .k = some 8

/-- STROKE_INCREMENT: a stroke passes in a half (R42). A K-half copy locked across the Siphon stays within 1 stroke of the Q copy (R32):
its slew has it pass its stroke with the Q copy's where it would fall behind, and keeps it back where it would run ahead. -/
def execStrokeIncrement (h : Half) (s : State) : Host.Outcome State Fault Refusal :=
  .next (if (s.half h).boot = .off then s
    else if !s.lockstep then s.passStroke h
    else match h with
      | .k => if s.q.count < s.k.count then s else s.passStroke .k
      | .q => (if s.k.count < s.q.count then s.passStroke .k else s).passStroke .q)

end Sys2Proof.Machine
end

