-- ==== Sys2Proof/Machine/Dispatch.lean ====
section
/-! DEFINITION. One arm for each command: the meaning it calls. -/

namespace Sys2Proof.Machine

/-- The effect of a command on everything but the queue. -/
def exec (i : Instr) (s : State) : Host.Outcome State Fault Refusal :=
  match i with
  | .nop id => Sys2Proof.Machine.execNop id s
  | .queryGeometry id => Sys2Proof.Machine.execQueryGeometry id s
  | .regRead id => Sys2Proof.Machine.execRegRead id s
  | .regWrite id => Sys2Proof.Machine.execRegWrite id s
  | .configCommit id => Sys2Proof.Machine.execConfigCommit id s
  | .gateSet id => Sys2Proof.Machine.execGateSet id s
  | .hangReportGraph id => Sys2Proof.Machine.execHangReportGraph id s
  | .hangReportReadCollected id => Sys2Proof.Machine.execHangReportReadCollected id s
  | .freezeArmAtStroke id => Sys2Proof.Machine.execFreezeArmAtStroke id s
  | .freezeArmOnSource id => Sys2Proof.Machine.execFreezeArmOnSource id s
  | .freezeArmRelease id => Sys2Proof.Machine.execFreezeArmRelease id s
  | .gaugeRead id => Sys2Proof.Machine.execGaugeRead id s
  | .traceCtlStart id => Sys2Proof.Machine.execTraceCtlStart id s
  | .traceCtlStop id => Sys2Proof.Machine.execTraceCtlStop id s
  | .traceCtlReset id => Sys2Proof.Machine.execTraceCtlReset id s
  | .traceCtlClearAttr id => Sys2Proof.Machine.execTraceCtlClearAttr id s
  | .ctxDefine id => Sys2Proof.Machine.execCtxDefine id s
  | .ctxSwitch id => Sys2Proof.Machine.execCtxSwitch id s
  | .ctxTeardown id => Sys2Proof.Machine.execCtxTeardown id s
  | .ctxRelease id => Sys2Proof.Machine.execCtxRelease id s
  | .ringDefine id => Sys2Proof.Machine.execRingDefine id s
  | .ringDelete id => Sys2Proof.Machine.execRingDelete id s
  | .mapWrite id => Sys2Proof.Machine.execMapWrite id s
  | .tileProgramLoad id => Sys2Proof.Machine.execTileProgramLoad id s
  | .tileRun id => Sys2Proof.Machine.execTileRun id s
  | .matmul id => Sys2Proof.Machine.execMatmul id s
  | .vector id => Sys2Proof.Machine.execVector id s
  | .scaleLoadSet id => Sys2Proof.Machine.execScaleLoadSet id s
  | .scaleLoadAdvance id => Sys2Proof.Machine.execScaleLoadAdvance id s
  | .scaleLoadClearOvf id => Sys2Proof.Machine.execScaleLoadClearOvf id s
  | .scaleRead id => Sys2Proof.Machine.execScaleRead id s
  | .move id => Sys2Proof.Machine.execMove id s
  | .gatherBlocks id => Sys2Proof.Machine.execGatherBlocks id s
  | .scatterBlocks id => Sys2Proof.Machine.execScatterBlocks id s
  | .gramReduce id => Sys2Proof.Machine.execGramReduce id s
  | .root id => Sys2Proof.Machine.execRoot id s
  | .ortho id => Sys2Proof.Machine.execOrtho id s
  | .solveBatch id => Sys2Proof.Machine.execSolveBatch id s
  | .update id => Sys2Proof.Machine.execUpdate id s
  | .reconcile id => Sys2Proof.Machine.execReconcile id s
  | .shardDigestCompute id => Sys2Proof.Machine.execShardDigestCompute id s
  | .shardDigestComputeCompare id => Sys2Proof.Machine.execShardDigestComputeCompare id s
  | .shardDigestCompareRecord id => Sys2Proof.Machine.execShardDigestCompareRecord id s
  | .tableDefine id => Sys2Proof.Machine.execTableDefine id s
  | .tableDelete id => Sys2Proof.Machine.execTableDelete id s
  | .lookup id => Sys2Proof.Machine.execLookup id s
  | .hotsetLoad id => Sys2Proof.Machine.execHotsetLoad id s
  | .embGrad id => Sys2Proof.Machine.execEmbGrad id s
  | .embFold id => Sys2Proof.Machine.execEmbFold id s
  | .embFoldDiscard id => Sys2Proof.Machine.execEmbFoldDiscard id s
  | .rowMigrate id => Sys2Proof.Machine.execRowMigrate id s
  | .weightStreamStore id => Sys2Proof.Machine.execWeightStreamStore id s
  | .weightStreamVerify id => Sys2Proof.Machine.execWeightStreamVerify id s
  | .epochSwitchCreate id => Sys2Proof.Machine.execEpochSwitchCreate id s
  | .epochSwitchMakeCurrent id => Sys2Proof.Machine.execEpochSwitchMakeCurrent id s
  | .epochSwitchBind id => Sys2Proof.Machine.execEpochSwitchBind id s
  | .epochSwitchRelease id => Sys2Proof.Machine.execEpochSwitchRelease id s
  | .epochSwitchDrop id => Sys2Proof.Machine.execEpochSwitchDrop id s
  | .reduceScatter id => Sys2Proof.Machine.execReduceScatter id s
  | .allGather id => Sys2Proof.Machine.execAllGather id s
  | .allReduce id => Sys2Proof.Machine.execAllReduce id s
  | .ckptSlotDefine id => Sys2Proof.Machine.execCkptSlotDefine id s
  | .ckptSlotHold id => Sys2Proof.Machine.execCkptSlotHold id s
  | .ckptSlotRelease id => Sys2Proof.Machine.execCkptSlotRelease id s
  | .ckptSlotDelete id => Sys2Proof.Machine.execCkptSlotDelete id s
  | .preserve id => Sys2Proof.Machine.execPreserve id s
  | .unpreserve id => Sys2Proof.Machine.execUnpreserve id s
  | .hwmReset id => Sys2Proof.Machine.execHwmReset id s
  | .neighbourCkptWrite id => Sys2Proof.Machine.execNeighbourCkptWrite id s
  | .neighbourCkptVerify id => Sys2Proof.Machine.execNeighbourCkptVerify id s
  | .neighbourRestore id => Sys2Proof.Machine.execNeighbourRestore id s
  | .fwStageHeader id => Sys2Proof.Machine.execFwStageHeader id s
  | .fwStageBody id => Sys2Proof.Machine.execFwStageBody id s
  | .fwStageWrite id => Sys2Proof.Machine.execFwStageWrite id s
  | .fwStageAbort id => Sys2Proof.Machine.execFwStageAbort id s
  | .fwActivate id => Sys2Proof.Machine.execFwActivate id s
  | .settingsWriteBegin id => Sys2Proof.Machine.execSettingsWriteBegin id s
  | .settingsWriteData id => Sys2Proof.Machine.execSettingsWriteData id s
  | .settingsWriteEnd id => Sys2Proof.Machine.execSettingsWriteEnd id s
  | .settingsWriteAbort id => Sys2Proof.Machine.execSettingsWriteAbort id s
  | .settingsConfirm id => Sys2Proof.Machine.execSettingsConfirm id s
  | .attestMeasure id => Sys2Proof.Machine.execAttestMeasure id s
  | .attestSign id => Sys2Proof.Machine.execAttestSign id s
  | .attestIdentity id => Sys2Proof.Machine.execAttestIdentity id s
  | .stuEpochOffsetWrite h value => Sys2Proof.Machine.execStuEpochOffsetWrite h value s
  | .fclStickyAck h source => Sys2Proof.Machine.execFclStickyAck h source s
  | .fclForce h source => Sys2Proof.Machine.execFclForce h source s
  | .tileEnd tile => Sys2Proof.Machine.execTileEnd tile s
  | .tileNop tile => Sys2Proof.Machine.execTileNop tile s
  | .gateWait tile => Sys2Proof.Machine.execGateWait tile s
  | .loop tile => Sys2Proof.Machine.execLoop tile s
  | .aadd tile => Sys2Proof.Machine.execAadd tile s
  | .aset tile => Sys2Proof.Machine.execAset tile s
  | .mma tile => Sys2Proof.Machine.execMma tile s
  | .mdrain tile => Sys2Proof.Machine.execMdrain tile s
  | .vadd tile => Sys2Proof.Machine.execVadd tile s
  | .vmul tile => Sys2Proof.Machine.execVmul tile s
  | .vfma tile => Sys2Proof.Machine.execVfma tile s
  | .vmax tile => Sys2Proof.Machine.execVmax tile s
  | .vmin tile => Sys2Proof.Machine.execVmin tile s
  | .vsel tile => Sys2Proof.Machine.execVsel tile s
  | .vexp2 tile => Sys2Proof.Machine.execVexp2 tile s
  | .vlog2 tile => Sys2Proof.Machine.execVlog2 tile s
  | .vrcp tile => Sys2Proof.Machine.execVrcp tile s
  | .vrsqrt tile => Sys2Proof.Machine.execVrsqrt tile s
  | .vcvt tile => Sys2Proof.Machine.execVcvt tile s
  | .vlred tile => Sys2Proof.Machine.execVlred tile s
  | .vxred tile => Sys2Proof.Machine.execVxred tile s
  | .vmov tile => Sys2Proof.Machine.execVmov tile s
  | .ld tile => Sys2Proof.Machine.execLd tile s
  | .st tile => Sys2Proof.Machine.execSt tile s
  | .gtgt tile => Sys2Proof.Machine.execGtgt tile s
  | .gzero tile => Sys2Proof.Machine.execGzero tile s
  | .headCheck h r => Sys2Proof.Machine.execHeadCheck h r s
  | .examination h r => Sys2Proof.Machine.execExamination h r s
  | .admission h => Sys2Proof.Machine.execAdmission h s
  | .commandComplete id => Sys2Proof.Machine.execCommandComplete id s
  | .commandSuspend id => Sys2Proof.Machine.execCommandSuspend id s
  | .doorbell f => Sys2Proof.Machine.execDoorbell f s
  | .doorbellRelay f => Sys2Proof.Machine.execDoorbellRelay f s
  | .ringWrite f => Sys2Proof.Machine.execRingWrite f s
  | .spurReadReq f => Sys2Proof.Machine.execSpurReadReq f s
  | .cscSample h millivolts milliamps meters => Sys2Proof.Machine.execCscSample h millivolts milliamps meters s
  | .windowStart h hottest => Sys2Proof.Machine.execWindowStart h hottest s
  | .windowEnd h => Sys2Proof.Machine.execWindowEnd h s
  | .idleGating h domain => Sys2Proof.Machine.execIdleGating h domain s
  | .domainWake h domain => Sys2Proof.Machine.execDomainWake h domain s
  | .strokeExchangeSend h port subcount => Sys2Proof.Machine.execStrokeExchangeSend h port subcount s
  | .strokeExchangeReceive h port arrival word => Sys2Proof.Machine.execStrokeExchangeReceive h port arrival word s
  | .strokeRefEdge subcount => Sys2Proof.Machine.execStrokeRefEdge subcount s
  | .freeze h => Sys2Proof.Machine.execFreeze h s
  | .routeCommit h => Sys2Proof.Machine.execRouteCommit h s
  | .configCommitFire h => Sys2Proof.Machine.execConfigCommitFire h s
  | .firmwareActivation h => Sys2Proof.Machine.execFirmwareActivation h s
  | .activationHeartbeatCheck h signalled => Sys2Proof.Machine.execActivationHeartbeatCheck h signalled s
  | .siphonDown => Sys2Proof.Machine.execSiphonDown s
  | .siphonLaneRepair => Sys2Proof.Machine.execSiphonLaneRepair s
  | .siphonRetry h => Sys2Proof.Machine.execSiphonRetry h s
  | .siphonTrainingRequest h => Sys2Proof.Machine.execSiphonTrainingRequest h s
  | .siphonTrainingTimeout => Sys2Proof.Machine.execSiphonTrainingTimeout s
  | .siphonActive => Sys2Proof.Machine.execSiphonActive s
  | .siphonBlockReceive h dpa block crc id => Sys2Proof.Machine.execSiphonBlockReceive h dpa block crc id s
  | .mirroredCommand id => Sys2Proof.Machine.execMirroredCommand id s
  | .remoteGateSignal h => Sys2Proof.Machine.execRemoteGateSignal h s
  | .capabilityExchange h port record => Sys2Proof.Machine.execCapabilityExchange h port record s
  | .portDown h port cause => Sys2Proof.Machine.execPortDown h port cause s
  | .portRetrain h port => Sys2Proof.Machine.execPortRetrain h port s
  | .linkReplay h port => Sys2Proof.Machine.execLinkReplay h port s
  | .frameForward h port f => Sys2Proof.Machine.execFrameForward h port f s
  | .creditReturn h port vc units => Sys2Proof.Machine.execCreditReturn h port vc units s
  | .readReq h port f => Sys2Proof.Machine.execReadReq h port f s
  | .readResp h port f => Sys2Proof.Machine.execReadResp h port f s
  | .write h port f => Sys2Proof.Machine.execWrite h port f s
  | .ack h port f => Sys2Proof.Machine.execAck h port f s
  | .ackSend h src => Sys2Proof.Machine.execAckSend h src s
  | .nack h port f => Sys2Proof.Machine.execNack h port f s
  | .rowRequest h port f => Sys2Proof.Machine.execRowRequest h port f s
  | .rowReply h port f => Sys2Proof.Machine.execRowReply h port f s
  | .exactSumPartial h port f => Sys2Proof.Machine.execExactSumPartial h port f s
  | .stagingRecord h port f => Sys2Proof.Machine.execStagingRecord h port f s
  | .migrationCopy h port f => Sys2Proof.Machine.execMigrationCopy h port f s
  | .collectiveFrame h port f => Sys2Proof.Machine.execCollectiveFrame h port f s
  | .collectiveDescriptorFrame h port f => Sys2Proof.Machine.execCollectiveDescriptorFrame h port f s
  | .stream h port f => Sys2Proof.Machine.execStream h port f s
  | .streamAbort h port f => Sys2Proof.Machine.execStreamAbort h port f s
  | .digestMessage h port f => Sys2Proof.Machine.execDigestMessage h port f s
  | .digestVerdict h port f => Sys2Proof.Machine.execDigestVerdict h port f s
  | .teardownNotice h port f => Sys2Proof.Machine.execTeardownNotice h port f s
  | .faultBroadcast h source => Sys2Proof.Machine.execFaultBroadcast h source s
  | .freezeNotice h port f => Sys2Proof.Machine.execFreezeNotice h port f s
  | .routeChangeNotice h port f => Sys2Proof.Machine.execRouteChangeNotice h port f s
  | .faultOccurrence h source id => Sys2Proof.Machine.execFaultOccurrence h source id s
  | .wireFault h source => Sys2Proof.Machine.execWireFault h source s
  | .escalation h => Sys2Proof.Machine.execEscalation h s
  | .watchdogExpiry id => Sys2Proof.Machine.execWatchdogExpiry id s
  | .heartbeatMissed h core => Sys2Proof.Machine.execHeartbeatMissed h core s
  | .groupOverLimit tile => Sys2Proof.Machine.execGroupOverLimit tile s
  | .collectionEnd h => Sys2Proof.Machine.execCollectionEnd h s
  | .teardownStop id => Sys2Proof.Machine.execTeardownStop id s
  | .scrubComplete h ctx => Sys2Proof.Machine.execScrubComplete h ctx s
  | .mapDrain h ctx => Sys2Proof.Machine.execMapDrain h ctx s
  | .quiesceComplete => Sys2Proof.Machine.execQuiesceComplete s
  | .saveComplete => Sys2Proof.Machine.execSaveComplete s
  | .restoreComplete => Sys2Proof.Machine.execRestoreComplete s
  | .captureFold die => Sys2Proof.Machine.execCaptureFold die s
  | .solveDeadline id => Sys2Proof.Machine.execSolveDeadline id s
  | .collectiveDeadline h tag => Sys2Proof.Machine.execCollectiveDeadline h tag s
  | .hotsetRefresh die => Sys2Proof.Machine.execHotsetRefresh die s
  | .sketchAging die => Sys2Proof.Machine.execSketchAging die s
  | .wellheadDegraded die way => Sys2Proof.Machine.execWellheadDegraded die way s
  | .migrationSwitch h table => Sys2Proof.Machine.execMigrationSwitch h table s
  | .migrationForwarding h table => Sys2Proof.Machine.execMigrationForwarding h table s
  | .migrationRetire h table => Sys2Proof.Machine.execMigrationRetire h table s
  | .rowMoveComplete die row => Sys2Proof.Machine.execRowMoveComplete die row s
  | .patrol h stack block corrected => Sys2Proof.Machine.execPatrol h stack block corrected s
  | .traceGap h => Sys2Proof.Machine.execTraceGap h s
  | .pwrEnRise => Sys2Proof.Machine.execPwrEnRise s
  | .pwrEnFall => Sys2Proof.Machine.execPwrEnFall s
  | .powerFail millivolts => Sys2Proof.Machine.execPowerFail millivolts s
  | .powerRestart => Sys2Proof.Machine.execPowerRestart s
  | .refclkLoss => Sys2Proof.Machine.execRefclkLoss s
  | .railFail rail => Sys2Proof.Machine.execRailFail rail s
  | .thermalTrip h celsius => Sys2Proof.Machine.execThermalTrip h celsius s
  | .halfResetNAssert h => Sys2Proof.Machine.execHalfResetNAssert h s
  | .halfResetNRelease h => Sys2Proof.Machine.execHalfResetNRelease h s
  | .modResetNAssert => Sys2Proof.Machine.execModResetNAssert s
  | .alwaysOnEntry h => Sys2Proof.Machine.execAlwaysOnEntry h s
  | .romEntry h bootSel secretRecovered => Sys2Proof.Machine.execRomEntry h bootSel secretRecovered s
  | .loaderBoot h => Sys2Proof.Machine.execLoaderBoot h s
  | .firmwareStart h => Sys2Proof.Machine.execFirmwareStart h s
  | .trainingStepTimeout h port => Sys2Proof.Machine.execTrainingStepTimeout h port s
  | .strokeParentTimeout h => Sys2Proof.Machine.execStrokeParentTimeout h s
  | .halfReady h => Sys2Proof.Machine.execHalfReady h s
  | .recoveryImageWritten h => Sys2Proof.Machine.execRecoveryImageWritten h s
  | .spurRecoveryStream f => Sys2Proof.Machine.execSpurRecoveryStream f s
  | .mgmtStatus address => Sys2Proof.Machine.execMgmtStatus address s
  | .mgmtPacket address packet => Sys2Proof.Machine.execMgmtPacket address packet s
  | .mgmtPacketEnqueue h => Sys2Proof.Machine.execMgmtPacketEnqueue h s
  | .mgmtReply address part => Sys2Proof.Machine.execMgmtReply address part s
  | .mgmtRecovery address part offset bytes => Sys2Proof.Machine.execMgmtRecovery address part offset bytes s
  | .rstdaa address => Sys2Proof.Machine.execRstdaa address s
  | .setdasa address dynamic => Sys2Proof.Machine.execSetdasa address dynamic s
  | .setaasa => Sys2Proof.Machine.execSetaasa s
  | .enec address => Sys2Proof.Machine.execEnec address s
  | .disec address => Sys2Proof.Machine.execDisec address s
  | .getstatus address => Sys2Proof.Machine.execGetstatus address s
  | .getbcr address => Sys2Proof.Machine.execGetbcr address s
  | .getdcr address => Sys2Proof.Machine.execGetdcr address s
  | .getmwl address => Sys2Proof.Machine.execGetmwl address s
  | .getmrl address => Sys2Proof.Machine.execGetmrl address s
  | .setmwl address length => Sys2Proof.Machine.execSetmwl address length s
  | .setmrl address length => Sys2Proof.Machine.execSetmrl address length s
  | .rstact address action => Sys2Proof.Machine.execRstact address action s
  | .tapReset => Sys2Proof.Machine.execTapReset s
  | .bypass => Sys2Proof.Machine.execBypass s
  | .idcode => Sys2Proof.Machine.execIdcode s
  | .samplePreload preload => Sys2Proof.Machine.execSamplePreload preload s
  | .extest => Sys2Proof.Machine.execExtest s
  | .clamp => Sys2Proof.Machine.execClamp s
  | .highz => Sys2Proof.Machine.execHighz s
  | .strokeIncrement h => Sys2Proof.Machine.execStrokeIncrement h s
  | .trainingFailed h => Sys2Proof.Machine.execTrainingFailed h s
  | .siphonFlitRetry h => Sys2Proof.Machine.execSiphonFlitRetry h s
  | .pwrEnHoldoffEnd => Sys2Proof.Machine.execPwrEnHoldoffEnd s
  | .diesCooled => Sys2Proof.Machine.execDiesCooled s

end Sys2Proof.Machine
end

