-- ==== Sys2Proof/Safety.lean ====
section
/-! DEFINITION. What counts as a legal state, and the words in which the statements speak of commands: when a row of the opcode
table runs on an admitted command, when its engines have finished, and when nothing stopped the work of an engine. -/

namespace Sys2Proof.Machine

/-- The codes that State holds once for the module are codes of the spec: the link state of the Siphon (R30), LANES_REPAIRED (R30), the
rail group of R500, the transfer lengths of the management port (R508) and the TAP instruction (R513). -/
def State.legal (s : State) : Bool :=
  decide (s.siphon ≤ 3) && decide (s.lanesRepaired ≤ 255) && decide (s.railFail ≤ 7) && decide (s.maxWrite ≤ 4162)
    && decide (s.maxRead ≤ 4162) && decide (s.tapInstruction ≤ 5)

/-- The invariant of the block: memory in canonical form, and legal codes. -/
def State.Inv (s : State) : Prop := s.mem.wf = true ∧ s.legal = true

/-- A software command is in execution: the half `h` holds it as `c` with opcode `op`, it has neither finished nor stopped nor does
it wait, its copy has crossed the Siphon if it acts in both halves (R31), and its power domains are awake (R68). -/
abbrev State.runs (s : State) (id : Nat) (h : Half) (c : Cmd) (op : Nat) : Prop :=
  s.cmd? id = some (h, c) ∧ pkOpcode c.packet = op ∧ c.done = none ∧ c.phase = .running ∧ c.waiting = false
    ∧ (c.twoHalf = true → c.mirrored = true) ∧ s.waking c = false

/-- The engines of a command have finished with a result; its completion writes the reply (R73). -/
def State.ended (t : State) (id : Nat) (h : Half) (r : Result) : Prop := ∃ c, t.cmd? id = some (h, c) ∧ c.done = some r

/-- A command waits for something to come to it; how it does is in `P`. -/
def State.awaits (t : State) (id : Nat) (h : Half) (P : Cmd → Prop) : Prop :=
  ∃ c, t.cmd? id = some (h, c) ∧ c.waiting = true ∧ P c

/-- Word of `n` bytes at an offset of the payload that a result overwrites (R76). -/
def payWord (bs : List Nat) (off n : Nat) : Nat := numOf ((bs.drop off).take n)

/-- Nothing stopped the work of an engine: no fault, no damaged block or line, no data of another module. -/
abbrev Run.clean (r : Run) : Prop := r.settle.stop = none ∧ r.settle.need = [] ∧ r.settle.seals = [] ∧ r.settle.puts = []

/-- The sequencer of a tile stands before the op word `w`, which takes effect at decode: it is running for the command `c` of the half
`h`, and has queued what precedes (R114). -/
def State.decodes (s : State) (g : Nat) (h : Half) (c : Cmd) (t : TileRun) (w : Nat) : Prop :=
  ∃ t0, s.tileOf g = some (h, c, t0) ∧ s.cmd? c.id = some (h, c) ∧ (s.tileIn h c g).ahead 3 64 t0 = .ok t
    ∧ (s.tileIn h c g).decode t = .ok w

/-- The op `op` stands at the head of an issue queue of a tile with its DEP bits satisfied (R113, R114). -/
def State.issues (s : State) (g queue : Nat) (h : Half) (c : Cmd) (t : TileRun) (op : QueuedOp) : Prop :=
  ∃ t0, s.tileOf g = some (h, c, t0) ∧ s.cmd? c.id = some (h, c) ∧ (s.tileIn h c g).ahead queue 64 t0 = .ok t
    ∧ t.queued.find? (·.queue = queue) = some op ∧ t.depsMet op = true

/-- The rows of the queued tile ops: the row on a tile, its OPC, its queue (0 MXE, 1 VXE, 2 MOV) and what it does. -/
def tileRows (g : Nat) : List (Instr × Nat × Nat × (TileIn → QueuedOp → TileRun → TileEff)) :=
  [(.mma g, 0x10, 0, runMma), (.mdrain g, 0x11, 0, runMdrain), (.vadd g, 0x20, 1, runVx), (.vmul g, 0x21, 1, runVx),
   (.vfma g, 0x22, 1, runVx), (.vmax g, 0x23, 1, runVx), (.vmin g, 0x24, 1, runVx), (.vsel g, 0x25, 1, runVx),
   (.vexp2 g, 0x26, 1, runVx), (.vlog2 g, 0x27, 1, runVx), (.vrcp g, 0x28, 1, runVx), (.vrsqrt g, 0x29, 1, runVx),
   (.vcvt g, 0x2A, 1, runVcvt), (.vlred g, 0x2B, 1, runVlred), (.vxred g, 0x2C, 1, runVxred), (.vmov g, 0x2D, 1, runVx),
   (.ld g, 0x30, 2, runLd), (.st g, 0x31, 2, runSt), (.gzero g, 0x41, 0, runGzero),
   (.gtgt g, 0x40, 0, fun x _ t => { run := { mem := x.mem }, t := t })]

/-! ## The runs of the engines, as the rows start them -/

/-- Every block of a GATHER_BLOCKS or SCATTER_BLOCKS lies inside its destination, and its list of indices can be read: what REFUSE
looks at before anything is written. -/
def blocksInside (s : State) (h : Half) (c : Cmd) : Prop :=
  ∃ pre, readList { s.envCmd h c with part := mvHalf c.packet } c.packet (c.desc 0) (c.desc 1) 0 (bkCount c.packet) { mem := s.view } = pre
    ∧ pre.2.stop = none ∧ pre.2.need = []
    ∧ ∀ k < bkCount c.packet, blockOut c.packet (c.desc 0) (c.desc 1) k (pre.1.getD k 0) = false

/-- A byte of a staging range of a tile, or of the TRF of one: undefined after a command that used them (R134, R152, R228). -/
def staged (tiles : List Nat) (line lines a : Nat) : Prop :=
  ∃ g ∈ tiles, (tstOfTile g (64 * line) ≤ a ∧ a < tstOfTile g (64 * (line + lines))) ∨ (trfOfTile g 0 ≤ a ∧ a < trfOfTile g 262144)

/-- A byte of a scratch area in this module: undefined after a command that used it. -/
def scratched (e : Env) (cxa n a : Nat) : Prop :=
  ∃ p ∈ pieces 2048 cxa n, ∃ dpa, e.translate p.1 = .here dpa true ∧ dpa ≤ a ∧ a < dpa + p.2

/-- The rows of the frames that a half takes from a torus port: the row, the TYPE, what it does, and when the row is the one that
speaks of this frame (R379). -/
def frameRows (s : State) (h : Half) (port : Nat) (f : Frame) : List (Instr × Nat × (State → Frame → Answer) × Bool) :=
  [(.readReq h port f, 0x0, takeRead h, true), (.readResp h port f, 0x1, takeReadResp h, true), (.write h port f, 0x2, takeWrite h, true),
   (.ack h port f, 0x3, takeAck h, true), (.nack h port f, 0x4, takeNack h, true),
   (.rowRequest h port f, 0x5, serveRow h port, match f.row with | .request _ _ => true | _ => false),
   (.rowReply h port f, 0x5, takeRow h, match f.row with | .reply _ _ _ => true | _ => false),
   (.exactSumPartial h port f, 0x5, takePartial h port, match f.row with | .exactSum _ _ _ _ => true | _ => false),
   (.stagingRecord h port f, 0x5, takePartial h port, match f.row with | .staged _ _ _ _ => true | _ => false),
   (.migrationCopy h port f, 0x5, takeCopy h port, match f.row with | .copy _ _ _ _ => true | _ => false),
   (.collectiveFrame h port f, 0x6, takeData h, !bitSet f.arg 36 && (s.collReady h f || (s.half h).arrival h f ≠ .take)),
   (.collectiveDescriptorFrame h port f, 0x6, takeDescriptor h, bitSet f.arg 36),
   (.stream h port f, 0x7, takeBlock h port, !bitSet f.arg 16 && s.streamCredit h port f),
   (.streamAbort h port f, 0x7, takeAbort h port, bitSet f.arg 16),
   (.digestMessage h port f, 0x8, takeDigest h, decide (f.arg % 2 = 0)),
   (.digestVerdict h port f, 0x8, takeVerdict h, decide (f.arg % 2 = 1))]

/-- The rows of the spur transfers to a ring: the row, the TYPE, and what it does (R383). -/
def spurRows (f : Frame) : List (Instr × Nat × (State → Frame → Answer)) :=
  [(.ringWrite f, 0x9, takeRingWrite), (.spurReadReq f, 0x0, takeRingRead), (.doorbell f, 0xA, takeDoorbell)]

/-- A torus port of a half hears a frame of a type that is for this module: it is ACTIVE, and the half is not in reset (R375). -/
def State.hearsFrame (s : State) (h : Half) (port : Nat) (f : Frame) (type : Nat) : Prop :=
  port ≤ 3 ∧ (s.half h).portState h port = 2 ∧ (s.half h).resetting = false ∧ f.type = type ∧ f.dst = (s.half h).myPos h

end Sys2Proof.Machine
end

