-- ==== Sys2Proof/Certificates/Slice0/Obligations.lean ====
section
/-! DEFINITION. The statements about the block, for the provers: `Obligations.<Name>` says what its docstring says. -/

open Sys2Proof Sys2Proof.Machine

/-! ## The block as a whole -/

/-- FrontOfQueueRuns: a step takes the command at the front of the queue and performs it on the state with the rest of the queue; on an
empty queue the block idles (DESIGN CHOICE, log entry 1). -/
def Obligations.FrontOfQueueRuns : Prop :=
  (∀ (c : Instr) (rest : List Instr) (s : State), s.pending = c :: rest → step s = exec c { s with pending := rest })
  ∧ ∀ s : State, s.pending = [] → step s = .next s

/-- ResetMeetsInvariant: the module before PWR_EN first rises is off in both halves with no command in it, and meets the invariant. -/
def Obligations.ResetMeetsInvariant : Prop :=
  State.reset.Inv ∧ State.reset.pending = [] ∧ State.reset.isOff = true ∧ State.reset.allCmds = []

/-- StepKeepsInvariant: from every state that meets the invariant, not only those that a run reaches, a step gives a state that meets
it: memory in canonical form, and the module's codes legal. -/
def Obligations.StepKeepsInvariant : Prop := ∀ s t : State, s.Inv → step s = .next t → t.Inv

/-- CommandsLeaveTheQueue: a command changes everything but the queue of waiting commands. -/
def Obligations.CommandsLeaveTheQueue : Prop := ∀ (c : Instr) (s t : State), exec c s = .next t → t.pending = s.pending

/-- EveryCommandAnswers: no command of the table ends in a fault or a refusal. -/
def Obligations.EveryCommandAnswers : Prop := ∀ (c : Instr) (s : State), ∃ t, exec c s = .next t

/-- WrittenBytesReadBack: bytes written to memory read back, every other byte reads as before, and the canonical form is kept. -/
def Obligations.WrittenBytesReadBack : Prop :=
  ∀ (m : Mem) (a : Nat) (bs : List Nat), (∀ b ∈ bs, b < 256) →
    (m.write a bs).bytes a bs.length = bs
    ∧ (∀ x, (x < a ∨ a + bs.length ≤ x) → (m.write a bs).byte x = m.byte x)
    ∧ (m.wf = true → (m.write a bs).wf = true)

/-! ## Control commands -/

/-- ControlCommandsComplete: NOP, QUERY_GEOMETRY, REG_READ and REG_WRITE end with OK once they run. REG_READ reads its entries in list
order and writes them back, REG_WRITE writes them in list order (R78); QUERY_GEOMETRY returns the Device Geometry Table (R76). REG_READ
and REG_WRITE need the other half where an entry names it, and REG_WRITE waits for a commit of the stroke (R103). CONFIG_COMMIT with
COMMIT_STROKE zero arms its commit for the next stroke boundary of each half that it concerns, in no scheduled-event slot, and waits
for it (R102). -/
def Obligations.ControlCommandsComplete : Prop :=
  ∀ (s : State) (id : Nat) (h : Half) (c : Cmd),
    (s.runs id h c 0x0000 → exec (.nop id) s = .next (s.finish h c (okResult 0 0 0)))
    ∧ (s.runs id h c 0x0001 →
        exec (.queryGeometry id) s = .next (s.finish h c { okResult 0 0 0 with payload := some (bytesOf 64 Config.geometry) }))
    ∧ (s.runs id h c 0x0002 → s.reaches h c.packet = true →
        ∃ t bs, ((List.range (reCount c.packet)).map (reAddr c.packet)).foldl regEntry (s.crossRegs h c.packet, []) = (t, bs)
          ∧ exec (.regRead id) s = .next (t.finish h c { okResult 0 0 0 with payload := some bs }))
    ∧ (s.runs id h c 0x0003 → s.reaches h c.packet = true → s.commitDue = false →
        ∃ t, (List.range (reCount c.packet)).foldl (fun u i =>
            if reAddr c.packet i = 0 then u else
            u.modHalf (reHalf (reAddr c.packet i)) fun x =>
              x.writeReg (reHalf (reAddr c.packet i)) (reKey (reAddr c.packet i)) (reValue c.packet i)) (s.crossRegs h c.packet) = t
          ∧ exec (.regWrite id) s = .next ((t.ibiAfter s).finish h c (okResult 0 0 0)))
    ∧ (s.runs id h c 0x0004 → ccStroke c.packet = 0 →
        ∃ t, exec (.configCommit id) s = .next t ∧ t.awaits id h (fun _ => True) ∧ t.mem = s.mem
          ∧ (c.twoHalf = false → (t.half h.other).events = (s.half h.other).events)
          ∧ ∀ g, (g = h ∨ c.twoHalf = true) → (t.half g).events = (s.half g).events ++ [{
              stroke := (s.half g).count + 1, both := c.twoHalf, slotless := true
              kind := .commit (ccRegs c.packet) (ccMap c.packet) (pkCtx c.packet) (pkGen c.packet) c.id }])

/-- GateSetWritesItsGate: GATE_SET writes the value in bits [31:0] to the gate named in bits [43:32], before the signals that the gate takes
in the same stroke: what it has been signalled in this stroke is added after (R91). Every other gate of every context keeps its value,
and so does all of memory. -/
def Obligations.GateSetWritesItsGate : Prop :=
  ∀ (s : State) (id : Nat) (h : Half) (c : Cmd) (i : Nat), s.runs id h c 0x0005 → c.ctx = some i →
    ∃ t, exec (.gateSet id) s = .next t ∧ t.ended id h (okResult 0 0 0)
      ∧ t.gate i (pl c.packet 32 12) = (pl c.packet 0 32 + s.signalledNow i (pl c.packet 32 12)) % 2 ^ 32
      ∧ (∀ j g, (j ≠ i ∨ g ≠ pl c.packet 32 12) → t.gate j g = s.gate j g)
      ∧ t.mem = s.mem ∧ t.siphon = s.siphon ∧ t.q.regs = s.q.regs ∧ t.k.regs = s.k.regs

/-- GateWaitIsASignedDifference (R90): a wait with threshold T on a gate holding V holds when V − T, as a 32-bit signed number, is at
least 0, and so it tolerates wrap while V lies less than 2³¹ beyond T. -/
def Obligations.GateWaitIsASignedDifference : Prop :=
  (∀ v t : Nat, v < 2 ^ 32 → t < 2 ^ 32 → (waitHolds v t = true ↔ 0 ≤ (BitVec.ofNat 32 v - BitVec.ofNat 32 t).toInt))
  ∧ ∀ t d : Nat, t < 2 ^ 32 → d < 2 ^ 31 → waitHolds ((t + d) % 2 ^ 32) t = true

/-- EventsAreArmed: a CONFIG_COMMIT with a stroke, FW_ACTIVATE and FREEZE_ARM with a stroke each take one scheduled-event slot, in each
half they concern, while a slot is free (R52, R53); the first two then wait for the event, the last ends. Commits without a stroke take no
slot (R102). -/
def Obligations.EventsAreArmed : Prop :=
  ∀ (s : State) (id : Nat) (h : Half) (c : Cmd),
    (s.runs id h c 0x0004 → ccStroke c.packet ≠ 0 → c.twoHalf = false → (s.half h).slotsUsed < 8 →
        ∃ t, exec (.configCommit id) s = .next t ∧ t.awaits id h (fun _ => True) ∧ (t.half h.other).events = (s.half h.other).events
          ∧ (t.half h).events = (s.half h).events ++ [{
              stroke := ccStroke c.packet, both := false
              kind := .commit (ccRegs c.packet) (ccMap c.packet) (pkCtx c.packet) (pkGen c.packet) c.id }])
    ∧ (s.runs id h c 0x0004 → ccStroke c.packet ≠ 0 → c.twoHalf = true → s.q.slotsUsed < 8 → s.k.slotsUsed < 8 →
        ∃ t, exec (.configCommit id) s = .next t ∧ t.awaits id h (fun _ => True)
          ∧ ∀ g, (t.half g).events = (s.half g).events ++ [{
              stroke := ccStroke c.packet, both := true
              kind := .commit (ccRegs c.packet) (ccMap c.packet) (pkCtx c.packet) (pkGen c.packet) c.id }])
    ∧ (s.runs id h c 0x0B02 → s.q.slotsUsed < 8 → s.k.slotsUsed < 8 →
        ∃ t, exec (.fwActivate id) s = .next t ∧ t.awaits id h (fun _ => True)
          ∧ ∀ g, (t.half g).events = (s.half g).events ++ [{ stroke := aaStroke c.packet, both := true, kind := .activation c.id }])
    ∧ (s.runs id h c 0x0007 → faMode c.packet = 0 → s.q.slotsUsed < 8 → s.k.slotsUsed < 8 →
        ∃ t, exec (.freezeArmAtStroke id) s = .next t ∧ t.ended id h (okResult 0 0 0)
          ∧ ∀ g, (t.half g).events = (s.half g).events ++ [{ stroke := faStroke c.packet, both := true, kind := .freeze (faArm c.packet) }])

/-- FreezeAndTraceControlComplete: FREEZE_ARM on a source arms the source in the half it lies in, and its release discards the
frozen sets of both halves (R466); every byte of memory and every register stays. START, STOP, RESET and CLEAR_ATTR of TRACE_CTL
change the trace unit or the attribution table of the half that PART names, and nothing of the other half but its list of
commands where the command lies there (R463). -/
def Obligations.FreezeAndTraceControlComplete : Prop :=
  (∀ (s : State) (id : Nat) (h : Half) (c : Cmd),
      (s.runs id h c 0x0007 → faMode c.packet = 1 →
          ∃ t, exec (.freezeArmOnSource id) s = .next t ∧ t.ended id h (okResult 0 0 0)
            ∧ (t.half (Half.ofPart (faSource c.packet / 1024))).sourceArm = some (faSource c.packet, faArm c.packet)
            ∧ t.mem = s.mem ∧ t.q.regs = s.q.regs ∧ t.k.regs = s.k.regs)
      ∧ (s.runs id h c 0x0007 → faMode c.packet = 2 →
          ∃ t, exec (.freezeArmRelease id) s = .next t ∧ t.ended id h (okResult 0 0 0) ∧ t.q.frozen = none ∧ t.k.frozen = none
            ∧ t.mem = s.mem ∧ t.q.regs = s.q.regs ∧ t.k.regs = s.k.regs))
  ∧ (∀ (s : State) (id : Nat) (h g : Half) (c : Cmd), s.runs id h c 0x0009 → tcHalf c.packet = g →
      (tcOp c.packet = 1 → ∃ t, exec (.traceCtlStart id) s = .next t ∧ t.ended id h (okResult 0 0 0)
          ∧ (t.half g).trace.on = true ∧ (t.half g).trace.mask = pl c.packet 16 16 ∧ (t.half g).trace.wrap = decide (pl c.packet 4 1 = 1)
          ∧ (t.half g.other).trace = (s.half g.other).trace ∧ t.mem = s.mem)
      ∧ (tcOp c.packet = 2 → ∃ t, exec (.traceCtlStop id) s = .next t ∧ t.ended id h (okResult 0 0 0)
          ∧ (t.half g).trace = { (s.half g).trace with on := false }
          ∧ (t.half g.other).trace = (s.half g.other).trace ∧ t.mem = s.mem)
      ∧ (tcOp c.packet = 3 → ∃ t, exec (.traceCtlReset id) s = .next t ∧ t.ended id h (okResult 0 0 0)
          ∧ (t.half g).trace = { (s.half g).trace with next := 0, wrapped := false, drops := 0 }
          ∧ (t.half g.other).trace = (s.half g.other).trace ∧ t.mem = s.mem)
      ∧ (tcOp c.packet = 4 → ∃ t, exec (.traceCtlClearAttr id) s = .next t ∧ t.ended id h (okResult 0 0 0)
          ∧ (t.half g).attr = [] ∧ (t.half g).trace = (s.half g).trace
          ∧ (t.half g.other).attr = (s.half g.other).attr ∧ t.mem = s.mem))

/-- ReportsComplete: GAUGE_READ ends with OK and overwrites its payload with the header of R461 (the stroke of the read and the epoch
offset of the half; for a frozen source the latch stroke and the identity of the freeze), and from unit 1 on with the gauges, the
entries of the attribution or the staleness table, or the records of the trace buffer that it asks for; where a frozen set is asked for
and none is held it ends with OK_EMPTY (R460, R461, R467). HANG_REPORT in GRAPH mode ends with OK and the wait-for graph: EDGES,
RETURNED, ORPHAN_WAITS and SNAPSHOT_STROKE in unit 0 and 32 bytes for each edge returned; in READ_COLLECTED mode with OK, the number of
bytes in DETAIL0 and those bytes of the record from OFFSET on, and OK_EMPTY without a record (R440 to R444). None of them changes
memory or a register. -/
def Obligations.ReportsComplete : Prop :=
  ∀ (s : State) (id : Nat) (h : Half) (c : Cmd) (x : HalfState), s.half (ggHalf c.packet) = x →
    (s.runs id h c 0x0008 → ggFrozen c.packet = true → x.frozen = none → exec (.gaugeRead id) s = .next (s.finish h c emptyResult))
    ∧ (s.runs id h c 0x0008 → ggSource c.packet < 6 → (ggFrozen c.packet = false ∨ x.frozen.isSome = true) →
        ∃ t bs, exec (.gaugeRead id) s = .next t ∧ t.mem = s.mem ∧ t.q.regs = s.q.regs ∧ t.k.regs = s.k.regs
          ∧ t.ended id h { okResult 0 0 0 with payload := some bs } ∧ bs = s.gaugeHead c.packet ++ s.gaugeValues c.packet c.ctx
          ∧ (ggFrozen c.packet = false → payWord bs 0 8 = x.count % 2 ^ 64 ∧ payWord bs 8 8 = x.count % 2 ^ 64
              ∧ payWord bs 16 8 = x.epochOffset (ggHalf c.packet) % 2 ^ 64 ∧ payWord bs 24 4 = 0)
          ∧ (∀ z, x.frozen = some z → ggFrozen c.packet = true → payWord bs 0 8 = z.stroke % 2 ^ 64
              ∧ payWord bs 8 8 = z.stroke % 2 ^ 64 ∧ payWord bs 24 4 = z.freezeId % 2 ^ 32)
          ∧ (∀ i < ggCount c.packet, untracked (ggFamily c.packet) (ggInst c.packet + i) = false →
              (ggSource c.packet = 0 → payWord bs (64 + 8 * i) 8
                = x.gauges.at (gaugeSel (ggFamily c.packet) (ggInst c.packet + i) (ggSub c.packet)) % 2 ^ 64)
              ∧ ∀ z, x.frozen = some z → ggSource c.packet = 1 → payWord bs (64 + 8 * i) 8
                = z.gauges.at (gaugeSel (ggFamily c.packet) (ggInst c.packet + i) (ggSub c.packet)) % 2 ^ 64)
          ∧ ∀ i < ggCount c.packet, c.ctx = none → ggSource c.packet = 4 →
              payWord bs (64 + 8 * i) 8 = x.stale.at (ggFirst c.packet + i) % 2 ^ 64)
    ∧ (s.runs id h c 0x0008 → ggSource c.packet = 6 →
        s.view.damageIn (traceAt (ggHalf c.packet) + 32 * ggFirst c.packet) (32 * ggCount c.packet) = none →
        ∃ t bs, exec (.gaugeRead id) s = .next t ∧ t.mem = s.mem ∧ t.q.regs = s.q.regs ∧ t.k.regs = s.k.regs
          ∧ t.ended id h { okResult 0 0 0 with payload := some bs } ∧ payWord bs 0 8 = x.count % 2 ^ 64
          ∧ bs.drop 64 = s.view.bytes (traceAt (ggHalf c.packet) + 32 * ggFirst c.packet) (32 * ggCount c.packet))
    ∧ (∀ es, s.runs id h c 0x0006 → hrMode c.packet = 0 → s.edges (hrCtx c.packet) (reportHalves h (hrBoth c.packet)) = es →
        ∃ t bs n, exec (.hangReportGraph id) s = .next t ∧ t.mem = s.mem ∧ t.q.regs = s.q.regs ∧ t.k.regs = s.k.regs
          ∧ t.ended id h { okResult 0 0 0 with payload := some bs }
          ∧ n ≤ 2 * (pkUnits c.packet - 1) ∧ bs.length = 64 + 32 * n
          ∧ payWord bs 0 4 = es.length % 2 ^ 32 ∧ payWord bs 4 2 = n % 2 ^ 16 ∧ payWord bs 8 4 = orphanWaits es % 2 ^ 32
          ∧ payWord bs 16 8 = s.now h % 2 ^ 64)
    ∧ (s.runs id h c 0x0006 → hrMode c.packet = 1 →
        bitSet ((s.half (hrPart c.packet).other).cell (hrPart c.packet).other (hubKey bFCL 5)) 0 = false →
        exec (.hangReportReadCollected id) s = .next (s.finish h c emptyResult))
    ∧ (∀ n at0, s.runs id h c 0x0006 → hrMode c.packet = 1 →
        bitSet ((s.half (hrPart c.packet).other).cell (hrPart c.packet).other (hubKey bFCL 5)) 0 = true →
        at0 = collectedAt (hrPart c.packet) →
        n = min (64 * pkUnits c.packet) (s.view.word (at0 + 24) 8 - pl c.packet 64 32) →
        s.view.damageIn at0 64 = none → s.view.damageIn (at0 + pl c.packet 64 32) n = none →
        ∃ t, exec (.hangReportReadCollected id) s = .next t ∧ t.mem = s.mem ∧ t.q.regs = s.q.regs ∧ t.k.regs = s.k.regs
          ∧ t.ended id h { okResult n 0 0 with
              payload := some (s.view.bytes (at0 + pl c.packet 64 32) n ++ List.replicate (64 * pkUnits c.packet - n) 0) })

/-! ## Contexts and rings -/

/-- ContextDefineCompletes: CTX_DEFINE records the new generation and holds the context DEFINED in every half of its footprint, returns
the negotiated version in DETAIL0, and leaves the other contexts, the halves outside the footprint and all of memory alone
(R88, R94). -/
def Obligations.ContextDefineCompletes : Prop :=
  ∀ (s : State) (id : Nat) (h : Half) (c : Cmd), s.runs id h c 0x0101 →
    ∃ t, exec (.ctxDefine id) s = .next t ∧ t.ended id h (okResult Config.protocolVersion 0 0) ∧ t.mem = s.mem
      ∧ (∀ g, inFootprint (cdFootprint c.packet) g = true →
          (t.half g).ctx (pkCtx c.packet) = ctxOfPacket c.packet ∧ (t.half g).gen (pkCtx c.packet) = cdGen c.packet)
      ∧ (∀ g i, (inFootprint (cdFootprint c.packet) g = false ∨ i ≠ pkCtx c.packet) →
          (t.half g).ctx i = (s.half g).ctx i ∧ (t.half g).gen i = (s.half g).gen i)

/-- ContextSwitchBegins: CTX_SWITCH that names the resident context completes with OK and has no effect (R96). Any other one begins a
switch and waits for its end (R97): in each half it acts in, the resident context leaves and becomes SWITCHING_OUT, the named one becomes
SWITCHING_IN where it is not resident, and none is resident until the restore. Without a resident context only the restore is left;
otherwise the switch is at its step 2, or at step 3 when no command of an outgoing context is left in the engines. -/
def Obligations.ContextSwitchBegins : Prop :=
  ∀ (s : State) (id : Nat) (h : Half) (c : Cmd), s.runs id h c 0x0102 →
    ((∀ g, (g = h ∨ c.twoHalf = true) → (s.half g).resident = some (pkCtx c.packet)) →
        exec (.ctxSwitch id) s = .next (s.finish h c (okResult 0 0 0)))
    ∧ ((∃ g, (g = h ∨ c.twoHalf = true) ∧ (s.half g).resident ≠ some (pkCtx c.packet)) →
        ∃ t w, exec (.ctxSwitch id) s = .next t ∧ t.switch = some w ∧ w.cmd = id ∧ w.home = h ∧ w.incoming = pkCtx c.packet
          ∧ w.both = c.twoHalf ∧ w.abandoned = false ∧ t.mem = s.mem
          ∧ ((∀ g, (g = h ∨ c.twoHalf = true) → (s.half g).resident = none) → w.step = 5)
          ∧ ((∃ g, (g = h ∨ c.twoHalf = true) ∧ (s.half g).resident ≠ none) →
              w.step = if t.q.draining || t.k.draining then 2 else 3)
          ∧ ∀ g, (g = h ∨ c.twoHalf = true) → (t.half g).resident = none
              ∧ (∀ r, (s.half g).resident = some r → inFootprint ((s.half g).ctx r).footprint g = true →
                  ((t.half g).ctx r).st = .switchingOut)
              ∧ ((s.half g).resident ≠ some (pkCtx c.packet) → inFootprint ((s.half g).ctx (pkCtx c.packet)).footprint g = true →
                  ((t.half g).ctx (pkCtx c.packet)).st = .switchingIn))

/-- ContextsEnd: CTX_TEARDOWN and CTX_RELEASE tear the context down in every half, the first with notices to its peers and the
second without, and wait for the teardown's end there (R99, R101). A running command of an outgoing context of its half leaves
the engines at its preemption point and is kept with its state (R97); a command stopped by a teardown leaves with TORN_DOWN, and
the teardown goes on where no other is left to stop (R99). -/
def Obligations.ContextsEnd : Prop :=
  (∀ (s : State) (id : Nat) (h : Half) (c : Cmd),
      (s.runs id h c 0x0103 →
          exec (.ctxTeardown id) s = .next ((s.setCmd h { c with waiting := true }).teardownFrom h (pkCtx c.packet) true))
      ∧ (s.runs id h c 0x0104 →
          exec (.ctxRelease id) s = .next ((s.setCmd h { c with waiting := true }).teardownFrom h (pkCtx c.packet) false)))
  ∧ (∀ (s : State) (id : Nat) (h : Half) (c : Cmd) (i : Nat), s.cmd? id = some (h, c) → c.ctx = some i →
      (((s.half h).ctx i).st = .switchingOut → c.ring ≠ .mgmt → c.phase = .running → c.mayPause = true →
          ∃ t, exec (.commandSuspend id) s = .next t ∧ t.mem = c.spill s.mem
            ∧ (t.half h).suspended = (s.half h).suspended ++ [{ c with phase := .suspended }]
            ∧ (t.half h).cmds = (s.half h).cmds.filter (·.id ≠ c.id))
      ∧ (∀ r, c.stopWith = some r → r.d0 = rsTornDown →
          exec (.teardownStop id) s = .next (((s.endScratch h c).retire h { c with reports := [] } r).tearEnd i)))

/-- RingsComeAndGo: RING_DEFINE adds the ring its packet describes, empty, in its home half, and RING_DELETE takes the ring with the
given number of the context away; MAP_WRITE puts its entries into the map shadow set of every half of the footprint and leaves
the active map alone (R81, R102, R515). -/
def Obligations.RingsComeAndGo : Prop :=
  ∀ (s : State) (id : Nat) (h : Half) (c : Cmd),
    (s.runs id h c 0x0105 →
        ∃ t, exec (.ringDefine id) s = .next t ∧ t.ended id h (okResult 0 0 0) ∧ t.mem = s.mem
          ∧ (t.half (rdHome c.packet)).rings = (s.half (rdHome c.packet)).rings ++ [ringOfPacket c.packet]
          ∧ (t.half (rdHome c.packet).other).rings = (s.half (rdHome c.packet).other).rings
          ∧ (ringOfPacket c.packet).cmdHead = (ringOfPacket c.packet).cmdTail
          ∧ (ringOfPacket c.packet).rplHead = (ringOfPacket c.packet).rplTail)
    ∧ (s.runs id h c 0x0106 →
        ∃ t, exec (.ringDelete id) s = .next t ∧ t.ended id h (okResult 0 0 0) ∧ t.mem = s.mem
          ∧ ∀ g r, r ∈ (t.half g).rings ↔
              r ∈ (s.half g).rings ∧ ¬ (r.ctx = some (pkCtx c.packet) ∧ r.num = pl c.packet 0 5))
    ∧ (s.runs id h c 0x0107 → s.commitDue = false →
        ∃ t, exec (.mapWrite id) s = .next t ∧ t.ended id h (okResult 0 0 0) ∧ t.mem = s.mem
          ∧ (∀ g, inFootprint (s.ctxAny h (pkCtx c.packet)).footprint g = true →
              ((t.half g).ctx (pkCtx c.packet)).shadow = mwApply c.packet ((s.half g).ctx (pkCtx c.packet)).shadow)
          ∧ ∀ g i, ((t.half g).ctx i).map = ((s.half g).ctx i).map)

/-- SwitchAndScrubComplete: while a switch is under way, its quiesce ends once no frame of an outgoing context is unacknowledged, its save leads to the
restore, and its restore makes the incoming context resident in every half it acts in, RESIDENT where it was coming in, and ends the
CTX_SWITCH with OK, or with TORN_DOWN when it was abandoned (R97, R100). The scrub of a half after READY clears all of its HBM, and the scrub of
an ended context clears every frame
of the half that the context held, all of whose bytes then read zero (R99, R446); a drained map leaves its context no draining
frame, and memory as it is (R104). -/
def Obligations.SwitchAndScrubComplete : Prop :=
  (∀ (s : State) (w : Switch), s.switch = some w →
      (w.step = 3 → (∀ u ∈ s.q.unacked ++ s.k.unacked, u.frame.mgmt = true ∨ u.frame.ctx ∉ s.q.outgoing ++ s.k.outgoing) →
          ∃ t, exec .quiesceComplete s = .next t ∧ t.switch = some { w with step := 4 } ∧ t.mem = s.mem)
      ∧ (w.step = 4 → ∃ t, exec .saveComplete s = .next t ∧ t.switch = some { w with step := 5 })
      ∧ (w.step = 5 → w.abandoned = false →
          ∃ t, exec .restoreComplete s = .next t ∧ t.switch = none
            ∧ (∀ g, g ∈ w.halves → (t.half g).resident = some w.incoming
                ∧ (((s.half g).ctx w.incoming).st = .switchingIn → ((t.half g).ctx w.incoming).st = .resident))
            ∧ ∀ h c, s.cmd? w.cmd = some (h, c) → (∀ k ∈ s.q.suspended ++ s.k.suspended, k.id ≠ w.cmd) →
                t.ended w.cmd h (okResult 0 0 0))
      ∧ (∀ h c, w.step = 5 → w.abandoned = true → s.cmd? w.cmd = some (h, c) →
          exec .restoreComplete s = .next (({ s with switch := none } : State).finish h c (tornResult (pkGen c.packet)))))
    ∧ (∀ (s : State) (h : Half) (ctx : Nat),
      (16 ≤ ctx → (s.half h).scrubAll = true → (s.half h).boot = .ready →
          ∃ t, exec (.scrubComplete h ctx) s = .next t ∧ (t.half h).scrubAll = false
            ∧ t.mem = s.mem.clear (h.part * 2 ^ 40) ((h.part + 1) * 2 ^ 40))
      ∧ (ctx < 16 → (s.q.ctx ctx).tearing = false → (s.k.ctx ctx).tearing = false → (∃ f, (f, ctx) ∈ (s.half h).scrub) →
          ∃ t, exec (.scrubComplete h ctx) s = .next t ∧ (∀ f, (f, ctx) ∉ (t.half h).scrub)
            ∧ (∀ f i, (f, ctx) ∈ (s.half h).scrub → f * frameBytes ≤ i → i < (f + 1) * frameBytes → t.mem.byte i = 0)
            ∧ (∀ i, (∀ f, (f, ctx) ∈ (s.half h).scrub → i < f * frameBytes ∨ (f + 1) * frameBytes ≤ i) → t.mem.byte i = s.mem.byte i))
      ∧ ∃ t, exec (.mapDrain h ctx) s = .next t ∧ ((t.half h).ctx ctx).draining = [] ∧ t.mem = s.mem
          ∧ ((t.half h).ctx ctx).map = ((s.half h).ctx ctx).map)


/-! ## Scale slots -/

/-- ScaleCommandsComplete: a SCALE_LOAD whose next entries carry SET, ADVANCE or CLEAR_OVF performs all of them up to the first entry
with another OP, in list order and passing over empty ones, and ends with OK after the last entry; memory stays as it is (R174). An entry
puts its operation's value into every slot it names, in every half of the footprint, ADVANCE after the pending state and the overflow
bits of the halves' copies have been merged, and leaves every other slot of every context alone (R171, R173, R174). SCALE_READ ends with
OK and overwrites its payload with the records of the slots it names, and changes no slot (R173, R175). -/
def Obligations.ScaleCommandsComplete : Prop :=
  (∀ (s u : State) (id op : Nat) (h : Half) (c : Cmd) (i : Instr) (merged : Bool) (f : Nat → ScaleSlot → ScaleSlot) (es : List Nat),
      (i, op, merged, f) ∈ [(Instr.scaleLoadSet id, 1, false, scaleSet), (.scaleLoadAdvance id, 2, true, fun _ => ScaleSlot.advance),
        (.scaleLoadClearOvf id, 3, false, fun _ => ScaleSlot.clearOvf)] →
      s.runs id h c 0x0205 → es = ((slEntries c.packet).drop c.cursor).takeWhile (fun v => slOp v == 0 || slOp v == op) →
      (∃ v ∈ es, slOp v = op) →
      u = (es.filter (slOp · == op)).foldl (fun t v =>
        t.scaleApply (pkCtx c.packet) (s.ctxAny h (pkCtx c.packet)).footprint v merged (f v)) s →
      u.mem = s.mem
      ∧ (c.cursor + es.length = 4 * pkUnits c.packet →
          exec i s = .next (u.finish h { c with cursor := c.cursor + es.length } (okResult 0 0 0)))
      ∧ (c.cursor + es.length < 4 * pkUnits c.packet → exec i s = .next (u.setCmd h { c with cursor := c.cursor + es.length })))
  ∧ (∀ (s : State) (ctx footprint v : Nat) (merged : Bool) (f : ScaleSlot → ScaleSlot) (g : Half) (n : Nat),
      (inFootprint footprint g = true → slSlot v ≤ n → n < slSlot v + slCount v →
          (((s.scaleApply ctx footprint v merged f).half g).ctx ctx).scale n
            = f (if footprint = 3 ∧ merged = true then (((s.half g).ctx ctx).scale n).merge (((s.half g.other).ctx ctx).scale n)
              else ((s.half g).ctx ctx).scale n))
      ∧ ∀ i, (inFootprint footprint g = false ∨ i ≠ ctx ∨ n < slSlot v ∨ slSlot v + slCount v ≤ n) →
          (((s.scaleApply ctx footprint v merged f).half g).ctx i).scale n = ((s.half g).ctx i).scale n)
  ∧ (∀ (s : State) (id : Nat) (h : Half) (c : Cmd), s.runs id h c 0x0206 →
      ∃ t, exec (.scaleRead id) s = .next t ∧ t.mem = s.mem ∧ t.q.ctxs = s.q.ctxs ∧ t.k.ctxs = s.k.ctxs
        ∧ t.ended id h { okResult 0 0 0 with
            payload := some (overPayload c.packet
              (scaleBytes s (pkCtx c.packet) (s.ctxAny h (pkCtx c.packet)).footprint c.packet)) })

/-- ScaleSetReachesEverySlot: one entry with OP SET gives every slot it names the exponent, HELD, FMT_REF and amax history of the
entry with the rest cleared, in every half of the footprint, and leaves every other slot of every context alone (R174). -/
def Obligations.ScaleSetReachesEverySlot : Prop :=
  ∀ (s : State) (ctx footprint v : Nat) (g : Half),
    (∀ n, inFootprint footprint g = true → slSlot v ≤ n → n < slSlot v + slCount v →
        (((s.scaleApply ctx footprint v false (scaleSet v)).half g).ctx ctx).scale n
          = { exp := signed (bits v 32 8) 8, held := bitSet v 40, fmtRef := bits v 41 3, hist := List.replicate 16 (bits v 64 32) })
    ∧ (∀ i n, (inFootprint footprint g = false ∨ i ≠ ctx ∨ n < slSlot v ∨ slSlot v + slCount v ≤ n) →
        (((s.scaleApply ctx footprint v false (scaleSet v)).half g).ctx i).scale n = ((s.half g).ctx i).scale n)

/-! ## Tiles -/

/-- TileControlOpsExecute: the ops that take effect at decode. NOP and a GATE_WAIT whose wait holds go on to the next word; LOOP opens
a loop over the words that follow; AADD adds to an address register modulo 2³² and ASET sets one (R115, R116); END ends the program
of the tile once its queues are empty, after a number of cycles that is a free value, and the last END of a TILE_RUN ends the command
with its tiles, the greatest cycles and the sum of the conflicts (R127). Memory stays as it is. -/
def Obligations.TileControlOpsExecute : Prop :=
  ∀ (s : State) (g : Nat) (h : Half) (c : Cmd) (t : TileRun) (w : Nat), s.decodes g h c t w →
    (opOpc w = 0x01 → exec (.tileNop g) s = .next (s.setTile h c g t.advance))
    ∧ (opOpc w = 0x02 → waitHolds (s.gate (c.ctx.getD 0) (bits w 16 12)) (bits w 32 32) = true →
        exec (.gateWait g) s = .next (s.setTile h c g t.advance))
    ∧ (opOpc w = 0x02 → waitHolds (s.gate (c.ctx.getD 0) (bits w 16 12)) (bits w 32 32) = false → exec (.gateWait g) s = .next s)
    ∧ (opOpc w = 0x03 → exec (.loop g) s = .next (s.setTile h c g
        { t with pc := t.pc + 1, loops := (t.pc + 1, t.pc + bits w 32 16, bits w 16 16) :: t.loops }))
    ∧ (opOpc w = 0x04 → exec (.aadd g) s = .next (s.setTile h c g
        { t with areg := t.areg.set (bits w 16 3) ((t.areg.getD (bits w 16 3) 0 + bits w 32 32) % 2 ^ 32) }.advance))
    ∧ (opOpc w = 0x05 → exec (.aset g) s = .next (s.setTile h c g
        { t with areg := t.areg.set (bits w 16 3) (bits w 32 32) }.advance))
    ∧ (opOpc w = 0x00 → t.queued = [] →
        ∃ u m ts, exec (.tileEnd g) s = .next u ∧ u.mem = s.mem ∧ ts = put g { t with ended := true, cycles := m } c.tiles
          ∧ ((ts.all fun x => x.2.ended) = true → u.ended c.id h
              (okResult ts.length (greatest (ts.map (·.2.cycles))) (total (ts.map (·.2.conflicts)))))
          ∧ ((ts.all fun x => x.2.ended) = false → ∃ k, u.cmd? c.id = some (h, k) ∧ k.tiles = ts ∧ k.done = none))

/-- TileEngineOpsExecute: a queued op at the head of its queue, with its DEP bits satisfied, does what its row says to the tile's
memory and leaves its queue, after retries whose number is a free value (R111); the rest of the machine's memory stays, since the run
starts from it (R114). -/
def Obligations.TileEngineOpsExecute : Prop :=
  ∀ (s : State) (g : Nat) (h : Half) (c : Cmd) (t : TileRun) (op : QueuedOp) (i : Instr) (opc queue : Nat)
    (f : TileIn → QueuedOp → TileRun → TileEff),
    (i, opc, queue, f) ∈ tileRows g → s.issues g queue h c t op → opOpc op.word = opc →
    (f (s.tileIn h c g) op t).bad = false → (f (s.tileIn h c g) op t).run.settle.seals = [] →
    ∃ u k n, exec i s = .next u ∧ u.mem = (s.commit (f (s.tileIn h c g) op t).run.settle.mem).mem ∧ u.cmd? c.id = some (h, k)
      ∧ find g k.tiles = some { (f (s.tileIn h c g) op t).t.executed op with
          queued := (f (s.tileIn h c g) op t).t.queued.filter (·.seq ≠ op.seq)
          conflicts := (f (s.tileIn h c g) op t).t.conflicts + n }

/-- TileCommandsComplete: TILE_PROGRAM_LOAD writes its words into the TST of every selected tile and ends with OK; TILE_RUN starts the
program of every selected tile at the given word with the address registers its payload gives, and waits for their ENDs (R125 to
R127). A group over its limit is counted in the tile's register (R129). -/
def Obligations.TileCommandsComplete : Prop :=
  ∀ (s : State) (id : Nat) (h : Half) (c : Cmd),
    (∀ (words : List Nat) (run : Run), s.runs id h c 0x0201 →
        words = (if plInline c.packet then plWords c.packet
          else (List.range (plLength c.packet)).map fun i => bits (c.recordNum 0) (128 * i) 128) →
        run = (bitIndices (plMask c.packet) 384).foldl (fun r g => (words.zip (List.range words.length)).foldl
          (fun r x => r.storeAt (tstKey (s.envCmd h c) g (16 * (plWord c.packet + x.2))) (bytesOf 16 x.1)) r) { mem := s.view } →
        run.clean →
        ∃ t, exec (.tileProgramLoad id) s = .next t ∧ t.mem = (s.commit run.settle.mem).mem
          ∧ t.ended id h (okResult (plLength c.packet) (bitIndices (plMask c.packet) 384).length 0))
    ∧ (s.runs id h c 0x0202 →
        ∃ t k, exec (.tileRun id) s = .next t ∧ t.mem = s.mem ∧ t.cmd? id = some (h, k) ∧ k.waiting = true ∧ k.done = none
          ∧ k.tiles = ((tilesOf c.packet).zip (List.range (tilesOf c.packet).length)).map fun x =>
              (x.1, startTile c.packet x.2 (s.drawnFree + 2048 * x.2)))
    ∧ (∀ g t, s.tileOf g = some (h, c, t) → (t.open0 || t.open1) = true → pl c.packet 414 1 = 0 →
        bits (c.tileReg h g bMXE 0) 0 8 ≠ 0 →
        exec (.groupOverLimit g) s
          = .next ((s.countTile g bMXE 3 1).occur (tileHalf g) (dieSourceNum (g / 48 % 4) 0x72) c.ctx))

/-! ## Movers and engines -/

/-- MoverCommandsComplete: a MOVE, GATHER_BLOCKS or SCATTER_BLOCKS whose copy nothing stops leaves in memory what the copy gives
and ends with OK and its counts; one that REFUSEs outside elements (OOB) must find none (R190 to R206). Under REFUSE a MOVE with
an element outside its destination ends with ERR_BOUNDS_WRITE naming DST and changes no byte of memory (R192). -/
def Obligations.MoverCommandsComplete : Prop :=
  (∀ (s : State) (id : Nat) (h : Half) (c : Cmd),
      (s.runs id h c 0x0301 → (moveRun s h c).1.clean →
          ((c.desc 1).refuse = false ∨ ∀ i < (c.desc 0).count, ∃ a, (c.desc 1).elem (fmtBytes (mvFmt c.packet)) i = .inside a) →
          ∃ t, exec (.move id) s = .next t ∧ t.mem = (s.commit (moveRun s h c).1.settle.mem).mem
            ∧ t.ended id h (okResult (moveRun s h c).2.fills 0 (moveRun s h c).2.drops))
      ∧ (s.runs id h c 0x0302 → isGather c.packet = true → (blockRun s h c).1.clean →
          ((c.desc 1).refuse = false ∨ blocksInside s h c) →
          ∃ t, exec (.gatherBlocks id) s = .next t ∧ t.mem = (s.commit (blockRun s h c).1.settle.mem).mem
            ∧ t.ended id h (okResult (blockRun s h c).2.t.fills (blockRun s h c).2.skipped (blockRun s h c).2.t.drops))
      ∧ (s.runs id h c 0x0303 → isGather c.packet = false → (blockRun s h c).1.clean →
          ((c.desc 1).refuse = false ∨ blocksInside s h c) →
          ∃ t, exec (.scatterBlocks id) s = .next t ∧ t.mem = (s.commit (blockRun s h c).1.settle.mem).mem
            ∧ t.ended id h (okResult (blockRun s h c).2.t.fills (blockRun s h c).2.repeats (blockRun s h c).2.t.drops)))
  ∧ (∀ (s : State) (id i a : Nat) (h : Half) (c : Cmd), s.runs id h c 0x0301 → (c.desc 1).refuse = true → i < (c.desc 0).count →
      (c.desc 1).elem (fmtBytes (mvFmt c.packet)) i = .outside a →
      ∃ t, exec (.move id) s = .next t ∧ t.ended id h (boundsResult (512 + 64)) ∧ t.mem = s.mem)

/-- VectorCompletes: a VECTOR whose elements nothing stops ends with OK and its counts of saturated elements, NaNs and drops; memory
outside the staging lines and the TRF of its tiles, which it leaves undefined, is what its elements give (R150 to R154). Under REFUSE one
with an element outside its destination ends with ERR_BOUNDS_WRITE and changes no byte of memory (R191). -/
def Obligations.VectorCompletes : Prop :=
  ∀ (s s1 : State) (id : Nat) (h : Half) (c : Cmd), s.runs id h c 0x0204 → s1 = { s with drawnFree := s.drawnFree + 2 } →
    (∀ t : WriteTally, t = (vectorRun s1 h c).2.far (vectorRun s1 h c).1 s.drawnFree → (vectorRun s1 h c).1.clean →
      (∀ t ∈ vectorDescs c, t.2.1 = 3 → t.2.2.refuse = true → t.2.2.anyOutside (fmtBytes (vuFmt c.packet t.1 3)) = false) →
      ∃ u, exec (.vector id) s = .next u ∧ u.ended id h (okResult t.saturated t.nans t.drops)
        ∧ ∀ a, ¬ staged (tilesOf c.packet) (vuStage c.packet) 2048 a →
            u.mem.byte a = (s.commit (vectorRun s1 h c).1.settle.mem).mem.byte a)
    ∧ ((∃ t ∈ vectorDescs c, t.2.1 = 3 ∧ t.2.2.refuse = true ∧ t.2.2.anyOutside (fmtBytes (vuFmt c.packet t.1 3)) = true) →
      ∃ u n, exec (.vector id) s = .next u ∧ u.ended id h (boundsResult n) ∧ u.mem = s.mem)

/-- MatmulCompletes: a MATMUL whose batches nothing stops ends with OK and its counts, and leaves what the batches give in
memory outside its staging lines and TRF (R131 to R134). With CAPTURE it waits for the fold of its partials instead, which then
reports that result (R215). The fold of a capturing MATMUL on the die of its first tile, which nothing stops, writes the Gram
elements and ends the command with the result it held; its partials are consumed (R215). -/
def Obligations.MatmulCompletes : Prop :=
  (∀ (s s1 : State) (id : Nat) (h : Half) (c : Cmd) (n : WriteTally), s.runs id h c 0x0203 → c.partials = none →
      s1 = { s with drawnFree := s.drawnFree + 2 } → n = (matmulRun s1 h c).2.1.far (matmulRun s1 h c).1 s.drawnFree →
      ((c.desc 2).refuse = false ∨ (c.desc 2).anyOutside (fmtBytes (mmFmtC c.packet)) = false) →
      (matmulRun s1 h c).1.clean →
      ∃ t r, exec (.matmul id) s = .next t ∧ r = okResult n.saturated n.nans n.drops
        ∧ (∀ a, ¬ staged (tilesOf c.packet) (mmStage c.packet) 10240 a →
            t.mem.byte a = (s.commit (matmulRun s1 h c).1.settle.mem).mem.byte a)
        ∧ (mmCapture c.packet = false → t.ended id h r)
        ∧ (mmCapture c.packet = true → t.awaits id h fun k =>
            k.done = none ∧ k.held = some r ∧ k.partials = some (matmulRun s1 h c).2.2))
  ∧ (∀ (s : State) (die : Nat) (h : Half) (c : Cmd) (ps : List Nat) (r : Run),
      s.allCmds.find? (fun c => c.2.partials.isSome && c.2.done.isNone && c.2.phase = .running && (tileSpan c.2.packet).1 / 48 = die)
        = some (h, c) → s.cmd? c.id = some (h, c) → c.partials = some ps →
      r = foldGram { s.envCmd h c with part := Half.ofPart (die / 4) } c.packet
        (chunks (max (cpBlocks c.packet * (triPairs (cpEdge c.packet)).length) 1) ps) { mem := s.view } →
      r.clean →
      ∃ t k, exec (.captureFold die) s = .next t ∧ t.cmd? c.id = some (h, k) ∧ k.done = some (c.held.getD (okResult 0 0 0))
        ∧ k.partials = none
        ∧ ∀ a, ¬ scratched { s.envCmd h c with part := Half.ofPart (die / 4) } (cpPart c.packet)
            (triBytes (cpEdge c.packet) * cpBlocks c.packet
              * (chunks (max (cpBlocks c.packet * (triPairs (cpEdge c.packet)).length) 1) ps).length) a →
            t.mem.byte a = (s.commit r.settle.mem).mem.byte a)

/-- CurvatureCommandsComplete: a GRAM_REDUCE, ROOT or ORTHO whose work nothing stops ends with OK and, for ROOT, its counts of blocks
installed, failed and left stale; ORTHO's status of convergence is DETAIL0 (R219, R223, R229). Memory outside their scratch areas, and
outside ORTHO's staging lines and TRF, is what their work gives. -/
def Obligations.CurvatureCommandsComplete : Prop :=
  ∀ (s : State) (id : Nat) (h : Half) (c : Cmd),
    (∀ r, s.runs id h c 0x0401 →
        r = gramElems { s.envCmd h c with part := dieHalf (pl c.packet 168 3) } c.packet 0 (grElems c.packet) { mem := s.view } →
        r.clean → ∃ t, exec (.gramReduce id) s = .next t ∧ t.mem = (s.commit r.settle.mem).mem ∧ t.ended id h (okResult 0 0 0))
    ∧ (s.runs id h c 0x0402 → (rootRun s h c).1.clean →
        ∃ t, exec (.root id) s = .next t
          ∧ t.ended id h (okResult (rootRun s h c).2.installed (rootRun s h c).2.failed (rootRun s h c).2.stale)
          ∧ ∀ a, ¬ scratched (s.envCmd h c) (rtScratch c.packet) (16 * rtN c.packet * rtN c.packet * (csesOf c.packet).length) a →
              t.mem.byte a = (s.commit (rootRun s h c).1.settle.mem).mem.byte a)
    ∧ (s.runs id h c 0x0403 → (orthoRun s h c).1.clean →
        ((c.desc 1).refuse = false ∨ (c.desc 1).anyOutside ((Fmt.ofCode (orFmtDst c.packet)).getD .fp32).bytes = false) →
        ∃ t, exec (.ortho id) s = .next t
          ∧ t.ended id h (okResult (orthoRun s h c).2.1
              ((orthoRun s h c).2.2.1.getD (Config.freeWord s.drawnFree).toNat) (orthoRun s h c).2.2.2)
          ∧ ∀ a, ¬ staged (tilesOf c.packet) (orStage c.packet) 10240 a →
              ¬ scratched { s.envCmd h c with part := dieHalf (orDie c.packet) } (pl c.packet 128 48)
                (12 * ((c.desc 0).ext.getD 1 1) * ((c.desc 0).ext.getD 0 1)
                  + 16 * min ((c.desc 0).ext.getD 1 1) ((c.desc 0).ext.getD 0 1) * min ((c.desc 0).ext.getD 1 1) ((c.desc 0).ext.getD 0 1)) a →
              t.mem.byte a = (s.commit (orthoRun s h c).1.settle.mem).mem.byte a)

/-- SolverRowsComplete: while some CSE of a batch has not passed the deadline, SOLVE_BATCH gives each of those one visit and applies
what the visits did (R248); SOLVE_DEADLINE completes the visits in progress on the CSEs that have passed it, at most 8 each, a free
value (log entry 46), and closes the batch on them, so that none of them keeps a problem in flight; a batch that was admitted or resumed
after its deadline completes none (R249). -/
def Obligations.SolverRowsComplete : Prop :=
  ∀ (s : State) (id : Nat) (h : Half) (c : Cmd) (b0 : BatchStep), s.runs id h c 0x0501 →
    b0 = { run := { mem := s.view }, cses := c.solver.getD (startCses c.packet), solved := c.solved } →
    ((∃ k ∈ b0.cses, s.pastDeadline c.packet k.die = false) →
        exec (.solveBatch id) s = .next (s.applyBatch h c (s.envCmd h c)
          (visitAll (s.envCmd h c) c.packet (fun d => !s.pastDeadline c.packet d) b0)))
    ∧ ((∃ k ∈ b0.cses, k.flight ≠ [] ∧ s.pastDeadline c.packet k.die = true) →
        ∃ b, b = deadlineAll (s.envCmd h c) c.packet (s.pastDeadline c.packet) (s.busyVisits c) b0
          ∧ exec (.solveDeadline id) s = .next (({ s with drawnFree := s.drawnFree + 8 } : State).applyBatch h c (s.envCmd h c) b)
          ∧ (b.run.stop = none → b.run.need = [] →
              ∀ k ∈ b.cses, s.pastDeadline c.packet k.die = true → k.flight = [] ∧ k.next = sbCount c.packet))
    ∧ (∀ d, s.busyVisits c d ≤ 8 ∧ (sbDeadline c.packet ≤ max c.admitted c.resumed → s.busyVisits c d = 0))

/-- UpdateCommandsComplete: an UPDATE and a RECONCILE whose work nothing stops leave in memory what their shares give, with the
shard digest or the list of exceptions where the packet asks for one, and end with OK and the sums of their counts (R251 to
R269). SHARD_DIGEST in mode COMPUTE writes its record and returns the digest in DETAIL0 and DETAIL1; with a comparison it
compares the digest it computes, or the one its record holds: a replica sends it to the primary, which waits until it holds all (R271 to
R274). -/
def Obligations.UpdateCommandsComplete : Prop :=
  (∀ (s : State) (id : Nat) (h : Half) (c : Cmd),
      (s.runs id h c 0x0601 → (updateRun s h c).clean →
          ∃ t, exec (.update id) s = .next t ∧ t.mem = (s.commit (updateRun s h c).settle.mem).mem
            ∧ t.ended id h (okResult (total ((updateShares s h c).2.1.map fun d => d.2.nonfinite))
                (total ((updateShares s h c).2.1.map fun d => d.2.clamps)) (total ((updateShares s h c).2.1.map fun d => d.2.saturated))))
      ∧ (s.runs id h c 0x0602 → (reconcileRun s h c).clean →
          ∃ t, exec (.reconcile id) s = .next t ∧ t.mem = (s.commit (reconcileRun s h c).settle.mem).mem
            ∧ t.ended id h (okResult (total ((reconcileShares s h c).2.map fun d => d.2.exceptions))
                (total ((reconcileShares s h c).2.map fun d => d.2.saturated))
                (total ((reconcileShares s h c).2.map fun d => d.2.repaired)))))
  ∧ (∀ (s : State) (id : Nat) (h : Half) (c : Cmd),
      (∀ (d : Nat × Run) (r : Run), s.runs id h c 0x0603 → sdMode c.packet = 0 →
          d = digestRange (s.envCmd h c) c.packet { mem := s.view } →
          r = d.2.store (s.envCmd h c) (sdRecord c.packet)
            (bytesOf 64 (digestRecord d.1 (sdBytes c.packet / 256) (sdTag c.packet) 0 0 false false 0)) →
          r.clean →
          ∃ t, exec (.shardDigestCompute id) s = .next t ∧ t.mem = (s.commit r.settle.mem).mem
            ∧ t.ended id h (okResult (d.1 % 2 ^ 32) (d.1 / 2 ^ 32) 0))
      ∧ (∀ (d : Nat × Run), s.runs id h c 0x0603 → sdMode c.packet = 1 → d = digestRange (s.envCmd h c) c.packet { mem := s.view } →
          d.2.clean →
          exec (.shardDigestComputeCompare id) s
            = .next ((s.countRun (attrKey c.packet) d.2.settle).compare h c d.1))
      ∧ (s.runs id h c 0x0603 → sdMode c.packet = 2 →
          exec (.shardDigestCompareRecord id) s = .next (s.compare h c (bits (c.recordNum 1) 0 64))))
  -- the comparison: a replica that reaches the primary, and the primary while digests are lacking, wait with their digest
  ∧ (∀ (s : State) (h : Half) (c : Cmd) (digest : Nat) (x : HalfState), s.cmd? c.id = some (h, c) → c.done = none →
      x = s.half (sdPlane c.packet) →
      ((c.primaryPos ≠ x.myPos (sdPlane c.packet) ∧ x.route (sdPlane c.packet) c.primaryPos % 8 ≠ 7)
        ∨ (c.primaryPos = x.myPos (sdPlane c.packet) ∧ ∃ j < c.group.length, j ≠ sdPrimary c.packet ∧
            find (c.group.getD j 0) ((find (sdTag c.packet) (x.ctx (c.ctx.getD 0)).places).getD []) = none)) →
      (s.compare h c digest).awaits c.id h (fun k => k.digest = some digest ∧ k.done = none) ∧ (s.compare h c digest).mem = s.mem)

/-! ## Embedding tables -/

/-- TablesComeAndGo: TABLE_DEFINE keeps the table with its shard map and fill row; TABLE_DELETE drops the table and its hot sets in
every half of the footprint and leaves every other table there (R285). Neither writes memory. -/
def Obligations.TablesComeAndGo : Prop :=
  ∀ (s : State) (id : Nat) (h : Half) (c : Cmd), s.runs id h c 0x0701 →
    (tdDelete c.packet = false →
        ∃ t d, exec (.tableDefine id) s = .next t ∧ t.ended id h (okResult 0 0 0) ∧ t.mem = s.mem
          ∧ t.table? (pkCtx c.packet) ((tdOf c.packet).fld 0 8) = some d
          ∧ d = { tdOf c.packet with
              shards := shardsOf (c.recordNum 0) (pl c.packet 160 17)
              fill := if pl c.packet 192 48 = 0 then List.replicate (tdOf c.packet).pitch 0
                else bytesOf (tdOf c.packet).pitch (c.recordNum 1) })
    ∧ (tdDelete c.packet = true →
        ∃ t, exec (.tableDelete id) s = .next t ∧ t.ended id h (okResult 0 0 0) ∧ t.mem = s.mem
          ∧ (∀ g, g ∈ footprintHalves (s.footprintOf (pkCtx c.packet)) →
              find (pl c.packet 0 8) ((t.half g).ctx (pkCtx c.packet)).tables = none
              ∧ (∀ r ∈ ((t.half g).ctx (pkCtx c.packet)).hotSets, r.table ≠ pl c.packet 0 8)
              ∧ ∀ n, n ≠ pl c.packet 0 8 →
                  find n ((t.half g).ctx (pkCtx c.packet)).tables = find n ((s.half g).ctx (pkCtx c.packet)).tables)
          ∧ ∀ g i, (g ∉ footprintHalves (s.footprintOf (pkCtx c.packet)) ∨ i ≠ pkCtx c.packet) → (t.half g).ctx i = (s.half g).ctx i)

/-- LookupCompletes: a LOOKUP all of whose rows are of this module and arrive, and whose output nothing stops, leaves in memory what
its stores give and ends with OK, its positions out of bounds, its fetches and its overflows (R286 to R294). A LOOKUP that needs rows
of other modules sends one request for each and waits (R290); one whose table is gone ends with the engine fault of R285. -/
def Obligations.LookupCompletes : Prop :=
  ∀ (s : State) (id : Nat) (h : Half) (c : Cmd), s.runs id h c 0x0702 →
    (s.table? (pkCtx c.packet) (pl c.packet 0 8) = none → exec (.lookup id) s = .next (s.finish h c (engineResult h srcTableMiss)))
    ∧ ∀ t a, s.table? (pkCtx c.packet) (pl c.packet 0 8) = some t → c.recordMissed 0 = false →
        a = lkArrays (s.envCmd h c) c.packet t { mem := s.view } → a.2.2.stop = none → a.2.2.need = [] →
        ((∀ f ∈ lookupPlan c a.1, ∀ e, ownerIn (t.mapAt c.admitted) f.row = some e →
            e.pos = s.ownPos (pkCtx c.packet) ∧ t.awaited e f.row = false) →
          ∀ u rows z, s.fetchAll c t (pl c.packet 0 8) 0 (lookupPlan c a.1) = (u, .ok rows) → u.cmd? id = some (h, c) →
            z = lookupStores s h c t a.1 a.2.1 rows { a.2.2 with mem := u.view } → z.1.clean →
            ∃ v, exec (.lookup id) s = .next v ∧ v.mem = (u.commit z.1.settle.mem).mem
              ∧ v.ended id h (okResult (a.1.filter (·.isNone)).length (lookupPlan c a.1).length z.2.1))
        ∧ (c.asked = false →
            (∃ f ∈ lookupPlan c a.1, ∃ e, ownerIn (t.mapAt c.admitted) f.row = some e ∧ e.pos ≠ s.ownPos (pkCtx c.packet)) →
            ∀ u, (s.setCmd h { c with
                asked := true, waiting := true
                fetchDies := ((lookupPlan c a.1).zip (List.range (lookupPlan c a.1).length)).map fun f => (f.2, f.1.die) }).askRows c t (pl c.packet 0 8) 0 (lookupPlan c a.1) = (u, true) →
              exec (.lookup id) s = .next u)

/-- HotSetCommandsComplete: HOTSET_LOAD with COUNT = 0 ends with OK_EMPTY and leaves its die no hot set of the table; with entries it
keeps the set and ends with OK and the numbers of rows loaded, skipped and left out (R305 to R307). It first waits for rows of a
migration to its die that have not arrived (R331). -/
def Obligations.HotSetCommandsComplete : Prop :=
  ∀ (s : State) (id : Nat) (h : Half) (c : Cmd) (t : TableDef) (l : List Nat × Run) (u : State),
    s.runs id h c 0x0703 → s.table? (pkCtx c.packet) (pl c.packet 0 8) = some t →
    l = ({ mem := s.view } : Run).load (s.envCmd h c) (hsList c.packet) (8 * hsCount c.packet) → l.2.stop = none → l.2.need = [] →
    s.hotAwaits (hsDie c.packet) (pkCtx c.packet) t (t.mapAt c.admitted) (hotEntries l.1) = false →
    u = ((if hsClear c.packet then (s.countRun (attrKey c.packet) l.2).dropHot (hsDie c.packet) (pl c.packet 0 8) fun _ => false
        else s.countRun (attrKey c.packet) l.2).modHalf (halfOfDie (hsDie c.packet)) fun x =>
          x.modCtx (pkCtx c.packet) fun k =>
            { k with hotSets := (k.hotSets.filter fun x => !(x.table = pl c.packet 0 8 && x.die = hsDie c.packet))
                ++ if hsCount c.packet = 0 then [] else
                  [{ table := pl c.packet 0 8, die := hsDie c.packet, list := hsList c.packet, count := hsCount c.packet
                     refresh := hsRefresh c.packet, due := 0 }] }) →
    (hsCount c.packet = 0 → ∃ v, exec (.hotsetLoad id) s = .next v ∧ v = u.finish h c emptyResult
        ∧ ∀ r ∈ ((v.half (halfOfDie (hsDie c.packet))).ctx (pkCtx c.packet)).hotSets,
            ¬ (r.table = pl c.packet 0 8 ∧ r.die = hsDie c.packet))
    ∧ (hsCount c.packet ≠ 0 → ∀ w n, u.loadHot (hsDie c.packet) (pkCtx c.packet) (pl c.packet 0 8) t (some (attrKey c.packet))
          (t.mapAt c.admitted) (hotEntries l.1) {} = (w, .ok n) →
        exec (.hotsetLoad id) s = .next (w.finish h c (okResult n.loaded n.skipped n.left)))

/-- GradientCommandsComplete: an EMB_GRAD whose arrays can be read delivers the partials of its chunks and ends with OK and its
positions out of bounds, partials and saturations; an EMB_FOLD whose entries all fold ends with OK and the sums over its Update Units
of rows, discarded partials, and gradients that were not finite or clamped, with DISCARD as without (R313 to R320). -/
def Obligations.GradientCommandsComplete : Prop :=
  ∀ (s : State) (id : Nat) (h : Half) (c : Cmd),
    (∀ t a g, s.runs id h c 0x0704 → s.table? (pkCtx c.packet) (pl c.packet 0 8) = some t →
        a = lkArrays (s.envCmd h c) c.packet t { mem := s.view } →
        g = loadGrads (s.envCmd h c) c.packet t (c.recordNum 0) 0 (lkBags c.packet) a.2.2 → g.2.stop = none → g.2.need = [] →
        ∀ u, ((gradWork s c t a.1 a.2.1 g.1).foldl (fun u x => u.countEme x.1 6 (gradSats x.2))
            ((s.countRun (attrKey c.packet) g.2).countOutside (c.recordNum 0) a.1 (lkShares c.packet))).deliver c
              (pl c.packet 0 8) ((gradWork s c t a.1 a.2.1 g.1).flatMap fun x => (x.2.flatMap (·.1)).map (x.1, ·)) = (u, none) →
          exec (.embGrad id) s = .next (u.finish h c (okResult (a.1.filter (·.isNone)).length
            ((gradWork s c t a.1 a.2.1 g.1).flatMap fun x => x.2.flatMap (·.1)).length
            (total ((gradWork s c t a.1 a.2.1 g.1).map fun x => gradSats x.2)))))
    ∧ (∀ t u l, s.runs id h c 0x0705 → s.table? (pkCtx c.packet) (efTable c.packet) = some t → foldWork s h c t = (u, none, l) →
        u.cmd? id = some (h, c) →
        ∃ v, v.mem = u.mem ∧ v.ended id h (okResult (foldSum (·.rows) l) (foldSum (·.discarded) l)
            (foldSum (·.t.nonfinite) l + foldSum (·.t.clamps) l))
          ∧ (efDiscard c.packet = false → exec (.embFold id) s = .next v)
          ∧ (efDiscard c.packet = true → exec (.embFoldDiscard id) s = .next v))

/-- MigrationsBeginAndMoveOn: ROW_MIGRATE adds its migration to the table and stays until the range moves; a module that is
neither source nor destination copies nothing, and one that is the source copies the rows and records at once (R328, R329). At
its stroke a migration switches; a source whose copy is done then forwards; and 100,000 strokes after the switch the range
retires at source and destination, where the epochs of its rows advance, and the command ends with OK, at the source with the rows
copied and the requests and records forwarded (R330). Every other migration of the table is independent of it. -/
def Obligations.MigrationsBeginAndMoveOn : Prop :=
  (∀ (s : State) (id : Nat) (h : Half) (c : Cmd) (t : TableDef) (e : Shard) (m : Move) (b : State),
      s.runs id h c 0x0706 → s.table? (pkCtx c.packet) (pl c.packet 0 8) = some t → ownerIn t.mapFull (rmFirst c.packet) = some e →
      m = { target := rmTo c.packet, source := e, count := rmCount c.packet, stroke := rmStroke c.packet, cmd := c.id } →
      b = (s.setTable (pkCtx c.packet) (pl c.packet 0 8) { t with moves := t.moves ++ [m] }).setCmd h
        { c with waiting := true, idle := 0, idleOther := 0 } →
      (e.pos ≠ s.ownPos (pkCtx c.packet) → (rmTo c.packet).pos ≠ s.ownPos (pkCtx c.packet) →
          exec (.rowMigrate id) s = .next b ∧ b.mem = s.mem ∧ b.awaits id h fun _ => True)
      ∧ (e.pos ≠ s.ownPos (pkCtx c.packet) → (rmTo c.packet).pos = s.ownPos (pkCtx c.packet) →
          exec (.rowMigrate id) s
            = .next (b.takeHeldCopies (halfOfDie (rmTo c.packet).die) (pkCtx c.packet) (pl c.packet 0 8)))
      ∧ (∀ u t1 v n t2 m1, e.pos = s.ownPos (pkCtx c.packet) →
          b.copyRows c (pl c.packet 0 8) { t with moves := t.moves ++ [m] } m (rmTo c.packet).first (rmCount c.packet) = (u, none) →
          u.table? (pkCtx c.packet) (pl c.packet 0 8) = some t1 → u.moveRecords c (pl c.packet 0 8) t1 m = (v, n, none) →
          v.table? (pkCtx c.packet) (pl c.packet 0 8) = some t2 → t2.moves.find? (·.cmd = c.id) = some m1 →
          exec (.rowMigrate id) s
            = .next (v.setTable (pkCtx c.packet) (pl c.packet 0 8) (t2.setMove { m1 with copied := rmCount c.packet, records := n }))))
  ∧ (∀ (s : State) (h : Half) (table ctx : Nat) (t : TableDef) (m : Move), (s.half h).resident = some ctx → s.table? ctx table = some t →
      m ∈ t.moves → (t.moves.map (·.cmd)).Nodup →
      (m.switched = false → m.stroke ≤ s.now h →
          ∃ u d, exec (.migrationSwitch h table) s = .next u ∧ u.table? ctx table = some d ∧ { m with switched := true } ∈ d.moves
            ∧ d.epochs = t.epochs)
      ∧ (m.phase = 0 → m.failed = false → m.switched = true → m.source.pos = s.ownPos ctx → m.copied = m.count →
          s.hasUnacked m.cmd = false →
          ∃ u d, exec (.migrationForwarding h table) s = .next u ∧ u.table? ctx table = some d ∧ { m with phase := 1 } ∈ d.moves
            ∧ d.epochs = t.epochs)
      ∧ (m.phase = 1 → m.failed = false → m.source.pos = s.ownPos ctx → m.stroke + 100000 ≤ s.now h →
          ∃ u d, exec (.migrationRetire h table) s = .next u ∧ u.table? ctx table = some d ∧ { m with phase := 2 } ∈ d.moves
            ∧ ∀ g c, s.cmd? m.cmd = some (g, c) → c.done = none → u.ended m.cmd g (okResult m.copied m.forwarded m.records))
      ∧ (m.phase = 0 → m.failed = false → m.switched = true → m.source.pos ≠ s.ownPos ctx → m.target.pos = s.ownPos ctx →
          m.arrived.length = m.count → m.stroke + 100000 ≤ s.now h →
          ∃ u d, exec (.migrationRetire h table) s = .next u ∧ u.table? ctx table = some d ∧ { m with phase := 2 } ∈ d.moves
            ∧ ∀ g c, s.cmd? m.cmd = some (g, c) → c.done = none → u.ended m.cmd g (okResult 0 0 0)))

/-- UpkeepCompletes: the counters of a sketch with 65,536 increments are halved (R301); a die whose way fails stops its
automatic cache, drops what that way held and raises the fault of its source (R304); an automatic move that ends advances the
epoch of its row (R332); a hot set that is due is read again from its list, and only a list that can be read replaces its rows
(R308). While patrol is on in the half, a block whose seal holds and that ECC did not correct is no finding and changes nothing;
a seal mismatch is counted with the lines that ECC could not correct, its place and kind stand in the stack's register of the last
finding, and the stack's source occurs (R338, R339, R342). -/
def Obligations.UpkeepCompletes : Prop :=
  (∀ (s : State) (die : Nat),
      (65536 ≤ (s.well die).increments →
          ∃ t, exec (.sketchAging die) s = .next t ∧ t.mem = s.mem
            ∧ t.well die = { s.well die with
                sketch := (s.well die).sketch.filterMap fun c => if c.2 / 2 = 0 then none else some (c.1, c.2 / 2)
                increments := (s.well die).increments - 65536 })
      ∧ (∀ way, (s.half (halfOfDie die)).boot ≠ .off → s.masked die way = false → way ≤ 15 →
          ∃ t : State, exec (.wellheadDegraded die way) s = .next (t.occur (halfOfDie die) (srcWayMasked die) none)
            ∧ (t.well die).lines = [] ∧ ∀ r ∈ (t.well die).hot, ∀ l ∈ r.lines, l / 2048 ≠ way)
      ∧ (∀ row k ctx t, (s.well die).moving.find? (fun k => k % 2 ^ 40 = row) = some k → (s.half (halfOfDie die)).resident = some ctx →
          s.table? ctx (k / 2 ^ 40) = some t →
          ∃ u, exec (.rowMoveComplete die row) s = .next u ∧ (u.well die).moving = (s.well die).moving.filter (· ≠ k)
            ∧ u.table? ctx (k / 2 ^ 40) = some { t with epochs := t.epochs.set row ((t.epochs.at row + 1) % 2 ^ 16) })
      ∧ (∀ ctx r t l u, (s.half (halfOfDie die)).resident = some ctx →
          ((s.half (halfOfDie die)).ctx ctx).hotSets.find? (fun r => r.die = die && r.isDue (s.half (halfOfDie die)).count) = some r →
          s.table? ctx r.table = some t →
          l = ({ mem := s.view } : Run).load { s.envOf (halfOfDie die) ctx with fetched := r.fetched } r.list (8 * r.count) →
          u = s.modHot ctx r.table die (fun y =>
            { y with reload := false, fetched := [], due := y.next (s.half (halfOfDie die)).count }) →
          (l.2.stop ≠ none → exec (.hotsetRefresh die) s = .next (u.countAccess ctx none l.2))
          ∧ (l.2.stop = none → l.2.need = [] →
              s.hotAwaits die ctx t (t.mapAt (s.half (halfOfDie die)).count) (hotEntries l.1) = false →
              exec (.hotsetRefresh die) s
                = .next ((((u.countAccess ctx none l.2).dropHot die r.table fun row => (hotEntries l.1).contains (row : Int)).loadHot
                    die ctx r.table t none (t.mapAt (s.half (halfOfDie die)).count) (hotEntries l.1) {}).1))))
  ∧ (∀ (s : State) (h : Half) (stack block : Nat), (s.half h).running = true → stack ≤ 11 → block * 256 < 2 ^ 36 →
      bits ((s.half h).cell h (regKey bHBM (stack / 3) (stack % 3) 0)) 0 8 ≠ 0 →
      (s.mem.intact (hbmAddr h.part (stack / 3) (stack % 3) (block * 256)) = true → exec (.patrol h stack block 0) s = .next s)
      ∧ (s.mem.intact (hbmAddr h.part (stack / 3) (stack % 3) (block * 256)) = false →
          ∃ t : State, exec (.patrol h stack block 0) s = .next (t.occur h (dieSourceNum (stack / 3) (0x6B + stack % 3)) none)
            ∧ t.mem = s.mem ∧ t.half h.other = s.half h.other
            ∧ t.half h = (s.half h).noteBlock h (stack / 3) (stack % 3) (block * 256)
                (s.mem.deadLines (hbmAddr h.part (stack / 3) (stack % 3) (block * 256))) true
            ∧ (s.mem.deadLines (hbmAddr h.part (stack / 3) (stack % 3) (block * 256)) = 0 →
                find (regKey bHBM (stack / 3) (stack % 3) 5) (t.half h).regs
                  = some (place (block * 256) 0 36 + place 3 36 2 + place 1 38 1))
            ∧ (s.mem.deadLines (hbmAddr h.part (stack / 3) (stack % 3) (block * 256)) ≠ 0 →
                find (regKey bHBM (stack / 3) (stack % 3) 5) (t.half h).regs
                  = some (place (block * 256) 0 36 + place 2 36 2 + place 1 38 1))))

/-! ## Weights and epochs -/

/-- WeightStreamsBegin: WEIGHT_STREAM in STORE and in VERIFY grants credit for its blocks and waits for them; a VERIFY all of whose
blocks have come compares them, and one that finds no difference ends with OK (R355, R364). -/
def Obligations.WeightStreamsBegin : Prop :=
  ∀ (s : State) (id : Nat) (h : Half) (c : Cmd), s.runs id h c 0x0801 →
    (wsVerify c.packet = false → c.stream = none →
        ∃ t, exec (.weightStreamStore id) s = .next t ∧ t.mem = s.mem
          ∧ t.awaits id h fun k => k.stream = some { place := s.streamPlace (wsHalf (wsUp c.packet)) })
    ∧ (wsVerify c.packet = true → c.stream = none →
        ∃ t, exec (.weightStreamVerify id) s = .next t ∧ t.mem = s.mem
          ∧ t.awaits id h fun k => k.stream = some { place := s.streamPlace (wsHalf (wsUp c.packet)) })
    ∧ (∀ run w, wsVerify c.packet = true → c.stream = some run → run.next = wsBlocks c.packet →
        w = c.keepAll (s.envStream h (pkCtx c.packet) c.packet (s.envCmd h c)) c.keeps (streamData c.packet run.wire true).1 c.keeps
          { mem := s.view } →
        w.1.puts = [] → w.1.stop = none → w.1.torn = [] → changedBlocks s.view w.1.mem = [] →
        exec (.weightStreamVerify id) s = .next (s.finish h w.2.1 (okResult c.keeps.length w.2.2 0)))

/-- EpochSwitchCompletes: EPOCH_SWITCH with each OP, in every half in which the context lives: CREATE adds a LOADED epoch and its
shadow window, MAKE_CURRENT leaves the named epoch the only current one, BIND gives the batch a reference on the current epoch,
RELEASE ends it, and DROP drops the epoch. Each ends with OK and leaves memory alone (R366 to R370). -/
def Obligations.EpochSwitchCompletes : Prop :=
  ∀ (s : State) (id : Nat) (h : Half) (c : Cmd), s.runs id h c 0x0802 →
    (esOp c.packet = 1 → ∃ t, exec (.epochSwitchCreate id) s = .next t ∧ t.ended id h (okResult 0 0 0) ∧ t.mem = s.mem
        ∧ ∀ g, ((s.half g).ctx (pkCtx c.packet)).alive = true →
            ((t.half g).ctx (pkCtx c.packet)).epochs = ((s.half g).ctx (pkCtx c.packet)).epochs
              ++ [{ num := esEpoch c.packet, st := .loaded, entries := esTable c.packet (c.recordNum 0) }]
            ∧ ((t.half g).ctx (pkCtx c.packet)).window = some (esBase c.packet / frameBytes, esPages c.packet)
            ∧ ((t.half g).ctx (pkCtx c.packet)).lastEpoch = esEpoch c.packet)
    ∧ (esOp c.packet = 2 → ∃ t, exec (.epochSwitchMakeCurrent id) s = .next t ∧ t.ended id h (okResult 0 0 0) ∧ t.mem = s.mem
        ∧ ∀ g, ((s.half g).ctx (pkCtx c.packet)).alive = true →
            (∀ e ∈ ((t.half g).ctx (pkCtx c.packet)).epochs, e.st = .current ↔ e.num = esEpoch c.packet)
            ∧ ((∃ e ∈ ((s.half g).ctx (pkCtx c.packet)).epochs, e.num = esEpoch c.packet) →
                ((t.half g).ctx (pkCtx c.packet)).currentEpoch = some (esEpoch c.packet)))
    ∧ (esOp c.packet = 3 → ∃ t, exec (.epochSwitchBind id) s = .next t ∧ t.mem = s.mem
        ∧ t.ended id h (okResult (((s.ctxAny h (pkCtx c.packet)).currentEpoch).getD 0) 0 0)
        ∧ ∀ g, ((s.half g).ctx (pkCtx c.packet)).alive = true →
            ((t.half g).ctx (pkCtx c.packet)).binds = ((s.half g).ctx (pkCtx c.packet)).binds
              ++ [(esBatch c.packet, ((s.ctxAny h (pkCtx c.packet)).currentEpoch).getD 0)])
    ∧ (esOp c.packet = 4 → ∃ t, exec (.epochSwitchRelease id) s = .next t ∧ t.ended id h (okResult 0 0 0) ∧ t.mem = s.mem
        ∧ ∀ g, ((s.half g).ctx (pkCtx c.packet)).alive = true →
            (∀ b ∈ ((t.half g).ctx (pkCtx c.packet)).binds, b.1 ≠ esBatch c.packet)
            ∧ (∀ e ∈ ((t.half g).ctx (pkCtx c.packet)).epochs, e ∈ ((s.half g).ctx (pkCtx c.packet)).epochs)
            ∧ ∀ e ∈ ((s.half g).ctx (pkCtx c.packet)).epochs, e.st ≠ .retiring → e ∈ ((t.half g).ctx (pkCtx c.packet)).epochs)
    ∧ (esOp c.packet = 5 → ∃ t, exec (.epochSwitchDrop id) s = .next t ∧ t.ended id h (okResult 0 0 0) ∧ t.mem = s.mem
        ∧ ∀ g, ((s.half g).ctx (pkCtx c.packet)).alive = true →
            ((t.half g).ctx (pkCtx c.packet)).epochs = ((s.half g).ctx (pkCtx c.packet)).epochs.filter (·.num ≠ esEpoch c.packet))

/-! ## Collectives and checkpoints -/

/-- CollectivesBegin: REDUCE_SCATTER, ALL_GATHER and ALL_REDUCE that are in time read the contributions of their halves, become
members, each with its contribution and waiting for the others, and go on as far as they can; one that comes late does what is left to a
late member (R396 to R399). At the deadline of
a collective that its local member has not joined, the half becomes its proxy, counts it and does everything but contribute
(R399). -/
def Obligations.CollectivesBegin : Prop :=
  (∀ (s : State) (id op : Nat) (i : Instr) (h : Half) (c : Cmd),
      (i, op) ∈ [(Instr.reduceScatter id, 0x0901), (.allGather id, 0x0902), (.allReduce id, 0x0903)] → s.runs id h c op →
      (lateCmd c = true → exec i s = .next (runLate s h c))
      ∧ (lateCmd c = false → (collReads s h c op).2.settle.stop = none → (collReads s h c op).2.settle.need = [] →
          (∀ g ∈ cuHalves (pl c.packet 0 512), s.memberCut g (unitFor c.packet g) = false) →
          exec i s = .next (((collReads s h c op).1.foldl (collBegin c op)
            (s.applyPart h c (s.envCmd h c) (collReads s h c op).2 { c with waiting := true, idle := 0, idleOther := 0 })).runColl
              (pkCtx c.packet) (cuTag (pl c.packet 0 512))))
      ∧ (lateCmd c = false → (collReads s h c op).2.clean →
          (∀ g ∈ cuHalves (pl c.packet 0 512), s.memberCut g (unitFor c.packet g) = false
            ∧ ((s.half g).ctx (pkCtx c.packet)).coll? (cuTag (unitFor c.packet g)) = none) →
          ∃ u : State, exec i s = .next (u.runColl (pkCtx c.packet) (cuTag (pl c.packet 0 512)))
            ∧ u.awaits id h (fun k => k.done = none)
            ∧ ∀ y ∈ (collReads s h c op).1, ∃ k, ((u.half y.1).ctx (pkCtx c.packet)).coll? (cuTag (unitFor c.packet y.1)) = some k
              ∧ k.cmd = some c.id ∧ k.opcode = op ∧ k.unit0 = unitFor c.packet y.1 ∧ k.proxy = false
              ∧ (op ≠ 0x0902 → k.own = y.2.1.map some)))
  ∧ (∀ (s : State) (h : Half) (tag ctx : Nat) (k : Coll), (s.half h).resident = some ctx → ((s.half h).ctx ctx).coll? tag = some k →
      k.cmd = none → k.proxy = false → k.isOver = false → cuDeadline k.unit0 ≠ 0 → cuDeadline k.unit0 ≤ (s.half h).count →
      (s.half h).resetting = false → s.collAdmitted h ctx tag = false →
      exec (.collectiveDeadline h tag) s
        = .next ((((s.endEvicted h ctx).modHalf h fun y => (y.modCtx ctx Ctx.evict).count32 h (hubKey bCLE 1) 32 1).startColl h ctx
            { k with
              proxy := true, ringX := ((s.half h).ringPhases h k.unit0).1, ringY := ((s.half h).ringPhases h k.unit0).2
              own := List.replicate (cuCount k.unit0) none }).runColl ctx tag))

/-- CheckpointSlotsComplete: CKPT_SLOT defines a FREE slot in the half of its ring, holds, releases and deletes the slot where
it is, and lets the mark of a stage fall to what is held (R409, R410). None of them writes memory. PRESERVE records the range
for the context in every half that holds frames of it; UNPRESERVE clears the marks of the range's frames in each half, and makes
those that the context does not name scrub-pending (R416). -/
def Obligations.CheckpointSlotsComplete : Prop :=
  (∀ (s : State) (id : Nat) (h : Half) (c : Cmd), s.runs id h c 0x0A01 →
      (ckOp c.packet = 1 → ∃ t, exec (.ckptSlotDefine id) s = .next t ∧ t.ended id h (okResult 0 0 0) ∧ t.mem = s.mem
          ∧ ((t.half h).ctx (pkCtx c.packet)).slots = ((s.half h).ctx (pkCtx c.packet)).slots
              ++ [{ num := ckSlot c.packet, stage := ckStage c.packet, cxa := ckCxa c.packet, bytes := ckBytes c.packet }])
      ∧ (∀ g slot, s.slotHome (pkCtx c.packet) (ckSlot c.packet) = some g →
          ((s.half g).ctx (pkCtx c.packet)).slot? (ckSlot c.packet) = some slot →
          (ckOp c.packet = 2 → ∃ t, exec (.ckptSlotHold id) s = .next t ∧ t.ended id h (okResult 0 0 0) ∧ t.mem = s.mem
              ∧ ((t.half g).ctx (pkCtx c.packet)).slots = ((s.half g).ctx (pkCtx c.packet)).slots.map fun y =>
                  if y.num = ckSlot c.packet then { y with held := true } else y)
          ∧ (ckOp c.packet = 3 → ∃ t, exec (.ckptSlotRelease id) s = .next t ∧ t.ended id h (okResult 0 0 0) ∧ t.mem = s.mem
              ∧ ((t.half g).ctx (pkCtx c.packet)).slots = ((s.half g).ctx (pkCtx c.packet)).slots.map fun y =>
                  if y.num = ckSlot c.packet then { y with held := false } else y)
          ∧ (ckOp c.packet = 4 → ∃ t, exec (.ckptSlotDelete id) s = .next t ∧ t.ended id h (okResult 0 0 0) ∧ t.mem = s.mem
              ∧ ((t.half g).ctx (pkCtx c.packet)).slots
                  = ((s.half g).ctx (pkCtx c.packet)).slots.filter (·.num ≠ ckSlot c.packet)))
      ∧ (ckOp c.packet = 7 → ∃ t, exec (.hwmReset id) s = .next t ∧ t.ended id h (okResult 0 0 0) ∧ t.mem = s.mem
          ∧ ((t.half h).ctx (pkCtx c.packet)).hwm.at (ckStage c.packet)
              = ((s.half h).ctx (pkCtx c.packet)).heldMib (ckStage c.packet)))
  ∧ (∀ (s : State) (id : Nat) (h : Half) (c : Cmd), s.runs id h c 0x0A01 →
      (ckOp c.packet = 5 → ∃ t, exec (.preserve id) s = .next t ∧ t.ended id h (okResult 0 0 0) ∧ t.mem = s.mem
          ∧ ∀ g r, r = ({ ctx := pkCtx c.packet, cxa := ckCxa c.packet, bytes := ckBytes c.packet
                          frames := rangeFrames (s.ctxAny h (pkCtx c.packet)).map g (ckCxa c.packet) (ckBytes c.packet) } : Preserve) →
              (r.frames ≠ [] → r ∈ (t.half g).preserved) ∧ (r.frames = [] → (t.half g).preserved = (s.half g).preserved))
      ∧ (ckOp c.packet = 6 → ∃ t, exec (.unpreserve id) s = .next t ∧ t.ended id h (okResult 0 0 0) ∧ t.mem = s.mem
          ∧ ∀ g fs, fs = (s.half g).unmarked (s.ctxAny h (pkCtx c.packet)).map g (pkCtx c.packet) (ckCxa c.packet) (ckBytes c.packet) →
              (t.half g).preserved = ((s.half g).unmark (pkCtx c.packet) fs).preserved
              ∧ ∀ f ∈ fs, f ∉ (s.ctxAny h (pkCtx c.packet)).frames → ∃ o, (f, o) ∈ (t.half g).scrub))

/-- NeighbourCheckpointsComplete: NEIGHBOUR_CKPT in WRITE opens the manifest, sends its blocks, and once all have been acknowledged
closes the manifest and ends with the digest (R419); in VERIFY it reads manifest and blocks back and ends so where they agree
with the source (R420); NEIGHBOUR_RESTORE with blocks that have the manifest's digest, of another module or its own, writes them and ends
with the digest (R421, R424).
Each asks for its next stage only when nothing of it is unacknowledged. -/
def Obligations.NeighbourCheckpointsComplete : Prop :=
  ∀ (s : State) (id : Nat) (h : Half) (c : Cmd), s.hasUnacked c.id = false →
    (∀ pos, s.runs id h c 0x0A02 → ncVerify c.packet = false →
        pos = (s.half (ncPlane c.packet)).neighbour (ncPlane c.packet) 1 →
        (c.cursor = 0 → exec (.neighbourCkptWrite id) s = .next { s.ckptStage h c (ncPlane c.packet)
            [ckptWrite c pos (ncManifest c.packet)
              (bytesOf 64 (s.openManifest c.packet ((s.half (ncPlane c.packet)).myPos (ncPlane c.packet))))] with
            drawnFree := s.drawnFree + 4 })
        ∧ (∀ u, 2 ≤ c.cursor → s.sendAll (ncPlane c.packet) (some c.id)
              [ckptWrite c pos (ncManifest c.packet) (bytesOf 64 (manifest true (ncTag c.packet) (ncBytes c.packet)
                ((s.half (ncPlane c.packet)).myPos (ncPlane c.packet)) (c.digest.getD 0) (s.now h)))] = (u, true) →
            exec (.neighbourCkptWrite id) s
              = .next (u.finish h c (okResult (c.digest.getD 0 % 2 ^ 32) (c.digest.getD 0 / 2 ^ 32) 0))))
    ∧ (∀ x, s.runs id h c 0x0A02 → ncVerify c.packet = true → 2 ≤ c.cursor →
        x = readBlocks (s.envCmd h c) (ncSrc c.packet) (ncBytes c.packet / 256) { mem := s.view } → x.2.stop = none → x.2.need = [] →
        (∀ b ∈ x.1.zipIdx, b.1 = c.fetchedBytes (ncDst c.packet + 256 * b.2) 256) →
        exec (.neighbourCkptVerify id) s = .next ((s.countRun (attrKey c.packet) x.2).finish h c
          (okResult (blocksDigest x.1 % 2 ^ 32) (blocksDigest x.1 / 2 ^ 32) 0)))
    ∧ (∀ bs r, s.runs id h c 0x0A03 → nrHolder c.packet ≠ (s.half (nrPlane c.packet)).myPos (nrPlane c.packet) → 2 ≤ c.cursor →
        bs = (List.range (nrBytes c.packet / 256)).map (fun i => c.fetchedBytes (nrSrc c.packet + 256 * i) 256) →
        r = ({ mem := s.view } : Run).store (s.envCmd h { c with fetched := [] }) (nrDst c.packet) bs.flatten → r.clean →
        blocksDigest bs = bits (numOf (c.fetchedBytes (nrManifest c.packet) 64)) 128 64 →
        ∃ t, exec (.neighbourRestore id) s = .next t ∧ t.mem = (s.commit r.settle.mem).mem
          ∧ t.ended id h (okResult (blocksDigest bs % 2 ^ 32) (blocksDigest bs / 2 ^ 32) 0))
    ∧ (∀ m x r, s.runs id h c 0x0A03 → nrHolder c.packet = (s.half (nrPlane c.packet)).myPos (nrPlane c.packet) →
        m = ({ mem := s.view } : Run).loadNum (s.envCmd h c) (nrManifest c.packet) 64 → m.2.stop = none → m.2.need = [] →
        manifestOk m.1 (nrTag c.packet) (nrBytes c.packet) = true →
        x = readBlocks (s.envCmd h c) (nrSrc c.packet) (nrBytes c.packet / 256) m.2 →
        r = x.2.store (s.envCmd h c) (nrDst c.packet) x.1.flatten → r.clean → blocksDigest x.1 = bits m.1 128 64 →
        ∃ t, exec (.neighbourRestore id) s = .next t ∧ t.mem = (s.commit r.settle.mem).mem
          ∧ t.ended id h (okResult (blocksDigest x.1 % 2 ^ 32) (blocksDigest x.1 / 2 ^ 32) 0))

/-! ## Frames and links -/

/-- FramesAreTaken: what a half does with a frame that one of its torus ports hears and that is for this module, row by row: a
duplicate is counted and nothing else; a frame of another version or an ended generation is dropped; one that no resident context
can take is refused with NACK; and any other is given to its row, whose answer is acknowledged, refused or held (R377, R379, R380). A
READ_REQ whose block is whole is answered with the block and its seal, a WRITE puts its bytes at its place, and an ACK acknowledges every
frame to its sender up to its number that ACK answers (R344, R347, R379, R380). -/
def Obligations.FramesAreTaken : Prop :=
  (∀ (s : State) (h : Half) (port type : Nat) (f g : Frame) (i : Instr) (act : State → Frame → Answer) (b : State),
    (i, type, act, true) ∈ frameRows s h port f → s.hearsFrame h port f type → g = (s.half h).ingress h port f →
    b = (s.modHalf h fun y => y.countIn port f) →
    ((s.half h).arrival h g = .take → exec i s = .next (State.settleAnswer h port g (act b g)))
    ∧ ((s.half h).arrival h g = .duplicate → exec i s = .next b)
    ∧ ((s.half h).arrival h g = .dropped → exec i s = .next (b.dropNoted h port g))
    ∧ (∀ r, (s.half h).arrival h g = .refused r → exec i s = .next ((b.noteFrame h g false).nackFrame h port g r)))
  ∧ (∀ (s b : State) (h : Half) (port : Nat) (f g : Frame), g = (s.half h).ingress h port f → (s.half h).arrival h g = .take →
      b = (s.modHalf h fun y => y.countIn port f) →
      (∀ dpa w, s.hearsFrame h port f 0x0 → b.ownerAddr h g = .here dpa w → s.view.intact dpa = true →
          exec (.readReq h port f) s = .next (State.settleAnswer h port g (.done ((b.countHbm dpa 0 256).send h none
            { type := 0x1, dst := f.src, ctx := f.ctx, gen := f.gen, addr := f.addr, arg := f.seq
              data := s.view.bytes (dpa / 256 * 256) 256, crc := s.view.sealOf (dpa / 256) }).1)))
      ∧ (∀ dpa r, s.hearsFrame h port f 0x2 → b.ownerAddr h g = .here dpa true → b.ckptFrame g dpa = true → Frame.intact g = true →
          bitSet f.arg 9 = false → r = ({ mem := s.view } : Run).storeAt dpa (f.data.take (bits f.arg 0 9)) → r.settle.stop = none →
          ∃ t, exec (.write h port f) s = .next t ∧ t.mem = (s.commit r.settle.mem).mem)
      ∧ (s.hearsFrame h port f 0x3 → ∃ t, exec (.ack h port f) s = .next t ∧ t.mem = s.mem
          ∧ ∀ u ∈ (t.half h).unacked, ¬ (u.frame.dst = f.src ∧ u.byReply = false ∧ seqAfter u.frame.seq f.arg < seqHalf)))

/-! ## Stroke time -/

/-- StrokeTimeAdvances: a STROKE_INCREMENT of a half that has power lets a stroke pass there: it adds one to its counter modulo 2⁶⁴, and
leaves the other half's counter alone, before the occurrences of the new stroke (R42). A K-half copy that is locked across the Siphon
passes its stroke with the Q copy's where it would fall behind, and waits where it would run ahead (R32; DEDUCED, log entry 79). A word of
the stroke exchange goes out 1,024 strokes after the one before it and is kept with its send time; one that arrives is kept with its
arrival, and a copy that is not a master follows the offset it takes from its parent's (R46, R47). The first edge of
STROKE_REF at a master with REF_EN is recorded and does not set the count (R45). A write of STU_EPOCH_OFFSET puts the value into the
register (R43, R44). -/
def Obligations.StrokeTimeAdvances : Prop :=
  ∀ (s : State) (h : Half),
    (∃ t : State, s.passStroke h = ((t.strokeFaults h).checkParent h).ackOld h
        ∧ (t.half h).count = ((s.half h).count + 1) % 2 ^ 64 ∧ (t.half h.other).count = (s.half h.other).count)
    ∧ ((s.half h).boot ≠ .off → s.lockstep = false → exec (.strokeIncrement h) s = .next (s.passStroke h))
    ∧ (s.lockstep = true → s.q.boot ≠ .off →
        exec (.strokeIncrement .q) s = .next ((if s.k.count < s.q.count then s.passStroke .k else s).passStroke .q)
        ∧ exec (.strokeIncrement .k) s = .next (if s.q.count < s.k.count then s else s.passStroke .k))
    ∧ (∀ port sub, s.timeLinkUp h port = true →
        (((s.half h).timePort port).sentAt = none ∨
          ∃ n, ((s.half h).timePort port).sentAt = some n ∧ n + 1024 ≤ (s.half h).count) →
        exec (.strokeExchangeSend h port sub) s = .next (s.modHalf h fun y =>
          (y.setTimePort port { (s.half h).timePort port with
            sentWord := s.exchangeWord h port sub, sentAt := some (s.half h).count }).crossing .time (if port = 8 then 32 else 0)))
    ∧ (∀ port arrival word t, s.timeLinkUp h port = true → (h = .k ∨ (s.half h).stuState h ≠ 4) →
        t = (s.modHalf h fun y => y.setTimePort port { y.timePort port with
          lastWord := word % 2 ^ 256, lastArrival := (16 * (s.half h).count + arrival % 16) % 2 ^ 64 }) →
        (xwOffset ((16 * (s.half h).count + arrival % 16) % 2 ^ 64) word = none →
            exec (.strokeExchangeReceive h port arrival word) s = .next (t.refreshParent h))
        ∧ (∀ o, xwOffset ((16 * (s.half h).count + arrival % 16) % 2 ^ 64) word = some o →
            ((t.refreshParent h).half h).parentLink h = some port → ((t.refreshParent h).half h).stuState h ≠ 4 →
            exec (.strokeExchangeReceive h port arrival word) s = .next ((t.refreshParent h).followParent h port arrival o)))
    ∧ (∀ sub, s.q.boot ≠ .off → s.q.resetting = false → s.q.stuState .q = 4 → bitSet (s.q.stuCfg .q) 1 = true → s.q.refBase = none →
        ∃ t, exec (.strokeRefEdge sub) s = .next t ∧ t.q.refBase = some (16 * s.q.count + sub % 16) ∧ t.q.count = s.q.count
          ∧ t.k = s.k ∧ t.mem = s.mem)
    ∧ (∀ v, (s.half h).boot ≠ .off → (s.half h).resetting = false → ∃ t, exec (.stuEpochOffsetWrite h v) s = .next t
        ∧ (t.half h).cell h (hubKey bSTU 1) = v % 2 ^ 64 ∧ (t.half h).count = (s.half h).count
        ∧ t.half h.other = s.half h.other ∧ t.mem = s.mem)

/-! ## The Cistern and the power domains -/

/-- WindowStartDerates (R56): a WINDOW_START, once at the first stroke of each window of the half, reads the hottest junction and sets the
derating from it, before it looks at held commands: those with work in the half go first, in the order in which they were first held, as
soon as the half may admit (R54, R63). At any other stroke nothing starts. -/
def Obligations.WindowStartDerates : Prop :=
  ∀ (s : State) (h : Half) (hottest : Nat), (s.half h).boot ≠ .off → hottest < 256 →
    ((s.half h).count % 100000 ≠ 0 → exec (.windowStart h hottest) s = .next s)
    ∧ ((s.half h).count % 100000 = 0 → (s.half h).windowBegun ≠ some ((s.half h).count / 100000) →
      ∃ t : State, exec (.windowStart h hottest) s
          = .next (if (t.half h).mayAdmit then (t.admitHeld h (t.half h).windowFirst).1 else t)
        ∧ (t.half h).windowBegun = some ((s.half h).count / 100000) ∧ (t.half h).windowFirst = t.heldHeads h
        ∧ (t.half h).tjMax = hottest
        ∧ (hottest ≤ 95 → (t.half h).derate = 100)
        ∧ (95 < hottest → hottest ≤ 135 → (t.half h).derate + 5 * (hottest - 95) / 2 = 100)
        ∧ (t.half h).level = (s.half h).level ∧ (t.half h).debt = (s.half h).debt ∧ (t.half h).drawn = 0 ∧ t.mem = s.mem)

/-- WindowEndUpdatesTheLedger: at a WINDOW_END, once at the last stroke of each window (R54), the reservoir takes what the
window did not draw, up to its depth, and a draw beyond the cap is taken from it first and then owed (R58). The ledger is exact, in
femtojoules (DESIGN CHOICE, log entry 18): `cap` is the derated cap of the half in that unit. -/
def Obligations.WindowEndUpdatesTheLedger : Prop :=
  ∀ (s : State) (h : Half) (cap : Nat), 100 * cap = (s.half h).capMj h * 10 ^ 12 * (s.half h).derate → (s.half h).boot ≠ .off →
    (s.half h).count % 100000 = 99999 → (s.half h).windowEnded ≠ some ((s.half h).count / 100000) →
    ∃ t, exec (.windowEnd h) s = .next t ∧ t.half h.other = s.half h.other ∧ t.mem = s.mem
      ∧ ((s.half h).drawn ≤ cap →
          (t.half h).level = min ((s.half h).level + (cap - (s.half h).drawn)) ((s.half h).depthMj h * 10 ^ 12) ∧ (t.half h).debt = 0)
      ∧ (cap < (s.half h).drawn →
          (t.half h).debt = (s.half h).drawn - cap - (s.half h).level ∧ (t.half h).level = (s.half h).level - ((s.half h).drawn - cap))

/-- EnergyAndDomainsComplete: a CSC_SAMPLE, once every 1,000 strokes, integrates the product of voltage and current over them (R54); an
idle domain of a READY half is gated once it has been idle for IDLE_STROKES and nothing refers to it, and a woken one is neither waking nor idle
(R68); TRACE_GAP records what was dropped once the queue has space (R464). -/
def Obligations.EnergyAndDomainsComplete : Prop :=
  ∀ (s : State) (h : Half),
    (∀ mv ma meters, (s.half h).boot ≠ .off → (s.half h).sampleSlot ≠ some ((s.half h).count / 1000) →
        ∃ t, exec (.cscSample h mv ma meters) s = .next t
        ∧ (t.half h).drawn = (s.half h).drawn + mv * ma * 10 ^ 4 ∧ (t.half h).millivolts = mv ∧ (t.half h).milliamps = ma
        ∧ (t.half h.other).drawn = (s.half h.other).drawn ∧ (t.half h).regs = (s.half h).regs ∧ t.mem = s.mem)
    ∧ (∀ d, (s.half h).boot = .ready → idleGated d = true → (s.half h).idleStrokes h ≠ 0 →
        (s.half h).idleStrokes h ≤ (s.half h).domainIdle.at d → s.domainUsed h d = false →
        d ∉ (s.half h).gated → d ∉ (s.half h).waking →
        ∃ t, exec (.idleGating h d) s = .next t ∧ (t.half h).gated = (s.half h).gated ++ [d] ∧ t.half h.other = s.half h.other
          ∧ t.mem = s.mem ∧ (t.half h).regs = (s.half h).regs)
    ∧ (∀ d, ∃ t, exec (.domainWake h d) s = .next t ∧ d ∉ (t.half h).waking ∧ (t.half h).domainIdle.at d = 0
        ∧ (∀ e, e ≠ d → (e ∈ (t.half h).waking ↔ e ∈ (s.half h).waking)) ∧ t.half h.other = s.half h.other ∧ t.mem = s.mem)
    ∧ ((s.half h).trace.gap ≠ 0 → (s.half h).trace.queue.length < 4096 →
        ∃ t, exec (.traceGap h) s = .next t ∧ t.half h
          = ({ s.half h with trace := { (s.half h).trace with gap := 0 } } : HalfState).traceEvent 8 0 0 (s.half h).trace.gap
          ∧ t.half h.other = s.half h.other ∧ t.mem = s.mem)

/-! ## The command pipeline -/

/-- HeadAndExamination: a packet whole and undamaged at the head of a served ring, which its checks pass, is marked checked, and one that
they refuse leaves the ring with its reply, as does one with a damaged block, with ERR_INTEGRITY (R352; the slots that leave then are
DESIGN CHOICE, log entry 105); the examination of a ready head that nothing refuses is kept with the ring, which holds it when there
is no energy, and one that is refused leaves with its reply (R85, R518, R63). -/
def Obligations.HeadAndExamination : Prop :=
  ∀ (s : State) (h : Half) (r : RingRef) (ring : Ring) (p : Nat), (s.half h).ring? r = some ring → s.headPacket h ring = some p →
    (ring.checked = false → s.serves h ring = true → (s.half h).fetches ring = true → 1 + pkUnits p ≤ ring.slots →
        pkUnits (numOf (s.readSlots h ring ring.cmdHead 1)) = pkUnits p →
        (s.slotDamage h ring ring.cmdHead (1 + pkUnits p) = none →
          (headRefusal s h r p = none →
              exec (.headCheck h r) s = .next (s.modHalf h fun x => x.setRing r { ring with checked := true }))
          ∧ (∀ res, headRefusal s h r p = some res → exec (.headCheck h r) s = .next (s.refuse h ring p (1 + pkUnits p) res)))
        ∧ (∀ a, s.slotDamage h ring ring.cmdHead (1 + pkUnits p) = some a →
            exec (.headCheck h r) s = .next ((s.refuse h ring (numOf (s.readSlots h ring ring.cmdHead 1)) (1 + pkUnits p)
              { sealResult a with signals := false }).sealFault a ring.ctx)))
    ∧ (∀ spec, opSpec (pkOpcode p) = some spec → ring.exam = none → s.headReady h ring spec p = true →
        (∀ e t, examine s h r spec p = .ok e → t = (s.modHalf h fun x => x.setRing r { ring with exam := some e }) →
            (s.admissible h ring spec p e = true → exec (.examination h r) s = .next t)
            ∧ (s.admissible h ring spec p e = false →
                exec (.examination h r) s = .next (t.hold h ring p (s.estimateIn h h p e + s.estimateIn h h.other p e))))
        ∧ (∀ res, examine s h r spec p = .error res → exec (.examination h r) s = .next (s.refuse h ring p (1 + pkUnits p) res)))

/-- AdmissionAndCompletion: ADMISSION takes the first held head that its window start put first and that passes (R63), and with none left
the first ring in order whose examined head is ready and has energy (R86); a command of two halves is copied across the Siphon (R31); a
command that has its result, and none of whose frames is unacknowledged, first sends the signals that cross the Siphon, and once they
have been applied signals its other gates and writes its reply (R73, R91); and what was signalled across the Siphon is added to the gates
of the half (R92). -/
def Obligations.AdmissionAndCompletion : Prop :=
  ∀ (s : State) (h : Half),
    (∀ r rest spec p e, (s.half h).mayAdmit = true → (s.half h).windowFirst = [] → (s.half h).arbitration = r :: rest →
        s.candidate h r = some (spec, p, e) →
        exec (.admission h) s = .next (s.admitCommand h r spec p e))
    ∧ (∀ g ref rest r spec p e, (s.half h).mayAdmit = true → (s.half g).mayAdmit = true →
        (s.half h).windowFirst = (g, ref) :: rest → (s.half g).ring? ref = some r → s.examined g r = some (spec, p, e) →
        r.firstHeld.isSome = true → h ∈ e.halves g → s.admissible g r spec p e = true →
        exec (.admission h) s = .next ((s.admitCommand g r spec p e).modHalf h fun x => { x with windowFirst := rest }))
    ∧ (∀ id c, s.cmd? id = some (h, c) → c.twoHalf = true → c.mirrored = false → s.together h = true →
        ∃ t, exec (.mirroredCommand id) s = .next t ∧ t.cmd? id = some (h, { c with mirrored := true }) ∧ t.mem = s.mem)
    ∧ (∀ id c r, s.cmd? id = some (h, c) → s.resultOf c = some r → (s.hasUnacked id = false ∨ c.stopWith.isSome = true) →
        s.signalsOut id = false →
        (c.signalled = false → s.signalsAcross h c r = true → s.siphonUp = true →
            exec (.commandComplete id) s = .next ((s.sendSignals h c r).setCmd h { c with signalled := true }))
        ∧ ((c.signalled = true ∨ s.signalsAcross h c r = false ∨ s.siphonUp = false) →
            (c.ctx = none → exec (.commandComplete id) s = .next (s.retire h c r))
            ∧ (∀ i, c.ctx = some i → exec (.commandComplete id) s = .next (((s.retire h c r).ackReplica c).tearEnd i))))
    ∧ (∀ c, (c.done.isSome = true → s.resultOf c = (c.done.map fun r => c.stopWith.getD (c.outcome r)))
        ∧ (c.done = none → c.waiting = true → pkOpcode c.packet = 0x0004 →
            (∀ e ∈ s.q.events ++ s.k.events, ∀ a b i n, e.kind ≠ .commit a b i n c.id) →
            s.resultOf c = some (c.stopWith.getD (c.outcome (okResult 0 0 0)))))
    ∧ (s.siphonUp = true →
        ∃ t, exec (.remoteGateSignal h) s = .next t ∧ (t.half h).gateIn = [] ∧ t.mem = s.mem
          ∧ ∀ j k, t.gate j k % 2 ^ 32
              = (s.gate j k + total (((s.half h).gateIn.filter fun x => x.1 = j && x.2.1 = k).map fun x => x.2.2.1)) % 2 ^ 32)

/-! ## Scheduled events -/

/-- ScheduledEventsFire: a due CONFIG_COMMIT leaves its slot and commits what it names, after the freezes and route commits of its
stroke (R52, R102); a due freeze of a half that holds no frozen set latches one (R467); a due route
commit takes effect: it ends the commands that lose a frame by it, refuses what was forwarded and is lost, and ends the collectives of the
plane and their proxies (R387, R388, R395). -/
def Obligations.ScheduledEventsFire : Prop :=
  ∀ (s : State) (h : Half), (s.half h).resetting = false →
    (∀ e regs map ctx gen id, (s.half h).freezeDue = false → (s.half h).routeDue = false → (s.half h).dueCommit = some e →
        e.kind = .commit regs map ctx gen id →
        exec (.configCommitFire h) s
          = .next ((s.modHalf h fun y => { y with events := y.events.erase e }).commitHalf h regs map ctx))
    ∧ (∀ a y, (s.half h).dueFreeze = some (a, y) → y.frozen = none →
        ∃ t f, exec (.freeze h) s = .next t ∧ (t.half h).frozen = some f ∧ f.freezeId = a.freezeId ∧ f.stroke = y.count
          ∧ f.gauges = y.gauges ∧ f.attr = y.attr ∧ t.half h.other = s.half h.other ∧ t.mem = s.mem)
    ∧ (∀ n r t u, least ((s.half h).routePending.map (·.stroke)) = some n → n ≤ (s.half h).count → (s.half h).freezeDue = false →
        r = (s.half h).commitRoutes h n →
        t = r.2.foldl (fun v m => v.relayNack h m (nackCode (engineResult h srcUnreachable))) (s.setHalf h r.1) →
        u = t.failAll h srcUnreachable (r.2.filterMap (·.cmd)).eraseDups →
        exec (.routeCommit h) s = .next ((u.failAll h srcInterrupted (u.runningCollectives h)).stopProxies h))

/-- FreezeWithoutReplace (R469): a freeze that fires while its half holds a frozen set, without REPLACE, latches nothing and counts in
MISSED, which is bits [15:8] of the gauge status; its record is traced as any other event is. -/
def Obligations.FreezeWithoutReplace : Prop :=
  ∀ (s : State) (h : Half) (a : FreezeArm) (y : HalfState), (s.half h).resetting = false → (s.half h).dueFreeze = some (a, y) →
    y.frozen.isSome = true → a.replace = false →
    ∃ t, exec (.freeze h) s = .next t ∧ (t.half h).frozen = y.frozen
      ∧ bits ((t.half h).cell h (hubKey bGAU 1)) 8 8 = (bits (y.cell h (hubKey bGAU 1)) 8 8 + 1) % 256
      ∧ (t.half h).trace = (let z := (y.missFreeze h).traceEvent 6 0 a.freezeId (y.epochOffset h)
          if a.stopTrace then { z.trace with on := false } else z.trace)
      ∧ t.half h.other = s.half h.other ∧ t.mem = s.mem

/-! ## The Siphon -/

/-- SiphonRowsComplete: a fault beyond the redundant lanes takes the Siphon DOWN, a repair uses a spare and keeps its bandwidth, and
is counted; the firmware of a READY half tries again, the other hub answers at once, an attempt ends at the time limit of the half that
began it or makes the Siphon ACTIVE, or ACTIVE_REPAIRED with a lane replaced (R22 to R24, R30). A block whose seal holds is progress, one
whose seal does not ends the command that waited on it, or is dropped where none did (R25), and a flit sent again is counted (R22). -/
def Obligations.SiphonRowsComplete : Prop :=
  ∀ s : State,
    (s.siphonUp = false → ∃ t, exec .siphonDown s = .next t ∧ t.siphon = 0 ∧ t.q = s.q ∧ t.k = s.k ∧ t.mem = s.mem)
    ∧ (s.siphonUp = true → exec .siphonDown s = .next s.loseSiphon)
    ∧ (s.siphon ≠ 0 → s.lanesRepaired < Config.siphonSpares → s.lanesRepaired < 255 →
        ∃ t, exec .siphonLaneRepair s = .next t ∧ t.lanesRepaired = s.lanesRepaired + 1
          ∧ (s.siphon = 1 → t.siphon = 1) ∧ (s.siphon ≠ 1 → t.siphon = 3) ∧ t.q = s.q ∧ t.k = s.k ∧ t.mem = s.mem)
    ∧ (s.siphon ≠ 0 → Config.siphonSpares ≤ s.lanesRepaired → exec .siphonLaneRepair s = .next s.loseSiphon)
    ∧ (∀ h, s.siphon = 0 → (s.half h).boot = .ready → (s.half h).resetting = false →
        (∀ t, (s.half h).siphonTry = some t → t + 100000000 ≤ (s.half h).count) →
        exec (.siphonRetry h) s = .next { s.modHalf h fun x => { x.reach 3 with siphonTry := some x.count } with siphon := 1, siphonBy := h })
    ∧ (∀ h, s.siphon = 0 → (s.half h).trainsSiphon = true → (s.half h.other).trainsSiphon = true →
        exec (.siphonTrainingRequest h) s = .next { s.modHalf h.other fun x => { x.reach 3 with siphonTry := some x.count } with
          siphon := 1, siphonBy := h.other })
    ∧ (∀ t, s.siphon = 1 → (s.half s.siphonBy).siphonTry = some t → t + 20000000 ≤ (s.half s.siphonBy).count →
        exec .siphonTrainingTimeout s = .next { s with siphon := 0 })
    ∧ (s.siphon = 1 → s.q.trainsSiphon = true → s.k.trainsSiphon = true → exec .siphonActive s
        = .next (((({ s with siphon := if s.lanesRepaired = 0 then 2 else 3 } : State).mergeGens .q).mergeGens .k).followSiphon.reconcile))
    ∧ (∀ h dpa block crc id g c, s.siphonUp = true → (s.half h).boot ≠ .off → s.cmd? id = some (g, c) → c.done = none →
        (crc32c block = crc → exec (.siphonBlockReceive h dpa block crc id) s = .next (s.setCmd g { c with idle := 0, idleOther := 0 }))
        ∧ (crc32c block ≠ crc → exec (.siphonBlockReceive h dpa block crc id) s
            = .next ((s.finish g c (sealResult dpa)).occur h 0x021 c.ctx)))
    ∧ (∀ h dpa block crc id, s.siphonUp = true → (s.half h).boot ≠ .off → s.cmd? id = none →
        (crc32c block = crc → exec (.siphonBlockReceive h dpa block crc id) s = .next s)
        ∧ (crc32c block ≠ crc → exec (.siphonBlockReceive h dpa block crc id) s = .next (s.occur h 0x021 none)))
    ∧ (∀ h, s.siphonUp = true → (s.half h).boot ≠ .off → ∃ t, exec (.siphonFlitRetry h) s = .next t
        ∧ t.half h = (s.half h).count32 h siphonRetriesKey 0 1 ∧ t.half h.other = s.half h.other ∧ t.mem = s.mem)

/-! ## Links and the spur -/

/-- LinkRowsComplete: a port whose exchange fails goes DOWN with the cause, and one whose exchange holds becomes ACTIVE (R375, R376), a
torus port with its repair flooded (R387); an ACTIVE port goes DOWN after eight failed replays or without block lock, and an enabled DOWN
port is retrained 100,000,000 strokes after the last attempt (R374) with this module's capability record (R375); a replay is counted
(R374); returned credit frees buffers (R381); the highest number received in order is acknowledged (R380); and a frame for another module
goes out through the route table (R386). -/
def Obligations.LinkRowsComplete : Prop :=
  ∀ (s : State) (h : Half) (port : Nat), hasPort h port = true → (s.half h).resetting = false →
    (∀ rec t, (s.half h).portState h port = 1 → t = (s.modHalf h fun y => y.setCell (regKey bLNK 4 port 3) (rec % 2 ^ 64)) →
        (∀ cause, capRefusal (s.half h) h port rec = some cause →
            exec (.capabilityExchange h port rec) s = .next (t.lowerPort h port cause false))
        ∧ (capRefusal (s.half h) h port rec = none → port = 4 → exec (.capabilityExchange h port rec) s = .next (t.modHalf h fun y =>
            ((y.setField h (regKey bLNK 4 port 2) 0 3 2).setField h (regKey bLNK 4 port 2) 3 3 0).setField h (regKey bLNK 4 port 2) 8 8 linkVersion))
        ∧ (∀ y, capRefusal (s.half h) h port rec = none → port < 4 →
            y = (((t.half h).setField h (regKey bLNK 4 port 2) 0 3 2).setField h (regKey bLNK 4 port 2) 3 3 0).setField h
              (regKey bLNK 4 port 2) 8 8 linkVersion →
            exec (.capabilityExchange h port rec) s = .next (t.setHalf h
              ((y.facts.filter fun f => !(f.pos = y.myPos h && f.port = port)).foldl (fun w f => w.raiseRoute h f)
                (y.raiseRoute h { pos := y.myPos h, port := port, down := false })))))
    ∧ (∀ cause, (s.half h).portState h port = 2 → (cause = 1 ∨ cause = 4 ∧ 8 ≤ ((s.half h).port port).failedReplays) →
        exec (.portDown h port cause) s = .next (s.lowerPort h port cause true))
    ∧ ((s.half h).running = true → (s.half h).portState h port = 0 → bitSet ((s.half h).portReg h port 1) 0 = true →
        (∀ t, ((s.half h).port port).triedAt = some t → t + 100000000 ≤ (s.half h).count) →
        exec (.portRetrain h port) s = .next (s.modHalf h fun y => (y.setPort port { y.port port with
          triedAt := some y.count, sentCap := y.capability h port }).setField h (regKey bLNK 4 port 2) 0 3 1))
    ∧ ((s.half h).portState h port = 2 → ((s.half h).port port).retry ≠ [] →
        ∃ u, exec (.linkReplay h port) s = .next u ∧ u.half h = ((s.half h).setPort port { (s.half h).port port with
            failedReplays := ((s.half h).port port).failedReplays + 1 }).count32 h (regKey bLNK 4 port 4) 0 1
          ∧ u.half h.other = s.half h.other ∧ u.mem = s.mem)
    ∧ (∀ vc units p left d, (s.half h).portState h port = 2 → units ≠ 0 → p = (s.half h).port port → left = freedFrames vc units p.retry →
        d = ({ p with
            used := p.used.set vc (p.used.at vc - units), retry := left
            failedReplays := if left.head? = p.retry.head? then p.failedReplays else 0 } : Port).drain ((s.half h).myPos h) p.queue.length →
        exec (.creditReturn h port vc units) s = .next (s.modHalf h fun y => d.2.foldl
          (fun z f => z.gauge 0x02 (6 * 512 + port * 4 + gaugeClass f) 0 (frameBytesOf f)) (y.setPort port d.1)))
    ∧ (∀ src, (s.half h).rxSince.at src ≠ 0 → exec (.ackSend h src) s
        = .next ((s.modHalf h fun y => { y with rxSince := y.rxSince.set src 0 }).send h none
            { type := 0x3, dst := src, mgmt := true, arg := ((s.half h).rxHigh.at src + 2 ^ 24 - 1) % 2 ^ 24 : Frame }).1)
    ∧ (∀ f, (s.half h).portState h port = 2 → port ≠ 4 → f.dst ≠ (s.half h).myPos h → ¬ (f.type = 0xB ∧ f.arg % 256 ≠ 0) →
        (f.ver = (s.half h).e2eVer h → f.type < 0xC → exec (.frameForward h port f) s
          = .next (s.modHalf h fun y => ((y.countIn port f).routeFrame h (y.ingress h port f) port).1))
        ∧ ((f.ver ≠ (s.half h).e2eVer h ∨ 0xC ≤ f.type) → exec (.frameForward h port f) s
          = .next (s.modHalf h fun y => (y.countIn port f).dropFrame h port)))
    ∧ (∀ f, (s.half h).portState h port = 2 → port = 4 → (s.half h).isBridge h = true → f.type ≠ 0xA →
        ¬ (f.dst = (s.half h).myPos h ∧ (f.type = 0x0 ∨ f.type = 0x7 ∨ f.type = 0x9)) →
        exec (.frameForward h port f) s = .next (s.relaySpur f))

/-- NoticesAreTaken: a teardown notice of the current generation of a living context ends it here, in both halves where it lives in both,
and propagates no further (R99); the first copy of a freeze notice is forwarded and held, also across the Siphon, and another copy is only
counted (R468); the first copy of a route change is forwarded and queued, another only counted (R387); and a fault notice of the other
half crosses the Siphon in the URGENT class and has no other effect (R26, R426). -/
def Obligations.NoticesAreTaken : Prop :=
  ∀ (s : State) (h : Half) (port : Nat) (f : Frame),
    ((s.half h).hears h port f 0 = true → f.dst = (s.half h).myPos h → ((s.half h).ctx f.ctx).alive = true →
        (s.half h).gen f.ctx = f.gen →
        exec (.teardownNotice h port f) s = .next ((s.modHalf h fun y => y.countIn port f).teardownFrom h f.ctx false))
    ∧ (∀ a : FreezeArm, (s.half h).hears h port f 2 = true →
        a = { freezeId := bits f.arg 8 32, machine := true, replace := bitSet f.arg 40, stopTrace := bitSet f.arg 41 } →
        (a.freezeId ∈ (s.half h).freezeSeen → exec (.freezeNotice h port f) s = .next (s.modHalf h fun y => y.countIn port f))
        ∧ (a.freezeId ∉ (s.half h).freezeSeen → s.siphonUp = false →
            exec (.freezeNotice h port f) s = .next ((s.modHalf h fun y => y.countIn port f).modHalf h fun y =>
              (y.floodFreeze h port (nearStroke (s.half h).count f.addr) a).hearFreeze h (nearStroke (s.half h).count f.addr) a))
        ∧ (a.freezeId ∉ (s.half h).freezeSeen → s.siphonUp = true → (s.half h.other).resetting = false →
            a.freezeId ∉ (s.half h.other).freezeSeen →
            exec (.freezeNotice h port f) s = .next ((((s.modHalf h fun y => y.countIn port f).modHalf h fun y =>
              (y.floodFreeze h port (nearStroke (s.half h).count f.addr) a).hearFreeze h (nearStroke (s.half h).count f.addr) a).cross h
                .urgent flitBytes).modHalf h.other fun y => (y.floodFreeze h.other 4 (nearStroke (s.half h).count f.addr) a).hearFreeze
                  h.other (nearStroke (s.half h).count f.addr) a)))
    ∧ ((s.half h).hears h port f 3 = true →
        ((noticeFact f).pos, (noticeFact f).port * 2 + (if (noticeFact f).down then 1 else 0), f.addr) ∈ (s.half h).routeSeen →
        exec (.routeChangeNotice h port f) s = .next (s.modHalf h fun y => y.countIn port f))
    ∧ ((s.half h).hears h port f 3 = true →
        ((noticeFact f).pos, (noticeFact f).port * 2 + (if (noticeFact f).down then 1 else 0), f.addr) ∉ (s.half h).routeSeen →
        exec (.routeChangeNotice h port f) s = .next (s.modHalf h fun y =>
          { ((y.countIn port f).queueRoute (nearStroke y.count f.addr) (noticeFact f)).flood h port f with
            routeSeen := y.routeSeen
              ++ [((noticeFact f).pos, (noticeFact f).port * 2 + (if (noticeFact f).down then 1 else 0), f.addr)] }))
    ∧ ∀ n, (s.siphonUp = true → exec (.faultBroadcast h n) s = .next (s.modHalf h.other fun x => x.crossing .urgent flitBytes))
      ∧ (s.siphonUp = false → exec (.faultBroadcast h n) s = .next s)

/-- SpurRowsComplete: a doorbell, a ring write and a ring read of the host of this bridge, in order and of its version, are given to
their rows and acknowledged (R82 to R84, R383); so are those that another module's bridge relays, which come to the half they name; a
block of a weight stream from the host is taken as one from a torus port; and a doorbell for another module is passed on once no ring
write of its host to the same ring is unacknowledged (R83). -/
def Obligations.SpurRowsComplete : Prop :=
  ∀ (s : State) (f : Frame),
    (∀ g i type act b, (i, type, act) ∈ spurRows f → s.q.portState .q 4 = 2 → s.q.isBridge .q = true → s.q.resetting = false →
        f.src = s.q.myPos .q → f.type = type → f.dst = s.q.myPos .q → (raHalf f.addr = .k → s.siphonUp = true) →
        b = (s.modHalf .q fun y => y.countIn 4 f) →
        g = { f with src := s.q.myPos .q, crc := if f.data.isEmpty then 0 else crc32c f.data } → g.ver = s.q.e2eVer .q →
        s.q.isDuplicate g.src g.seq = false →
        (∀ t, act b g = .done t → exec i s = .next (t.noteFrame .q g true))
        ∧ (∀ t r, act b g = .refuse t r → exec i s = .next (((t.noteFrame .q g false).nackFrame .q 4 g r).occur .q srcSpurFrame none)))
    ∧ (∀ i type act h port b, (i, type, act) ∈ spurRows f → f.src ≠ s.q.myPos .q → h = raHalf f.addr →
        port = (s.half h).portTowards h f.src → (s.half h).portState h port = 2 → (s.half h).resetting = false → f.type = type →
        f.dst = (s.half h).myPos h → b = (s.modHalf h fun y => y.countIn port f) → f.ver = (s.half h).e2eVer h →
        (s.half h).isDuplicate f.src f.seq = false →
        (∀ t, act b f = .done t → exec i s = .next (t.noteFrame h f true))
        ∧ (∀ t r, act b f = .refuse t r → exec i s = .next ((t.noteFrame h f false).nackFrame h port f r)))
    ∧ (bitSet f.arg 16 = false → (s.streamCredit .q 4 f = true ∨ (s.q.spurGate f).isSome = true) →
        exec (.stream .q 4 f) s = .next (s.receiveSpur f 0x7 fun t g =>
          match t.q.spurGate g with | some r => .refuse t r | none => takeBlock .q 4 t g))
    ∧ (bitSet f.arg 16 = true → exec (.streamAbort .q 4 f) s = .next (s.receiveSpur f 0x7 fun t g =>
        match t.q.spurGate g with | some r => .refuse t r | none => takeAbort .q 4 t g))
    ∧ (s.q.portState .q 4 = 2 → s.q.isBridge .q = true → s.q.resetting = false → f.type = 0xA → f.dst ≠ s.q.myPos .q →
        (∀ u ∈ s.q.unacked ++ s.k.unacked, ¬ (u.spur.isSome = true ∧ u.frame.type = 0x9 ∧ u.frame.dst = f.dst ∧ u.frame.mgmt = f.mgmt
          ∧ u.frame.ctx = f.ctx ∧ bits u.frame.addr 0 6 = bits f.addr 0 6)) →
        exec (.doorbellRelay f) s = .next (s.relaySpur f))

/-! ## Faults -/

/-- FaultRowsComplete: an occurrence that no command owns raises its source for the resident context, or for none; an engine fault ends
the command whose work it stopped, or ranks with the error that stopped it in the same stroke (R14, R428, R429). A pair with equal rails is
masked and recorded (R427); a deadline that finds its source still sticky resets the half (R432); a command without progress for its budget,
in its home half or in the other half of a mirrored one, ends with ERR_TIMEOUT, or with the error that it met before (R14, R437); a core that misses its
signal raises 0x001 (R438). An acknowledged source is no longer sticky and has no deadline left that has not been reached (R431). -/
def Obligations.FaultRowsComplete : Prop :=
  ∀ (s : State) (h : Half) (source : Nat),
    ((s.half h).samples source = true →
        (∀ id, s.cmd? id = none → exec (.faultOccurrence h source id) s = .next (s.occur h source
            (match sourceInfo h source with | some i => if i.context then (s.half h).resident else none | none => none)))
        ∧ (∀ id g c r, s.cmd? id = some (g, c) → isEngineFault source = true → engineServes h source c = true → c.done = some r →
            isError r.status = true → c.doneAt = s.now g → exec (.faultOccurrence h source id) s
              = .next ((s.setCmd g { c with done := some (worse r (engineResult h source)) }).occur h source c.ctx))
        ∧ (∀ id g c, s.cmd? id = some (g, c) → isEngineFault source = true → engineServes h source c = true → c.done = none →
            exec (.faultOccurrence h source id) s
              = .next ((s.finish g { c with tiles := [] } (engineResult h source)).occur h source c.ctx))
        ∧ (∀ id g c, s.cmd? id = some (g, c) → isEngineFault source = false →
            exec (.faultOccurrence h source id) s = .next (s.occur h source c.ctx)))
    ∧ ((sourceInfo h source).isSome = true → (s.half h).samples source = true → bitSet ((s.half h).sev h source) 6 = false →
        ∃ t : State, exec (.wireFault h source) s = .next (t.occur h (wireSource source) none)
          ∧ bits ((t.half h).cell h (hubKey bFCL 4)) 0 10 = source % 1024 ∧ t.half h.other = s.half h.other ∧ t.mem = s.mem)
    ∧ (∀ e, earliest (s.half h).deadlines = some e → e.2 ≤ s.now h → (s.half h).boot ≠ .off →
        exec (.escalation h) s = .next (s.halfReset h e.1 2))
    ∧ (∀ id c n, s.cmd? id = some (h, c) → ((s.half h).budget h ≠ 0 ∧ (s.half h).budget h * 1000 ≤ c.idle ∧ n = c.idle
          ∨ ((s.half h).budget h = 0 ∨ c.idle < (s.half h).budget h * 1000) ∧ c.twoHalf = true ∧ (s.half h.other).budget h.other ≠ 0
            ∧ (s.half h.other).budget h.other * 1000 ≤ c.idleOther ∧ n = c.idleOther) →
        c.phase = .running → c.stopWith = none →
        (c.done = none → exec (.watchdogExpiry id) s = .next (((s.abandonFrames id).finish h { c with tiles := [], waiting := false }
          { status := stTimeout, d0 := rsWatchdog, d1 := sat32 n }).occur h srcWatchdog c.ctx))
        ∧ (∀ r, c.done = some r → s.hasUnacked id = true →
          exec (.watchdogExpiry id) s = .next (((s.abandonFrames id).finish h { c with tiles := [], waiting := false }
            (if isError r.status then r else { status := stTimeout, d0 := rsWatchdog, d1 := sat32 n })).occur h srcWatchdog c.ctx)))
    ∧ (∀ core, core < 4 → (s.half h).running = true → (s.half h).heartbeatOn = true →
        exec (.heartbeatMissed h core) s = .next (s.occur h 0x001 none))
    ∧ ((sourceInfo h source).isSome = true → (s.half h).boot ≠ .off →
        (∃ t, exec (.fclStickyAck h source) s = .next t ∧ (t.half h).sticky h source = false
            ∧ (∀ d, find source (t.half h).deadlines = some d → d ≤ (s.half h).count) ∧ t.half h.other = s.half h.other ∧ t.mem = s.mem)
        ∧ ∃ t, exec (.fclForce h source) s = .next t ∧ source ∈ (t.half h).forced ∧ t.half h.other = s.half h.other ∧ t.mem = s.mem)

/-- ResetRowsComplete: at the end of a collection the other half has written the record, whole or as far as its time limit let it, unless it
cannot, and the switched domains of the half are reset (R444 to R446); HALF_RESET_N going low resets the half with trigger 3, MOD_RESET_N
both; a release leaves each input where it is said to be (R502); and FC_PWR follows the link-PHY domain of its half (R494). -/
def Obligations.ResetRowsComplete : Prop :=
  ∀ (s : State) (h : Half),
    (∀ r, (s.half h).reset = some r → r.collecting = true → (s.siphonUp = false ∨ s.ready h.other = false) →
        exec (.collectionEnd h) s
          = .next ((s.modHalf h fun x => { x with reset := some { r with collecting := false } }).resetDomains h))
    ∧ (∀ r n, (s.half h).reset = some r → r.collecting = true → s.siphonUp = true → s.ready h.other = true →
        n = (if r.start + (s.half h.other).collectMs h.other * 100000 ≤ s.now h then s.fresh 0 % 7 else 7) →
        (∀ t : State, (t, none) = ((s.modHalf h fun x => { x with reset := some { r with collecting := false } }).cross h .command
              (s.record h r n).length).putMem none [(collectedAt h, s.record h r n)] →
          ∃ u : State, exec (.collectionEnd h) s = .next (u.resetDomains h) ∧ u.mem = t.mem ∧ u.half h = t.half h
            ∧ u.half h.other = (t.half h.other).setCell (hubKey bFCL 5)
                (1 + place (if n = 7 then 1 else 0) 1 1 + place (ceilDiv (s.record h r n).length 1024) 8 24))
        ∧ (∀ (t : State) a, (t, some a) = ((s.modHalf h fun x => { x with reset := some { r with collecting := false } }).cross h .command
              (s.record h r n).length).putMem none [(collectedAt h, s.record h r n)] →
          exec (.collectionEnd h) s = .next (t.resetDomains h)))
    ∧ (s.heldReset h = false → ∃ t : State, exec (.halfResetNAssert h) s = .next (t.halfReset h 0 3) ∧ t.heldReset h = true
        ∧ t.heldReset h.other = s.heldReset h.other ∧ t.q = s.q ∧ t.k = s.k ∧ t.mem = s.mem)
    ∧ (∃ t, exec (.halfResetNRelease h) s = .next t ∧ t.heldReset h = false ∧ t.heldReset h.other = s.heldReset h.other
        ∧ (s.heldReset h.other = false → t.modReset = false ∧ t.tapInstruction = (if 3 ≤ s.tapInstruction then 0 else s.tapInstruction))
        ∧ (s.heldReset h.other = true → t.modReset = s.modReset ∧ t.tapInstruction = s.tapInstruction)
        ∧ t.q = s.q ∧ t.k = s.k ∧ t.mem = s.mem)
    ∧ (∀ n, s.fcPwr n = true ↔ n < 9 ∧ (s.half (if n < 5 then .q else .k)).beforeRom = false
        ∧ (s.half (if n < 5 then .q else .k)).resetting = false)
    ∧ (∀ b, (s.q.boot = .off ∨ s.q.resetting = true) →
        b = ({ s with modReset := true, halfResetQ := true, halfResetK := true } : State) →
        exec .modResetNAssert s = .next ((b.halfReset .q 0 3).halfReset .k 0 3))
    ∧ (∀ b, s.q.boot ≠ .off → s.q.resetting = false →
        b = ({ s with modReset := true, halfResetQ := true, halfResetK := true } : State) →
        exec .modResetNAssert s = .next (((b.halfReset .q 0 3).halfReset .k 0 3).modHalf .q fun x =>
          { x with keptNotice := some (replyWord 0xFFFFFFFF stFault 0 s.q.count 0 rsEngine (causeOf .q 0 3) 3) }))

/-! ## Power and start-up -/

/-- PowerRowsComplete: PWR_EN, a supply that is good again, dies that have cooled and the end of the holdoff each let the module start
as soon as nothing else keeps it off (R496, R500, R501, R506); PWR_EN falling, a supply out of range, the loss of REFCLK, a rail that
does not come up and a die at 115 °C switch it off, which leaves flash, pins and latches alone (R496, R498, R500, R501, R506). -/
def Obligations.PowerRowsComplete : Prop :=
  ∀ s : State,
    (s.pwrEn = false → exec .pwrEnRise s = .next ({ s with pwrEn := true } : State).powerOn)
    ∧ (∀ t, s.pwrEn = true → t = ({ s with pwrEn := false, thermTrip := false, holdoff := true } : State) →
        (s.starting = false → s.isOff = true → exec .pwrEnFall s = .next t)
        ∧ ((s.starting = true ∨ s.isOff = false) → exec .pwrEnFall s = .next t.powerOff))
    ∧ (s.holdoff = true → exec .pwrEnHoldoffEnd s = .next ({ s with holdoff := false } : State).powerOn)
    ∧ (s.powerFailed = true → exec .powerRestart s = .next ({ s with powerFailed := false } : State).powerOn)
    ∧ (s.hotDies = true → exec .diesCooled s = .next ({ s with hotDies := false } : State).powerOn)
    ∧ ((s.starting = true ∨ s.isOff = false) →
        (∀ mv, (mv < 52000 ∨ 64000 < mv) → exec (.powerFail mv) s = .next ({ s with powerFailed := true } : State).powerOff)
        ∧ exec .refclkLoss s = .next ({ s with powerFailed := true } : State).powerOff)
    ∧ (∀ rail, s.starting = true → s.q.beforeRom = true → s.k.beforeRom = true → 1 ≤ rail → rail ≤ 7 →
        exec (.railFail rail) s = .next { s.powerOff with railFail := rail })
    ∧ (∀ h c, 115 ≤ c → s.isOff = false →
        exec (.thermalTrip h c) s = .next { s.powerOff with thermTrip := true, tripped := true, hotDies := true })
    ∧ (∀ t, t = s.powerOff → t.isOff = true ∧ t.q.flash = s.q.flash ∧ t.k.flash = s.k.flash ∧ t.starting = false ∧ t.pgood = false
        ∧ t.allCmds = [] ∧ t.pwrEn = s.pwrEn ∧ t.tripped = s.tripped ∧ t.siphon = 0 ∧ t.pending = s.pending)
    ∧ (s.pwrEn = true → s.holdoff = false → s.powerFailed = false → s.hotDies = false → s.thermTrip = false → s.starting = false →
        s.isOff = true → s.powerOn = { s with starting := true })

/-- StartUpRowsComplete: the always-on domain of a half leaves reset (R500); the ROM samples BOOT_SEL and goes to recovery, to the
loader, or stops without its secret (R473, R480); the loader starts the firmware or enters recovery (R479); the firmware chooses and
commits its settings and trains (R486, R503); a training that fails says so (R336), a step that takes too long ends in DOWN (R504); and
a trained half, or one that has waited a second for a parent it cannot have, becomes READY (R504). -/
def Obligations.StartUpRowsComplete : Prop :=
  ∀ (s : State) (h : Half),
    (s.starting = true → (s.half h).boot = .off →
        exec (.alwaysOnEntry h) s = .next (s.modHalf h fun x => { x with boot := .alwaysOn }))
    ∧ (∀ sel, (s.half h).boot = .alwaysOn → s.heldReset h = false →
        ∃ t, exec (.romEntry h sel true) s = .next t ∧ t.pgood = true ∧ t.railFail = 0 ∧ (t.half h).bootSel = sel % 4
          ∧ (t.half h).reset = none ∧ t.half h.other = s.half h.other ∧ t.mem = s.mem
          ∧ ((t.half h).boot = .recovery ↔ sel % 4 = 1 ∨ sel % 4 = 2) ∧ ((t.half h).boot = .loader ↔ sel % 4 = 0 ∨ sel % 4 = 3))
    ∧ (∀ sel, (s.half h).boot = .alwaysOn → s.heldReset h = false →
        ∃ t, exec (.romEntry h sel false) s = .next t ∧ (t.half h).boot = .identityFailed)
    ∧ (∀ sel r b, (s.half h).boot = .rom → (s.half h).bootSampled = true → (s.half h).reset = some r → r.collecting = false →
        s.heldReset h = false → ∃ t, exec (.romEntry h sel b) s = .next t ∧ (t.half h).bootSel = (s.half h).bootSel ∧ (t.half h).reset = none
          ∧ t.pgood = s.pgood ∧ t.half h.other = s.half h.other ∧ t.mem = s.mem)
    ∧ ((s.half h).boot = .loader → (s.half h).resetting = false →
        (((s.half h).runLoader h).2 = true →
            exec (.loaderBoot h) s = .next (s.setHalf h { ((s.half h).runLoader h).1 with boot := .firmware }))
        ∧ (((s.half h).runLoader h).2 = false → exec (.loaderBoot h) s = .next (s.setHalf h ((s.half h).runLoader h).1.recover)))
    ∧ ((s.half h).boot = .firmware → (s.half h).resetting = false →
        ∃ t : State, exec (.firmwareStart h) s = .next (t.refreshParent h) ∧ (t.half h).boot = .training ∧ (t.half h).step = 1
          ∧ (t.half h).heartbeatOn = true)
    ∧ ((s.half h).running = true →
        ((s.half h).boot = .training → s.siphon = 1 → exec (.trainingStepTimeout h 5) s = .next { s with siphon := 0 })
        ∧ (∀ p, hasPort h p = true → (s.half h).portState h p = 1 → exec (.trainingStepTimeout h p) s
            = .next ((s.modHalf h fun y => y.stopPort h p 0 1 false).refreshParent h)))
    ∧ ((s.half h).boot = .training → (s.half h).resetting = false →
        ∃ t, exec (.trainingFailed h) s = .next t ∧ (t.half h).boot = .trainingFailed ∧ t.half h.other = s.half h.other ∧ t.mem = s.mem)
    ∧ ((s.half h).boot = .training → (s.half h).resetting = false → s.linksSettled h = true →
        (((s.half h).stuState h = 2 ∨ (s.half h).stuState h = 4) → exec (.halfReady h) s = .next (s.becomeReady h))
        ∧ ((∀ p, p < 4 → (s.half h).portState h p ≠ 2) → (s.half h).parentLink h ≠ some 8 → (s.half h).stuState h ≠ 4 →
            exec (.strokeParentTimeout h) s = .next ((s.modHalf h fun y => y.setStu h 0 0xF 0xFF).becomeReady h)))

/-! ## Firmware, settings and attestation -/

/-- FirmwareRowsComplete: FW_STAGE stages a header, appends a body, writes both flash devices in two steps and discards the staging
(R475 to R478); an activation saves the context, and then restarts the half and restores it, or enters recovery where the loader does not
accept the image (R479, R482, R483); its heartbeat check resumes, and raises 0x001 where no core signals or the firmware has not started
(R484). -/
def Obligations.FirmwareRowsComplete : Prop :=
  ∀ (s : State) (id : Nat) (h : Half) (c : Cmd),
    (s.runs id h c 0x0B01 →
        (fsOp c.packet = 1 → exec (.fwStageHeader id) s = .next (({ s with staging := some { header := fsHeader c.packet } } : State).finish
            h c (okResult (ihVersion (fsHeader c.packet)) 0 0)))
        ∧ (∀ g, fsOp c.packet = 0 → s.staging = some g → exec (.fwStageBody id) s = .next (({ s with
            staging := some { g with body := g.body ++ bytesOf (fsBytes c.packet) (c.packet >>> 1024) } } : State).finish h c
              (okResult 0 0 0)))
        ∧ (∀ g, fsOp c.packet = 2 → s.staging = some g → s.bothReady = true → c.cursor = 0 →
            ∃ t, exec (.fwStageWrite id) s = .next t ∧ t.q.flash = { s.q.flash with imageState := .writing }
              ∧ t.k.flash = { s.k.flash with imageState := .writing } ∧ t.writing = some id
              ∧ t.cmd? id = some (h, { c with cursor := 1, idle := 0, idleOther := 0 }) ∧ t.mem = s.mem)
        ∧ (∀ g, fsOp c.packet = 2 → s.staging = some g → s.bothReady = true → c.cursor ≠ 0 →
            ∃ t, exec (.fwStageWrite id) s = .next t ∧ t.q.flash = s.q.flash.program g ∧ t.k.flash = s.k.flash.program g
              ∧ t.writing = none ∧ t.ended id h (okResult (ihVersion g.header) (ihBytes g.header) 0) ∧ t.mem = s.mem)
        ∧ (fsOp c.packet = 3 → exec (.fwStageAbort id) s
            = .next (({ s with staging := none } : State).finish h c (okResult 0 0 0))))
    ∧ (∀ g e cmd, (s.half g).resetting = false → (s.half g).activating = none → (s.half g).freezeDue = false →
        (s.half g).routeDue = false → (s.half g).commitDue = false → (s.half g).dueActivation = some (e, cmd) →
        exec (.firmwareActivation g) s = .next (s.beginActivation g e cmd (s.replaced g)))
    ∧ (∀ g a, (s.half g).resetting = false → (s.half g).activating = some a → (s.half g).running = true →
        (((s.half g).runLoader g).2 = true → ∀ t u,
          t = (((s.setHalf g ((s.half g).runLoader g).1).loadSettings g).modHalf g fun y =>
            { y.measure with flash := { y.flash with bootFails := 0 }, activation := some { a with restarted := true } }) →
          u = (match a.ctx with | some i => t.resumeContext g i | none => t) →
          exec (.firmwareActivation g) s = .next (u.endActivation a.cmd a.previous))
        ∧ (((s.half g).runLoader g).2 = false → exec (.firmwareActivation g) s = .next (s.setHalf g
            { ((s.half g).runLoader g).1 with boot := .recovery, recovBytes := 0, recovResult := 0 })))
    ∧ (∀ g a t, (s.half g).activation = some a → a.fired + 100000000 ≤ s.now g →
        t = (s.modHalf g fun x => { x with activation := none, heartbeatOn := true }) →
        (a.restarted = true → (s.half g).running = true → exec (.activationHeartbeatCheck g true) s = .next t)
        ∧ ((a.restarted = false ∨ (s.half g).running = false) → exec (.activationHeartbeatCheck g true) s = .next (t.occur g 0x001 none))
        ∧ exec (.activationHeartbeatCheck g false) s = .next (t.occur g 0x001 none))

/-- SettingsAndAttestationComplete: SETTINGS_WRITE stages a body of a length, appends to it up to that length, discards it, or writes it
to both devices as a TRIAL record with a new WRITE_SEQ, which DETAIL0 returns (R488); SETTINGS_CONFIRM confirms the record in force and
erases the other slots (R489); ATTEST returns the measurements, a signature over them, or the public key (R491). -/
def Obligations.SettingsAndAttestationComplete : Prop :=
  ∀ (s : State) (id : Nat) (h : Half) (c : Cmd),
    (s.runs id h c 0x0B03 →
        (swOp c.packet = 1 → exec (.settingsWriteBegin id) s
            = .next (({ s with settingsStaging := some (swBytes c.packet, []) } : State).finish h c (okResult 0 0 0)))
        ∧ (∀ g, swOp c.packet = 2 → s.settingsStaging = some g → exec (.settingsWriteData id) s = .next (({ s with
            settingsStaging := some (g.1, (g.2 ++ bytesOf (swData c.packet) (c.packet >>> 1024)).take g.1) } : State).finish h c
              (okResult 0 0 0)))
        ∧ (swOp c.packet = 0 → exec (.settingsWriteAbort id) s
            = .next (({ s with settingsStaging := none } : State).finish h c (okResult 0 0 0)))
        ∧ (∀ g, swOp c.packet = 3 → s.settingsStaging = some g → s.siphonUp = true →
            ∃ (i n : Nat) (r : Settings), exec (.settingsWriteEnd id) s = .next ((s.writeSlot i r).finish h c (okResult n 0 0))
              ∧ n = (max s.q.flash.highSeq s.k.flash.highSeq + 1) % 2 ^ 32 ∧ r.writeSeq = n ∧ r.confirmed = false
              ∧ r.entries = bodyEntries g.2 ∧ (∀ j, s.q.slotInForce = some j → i = 1 - j)))
    ∧ (∀ r i, s.runs id h c 0x0B04 → s.q.settings = some r → s.q.slotInForce = some i → s.siphonUp = true →
        ∃ (t : State) (m : Settings), exec (.settingsConfirm id) s = .next t ∧ t.ended id h (okResult 0 0 0) ∧ m.confirmed = true ∧ m.entries = r.entries
          ∧ m.writeSeq = r.writeSeq ∧ t.mem = s.mem
          ∧ ∀ g, (t.half g).flash = { ((s.half g).flash.setSlot i (some { m with signedBy := some g })).setSlot (1 - i) none with
              bootFails := 0 })
    ∧ (s.runs id h c 0x0B05 →
        (atMode c.packet = 0 → exec (.attestMeasure id) s
            = .next (s.finish h c { okResult 0 0 0 with payload := some (bytesOf 128 (s.half h).measures.record) }))
        ∧ (atMode c.packet = 1 → exec (.attestSign id) s
            = .next (s.finish h c { okResult 0 0 0 with payload := some (bytesOf 128
                (place (Config.sign h.part "ID" (attestMessage (atNonce c.packet) (s.half h).measures.record h.part)) 0 912
                  + place (s.half h).measures.actCount 912 32)) }))
        ∧ (atMode c.packet = 2 → exec (.attestIdentity id) s
            = .next (s.finish h c { okResult 0 0 0 with payload := some (bytesOf 128 (place (Config.idPublicKey h.part) 0 456)) })))

/-! ## The management port and the TAP -/

/-- ManagementPortCompletes: at its address the port answers a status read, takes a packet into the management ring of the half it
names, returns the last reply, and takes image bytes at the next offset; what it cannot take it does not acknowledge (R508 to R512). A
recovery image that is whole is written and booted, and the spur brings the Q half one block by block (R480, R481). -/
def Obligations.ManagementPortCompletes : Prop :=
  ∀ (s : State) (h : Half) (address : Nat),
    (s.addressed address = true →
        (∃ t, exec (.mgmtStatus address) s = .next t ∧ t.portOut = (bytesOf 32 s.statusRecord).take s.maxRead ∧ t.portNack = false
            ∧ t.tripped = false ∧ t.q = s.q ∧ t.k = s.k ∧ t.mem = s.mem)
        ∧ (∀ bs, 64 ≤ bs.length → bs.length = 64 * (1 + pkUnits (numOf (bs.take 64))) → 2 + bs.length ≤ s.maxWrite →
            (s.half h).takesPackets = true → (s.half h).mgmtHeld = none → (s.half h).mgmtOutstanding = none →
            exec (.mgmtPacket address (h.part :: bs)) s
              = .next (((s.answer []).modHalf h fun y => { y with mgmtHeld := some bs }).enqueuePacket h))
        ∧ (∀ bs, ((s.half h).mgmtHeld.isSome = true ∨ (s.half h).mgmtOutstanding.isSome = true ∨ (s.half h).takesPackets = false) →
            exec (.mgmtPacket address (h.part :: bs)) s = .next s.nackPort)
        ∧ (∀ bs, (s.half h).mgmtLast = some bs → (s.half h).takesPackets = true →
            exec (.mgmtReply address h.part) s = .next (s.answer bs))
        ∧ (∀ bs offset y, bs ≠ [] → bs.length ≤ 4096 → 6 + bs.length ≤ s.maxWrite → (s.half h).takesImage offset = true →
            (s.half h).takeImage h bs = some y →
            exec (.mgmtRecovery address h.part offset bs) s = .next { (s.answer []).setHalf h y with recovHalf := h }))
    ∧ ((s.half h).takesPackets = true → exec (.mgmtPacketEnqueue h) s = .next (s.enqueuePacket h))
    ∧ (∀ g, (s.half h).recovery = some g → (s.half h).boot = .recovery → (s.half h).resetting = false → (s.half h).recovResult = 2 →
        ∃ t, exec (.recoveryImageWritten h) s = .next t ∧ (t.half h).boot = .loader ∧ (t.half h).recovery = none
          ∧ (t.half h).recovResult = 3 ∧ (t.half h).flash.bootFails = 0 ∧ t.half h.other = s.half h.other ∧ t.mem = s.mem)
    ∧ (∀ f y, f.type = 7 → bits f.arg 0 17 = 0xFFFF → s.q.bootSel ≠ 2 → Frame.intact f = true → s.q.takesImage (256 * f.addr) = true →
        s.q.recovery = none → f.data.length < 320 → s.q.takeImage .q f.data = some y →
        exec (.spurRecoveryStream f) s = .next (s.modHalf .q fun _ => y))

/-- BusAndTapCommandsComplete: the common commands of the management bus set and report its address, its lengths and its interrupt enable, and change nothing of
the halves (R508). TRST_N and IDCODE select the identity of the module, BYPASS a zero, and SAMPLE_PRELOAD the pins while it takes
a new value for them; EXTEST, CLAMP and HIGHZ drive pins while MOD_RESET_N is low and are BYPASS otherwise (R513). -/
def Obligations.BusAndTapCommandsComplete : Prop :=
  (∀ (s : State) (address : Nat),
      (s.called address = true →
          exec (.rstdaa address) s = .next { s with dynamicAddress := none }
          ∧ exec (.enec address) s = .next { s with ibiEnabled := true }
          ∧ exec (.disec address) s = .next { s with ibiEnabled := false }
          ∧ (∀ n, n ≤ 4162 → exec (.setmwl address n) s = .next { s with maxWrite := n }
              ∧ exec (.setmrl address n) s = .next { s with maxRead := n })
          ∧ exec (.rstact address 0) s = .next (s.answer [])
          ∧ ∀ a, a ≠ 0 → exec (.rstact address a) s = .next s.nackPort)
      ∧ (s.portLives = true → s.dynamicAddress = none →
          (∀ d, exec (.setdasa staticAddress d) s = .next { s with dynamicAddress := some d })
          ∧ exec .setaasa s = .next { s with dynamicAddress := some staticAddress })
      ∧ (s.addressed address = true →
          (∃ t w, exec (.getstatus address) s = .next t ∧ t.portOut = (twoBytes w).take s.maxRead ∧ t.portNack = false ∧ t.mem = s.mem)
          ∧ (∃ t b, exec (.getbcr address) s = .next t ∧ t.portOut = [b].take s.maxRead ∧ t.portNack = false ∧ t.mem = s.mem)
          ∧ (∃ t b, exec (.getdcr address) s = .next t ∧ t.portOut = [b].take s.maxRead ∧ t.portNack = false ∧ t.mem = s.mem)
          ∧ exec (.getmwl address) s = .next (s.answer (twoBytes s.maxWrite))
          ∧ exec (.getmrl address) s = .next (s.answer (twoBytes s.maxRead))))
    ∧ (∀ s : State, s.portLives = true →
      exec .tapReset s = .next { s with tapInstruction := 1, tapOut := tapId }
      ∧ exec .idcode s = .next { s with tapInstruction := 1, tapOut := tapId }
      ∧ exec .bypass s = .next { s with tapInstruction := 0, tapOut := 0 }
      ∧ (∀ v, ∃ t, exec (.samplePreload v) s = .next t ∧ t.tapInstruction = 2 ∧ t.boundary = v ∧ t.q = s.q ∧ t.k = s.k ∧ t.mem = s.mem)
      ∧ (s.modReset = true →
          exec .extest s = .next { s with tapInstruction := 3, tapOut := s.boundary }
          ∧ exec .clamp s = .next { s with tapInstruction := 4, tapOut := 0 }
          ∧ exec .highz s = .next { s with tapInstruction := 5, tapOut := 0 })
      ∧ (s.modReset = false → ∀ i ∈ [Instr.extest, .clamp, .highz], exec i s = .next { s with tapInstruction := 0, tapOut := 0 }))
end

