-- ==== Sys2Proof/Laws/Memory.lean ====
section
/-! SUPPORT. Laws of the memories: what a byte reads after each operation, and that each keeps the canonical form. -/

namespace Sys2Proof.Machine

variable {α : Type}

/-! ## Sorted tables -/

@[simp] theorem find_put_same (k : Nat) (a : α) (l : List (Nat × α)) : find k (put k a l) = some a := by
  induction l with
  | nil => simp [put, find]
  | cons e rest ih =>
    obtain ⟨j, b⟩ := e
    simp only [put]
    split
    · simp [find]
    · split
      · simp [find]
      · rw [find, if_neg (by omega)]; exact ih

theorem find_put_other {j k : Nat} (h : j ≠ k) (a : α) (l : List (Nat × α)) : find j (put k a l) = find j l := by
  induction l with
  | nil => simp [put, find, Ne.symm h]
  | cons e rest ih =>
    obtain ⟨i, b⟩ := e
    simp only [put]
    split
    · simp [find, Ne.symm h]
    · split
      · subst_vars; simp [find, Ne.symm h]
      · simp [find, ih]

@[simp] theorem find_drop_same (k : Nat) (l : List (Nat × α)) : find k (drop k l) = none := by
  induction l with
  | nil => rfl
  | cons e rest ih =>
    obtain ⟨j, b⟩ := e
    by_cases h : j = k <;> simp [drop, find, h, ih]

theorem find_drop_other {j k : Nat} (h : j ≠ k) (l : List (Nat × α)) : find j (drop k l) = find j l := by
  induction l with
  | nil => rfl
  | cons e rest ih =>
    obtain ⟨i, b⟩ := e
    by_cases hk : i = k
    · subst hk; simp [drop, find, Ne.symm h, ih]
    · simp [drop, find, hk, ih]

@[simp] theorem Table.at_set_same (t : Table) (k v : Nat) : (t.set k v).at k = v := by
  by_cases h : v = 0 <;> simp [Table.set, Table.at, h]

theorem Table.at_set_other {j k : Nat} (h : j ≠ k) (t : Table) (v : Nat) : (t.set k v).at j = t.at j := by
  by_cases hv : v = 0 <;> simp [Table.set, Table.at, hv, find_put_other h, find_drop_other h]

@[simp] theorem Table.at_bump_same (t : Table) (k n : Nat) : (t.bump k n).at k = t.at k + n := by
  simp [Table.bump]

theorem Table.at_bump_other {j k : Nat} (h : j ≠ k) (t : Table) (n : Nat) : (t.bump k n).at j = t.at j := by
  simp [Table.bump, Table.at_set_other h]

theorem mem_put {x : Nat × α} {k : Nat} {a : α} {l : List (Nat × α)} (h : x ∈ put k a l) : x = (k, a) ∨ x ∈ l := by
  induction l with
  | nil => simpa [put] using h
  | cons e rest ih =>
    obtain ⟨j, b⟩ := e
    simp only [put] at h
    split at h
    · simpa using h
    · split at h
      · simp only [List.mem_cons] at h ⊢; tauto
      · simp only [List.mem_cons] at h ⊢
        rcases h with h | h
        · tauto
        · have := ih h; tauto

theorem mem_drop {x : Nat × α} {k : Nat} {l : List (Nat × α)} (h : x ∈ drop k l) : x ∈ l := by
  induction l with
  | nil => exact h
  | cons e rest ih =>
    obtain ⟨j, b⟩ := e
    simp only [drop] at h
    split at h
    · exact List.mem_cons_of_mem _ (ih h)
    · simp only [List.mem_cons] at h ⊢; rcases h with h | h
      · exact .inl h
      · exact .inr (ih h)

/-! ## Rising addresses -/

theorem cellsRise_mono {lo lo' : Nat} (h : lo' ≤ lo) {l : List Host.Cell} (hl : cellsRise lo l) : cellsRise lo' l := by
  cases l with
  | nil => rfl
  | cons e rest =>
    simp only [cellsRise, Bool.and_eq_true, decide_eq_true_eq] at hl ⊢
    exact ⟨by omega, hl.2⟩

theorem cellsRise_put {lo k : Nat} {b : Byte} {l : List Host.Cell} (hk : lo ≤ k) (hl : cellsRise lo l) :
    cellsRise lo (put k b l) := by
  induction l generalizing lo with
  | nil => simpa [put, cellsRise] using hk
  | cons e rest ih =>
    obtain ⟨j, c⟩ := e
    simp only [cellsRise, Bool.and_eq_true, decide_eq_true_eq] at hl
    simp only [put]
    split
    · simp only [cellsRise, Bool.and_eq_true, decide_eq_true_eq]; exact ⟨hk, by omega, hl.2⟩
    · split
      · subst_vars; simp only [cellsRise, Bool.and_eq_true, decide_eq_true_eq]; exact hl
      · simp only [cellsRise, Bool.and_eq_true, decide_eq_true_eq]
        exact ⟨hl.1, ih (by omega) hl.2⟩

theorem cellsRise_drop {lo k : Nat} {l : List Host.Cell} (hl : cellsRise lo l) : cellsRise lo (drop k l) := by
  induction l generalizing lo with
  | nil => rfl
  | cons e rest ih =>
    obtain ⟨j, c⟩ := e
    simp only [cellsRise, Bool.and_eq_true, decide_eq_true_eq] at hl
    simp only [drop]
    split
    · exact cellsRise_mono (by omega) (ih hl.2)
    · simp only [cellsRise, Bool.and_eq_true, decide_eq_true_eq]; exact ⟨hl.1, ih hl.2⟩

theorem cellsRise_filter {lo : Nat} (p : Host.Cell → Bool) {l : List Host.Cell} (hl : cellsRise lo l) :
    cellsRise lo (l.filter p) := by
  induction l generalizing lo with
  | nil => rfl
  | cons e rest ih =>
    obtain ⟨j, c⟩ := e
    simp only [cellsRise, Bool.and_eq_true, decide_eq_true_eq] at hl
    simp only [List.filter]
    split
    · simp only [cellsRise, Bool.and_eq_true, decide_eq_true_eq]; exact ⟨hl.1, ih hl.2⟩
    · exact cellsRise_mono (by omega) (ih hl.2)

/-! ## Single bytes -/

@[simp] theorem Mem.unlisted_setByte (m : Mem) (a : Nat) (b : Byte) (i : Nat) : (m.setByte a b).unlisted i = m.unlisted i := rfl

@[simp] theorem Mem.byte_setByte_same (m : Mem) (a : Nat) (b : Byte) : (m.setByte a b).byte a = b := by
  by_cases h : b = m.unlisted a <;> (simp [Mem.byte, Mem.setByte, h]; try simp [Mem.unlisted])

theorem Mem.byte_setByte_other {a i : Nat} (h : i ≠ a) (m : Mem) (b : Byte) : (m.setByte a b).byte i = m.byte i := by
  rw [Mem.byte, Mem.byte, Mem.unlisted_setByte]
  by_cases hb : b = m.unlisted a <;> simp [Mem.setByte, hb, find_put_other h, find_drop_other h]

theorem Mem.wf_iff (m : Mem) : m.wf = true ↔ cellsRise 0 m.cells = true ∧ ∀ c ∈ m.cells, c.2 ≠ m.unlisted c.1 := by
  simp [Mem.wf]

theorem Mem.setByte_wf {m : Mem} (a : Nat) (b : Byte) (h : m.wf) : (m.setByte a b).wf := by
  rw [Mem.wf_iff] at h ⊢
  by_cases hb : b = m.unlisted a
  · refine ⟨by simpa [Mem.setByte, hb] using cellsRise_drop h.1, fun c hc => ?_⟩
    rw [Mem.unlisted_setByte]
    exact h.2 c (mem_drop (by simpa [Mem.setByte, hb] using hc))
  · refine ⟨by simpa [Mem.setByte, hb] using cellsRise_put (Nat.zero_le a) h.1, fun c hc => ?_⟩
    rw [Mem.unlisted_setByte]
    rcases mem_put (by simpa [Mem.setByte, hb] using hc) with rfl | hc
    · exact hb
    · exact h.2 c hc

/-! ## Runs of bytes -/

theorem Mem.write_wf {m : Mem} (a : Nat) (bs : List Nat) (h : m.wf) : (m.write a bs).wf := by
  induction bs generalizing m a with
  | nil => exact h
  | cons b bs ih => exact ih (a + 1) (Mem.setByte_wf a _ h)

/-- A write leaves every byte outside its range alone. -/
theorem Mem.byte_write_outside {m : Mem} {a i : Nat} {bs : List Nat} (h : i < a ∨ a + bs.length ≤ i) :
    (m.write a bs).byte i = m.byte i := by
  induction bs generalizing m a with
  | nil => rfl
  | cons b bs ih =>
    rw [Mem.write, ih (by simp at h; omega), Mem.byte_setByte_other (by simp at h; omega)]

/-- A write leaves the bytes it is given. -/
theorem Mem.byte_write_inside {m : Mem} {a i : Nat} {bs : List Nat} (h : i < bs.length) :
    (m.write a bs).byte (a + i) = BitVec.ofNat 8 bs[i] := by
  induction bs generalizing m a i with
  | nil => simp at h
  | cons b bs ih =>
    cases i with
    | zero => rw [Mem.write, Mem.byte_write_outside (by simp)]; simp
    | succ i => rw [Mem.write, show a + (i + 1) = a + 1 + i by omega, ih (by simpa using h)]; simp

/-- What is written is read back. -/
theorem Mem.bytes_write_same (m : Mem) (a : Nat) (bs : List Nat) :
    (m.write a bs).bytes a bs.length = bs.map (· % 256) := by
  induction bs generalizing m a with
  | nil => rfl
  | cons b bs ih =>
    simp only [List.length_cons, Mem.bytes, Mem.write, List.map_cons, ih]
    rw [Mem.byte_write_outside (by simp)]
    simp

@[simp] theorem Mem.write_veils (m : Mem) (a : Nat) (bs : List Nat) : (m.write a bs).veils = m.veils := by
  induction bs generalizing m a with
  | nil => rfl
  | cons b bs ih => rw [Mem.write, ih]; rfl

@[simp] theorem Mem.write_badBlocks (m : Mem) (a : Nat) (bs : List Nat) : (m.write a bs).badBlocks = m.badBlocks := by
  induction bs generalizing m a with
  | nil => rfl
  | cons b bs ih => rw [Mem.write, ih]; rfl

@[simp] theorem Mem.write_badLines (m : Mem) (a : Nat) (bs : List Nat) : (m.write a bs).badLines = m.badLines := by
  induction bs generalizing m a with
  | nil => rfl
  | cons b bs ih => rw [Mem.write, ih]; rfl

/-- Marks of damage are no part of the canonical form. -/
@[simp] theorem Mem.wf_badBlocks (m : Mem) (l : List Nat) : ({ m with badBlocks := l } : Mem).wf = m.wf := rfl
@[simp] theorem Mem.wf_badEcc (m : Mem) (l : List Nat) : ({ m with badEcc := l } : Mem).wf = m.wf := rfl
@[simp] theorem Mem.wf_badLines (m : Mem) (l : List Nat) : ({ m with badLines := l } : Mem).wf = m.wf := rfl
@[simp] theorem Mem.mend_wf (m : Mem) (bs : List Nat) : (m.mend bs).wf = m.wf := rfl
@[simp] theorem Mem.byte_mend (m : Mem) (bs : List Nat) (i : Nat) : (m.mend bs).byte i = m.byte i := rfl

theorem Mem.writeBlock_wf {m : Mem} (b : Nat) (bs : List Nat) (h : m.wf) : (m.writeBlock b bs).wf :=
  (Mem.mend_wf _ _).trans (Mem.write_wf _ _ h)

theorem Mem.writeAll_wf {m : Mem} (ws : List (Nat × List Nat)) (h : m.wf) : (ws.foldl (fun n w => n.write w.1 w.2) m).wf := by
  induction ws generalizing m with
  | nil => exact h
  | cons w ws ih => exact ih (Mem.write_wf _ _ h)

/-- Writes outside the run of an engine keep the canonical form. -/
theorem Mem.putAll_wf {m n : Mem} {ws : List (Nat × List Nat)} (e : m.putAll ws = .ok n) (h : m.wf) : n.wf := by
  simp only [Mem.putAll] at e
  split at e
  · cases e
  · cases e; simpa using Mem.writeAll_wf ws h

theorem Mem.putPart_wf {m : Mem} (a : Nat) (bs : List Nat) (ok : Bool) (h : m.wf) : (m.putPart a bs ok).wf := by
  unfold Mem.putPart
  split
  · exact Mem.write_wf _ _ h
  · split
    · simpa using Mem.write_wf a bs h
    · exact (Mem.wf_badBlocks _ _).trans (by simpa using Mem.write_wf a bs h)

theorem Mem.putBack_wf {m : Mem} (old : Mem) (a n : Nat) (h : m.wf) : (m.putBack old a n).wf := by
  unfold Mem.putBack
  split
  · exact Mem.write_wf _ _ h
  · exact Mem.write_wf a _ h

/-! ## Wellhead lines over memory (R303, R305) -/

theorem WhLine.over_wf {m : Mem} (l : WhLine) (h : m.wf) : (l.over m).wf := by
  unfold WhLine.over
  generalize l.parts = ps
  induction ps generalizing m with
  | nil => exact h
  | cons p ps ih => exact ih (Mem.putPart_wf _ _ _ h)

/-- What every requester reads is in canonical form when the memories are. -/
theorem State.view_wf {s : State} (h : s.mem.wf) : s.view.wf := by
  unfold State.view
  generalize s.lines = ls
  revert h
  generalize s.mem = m
  intro h
  induction ls generalizing m with
  | nil => exact h
  | cons l ls ih => exact ih _ (WhLine.over_wf l h)

theorem Mem.putBacks_wf {m : Mem} (old : Mem) (ps : List (Nat × Nat)) (h : m.wf) :
    (ps.foldl (fun m p => m.putBack old p.1 p.2) m).wf := by
  induction ps generalizing m with
  | nil => exact h
  | cons p ps ih => exact ih (Mem.putBack_wf _ _ _ h)

/-- A write of memory keeps the canonical form. -/
theorem State.commit_wf (s : State) {new : Mem} (h : new.wf) : (s.commit new).mem.wf := by
  show (s.lines.foldl (fun m l => l.places.foldl (fun m p => m.putBack s.mem p.1 p.2) m) new).wf
  generalize s.lines = ls
  induction ls generalizing new with
  | nil => exact h
  | cons l ls ih => exact ih (Mem.putBacks_wf _ _ h)

/-- Without a line in any Wellhead requesters read the memories themselves. -/
theorem State.view_of_no_lines {s : State} (h : s.lines = []) : s.view = s.mem := by simp [State.view, h]

/-- Without a line in any Wellhead what is written goes to the memories. -/
theorem State.commit_mem_of_no_lines {s : State} (h : s.lines = []) (new : Mem) : (s.commit new).mem = new := by
  simp [State.commit, h]

@[simp] theorem State.commit_pending (s : State) (new : Mem) : (s.commit new).pending = s.pending := rfl
@[simp] theorem State.commit_drawnFree (s : State) (new : Mem) : (s.commit new).drawnFree = s.drawnFree := rfl

/-! ## Clearing and veiling -/

/-- The veil that governs an address. -/
def Mem.veilAt (vs : List Veil) (a : Nat) : Option Nat :=
  (vs.find? fun v => v.lo ≤ a && a < v.hi).map (·.stamp)

theorem Mem.unlisted_eq (m : Mem) (a : Nat) :
    m.unlisted a = match Mem.veilAt m.veils a with | some n => Config.freeByte n a | none => 0 := by
  simp only [Mem.unlisted, Mem.veilAt]
  cases m.veils.find? fun v => v.lo ≤ a && a < v.hi <;> rfl

theorem Mem.clear_unlisted_outside {m : Mem} {lo hi a : Nat} (h : a < lo ∨ hi ≤ a) : (m.clear lo hi).unlisted a = m.unlisted a := by
  rw [Mem.unlisted_eq, Mem.unlisted_eq]
  suffices hv : Mem.veilAt (m.clear lo hi).veils a = Mem.veilAt m.veils a by rw [hv]
  simp only [Mem.clear]
  induction m.veils with
  | nil => rfl
  | cons v vs ih =>
    simp only [Mem.veilAt, List.flatMap_cons, List.find?_append, List.find?_cons] at ih ⊢
    by_cases hv : v.lo < hi && lo < v.hi
    · by_cases hin : v.lo ≤ a && a < v.hi
      · simp only [hv, if_true, hin, Option.map_some]
        simp only [Bool.and_eq_true, decide_eq_true_eq] at hv hin
        rcases h with h | h
        · simp [show v.lo < lo by omega, show v.lo ≤ a by omega, h]
        · simp [show hi < v.hi by omega, h, hin.2, List.find?_append]
          by_cases hl : v.lo < lo
          · simp only [hl, if_true, List.find?_singleton]
            split <;> rfl
          · simp [hl]
      · simp only [hv, if_true, hin]
        simp only [Bool.and_eq_true, decide_eq_true_eq, not_and, not_lt] at hv hin
        rw [← ih]
        congr 1
        have h1 : (List.find? (fun w => decide (w.lo ≤ a) && decide (a < w.hi))
            ((if v.lo < lo then [{ v with hi := lo }] else []) ++ (if hi < v.hi then [{ v with lo := hi }] else []))) = none := by
          rw [List.find?_eq_none]
          intro w hw
          simp only [List.mem_append] at hw
          rcases hw with hw | hw
          · split at hw
            · simp at hw; subst hw; simp; omega
            · simp at hw
          · split at hw
            · simp at hw; subst hw; simp; omega
            · simp at hw
        rw [h1]; rfl
    · simp only [hv]
      by_cases hin : v.lo ≤ a && a < v.hi
      · simp [hin]
      · simp only [Bool.not_eq_true] at hin
        simp only [List.find?_cons, hin, List.find?_nil, Bool.false_eq_true, if_false, Option.none_or]
        exact ih

theorem Mem.clear_wf {m : Mem} (lo hi : Nat) (h : m.wf) : (m.clear lo hi).wf := by
  rw [Mem.wf_iff] at h ⊢
  refine ⟨cellsRise_filter _ h.1, fun c hc => ?_⟩
  simp only [Mem.clear, List.mem_filter, Bool.not_eq_true', Bool.and_eq_false_iff, decide_eq_false_iff_not] at hc
  rw [Mem.clear_unlisted_outside (by omega)]
  exact h.2 c hc.1

/-- The veil on top of a memory governs its own range only. -/
theorem Mem.veil_unlisted_outside {m : Mem} {lo hi a stamp : Nat} (h : a < lo ∨ hi ≤ a) :
    (m.veil lo hi stamp).unlisted a = m.unlisted a := by
  rw [← Mem.clear_unlisted_outside (m := m) h]
  simp only [Mem.veil, Mem.unlisted, List.find?_cons]
  have : (decide (lo ≤ a) && decide (a < hi)) = false := by simp; omega
  simp [this]

theorem Mem.veil_wf {m : Mem} (lo hi stamp : Nat) (h : m.wf) : (m.veil lo hi stamp).wf := by
  have hc := Mem.clear_wf lo hi h
  rw [Mem.wf_iff] at hc ⊢
  refine ⟨hc.1, fun c hm => ?_⟩
  have hm' : c ∈ (m.clear lo hi).cells := hm
  simp only [Mem.clear, List.mem_filter, Bool.not_eq_true', Bool.and_eq_false_iff, decide_eq_false_iff_not] at hm'
  rw [Mem.veil_unlisted_outside (by omega), ← Mem.clear_unlisted_outside (m := m) (lo := lo) (hi := hi) (by omega)]
  exact hc.2 c hm

theorem find_filter_key {p : Nat → Bool} {k : Nat} (l : List (Nat × α)) (h : p k = true) :
    find k (l.filter fun e => p e.1) = find k l := by
  induction l with
  | nil => rfl
  | cons e rest ih =>
    obtain ⟨j, b⟩ := e
    by_cases hj : j = k
    · subst hj; simp [List.filter, h, find]
    · by_cases hp : p j <;> simp [List.filter, hp, find, hj, ih]

/-- Clearing a range leaves every byte outside it alone. -/
theorem Mem.byte_clear_outside {m : Mem} {lo hi a : Nat} (h : a < lo ∨ hi ≤ a) : (m.clear lo hi).byte a = m.byte a := by
  rw [Mem.byte, Mem.byte, Mem.clear_unlisted_outside h]
  congr 1
  exact find_filter_key (p := fun k => !(decide (lo ≤ k) && decide (k < hi))) m.cells (by simp; omega)

theorem Mem.byte_veil_outside {m : Mem} {lo hi a stamp : Nat} (h : a < lo ∨ hi ≤ a) :
    (m.veil lo hi stamp).byte a = m.byte a := by
  rw [← Mem.byte_clear_outside (m := m) h, Mem.byte, Mem.byte, Mem.veil_unlisted_outside h, Mem.clear_unlisted_outside h]
  rfl

theorem find_filter_none {p : Nat → Bool} {k : Nat} (l : List (Nat × α)) (h : p k = false) :
    find k (l.filter fun e => p e.1) = none := by
  induction l with
  | nil => rfl
  | cons e rest ih =>
    obtain ⟨j, b⟩ := e
    by_cases hj : j = k
    · subst hj; simp [List.filter, h, ih]
    · by_cases hp : p j <;> simp [List.filter, hp, find, hj, ih]

/-- A cleared range reads as zero (R99, R134). -/
theorem Mem.byte_clear_inside {m : Mem} {lo hi a : Nat} (h : lo ≤ a ∧ a < hi) : (m.clear lo hi).byte a = 0 := by
  have hc : find a (m.clear lo hi).cells = none :=
    find_filter_none (p := fun k => !(decide (lo ≤ k) && decide (k < hi))) m.cells (by simp; omega)
  have hv : Mem.veilAt (m.clear lo hi).veils a = none := by
    simp only [Mem.veilAt, Option.map_eq_none_iff, List.find?_eq_none, Mem.clear, List.mem_flatMap]
    rintro w ⟨v, -, hw⟩
    split at hw
    · simp only [List.mem_append] at hw
      rcases hw with hw | hw <;> split at hw <;> simp at hw <;> subst hw <;> simp <;> omega
    · rename_i hv
      simp at hw; subst hw
      simp only [Bool.and_eq_true, decide_eq_true_eq, not_and, not_lt] at hv ⊢
      omega
  rw [Mem.byte, hc, Mem.unlisted_eq, hv]; rfl

end Sys2Proof.Machine
end

