-- ==== Sys2Proof/Laws/State.lean ====
section
/-! SUPPORT. What each update of the state leaves alone, field by field, so that no proof unfolds a record update. -/

namespace Sys2Proof.Machine

@[simp] theorem Half.other_other (h : Half) : h.other.other = h := by cases h <;> rfl
@[simp] theorem Half.other_ne (h : Half) : (h.other = h) = False := by cases h <;> simp [Half.other]
@[simp] theorem Half.ne_other (h : Half) : (h = h.other) = False := by cases h <;> simp [Half.other]

/-! ## One half replaced -/

@[simp] theorem State.half_q (s : State) : s.half .q = s.q := rfl
@[simp] theorem State.half_k (s : State) : s.half .k = s.k := rfl
@[simp] theorem State.setHalf_half (s : State) (h : Half) (x : HalfState) : (s.setHalf h x).half h = x := by cases h <;> rfl
@[simp] theorem State.setHalf_other (s : State) (h : Half) (x : HalfState) : (s.setHalf h x).half h.other = s.half h.other := by
  cases h <;> rfl
@[simp] theorem State.setHalf_setHalf (s : State) (h : Half) (x y : HalfState) : (s.setHalf h x).setHalf h y = s.setHalf h y := by
  cases h <;> rfl
@[simp] theorem State.modHalf_half (s : State) (h : Half) (f : HalfState → HalfState) : (s.modHalf h f).half h = f (s.half h) := by
  cases h <;> rfl
@[simp] theorem State.modHalf_other (s : State) (h : Half) (f : HalfState → HalfState) :
    (s.modHalf h f).half h.other = s.half h.other := by cases h <;> rfl

@[simp] theorem State.setHalf_mem (s : State) (h : Half) (x : HalfState) : (s.setHalf h x).mem = s.mem := by cases h <;> rfl
@[simp] theorem State.setHalf_siphon (s : State) (h : Half) (x : HalfState) : (s.setHalf h x).siphon = s.siphon := by cases h <;> rfl
@[simp] theorem State.setHalf_lanesRepaired (s : State) (h : Half) (x : HalfState) : (s.setHalf h x).lanesRepaired = s.lanesRepaired := by cases h <;> rfl
@[simp] theorem State.setHalf_siphonBy (s : State) (h : Half) (x : HalfState) : (s.setHalf h x).siphonBy = s.siphonBy := by cases h <;> rfl
@[simp] theorem State.setHalf_switch (s : State) (h : Half) (x : HalfState) : (s.setHalf h x).switch = s.switch := by cases h <;> rfl
@[simp] theorem State.setHalf_nextId (s : State) (h : Half) (x : HalfState) : (s.setHalf h x).nextId = s.nextId := by cases h <;> rfl
@[simp] theorem State.setHalf_drawnFree (s : State) (h : Half) (x : HalfState) : (s.setHalf h x).drawnFree = s.drawnFree := by cases h <;> rfl
@[simp] theorem State.setHalf_pwrEn (s : State) (h : Half) (x : HalfState) : (s.setHalf h x).pwrEn = s.pwrEn := by cases h <;> rfl
@[simp] theorem State.setHalf_starting (s : State) (h : Half) (x : HalfState) : (s.setHalf h x).starting = s.starting := by cases h <;> rfl
@[simp] theorem State.setHalf_pgood (s : State) (h : Half) (x : HalfState) : (s.setHalf h x).pgood = s.pgood := by cases h <;> rfl
@[simp] theorem State.setHalf_thermTrip (s : State) (h : Half) (x : HalfState) : (s.setHalf h x).thermTrip = s.thermTrip := by cases h <;> rfl
@[simp] theorem State.setHalf_tripped (s : State) (h : Half) (x : HalfState) : (s.setHalf h x).tripped = s.tripped := by cases h <;> rfl
@[simp] theorem State.setHalf_halfResetQ (s : State) (h : Half) (x : HalfState) : (s.setHalf h x).halfResetQ = s.halfResetQ := by cases h <;> rfl
@[simp] theorem State.setHalf_halfResetK (s : State) (h : Half) (x : HalfState) : (s.setHalf h x).halfResetK = s.halfResetK := by cases h <;> rfl
@[simp] theorem State.setHalf_modReset (s : State) (h : Half) (x : HalfState) : (s.setHalf h x).modReset = s.modReset := by cases h <;> rfl
@[simp] theorem State.setHalf_railFail (s : State) (h : Half) (x : HalfState) : (s.setHalf h x).railFail = s.railFail := by cases h <;> rfl
@[simp] theorem State.setHalf_holdoff (s : State) (h : Half) (x : HalfState) : (s.setHalf h x).holdoff = s.holdoff := by cases h <;> rfl
@[simp] theorem State.setHalf_powerFailed (s : State) (h : Half) (x : HalfState) : (s.setHalf h x).powerFailed = s.powerFailed := by cases h <;> rfl
@[simp] theorem State.setHalf_hotDies (s : State) (h : Half) (x : HalfState) : (s.setHalf h x).hotDies = s.hotDies := by cases h <;> rfl
@[simp] theorem State.setHalf_staging (s : State) (h : Half) (x : HalfState) : (s.setHalf h x).staging = s.staging := by cases h <;> rfl
@[simp] theorem State.setHalf_writing (s : State) (h : Half) (x : HalfState) : (s.setHalf h x).writing = s.writing := by cases h <;> rfl
@[simp] theorem State.setHalf_settingsStaging (s : State) (h : Half) (x : HalfState) : (s.setHalf h x).settingsStaging = s.settingsStaging := by cases h <;> rfl
@[simp] theorem State.setHalf_dynamicAddress (s : State) (h : Half) (x : HalfState) : (s.setHalf h x).dynamicAddress = s.dynamicAddress := by cases h <;> rfl
@[simp] theorem State.setHalf_ibiEnabled (s : State) (h : Half) (x : HalfState) : (s.setHalf h x).ibiEnabled = s.ibiEnabled := by cases h <;> rfl
@[simp] theorem State.setHalf_maxWrite (s : State) (h : Half) (x : HalfState) : (s.setHalf h x).maxWrite = s.maxWrite := by cases h <;> rfl
@[simp] theorem State.setHalf_maxRead (s : State) (h : Half) (x : HalfState) : (s.setHalf h x).maxRead = s.maxRead := by cases h <;> rfl
@[simp] theorem State.setHalf_portOut (s : State) (h : Half) (x : HalfState) : (s.setHalf h x).portOut = s.portOut := by cases h <;> rfl
@[simp] theorem State.setHalf_portNack (s : State) (h : Half) (x : HalfState) : (s.setHalf h x).portNack = s.portNack := by cases h <;> rfl
@[simp] theorem State.setHalf_ibi (s : State) (h : Half) (x : HalfState) : (s.setHalf h x).ibi = s.ibi := by cases h <;> rfl
@[simp] theorem State.setHalf_recovHalf (s : State) (h : Half) (x : HalfState) : (s.setHalf h x).recovHalf = s.recovHalf := by cases h <;> rfl
@[simp] theorem State.setHalf_tapInstruction (s : State) (h : Half) (x : HalfState) : (s.setHalf h x).tapInstruction = s.tapInstruction := by cases h <;> rfl
@[simp] theorem State.setHalf_tapOut (s : State) (h : Half) (x : HalfState) : (s.setHalf h x).tapOut = s.tapOut := by cases h <;> rfl
@[simp] theorem State.setHalf_boundary (s : State) (h : Half) (x : HalfState) : (s.setHalf h x).boundary = s.boundary := by cases h <;> rfl
@[simp] theorem State.setHalf_pending (s : State) (h : Half) (x : HalfState) : (s.setHalf h x).pending = s.pending := by cases h <;> rfl
@[simp] theorem State.modHalf_mem (s : State) (h : Half) (f : HalfState → HalfState) : (s.modHalf h f).mem = s.mem := by
  cases h <;> rfl
@[simp] theorem State.modHalf_siphon (s : State) (h : Half) (f : HalfState → HalfState) : (s.modHalf h f).siphon = s.siphon := by
  cases h <;> rfl
@[simp] theorem State.modHalf_lanesRepaired (s : State) (h : Half) (f : HalfState → HalfState) : (s.modHalf h f).lanesRepaired = s.lanesRepaired := by
  cases h <;> rfl
@[simp] theorem State.modHalf_siphonBy (s : State) (h : Half) (f : HalfState → HalfState) : (s.modHalf h f).siphonBy = s.siphonBy := by
  cases h <;> rfl
@[simp] theorem State.modHalf_switch (s : State) (h : Half) (f : HalfState → HalfState) : (s.modHalf h f).switch = s.switch := by
  cases h <;> rfl
@[simp] theorem State.modHalf_nextId (s : State) (h : Half) (f : HalfState → HalfState) : (s.modHalf h f).nextId = s.nextId := by
  cases h <;> rfl
@[simp] theorem State.modHalf_drawnFree (s : State) (h : Half) (f : HalfState → HalfState) : (s.modHalf h f).drawnFree = s.drawnFree := by
  cases h <;> rfl
@[simp] theorem State.modHalf_pwrEn (s : State) (h : Half) (f : HalfState → HalfState) : (s.modHalf h f).pwrEn = s.pwrEn := by
  cases h <;> rfl
@[simp] theorem State.modHalf_starting (s : State) (h : Half) (f : HalfState → HalfState) : (s.modHalf h f).starting = s.starting := by
  cases h <;> rfl
@[simp] theorem State.modHalf_pgood (s : State) (h : Half) (f : HalfState → HalfState) : (s.modHalf h f).pgood = s.pgood := by
  cases h <;> rfl
@[simp] theorem State.modHalf_thermTrip (s : State) (h : Half) (f : HalfState → HalfState) : (s.modHalf h f).thermTrip = s.thermTrip := by
  cases h <;> rfl
@[simp] theorem State.modHalf_tripped (s : State) (h : Half) (f : HalfState → HalfState) : (s.modHalf h f).tripped = s.tripped := by
  cases h <;> rfl
@[simp] theorem State.modHalf_halfResetQ (s : State) (h : Half) (f : HalfState → HalfState) : (s.modHalf h f).halfResetQ = s.halfResetQ := by
  cases h <;> rfl
@[simp] theorem State.modHalf_halfResetK (s : State) (h : Half) (f : HalfState → HalfState) : (s.modHalf h f).halfResetK = s.halfResetK := by
  cases h <;> rfl
@[simp] theorem State.modHalf_modReset (s : State) (h : Half) (f : HalfState → HalfState) : (s.modHalf h f).modReset = s.modReset := by
  cases h <;> rfl
@[simp] theorem State.modHalf_railFail (s : State) (h : Half) (f : HalfState → HalfState) : (s.modHalf h f).railFail = s.railFail := by
  cases h <;> rfl
@[simp] theorem State.modHalf_holdoff (s : State) (h : Half) (f : HalfState → HalfState) : (s.modHalf h f).holdoff = s.holdoff := by
  cases h <;> rfl
@[simp] theorem State.modHalf_powerFailed (s : State) (h : Half) (f : HalfState → HalfState) : (s.modHalf h f).powerFailed = s.powerFailed := by
  cases h <;> rfl
@[simp] theorem State.modHalf_hotDies (s : State) (h : Half) (f : HalfState → HalfState) : (s.modHalf h f).hotDies = s.hotDies := by
  cases h <;> rfl
@[simp] theorem State.modHalf_staging (s : State) (h : Half) (f : HalfState → HalfState) : (s.modHalf h f).staging = s.staging := by
  cases h <;> rfl
@[simp] theorem State.modHalf_writing (s : State) (h : Half) (f : HalfState → HalfState) : (s.modHalf h f).writing = s.writing := by
  cases h <;> rfl
@[simp] theorem State.modHalf_settingsStaging (s : State) (h : Half) (f : HalfState → HalfState) : (s.modHalf h f).settingsStaging = s.settingsStaging := by
  cases h <;> rfl
@[simp] theorem State.modHalf_dynamicAddress (s : State) (h : Half) (f : HalfState → HalfState) : (s.modHalf h f).dynamicAddress = s.dynamicAddress := by
  cases h <;> rfl
@[simp] theorem State.modHalf_ibiEnabled (s : State) (h : Half) (f : HalfState → HalfState) : (s.modHalf h f).ibiEnabled = s.ibiEnabled := by
  cases h <;> rfl
@[simp] theorem State.modHalf_maxWrite (s : State) (h : Half) (f : HalfState → HalfState) : (s.modHalf h f).maxWrite = s.maxWrite := by
  cases h <;> rfl
@[simp] theorem State.modHalf_maxRead (s : State) (h : Half) (f : HalfState → HalfState) : (s.modHalf h f).maxRead = s.maxRead := by
  cases h <;> rfl
@[simp] theorem State.modHalf_portOut (s : State) (h : Half) (f : HalfState → HalfState) : (s.modHalf h f).portOut = s.portOut := by
  cases h <;> rfl
@[simp] theorem State.modHalf_portNack (s : State) (h : Half) (f : HalfState → HalfState) : (s.modHalf h f).portNack = s.portNack := by
  cases h <;> rfl
@[simp] theorem State.modHalf_ibi (s : State) (h : Half) (f : HalfState → HalfState) : (s.modHalf h f).ibi = s.ibi := by
  cases h <;> rfl
@[simp] theorem State.modHalf_recovHalf (s : State) (h : Half) (f : HalfState → HalfState) : (s.modHalf h f).recovHalf = s.recovHalf := by
  cases h <;> rfl
@[simp] theorem State.modHalf_tapInstruction (s : State) (h : Half) (f : HalfState → HalfState) : (s.modHalf h f).tapInstruction = s.tapInstruction := by
  cases h <;> rfl
@[simp] theorem State.modHalf_tapOut (s : State) (h : Half) (f : HalfState → HalfState) : (s.modHalf h f).tapOut = s.tapOut := by
  cases h <;> rfl
@[simp] theorem State.modHalf_boundary (s : State) (h : Half) (f : HalfState → HalfState) : (s.modHalf h f).boundary = s.boundary := by
  cases h <;> rfl
@[simp] theorem State.modHalf_pending (s : State) (h : Half) (f : HalfState → HalfState) : (s.modHalf h f).pending = s.pending := by
  cases h <;> rfl

/-! ## A command replaced, a gate written: one field of one half -/

@[simp] theorem State.setCmd_mem (s : State) (h : Half) (c : Cmd) : (s.setCmd h c).mem = s.mem := s.modHalf_mem h _
@[simp] theorem State.setCmd_siphon (s : State) (h : Half) (c : Cmd) : (s.setCmd h c).siphon = s.siphon := s.modHalf_siphon h _
@[simp] theorem State.setCmd_lanesRepaired (s : State) (h : Half) (c : Cmd) : (s.setCmd h c).lanesRepaired = s.lanesRepaired := s.modHalf_lanesRepaired h _
@[simp] theorem State.setCmd_siphonBy (s : State) (h : Half) (c : Cmd) : (s.setCmd h c).siphonBy = s.siphonBy := s.modHalf_siphonBy h _
@[simp] theorem State.setCmd_switch (s : State) (h : Half) (c : Cmd) : (s.setCmd h c).switch = s.switch := s.modHalf_switch h _
@[simp] theorem State.setCmd_nextId (s : State) (h : Half) (c : Cmd) : (s.setCmd h c).nextId = s.nextId := s.modHalf_nextId h _
@[simp] theorem State.setCmd_drawnFree (s : State) (h : Half) (c : Cmd) : (s.setCmd h c).drawnFree = s.drawnFree := s.modHalf_drawnFree h _
@[simp] theorem State.setCmd_pwrEn (s : State) (h : Half) (c : Cmd) : (s.setCmd h c).pwrEn = s.pwrEn := s.modHalf_pwrEn h _
@[simp] theorem State.setCmd_starting (s : State) (h : Half) (c : Cmd) : (s.setCmd h c).starting = s.starting := s.modHalf_starting h _
@[simp] theorem State.setCmd_pgood (s : State) (h : Half) (c : Cmd) : (s.setCmd h c).pgood = s.pgood := s.modHalf_pgood h _
@[simp] theorem State.setCmd_thermTrip (s : State) (h : Half) (c : Cmd) : (s.setCmd h c).thermTrip = s.thermTrip := s.modHalf_thermTrip h _
@[simp] theorem State.setCmd_tripped (s : State) (h : Half) (c : Cmd) : (s.setCmd h c).tripped = s.tripped := s.modHalf_tripped h _
@[simp] theorem State.setCmd_halfResetQ (s : State) (h : Half) (c : Cmd) : (s.setCmd h c).halfResetQ = s.halfResetQ := s.modHalf_halfResetQ h _
@[simp] theorem State.setCmd_halfResetK (s : State) (h : Half) (c : Cmd) : (s.setCmd h c).halfResetK = s.halfResetK := s.modHalf_halfResetK h _
@[simp] theorem State.setCmd_modReset (s : State) (h : Half) (c : Cmd) : (s.setCmd h c).modReset = s.modReset := s.modHalf_modReset h _
@[simp] theorem State.setCmd_railFail (s : State) (h : Half) (c : Cmd) : (s.setCmd h c).railFail = s.railFail := s.modHalf_railFail h _
@[simp] theorem State.setCmd_holdoff (s : State) (h : Half) (c : Cmd) : (s.setCmd h c).holdoff = s.holdoff := s.modHalf_holdoff h _
@[simp] theorem State.setCmd_powerFailed (s : State) (h : Half) (c : Cmd) : (s.setCmd h c).powerFailed = s.powerFailed := s.modHalf_powerFailed h _
@[simp] theorem State.setCmd_hotDies (s : State) (h : Half) (c : Cmd) : (s.setCmd h c).hotDies = s.hotDies := s.modHalf_hotDies h _
@[simp] theorem State.setCmd_staging (s : State) (h : Half) (c : Cmd) : (s.setCmd h c).staging = s.staging := s.modHalf_staging h _
@[simp] theorem State.setCmd_writing (s : State) (h : Half) (c : Cmd) : (s.setCmd h c).writing = s.writing := s.modHalf_writing h _
@[simp] theorem State.setCmd_settingsStaging (s : State) (h : Half) (c : Cmd) : (s.setCmd h c).settingsStaging = s.settingsStaging := s.modHalf_settingsStaging h _
@[simp] theorem State.setCmd_dynamicAddress (s : State) (h : Half) (c : Cmd) : (s.setCmd h c).dynamicAddress = s.dynamicAddress := s.modHalf_dynamicAddress h _
@[simp] theorem State.setCmd_ibiEnabled (s : State) (h : Half) (c : Cmd) : (s.setCmd h c).ibiEnabled = s.ibiEnabled := s.modHalf_ibiEnabled h _
@[simp] theorem State.setCmd_maxWrite (s : State) (h : Half) (c : Cmd) : (s.setCmd h c).maxWrite = s.maxWrite := s.modHalf_maxWrite h _
@[simp] theorem State.setCmd_maxRead (s : State) (h : Half) (c : Cmd) : (s.setCmd h c).maxRead = s.maxRead := s.modHalf_maxRead h _
@[simp] theorem State.setCmd_portOut (s : State) (h : Half) (c : Cmd) : (s.setCmd h c).portOut = s.portOut := s.modHalf_portOut h _
@[simp] theorem State.setCmd_portNack (s : State) (h : Half) (c : Cmd) : (s.setCmd h c).portNack = s.portNack := s.modHalf_portNack h _
@[simp] theorem State.setCmd_ibi (s : State) (h : Half) (c : Cmd) : (s.setCmd h c).ibi = s.ibi := s.modHalf_ibi h _
@[simp] theorem State.setCmd_recovHalf (s : State) (h : Half) (c : Cmd) : (s.setCmd h c).recovHalf = s.recovHalf := s.modHalf_recovHalf h _
@[simp] theorem State.setCmd_tapInstruction (s : State) (h : Half) (c : Cmd) : (s.setCmd h c).tapInstruction = s.tapInstruction := s.modHalf_tapInstruction h _
@[simp] theorem State.setCmd_tapOut (s : State) (h : Half) (c : Cmd) : (s.setCmd h c).tapOut = s.tapOut := s.modHalf_tapOut h _
@[simp] theorem State.setCmd_boundary (s : State) (h : Half) (c : Cmd) : (s.setCmd h c).boundary = s.boundary := s.modHalf_boundary h _
@[simp] theorem State.setCmd_pending (s : State) (h : Half) (c : Cmd) : (s.setCmd h c).pending = s.pending := s.modHalf_pending h _
@[simp] theorem State.finish_mem (s : State) (h : Half) (c : Cmd) (r : Result) : (s.finish h c r).mem = s.mem :=
  s.setCmd_mem h _
@[simp] theorem State.finish_siphon (s : State) (h : Half) (c : Cmd) (r : Result) : (s.finish h c r).siphon = s.siphon :=
  s.setCmd_siphon h _
@[simp] theorem State.finish_lanesRepaired (s : State) (h : Half) (c : Cmd) (r : Result) : (s.finish h c r).lanesRepaired = s.lanesRepaired :=
  s.setCmd_lanesRepaired h _
@[simp] theorem State.finish_siphonBy (s : State) (h : Half) (c : Cmd) (r : Result) : (s.finish h c r).siphonBy = s.siphonBy :=
  s.setCmd_siphonBy h _
@[simp] theorem State.finish_switch (s : State) (h : Half) (c : Cmd) (r : Result) : (s.finish h c r).switch = s.switch :=
  s.setCmd_switch h _
@[simp] theorem State.finish_nextId (s : State) (h : Half) (c : Cmd) (r : Result) : (s.finish h c r).nextId = s.nextId :=
  s.setCmd_nextId h _
@[simp] theorem State.finish_drawnFree (s : State) (h : Half) (c : Cmd) (r : Result) : (s.finish h c r).drawnFree = s.drawnFree :=
  s.setCmd_drawnFree h _
@[simp] theorem State.finish_pwrEn (s : State) (h : Half) (c : Cmd) (r : Result) : (s.finish h c r).pwrEn = s.pwrEn :=
  s.setCmd_pwrEn h _
@[simp] theorem State.finish_starting (s : State) (h : Half) (c : Cmd) (r : Result) : (s.finish h c r).starting = s.starting :=
  s.setCmd_starting h _
@[simp] theorem State.finish_pgood (s : State) (h : Half) (c : Cmd) (r : Result) : (s.finish h c r).pgood = s.pgood :=
  s.setCmd_pgood h _
@[simp] theorem State.finish_thermTrip (s : State) (h : Half) (c : Cmd) (r : Result) : (s.finish h c r).thermTrip = s.thermTrip :=
  s.setCmd_thermTrip h _
@[simp] theorem State.finish_tripped (s : State) (h : Half) (c : Cmd) (r : Result) : (s.finish h c r).tripped = s.tripped :=
  s.setCmd_tripped h _
@[simp] theorem State.finish_halfResetQ (s : State) (h : Half) (c : Cmd) (r : Result) : (s.finish h c r).halfResetQ = s.halfResetQ :=
  s.setCmd_halfResetQ h _
@[simp] theorem State.finish_halfResetK (s : State) (h : Half) (c : Cmd) (r : Result) : (s.finish h c r).halfResetK = s.halfResetK :=
  s.setCmd_halfResetK h _
@[simp] theorem State.finish_modReset (s : State) (h : Half) (c : Cmd) (r : Result) : (s.finish h c r).modReset = s.modReset :=
  s.setCmd_modReset h _
@[simp] theorem State.finish_railFail (s : State) (h : Half) (c : Cmd) (r : Result) : (s.finish h c r).railFail = s.railFail :=
  s.setCmd_railFail h _
@[simp] theorem State.finish_holdoff (s : State) (h : Half) (c : Cmd) (r : Result) : (s.finish h c r).holdoff = s.holdoff :=
  s.setCmd_holdoff h _
@[simp] theorem State.finish_powerFailed (s : State) (h : Half) (c : Cmd) (r : Result) : (s.finish h c r).powerFailed = s.powerFailed :=
  s.setCmd_powerFailed h _
@[simp] theorem State.finish_hotDies (s : State) (h : Half) (c : Cmd) (r : Result) : (s.finish h c r).hotDies = s.hotDies :=
  s.setCmd_hotDies h _
@[simp] theorem State.finish_staging (s : State) (h : Half) (c : Cmd) (r : Result) : (s.finish h c r).staging = s.staging :=
  s.setCmd_staging h _
@[simp] theorem State.finish_writing (s : State) (h : Half) (c : Cmd) (r : Result) : (s.finish h c r).writing = s.writing :=
  s.setCmd_writing h _
@[simp] theorem State.finish_settingsStaging (s : State) (h : Half) (c : Cmd) (r : Result) : (s.finish h c r).settingsStaging = s.settingsStaging :=
  s.setCmd_settingsStaging h _
@[simp] theorem State.finish_dynamicAddress (s : State) (h : Half) (c : Cmd) (r : Result) : (s.finish h c r).dynamicAddress = s.dynamicAddress :=
  s.setCmd_dynamicAddress h _
@[simp] theorem State.finish_ibiEnabled (s : State) (h : Half) (c : Cmd) (r : Result) : (s.finish h c r).ibiEnabled = s.ibiEnabled :=
  s.setCmd_ibiEnabled h _
@[simp] theorem State.finish_maxWrite (s : State) (h : Half) (c : Cmd) (r : Result) : (s.finish h c r).maxWrite = s.maxWrite :=
  s.setCmd_maxWrite h _
@[simp] theorem State.finish_maxRead (s : State) (h : Half) (c : Cmd) (r : Result) : (s.finish h c r).maxRead = s.maxRead :=
  s.setCmd_maxRead h _
@[simp] theorem State.finish_portOut (s : State) (h : Half) (c : Cmd) (r : Result) : (s.finish h c r).portOut = s.portOut :=
  s.setCmd_portOut h _
@[simp] theorem State.finish_portNack (s : State) (h : Half) (c : Cmd) (r : Result) : (s.finish h c r).portNack = s.portNack :=
  s.setCmd_portNack h _
@[simp] theorem State.finish_ibi (s : State) (h : Half) (c : Cmd) (r : Result) : (s.finish h c r).ibi = s.ibi :=
  s.setCmd_ibi h _
@[simp] theorem State.finish_recovHalf (s : State) (h : Half) (c : Cmd) (r : Result) : (s.finish h c r).recovHalf = s.recovHalf :=
  s.setCmd_recovHalf h _
@[simp] theorem State.finish_tapInstruction (s : State) (h : Half) (c : Cmd) (r : Result) : (s.finish h c r).tapInstruction = s.tapInstruction :=
  s.setCmd_tapInstruction h _
@[simp] theorem State.finish_tapOut (s : State) (h : Half) (c : Cmd) (r : Result) : (s.finish h c r).tapOut = s.tapOut :=
  s.setCmd_tapOut h _
@[simp] theorem State.finish_boundary (s : State) (h : Half) (c : Cmd) (r : Result) : (s.finish h c r).boundary = s.boundary :=
  s.setCmd_boundary h _
@[simp] theorem State.finish_pending (s : State) (h : Half) (c : Cmd) (r : Result) : (s.finish h c r).pending = s.pending :=
  s.setCmd_pending h _
@[simp] theorem State.setGate_mem (s : State) (i g v : Nat) : (s.setGate i g v).mem = s.mem := s.modHalf_mem _ _
@[simp] theorem State.setGate_siphon (s : State) (i g v : Nat) : (s.setGate i g v).siphon = s.siphon := s.modHalf_siphon _ _
@[simp] theorem State.setGate_lanesRepaired (s : State) (i g v : Nat) : (s.setGate i g v).lanesRepaired = s.lanesRepaired := s.modHalf_lanesRepaired _ _
@[simp] theorem State.setGate_siphonBy (s : State) (i g v : Nat) : (s.setGate i g v).siphonBy = s.siphonBy := s.modHalf_siphonBy _ _
@[simp] theorem State.setGate_switch (s : State) (i g v : Nat) : (s.setGate i g v).switch = s.switch := s.modHalf_switch _ _
@[simp] theorem State.setGate_nextId (s : State) (i g v : Nat) : (s.setGate i g v).nextId = s.nextId := s.modHalf_nextId _ _
@[simp] theorem State.setGate_drawnFree (s : State) (i g v : Nat) : (s.setGate i g v).drawnFree = s.drawnFree := s.modHalf_drawnFree _ _
@[simp] theorem State.setGate_pwrEn (s : State) (i g v : Nat) : (s.setGate i g v).pwrEn = s.pwrEn := s.modHalf_pwrEn _ _
@[simp] theorem State.setGate_starting (s : State) (i g v : Nat) : (s.setGate i g v).starting = s.starting := s.modHalf_starting _ _
@[simp] theorem State.setGate_pgood (s : State) (i g v : Nat) : (s.setGate i g v).pgood = s.pgood := s.modHalf_pgood _ _
@[simp] theorem State.setGate_thermTrip (s : State) (i g v : Nat) : (s.setGate i g v).thermTrip = s.thermTrip := s.modHalf_thermTrip _ _
@[simp] theorem State.setGate_tripped (s : State) (i g v : Nat) : (s.setGate i g v).tripped = s.tripped := s.modHalf_tripped _ _
@[simp] theorem State.setGate_halfResetQ (s : State) (i g v : Nat) : (s.setGate i g v).halfResetQ = s.halfResetQ := s.modHalf_halfResetQ _ _
@[simp] theorem State.setGate_halfResetK (s : State) (i g v : Nat) : (s.setGate i g v).halfResetK = s.halfResetK := s.modHalf_halfResetK _ _
@[simp] theorem State.setGate_modReset (s : State) (i g v : Nat) : (s.setGate i g v).modReset = s.modReset := s.modHalf_modReset _ _
@[simp] theorem State.setGate_railFail (s : State) (i g v : Nat) : (s.setGate i g v).railFail = s.railFail := s.modHalf_railFail _ _
@[simp] theorem State.setGate_holdoff (s : State) (i g v : Nat) : (s.setGate i g v).holdoff = s.holdoff := s.modHalf_holdoff _ _
@[simp] theorem State.setGate_powerFailed (s : State) (i g v : Nat) : (s.setGate i g v).powerFailed = s.powerFailed := s.modHalf_powerFailed _ _
@[simp] theorem State.setGate_hotDies (s : State) (i g v : Nat) : (s.setGate i g v).hotDies = s.hotDies := s.modHalf_hotDies _ _
@[simp] theorem State.setGate_staging (s : State) (i g v : Nat) : (s.setGate i g v).staging = s.staging := s.modHalf_staging _ _
@[simp] theorem State.setGate_writing (s : State) (i g v : Nat) : (s.setGate i g v).writing = s.writing := s.modHalf_writing _ _
@[simp] theorem State.setGate_settingsStaging (s : State) (i g v : Nat) : (s.setGate i g v).settingsStaging = s.settingsStaging := s.modHalf_settingsStaging _ _
@[simp] theorem State.setGate_dynamicAddress (s : State) (i g v : Nat) : (s.setGate i g v).dynamicAddress = s.dynamicAddress := s.modHalf_dynamicAddress _ _
@[simp] theorem State.setGate_ibiEnabled (s : State) (i g v : Nat) : (s.setGate i g v).ibiEnabled = s.ibiEnabled := s.modHalf_ibiEnabled _ _
@[simp] theorem State.setGate_maxWrite (s : State) (i g v : Nat) : (s.setGate i g v).maxWrite = s.maxWrite := s.modHalf_maxWrite _ _
@[simp] theorem State.setGate_maxRead (s : State) (i g v : Nat) : (s.setGate i g v).maxRead = s.maxRead := s.modHalf_maxRead _ _
@[simp] theorem State.setGate_portOut (s : State) (i g v : Nat) : (s.setGate i g v).portOut = s.portOut := s.modHalf_portOut _ _
@[simp] theorem State.setGate_portNack (s : State) (i g v : Nat) : (s.setGate i g v).portNack = s.portNack := s.modHalf_portNack _ _
@[simp] theorem State.setGate_ibi (s : State) (i g v : Nat) : (s.setGate i g v).ibi = s.ibi := s.modHalf_ibi _ _
@[simp] theorem State.setGate_recovHalf (s : State) (i g v : Nat) : (s.setGate i g v).recovHalf = s.recovHalf := s.modHalf_recovHalf _ _
@[simp] theorem State.setGate_tapInstruction (s : State) (i g v : Nat) : (s.setGate i g v).tapInstruction = s.tapInstruction := s.modHalf_tapInstruction _ _
@[simp] theorem State.setGate_tapOut (s : State) (i g v : Nat) : (s.setGate i g v).tapOut = s.tapOut := s.modHalf_tapOut _ _
@[simp] theorem State.setGate_boundary (s : State) (i g v : Nat) : (s.setGate i g v).boundary = s.boundary := s.modHalf_boundary _ _
@[simp] theorem State.setGate_pending (s : State) (i g v : Nat) : (s.setGate i g v).pending = s.pending := s.modHalf_pending _ _

/-! ## The halves -/

/-- A command replaced: nothing of its half changes but the list of commands. -/
theorem State.setCmd_half (s : State) (h : Half) (c : Cmd) :
    (s.setCmd h c).half h = { s.half h with cmds := updateFirst (·.id = c.id) (fun _ => c) (s.half h).cmds } := by
  simp [State.setCmd]

@[simp] theorem State.setCmd_other (s : State) (h : Half) (c : Cmd) : (s.setCmd h c).half h.other = s.half h.other := by
  simp [State.setCmd]

@[simp] theorem State.finish_other (s : State) (h : Half) (c : Cmd) (r : Result) : (s.finish h c r).half h.other = s.half h.other := by
  simp [State.finish]

/-- What a change of one part of a half gives, as a record. -/
theorem HalfState.gauge_eq (x : HalfState) (a b c n : Nat) :
    x.gauge a b c n = { x with gauges := if n = 0 then x.gauges else x.gauges.bump (gaugeSel a b c) n } := by
  unfold HalfState.gauge; split <;> rfl

theorem HalfState.traceAdd_eq (x : HalfState) (k r : Nat) : x.traceAdd k r = { x with trace := (x.traceAdd k r).trace } := by
  unfold HalfState.traceAdd; repeat' split
  all_goals rfl

theorem HalfState.attribute_eq (x : HalfState) (k i n : Nat) : x.attribute k i n = { x with attr := (x.attribute k i n).attr } := by
  unfold HalfState.attribute; repeat' split
  all_goals rfl

theorem HalfState.count32_eq (x : HalfState) (h : Half) (k lo n : Nat) :
    x.count32 h k lo n = { x with regs := (x.count32 h k lo n).regs } := by
  unfold HalfState.count32; split <;> rfl

@[simp] theorem HalfState.gauge_boot (x : HalfState) (a b c n : Nat) : (x.gauge a b c n).boot = x.boot := by rw [HalfState.gauge_eq]
@[simp] theorem HalfState.gauge_reset (x : HalfState) (a b c n : Nat) : (x.gauge a b c n).reset = x.reset := by rw [HalfState.gauge_eq]
@[simp] theorem HalfState.gauge_count (x : HalfState) (a b c n : Nat) : (x.gauge a b c n).count = x.count := by rw [HalfState.gauge_eq]
@[simp] theorem HalfState.gauge_regs (x : HalfState) (a b c n : Nat) : (x.gauge a b c n).regs = x.regs := by rw [HalfState.gauge_eq]
@[simp] theorem HalfState.gauge_shadow (x : HalfState) (a b c n : Nat) : (x.gauge a b c n).shadow = x.shadow := by rw [HalfState.gauge_eq]
@[simp] theorem HalfState.gauge_cmds (x : HalfState) (a b c n : Nat) : (x.gauge a b c n).cmds = x.cmds := by rw [HalfState.gauge_eq]
@[simp] theorem HalfState.gauge_rings (x : HalfState) (a b c n : Nat) : (x.gauge a b c n).rings = x.rings := by rw [HalfState.gauge_eq]
@[simp] theorem HalfState.gauge_mgmt (x : HalfState) (a b c n : Nat) : (x.gauge a b c n).mgmt = x.mgmt := by rw [HalfState.gauge_eq]
@[simp] theorem HalfState.gauge_ctxs (x : HalfState) (a b c n : Nat) : (x.gauge a b c n).ctxs = x.ctxs := by rw [HalfState.gauge_eq]
@[simp] theorem HalfState.gauge_gens (x : HalfState) (a b c n : Nat) : (x.gauge a b c n).gens = x.gens := by rw [HalfState.gauge_eq]
@[simp] theorem HalfState.gauge_resident (x : HalfState) (a b c n : Nat) : (x.gauge a b c n).resident = x.resident := by rw [HalfState.gauge_eq]
@[simp] theorem HalfState.gauge_events (x : HalfState) (a b c n : Nat) : (x.gauge a b c n).events = x.events := by rw [HalfState.gauge_eq]
@[simp] theorem HalfState.gauge_attr (x : HalfState) (a b c n : Nat) : (x.gauge a b c n).attr = x.attr := by rw [HalfState.gauge_eq]
@[simp] theorem HalfState.gauge_trace (x : HalfState) (a b c n : Nat) : (x.gauge a b c n).trace = x.trace := by rw [HalfState.gauge_eq]
@[simp] theorem HalfState.gauge_ports (x : HalfState) (a b c n : Nat) : (x.gauge a b c n).ports = x.ports := by rw [HalfState.gauge_eq]
@[simp] theorem HalfState.gauge_unacked (x : HalfState) (a b c n : Nat) : (x.gauge a b c n).unacked = x.unacked := by rw [HalfState.gauge_eq]
@[simp] theorem HalfState.gauge_scrub (x : HalfState) (a b c n : Nat) : (x.gauge a b c n).scrub = x.scrub := by rw [HalfState.gauge_eq]
@[simp] theorem HalfState.gauge_wells (x : HalfState) (a b c n : Nat) : (x.gauge a b c n).wells = x.wells := by rw [HalfState.gauge_eq]
@[simp] theorem HalfState.gauge_gateIn (x : HalfState) (a b c n : Nat) : (x.gauge a b c n).gateIn = x.gateIn := by rw [HalfState.gauge_eq]
@[simp] theorem HalfState.gauge_siphonOut (x : HalfState) (a b c n : Nat) : (x.gauge a b c n).siphonOut = x.siphonOut := by rw [HalfState.gauge_eq]
@[simp] theorem HalfState.gauge_sealsMet (x : HalfState) (a b c n : Nat) : (x.gauge a b c n).sealsMet = x.sealsMet := by rw [HalfState.gauge_eq]
@[simp] theorem HalfState.gauge_activation (x : HalfState) (a b c n : Nat) : (x.gauge a b c n).activation = x.activation := by rw [HalfState.gauge_eq]
@[simp] theorem HalfState.gauge_bootSampled (x : HalfState) (a b c n : Nat) : (x.gauge a b c n).bootSampled = x.bootSampled := by rw [HalfState.gauge_eq]
@[simp] theorem HalfState.gauge_flash (x : HalfState) (a b c n : Nat) : (x.gauge a b c n).flash = x.flash := by rw [HalfState.gauge_eq]
@[simp] theorem HalfState.gauge_asserted (x : HalfState) (a b c n : Nat) : (x.gauge a b c n).asserted = x.asserted := by rw [HalfState.gauge_eq]
@[simp] theorem HalfState.gauge_forced (x : HalfState) (a b c n : Nat) : (x.gauge a b c n).forced = x.forced := by rw [HalfState.gauge_eq]
@[simp] theorem HalfState.gauge_deadlines (x : HalfState) (a b c n : Nat) : (x.gauge a b c n).deadlines = x.deadlines := by rw [HalfState.gauge_eq]
@[simp] theorem HalfState.gauge_suspended (x : HalfState) (a b c n : Nat) : (x.gauge a b c n).suspended = x.suspended := by rw [HalfState.gauge_eq]
@[simp] theorem HalfState.gauge_gated (x : HalfState) (a b c n : Nat) : (x.gauge a b c n).gated = x.gated := by rw [HalfState.gauge_eq]
@[simp] theorem HalfState.gauge_waking (x : HalfState) (a b c n : Nat) : (x.gauge a b c n).waking = x.waking := by rw [HalfState.gauge_eq]
@[simp] theorem HalfState.traceAdd_boot (x : HalfState) (k r : Nat) : (x.traceAdd k r).boot = x.boot := by rw [HalfState.traceAdd_eq]
@[simp] theorem HalfState.traceAdd_reset (x : HalfState) (k r : Nat) : (x.traceAdd k r).reset = x.reset := by rw [HalfState.traceAdd_eq]
@[simp] theorem HalfState.traceAdd_count (x : HalfState) (k r : Nat) : (x.traceAdd k r).count = x.count := by rw [HalfState.traceAdd_eq]
@[simp] theorem HalfState.traceAdd_regs (x : HalfState) (k r : Nat) : (x.traceAdd k r).regs = x.regs := by rw [HalfState.traceAdd_eq]
@[simp] theorem HalfState.traceAdd_shadow (x : HalfState) (k r : Nat) : (x.traceAdd k r).shadow = x.shadow := by rw [HalfState.traceAdd_eq]
@[simp] theorem HalfState.traceAdd_cmds (x : HalfState) (k r : Nat) : (x.traceAdd k r).cmds = x.cmds := by rw [HalfState.traceAdd_eq]
@[simp] theorem HalfState.traceAdd_rings (x : HalfState) (k r : Nat) : (x.traceAdd k r).rings = x.rings := by rw [HalfState.traceAdd_eq]
@[simp] theorem HalfState.traceAdd_mgmt (x : HalfState) (k r : Nat) : (x.traceAdd k r).mgmt = x.mgmt := by rw [HalfState.traceAdd_eq]
@[simp] theorem HalfState.traceAdd_ctxs (x : HalfState) (k r : Nat) : (x.traceAdd k r).ctxs = x.ctxs := by rw [HalfState.traceAdd_eq]
@[simp] theorem HalfState.traceAdd_gens (x : HalfState) (k r : Nat) : (x.traceAdd k r).gens = x.gens := by rw [HalfState.traceAdd_eq]
@[simp] theorem HalfState.traceAdd_resident (x : HalfState) (k r : Nat) : (x.traceAdd k r).resident = x.resident := by rw [HalfState.traceAdd_eq]
@[simp] theorem HalfState.traceAdd_events (x : HalfState) (k r : Nat) : (x.traceAdd k r).events = x.events := by rw [HalfState.traceAdd_eq]
@[simp] theorem HalfState.traceAdd_gauges (x : HalfState) (k r : Nat) : (x.traceAdd k r).gauges = x.gauges := by rw [HalfState.traceAdd_eq]
@[simp] theorem HalfState.traceAdd_attr (x : HalfState) (k r : Nat) : (x.traceAdd k r).attr = x.attr := by rw [HalfState.traceAdd_eq]
@[simp] theorem HalfState.traceAdd_ports (x : HalfState) (k r : Nat) : (x.traceAdd k r).ports = x.ports := by rw [HalfState.traceAdd_eq]
@[simp] theorem HalfState.traceAdd_unacked (x : HalfState) (k r : Nat) : (x.traceAdd k r).unacked = x.unacked := by rw [HalfState.traceAdd_eq]
@[simp] theorem HalfState.traceAdd_scrub (x : HalfState) (k r : Nat) : (x.traceAdd k r).scrub = x.scrub := by rw [HalfState.traceAdd_eq]
@[simp] theorem HalfState.traceAdd_wells (x : HalfState) (k r : Nat) : (x.traceAdd k r).wells = x.wells := by rw [HalfState.traceAdd_eq]
@[simp] theorem HalfState.traceAdd_gateIn (x : HalfState) (k r : Nat) : (x.traceAdd k r).gateIn = x.gateIn := by rw [HalfState.traceAdd_eq]
@[simp] theorem HalfState.traceAdd_siphonOut (x : HalfState) (k r : Nat) : (x.traceAdd k r).siphonOut = x.siphonOut := by rw [HalfState.traceAdd_eq]
@[simp] theorem HalfState.traceAdd_sealsMet (x : HalfState) (k r : Nat) : (x.traceAdd k r).sealsMet = x.sealsMet := by rw [HalfState.traceAdd_eq]
@[simp] theorem HalfState.traceAdd_activation (x : HalfState) (k r : Nat) : (x.traceAdd k r).activation = x.activation := by rw [HalfState.traceAdd_eq]
@[simp] theorem HalfState.traceAdd_bootSampled (x : HalfState) (k r : Nat) : (x.traceAdd k r).bootSampled = x.bootSampled := by rw [HalfState.traceAdd_eq]
@[simp] theorem HalfState.traceAdd_flash (x : HalfState) (k r : Nat) : (x.traceAdd k r).flash = x.flash := by rw [HalfState.traceAdd_eq]
@[simp] theorem HalfState.traceAdd_asserted (x : HalfState) (k r : Nat) : (x.traceAdd k r).asserted = x.asserted := by rw [HalfState.traceAdd_eq]
@[simp] theorem HalfState.traceAdd_forced (x : HalfState) (k r : Nat) : (x.traceAdd k r).forced = x.forced := by rw [HalfState.traceAdd_eq]
@[simp] theorem HalfState.traceAdd_deadlines (x : HalfState) (k r : Nat) : (x.traceAdd k r).deadlines = x.deadlines := by rw [HalfState.traceAdd_eq]
@[simp] theorem HalfState.traceAdd_suspended (x : HalfState) (k r : Nat) : (x.traceAdd k r).suspended = x.suspended := by rw [HalfState.traceAdd_eq]
@[simp] theorem HalfState.traceAdd_gated (x : HalfState) (k r : Nat) : (x.traceAdd k r).gated = x.gated := by rw [HalfState.traceAdd_eq]
@[simp] theorem HalfState.traceAdd_waking (x : HalfState) (k r : Nat) : (x.traceAdd k r).waking = x.waking := by rw [HalfState.traceAdd_eq]
@[simp] theorem HalfState.attribute_boot (x : HalfState) (k i n : Nat) : (x.attribute k i n).boot = x.boot := by rw [HalfState.attribute_eq]
@[simp] theorem HalfState.attribute_reset (x : HalfState) (k i n : Nat) : (x.attribute k i n).reset = x.reset := by rw [HalfState.attribute_eq]
@[simp] theorem HalfState.attribute_count (x : HalfState) (k i n : Nat) : (x.attribute k i n).count = x.count := by rw [HalfState.attribute_eq]
@[simp] theorem HalfState.attribute_regs (x : HalfState) (k i n : Nat) : (x.attribute k i n).regs = x.regs := by rw [HalfState.attribute_eq]
@[simp] theorem HalfState.attribute_shadow (x : HalfState) (k i n : Nat) : (x.attribute k i n).shadow = x.shadow := by rw [HalfState.attribute_eq]
@[simp] theorem HalfState.attribute_cmds (x : HalfState) (k i n : Nat) : (x.attribute k i n).cmds = x.cmds := by rw [HalfState.attribute_eq]
@[simp] theorem HalfState.attribute_rings (x : HalfState) (k i n : Nat) : (x.attribute k i n).rings = x.rings := by rw [HalfState.attribute_eq]
@[simp] theorem HalfState.attribute_mgmt (x : HalfState) (k i n : Nat) : (x.attribute k i n).mgmt = x.mgmt := by rw [HalfState.attribute_eq]
@[simp] theorem HalfState.attribute_ctxs (x : HalfState) (k i n : Nat) : (x.attribute k i n).ctxs = x.ctxs := by rw [HalfState.attribute_eq]
@[simp] theorem HalfState.attribute_gens (x : HalfState) (k i n : Nat) : (x.attribute k i n).gens = x.gens := by rw [HalfState.attribute_eq]
@[simp] theorem HalfState.attribute_resident (x : HalfState) (k i n : Nat) : (x.attribute k i n).resident = x.resident := by rw [HalfState.attribute_eq]
@[simp] theorem HalfState.attribute_events (x : HalfState) (k i n : Nat) : (x.attribute k i n).events = x.events := by rw [HalfState.attribute_eq]
@[simp] theorem HalfState.attribute_gauges (x : HalfState) (k i n : Nat) : (x.attribute k i n).gauges = x.gauges := by rw [HalfState.attribute_eq]
@[simp] theorem HalfState.attribute_trace (x : HalfState) (k i n : Nat) : (x.attribute k i n).trace = x.trace := by rw [HalfState.attribute_eq]
@[simp] theorem HalfState.attribute_ports (x : HalfState) (k i n : Nat) : (x.attribute k i n).ports = x.ports := by rw [HalfState.attribute_eq]
@[simp] theorem HalfState.attribute_unacked (x : HalfState) (k i n : Nat) : (x.attribute k i n).unacked = x.unacked := by rw [HalfState.attribute_eq]
@[simp] theorem HalfState.attribute_scrub (x : HalfState) (k i n : Nat) : (x.attribute k i n).scrub = x.scrub := by rw [HalfState.attribute_eq]
@[simp] theorem HalfState.attribute_wells (x : HalfState) (k i n : Nat) : (x.attribute k i n).wells = x.wells := by rw [HalfState.attribute_eq]
@[simp] theorem HalfState.attribute_gateIn (x : HalfState) (k i n : Nat) : (x.attribute k i n).gateIn = x.gateIn := by rw [HalfState.attribute_eq]
@[simp] theorem HalfState.attribute_siphonOut (x : HalfState) (k i n : Nat) : (x.attribute k i n).siphonOut = x.siphonOut := by rw [HalfState.attribute_eq]
@[simp] theorem HalfState.attribute_sealsMet (x : HalfState) (k i n : Nat) : (x.attribute k i n).sealsMet = x.sealsMet := by rw [HalfState.attribute_eq]
@[simp] theorem HalfState.attribute_activation (x : HalfState) (k i n : Nat) : (x.attribute k i n).activation = x.activation := by rw [HalfState.attribute_eq]
@[simp] theorem HalfState.attribute_bootSampled (x : HalfState) (k i n : Nat) : (x.attribute k i n).bootSampled = x.bootSampled := by rw [HalfState.attribute_eq]
@[simp] theorem HalfState.attribute_flash (x : HalfState) (k i n : Nat) : (x.attribute k i n).flash = x.flash := by rw [HalfState.attribute_eq]
@[simp] theorem HalfState.attribute_asserted (x : HalfState) (k i n : Nat) : (x.attribute k i n).asserted = x.asserted := by rw [HalfState.attribute_eq]
@[simp] theorem HalfState.attribute_forced (x : HalfState) (k i n : Nat) : (x.attribute k i n).forced = x.forced := by rw [HalfState.attribute_eq]
@[simp] theorem HalfState.attribute_deadlines (x : HalfState) (k i n : Nat) : (x.attribute k i n).deadlines = x.deadlines := by rw [HalfState.attribute_eq]
@[simp] theorem HalfState.attribute_suspended (x : HalfState) (k i n : Nat) : (x.attribute k i n).suspended = x.suspended := by rw [HalfState.attribute_eq]
@[simp] theorem HalfState.attribute_gated (x : HalfState) (k i n : Nat) : (x.attribute k i n).gated = x.gated := by rw [HalfState.attribute_eq]
@[simp] theorem HalfState.attribute_waking (x : HalfState) (k i n : Nat) : (x.attribute k i n).waking = x.waking := by rw [HalfState.attribute_eq]
@[simp] theorem HalfState.setCell_boot (x : HalfState) (k v : Nat) : (x.setCell k v).boot = x.boot := rfl
@[simp] theorem HalfState.setCell_reset (x : HalfState) (k v : Nat) : (x.setCell k v).reset = x.reset := rfl
@[simp] theorem HalfState.setCell_count (x : HalfState) (k v : Nat) : (x.setCell k v).count = x.count := rfl
@[simp] theorem HalfState.setCell_shadow (x : HalfState) (k v : Nat) : (x.setCell k v).shadow = x.shadow := rfl
@[simp] theorem HalfState.setCell_cmds (x : HalfState) (k v : Nat) : (x.setCell k v).cmds = x.cmds := rfl
@[simp] theorem HalfState.setCell_rings (x : HalfState) (k v : Nat) : (x.setCell k v).rings = x.rings := rfl
@[simp] theorem HalfState.setCell_mgmt (x : HalfState) (k v : Nat) : (x.setCell k v).mgmt = x.mgmt := rfl
@[simp] theorem HalfState.setCell_ctxs (x : HalfState) (k v : Nat) : (x.setCell k v).ctxs = x.ctxs := rfl
@[simp] theorem HalfState.setCell_gens (x : HalfState) (k v : Nat) : (x.setCell k v).gens = x.gens := rfl
@[simp] theorem HalfState.setCell_resident (x : HalfState) (k v : Nat) : (x.setCell k v).resident = x.resident := rfl
@[simp] theorem HalfState.setCell_events (x : HalfState) (k v : Nat) : (x.setCell k v).events = x.events := rfl
@[simp] theorem HalfState.setCell_gauges (x : HalfState) (k v : Nat) : (x.setCell k v).gauges = x.gauges := rfl
@[simp] theorem HalfState.setCell_attr (x : HalfState) (k v : Nat) : (x.setCell k v).attr = x.attr := rfl
@[simp] theorem HalfState.setCell_trace (x : HalfState) (k v : Nat) : (x.setCell k v).trace = x.trace := rfl
@[simp] theorem HalfState.setCell_ports (x : HalfState) (k v : Nat) : (x.setCell k v).ports = x.ports := rfl
@[simp] theorem HalfState.setCell_unacked (x : HalfState) (k v : Nat) : (x.setCell k v).unacked = x.unacked := rfl
@[simp] theorem HalfState.setCell_scrub (x : HalfState) (k v : Nat) : (x.setCell k v).scrub = x.scrub := rfl
@[simp] theorem HalfState.setCell_wells (x : HalfState) (k v : Nat) : (x.setCell k v).wells = x.wells := rfl
@[simp] theorem HalfState.setCell_gateIn (x : HalfState) (k v : Nat) : (x.setCell k v).gateIn = x.gateIn := rfl
@[simp] theorem HalfState.setCell_siphonOut (x : HalfState) (k v : Nat) : (x.setCell k v).siphonOut = x.siphonOut := rfl
@[simp] theorem HalfState.setCell_sealsMet (x : HalfState) (k v : Nat) : (x.setCell k v).sealsMet = x.sealsMet := rfl
@[simp] theorem HalfState.setCell_activation (x : HalfState) (k v : Nat) : (x.setCell k v).activation = x.activation := rfl
@[simp] theorem HalfState.setCell_bootSampled (x : HalfState) (k v : Nat) : (x.setCell k v).bootSampled = x.bootSampled := rfl
@[simp] theorem HalfState.setCell_flash (x : HalfState) (k v : Nat) : (x.setCell k v).flash = x.flash := rfl
@[simp] theorem HalfState.setCell_asserted (x : HalfState) (k v : Nat) : (x.setCell k v).asserted = x.asserted := rfl
@[simp] theorem HalfState.setCell_forced (x : HalfState) (k v : Nat) : (x.setCell k v).forced = x.forced := rfl
@[simp] theorem HalfState.setCell_deadlines (x : HalfState) (k v : Nat) : (x.setCell k v).deadlines = x.deadlines := rfl
@[simp] theorem HalfState.setCell_suspended (x : HalfState) (k v : Nat) : (x.setCell k v).suspended = x.suspended := rfl
@[simp] theorem HalfState.setCell_gated (x : HalfState) (k v : Nat) : (x.setCell k v).gated = x.gated := rfl
@[simp] theorem HalfState.setCell_waking (x : HalfState) (k v : Nat) : (x.setCell k v).waking = x.waking := rfl
@[simp] theorem HalfState.count32_boot (x : HalfState) (h : Half) (k lo n : Nat) : (x.count32 h k lo n).boot = x.boot := by rw [HalfState.count32_eq]
@[simp] theorem HalfState.count32_reset (x : HalfState) (h : Half) (k lo n : Nat) : (x.count32 h k lo n).reset = x.reset := by rw [HalfState.count32_eq]
@[simp] theorem HalfState.count32_count (x : HalfState) (h : Half) (k lo n : Nat) : (x.count32 h k lo n).count = x.count := by rw [HalfState.count32_eq]
@[simp] theorem HalfState.count32_shadow (x : HalfState) (h : Half) (k lo n : Nat) : (x.count32 h k lo n).shadow = x.shadow := by rw [HalfState.count32_eq]
@[simp] theorem HalfState.count32_cmds (x : HalfState) (h : Half) (k lo n : Nat) : (x.count32 h k lo n).cmds = x.cmds := by rw [HalfState.count32_eq]
@[simp] theorem HalfState.count32_rings (x : HalfState) (h : Half) (k lo n : Nat) : (x.count32 h k lo n).rings = x.rings := by rw [HalfState.count32_eq]
@[simp] theorem HalfState.count32_mgmt (x : HalfState) (h : Half) (k lo n : Nat) : (x.count32 h k lo n).mgmt = x.mgmt := by rw [HalfState.count32_eq]
@[simp] theorem HalfState.count32_ctxs (x : HalfState) (h : Half) (k lo n : Nat) : (x.count32 h k lo n).ctxs = x.ctxs := by rw [HalfState.count32_eq]
@[simp] theorem HalfState.count32_gens (x : HalfState) (h : Half) (k lo n : Nat) : (x.count32 h k lo n).gens = x.gens := by rw [HalfState.count32_eq]
@[simp] theorem HalfState.count32_resident (x : HalfState) (h : Half) (k lo n : Nat) : (x.count32 h k lo n).resident = x.resident := by rw [HalfState.count32_eq]
@[simp] theorem HalfState.count32_events (x : HalfState) (h : Half) (k lo n : Nat) : (x.count32 h k lo n).events = x.events := by rw [HalfState.count32_eq]
@[simp] theorem HalfState.count32_gauges (x : HalfState) (h : Half) (k lo n : Nat) : (x.count32 h k lo n).gauges = x.gauges := by rw [HalfState.count32_eq]
@[simp] theorem HalfState.count32_attr (x : HalfState) (h : Half) (k lo n : Nat) : (x.count32 h k lo n).attr = x.attr := by rw [HalfState.count32_eq]
@[simp] theorem HalfState.count32_trace (x : HalfState) (h : Half) (k lo n : Nat) : (x.count32 h k lo n).trace = x.trace := by rw [HalfState.count32_eq]
@[simp] theorem HalfState.count32_ports (x : HalfState) (h : Half) (k lo n : Nat) : (x.count32 h k lo n).ports = x.ports := by rw [HalfState.count32_eq]
@[simp] theorem HalfState.count32_unacked (x : HalfState) (h : Half) (k lo n : Nat) : (x.count32 h k lo n).unacked = x.unacked := by rw [HalfState.count32_eq]
@[simp] theorem HalfState.count32_scrub (x : HalfState) (h : Half) (k lo n : Nat) : (x.count32 h k lo n).scrub = x.scrub := by rw [HalfState.count32_eq]
@[simp] theorem HalfState.count32_wells (x : HalfState) (h : Half) (k lo n : Nat) : (x.count32 h k lo n).wells = x.wells := by rw [HalfState.count32_eq]
@[simp] theorem HalfState.count32_gateIn (x : HalfState) (h : Half) (k lo n : Nat) : (x.count32 h k lo n).gateIn = x.gateIn := by rw [HalfState.count32_eq]
@[simp] theorem HalfState.count32_siphonOut (x : HalfState) (h : Half) (k lo n : Nat) : (x.count32 h k lo n).siphonOut = x.siphonOut := by rw [HalfState.count32_eq]
@[simp] theorem HalfState.count32_sealsMet (x : HalfState) (h : Half) (k lo n : Nat) : (x.count32 h k lo n).sealsMet = x.sealsMet := by rw [HalfState.count32_eq]
@[simp] theorem HalfState.count32_activation (x : HalfState) (h : Half) (k lo n : Nat) : (x.count32 h k lo n).activation = x.activation := by rw [HalfState.count32_eq]
@[simp] theorem HalfState.count32_bootSampled (x : HalfState) (h : Half) (k lo n : Nat) : (x.count32 h k lo n).bootSampled = x.bootSampled := by rw [HalfState.count32_eq]
@[simp] theorem HalfState.count32_flash (x : HalfState) (h : Half) (k lo n : Nat) : (x.count32 h k lo n).flash = x.flash := by rw [HalfState.count32_eq]
@[simp] theorem HalfState.count32_asserted (x : HalfState) (h : Half) (k lo n : Nat) : (x.count32 h k lo n).asserted = x.asserted := by rw [HalfState.count32_eq]
@[simp] theorem HalfState.count32_forced (x : HalfState) (h : Half) (k lo n : Nat) : (x.count32 h k lo n).forced = x.forced := by rw [HalfState.count32_eq]
@[simp] theorem HalfState.count32_deadlines (x : HalfState) (h : Half) (k lo n : Nat) : (x.count32 h k lo n).deadlines = x.deadlines := by rw [HalfState.count32_eq]
@[simp] theorem HalfState.count32_suspended (x : HalfState) (h : Half) (k lo n : Nat) : (x.count32 h k lo n).suspended = x.suspended := by rw [HalfState.count32_eq]
@[simp] theorem HalfState.count32_gated (x : HalfState) (h : Half) (k lo n : Nat) : (x.count32 h k lo n).gated = x.gated := by rw [HalfState.count32_eq]
@[simp] theorem HalfState.count32_waking (x : HalfState) (h : Half) (k lo n : Nat) : (x.count32 h k lo n).waking = x.waking := by rw [HalfState.count32_eq]
@[simp] theorem HalfState.setCtx_boot (x : HalfState) (c : Ctx) : (x.setCtx c).boot = x.boot := rfl
@[simp] theorem HalfState.setCtx_reset (x : HalfState) (c : Ctx) : (x.setCtx c).reset = x.reset := rfl
@[simp] theorem HalfState.setCtx_count (x : HalfState) (c : Ctx) : (x.setCtx c).count = x.count := rfl
@[simp] theorem HalfState.setCtx_regs (x : HalfState) (c : Ctx) : (x.setCtx c).regs = x.regs := rfl
@[simp] theorem HalfState.setCtx_shadow (x : HalfState) (c : Ctx) : (x.setCtx c).shadow = x.shadow := rfl
@[simp] theorem HalfState.setCtx_cmds (x : HalfState) (c : Ctx) : (x.setCtx c).cmds = x.cmds := rfl
@[simp] theorem HalfState.setCtx_rings (x : HalfState) (c : Ctx) : (x.setCtx c).rings = x.rings := rfl
@[simp] theorem HalfState.setCtx_mgmt (x : HalfState) (c : Ctx) : (x.setCtx c).mgmt = x.mgmt := rfl
@[simp] theorem HalfState.setCtx_gens (x : HalfState) (c : Ctx) : (x.setCtx c).gens = x.gens := rfl
@[simp] theorem HalfState.setCtx_resident (x : HalfState) (c : Ctx) : (x.setCtx c).resident = x.resident := rfl
@[simp] theorem HalfState.setCtx_events (x : HalfState) (c : Ctx) : (x.setCtx c).events = x.events := rfl
@[simp] theorem HalfState.setCtx_gauges (x : HalfState) (c : Ctx) : (x.setCtx c).gauges = x.gauges := rfl
@[simp] theorem HalfState.setCtx_attr (x : HalfState) (c : Ctx) : (x.setCtx c).attr = x.attr := rfl
@[simp] theorem HalfState.setCtx_trace (x : HalfState) (c : Ctx) : (x.setCtx c).trace = x.trace := rfl
@[simp] theorem HalfState.setCtx_ports (x : HalfState) (c : Ctx) : (x.setCtx c).ports = x.ports := rfl
@[simp] theorem HalfState.setCtx_unacked (x : HalfState) (c : Ctx) : (x.setCtx c).unacked = x.unacked := rfl
@[simp] theorem HalfState.setCtx_scrub (x : HalfState) (c : Ctx) : (x.setCtx c).scrub = x.scrub := rfl
@[simp] theorem HalfState.setCtx_wells (x : HalfState) (c : Ctx) : (x.setCtx c).wells = x.wells := rfl
@[simp] theorem HalfState.setCtx_gateIn (x : HalfState) (c : Ctx) : (x.setCtx c).gateIn = x.gateIn := rfl
@[simp] theorem HalfState.setCtx_siphonOut (x : HalfState) (c : Ctx) : (x.setCtx c).siphonOut = x.siphonOut := rfl
@[simp] theorem HalfState.setCtx_sealsMet (x : HalfState) (c : Ctx) : (x.setCtx c).sealsMet = x.sealsMet := rfl
@[simp] theorem HalfState.setCtx_activation (x : HalfState) (c : Ctx) : (x.setCtx c).activation = x.activation := rfl
@[simp] theorem HalfState.setCtx_bootSampled (x : HalfState) (c : Ctx) : (x.setCtx c).bootSampled = x.bootSampled := rfl
@[simp] theorem HalfState.setCtx_flash (x : HalfState) (c : Ctx) : (x.setCtx c).flash = x.flash := rfl
@[simp] theorem HalfState.setCtx_asserted (x : HalfState) (c : Ctx) : (x.setCtx c).asserted = x.asserted := rfl
@[simp] theorem HalfState.setCtx_forced (x : HalfState) (c : Ctx) : (x.setCtx c).forced = x.forced := rfl
@[simp] theorem HalfState.setCtx_deadlines (x : HalfState) (c : Ctx) : (x.setCtx c).deadlines = x.deadlines := rfl
@[simp] theorem HalfState.setCtx_suspended (x : HalfState) (c : Ctx) : (x.setCtx c).suspended = x.suspended := rfl
@[simp] theorem HalfState.setCtx_gated (x : HalfState) (c : Ctx) : (x.setCtx c).gated = x.gated := rfl
@[simp] theorem HalfState.setCtx_waking (x : HalfState) (c : Ctx) : (x.setCtx c).waking = x.waking := rfl
@[simp] theorem HalfState.setPort_boot (x : HalfState) (i : Nat) (p : Port) : (x.setPort i p).boot = x.boot := rfl
@[simp] theorem HalfState.setPort_reset (x : HalfState) (i : Nat) (p : Port) : (x.setPort i p).reset = x.reset := rfl
@[simp] theorem HalfState.setPort_count (x : HalfState) (i : Nat) (p : Port) : (x.setPort i p).count = x.count := rfl
@[simp] theorem HalfState.setPort_regs (x : HalfState) (i : Nat) (p : Port) : (x.setPort i p).regs = x.regs := rfl
@[simp] theorem HalfState.setPort_shadow (x : HalfState) (i : Nat) (p : Port) : (x.setPort i p).shadow = x.shadow := rfl
@[simp] theorem HalfState.setPort_cmds (x : HalfState) (i : Nat) (p : Port) : (x.setPort i p).cmds = x.cmds := rfl
@[simp] theorem HalfState.setPort_rings (x : HalfState) (i : Nat) (p : Port) : (x.setPort i p).rings = x.rings := rfl
@[simp] theorem HalfState.setPort_mgmt (x : HalfState) (i : Nat) (p : Port) : (x.setPort i p).mgmt = x.mgmt := rfl
@[simp] theorem HalfState.setPort_ctxs (x : HalfState) (i : Nat) (p : Port) : (x.setPort i p).ctxs = x.ctxs := rfl
@[simp] theorem HalfState.setPort_gens (x : HalfState) (i : Nat) (p : Port) : (x.setPort i p).gens = x.gens := rfl
@[simp] theorem HalfState.setPort_resident (x : HalfState) (i : Nat) (p : Port) : (x.setPort i p).resident = x.resident := rfl
@[simp] theorem HalfState.setPort_events (x : HalfState) (i : Nat) (p : Port) : (x.setPort i p).events = x.events := rfl
@[simp] theorem HalfState.setPort_gauges (x : HalfState) (i : Nat) (p : Port) : (x.setPort i p).gauges = x.gauges := rfl
@[simp] theorem HalfState.setPort_attr (x : HalfState) (i : Nat) (p : Port) : (x.setPort i p).attr = x.attr := rfl
@[simp] theorem HalfState.setPort_trace (x : HalfState) (i : Nat) (p : Port) : (x.setPort i p).trace = x.trace := rfl
@[simp] theorem HalfState.setPort_unacked (x : HalfState) (i : Nat) (p : Port) : (x.setPort i p).unacked = x.unacked := rfl
@[simp] theorem HalfState.setPort_scrub (x : HalfState) (i : Nat) (p : Port) : (x.setPort i p).scrub = x.scrub := rfl
@[simp] theorem HalfState.setPort_wells (x : HalfState) (i : Nat) (p : Port) : (x.setPort i p).wells = x.wells := rfl
@[simp] theorem HalfState.setPort_gateIn (x : HalfState) (i : Nat) (p : Port) : (x.setPort i p).gateIn = x.gateIn := rfl
@[simp] theorem HalfState.setPort_siphonOut (x : HalfState) (i : Nat) (p : Port) : (x.setPort i p).siphonOut = x.siphonOut := rfl
@[simp] theorem HalfState.setPort_sealsMet (x : HalfState) (i : Nat) (p : Port) : (x.setPort i p).sealsMet = x.sealsMet := rfl
@[simp] theorem HalfState.setPort_activation (x : HalfState) (i : Nat) (p : Port) : (x.setPort i p).activation = x.activation := rfl
@[simp] theorem HalfState.setPort_bootSampled (x : HalfState) (i : Nat) (p : Port) : (x.setPort i p).bootSampled = x.bootSampled := rfl
@[simp] theorem HalfState.setPort_flash (x : HalfState) (i : Nat) (p : Port) : (x.setPort i p).flash = x.flash := rfl
@[simp] theorem HalfState.setPort_asserted (x : HalfState) (i : Nat) (p : Port) : (x.setPort i p).asserted = x.asserted := rfl
@[simp] theorem HalfState.setPort_forced (x : HalfState) (i : Nat) (p : Port) : (x.setPort i p).forced = x.forced := rfl
@[simp] theorem HalfState.setPort_deadlines (x : HalfState) (i : Nat) (p : Port) : (x.setPort i p).deadlines = x.deadlines := rfl
@[simp] theorem HalfState.setPort_suspended (x : HalfState) (i : Nat) (p : Port) : (x.setPort i p).suspended = x.suspended := rfl
@[simp] theorem HalfState.setPort_gated (x : HalfState) (i : Nat) (p : Port) : (x.setPort i p).gated = x.gated := rfl
@[simp] theorem HalfState.setPort_waking (x : HalfState) (i : Nat) (p : Port) : (x.setPort i p).waking = x.waking := rfl

/-! ## Flits that join the queues of a hub (R26) -/

theorem HalfState.crossing_eq (x : HalfState) (c : SiphonClass) (n : Nat) : ∃ o, x.crossing c n = { x with siphonOut := o } := by
  unfold HalfState.crossing; split
  · exact ⟨_, rfl⟩
  · exact ⟨_, rfl⟩

@[simp] theorem HalfState.crossing_cmds (x : HalfState) (c : SiphonClass) (n : Nat) : (x.crossing c n).cmds = x.cmds := by
  obtain ⟨o, h⟩ := x.crossing_eq c n; rw [h]
@[simp] theorem HalfState.crossing_ctxs (x : HalfState) (c : SiphonClass) (n : Nat) : (x.crossing c n).ctxs = x.ctxs := by
  obtain ⟨o, h⟩ := x.crossing_eq c n; rw [h]
@[simp] theorem HalfState.crossing_regs (x : HalfState) (c : SiphonClass) (n : Nat) : (x.crossing c n).regs = x.regs := by
  obtain ⟨o, h⟩ := x.crossing_eq c n; rw [h]
@[simp] theorem HalfState.crossing_wells (x : HalfState) (c : SiphonClass) (n : Nat) : (x.crossing c n).wells = x.wells := by
  obtain ⟨o, h⟩ := x.crossing_eq c n; rw [h]

end Sys2Proof.Machine
end

