-- ==== Sys2Proof/Laws/Commands.lean ====
section
/-! SUPPORT. Finding, replacing and finishing an admitted command, and applying the run of an engine: what each operation does, once. -/

namespace Sys2Proof.Machine

/-- A row on a command in execution is its meaning. -/
theorem onCommand_runs {s : State} {id op : Nat} {h : Half} {c : Cmd} {sub : Cmd → Bool} {f : State → Half → Cmd → State}
    (H : s.runs id h c op) (hs : sub c = true) : onCommand s id op sub f = f s h c := by
  obtain ⟨h1, h2, h3, h4, h5, h6, h7⟩ := H
  have h6' : (!c.twoHalf || c.mirrored) = true := by
    cases ht : c.twoHalf
    · rfl
    · simp [h6 ht]
  simp [onCommand, h1, h2, h3, h4, h5, h6', h7, hs]

theorem find?_id {l : List Cmd} {id : Nat} {c : Cmd} (h : l.find? (·.id = id) = some c) : c.id = id := by
  simpa using List.find?_some h

/-- A command found by its identity has it. -/
theorem State.cmd?_id {s : State} {id : Nat} {h : Half} {c : Cmd} (H : s.cmd? id = some (h, c)) : c.id = id := by
  unfold State.cmd? at H
  split at H
  · cases H; exact find?_id ‹_›
  · split at H
    · cases H; exact find?_id ‹_›
    · cases H

theorem find?_updateFirst {l : List Cmd} {id : Nat} {k c : Cmd} (h : l.find? (·.id = id) = some k) (hc : c.id = id) :
    (updateFirst (·.id = c.id) (fun _ => c) l).find? (·.id = id) = some c := by
  induction l with
  | nil => simp at h
  | cons a l ih =>
    by_cases ha : a.id = id
    · simp [updateFirst, ha, hc]
    · have h' : l.find? (·.id = id) = some k := by simpa [List.find?_cons, ha] using h
      simpa [updateFirst, ha, hc, List.find?_cons] using ih h'

/-- Only the lists of commands matter to finding one. -/
theorem State.cmd?_congr {s t : State} (hq : t.q.cmds = s.q.cmds) (hk : t.k.cmds = s.k.cmds) (id : Nat) : t.cmd? id = s.cmd? id := by
  simp [State.cmd?, hq, hk]

/-- A replaced command is found in its place. -/
theorem State.cmd?_setCmd {s : State} {id : Nat} {h : Half} {k c : Cmd} (H : s.cmd? id = some (h, k)) (hc : c.id = id) :
    (s.setCmd h c).cmd? id = some (h, c) := by
  cases h with
  | q =>
    have : s.q.cmds.find? (·.id = id) = some k := by
      unfold State.cmd? at H
      split at H
      · cases H; assumption
      · split at H <;> cases H
    simp [State.cmd?, State.setCmd, State.modHalf, State.setHalf, find?_updateFirst this hc]
  | k =>
    have : s.q.cmds.find? (·.id = id) = none ∧ s.k.cmds.find? (·.id = id) = some k := by
      unfold State.cmd? at H
      split at H
      · cases H
      · split at H
        · cases H; exact ⟨by assumption, by assumption⟩
        · cases H
    simp only [State.cmd?, State.setCmd, State.modHalf, State.setHalf, State.half, this.1, find?_updateFirst this.2 hc]

/-- A finished command is found with its result. -/
theorem State.cmd?_finish {s : State} {id : Nat} {h : Half} {k c : Cmd} {r : Result} (H : s.cmd? id = some (h, k)) (hc : c.id = id) :
    (s.finish h c r).cmd? id
      = some (h, { c with done := some r, doneAt := s.now h, idle := 0, idleOther := 0, waiting := false, phase := k.phase, stopWith := k.stopWith }) := by
  subst hc
  simp only [State.finish, H]
  exact State.cmd?_setCmd H rfl

theorem State.ended_finish {s : State} {id : Nat} {h : Half} {k c : Cmd} {r : Result} (H : s.cmd? id = some (h, k)) (hc : c.id = id) :
    (s.finish h c r).ended id h r := ⟨_, State.cmd?_finish H hc, rfl⟩

/-- A change of a half that leaves its commands alone leaves every command where it is. -/
theorem State.cmd?_modHalf {s : State} {g : Half} {f : HalfState → HalfState} (hf : ∀ x, (f x).cmds = x.cmds) (id : Nat) :
    (s.modHalf g f).cmd? id = s.cmd? id := by
  cases g <;> exact State.cmd?_congr (by first | exact hf _ | rfl) (by first | exact hf _ | rfl) id

theorem State.cmd?_mem (s : State) (m : Mem) (id : Nat) : ({ s with mem := m } : State).cmd? id = s.cmd? id := rfl

/-- A write of memory changes a half in the lines and rows of its Wellheads alone. -/
theorem State.commit_half (s : State) (new : Mem) (h : Half) :
    (s.commit new).half h = { s.half h with wells := ((s.half h).takeMem s.view new).wells } := by cases h <;> rfl

theorem State.cmd?_commit (s : State) (m : Mem) (id : Nat) : (s.commit m).cmd? id = s.cmd? id := rfl

/-- A change of one half that leaves its commands alone, or nothing at all. -/
theorem State.cmd?_modHalf_ite {s : State} {p : Prop} [Decidable p] {g : Half} {f : HalfState → HalfState}
    (hf : ∀ x, (f x).cmds = x.cmds) (id : Nat) : (if p then s.modHalf g f else s).cmd? id = s.cmd? id := by
  split
  · exact State.cmd?_modHalf hf id
  · rfl

/-- Folding what leaves every command where it is leaves it there. -/
theorem State.cmd?_foldl {α : Type} {f : State → α → State} (id : Nat) (hf : ∀ t a, (f t a).cmd? id = t.cmd? id) (l : List α) (t : State) :
    (l.foldl f t).cmd? id = t.cmd? id := by
  induction l generalizing t with
  | nil => rfl
  | cons a l ih => rw [List.foldl_cons, ih, hf]

theorem State.mem_foldl {α : Type} {f : State → α → State} (hf : ∀ t a, (f t a).mem = t.mem) (l : List α) (t : State) :
    (l.foldl f t).mem = t.mem := by
  induction l generalizing t with
  | nil => rfl
  | cons a l ih => rw [List.foldl_cons, ih, hf]

/-- Counting traffic changes gauges and idle times of domains only. -/
theorem State.cmd?_countTraffic (s : State) (rd wr : Table) (id : Nat) : (s.countTraffic rd wr).cmd? id = s.cmd? id := by
  have go (sub : Nat) (l : Table) (t : State) := State.cmd?_foldl id (f := fun (t : State) (e : Nat × Nat) =>
      if e.1 < 1000 then t.modHalf (Half.ofPart (e.1 / 12)) fun x =>
        (x.touchDomain (e.1 % 12 / 3 * 3 + 1)).gauge 0x02 (3 * 512 + e.1 % 12) sub e.2
      else
        let g := e.1 % 1000
        t.modHalf (Half.ofPart (g / 192)) fun x => x.gauge 0x02 ((if e.1 < 2000 then 512 else 0) + g % 192) sub e.2)
    (fun t a => by
      dsimp only
      split
      · exact State.cmd?_modHalf (fun x => by simp [HalfState.touchDomain]) id
      · exact State.cmd?_modHalf (fun x => by simp) id) l t
  exact (go 1 wr _).trans (go 0 rd s)

theorem State.countTraffic_mem (s : State) (rd wr : Table) : (s.countTraffic rd wr).mem = s.mem := by
  have go (sub : Nat) (l : Table) (t : State) := State.mem_foldl (f := fun (t : State) (e : Nat × Nat) =>
      if e.1 < 1000 then t.modHalf (Half.ofPart (e.1 / 12)) fun x =>
        (x.touchDomain (e.1 % 12 / 3 * 3 + 1)).gauge 0x02 (3 * 512 + e.1 % 12) sub e.2
      else
        let g := e.1 % 1000
        t.modHalf (Half.ofPart (g / 192)) fun x => x.gauge 0x02 ((if e.1 < 2000 then 512 else 0) + g % 192) sub e.2)
    (fun t a => by dsimp only; split <;> simp) l t
  exact (go 1 wr _).trans (go 0 rd s)

/-- Counting bytes changes gauges, idle times of domains and attribution only. -/
theorem State.cmd?_countBytes (s : State) (key : Nat) (rd wr : Table) (id : Nat) :
    (s.countBytes key rd wr).cmd? id = s.cmd? id := by
  unfold State.countBytes
  refine (State.cmd?_modHalf (fun x => ?_) id).trans ((State.cmd?_modHalf (fun x => ?_) id).trans (State.cmd?_countTraffic s rd wr id))
  all_goals (dsimp only; split <;> split <;> simp)

theorem State.countBytes_mem (s : State) (key : Nat) (rd wr : Table) : (s.countBytes key rd wr).mem = s.mem := by
  unfold State.countBytes
  exact (State.modHalf_mem _ _ _).trans ((State.modHalf_mem _ _ _).trans (State.countTraffic_mem s rd wr))

/-- Bytes that cross the Siphon change the arbiter's queues and the attribution only. -/
theorem State.cmd?_crossFor (s : State) (key : Option Nat) (h : Half) (c : SiphonClass) (n id : Nat) :
    (s.crossFor key h c n).cmd? id = s.cmd? id := by
  unfold State.crossFor State.cross
  have hc (x : HalfState) : (x.crossing c n).cmds = x.cmds := by unfold HalfState.crossing; split <;> rfl
  split
  · exact State.cmd?_modHalf_ite hc id
  · exact State.cmd?_modHalf_ite (fun x => by simp) id

theorem State.crossFor_mem (s : State) (key : Option Nat) (h : Half) (c : SiphonClass) (n : Nat) :
    (s.crossFor key h c n).mem = s.mem := by
  unfold State.crossFor State.cross
  split <;> split <;> simp

/-- Counting a run leaves every command where it is, and memory alone. -/
theorem State.cmd?_countRun (s : State) (key : Nat) (r : Run) (id : Nat) : (s.countRun key r).cmd? id = s.cmd? id :=
  (State.cmd?_foldl id (fun t _ => State.cmd?_crossFor t (some key) _ _ _ id) r.crossed _).trans (State.cmd?_countBytes s key r.rd r.wr id)

theorem State.countRun_mem (s : State) (key : Nat) (r : Run) : (s.countRun key r).mem = s.mem :=
  (State.mem_foldl (fun t _ => State.crossFor_mem t (some key) _ _ _) r.crossed _).trans (State.countBytes_mem s key r.rd r.wr)

/-- Nothing stopped a run: its memory takes effect, its bytes are counted, and the command finishes with the result of success. -/
theorem State.applyRun_clean {s : State} {h : Half} {c : Cmd} {e : Env} {r : Run} {ok : Run → Result} (H : r.clean) :
    s.applyRun h c e r ok = ((s.commit r.settle.mem).countRun (attrKey c.packet) r.settle).finish h c (ok r.settle) := by
  obtain ⟨h1, h2, h3, h4⟩ := H
  simp [State.applyRun, h1, h2, h3, h4, mergePuts, State.sendPuts]

/-- What a run that nothing stopped leaves of memory. -/
theorem State.applyRun_mem {s : State} {h : Half} {c : Cmd} {e : Env} {r : Run} {ok : Run → Result} (H : r.clean) :
    (s.applyRun h c e r ok).mem = (s.commit r.settle.mem).mem := by
  rw [State.applyRun_clean H]
  simp [State.countRun_mem]

/-- A run that nothing stopped ends its command with the result of success. -/
theorem State.applyRun_ended {s : State} {id : Nat} {h : Half} {k c : Cmd} {e : Env} {r : Run} {ok : Run → Result} (H : r.clean)
    (hk : s.cmd? id = some (h, k)) (hc : c.id = id) : (s.applyRun h c e r ok).ended id h (ok r.settle) := by
  rw [State.applyRun_clean H]
  refine State.ended_finish (k := k) ?_ hc
  rw [State.cmd?_countRun]
  exact hk

/-! ## Contexts and gates -/

@[simp] theorem HalfState.ctx_id (x : HalfState) (i : Nat) : (x.ctx i).id = i := by
  unfold HalfState.ctx
  cases h : x.ctxs.find? (·.id = i) with
  | none => rfl
  | some c => simpa using List.find?_some h

/-- A context replaced is found; the others are as they were. -/
theorem HalfState.ctx_setCtx (x : HalfState) (c : Ctx) (i : Nat) : (x.setCtx c).ctx i = if i = c.id then c else x.ctx i := by
  have key (l : List Ctx) : ∀ (h : l.any (·.id = c.id)),
      (updateFirst (·.id = c.id) (fun _ => c) l).find? (·.id = i) = if i = c.id then some c else l.find? (·.id = i) := by
    induction l with
    | nil => simp
    | cons a l ih =>
      intro h
      by_cases ha : a.id = c.id
      · by_cases hi : i = c.id
        · simp [updateFirst, ha, hi]
        · have hn : ¬ c.id = i := fun e => hi e.symm
          simp [updateFirst, ha, hi, hn]
      · have h' : l.any (·.id = c.id) := by simpa [ha] using h
        by_cases hi : a.id = i
        · have : ¬ i = c.id := fun e => ha (hi.trans e)
          simp [updateFirst, hi, this]
        · simpa [updateFirst, ha, List.find?_cons, hi] using ih h'
  unfold HalfState.setCtx HalfState.ctx
  dsimp only
  split
  · rename_i h
    rw [key _ h]
    split <;> simp
  · rename_i h
    rw [List.find?_append]
    by_cases hi : i = c.id
    · have hn : x.ctxs.find? (·.id = i) = none := by
        rw [List.find?_eq_none]; intro y hy hyi
        exact h (List.any_eq_true.2 ⟨y, hy, by simpa [hi] using hyi⟩)
      rw [hn]; simp [hi]
    · have hn : ¬ c.id = i := fun e => hi e.symm
      simp [hi, hn]

theorem HalfState.ctx_modCtx {x : HalfState} {j : Nat} {f : Ctx → Ctx} (hf : ∀ c, (f c).id = c.id) (i : Nat) :
    (x.modCtx j f).ctx i = if i = j then f (x.ctx j) else x.ctx i := by
  unfold HalfState.modCtx
  rw [HalfState.ctx_setCtx]
  simp [hf]

@[simp] theorem HalfState.modCtx_cmds (x : HalfState) (j : Nat) (f : Ctx → Ctx) : (x.modCtx j f).cmds = x.cmds := rfl

@[simp] theorem HalfState.modCtx_regs (x : HalfState) (j : Nat) (f : Ctx → Ctx) : (x.modCtx j f).regs = x.regs := rfl

/-- Only the contexts of the halves matter to a gate. -/
theorem State.gate_congr {s t : State} (hq : t.q.ctxs = s.q.ctxs) (hk : t.k.ctxs = s.k.ctxs) (i g : Nat) : t.gate i g = s.gate i g := by
  unfold State.gate HalfState.ctx
  cases gateHome g <;> simp [hq, hk]

theorem Table.at_set (t : Table) (k v j : Nat) : (t.set k v).at j = if j = k then v else t.at j := by
  by_cases h : j = k
  · subst h; simp
  · simp [h, Table.at_set_other h]

/-- Writing a gate writes that gate alone. -/
theorem State.gate_setGate (s : State) (i g v j f : Nat) :
    (s.setGate i g v).gate j f = if j = i ∧ f = g then v % 2 ^ 32 else s.gate j f := by
  unfold State.setGate State.gate
  by_cases hh : gateHome f = gateHome g
  · rw [hh, State.modHalf_half]
    rw [HalfState.ctx_modCtx (f := fun c => { c with gates := c.gates.set g (v % 2 ^ 32) }) (fun _ => rfl)]
    by_cases hj : j = i
    · subst hj; simp [Table.at_set]
    · simp [hj]
  · have hf : ¬ (j = i ∧ f = g) := fun e => hh (by rw [e.2])
    have ho : gateHome f = (gateHome g).other := by
      revert hh; cases gateHome f <;> cases gateHome g <;> simp [Half.other]
    rw [if_neg hf, ho, State.modHalf_other]

end Sys2Proof.Machine
end

