-- ==== Sys2Proof/Laws/Keeps.lean ====
section
/-! SUPPORT. What an operation keeps: the invariant of the block, and the queue. One lemma for each operation, in the form "what leads
to `t` keeps, so what leads to `t.op` keeps", so that a chain of operations is taken apart from the outside in. -/

namespace Sys2Proof.Machine

/-- What leads from `s` to `t` keeps the invariant and leaves the queue alone. -/
structure State.Keeps (s t : State) : Prop where
  inv : s.Inv → t.Inv
  queue : t.pending = s.pending

theorem State.Keeps.refl (s : State) : State.Keeps s s := ⟨id, rfl⟩

theorem State.Keeps.trans {s t u : State} (h : State.Keeps s t) (g : State.Keeps t u) : State.Keeps s u :=
  ⟨g.inv ∘ h.inv, g.queue.trans h.queue⟩

/-- A state written out as a record: memory and codes are what has to be looked at. -/
theorem State.Keeps.mk' {s t u : State} (h : State.Keeps s t) (hp : u.pending = t.pending)
    (hm : t.mem.wf = true → u.mem.wf = true) (hl : t.legal = true → u.legal = true) : State.Keeps s u :=
  ⟨fun i => ⟨hm (h.inv i).1, hl (h.inv i).2⟩, hp.trans h.2⟩

/-- A state that differs in nothing the invariant speaks of. -/
theorem State.Keeps.same {s t u : State} (h : State.Keeps s t) (hp : u.pending = t.pending) (hm : u.mem = t.mem)
    (hl : u.legal = t.legal) : State.Keeps s u :=
  State.Keeps.mk' h hp (hm ▸ id) (hl ▸ id)

/-- Under a premise, a memory is in canonical form. -/
structure MemOk (p : Prop) (m : Mem) : Prop where
  wf : p → m.wf = true

theorem MemOk.setByte {p : Prop} {m : Mem} {a : Nat} {b : Byte} (h : MemOk p m) : MemOk p (m.setByte a b) :=
  ⟨fun i => Mem.setByte_wf a b (h.wf i)⟩

theorem MemOk.write {p : Prop} {m : Mem} {a : Nat} {bs : List Nat} (h : MemOk p m) : MemOk p (m.write a bs) :=
  ⟨fun i => Mem.write_wf a bs (h.wf i)⟩

theorem MemOk.writeBlock {p : Prop} {m : Mem} {b : Nat} {bs : List Nat} (h : MemOk p m) : MemOk p (m.writeBlock b bs) :=
  ⟨fun i => Mem.writeBlock_wf b bs (h.wf i)⟩

theorem MemOk.clear {p : Prop} {m : Mem} {lo hi : Nat} (h : MemOk p m) : MemOk p (m.clear lo hi) :=
  ⟨fun i => Mem.clear_wf lo hi (h.wf i)⟩

theorem MemOk.veil {p : Prop} {m : Mem} {lo hi n : Nat} (h : MemOk p m) : MemOk p (m.veil lo hi n) :=
  ⟨fun i => Mem.veil_wf lo hi n (h.wf i)⟩

/-- Marks of damage are no part of the canonical form. -/
theorem MemOk.marks_iff {p : Prop} {m : Mem} {bs es ls : List Nat} :
    MemOk p { cells := m.cells, veils := m.veils, badBlocks := bs, badEcc := es, badLines := ls } ↔ MemOk p m := ⟨fun h => ⟨h.wf⟩, fun h => ⟨h.wf⟩⟩

theorem MemOk.empty {p : Prop} {bs es ls : List Nat} :
    MemOk p { cells := [], veils := [], badBlocks := bs, badEcc := es, badLines := ls } :=
  ⟨fun _ => rfl⟩

theorem MemOk.ite {p c : Prop} [Decidable c] {a b : Mem} (ha : MemOk p a) (hb : MemOk p b) : MemOk p (if c then a else b) := by
  split
  · exact ha
  · exact hb

theorem MemOk.foldl {α β : Type} {p : Prop} {g : β → Mem} {f : β → α → β} {b : β} {l : List α} (h : MemOk p (g b))
    (hf : ∀ u a, MemOk p (g u) → MemOk p (g (f u a))) : MemOk p (g (l.foldl f b)) := by
  induction l generalizing b with
  | nil => exact h
  | cons a l ih => exact ih (hf b a h)

theorem State.Keeps.mem {s t : State} (h : State.Keeps s t) : MemOk s.Inv t.mem := ⟨fun i => (h.inv i).1⟩

/-- `Keeps` of a state written out as a record. -/
structure State.KeepsRecord (s : State) (q k : HalfState) (m : Mem) (a1 a2 : Nat) (h2 : Half) (a3 : Option Switch) (a4 a5 : Nat)
    (b1 b2 b3 b4 b5 b6 b7 b8 : Bool) (a6 : Nat) (b9 b10 b11 : Bool) (c1 : Option Staging) (c2 : Option Nat)
    (c3 : Option (Nat × List Nat)) (c4 : Option Nat) (b12 : Bool) (a7 a8 : Nat) (c5 : List Nat) (b13 b14 : Bool) (h1 : Half)
    (a9 a10 a11 : Nat) (pd : List Instr) : Prop where
  keeps : State.Keeps s ⟨q, k, m, a1, a2, h2, a3, a4, a5, b1, b2, b3, b4, b5, b6, b7, b8, a6, b9, b10, b11, c1, c2, c3, c4, b12, a7, a8, c5, b13, b14, h1, a9, a10, a11, pd⟩

theorem State.Keeps.record_iff {s : State} {q k : HalfState} {m : Mem} {a1 a2 : Nat} {h2 : Half} {a3 : Option Switch} {a4 a5 : Nat}
    {b1 b2 b3 b4 b5 b6 b7 b8 : Bool} {a6 : Nat} {b9 b10 b11 : Bool} {c1 : Option Staging} {c2 : Option Nat}
    {c3 : Option (Nat × List Nat)} {c4 : Option Nat} {b12 : Bool} {a7 a8 : Nat} {c5 : List Nat} {b13 b14 : Bool} {h1 : Half}
    {a9 a10 a11 : Nat} {pd : List Instr} :
    State.Keeps s ⟨q, k, m, a1, a2, h2, a3, a4, a5, b1, b2, b3, b4, b5, b6, b7, b8, a6, b9, b10, b11, c1, c2, c3,
      c4, b12, a7, a8, c5, b13, b14, h1, a9, a10, a11, pd⟩
      ↔ State.KeepsRecord s q k m a1 a2 h2 a3 a4 a5 b1 b2 b3 b4 b5 b6 b7 b8 a6 b9 b10 b11 c1 c2 c3
      c4 b12 a7 a8 c5 b13 b14 h1 a9 a10 a11 pd :=
  ⟨fun h => ⟨h⟩, fun h => h.keeps⟩

/-- Memory and codes are what has to be looked at. -/
theorem State.KeepsRecord.intro {s t : State} {q k : HalfState} {m : Mem} {a1 a2 : Nat} {h2 : Half} {a3 : Option Switch} {a4 a5 : Nat}
    {b1 b2 b3 b4 b5 b6 b7 b8 : Bool} {a6 : Nat} {b9 b10 b11 : Bool} {c1 : Option Staging} {c2 : Option Nat}
    {c3 : Option (Nat × List Nat)} {c4 : Option Nat} {b12 : Bool} {a7 a8 : Nat} {c5 : List Nat} {b13 b14 : Bool} {h1 : Half}
    {a9 a10 a11 : Nat} (h : State.Keeps s t) (hm : MemOk s.Inv m)
    (hl : t.legal = true → State.legal ⟨q, k, m, a1, a2, h2, a3, a4, a5, b1, b2, b3, b4, b5, b6, b7, b8, a6, b9, b10, b11, c1, c2, c3,
      c4, b12, a7, a8, c5, b13, b14, h1, a9, a10, a11, t.pending⟩ = true) :
    State.KeepsRecord s q k m a1 a2 h2 a3 a4 a5 b1 b2 b3 b4 b5 b6 b7 b8 a6 b9 b10 b11 c1 c2 c3
      c4 b12 a7 a8 c5 b13 b14 h1 a9 a10 a11 t.pending :=
  ⟨⟨fun i => ⟨hm.wf i, hl (h.inv i).2⟩, h.queue⟩⟩

theorem State.Keeps.foldl {α β : Type} {s : State} {g : β → State} {f : β → α → β} {b : β} {l : List α}
    (h : State.Keeps s (g b)) (hf : ∀ u a, State.Keeps s (g u) → State.Keeps s (g (f u a))) : State.Keeps s (g (l.foldl f b)) := by
  induction l generalizing b with
  | nil => exact h
  | cons a l ih => exact ih (hf b a h)

theorem State.Keeps.ite {s a b : State} {p : Prop} [Decidable p] (ha : State.Keeps s a) (hb : State.Keeps s b) :
    State.Keeps s (if p then a else b) := by
  split
  · exact ha
  · exact hb

theorem State.Keeps.foldlS {α : Type} {s t : State} {f : State → α → State} {l : List α} (h : State.Keeps s t)
    (hf : ∀ u a, State.Keeps s u → State.Keeps s (f u a)) : State.Keeps s (l.foldl f t) :=
  State.Keeps.foldl (g := id) h hf

theorem State.Keeps.foldlF {α γ : Type} {s : State} {b : State × γ} {f : State × γ → α → State × γ} {l : List α}
    (h : State.Keeps s b.1) (hf : ∀ u a, State.Keeps s u.1 → State.Keeps s (f u a).1) : State.Keeps s (l.foldl f b).1 :=
  State.Keeps.foldl (g := Prod.fst) h hf

theorem MemOk.foldlM {α : Type} {p : Prop} {b : Mem} {f : Mem → α → Mem} {l : List α} (h : MemOk p b)
    (hf : ∀ u a, MemOk p u → MemOk p (f u a)) : MemOk p (l.foldl f b) := MemOk.foldl (g := id) h hf

theorem MemOk.foldlR {α : Type} {p : Prop} {b : Run} {f : Run → α → Run} {l : List α} (h : MemOk p b.mem)
    (hf : ∀ u a, MemOk p u.mem → MemOk p (f u a).mem) : MemOk p (l.foldl f b).mem := MemOk.foldl (g := Run.mem) h hf

theorem MemOk.foldlRF {α γ : Type} {p : Prop} {b : Run × γ} {f : Run × γ → α → Run × γ} {l : List α} (h : MemOk p b.1.mem)
    (hf : ∀ u a, MemOk p u.1.mem → MemOk p (f u a).1.mem) : MemOk p (l.foldl f b).1.mem :=
  MemOk.foldl (g := fun x : Run × γ => x.1.mem) h hf

theorem MemOk.foldlRS {α γ : Type} {p : Prop} {b : γ × Run} {f : γ × Run → α → γ × Run} {l : List α} (h : MemOk p b.2.mem)
    (hf : ∀ u a, MemOk p u.2.mem → MemOk p (f u a).2.mem) : MemOk p (l.foldl f b).2.mem :=
  MemOk.foldl (g := fun x : γ × Run => x.2.mem) h hf

theorem MemOk.foldlT {α : Type} {p : Prop} {b : TileEff} {f : TileEff → α → TileEff} {l : List α} (h : MemOk p b.run.mem)
    (hf : ∀ u a, MemOk p u.run.mem → MemOk p (f u a).run.mem) : MemOk p (l.foldl f b).run.mem :=
  MemOk.foldl (g := fun x : TileEff => x.run.mem) h hf

theorem MemOk.foldlB {α : Type} {p : Prop} {b : BatchStep} {f : BatchStep → α → BatchStep} {l : List α} (h : MemOk p b.run.mem)
    (hf : ∀ u a, MemOk p u.run.mem → MemOk p (f u a).run.mem) : MemOk p (l.foldl f b).run.mem :=
  MemOk.foldl (g := fun x : BatchStep => x.run.mem) h hf

/-- The state that a handler of a frame answers with. -/
def Answer.state : Answer → State
  | .done s => s
  | .refuse s _ => s
  | .later s => s

@[simp] theorem Answer.state_done (s : State) : (Answer.done s).state = s := rfl
@[simp] theorem Answer.state_refuse (s : State) (n : Nat) : (Answer.refuse s n).state = s := rfl
@[simp] theorem Answer.state_later (s : State) : (Answer.later s).state = s := rfl

theorem State.Keeps.of_done {s t : State} {a : Answer} (e : a = .done t) (h : State.Keeps s a.state) : State.Keeps s t := by
  subst e; exact h

theorem State.Keeps.of_refuse {s t : State} {n : Nat} {a : Answer} (e : a = .refuse t n) (h : State.Keeps s a.state) :
    State.Keeps s t := by
  subst e; exact h

theorem State.Keeps.of_later {s t : State} {a : Answer} (e : a = .later t) (h : State.Keeps s a.state) : State.Keeps s t := by
  subst e; exact h

/-- What requesters read of the memories. -/
theorem State.Keeps.view {s t : State} (h : State.Keeps s t) : MemOk s.Inv t.view := ⟨fun i => State.view_wf (h.inv i).1⟩

/-- The memory that a tile's op sees is what requesters read. -/
theorem MemOk.tileIn {s t : State} {h : Half} {c : Cmd} {g : Nat} (H : State.Keeps s t) : MemOk s.Inv (t.tileIn h c g).mem := H.view

/-- A write of memory keeps the invariant. -/
theorem State.commit_keeps {s t : State} {m : Mem} (H : State.Keeps s t) (hm : MemOk s.Inv m) : State.Keeps s (t.commit m) :=
  ⟨fun i => ⟨State.commit_wf t (hm.wf i), (H.inv i).2⟩, H.queue⟩

/-! ## The operations of Ops.lean -/

theorem State.setHalf_keeps {s t : State} {h : Half} {x : HalfState} (H : State.Keeps s t) : State.Keeps s (t.setHalf h x) := by
  cases h <;> exact State.Keeps.same H rfl rfl rfl

theorem State.modHalf_keeps {s t : State} {h : Half} {f : HalfState → HalfState} (H : State.Keeps s t) :
    State.Keeps s (t.modHalf h f) := State.setHalf_keeps H

theorem onCommand_keeps {s t : State} {id op : Nat} {sub : Cmd → Bool} {f : State → Half → Cmd → State} (H : State.Keeps s t)
    (hf : ∀ u h c, State.Keeps s u → State.Keeps s (f u h c)) : State.Keeps s (onCommand t id op sub f) := by
  unfold onCommand
  split
  · split
    · exact hf _ _ _ H
    · exact H
  · exact H

end Sys2Proof.Machine
end

