-- ==== Sys2Proof/Laws/Word.lean ====
section
/-! SUPPORT. Fields of numbers: what writing one field does to it and to the others. -/

namespace Sys2Proof

theorem bits_eq (r lo w : Nat) : bits r lo w = r / 2 ^ lo % 2 ^ w := by simp [bits, Nat.shiftRight_eq_div_pow]

theorem place_eq (v lo w : Nat) : place v lo w = v % 2 ^ w * 2 ^ lo := by simp [place, Nat.shiftLeft_eq]

theorem bits_lt (r lo w : Nat) : bits r lo w < 2 ^ w := by rw [bits_eq]; exact Nat.mod_lt _ (by positivity)

/-- A record cut at a field: what is above it, the field, and what is below. -/
theorem record_eq (r lo w : Nat) : r = (r / 2 ^ (lo + w) * 2 ^ w + bits r lo w) * 2 ^ lo + r % 2 ^ lo := by
  rw [bits_eq, Nat.pow_add, ← Nat.div_div_eq_div_mul]
  have h1 := Nat.div_add_mod r (2 ^ lo)
  have h2 := Nat.div_add_mod (r / 2 ^ lo) (2 ^ w)
  rw [Nat.mul_comm (r / 2 ^ lo / 2 ^ w), h2, Nat.mul_comm]
  exact h1.symm

theorem setBits_eq (r lo w v : Nat) : setBits r lo w v = (r / 2 ^ (lo + w) * 2 ^ w + v % 2 ^ w) * 2 ^ lo + r % 2 ^ lo := by
  have h := record_eq r lo w
  unfold setBits
  rw [place_eq, Nat.shiftLeft_eq]
  generalize r / 2 ^ (lo + w) * 2 ^ w = a at *
  generalize bits r lo w = b at *
  generalize r % 2 ^ lo = c at *
  rw [h, Nat.add_mul, Nat.add_mul]
  omega

/-- A field written reads back. -/
@[simp] theorem bits_setBits_same (r lo w v : Nat) : bits (setBits r lo w v) lo w = v % 2 ^ w := by
  rw [setBits_eq, bits_eq, Nat.mul_comm, Nat.mul_add_div (by positivity), Nat.div_eq_of_lt (Nat.mod_lt r (by positivity)),
    Nat.add_zero, Nat.add_comm, Nat.add_mul_mod_self_right, Nat.mod_mod]

/-- A field below a written one keeps its value. -/
theorem bits_setBits_below {r lo w v lo' w' : Nat} (h : lo' + w' ≤ lo) : bits (setBits r lo w v) lo' w' = bits r lo' w' := by
  obtain ⟨d, rfl⟩ := Nat.exists_eq_add_of_le h
  have e (a : Nat) : a * 2 ^ (lo' + w' + d) / 2 ^ lo' % 2 ^ w' = 0 := by
    rw [show a * 2 ^ (lo' + w' + d) = a * 2 ^ d * 2 ^ w' * 2 ^ lo' by rw [Nat.pow_add, Nat.pow_add]; ring,
      Nat.mul_div_cancel _ (by positivity), Nat.mul_mod_left]
  have k (a c : Nat) : (a * 2 ^ (lo' + w' + d) + c) / 2 ^ lo' % 2 ^ w' = c / 2 ^ lo' % 2 ^ w' := by
    rw [show a * 2 ^ (lo' + w' + d) = a * 2 ^ d * 2 ^ w' * 2 ^ lo' by rw [Nat.pow_add, Nat.pow_add]; ring, Nat.add_comm,
      Nat.add_mul_div_right _ _ (by positivity), Nat.add_mul_mod_self_right]
  rw [setBits_eq, bits_eq, bits_eq, k]
  conv_rhs => rw [record_eq r (lo' + w' + d) w]
  rw [k]

/-- A field above a written one keeps its value. -/
theorem bits_setBits_above {r lo w v lo' w' : Nat} (h : lo + w ≤ lo') : bits (setBits r lo w v) lo' w' = bits r lo' w' := by
  obtain ⟨d, rfl⟩ := Nat.exists_eq_add_of_le h
  have cut (f : Nat) (hf : f < 2 ^ w) : ((r / 2 ^ (lo + w) * 2 ^ w + f) * 2 ^ lo + r % 2 ^ lo) / 2 ^ (lo + w + d) = r / 2 ^ (lo + w) / 2 ^ d := by
    rw [Nat.pow_add 2 (lo + w) d, ← Nat.div_div_eq_div_mul, Nat.pow_add, ← Nat.div_div_eq_div_mul, Nat.mul_comm _ (2 ^ lo),
      Nat.mul_add_div (by positivity), Nat.div_eq_of_lt (Nat.mod_lt r (by positivity)), Nat.add_zero, Nat.mul_comm _ (2 ^ w),
      Nat.mul_add_div (by positivity), Nat.div_eq_of_lt hf, Nat.add_zero]
  rw [bits_eq, bits_eq, setBits_eq, cut _ (Nat.mod_lt _ (by positivity))]
  conv_rhs => rw [record_eq r lo w, cut _ (bits_lt _ _ _)]

end Sys2Proof
end

