-- ==== Sys2Proof/Laws/Registers.lean ====
section
/-! SUPPORT. Laws of the register cells: a cell or field written reads back, and every other cell is left alone. -/

namespace Sys2Proof.Machine

@[simp] theorem HalfState.cell_setCell_same (x : HalfState) (h : Half) (k v : Nat) : (x.setCell k v).cell h k = v := by
  simp [HalfState.cell, HalfState.setCell]

theorem HalfState.cell_setCell_other {j k : Nat} (e : j ≠ k) (x : HalfState) (h : Half) (v : Nat) :
    (x.setCell k v).cell h j = x.cell h j := by
  simp [HalfState.cell, HalfState.setCell, find_put_other e]

/-- Only the registers matter to a cell. -/
theorem HalfState.cell_congr {x y : HalfState} (e : x.regs = y.regs) (h : Half) (k : Nat) : x.cell h k = y.cell h k := by
  simp [HalfState.cell, e]

@[simp] theorem HalfState.bits_setField_same (x : HalfState) (h : Half) (k lo w v : Nat) :
    bits ((x.setField h k lo w v).cell h k) lo w = v % 2 ^ w := by
  simp [HalfState.setField, bits_setBits_same]

@[simp] theorem HalfState.setCell_frozen (x : HalfState) (k v : Nat) : (x.setCell k v).frozen = x.frozen := rfl

end Sys2Proof.Machine
end

