-- ==== Sys2Proof/WellFormed.lean ====
section
/-! DEFINITION. Well-formed commands: every operand lies in the range that the spec gives it. The command identity of a software
command, a name the model gives at admission, has no range. -/

namespace Sys2Proof

/-- A payload of bytes. -/
def bytesWf (l : List Nat) : Bool := l.all (· < 256)

/-- A ring a packet can come from: the management ring, or ring 0 to 31 of one of the sixteen contexts (R70, R80, R81). -/
def RingRef.wf : RingRef → Bool
  | .mgmt => true
  | .ctx c n => c < 16 && n < 32

/-- The body of a ROW frame: a table number of a context, row numbers, and bytes (R290, R291, R317, R329). -/
def RowBody.wf : RowBody → Bool
  | .none => true
  | .request t rows => t < 65536 && rows.all (· < 2 ^ 40)
  | .reply t row bs => t < 65536 && row < 2 ^ 40 && bytesWf bs
  | .exactSum t row _ ps => t < 65536 && row < 2 ^ 40 && ps.all fun p => decide (-2 ^ 63 ≤ p ∧ p < 2 ^ 63)
  | .staged t row _ _ => t < 65536 && row < 2 ^ 40
  | .copy t row bs sh => t < 65536 && row < 2 ^ 40 && bytesWf bs && sh.all fun p => decide (-2 ^ 63 ≤ p ∧ p < 2 ^ 63)

/-- The fields of a frame fit the header of R378, and its payload bytes are absent or one block. -/
def Frame.wf (f : Frame) : Bool :=
  f.type < 16 && f.vc < 16 && f.dst < 4096 && f.src < 4096 && f.ctx < 16 && f.gen < 2 ^ 32 && f.crc < 2 ^ 32 && f.seq < 2 ^ 24
    && f.addr < 2 ^ 48 && f.arg < 2 ^ 48 && f.ver < 256 && (f.data.isEmpty || f.data.length == 256) && bytesWf f.data && f.row.wf

/-- A tile of the module: 48 of each of the eight compute dies (R126). -/
def tileWf (g : Nat) : Bool := g < 384

/-- A compute die of the module (R78). -/
def dieWf (d : Nat) : Bool := d < 8

/-- A port of a hub: four of the torus, and the spur (R375). -/
def portWf (p : Nat) : Bool := p ≤ 4

/-- What carries stroke exchange words: a port of the torus, or the Siphon as 8 (R44, R47). -/
def timePortWf (p : Nat) : Bool := p < 4 || p == 8

/-- A fault source number within a half (R428, R454). -/
def sourceWf (n : Nat) : Bool := n < 1024

/-- A seven-bit address of the management bus (R508). -/
def addressWf (a : Nat) : Bool := a < 128

/-- Is every operand of a command in its range? -/
def Instr.wf : Instr → Bool
  | .stuEpochOffsetWrite _ v => v < 2 ^ 64
  | .fclStickyAck _ n | .fclForce _ n | .wireFault _ n | .faultBroadcast _ n => sourceWf n
  | .faultOccurrence _ n _ => sourceWf n
  | .tileEnd g | .tileNop g | .gateWait g | .loop g | .aadd g | .aset g | .mma g | .mdrain g | .vadd g | .vmul g | .vfma g
  | .vmax g | .vmin g | .vsel g | .vexp2 g | .vlog2 g | .vrcp g | .vrsqrt g | .vcvt g | .vlred g | .vxred g | .vmov g
  | .ld g | .st g | .gtgt g | .gzero g | .groupOverLimit g => tileWf g
  | .headCheck _ r | .examination _ r => r.wf
  | .doorbell f | .doorbellRelay f | .ringWrite f | .spurReadReq f | .spurRecoveryStream f => f.wf
  | .windowStart _ c | .thermalTrip _ c => c < 256
  | .idleGating _ d | .domainWake _ d => d < 17
  | .strokeExchangeSend _ p t => timePortWf p && t < 16
  | .strokeExchangeReceive _ p t w => timePortWf p && t < 16 && w < 2 ^ 256
  | .strokeRefEdge t => t < 16
  | .siphonBlockReceive _ a b c _ => a < 2 ^ 41 && b.length = 256 && bytesWf b && c < 2 ^ 32
  | .capabilityExchange _ p r => portWf p && r < 2 ^ 512
  | .portDown _ p c => portWf p && c < 8
  | .portRetrain _ p | .linkReplay _ p => portWf p
  | .creditReturn _ p vc _ => portWf p && vc < 16 + 2 ^ 32
  | .frameForward _ p f | .readReq _ p f | .readResp _ p f | .write _ p f | .ack _ p f | .nack _ p f | .rowRequest _ p f
  | .rowReply _ p f | .exactSumPartial _ p f | .stagingRecord _ p f | .migrationCopy _ p f | .collectiveFrame _ p f
  | .collectiveDescriptorFrame _ p f | .stream _ p f | .streamAbort _ p f | .digestMessage _ p f | .digestVerdict _ p f
  | .teardownNotice _ p f | .freezeNotice _ p f | .routeChangeNotice _ p f => portWf p && f.wf
  | .ackSend _ src => src < 4096
  | .heartbeatMissed _ core => core < 4
  | .scrubComplete _ c => c ≤ 16
  | .mapDrain _ c => c < 16
  | .captureFold d | .hotsetRefresh d | .sketchAging d => dieWf d
  | .wellheadDegraded d w => dieWf d && w < 16
  | .collectiveDeadline _ tag => tag < 65536
  | .migrationSwitch _ t | .migrationForwarding _ t | .migrationRetire _ t => t < 65536
  | .rowMoveComplete d row => dieWf d && row < 2 ^ 40
  | .patrol _ stack b n => stack < 12 && b < 2 ^ 28 && n ≤ 4
  | .railFail n => 1 ≤ n && n ≤ 7
  | .romEntry _ sel _ => sel < 4
  | .trainingStepTimeout _ p => p ≤ 5
  | .mgmtStatus a | .rstdaa a | .enec a | .disec a | .getstatus a | .getbcr a | .getdcr a | .getmwl a | .getmrl a => addressWf a
  | .mgmtPacket a bs => addressWf a && bytesWf bs
  | .mgmtReply a part => addressWf a && part < 256
  | .mgmtRecovery a part off bs => addressWf a && part < 256 && off < 2 ^ 32 && bytesWf bs
  | .setdasa a d => addressWf a && addressWf d
  | .setmwl a n | .setmrl a n => addressWf a && n < 65536
  | .rstact a n => addressWf a && n < 256
  | .nop _ | .queryGeometry _ | .regRead _ | .regWrite _ | .configCommit _ | .gateSet _ | .hangReportGraph _
  | .hangReportReadCollected _ | .freezeArmAtStroke _ | .freezeArmOnSource _ | .freezeArmRelease _ | .gaugeRead _
  | .traceCtlStart _ | .traceCtlStop _ | .traceCtlReset _ | .traceCtlClearAttr _ | .ctxDefine _ | .ctxSwitch _ | .ctxTeardown _
  | .ctxRelease _ | .ringDefine _ | .ringDelete _ | .mapWrite _ | .tileProgramLoad _ | .tileRun _ | .matmul _ | .vector _
  | .scaleLoadSet _ | .scaleLoadAdvance _ | .scaleLoadClearOvf _ | .scaleRead _ | .move _ | .gatherBlocks _ | .scatterBlocks _
  | .gramReduce _ | .root _ | .ortho _ | .solveBatch _ | .update _ | .reconcile _ | .shardDigestCompute _
  | .shardDigestComputeCompare _ | .shardDigestCompareRecord _ | .tableDefine _ | .tableDelete _ | .lookup _ | .hotsetLoad _
  | .embGrad _ | .embFold _ | .embFoldDiscard _ | .rowMigrate _ | .weightStreamStore _ | .weightStreamVerify _
  | .epochSwitchCreate _ | .epochSwitchMakeCurrent _ | .epochSwitchBind _ | .epochSwitchRelease _ | .epochSwitchDrop _
  | .reduceScatter _ | .allGather _ | .allReduce _ | .ckptSlotDefine _ | .ckptSlotHold _ | .ckptSlotRelease _ | .ckptSlotDelete _
  | .preserve _ | .unpreserve _ | .hwmReset _ | .neighbourCkptWrite _ | .neighbourCkptVerify _ | .neighbourRestore _
  | .fwStageHeader _ | .fwStageBody _ | .fwStageWrite _ | .fwStageAbort _ | .fwActivate _ | .settingsWriteBegin _
  | .settingsWriteData _ | .settingsWriteEnd _ | .settingsWriteAbort _ | .settingsConfirm _ | .attestMeasure _ | .attestSign _
  | .attestIdentity _ => true
  | .admission _ | .commandComplete _ | .commandSuspend _ | .cscSample _ _ _ _ | .windowEnd _ | .freeze _ | .routeCommit _
  | .configCommitFire _ | .firmwareActivation _ | .activationHeartbeatCheck _ _ | .siphonDown | .siphonLaneRepair | .siphonRetry _
  | .siphonTrainingRequest _ | .siphonTrainingTimeout | .siphonActive | .mirroredCommand _ | .remoteGateSignal _ | .escalation _
  | .watchdogExpiry _ | .collectionEnd _ | .teardownStop _ | .quiesceComplete | .saveComplete | .restoreComplete
  | .solveDeadline _ | .traceGap _ | .pwrEnRise | .pwrEnFall | .powerFail _ | .powerRestart | .refclkLoss | .halfResetNAssert _
  | .halfResetNRelease _ | .modResetNAssert | .alwaysOnEntry _ | .loaderBoot _ | .firmwareStart _ | .strokeParentTimeout _
  | .halfReady _ | .recoveryImageWritten _ | .mgmtPacketEnqueue _ | .setaasa | .tapReset | .bypass | .idcode | .samplePreload _
  | .extest | .clamp | .highz | .strokeIncrement _ | .trainingFailed _ | .siphonFlitRetry _ | .pwrEnHoldoffEnd | .diesCooled => true

end Sys2Proof
end

