-- ==== Sys2Proof/Tests/Slice0.lean ====
section
/-! SUPPORT. The model's own tests: ill-formed commands that the check of WellFormed refuses, and for each statement of
Certificates/Slice0/Obligations.lean whose clauses have hypotheses, states and operands that meet them together. -/

namespace Sys2Proof.Tests

-- The tests are evaluated one after the other: together their evaluations ask for more threads than a check may have.
set_option Elab.async false

open Sys2Proof Sys2Proof.Machine

/-! ## Well-formed commands -/

/-- A frame whose header fields all have the highest value they can hold. -/
def widestFrame : Frame :=
  { type := 15, vc := 15, dst := 4095, src := 4095, ctx := 15, gen := 2 ^ 32 - 1, crc := 2 ^ 32 - 1, seq := 2 ^ 24 - 1
    addr := 2 ^ 48 - 1, arg := 2 ^ 48 - 1, ver := 255, data := List.replicate 256 255, row := .exactSum 65535 (2 ^ 40 - 1) 0 [-2 ^ 63, 2 ^ 63 - 1] }

/-- Commands with every operand at the end of its range. -/
def wellFormed : List Instr :=
  [.stuEpochOffsetWrite .q (2 ^ 64 - 1), .fclStickyAck .q 1023, .fclForce .k 1023, .wireFault .q 1023, .faultBroadcast .q 1023,
   .faultOccurrence .q 1023 7, .tileEnd 383, .mma 383, .st 0, .groupOverLimit 383, .headCheck .q .mgmt, .headCheck .q (.ctx 15 31),
   .examination .k (.ctx 0 0), .doorbell widestFrame, .windowStart .q 255, .thermalTrip .k 255, .idleGating .q 16, .domainWake .k 16,
   .strokeExchangeSend .q 8 15, .strokeExchangeSend .q 3 15, .strokeExchangeReceive .k 8 15 (2 ^ 256 - 1), .strokeRefEdge 15,
   .siphonBlockReceive .q (2 ^ 41 - 1) (List.replicate 256 255) (2 ^ 32 - 1) 1, .capabilityExchange .q 4 (2 ^ 512 - 1),
   .portDown .q 4 7, .portRetrain .q 4, .creditReturn .q 4 15 1, .readReq .q 4 widestFrame,
   .rowRequest .q 0 { type := 5, row := .request 65535 [2 ^ 40 - 1] }, .rowReply .q 0 { type := 5, row := .reply 65535 (2 ^ 40 - 1) [255] },
   .stagingRecord .q 0 { type := 5, row := .staged 65535 (2 ^ 40 - 1) 0 [] },
   .migrationCopy .q 0 { type := 5, row := .copy 65535 (2 ^ 40 - 1) [255] [2 ^ 63 - 1] },
   .ackSend .q 4095, .heartbeatMissed .q 3, .scrubComplete .q 16, .mapDrain .q 15, .captureFold 7, .wellheadDegraded 7 15,
   .collectiveDeadline .q 65535, .migrationSwitch .q 65535, .rowMoveComplete 7 (2 ^ 40 - 1), .patrol .q 11 (2 ^ 28 - 1) 4, .railFail 1,
   .railFail 7, .romEntry .q 3 true, .trainingStepTimeout .q 5, .mgmtStatus 127, .mgmtPacket 127 [255], .mgmtReply 127 255,
   .mgmtRecovery 127 255 (2 ^ 32 - 1) [255], .setdasa 127 127, .setmwl 127 65535, .rstact 127 255]

/-- For each check of `Frame.wf` and `RowBody.wf` a frame that breaks it and no other. -/
def illFormedFrames : List Frame :=
  [{ type := 16 }, { type := 0, vc := 16 }, { type := 0, dst := 4096 }, { type := 0, src := 4096 }, { type := 0, ctx := 16 },
    { type := 0, gen := 2 ^ 32 }, { type := 0, crc := 2 ^ 32 }, { type := 0, seq := 2 ^ 24 }, { type := 0, addr := 2 ^ 48 },
    { type := 0, arg := 2 ^ 48 }, { type := 0, ver := 256 }, { type := 0, data := List.replicate 255 0 }, { type := 0, data := List.replicate 257 0 }, { type := 0, data := 256 :: List.replicate 255 0 },
    { type := 5, row := .request 65536 [] }, { type := 5, row := .request 0 [2 ^ 40] }, { type := 5, row := .reply 65536 0 [] },
    { type := 5, row := .reply 0 (2 ^ 40) [] }, { type := 5, row := .reply 0 0 [256] }, { type := 5, row := .exactSum 65536 0 0 [] },
    { type := 5, row := .exactSum 0 (2 ^ 40) 0 [] }, { type := 5, row := .exactSum 0 0 0 [2 ^ 63] },
    { type := 5, row := .exactSum 0 0 0 [-2 ^ 63 - 1] }, { type := 5, row := .staged 65536 0 0 [] }, { type := 5, row := .staged 0 (2 ^ 40) 0 [] },
    { type := 5, row := .copy 65536 0 [] [] }, { type := 5, row := .copy 0 (2 ^ 40) [] [] }, { type := 5, row := .copy 0 0 [256] [] },
    { type := 5, row := .copy 0 0 [] [2 ^ 63] }]

/-- For each check of `Instr.wf` and `RingRef.wf` a command that breaks it and no other. -/
def illFormed : List Instr :=
  [.stuEpochOffsetWrite .q (2 ^ 64), .fclStickyAck .q 1024, .fclForce .k 1024, .wireFault .q 1024, .faultBroadcast .q 1024,
   .faultOccurrence .q 1024 7, .tileEnd 384, .mma 384, .st 384, .groupOverLimit 384, .headCheck .q (.ctx 16 0), .examination .q (.ctx 0 32),
   .windowStart .q 256, .thermalTrip .k 256, .idleGating .q 17, .domainWake .k 17, .strokeExchangeSend .q 4 0, .strokeExchangeSend .q 9 0, .strokeExchangeSend .q 0 16,
   .strokeExchangeReceive .q 4 0 0, .strokeExchangeReceive .q 0 16 0, .strokeExchangeReceive .q 0 0 (2 ^ 256), .strokeRefEdge 16,
   .siphonBlockReceive .q (2 ^ 41) (List.replicate 256 0) 0 1, .siphonBlockReceive .q 0 (List.replicate 255 0) 0 1,
   .siphonBlockReceive .q 0 (List.replicate 256 256) 0 1, .siphonBlockReceive .q 0 (List.replicate 256 0) (2 ^ 32) 1,
   .capabilityExchange .q 5 0, .capabilityExchange .q 0 (2 ^ 512), .portDown .q 5 0, .portDown .q 0 8, .portRetrain .q 5,
   .creditReturn .q 5 0 1, .creditReturn .q 0 (2 ^ 33) 1, .readReq .q 5 { type := 0 }, .ackSend .q 4096, .heartbeatMissed .q 4,
   .scrubComplete .q 17, .mapDrain .q 16, .captureFold 8, .wellheadDegraded 8 0, .wellheadDegraded 0 16, .collectiveDeadline .q 65536,
   .migrationSwitch .q 65536, .rowMoveComplete 8 0, .rowMoveComplete 0 (2 ^ 40), .patrol .q 12 0 0, .patrol .q 0 (2 ^ 28) 0, .patrol .q 0 0 5,
   .railFail 0, .railFail 8, .romEntry .q 4 true, .trainingStepTimeout .q 6, .mgmtStatus 128, .mgmtPacket 128 [], .mgmtPacket 0 [256],
   .mgmtReply 128 0, .mgmtReply 0 256, .mgmtRecovery 128 0 0 [], .mgmtRecovery 0 256 0 [], .mgmtRecovery 0 0 (2 ^ 32) [],
   .mgmtRecovery 0 0 0 [256], .setdasa 128 0, .setdasa 0 128, .setmwl 128 0, .setmwl 0 65536, .rstact 128 0, .rstact 0 256]

theorem test_wellFormed_accepted : wellFormed.all Instr.wf = true := by decide +kernel

theorem test_illFormed_refused : (illFormed ++ illFormedFrames.map Instr.doorbell).all (fun i => !i.wf) = true := by decide +kernel

/-! ## States and commands for the witnesses -/

/-- A packet of one payload unit: the opcode in its header, and payload fields as (first bit counted from payload unit 0, width,
value). -/
def packet (op : Nat) (fields : List (Nat × Nat × Nat)) : Nat :=
  place op 0 16 + place 1 112 16 + total (fields.map fun f => place f.2.2 (512 + f.1) f.2.1)

/-- An admitted command of context 0 in execution, with that packet and the records that its examination read. -/
def command (op : Nat) (fields : List (Nat × Nat × Nat)) (records : List Nat := []) : Cmd :=
  { id := 1, ring := .ctx 0 0, packet := packet op fields, ctx := some 0
    exam := { records := records.map fun v => { cxa := 0, len := 64, value := v } } }

/-- The same command acting in both halves, its copy received (R31). -/
def inBoth (c : Cmd) : Cmd := { c with twoHalf := true, mirrored := true }

/-- Context 0, resident in both halves, with pages 0 and 1 mapped to writable frames 16 and 17 of the Q half (R36). -/
def context : Ctx :=
  { id := 0, gen := 1, st := .resident, footprint := 3, map := [(0, 16 * 4096 + 513), (1, 17 * 4096 + 513)]
    shadow := [(0, 16 * 4096 + 513), (1, 17 * 4096 + 513)] }

/-- A READY half with context 0 resident. -/
def readyHalf : HalfState := { boot := .ready, ctxs := [context], gens := [(0, 1)], resident := some 0 }

/-- Both halves READY, the Siphon ACTIVE, and one command in execution in the Q half. -/
def running (c : Cmd) : State := { q := { readyHalf with cmds := [c] }, k := readyHalf, siphon := 2 }

/-- Every software opcode of the table. -/
def opcodes : List Nat :=
  [0x0000, 0x0001, 0x0002, 0x0003, 0x0004, 0x0005, 0x0006, 0x0007, 0x0008, 0x0009, 0x0101, 0x0102, 0x0103, 0x0104, 0x0105, 0x0106,
   0x0107, 0x0201, 0x0202, 0x0203, 0x0204, 0x0205, 0x0206, 0x0301, 0x0302, 0x0303, 0x0401, 0x0402, 0x0403, 0x0501, 0x0601, 0x0602,
   0x0603, 0x0701, 0x0702, 0x0703, 0x0704, 0x0705, 0x0706, 0x0801, 0x0802, 0x0901, 0x0902, 0x0903, 0x0A01, 0x0A02, 0x0A03, 0x0B01,
   0x0B02, 0x0B03, 0x0B04, 0x0B05]

/-- A command of every opcode can be in execution: what each completion statement assumes first. -/
theorem witness_runs : ∀ op ∈ opcodes, (running (command op [])).runs 1 .q (command op []) op := by decide +kernel

/-! ## The block as a whole -/

theorem witness_FrontOfQueueRuns : ∃ s : State, s.pending = .nop 1 :: [.siphonDown] := ⟨{ State.reset with pending := [.nop 1, .siphonDown] }, rfl⟩

theorem witness_StepKeepsInvariant : ∃ s t : State, s.mem.cells ≠ [] ∧ s.Inv ∧ step s = .next t :=
  ⟨{ State.reset with mem := State.reset.mem.write 7 [1], pending := [.nop 1] }, _, by decide +kernel, by unfold State.Inv; decide +kernel, rfl⟩

theorem witness_CommandsLeaveTheQueue : ∃ s t : State, s.pending ≠ [] ∧ exec (.nop 1) s = .next t :=
  ⟨{ State.reset with pending := [.siphonDown] }, _, by decide, rfl⟩

theorem witness_WrittenBytesReadBack :
    (∀ b ∈ [0, 255], b < 256) ∧ (Mem.write {} 5 [1]).wf = true ∧ (4 < 5 ∨ 5 + [0, 255].length ≤ 4) := by decide +kernel

/-! ## Control commands -/

theorem witness_ControlCommandsComplete :
    (∀ op ∈ [0, 1, 2, 3], (running (command op [])).runs 1 .q (command op []) op)
    ∧ (running (command 3 [])).reaches .q (packet 3 []) = true ∧ (running (command 3 [])).commitDue = false
    ∧ (running (command 2 [])).reaches .q (packet 2 []) = true
    ∧ (running (command 4 [])).runs 1 .q (command 4 []) 4 ∧ ccStroke (packet 4 []) = 0
    ∧ (running (inBoth (command 4 []))).runs 1 .q (inBoth (command 4 [])) 4 := by decide +kernel

theorem witness_GateSetWritesItsGate :
    (running (command 5 [(0, 32, 7), (32, 12, 4095)])).runs 1 .q (command 5 [(0, 32, 7), (32, 12, 4095)]) 5
    ∧ pl (packet 5 [(0, 32, 7), (32, 12, 4095)]) 32 12 = 4095 := by decide +kernel

/-- A wait at both ends of the range of the difference, and one that tolerates wrap. -/
theorem witness_GateWaitIsASignedDifference :
    waitHolds 5 5 = true ∧ waitHolds 4 5 = false ∧ waitHolds (2 ^ 31 + 4) 5 = true ∧ waitHolds (2 ^ 31 + 5) 5 = false
    ∧ waitHolds 3 (2 ^ 32 - 1) = true := by decide +kernel

theorem witness_EventsAreArmed :
    (∀ c ∈ [command 4 [(64, 64, 5000)], inBoth (command 4 [(64, 64, 5000)])],
        (running c).runs 1 .q c 4 ∧ ccStroke c.packet ≠ 0 ∧ (running c).q.slotsUsed < 8 ∧ (running c).k.slotsUsed < 8)
    ∧ (running (command 0x0B02 [])).runs 1 .q (command 0x0B02 []) 0x0B02
    ∧ (running (command 7 [])).runs 1 .q (command 7 []) 7 ∧ faMode (packet 7 []) = 0 := by decide +kernel

theorem witness_FreezeAndTraceControlComplete :
    (∀ m ∈ [1, 2], faMode (packet 7 [(0, 2, m)]) = m ∧ (running (command 7 [(0, 2, m)])).runs 1 .q (command 7 [(0, 2, m)]) 7)
    ∧ (∀ m ∈ [1, 2, 3, 4], ∀ g ∈ [0, 1], tcOp (packet 9 [(0, 3, m), (3, 1, g)]) = m ∧ tcHalf (packet 9 [(0, 3, m), (3, 1, g)]) = Half.ofPart g
        ∧ (running (command 9 [(0, 3, m), (3, 1, g)])).runs 1 .q (command 9 [(0, 3, m), (3, 1, g)]) 9) := by decide +kernel

/-- The Q half holds a frozen set, and the other half's record of it is valid. -/
def reporting (c : Cmd) : State :=
  (running c).modHalf .q fun x => { x with
    frozen := some { freezeId := 1, stroke := 5, late := false, gauges := [], attr := [], stale := [], offset := 0 }
    regs := [(hubKey bFCL 5, 1)] }

/-- A GAUGE_READ of one BUSY gauge, or of what else its source holds. -/
def gaugeCmd (source : Nat) : Cmd := { command 8 [(0, 3, source), (8, 8, 1), (64, 16, 1)] with ctx := none }

theorem witness_ReportsComplete :
    ((∀ m ∈ [0, 1], (running (command 8 [(0, 3, m)])).runs 1 .q (command 8 [(0, 3, m)]) 8 ∧ ggFrozen (packet 8 [(0, 3, m)]) = decide (m = 1))
    ∧ ((running (command 8 [(0, 3, 1)])).half (ggHalf (packet 8 [(0, 3, 1)]))).frozen = none
    ∧ ((reporting (command 8 [(0, 3, 1)])).half (ggHalf (packet 8 [(0, 3, 1)]))).frozen.isSome = true
    ∧ (∀ n ∈ [0, 1, 4, 6], (reporting (gaugeCmd n)).runs 1 .q (gaugeCmd n) 8 ∧ ggSource (gaugeCmd n).packet = n ∧ ggCount (gaugeCmd n).packet = 1
        ∧ untracked (ggFamily (gaugeCmd n).packet) (ggInst (gaugeCmd n).packet) = false
        ∧ (reporting (gaugeCmd n)).view.damageIn (traceAt .q) 32 = none))
    ∧ (reporting (command 8 [(0, 3, 1)])).runs 1 .q (command 8 [(0, 3, 1)]) 8
    ∧ (∀ m ∈ [0, 1], hrMode (packet 6 [(0, 2, m), (7, 1, 1)]) = m
        ∧ (running (command 6 [(0, 2, m), (7, 1, 1)])).runs 1 .q (command 6 [(0, 2, m), (7, 1, 1)]) 6)
    ∧ hrPart (packet 6 [(0, 2, 1), (7, 1, 1)]) = .k
    ∧ bitSet ((running (command 6 [(0, 2, 1), (7, 1, 1)])).q.cell .q (hubKey bFCL 5)) 0 = false
    ∧ bitSet ((reporting (command 6 [(0, 2, 1), (7, 1, 1)])).q.cell .q (hubKey bFCL 5)) 0 = true
    ∧ (reporting (command 6 [(0, 2, 1), (7, 1, 1)])).runs 1 .q (command 6 [(0, 2, 1), (7, 1, 1)]) 6
    ∧ (reporting (command 6 [(0, 2, 1), (7, 1, 1)])).view.damageIn (collectedAt .k) 64 = none :=
  ⟨by decide +kernel, by decide +kernel⟩

/-! ## Contexts and rings -/

theorem witness_ContextDefineCompletes :
    (running (command 0x0101 [])).runs 1 .q (command 0x0101 []) 0x0101
    ∧ ∃ fields, ∀ g, inFootprint (cdFootprint (packet 0x0101 fields)) g = true := by
  refine ⟨by decide +kernel, [(64, 2, 3), (32, 2, 3), (0, 64, 2 ^ 64 - 1), (64, 64, 2 ^ 64 - 1)], ?_⟩
  intro g; cases g <;> decide +kernel

/-- Another context is resident where context 0 comes in. -/
def elsewhere (c : Cmd) : State := (running c).modHalf .q fun x =>
  { x with ctxs := [{ context with st := .defined }, { context with id := 1 }], resident := some 1 }

/-- Context 0 is resident nowhere. -/
def nowhere (c : Cmd) : State := ((running c).modHalf .q fun x => { x with resident := none }).modHalf .k fun x => { x with resident := none }

theorem witness_ContextSwitchBegins :
    (running (command 0x0102 [])).runs 1 .q (command 0x0102 []) 0x0102 ∧ (running (command 0x0102 [])).q.resident = some 0
    ∧ (nowhere (inBoth (command 0x0102 []))).runs 1 .q (inBoth (command 0x0102 [])) 0x0102
    ∧ (nowhere (inBoth (command 0x0102 []))).k.resident ≠ some 0
    ∧ (elsewhere (command 0x0102 [])).runs 1 .q (command 0x0102 []) 0x0102 ∧ (elsewhere (command 0x0102 [])).q.resident = some 1
    ∧ inFootprint (((elsewhere (command 0x0102 [])).half .q).ctx 1).footprint .q = true
    ∧ inFootprint (((elsewhere (command 0x0102 [])).half .q).ctx 0).footprint .q = true := by decide +kernel

theorem witness_ContextsEnd :
    (∀ op ∈ [0x0103, 0x0104], (running (command op [])).runs 1 .q (command op []) op)
    ∧ (((running (command 0x0501 [])).modHalf .q fun x => x.modCtx 0 fun k => { k with st := .switchingOut }).cmd? 1 = some (.q, command 0x0501 [])
      ∧ ((((running (command 0x0501 [])).modHalf .q fun x => x.modCtx 0 fun k => { k with st := .switchingOut }).half .q).ctx 0).st = .switchingOut
      ∧ (command 0x0501 []).ctx = some 0 ∧ (command 0x0501 []).ring ≠ .mgmt ∧ (command 0x0501 []).phase = .running
      ∧ (command 0x0501 []).mayPause = true)
    ∧ ∃ c : Cmd, c.stopWith = some (tornResult 1) ∧ (tornResult 1).d0 = rsTornDown ∧ (running c).cmd? 1 = some (.q, c) ∧ c.ctx = some 0 :=
  ⟨by decide +kernel, by decide +kernel, { command 0x0301 [] with stopWith := some (tornResult 1) }, by decide +kernel⟩

theorem witness_RingsComeAndGo :
    (∀ op ∈ [0x0105, 0x0106, 0x0107], (running (command op [])).runs 1 .q (command op []) op)
    ∧ (running (command 0x0107 [])).commitDue = false
    ∧ ∀ g ∈ [Half.q, .k], inFootprint ((running (command 0x0107 [])).ctxAny .q 0).footprint g = true := by decide +kernel

/-- A switch at a step, of both halves. -/
def switching (step : Nat) (abandoned : Bool) : State :=
  { running (command 0x0102 []) with switch := some { cmd := 1, home := .q, step := step, incoming := 0, abandoned := abandoned } }

theorem witness_SwitchAndScrubComplete :
    (∀ u ∈ (switching 3 false).q.unacked ++ (switching 3 false).k.unacked,
        u.frame.mgmt = true ∨ u.frame.ctx ∉ (switching 3 false).q.outgoing ++ (switching 3 false).k.outgoing)
    ∧ (∀ n ∈ [3, 4, 5], ∃ w, (switching n false).switch = some w ∧ w.step = n ∧ w.abandoned = false)
    ∧ (let s := (switching 5 false).modHalf .q fun x => { x with ctxs := [{ context with st := .switchingIn }], resident := none }
       ∃ w, s.switch = some w ∧ .q ∈ w.halves ∧ ((s.half .q).ctx w.incoming).st = .switchingIn
         ∧ s.cmd? w.cmd = some (.q, command 0x0102 []) ∧ s.q.suspended ++ s.k.suspended = [])
    ∧ (∃ w, (switching 5 true).switch = some w ∧ w.step = 5 ∧ w.abandoned = true ∧ (switching 5 true).cmd? w.cmd = some (.q, command 0x0102 []))
    ∧ ({ State.reset with q := { boot := .ready, scrubAll := true } } : State).q.scrubAll = true
    ∧ (let s : State := { State.reset with q := { boot := .ready, scrub := [(16, 15)] } }
       (s.q.ctx 15).tearing = false ∧ (s.k.ctx 15).tearing = false ∧ ∃ f, (f, 15) ∈ (s.half .q).scrub) :=
  ⟨by decide +kernel, by decide +kernel, ⟨_, rfl, by decide +kernel, by decide +kernel, by decide +kernel, by decide +kernel⟩,
    ⟨_, rfl, rfl, rfl, rfl⟩, rfl, by decide +kernel, by decide +kernel, 16, by decide +kernel⟩

/-! ## Scale slots -/

theorem witness_ScaleCommandsComplete :
    (∀ op ∈ [1, 2, 3], ∀ next ∈ [0, op % 3 + 1], let c := command 0x0205 [(0, 12, 4095), (12, 4, op), (16, 13, 1), (128 + 12, 4, next)]
        let es := ((slEntries c.packet).drop c.cursor).takeWhile (fun v => slOp v == 0 || slOp v == op)
        (running c).runs 1 .q c 0x0205 ∧ (∃ v ∈ es, slOp v = op) ∧ (if next = 0 then c.cursor + es.length = 4 * pkUnits c.packet
          else c.cursor + es.length < 4 * pkUnits c.packet))
    ∧ (running (command 0x0206 [])).runs 1 .q (command 0x0206 []) 0x0206 := by decide +kernel

theorem witness_ScaleSetReachesEverySlot :
    let v := place 4095 0 12 + place 1 12 4 + place 1 16 13
    inFootprint 3 .k = true ∧ slSlot v ≤ 4095 ∧ 4095 < slSlot v + slCount v ∧ inFootprint 1 .k = false := by decide +kernel

/-! ## Tiles -/

/-- A TILE_RUN on tile 0 whose sequencer stands at word 0. -/
def tileCmd (t : TileRun) : Cmd := { command 0x0202 [(0, 384, 1)] with tiles := [(0, t)] }

/-- The sequencer at its start. -/
def atStart : TileRun := { pc := 0, areg := List.replicate 8 0 }

/-- That TILE_RUN with an op word at word 0 of the TST of tile 0. -/
def tileState (t : TileRun) (w : Nat) : State :=
  { running (tileCmd t) with mem := Mem.write {} (tstOfTile 0 0) (bytesOf 16 w) }

/-- The words of END, NOP, GATE_WAIT on gate 5 with threshold 0 and 1, LOOP of one word twice, AADD and ASET. -/
def controlWords : List Nat :=
  [0x00, 0x01, 0x02 + place 5 16 12, 0x02 + place 5 16 12 + place 1 32 32, 0x03 + place 2 16 16 + place 1 32 16, 0x04 + place 3 32 32, 0x05 + place 3 32 32]

theorem witness_TileControlOpsExecute :
    (∀ w ∈ controlWords, (tileState atStart w).decodes 0 .q (tileCmd atStart) atStart w)
    ∧ waitHolds ((tileState atStart 0).gate 0 5) 0 = true ∧ waitHolds ((tileState atStart 0).gate 0 5) 1 = false := by
  refine ⟨?_, by decide +kernel⟩
  intro w hw
  exact ⟨atStart, by revert w hw; decide +kernel⟩

/-- An op in a queue, and a sequencer that holds it. -/
def queuedOp (queue word : Nat) : QueuedOp :=
  { seq := 0, queue := queue, word := word, areg := List.replicate 8 0, group := { opened := true, isOpen := true } }

def queued (queue word : Nat) : TileRun :=
  { atStart with queued := [queuedOp queue word], acc0 := List.replicate 1024 0, group0 := { opened := true, isOpen := true } }

/-- What an op does when it is issued on tile 0. -/
def effect (f : TileIn → QueuedOp → TileRun → TileEff) (queue word : Nat) : TileEff :=
  f ((tileState (queued queue word) 0).tileIn .q (tileCmd (queued queue word)) 0) (queuedOp queue word) (queued queue word)

/-- The queue and a word of an op: MMA of 32 elements, VADD of one vector, LD of one line. -/
def issuedOps : List (Nat × Nat) := [(0, 0x10 + place 32 48 11), (1, 0x20 + place 1 80 13), (2, 0x30 + place 1 52 12)]

theorem witness_TileEngineOpsExecute :
    (∀ x ∈ issuedOps, (tileState (queued x.1 x.2) 0).issues 0 x.1 .q (tileCmd (queued x.1 x.2)) (queued x.1 x.2) (queuedOp x.1 x.2))
    ∧ (∀ x ∈ issuedOps.zip [(0, 0x10, runMma), (1, 0x20, runVx), (2, 0x30, runLd)], opOpc x.1.2 = x.2.2.1
        ∧ (effect x.2.2.2 x.1.1 x.1.2).bad = false ∧ (effect x.2.2.2 x.1.1 x.1.2).run.settle.seals = [])
    ∧ [(Instr.mma 0, 0x10, 0, runMma), (.vadd 0, 0x20, 1, runVx), (.ld 0, 0x30, 2, runLd)] ⊆ tileRows 0 := by
  refine ⟨?_, ?_, by simp [tileRows]⟩
  · intro x hx
    exact ⟨queued x.1 x.2, by revert x hx; decide +kernel⟩
  · intro x hx
    simp only [issuedOps, List.zip_cons_cons, List.zip_nil_right, List.mem_cons, List.not_mem_nil, or_false] at hx
    rcases hx with rfl | rfl | rfl <;> decide +kernel

/-- A tile whose accumulator 0 is open, under a GROUP_LIMIT of 1. -/
def overLimit : Cmd := { tileCmd { atStart with open0 := true } with cfg := [(regKey bMXE 0 0 0, 1)] }

/-- An INLINE TILE_PROGRAM_LOAD of one word at word 1 of tiles 0 and 383. -/
def inlineLoad : Cmd := command 0x0201 [(0, 384, 1 + 2 ^ 383), (384, 18, 1), (416, 16, 1), (432, 1, 1), (512, 128, 0xFF)]

theorem witness_TileCommandsComplete :
    ((running inlineLoad).runs 1 .q inlineLoad 0x0201
      ∧ ((bitIndices (plMask inlineLoad.packet) 384).foldl (fun r g =>
          ((plWords inlineLoad.packet).zip (List.range (plWords inlineLoad.packet).length)).foldl
            (fun r x => r.storeAt (tstKey ((running inlineLoad).envCmd .q inlineLoad) g (16 * (plWord inlineLoad.packet + x.2))) (bytesOf 16 x.1)) r)
          ({ mem := (running inlineLoad).view } : Run)).clean)
    ∧ (running (command 0x0202 [(0, 384, 1)])).runs 1 .q (command 0x0202 [(0, 384, 1)]) 0x0202
    ∧ (running overLimit).tileOf 0 = some (.q, overLimit, { atStart with open0 := true })
    ∧ pl overLimit.packet 414 1 = 0 ∧ bits (overLimit.tileReg .q 0 bMXE 0) 0 8 ≠ 0 := by decide +kernel

/-! ## Movers and engines -/

/-- A descriptor of rank 1: `n` elements from a CXA, one after the other, with a bound (0 for none) and OOB (R185). -/
def line (base n : Nat) (bound : Nat := 0) (refuse : Nat := 0) : Nat :=
  place base 0 48 + place 1 48 3 + place refuse 53 1 + place n 128 32 + place 1 160 32 + place bound 224 32

/-- A MOVE of two FP32 elements. -/
def moveCmd (bound refuse : Nat) : Cmd := command 0x0301 [] [line 0 2, line 0x1000 2 bound refuse]

/-- A GATHER_BLOCKS or SCATTER_BLOCKS of one block of one element, with its list at CXA 0x2000. -/
def blockCmd (op : Nat) : Cmd := command op [(512, 48, 0x2000), (512 + 64, 32, 1), (512 + 192, 16, 1)] [line 0 1, line 0x1000 1 4]

theorem witness_MoverCommandsComplete :
    ((running (moveCmd 0 0)).runs 1 .q (moveCmd 0 0) 0x0301 ∧ ((moveCmd 0 0).desc 0).count = 2
      ∧ (moveRun (running (moveCmd 0 0)) .q (moveCmd 0 0)).1.clean ∧ ((moveCmd 0 0).desc 1).refuse = false)
    ∧ (∀ op ∈ [0x0302, 0x0303], (running (blockCmd op)).runs 1 .q (blockCmd op) op ∧ isGather (blockCmd op).packet = decide (op = 0x0302)
      ∧ bkCount (blockCmd op).packet = 1 ∧ (blockRun (running (blockCmd op)) .q (blockCmd op)).1.clean ∧ ((blockCmd op).desc 1).refuse = false)
    ∧ ((running (moveCmd 1 1)).runs 1 .q (moveCmd 1 1) 0x0301 ∧ ((moveCmd 1 1).desc 1).refuse = true ∧ 1 < ((moveCmd 1 1).desc 0).count
      ∧ ((moveCmd 1 1).desc 1).elem (fmtBytes (mvFmt (moveCmd 1 1).packet)) 1 = .outside 0) := by decide +kernel

/-- VADD of two FP32 vectors of one element into a third. -/
def vectorCmd : Cmd :=
  command 0x0204 [(321, 9, 1), (0, 8, 0x20), (12, 2, 1), (14, 2, 1), (32, 48, 64), (96, 48, 128), (224, 48, 192)]
    [line 0 1, line 0x1000 1, line 0x2000 1]

/-- The same over two elements, of which the destination holds one and refuses the other. -/
def boundedVector : Cmd :=
  command 0x0204 [(321, 9, 1), (0, 8, 0x20), (12, 2, 1), (14, 2, 1), (32, 48, 64), (96, 48, 128), (224, 48, 192)]
    [line 0 2, line 0x1000 2, line 0x2000 2 1 1]

theorem witness_VectorCompletes :
    (running vectorCmd).runs 1 .q vectorCmd 0x0204 ∧ (vectorDescs vectorCmd).length = 3
    ∧ (vectorRun { running vectorCmd with drawnFree := 2 } .q vectorCmd).1.clean
    ∧ ((running boundedVector).runs 1 .q boundedVector 0x0204 ∧ ∃ t ∈ vectorDescs boundedVector, t.2.1 = 3 ∧ t.2.2.refuse = true
        ∧ t.2.2.anyOutside (fmtBytes (vuFmt boundedVector.packet t.1 3)) = true)
    ∧ (∀ t ∈ vectorDescs vectorCmd, t.2.1 = 3 → t.2.2.refuse = true → t.2.2.anyOutside (fmtBytes (vuFmt vectorCmd.packet t.1 3)) = false)
    ∧ staged (tilesOf vectorCmd.packet) (vuStage vectorCmd.packet) 2048 (tstOfTile 0 0)
    ∧ ¬ staged (tilesOf vectorCmd.packet) (vuStage vectorCmd.packet) 2048 0x1000 := by
  have h : tilesOf vectorCmd.packet = [0] ∧ vuStage vectorCmd.packet = 0 := by decide +kernel
  refine ⟨by decide +kernel, by decide +kernel, by decide +kernel, by decide +kernel, by decide +kernel, ?_, ?_⟩
  · rw [h.1, h.2]; exact ⟨0, by simp, .inl (by decide +kernel)⟩
  · rw [h.1, h.2]; rintro ⟨g, hg, hr⟩
    obtain rfl : g = 0 := by simpa using hg
    revert hr; decide +kernel

/-- A MATMUL of 1 by 1 by 1 in FP32 on tile 0, with and without CAPTURE of A. -/
def matmulCmd (capture : Nat) : Cmd :=
  command 0x0203 [(0, 32, 1), (32, 32, 1), (64, 32, 1), (369, 1, capture), (425, 9, 1), (512, 48, 0x4000), (512 + 64, 48, 0x8000), (512 + 131, 1, 1)]
    [line 0 1, line 0x1000 1, line 0x2000 1]

/-- The capturing MATMUL when its partials await their fold. -/
def foldCmd : Cmd := { matmulCmd 1 with partials := some [0x3F800000], held := some (okResult 0 0 0), waiting := true }

theorem witness_MatmulCompletes :
    (∀ capture ∈ [0, 1], (running (matmulCmd capture)).runs 1 .q (matmulCmd capture) 0x0203 ∧ (matmulCmd capture).partials = none
        ∧ ((matmulCmd capture).desc 2).refuse = false ∧ (matmulRun { running (matmulCmd capture) with drawnFree := 2 } .q (matmulCmd capture)).1.clean
        ∧ mmCapture (matmulCmd capture).packet = decide (capture = 1))
    ∧ ((running foldCmd).allCmds.find? (fun c => c.2.partials.isSome && c.2.done.isNone && c.2.phase = .running && (tileSpan c.2.packet).1 / 48 = 0)
          = some (.q, foldCmd) ∧ (running foldCmd).cmd? foldCmd.id = some (.q, foldCmd) ∧ foldCmd.partials = some [0x3F800000]
        ∧ (foldGram { (running foldCmd).envCmd .q foldCmd with part := Half.ofPart (0 / 4) } foldCmd.packet
            (chunks (max (cpBlocks foldCmd.packet * (triPairs (cpEdge foldCmd.packet)).length) 1) [0x3F800000]) { mem := (running foldCmd).view }).clean) := by
  decide +kernel

/-- GRAM_REDUCE of one block with FIRST, ROOT of one block of edge 1, and ORTHO of a 1 by 1 matrix. -/
def gramCmd : Cmd := command 0x0401 [(64, 48, 0x4000), (128, 32, 1), (162, 1, 1)]
def rootCmd : Cmd := command 0x0402 [(64, 48, 0x4000), (192, 48, 0x8000), (256, 11, 1), (272, 32, 1), (448, 8, 1)]
def orthoCmd : Cmd := command 0x0403 [(361, 9, 1)] [line 0 1, line 0x1000 1]

/-- What the engine of `gramCmd` acts through, and its run after `n` elements: zeros read and zeros written. -/
def gramEnv : Env := { (running gramCmd).envCmd .q gramCmd with part := dieHalf (pl gramCmd.packet 168 3) }
def gramAfter (n : Nat) : Run :=
  { mem := {}, parts := (List.range ((4 * n + 255) / 256)).map fun k => ((16 * frameBytes + 0x4000) / 256 + k, 2 ^ min 256 (4 * n - 256 * k) - 1), rd := if n = 0 then [] else [(stackKey (16 * frameBytes), 4 * n)], wr := if n = 0 then [] else [(stackKey (16 * frameBytes), 4 * n)] }

theorem gramElems_add (e : Env) (p : Nat) (m n i : Nat) (r : Run) : gramElems e p i (m + n) r = gramElems e p (i + m) n (gramElems e p i m r) := by
  induction m generalizing i r with
  | zero => simp [gramElems]
  | succ m ih =>
    rw [show m + 1 + n = (m + n) + 1 by omega]
    simp only [gramElems, ih]
    rw [show i + 1 + m = i + (m + 1) by omega]

theorem gramElems_chunk : ∀ j < 48, gramElems gramEnv gramCmd.packet (11 * j) 11 (gramAfter (11 * j)) = gramAfter (11 * (j + 1)) := by decide +kernel

theorem gramElems_chunks (j : Nat) (h : j ≤ 48) : gramElems gramEnv gramCmd.packet 0 (11 * j) { mem := {} } = gramAfter (11 * j) := by
  induction j with
  | zero => rfl
  | succ j ih =>
    rw [show 11 * (j + 1) = 11 * j + 11 by omega, gramElems_add, ih (by omega), Nat.zero_add, gramElems_chunk j (by omega)]
    exact congrArg gramAfter (by omega)

theorem witness_CurvatureCommandsComplete :
    ((running gramCmd).runs 1 .q gramCmd 0x0401 ∧ grElems gramCmd.packet = 528
      ∧ (gramElems { (running gramCmd).envCmd .q gramCmd with part := dieHalf (pl gramCmd.packet 168 3) } gramCmd.packet 0 (grElems gramCmd.packet)
          { mem := (running gramCmd).view }).clean)
    ∧ ((running rootCmd).runs 1 .q rootCmd 0x0402 ∧ (rootRun (running rootCmd) .q rootCmd).1.clean)
    ∧ ((running orthoCmd).runs 1 .q orthoCmd 0x0403 ∧ (orthoRun (running orthoCmd) .q orthoCmd).1.clean ∧ (orthoCmd.desc 1).refuse = false) := by
  have h : gramElems gramEnv gramCmd.packet 0 528 { mem := {} } = gramAfter 528 := gramElems_chunks 48 (by decide)
  have n : grElems gramCmd.packet = 528 := by decide +kernel
  refine ⟨⟨by decide +kernel, n, ?_⟩, by decide +kernel, by decide +kernel⟩
  rw [n]
  change (gramElems gramEnv gramCmd.packet 0 528 { mem := {} }).clean
  rw [h]
  decide +kernel

/-- A SOLVE_BATCH of one problem on die 0, without and with a deadline that has passed. -/
def solveCmd (deadline : Nat) : Cmd := command 0x0501 [(224, 32, 1), (336, 8, 1), (352, 64, deadline)]
def solveState (deadline : Nat) : State := (running (solveCmd deadline)).modHalf .q fun x => { x with count := 5 }

theorem witness_SolverRowsComplete :
    ((solveState 0).runs 1 .q (solveCmd 0) 0x0501
      ∧ ∃ k ∈ (solveCmd 0).solver.getD (startCses (solveCmd 0).packet), (solveState 0).pastDeadline (solveCmd 0).packet k.die = false)
    ∧ ((solveState 5).runs 1 .q (solveCmd 5) 0x0501
      ∧ ∃ k ∈ (solveCmd 5).solver.getD (startCses (solveCmd 5).packet), k.flight ≠ [] ∧ (solveState 5).pastDeadline (solveCmd 5).packet k.die = true) := by
  decide +kernel

/-- An UPDATE of one element, a RECONCILE of one element, and SHARD_DIGEST of one block in each mode. -/
def updateCmd : Cmd := command 0x0601 [(384, 48, 1), (512 + 448, 8, 1)]
def reconcileCmd : Cmd := command 0x0602 [(64, 48, 0x1000), (224, 48, 1), (440, 8, 1)]
def digestCmd (mode : Nat) : Cmd := command 0x0603 [(64, 48, 256), (128, 48, 0x1000), (256, 2, mode), (352, 8, 1)]
def digestOf (mode : Nat) : Nat × Run :=
  digestRange ((running (digestCmd mode)).envCmd .q (digestCmd mode)) (digestCmd mode).packet { mem := (running (digestCmd mode)).view }

theorem witness_UpdateCommandsComplete :
    ((running updateCmd).runs 1 .q updateCmd 0x0601 ∧ (updateRun (running updateCmd) .q updateCmd).clean
      ∧ (updateShares (running updateCmd) .q updateCmd).2.1.length = 1)
    ∧ ((running reconcileCmd).runs 1 .q reconcileCmd 0x0602 ∧ (reconcileRun (running reconcileCmd) .q reconcileCmd).clean
      ∧ (reconcileShares (running reconcileCmd) .q reconcileCmd).2.length = 1)
    ∧ (∀ mode ∈ [0, 1, 2], (running (digestCmd mode)).runs 1 .q (digestCmd mode) 0x0603 ∧ sdMode (digestCmd mode).packet = mode)
    ∧ (digestOf 1).2.clean
    ∧ ((digestOf 0).2.store ((running (digestCmd 0)).envCmd .q (digestCmd 0)) (sdRecord (digestCmd 0).packet)
        (bytesOf 64 (digestRecord (digestOf 0).1 (sdBytes (digestCmd 0).packet / 256) (sdTag (digestCmd 0).packet) 0 0 false false 0))).clean := by
  decide +kernel

/-! ## Embedding tables -/

theorem witness_TablesComeAndGo :
    ∀ d ∈ [0, 1], (running (command 0x0701 [(8, 1, d)])).runs 1 .q (command 0x0701 [(8, 1, d)]) 0x0701
      ∧ tdDelete (packet 0x0701 [(8, 1, d)]) = decide (d = 1) := by decide +kernel

/-- A STAGED table of 16 rows of one FP32 element, all of them on a die of a module. -/
def table (pos die : Nat) (moves : List Move := []) : TableDef :=
  { payload := place 1 10 1 + place 1 16 13 + place 16 32 48 + place 0x8000 1152 64 + place 4096 1216 64
    shards := [{ first := 0, pos := pos, die := die, cxa := 0x10000 }]
    fill := List.replicate 64 0, moves := moves }

/-- The state in which context 0 has a table with number 0, of EMB_GRAD staging at CXA 0x18000, on a die whose Wellhead fills no lines. -/
def withTable (c : Cmd) (t : TableDef) : State :=
  (running c).setTable 0 0 t |>.modHalf .q fun x => { x with regs := [(regKey bWH 0 0 0, 8)] }

/-- A LOOKUP of one bag with one index, which is 0. -/
def lookupCmd : Cmd := command 0x0702 [(16, 48, 0x1000), (160, 48, 0x2000), (208, 32, 1), (240, 32, 1), (272, 32, 64), (304, 8, 1)] [place 1 32 32]

/-- The arrays that it reads. -/
def lookupArrays (c : Cmd) (t : TableDef) : List (Option Nat) × List Nat × Run :=
  lkArrays ((withTable c t).envCmd .q c) c.packet t { mem := (withTable c t).view }

theorem witness_LookupCompletes :
    (running lookupCmd).runs 1 .q lookupCmd 0x0702 ∧ (running lookupCmd).table? 0 0 = none
    ∧ (∀ pos ∈ [0, 1], (withTable lookupCmd (table pos 0)).runs 1 .q lookupCmd 0x0702
        ∧ (withTable lookupCmd (table pos 0)).table? 0 0 = some (table pos 0)
        ∧ (lookupArrays lookupCmd (table pos 0)).2.2.stop = none ∧ (lookupArrays lookupCmd (table pos 0)).2.2.need = []
        ∧ lookupPlan lookupCmd (lookupArrays lookupCmd (table pos 0)).1 = [{ die := 0, window := 0, row := 0 }]
        ∧ ownerIn ((table pos 0).mapAt lookupCmd.admitted) 0 = some { first := 0, pos := pos, die := 0, cxa := 0x10000 })
    ∧ (withTable lookupCmd (table 0 0)).ownPos 0 = 0 ∧ (table 0 0).awaited { first := 0, pos := 0, die := 0, cxa := 0x10000 } 0 = false
    ∧ (match (withTable lookupCmd (table 0 0)).fetchAll lookupCmd (table 0 0) 0 0 [{ die := 0, window := 0, row := 0 }] with
      | (u, .ok rows) => decide (u.cmd? 1 = some (.q, lookupCmd))
          && decide (lookupStores (withTable lookupCmd (table 0 0)) .q lookupCmd (table 0 0) (lookupArrays lookupCmd (table 0 0)).1
            (lookupArrays lookupCmd (table 0 0)).2.1 rows { (lookupArrays lookupCmd (table 0 0)).2.2 with mem := u.view }).1.clean
      | _ => false) = true
    ∧ lookupCmd.asked = false ∧ lookupCmd.recordMissed 0 = false := by decide +kernel

/-- HOTSET_LOAD with CLEAR and no entries, and with one entry, which is row 0. -/
def hotCmd (n : Nat) : Cmd := command 0x0703 [(11, 1, 1), (16, 48, 0x1000), (64, 32, n)]

theorem witness_HotSetCommandsComplete :
    ∀ n ∈ [0, 1], (withTable (hotCmd n) (table 0 0)).runs 1 .q (hotCmd n) 0x0703 ∧ hsCount (hotCmd n).packet = n ∧ hsClear (hotCmd n).packet = true
      ∧ (withTable (hotCmd n) (table 0 0)).table? 0 0 = some (table 0 0)
      ∧ (let l := ({ mem := (withTable (hotCmd n) (table 0 0)).view } : Run).load ((withTable (hotCmd n) (table 0 0)).envCmd .q (hotCmd n)) 0x1000 (8 * n)
         l.2.stop = none ∧ l.2.need = []
         ∧ (withTable (hotCmd n) (table 0 0)).hotAwaits 0 0 (table 0 0) ((table 0 0).mapAt (hotCmd n).admitted) (hotEntries l.1) = false ∧ (match (withTable (hotCmd n) (table 0 0)).loadHot 0 0 0 (table 0 0) (some (attrKey (hotCmd n).packet))
           ((table 0 0).mapAt (hotCmd n).admitted) (hotEntries l.1) {} with | (_, .ok _) => true | _ => false) = true) := by decide +kernel

/-- EMB_GRAD of one bag with one index, and EMB_FOLD on the Update Unit of die 0. -/
def gradCmd : Cmd := command 0x0704 [(16, 48, 0x1000), (160, 48, 0x2000), (208, 32, 1), (240, 32, 1), (272, 32, 64), (304, 8, 1)] [place 1 32 32]
def foldTableCmd (discard : Nat) : Cmd := command 0x0705 [(448, 8, 1), (464, 1, discard)]

def gradArrays : List (Option Nat) × List Nat × Run := lookupArrays gradCmd (table 0 0)
def gradLoads : List (Nat × List Nat) × Run :=
  loadGrads ((withTable gradCmd (table 0 0)).envCmd .q gradCmd) gradCmd.packet (table 0 0) (gradCmd.recordNum 0) 0 (lkBags gradCmd.packet)
    gradArrays.2.2

theorem witness_GradientCommandsComplete :
    ((withTable gradCmd (table 0 0)).runs 1 .q gradCmd 0x0704 ∧ (withTable gradCmd (table 0 0)).table? 0 0 = some (table 0 0)
      ∧ gradLoads.2.stop = none ∧ gradLoads.2.need = []
      ∧ (let w := gradWork (withTable gradCmd (table 0 0)) gradCmd (table 0 0) gradArrays.1 gradArrays.2.1 gradLoads.1
         (w.flatMap fun x => x.2.flatMap (·.1)).length = 1
         ∧ (match ((w.foldl (fun u x => u.countEme x.1 6 (gradSats x.2))
            (((withTable gradCmd (table 0 0)).countRun (attrKey gradCmd.packet) gradLoads.2).countOutside
              (gradCmd.recordNum 0) gradArrays.1 (lkShares gradCmd.packet))).deliver gradCmd 0 (w.flatMap fun x => (x.2.flatMap (·.1)).map (x.1, ·))) with
           | (_, none) => true
           | _ => false) = true))
    ∧ (∀ d ∈ [0, 1], (withTable (foldTableCmd d) (table 0 0)).runs 1 .q (foldTableCmd d) 0x0705
      ∧ (withTable (foldTableCmd d) (table 0 0)).table? 0 0 = some (table 0 0) ∧ efDiscard (foldTableCmd d).packet = decide (d = 1)
      ∧ (match foldWork (withTable (foldTableCmd d) (table 0 0)) .q (foldTableCmd d) (table 0 0) with
        | (u, none, l) => decide (u.cmd? 1 = some (.q, foldTableCmd d)) && decide (l.length = 1)
        | _ => false) = true) := by decide +kernel

/-- ROW_MIGRATE of row 0 of a table, to a module. -/
def migrateCmd (target : Nat) : Cmd := command 0x0706 [(16, 48, 0), (64, 48, 1), (128, 12, target), (144, 48, 0x14000), (192, 64, 5000)]

/-- The state in which the command has begun its migration of a table that is in one module. -/
def migrating (pos target : Nat) : State :=
  ((withTable (migrateCmd target) (table pos 0)).setTable 0 0 { table pos 0 with moves := [moveOf pos target] }).setCmd .q
    { migrateCmd target with waiting := true, idle := 0 }
where
  moveOf (pos target : Nat) : Move :=
    { target := rmTo (migrateCmd target).packet, source := { first := 0, pos := pos, die := 0, cxa := 0x10000 }, count := 1, stroke := 5000, cmd := 1 }

/-- Migrations of one range: not yet switched, switched with all copied, and forwarding. -/
def moveIn (phase : Nat) (switched : Bool) : Move :=
  { target := { first := 0, pos := 1, die := 0, cxa := 0x14000 }, source := { first := 0, pos := 0, die := 0, cxa := 0x10000 }
    count := 1, stroke := 5, cmd := 1, phase := phase, switched := switched, copied := 1 }

def movingTable (m : Move) : State :=
  (withTable (command 0 []) (table 0 0 [m, { m with cmd := 2 }])).modHalf .q fun x => { x with count := 200000 }

theorem witness_MigrationsBeginAndMoveOn :
    (∀ x ∈ [(0, 0), (0, 1), (1, 0), (1, 1)],
      (withTable (migrateCmd x.2) (table x.1 0)).runs 1 .q (migrateCmd x.2) 0x0706
      ∧ (withTable (migrateCmd x.2) (table x.1 0)).table? 0 0 = some (table x.1 0) ∧ (withTable (migrateCmd x.2) (table x.1 0)).ownPos 0 = 0
      ∧ ownerIn (table x.1 0).mapFull 0 = some { first := 0, pos := x.1, die := 0, cxa := 0x10000 } ∧ (rmTo (migrateCmd x.2).packet).pos = x.2)
    ∧ (match (migrating 0 0).copyRows (migrateCmd 0) 0 { table 0 0 with moves := [migrating.moveOf 0 0] } (migrating.moveOf 0 0) 0 1 with
      | (u, none) => (match u.table? 0 0 with
        | some t1 => (match u.moveRecords (migrateCmd 0) 0 t1 (migrating.moveOf 0 0) with
          | (v, _, none) => (match v.table? 0 0 with
            | some t2 => (t2.moves.find? (·.cmd = 1)).isSome
            | none => false)
          | _ => false)
        | none => false)
      | _ => false) = true
    ∧ (∀ m ∈ [moveIn 0 false, moveIn 0 true, moveIn 1 true],
      ((movingTable m).half .q).resident = some 0 ∧ (movingTable m).table? 0 0 = some (table 0 0 [m, { m with cmd := 2 }])
      ∧ ([m, { m with cmd := 2 }].map (·.cmd)).Nodup ∧ m.stroke + 100000 ≤ (movingTable m).now .q ∧ m.source.pos = (movingTable m).ownPos 0
      ∧ (movingTable m).hasUnacked m.cmd = false ∧ m.failed = false ∧ (movingTable m).cmd? m.cmd = some (.q, command 0 []))
    ∧ (let m := { moveIn 0 true with source := { first := 0, pos := 1, die := 0, cxa := 0x10000 }
                                     target := { first := 0, pos := 0, die := 0, cxa := 0x14000 }, arrived := [0] }
       (movingTable m).table? 0 0 = some (table 0 0 [m, { m with cmd := 2 }]) ∧ m.phase = 0 ∧ m.failed = false ∧ m.switched = true
         ∧ m.source.pos ≠ (movingTable m).ownPos 0 ∧ m.target.pos = (movingTable m).ownPos 0 ∧ m.arrived.length = m.count
         ∧ m.stroke + 100000 ≤ (movingTable m).now .q) := by decide +kernel

/-- A state in which a die has work of its own to do: a full sketch, a row on the move, and a hot set that is due, whose list lies in a
page or nowhere. -/
def upkeep (list : Nat) : State :=
  ((withTable (command 0 []) (table 0 0)).setWell 0 { sketch := [(7, 3)], increments := 65536, moving := [3] }).modHalf .q fun x =>
    x.modCtx 0 fun k => { k with hotSets := [{ table := 0, die := 0, list := list, count := 1, refresh := 0, due := 0, reload := true }] }

/-- Reading the list of the due hot set. -/
def listRead (list : Nat) : List Nat × Run := ({ mem := (upkeep list).view } : Run).load { (upkeep list).envOf .q 0 with fetched := [] } list 8

/-- A READY half whose stack 0 of die 0 is on patrol, and in which the seals of blocks 5 and 7 of that stack are broken, the second by a line that
ECC cannot correct. -/
def patrolled : State := { (running (command 0 [])).modHalf .q fun x => { x with regs := [(regKey bHBM 0 0 0, 1)] } with mem := { badBlocks := [5, 7], badEcc := [28] } }

theorem witness_UpkeepCompletes :
    65536 ≤ ((upkeep 0).well 0).increments ∧ ((upkeep 0).half .q).boot ≠ .off ∧ (∀ way ∈ [0, 15], (upkeep 0).masked 0 way = false)
    ∧ ((upkeep 0).well 0).moving.find? (fun k => k % 2 ^ 40 = 3) = some 3 ∧ ((upkeep 0).half .q).resident = some 0
    ∧ (upkeep 0).table? 0 0 = some (table 0 0)
    ∧ (∀ list ∈ [0x1000, 2 ^ 40], ((((upkeep list).half .q).ctx 0).hotSets.find? (fun r =>
        r.die = 0 && r.isDue ((upkeep list).half .q).count)).map (·.list) = some list)
    ∧ (listRead 0x1000).2.stop = none ∧ (listRead 0x1000).2.need = []
    ∧ (upkeep 0x1000).hotAwaits 0 0 (table 0 0) ((table 0 0).mapAt ((upkeep 0x1000).half .q).count) (hotEntries (listRead 0x1000).1) = false
    ∧ (listRead (2 ^ 40)).2.stop ≠ none
    ∧ (patrolled.half .q).running = true ∧ bits ((patrolled.half .q).cell .q (regKey bHBM 0 0 0)) 0 8 ≠ 0
    ∧ patrolled.mem.deadLines (hbmAddr 0 0 0 (5 * 256)) = 0 ∧ patrolled.mem.deadLines (hbmAddr 0 0 0 (7 * 256)) = 1
    ∧ patrolled.mem.intact (hbmAddr 0 0 0 (7 * 256)) = false ∧ patrolled.mem.intact (hbmAddr 0 0 0 (5 * 256)) = false ∧ patrolled.mem.intact (hbmAddr 0 0 0 (6 * 256)) = true := by decide +kernel

/-! ## Weights and epochs -/

/-- WEIGHT_STREAM of four bytes kept at CXA 256: in STORE or VERIFY, and a VERIFY whose one block has come. -/
def streamCmd (verify : Nat) : Cmd :=
  command 0x0801 [(24, 2, verify), (64, 48, 4), (128, 48, 4), (256, 32, 1)] [place 4 64 48 + place 256 128 48]
def streamed : Cmd := { streamCmd 1 with stream := some { place := 0, wire := [0, 0, 0, 0], next := 1 } }

theorem witness_WeightStreamsBegin :
    (∀ v ∈ [0, 1], (running (streamCmd v)).runs 1 .q (streamCmd v) 0x0801 ∧ wsVerify (streamCmd v).packet = decide (v = 1)
      ∧ (streamCmd v).stream = none)
    ∧ ((running streamed).runs 1 .q streamed 0x0801 ∧ wsVerify streamed.packet = true ∧ wsBlocks streamed.packet = 1 ∧ streamed.keeps.length = 1
      ∧ (let w := streamed.keepAll ((running streamed).envStream .q 0 streamed.packet ((running streamed).envCmd .q streamed)) streamed.keeps
            (streamData streamed.packet [0, 0, 0, 0] true).1 streamed.keeps { mem := (running streamed).view }
         w.1.puts = [] ∧ w.1.stop = none ∧ w.1.torn = [] ∧ changedBlocks (running streamed).view w.1.mem = [])) := by decide +kernel

/-- EPOCH_SWITCH on epoch 2, and context 0 with a current and a loaded epoch and a bound batch in both halves. -/
def epochCmd (op : Nat) : Cmd := command 0x0802 [(0, 3, op), (32, 32, 2), (64, 32, 9), (192, 32, 1)] [0]
def withEpochs (c : Cmd) : State :=
  let go (x : HalfState) : HalfState := x.modCtx 0 fun k =>
    { k with epochs := [{ num := 1, st := .current, entries := [] }, { num := 2, st := .loaded, entries := [] }], binds := [(9, 1)] }
  ((running c).modHalf .q go).modHalf .k go

theorem witness_EpochSwitchCompletes :
    ∀ op ∈ [1, 2, 3, 4, 5], (withEpochs (epochCmd op)).runs 1 .q (epochCmd op) 0x0802 ∧ esOp (epochCmd op).packet = op
      ∧ (∀ g ∈ [Half.q, .k], (((withEpochs (epochCmd op)).half g).ctx 0).alive = true
        ∧ (∃ e ∈ (((withEpochs (epochCmd op)).half g).ctx 0).epochs, e.num = esEpoch (epochCmd op).packet)) := by decide +kernel

/-! ## Collectives and checkpoints -/

/-- A collective of one FP32 element in a group of one, in time and late; and a collective of context 0 that nobody here has joined. -/
def collCmd (op deadline : Nat) : Cmd :=
  { command op [(0, 48, 0x1000), (64, 48, 0x2000), (128, 48, 1), (224, 8, 1), (232, 8, 1), (256, 64, deadline), (384, 48, 0x3000)] with admitted := 100 }

def unjoined : Coll := { tag := 7, gen := 1, opcode := 0x0903, unit0 := place 1 128 48 + place 1 224 8 + place 1 232 8 + place 50 256 64 + place 7 320 32 }
def awaited : State :=
  (running (command 0 [])).modHalf .q fun x => { x.modCtx 0 fun k => { k with colls := [unjoined] } with count := 50 }

theorem witness_CollectivesBegin :
    (∀ op ∈ [0x0901, 0x0902, 0x0903], ∀ deadline ∈ [0, 100, 101], (running (collCmd op deadline)).runs 1 .q (collCmd op deadline) op
        ∧ lateCmd (collCmd op deadline) = decide (deadline = 100)
        ∧ (collReads (running (collCmd op deadline)) .q (collCmd op deadline) op).2.settle.stop = none
        ∧ (collReads (running (collCmd op deadline)) .q (collCmd op deadline) op).2.settle.need = []
        ∧ (∀ g ∈ cuHalves (pl (collCmd op deadline).packet 0 512),
            (running (collCmd op deadline)).memberCut g (unitFor (collCmd op deadline).packet g) = false
              ∧ (((running (collCmd op deadline)).half g).ctx 0).coll? (cuTag (unitFor (collCmd op deadline).packet g)) = none)
        ∧ (collReads (running (collCmd op deadline)) .q (collCmd op deadline) op).2.clean)
    ∧ (awaited.half .q).resident = some 0 ∧ ((awaited.half .q).ctx 0).coll? 7 = some unjoined ∧ unjoined.cmd = none ∧ unjoined.proxy = false
    ∧ unjoined.isOver = false ∧ cuDeadline unjoined.unit0 = 50 ∧ (awaited.half .q).count = 50 ∧ (awaited.half .q).resetting = false
    ∧ awaited.collAdmitted .q 0 7 = false := by decide +kernel

/-- CKPT_SLOT on slot 5 of stage 2 and the range of page 0, where context 0 has that slot and PRESERVE holds a frame it no longer maps. -/
def slotCmd (op : Nat) : Cmd := command 0x0A01 [(0, 3, op), (8, 12, 5), (20, 3, 2), (96, 48, frameBytes)]
def withSlot (op : Nat) : State :=
  (running (slotCmd op)).modHalf .q fun x => { x.modCtx 0 fun k =>
      { k with slots := [{ num := 5, stage := 2, cxa := 0, bytes := 256 }, { num := 6, stage := 2, cxa := 256, bytes := 256, held := true }] } with
    preserved := [{ ctx := 0, cxa := 0, bytes := frameBytes, frames := [(0, 40)] }] }

theorem witness_CheckpointSlotsComplete :
    (∀ op ∈ [1, 2, 3, 4, 5, 6, 7], (withSlot op).runs 1 .q (slotCmd op) 0x0A01 ∧ ckOp (slotCmd op).packet = op
      ∧ (withSlot op).slotHome 0 5 = some .q ∧ ((((withSlot op).half .q).ctx 0).slot? 5).isSome = true)
    ∧ rangeFrames ((withSlot 5).ctxAny .q 0).map .q 0 frameBytes ≠ [] ∧ rangeFrames ((withSlot 5).ctxAny .q 0).map .k 0 frameBytes = []
    ∧ ((withSlot 6).half .q).unmarked ((withSlot 6).ctxAny .q 0).map .q 0 0 frameBytes = [40]
    ∧ 40 ∉ ((withSlot 6).ctxAny .q 0).frames := by decide +kernel

/-! ## Frames and links -/

/-- Both halves at position (0, 0) of a torus of two by four, the Q half a bridge, and all ports ACTIVE; E2E version 1 (R374, R385). -/
def wired (s : State) : State :=
  let on (x : HalfState) : HalfState :=
    { x with regs := [(regKey bLNK 4 0 0, place 2 12 7 + place 4 19 7 + place 1 26 1 + place 1 32 8)]
        ++ (List.range 5).map fun p => (regKey bLNK 4 p 2, 2) }
  (s.modHalf .q on).modHalf .k on

/-- The LOOKUP of a table whose rows are in the module to the east: its requests can be sent. -/
theorem witness_LookupCompletes_remote :
    (wired (withTable lookupCmd (table 1 0))).runs 1 .q lookupCmd 0x0702
    ∧ (wired (withTable lookupCmd (table 1 0))).table? 0 0 = some (table 1 0) ∧ (wired (withTable lookupCmd (table 1 0))).ownPos 0 = 0
    ∧ (((wired (withTable lookupCmd (table 1 0))).setCmd .q { lookupCmd with asked := true, waiting := true }).askRows lookupCmd (table 1 0) 0 0
        [{ die := 0, window := 0, row := 0 }]).2 = true := by decide +kernel

/-- A NEIGHBOUR_CKPT of block 0 to block 1 of its neighbour, with its manifest in block 2, at a stage; and a NEIGHBOUR_RESTORE of that
copy, whose blocks have come. -/
def ckptCmd (verify stage : Nat) : Cmd :=
  { command 0x0A02 [(64, 48, 0x100), (128, 48, 256), (192, 48, 0x200), (288, 1, verify)] with cursor := stage }
def restoreCmd : Cmd :=
  { command 0x0A03 [(64, 48, 0x100), (128, 48, 256), (192, 48, 0x200), (289, 12, 1)] with
    cursor := 2, fetched := ((bytesOf 8 3990816988020936838).zipIdx).map fun b => (0x200 + 16 + b.2, b.1) }

theorem zeroBlock_crc : crc32c (List.replicate 256 0) = 1200442991 ^^^ 0xFFFFFFFF := by
  have h : List.replicate 256 0 = List.replicate 64 0 ++ (List.replicate 64 0 ++ (List.replicate 64 0 ++ List.replicate 64 0)) := by decide +kernel
  have a : (List.replicate 64 0).foldl crcByte 0xFFFFFFFF = 4231468184 := by decide +kernel
  have b : (List.replicate 64 0).foldl crcByte 4231468184 = 4158167844 := by decide +kernel
  have c : (List.replicate 64 0).foldl crcByte 4158167844 = 2345306063 := by decide +kernel
  have d : (List.replicate 64 0).foldl crcByte 2345306063 = 1200442991 := by decide +kernel
  rw [crc32c, h, List.foldl_append, a, List.foldl_append, b, List.foldl_append, c, d]
  rfl

theorem zeroBlock_digest : blocksDigest [List.replicate 256 0] = 3990816988020936838 := by
  rw [blocksDigest, List.map_cons, zeroBlock_crc]
  decide +kernel

theorem witness_NeighbourCheckpointsComplete :
    (∀ stage ∈ [0, 2], (wired (running (ckptCmd 0 stage))).runs 1 .q (ckptCmd 0 stage) 0x0A02 ∧ ncVerify (ckptCmd 0 stage).packet = false
      ∧ (wired (running (ckptCmd 0 stage))).hasUnacked 1 = false)
    ∧ ((wired (running (ckptCmd 0 2))).sendAll .q (some 1) [ckptWrite (ckptCmd 0 2) (((wired (running (ckptCmd 0 2))).half .q).neighbour .q 1) 0x200
        (bytesOf 64 (manifest true 0 256 0 0 ((wired (running (ckptCmd 0 2))).now .q)))]).2 = true
    ∧ (let s := wired (running (ckptCmd 1 2))
       let x := readBlocks (s.envCmd .q (ckptCmd 1 2)) 0 1 { mem := s.view }
       s.runs 1 .q (ckptCmd 1 2) 0x0A02 ∧ ncVerify (ckptCmd 1 2).packet = true ∧ s.hasUnacked 1 = false ∧ x.1.length = 1 ∧ x.2.stop = none ∧ x.2.need = []
        ∧ ∀ b ∈ x.1.zipIdx, b.1 = (ckptCmd 1 2).fetchedBytes (0x100 + 256 * b.2) 256)
    ∧ (let s := wired (running restoreCmd)
       let bs := [restoreCmd.fetchedBytes 0x100 256]
       s.runs 1 .q restoreCmd 0x0A03 ∧ nrHolder restoreCmd.packet ≠ (s.half .q).myPos .q ∧ s.hasUnacked 1 = false
        ∧ (({ mem := s.view } : Run).store (s.envCmd .q { restoreCmd with fetched := [] }) 0 bs.flatten).clean
        ∧ blocksDigest bs = bits (numOf (restoreCmd.fetchedBytes 0x200 64)) 128 64) := by
  have bytes : restoreCmd.fetchedBytes 0x100 256 = List.replicate 256 0 := by decide +kernel
  refine ⟨by decide +kernel, by decide +kernel, by decide +kernel, by decide +kernel, by decide +kernel, by decide +kernel, ?_, ?_⟩
  · rw [bytes]
    decide +kernel
  · rw [bytes, zeroBlock_digest]
    decide +kernel

/-- A NEIGHBOUR_RESTORE of a copy that this module holds itself, with the manifest that its memory has. -/
def ownCmd : Cmd := command 0x0A03 [(64, 48, 0x100), (128, 48, 256), (192, 48, 0x200)]
def ownState : State :=
  { wired (running ownCmd) with
    mem := Mem.write {} (16 * frameBytes + 0x200) (bytesOf 64 (manifest true 0 256 0 3990816988020936838 0)) }

theorem witness_NeighbourCheckpointsComplete_own :
    (let m := ({ mem := ownState.view } : Run).loadNum (ownState.envCmd .q ownCmd) 0x200 64
     let x := readBlocks (ownState.envCmd .q ownCmd) 0x100 1 m.2
     ownState.runs 1 .q ownCmd 0x0A03 ∧ nrHolder ownCmd.packet = (ownState.half .q).myPos .q ∧ ownState.hasUnacked 1 = false
      ∧ m.2.stop = none ∧ m.2.need = [] ∧ manifestOk m.1 (nrTag ownCmd.packet) (nrBytes ownCmd.packet) = true ∧ bits m.1 128 64 = 3990816988020936838
      ∧ x.1 = [List.replicate 256 0] ∧ (x.2.store (ownState.envCmd .q ownCmd) 0 x.1.flatten).clean)
    ∧ blocksDigest [List.replicate 256 0] = 3990816988020936838 := ⟨by decide +kernel, zeroBlock_digest⟩

/-- A frame of the module to the east for context 0. -/
def heard (type : Nat) (arg : Nat := 0) (row : RowBody := .none) : Frame :=
  { type := type, src := 1, gen := 1, addr := if type = 5 then 0 else 256, arg := arg, row := row, mgmt := type == 3 }

/-- A frame with the seal of its payload (R378). -/
def sealed (f : Frame) : Frame := { f with crc := crc32c (framePayload f) }

/-- One frame for each row of `frameRows`, in its order; the WRITE names its frame. -/
def heardFrames : List Frame :=
  [heard 0x0 256, heard 0x1, { heard 0x2 (4 + 2 ^ 27 + place 16 28 20) with data := [1, 2, 3, 4], crc := crc32c [1, 2, 3, 4] }, heard 0x3, heard 0x4,
   heard 0x5 0 (.request 0 [0]), heard 0x5 0 (.reply 0 0 []), sealed (heard 0x5 0 (.exactSum 0 0 1 [0])), sealed (heard 0x5 0 (.staged 0 0 0 [0])),
   heard 0x5 0 (.copy 0 0 [] []), heard 0x6, sealed (heard 0x6 (2 ^ 36)), heard 0x7, heard 0x7 (2 ^ 16), heard 0x8 0, heard 0x8 1]

/-- A waiting SHARD_DIGEST of tag 256 whose primary is the module to the east, and which has its digest. -/
def replicaCmd : Cmd :=
  { command 0x0603 [(0, 48, 0), (64, 48, 256), (128, 48, 0x1000), (224, 32, 256), (256, 2, 1), (264, 8, 2)] [place 1 0 16 + place 0 16 16] with
    digest := some 5, waiting := true }

/-- The state that hears them: context 0 has a table, and a collective of tag 0 that is over. -/
def listening : State :=
  wired (((running replicaCmd).setTable 0 0 (table 0 0)).modHalf .q fun x => x.modCtx 0 fun k =>
    { k with colls := [{ unjoined with tag := 0, finished := true }] })

/-- A SHARD_DIGEST of that group at its primary, which is this module, while the digest of the other is lacking. -/
def primaryCmd : Cmd := { replicaCmd with packet := packet 0x0603 [(0, 48, 0), (64, 48, 256), (128, 48, 0x1000), (224, 32, 256), (256, 2, 1), (264, 8, 1), (272, 8, 1)] }

theorem witness_UpdateCommandsComplete_compare :
    (let x := listening.half (sdPlane replicaCmd.packet)
     listening.cmd? replicaCmd.id = some (.q, replicaCmd) ∧ replicaCmd.done = none
      ∧ replicaCmd.primaryPos ≠ x.myPos (sdPlane replicaCmd.packet) ∧ x.route (sdPlane replicaCmd.packet) replicaCmd.primaryPos % 8 ≠ 7)
    ∧ (let s := wired (running primaryCmd)
       let x := s.half (sdPlane primaryCmd.packet)
       s.cmd? primaryCmd.id = some (.q, primaryCmd) ∧ primaryCmd.done = none ∧ primaryCmd.primaryPos = x.myPos (sdPlane primaryCmd.packet)
        ∧ ∃ j < primaryCmd.group.length, j ≠ sdPrimary primaryCmd.packet ∧
            find (primaryCmd.group.getD j 0) ((find (sdTag primaryCmd.packet) (x.ctx 0).places).getD []) = none) := by decide +kernel

/-- What a frame is answered: 0 taken, 1 refused, 2 kept. -/
def answerKind : Answer → Nat
  | .done _ => 0
  | .refuse _ _ => 1
  | .later _ => 2

/-- How the row of that place in `frameRows` fares with a frame: its TYPE, whether it is the frame's row, the answer, and the arrival. -/
def rowCase (n : Nat) (f : Frame) : Option (Nat × Bool × Nat × Arrival) :=
  ((frameRows listening .q 1 f)[n]?).map fun r =>
    let g := (listening.half .q).ingress .q 1 f
    (r.2.1, r.2.2.2, answerKind (r.2.2.1 (listening.modHalf .q fun y => y.countIn 1 f) g), (listening.half .q).arrival .q g)

/-- A WRITE that names no frame and comes to a page that is not preserved. -/
def strayWrite : Frame := { heard 0x2 4 with data := [1, 2, 3, 4], crc := crc32c [1, 2, 3, 4] }

theorem witness_FramesAreTaken :
    (∀ x ∈ heardFrames.zipIdx, listening.hearsFrame .q 1 x.1 x.1.type
      ∧ rowCase x.2 x.1 = some (x.1.type, true, if x.2 = 9 ∨ x.2 = 15 then 2 else 0, .take))
    ∧ listening.hearsFrame .q 1 strayWrite 0x2 ∧ rowCase 2 strayWrite = some (0x2, true, 1, .take)
    ∧ (∀ x ∈ [(heard 0x0 256, .take), ({ heard 0x0 256 with seq := 2 ^ 24 - 1 }, .duplicate), ({ heard 0x0 256 with ver := 9 }, .dropped),
        ({ heard 0x0 256 with gen := 0 }, .dropped), ({ heard 0x0 256 with gen := 2 }, .refused rsPeer)],
      listening.hearsFrame .q 1 x.1 0x0 ∧ (rowCase 0 x.1).map (·.2.2.2) = some x.2)
    ∧ (let b := listening.modHalf .q fun y => y.countIn 1 (heard 0x0 256)
       (∃ w, b.ownerAddr .q ((listening.half .q).ingress .q 1 (heard 0x0 256)) = .here (16 * frameBytes + 256) w)
         ∧ listening.view.intact (16 * frameBytes + 256) = true)
    ∧ (let g := heardFrames.getD 2 strayWrite
       let b := listening.modHalf .q fun y => y.countIn 1 g
       b.ownerAddr .q g = .here (16 * frameBytes + 256) true ∧ b.ckptFrame g (16 * frameBytes + 256) = true ∧ Frame.intact g = true
         ∧ bitSet g.arg 9 = false ∧ (({ mem := listening.view } : Run).storeAt (16 * frameBytes + 256) (g.data.take (bits g.arg 0 9))).settle.stop = none) := by
  unfold State.hearsFrame
  decide +kernel

/-! ## Stroke time, energy and domains -/

/-- A half that has the last word of its N and S links, of a master at position 0, 2 or 5 hops away. -/
def timed (regs : Table) (boot : Boot) : State :=
  let port (hops : Nat) : Port := { lastWord := place 7 0 64 + place 1 172 1 + place hops 173 8 + place 4 181 3 + place 1 184 1, sentWord := 7, sentAt := some 976 }
  let s := wired (running (command 0 []))
  (s.modHalf .q fun x => { x with boot := boot, regs := regs ++ x.regs, ports := [port 2, {}, port 5], count := 2000 })

/-- The K copy locked to the Q copy across the Siphon, at a count before, at or after its own of 5. -/
def locked (k : Nat) : State :=
  ((running (command 0 [])).modHalf .q fun x => { x with count := 5 }).modHalf .k fun x =>
    { x with count := k, regs := [(hubKey bSTU 3, place 2 0 3 + place 8 3 4)] }

/-- A word of the parent to the north, without and with an echo of a word sent 9 strokes earlier. -/
def wordOf (echo : Nat) : Nat := place 32000 0 64 + place echo 64 64 + place 1 172 1 + place 1 173 8 + place 4 181 3 + place 1 184 1

theorem witness_StrokeTimeAdvances :
    (∀ p ∈ [0, 1], (timed [] .ready).timeLinkUp .q p = true)
    ∧ (((timed [] .ready).half .q).timePort 1).sentAt = none
    ∧ (((timed [] .ready).half .q).timePort 0).sentAt = some 976 ∧ 976 + 1024 ≤ ((timed [] .ready).half .q).count
    ∧ (timed [] .ready).lockstep = false
    ∧ (∀ k ∈ [4, 5, 6], (locked k).lockstep = true ∧ (locked k).q.boot ≠ .off ∧ (locked k).q.count = 5 ∧ (locked k).k.count = k)
    ∧ ((timed [] .ready).half .q).stuState .q ≠ 4 ∧ xwOffset 32000 (wordOf 0) = none
    ∧ (let t := (timed [] .ready).modHalf .q fun y => y.setTimePort 0 { y.timePort 0 with lastWord := wordOf 31856 % 2 ^ 256, lastArrival := 32000 }
       (xwOffset 32000 (wordOf 31856)).isSome = true ∧ ((t.refreshParent .q).half .q).parentLink .q = some 0
         ∧ ((t.refreshParent .q).half .q).stuState .q ≠ 4)
    ∧ (let s := timed [(hubKey bSTU 3, 4), (hubKey bSTU 2, 2)] .ready
       s.q.boot ≠ .off ∧ s.q.resetting = false ∧ s.q.stuState .q = 4 ∧ bitSet (s.q.stuCfg .q) 1 = true ∧ s.q.refBase = none) := by decide +kernel

theorem witness_WindowStartDerates :
    (readyHalf.boot ≠ .off) ∧ (∀ hottest ∈ [0, 95, 96, 135, 136, 255], hottest < 256)
    ∧ (∀ n ∈ [0, 99999, 100000], let s := (running (command 0 [])).modHalf .q fun x => { x with count := n, windowBegun := some 7 }
        (s.half .q).boot ≠ .off ∧ ((s.half .q).count % 100000 = 0 ↔ n ≠ 99999) ∧ (s.half .q).windowBegun ≠ some ((s.half .q).count / 100000)) := by
  decide +kernel

/-- A window in which a half drew so many femtojoules, at 100 and at 50 percent of its cap. -/
def window (drawn derate : Nat) : State := (running (command 0 [])).modHalf .q fun x =>
  { x with drawn := drawn, derate := derate, level := 10 ^ 12, count := 99999 }
def capOf (derate : Nat) : Nat := ((window 0 derate).half .q).capMj .q * 10 ^ 10 * derate

theorem witness_WindowEndUpdatesTheLedger :
    ∀ derate ∈ [50, 100], ∀ drawn ∈ [0, capOf derate, capOf derate + 1],
      100 * capOf derate = ((window drawn derate).half .q).capMj .q * 10 ^ 12 * ((window drawn derate).half .q).derate ∧ 0 < capOf derate
        ∧ ((window drawn derate).half .q).boot ≠ .off ∧ ((window drawn derate).half .q).count % 100000 = 99999
        ∧ ((window drawn derate).half .q).windowEnded ≠ some 0 := by
  decide +kernel

/-- A READY half in which domain 13 has been idle for IDLE_STROKES, and whose trace queue has dropped two records. -/
def idling : State :=
  (running (command 0 [])).modHalf .q fun x =>
    { x with regs := [(hubKey bCSC 4, 1000)], domainIdle := [(13, 1000)], trace := { x.trace with gap := 2 } }

theorem witness_EnergyAndDomainsComplete :
    (idling.half .q).boot = .ready ∧ idleGated 13 = true ∧ (idling.half .q).idleStrokes .q = 1000 ∧ (idling.half .q).domainIdle.at 13 = 1000
    ∧ idling.domainUsed .q 13 = false ∧ (idling.half .q).boot ≠ .off ∧ (idling.half .q).sampleSlot ≠ some ((idling.half .q).count / 1000) ∧ 13 ∉ (idling.half .q).gated ∧ 13 ∉ (idling.half .q).waking
    ∧ (idling.half .q).trace.gap ≠ 0 ∧ (idling.half .q).trace.queue.length < 4096 := by decide +kernel

/-! ## The command pipeline and scheduled events -/

/-- A NOP of context 0 as its ring holds it, in a version, under a weight epoch. -/
def nopPacket (version epoch : Nat) : Nat := place version 16 8 + place 1 32 32 + place epoch 192 32

/-- A READY half with that packet alone in ring 0 of context 0, and another in the management ring. -/
def enqueued (packet : Nat) (change : Ring → Ring) (starts : Nat) : State :=
  { ((running (command 0 [])).modHalf .q fun x =>
      { x with cmds := [], rings := [change { ctx := some 0, cmdTail := 1 }], level := 10 ^ 15
               mgmt := { cmdTail := 1, cmdBase := 0x8000, checked := true, exam := some {}, failedStarts := starts, drains := decide (2 ≤ starts) } }) with
    mem := (({} : Mem).write (16 * frameBytes) (bytesOf 64 packet)).write 0x8000 (bytesOf 64 (place 1 16 8)) }

def ringWith (change : Ring → Ring) : Ring := change { ctx := some 0, cmdTail := 1 }
def fetched (r : Ring) : Ring := { r with checked := true }

/-- The same with a broken seal on the block of the ring's slot. -/
def damagedHead : State := let s := enqueued (nopPacket 1 0) id 0; { s with mem := { s.mem with badBlocks := [16 * frameBytes / 256] } }

theorem witness_HeadAndExamination :
    (∀ x ∈ [(nopPacket 1 0, true), (nopPacket 9 0, false)],
      (let s := enqueued x.1 id 0
       (s.half .q).ring? (.ctx 0 0) = some (ringWith id) ∧ s.headPacket .q (ringWith id) = some x.1 ∧ s.serves .q (ringWith id) = true
         ∧ (s.half .q).fetches (ringWith id) = true ∧ 1 + pkUnits x.1 ≤ (ringWith id).slots
         ∧ pkUnits (numOf (s.readSlots .q (ringWith id) 0 1)) = pkUnits x.1 ∧ (headRefusal s .q (.ctx 0 0) x.1).isNone = x.2
         ∧ s.slotDamage .q (ringWith id) 0 1 = none))
    ∧ (damagedHead.slotDamage .q (ringWith id) 0 1 = some (16 * frameBytes) ∧ damagedHead.headPacket .q (ringWith id) = some (nopPacket 1 0)
      ∧ damagedHead.serves .q (ringWith id) = true ∧ (damagedHead.half .q).fetches (ringWith id) = true)
    ∧ (∀ x ∈ [(0, true), (2, false)],
      (let s := enqueued (nopPacket 1 0) fetched x.1
       (s.half .q).ring? (.ctx 0 0) = some (ringWith fetched) ∧ s.headPacket .q (ringWith fetched) = some (nopPacket 1 0)
         ∧ s.headReady .q (ringWith fetched) specNop (nopPacket 1 0) = true
         ∧ (match examine s .q (.ctx 0 0) specNop (nopPacket 1 0) with
           | .ok e => (s.modHalf .q fun y => y.setRing (.ctx 0 0) { ringWith fetched with exam := some e }).admissible .q (ringWith fetched) specNop
               (nopPacket 1 0) e == x.2
           | .error _ => false) = true))
    ∧ (let s := enqueued (nopPacket 1 3) fetched 0
       s.headPacket .q (ringWith fetched) = some (nopPacket 1 3) ∧ s.headReady .q (ringWith fetched) specNop (nopPacket 1 3) = true
         ∧ (match examine s .q (.ctx 0 0) specNop (nopPacket 1 3) with | .ok _ => false | .error _ => true) = true) := by decide +kernel

/-- A finished command, of a context or of none, and one that crosses the Siphon. -/
def finished (ctx : Option Nat) : Cmd := { command 0 [] with ctx := ctx, done := some (okResult 0 0 0) }
def crossing : Cmd := { command 0 [] with twoHalf := true }

/-- A finished command that signals gate 2048, of the K half, and a CONFIG_COMMIT whose event has fired. -/
def signaller : Cmd := { finished (some 0) with packet := packet 0 [] + place 2048 448 12 + place 1 460 1 + place 1 464 16 }
def committed : Cmd := { command 4 [] with waiting := true }

/-- A window start has put the held head of ring 0 of context 0 first. -/
def heldRing : Ring := { fetched (ringWith id) with exam := some { workHome := 1 }, firstHeld := some 0 }
def heldFirst : State :=
  (enqueued (nopPacket 1 0) id 0).modHalf .q fun x => { x with rings := [heldRing], windowFirst := [(.q, .ctx 0 0)] }

theorem witness_AdmissionAndCompletion :
    (let s := enqueued (nopPacket 1 0) fetched 0
     (s.half .q).mayAdmit = true ∧ (s.half .q).windowFirst = []
       ∧ (match (s.half .q).arbitration with | r :: _ => (s.candidate .q r).isSome | [] => false) = true)
    ∧ ((heldFirst.half .q).mayAdmit = true ∧ (heldFirst.half .q).windowFirst = [(.q, .ctx 0 0)]
      ∧ (heldFirst.half .q).ring? (.ctx 0 0) = some heldRing ∧ heldRing.firstHeld.isSome = true
      ∧ (match heldFirst.examined .q heldRing with
        | some (spec, p, e) => decide (Half.q ∈ e.halves .q) && heldFirst.admissible .q heldRing spec p e
        | none => false) = true)
    ∧ (running crossing).cmd? 1 = some (.q, crossing) ∧ crossing.mirrored = false ∧ (running crossing).together .q = true
    ∧ (∀ ctx ∈ [none, some 0], (running (finished ctx)).cmd? 1 = some (.q, finished ctx) ∧ (finished ctx).done.isSome = true
        ∧ ((running (finished ctx)).resultOf (finished ctx)).isSome = true ∧ (running (finished ctx)).hasUnacked 1 = false
        ∧ (running (finished ctx)).signalsOut 1 = false ∧ (running (finished ctx)).signalsAcross .q (finished ctx) (okResult 0 0 0) = false)
    ∧ ((running signaller).cmd? 1 = some (.q, signaller) ∧ ((running signaller).resultOf signaller).isSome = true
      ∧ (running signaller).hasUnacked 1 = false ∧ (running signaller).signalsOut 1 = false ∧ signaller.signalled = false
      ∧ (running signaller).signalsAcross .q signaller (okResult 0 0 0) = true)
    ∧ (committed.done = none ∧ committed.waiting = true ∧ pkOpcode committed.packet = 0x0004
      ∧ (running committed).q.events ++ (running committed).k.events = [])
    ∧ (running crossing).siphonUp = true := by decide +kernel

/-- A half with a CONFIG_COMMIT due, with a freeze due, or with a route commit due. -/
def due (f : HalfState → HalfState) : State := (running (command 0 [])).modHalf .q fun x => f { x with count := 9 }
def dueEvent : Sched := { stroke := 9, both := false, kind := .commit true false 0 1 1 }
def arm : FreezeArm := { freezeId := 3, machine := true }
def frozenSet : Frozen := { freezeId := 1, stroke := 5, late := false, gauges := [], attr := [], stale := [], offset := 0 }

def commitDue : State := due fun x => { x with events := [dueEvent] }
def freezeDue (frozen : Option Frozen) : State := due fun x => { x with pendingFreeze := some { stroke := 9, arm := arm }, frozen := frozen }
def routeDue : State := due fun x => { x with routePending := [{ stroke := 9, facts := [{ pos := 0, port := 1, down := true }] }] }

theorem witness_ScheduledEventsFire :
    ((commitDue.half .q).resetting = false ∧ (commitDue.half .q).freezeDue = false ∧ (commitDue.half .q).routeDue = false
      ∧ (commitDue.half .q).dueCommit = some dueEvent)
    ∧ ((freezeDue none).half .q).resetting = false ∧ (((freezeDue none).half .q).dueFreeze.map fun y => (y.1, y.2.frozen)) = some (arm, none)
    ∧ (routeDue.half .q).resetting = false ∧ least ((routeDue.half .q).routePending.map (·.stroke)) = some 9 ∧ (routeDue.half .q).count = 9
    ∧ (routeDue.half .q).freezeDue = false := by decide +kernel

theorem witness_FreezeWithoutReplace :
    ((freezeDue (some frozenSet)).half .q).resetting = false
    ∧ (((freezeDue (some frozenSet)).half .q).dueFreeze.map fun y => (y.1, y.2.frozen)) = some (arm, some frozenSet) ∧ arm.replace = false := by
  decide +kernel

/-! ## The Siphon, links and the spur -/

/-- The Siphon in a state, both halves READY, and the last attempt of the Q half so many strokes ago. -/
def siphonAt (siphon lanes : Nat) (attempt : Option Nat) : State :=
  { (running (command 0 [])).modHalf .q fun x => { x with siphonTry := attempt, count := 200000000 } with siphon := siphon, lanesRepaired := lanes }

theorem witness_SiphonRowsComplete :
    (siphonAt 0 0 none).siphonUp = false ∧ (siphonAt 2 0 none).siphonUp = true ∧ (siphonAt 3 0 none).siphonUp = true
    ∧ (∀ siphon ∈ [1, 2, 3], (siphonAt siphon 0 none).siphon ≠ 0) ∧ (siphonAt 2 0 none).lanesRepaired < Config.siphonSpares
    ∧ (∀ n, Config.siphonSpares ≤ (siphonAt 2 (Config.siphonSpares + n) none).lanesRepaired)
    ∧ (∀ attempt ∈ [none, some 100000000], ∀ t, ((siphonAt 0 0 attempt).half .q).siphonTry = some t → t + 100000000 ≤ ((siphonAt 0 0 attempt).half .q).count)
    ∧ (((siphonAt 0 0 none).half .q).boot = .ready ∧ ((siphonAt 0 0 none).half .q).resetting = false)
    ∧ (∀ h ∈ [Half.q, .k], ((siphonAt 0 0 none).half h).trainsSiphon = true ∧ ((siphonAt 1 0 none).half h).trainsSiphon = true)
    ∧ ((siphonAt 1 0 (some 180000000)).siphonBy = .q ∧ ((siphonAt 1 0 (some 180000000)).half .q).siphonTry = some 180000000 ∧ 180000000 + 20000000 ≤ ((siphonAt 1 0 (some 180000000)).half .q).count)
    ∧ ((siphonAt 2 0 none).cmd? 1).isSome = true ∧ (siphonAt 2 0 none).cmd? 7 = none ∧ (command 0 []).done = none ∧ crc32c [1, 2, 3, 4] ≠ 0 := by
  refine ⟨by decide +kernel, by decide +kernel, by decide +kernel, by decide +kernel, Nat.succ_pos _, fun n => Nat.le_add_right _ n, ?_,
    by decide +kernel, by decide +kernel, by decide +kernel, by decide +kernel, by decide +kernel, by decide +kernel, by decide +kernel⟩
  intro attempt ha t ht
  simp only [List.mem_cons, List.not_mem_nil, or_false] at ha
  rcases ha with rfl | rfl
  · exact absurd (show none = some t from ht) (by simp)
  · obtain rfl : 100000000 = t := by simpa using (show some 100000000 = some t from ht)
    decide +kernel

/-- A capability record of the neighbour to the east in the Q plane, whose range of link versions contains this module's. -/
def capRecord : Nat :=
  place linkVersion 24 8 + place linkVersion 32 8 + place 1 40 12 + place (oppositePort 1) 53 3 + place 2 56 7 + place 4 63 7

/-- A capability record of a host at the spur. -/
def hostRecord : Nat := place 1 8 2 + place linkVersion 24 8 + place linkVersion 32 8

/-- A wired half whose port 1 is in a state, with a frame in its retry buffer, and in a boot state. -/
def linkAt (state : Nat) (boot : Boot) : State :=
  (wired (running (command 0 []))).modHalf .q fun x =>
    { x with boot := boot, regs := (regKey bLNK 4 1 2, state) :: (regKey bLNK 4 1 1, 1) :: x.regs, rxSince := [(1, 2)]
             ports := [{}, { retry := [{ type := 2 }], failedReplays := 8, triedAt := some 5 }], count := 100000005 }

theorem witness_LinkRowsComplete :
    hasPort .q 1 = true ∧ hasPort .q 4 = true ∧ (∀ b ∈ [Boot.ready, .training], ∀ st ∈ [0, 1, 2],
      ((linkAt st b).half .q).resetting = false ∧ ((linkAt st b).half .q).portState .q 1 = st ∧ ((linkAt st b).half .q).running = true
        ∧ bitSet (((linkAt st b).half .q).portReg .q 1 1) 0 = true ∧ (((linkAt st b).half .q).port 1).retry ≠ []
        ∧ (((linkAt st b).half .q).port 1).failedReplays = 8 ∧ capRefusal ((linkAt st b).half .q) .q 1 capRecord = none
        ∧ (((linkAt st b).half .q).port 1).triedAt = some 5 ∧ 5 + 100000000 ≤ ((linkAt st b).half .q).count
        ∧ capRefusal ((linkAt st b).half .q) .q 4 (hostRecord) = none
        ∧ (capRefusal ((linkAt st b).half .q) .q 1 0).isSome = true ∧ ((linkAt st b).half .q).rxSince.at 1 ≠ 0)
    ∧ (∀ f ∈ [({ type := 2, dst := 1, ver := 1 } : Frame), { type := 2, dst := 1, ver := 0 }, { type := 12, dst := 1, ver := 1 }],
      f.dst ≠ ((linkAt 2 .ready).half .q).myPos .q ∧ ¬ (f.type = 0xB ∧ f.arg % 256 ≠ 0)
        ∧ (f.ver = ((linkAt 2 .ready).half .q).e2eVer .q) = (f.ver = 1))
    ∧ ((linkAt 2 .ready).half .q).portState .q 4 = 2 ∧ ((linkAt 2 .ready).half .q).isBridge .q = true := by decide +kernel

/-- Notices that the Q half hears at its port 1. -/
def notice (arg addr : Nat) : Frame := { type := 0xB, ctx := 0, gen := 1, arg := arg, addr := addr }
def noticed (siphon : Nat) (seen : List Nat) : State :=
  { (wired (running (command 0 []))).modHalf .q fun x => { x with freezeSeen := seen } with siphon := siphon }

theorem witness_NoticesAreTaken :
    (let s := noticed 2 []
     (s.half .q).hears .q 1 (notice 0 0) 0 = true ∧ (notice 0 0).dst = (s.half .q).myPos .q ∧ ((s.half .q).ctx 0).alive = true
       ∧ (s.half .q).gen 0 = 1 ∧ (s.half .q).hears .q 1 (notice (3 + place 5 8 3 + place 1 11 1) 9) 3 = true ∧ (s.half .q).routeSeen = []
       ∧ (let t := s.modHalf .q fun x => { x with routeSeen := [(0, 11, 9)] }
          (t.half .q).hears .q 1 (notice (3 + place 5 8 3 + place 1 11 1) 9) 3 = true
            ∧ ((noticeFact (notice (3 + place 5 8 3 + place 1 11 1) 9)).pos, 11, 9) ∈ (t.half .q).routeSeen))
    ∧ (∀ x ∈ [(0, []), (0, [7]), (2, []), (2, [7])], ((noticed x.1 x.2).half .q).hears .q 1 (notice (2 + place 7 8 32) 9) 2 = true
      ∧ ((noticed x.1 x.2).half .q).freezeSeen = x.2 ∧ (noticed x.1 x.2).siphonUp = decide (x.1 = 2)
      ∧ ((noticed x.1 x.2).half .k).resetting = false ∧ ((noticed x.1 x.2).half .k).freezeSeen = []) := by decide +kernel

/-- Frames of a host for the management ring of the Q half: a ring write, a ring read and a doorbell, from this module's spur or from the
bridge of another module; and one for a ring that nobody has defined. -/
def hostFrame (type src : Nat) (ring : Nat := 0) : Frame :=
  { type := type, src := src, mgmt := ring == 0, addr := place ring 1 5, arg := if type = 0x0 then 64 else 0, gen := 1 }

def spurCase (n : Nat) (f : Frame) : Option (Nat × Nat) :=
  ((spurRows f)[n]?).map fun r =>
    (r.2.1, answerKind (r.2.2 ((wired (running (command 0 []))).modHalf .q fun y => y.countIn (if f.src = 0 then 4 else 3) f) f))

theorem witness_SpurRowsComplete :
    (let s := wired (running (command 0 []))
     s.q.portState .q 4 = 2 ∧ s.q.isBridge .q = true ∧ s.q.resetting = false ∧ s.q.e2eVer .q = 1 ∧ s.q.myPos .q = 0 ∧ s.siphonUp = true
      ∧ (s.half .q).portState .q ((s.half .q).portTowards .q 1) = 2
      ∧ (∀ src ∈ [0, 1], s.q.isDuplicate src 0 = false
        ∧ ∀ x ∈ [0x9, 0x0, 0xA].zipIdx, spurCase x.2 (hostFrame x.1 src) = some (x.1, 0) ∧ spurCase x.2 (hostFrame x.1 src 6) = some (x.1, 1)))
    ∧ (wired (running (command 0 []))).streamCredit .q 4 { type := 7, addr := 1 } = true
    ∧ ((wired (running (command 0 []))).q.spurGate { type := 7, gen := 0 }).isSome = true
    ∧ ((wired (running (command 0 []))).q.unacked ++ (wired (running (command 0 []))).k.unacked) = []
    ∧ ({ type := 0xA, dst := 1 } : Frame).dst ≠ (wired (running (command 0 []))).q.myPos .q := by decide +kernel

/-! ## Faults, resets and power -/

/-- A half with a command, a deadline for source 0x001 that has come, and a watchdog budget of one unit. -/
def faulting (c : Cmd) : State :=
  (running c).modHalf .q fun x => { x with deadlines := [(1, 3)], count := 3, regs := [(hubKey bCMP 10, 1)] }
def idleCmd : Cmd := { vectorCmd with idle := 1000 }

theorem witness_FaultRowsComplete :
    (let s := faulting idleCmd
     (∀ n ∈ [0x001, 0x021, 0x130], (s.half .q).samples n = true ∧ (sourceInfo .q n).isSome = true ∧ bitSet ((s.half .q).sev .q n) 6 = false)
      ∧ s.cmd? 7 = none ∧ s.cmd? 1 = some (.q, idleCmd) ∧ isEngineFault 0x130 = true ∧ engineServes .q 0x130 idleCmd = true ∧ idleCmd.done = none
      ∧ isEngineFault 0x021 = false ∧ earliest (s.half .q).deadlines = some (1, 3) ∧ 3 ≤ s.now .q ∧ (s.half .q).boot ≠ .off
      ∧ (s.half .q).budget .q = 1 ∧ (s.half .q).budget .q * 1000 ≤ idleCmd.idle ∧ idleCmd.phase = .running ∧ idleCmd.stopWith = none
      ∧ (s.half .q).running = true ∧ (s.half .q).heartbeatOn = true)
    ∧ (∀ c ∈ [{ inBoth idleCmd with idle := 0, idleOther := 1000 }, { idleCmd with done := some (okResult 0 0 0) },
        { idleCmd with done := some (faultField 512 0) }],
      let s := ((faulting c).modHalf .k fun x => { x with regs := [(hubKey bCMP 10, 1)] }).modHalf .q fun x =>
        { x with unacked := [{ frame := { type := 2 }, plane := .q, cmd := some 1 }] }
      s.cmd? 1 = some (.q, c) ∧ c.phase = .running ∧ c.stopWith = none ∧ (s.expired .q c).isSome = true ∧ s.hasUnacked 1 = true
        ∧ (s.half .k).budget .k = 1)
    ∧ (let c := { idleCmd with done := some (faultField 512 0), doneAt := 3 }
       (faulting c).cmd? 1 = some (.q, c) ∧ isError (faultField 512 0).status = true ∧ c.doneAt = (faulting c).now .q) := by decide +kernel

/-- The Q half after a reset that began at stroke 5, at a stroke, beside a K half that can write for it or not. -/
def resetting (collecting : Bool) (now siphon : Nat) : State :=
  ({ (running (command 0 [])).modHalf .q fun x => { x with reset := some { start := 5, cause := 1, trigger := 2, collecting := collecting } } with
    siphon := siphon } : State).modHalf .k fun x => { x with count := now }

theorem witness_ResetRowsComplete :
    (∀ siphon ∈ [0, 2], ((((resetting true 5 siphon).half .q).reset.map (·.collecting)) = some true)
      ∧ (resetting true 5 siphon).siphonUp = decide (siphon = 2) ∧ (resetting true 5 siphon).ready .k = true)
    ∧ (∀ h ∈ [Half.q, .k], (resetting true 5 2).heldReset h = false)
    ∧ ((resetting true 5 2).q.resetting = true)
    ∧ (let s := running (command 0 []); s.q.boot ≠ .off ∧ s.q.resetting = false) := by decide +kernel

/-- The record of a resetting half can be written, or meets a damaged block. -/
theorem witness_ResetRowsComplete_record :
    (resetting true 5 2).siphonUp = true ∧ (((running (command 0 [])).putMem none [(collectedAt .q, [1])]).2 = none)
    ∧ ((({ running (command 0 []) with mem := { badBlocks := [collectedAt .q / 256] } } : State).putMem none [(collectedAt .q, [1])]).2 = some (collectedAt .q)) := by
  decide +kernel

/-- The module off, with its pins and latches. -/
def powerless (pwrEn holdoff failed hot : Bool) : State := { State.reset with pwrEn := pwrEn, holdoff := holdoff, powerFailed := failed, hotDies := hot }

theorem witness_PowerRowsComplete :
    (powerless false true true true).pwrEn = false ∧ (powerless true false false false).pwrEn = true
    ∧ (∀ s ∈ [powerless true false false false, { powerless true false false false with starting := true }, running (command 0 [])],
        (s.starting = false ∧ s.isOff = true) ∨ s.starting = true ∨ s.isOff = false)
    ∧ (let s := powerless true false false false
       s.holdoff = false ∧ s.powerFailed = false ∧ s.hotDies = false ∧ s.thermTrip = false ∧ s.starting = false ∧ s.isOff = true)
    ∧ (powerless false true true true).holdoff = true ∧ (powerless false true true true).powerFailed = true
    ∧ (powerless false true true true).hotDies = true ∧ (51999 < 52000 ∧ 64000 < 64001)
    ∧ (let s := { powerless true false false false with starting := true }; s.starting = true ∧ s.q.beforeRom = true ∧ s.k.beforeRom = true)
    ∧ (running (command 0 [])).isOff = false := by decide +kernel

/-! ## Start-up, firmware and settings -/

/-- The Q half in a boot state of the start-up sequence, with a register of its own, beside a READY K half and a Siphon that is down. -/
def starting (boot : Boot) (regs : Table := []) : State :=
  { (running (command 0 [])).modHalf .q fun x => { x with boot := boot, regs := regs } with siphon := 0, starting := true }

/-- The ROM after a half reset whose collection has ended, and a loader whose firmware has failed to start so many times. -/
def afterReset : State := (starting .rom).modHalf .q fun x => { x with reset := some { start := 5, cause := 1, trigger := 2 }, bootSampled := true }
def loading (fails : Nat) (flash : Flash) : HalfState := { readyHalf with boot := .loader, flash := { flash with bootFails := fails } }

theorem witness_StartUpRowsComplete :
    (starting .off).starting = true ∧ ((starting .off).half .q).boot = .off ∧ ((starting .alwaysOn).half .q).boot = .alwaysOn
    ∧ (starting .alwaysOn).heldReset .q = false
    ∧ (afterReset.half .q).boot = .rom ∧ (afterReset.half .q).bootSampled = true ∧ ((afterReset.half .q).reset.map (·.collecting)) = some false ∧ afterReset.heldReset .q = false
    ∧ (∀ flash : Flash, ((loading 2 flash).runLoader .q).2 = false)
    ∧ (∀ flash : Flash, (loading 0 flash).imageOk .q = true → ((loading 0 flash).runLoader .q).2 = true)
    ∧ (∀ boot ∈ [Boot.firmware, .training], ((starting boot).half .q).boot = boot ∧ ((starting boot).half .q).resetting = false
        ∧ ((starting boot).half .q).running = true)
    ∧ ({ starting .training with siphon := 1 } : State).siphon = 1
    ∧ ((starting .training [(regKey bLNK 4 1 2, 1)]).half .q).portState .q 1 = 1
    ∧ (∀ st ∈ [2, 4], (let s := starting .training ((hubKey bSTU 3, st) :: (List.range 5).map fun p => (regKey bLNK 4 p 2, 0))
        s.linksSettled .q = true ∧ (s.half .q).stuState .q = st))
    ∧ (let s := starting .training ((hubKey bSTU 3, place 1 0 3 + place 15 3 4) :: (List.range 5).map fun p => (regKey bLNK 4 p 2, 0))
       s.linksSettled .q = true ∧ (∀ p ∈ List.range 4, (s.half .q).portState .q p ≠ 2) ∧ (s.half .q).parentLink .q ≠ some 8
         ∧ (s.half .q).stuState .q ≠ 4) := by
  refine ⟨by decide +kernel, by decide +kernel, by decide +kernel, by decide +kernel, by decide +kernel, by decide +kernel, by decide +kernel,
    by decide +kernel, fun flash => rfl, fun flash h => h, by decide +kernel, by decide +kernel, by decide +kernel, by decide +kernel, by decide +kernel⟩

/-- FW_STAGE with each OP, at a stage of the write, and a state with a staged image. -/
def stageCmd (op cursor : Nat) : Cmd := { command 0x0B01 [(0, 2, op)] with cursor := cursor }
def staging (c : Cmd) : State := { running c with staging := some { header := 0 } }

/-- A half with an activation due, one that has saved its context for it, and one whose activation fired a second ago, with its firmware
started or not. -/
def activating : State := due fun x => { x with events := [{ stroke := 9, both := false, kind := .activation 1 }] }
def halfway : State := due fun x => { x with activation := some { cmd := 1, fired := 9, previous := 0, ctx := none } }
def activated (restarted : Bool) : State := due fun x =>
  { x with activation := some { cmd := 1, fired := 9, previous := 0, ctx := none, restarted := restarted }, count := 100000009 }

theorem witness_FirmwareRowsComplete :
    (∀ x ∈ [(0, 0), (1, 0), (2, 0), (2, 1), (3, 0)], (staging (stageCmd x.1 x.2)).runs 1 .q (stageCmd x.1 x.2) 0x0B01
      ∧ fsOp (stageCmd x.1 x.2).packet = x.1 ∧ (staging (stageCmd x.1 x.2)).bothReady = true ∧ (stageCmd x.1 x.2).cursor = x.2)
    ∧ ((activating.half .q).resetting = false ∧ (activating.half .q).freezeDue = false ∧ (activating.half .q).routeDue = false
      ∧ (activating.half .q).commitDue = false ∧ (activating.half .q).dueActivation.isSome = true)
    ∧ (activating.half .q).activating = none
    ∧ ((halfway.half .q).resetting = false ∧ (halfway.half .q).activating.isSome = true ∧ (halfway.half .q).running = true)
    ∧ (∀ r ∈ [true, false], (((activated r).half .q).activation.map fun a => (a.fired, a.restarted)) = some (9, r)
      ∧ 9 + 100000000 ≤ (activated r).now .q ∧ ((activated r).half .q).running = true) := by
  decide +kernel

/-- SETTINGS_WRITE with each OP, SETTINGS_CONFIRM and ATTEST; settings of the Q half in slot 0 of both devices, and a staged body. -/
def settingsCmd (op field : Nat) : Cmd := command op [(0, 2, field)]
def withSettings (c : Cmd) : State :=
  let go (x : HalfState) : HalfState := { x with settings := some {}, flash := { x.flash with slot0 := some {} } }
  { ((running c).modHalf .q go).modHalf .k go with settingsStaging := some (64, []) }

theorem witness_SettingsAndAttestationComplete :
    (∀ op ∈ [0, 1, 2, 3], (withSettings (settingsCmd 0x0B03 op)).runs 1 .q (settingsCmd 0x0B03 op) 0x0B03 ∧ swOp (settingsCmd 0x0B03 op).packet = op
      ∧ (withSettings (settingsCmd 0x0B03 op)).siphonUp = true ∧ (withSettings (settingsCmd 0x0B03 op)).settingsStaging = some (64, []))
    ∧ ((withSettings (settingsCmd 0x0B04 0)).runs 1 .q (settingsCmd 0x0B04 0) 0x0B04 ∧ (withSettings (settingsCmd 0x0B04 0)).q.settings = some {}
      ∧ (withSettings (settingsCmd 0x0B04 0)).q.slotInForce = some 0)
    ∧ (∀ mode ∈ [0, 1, 2], (withSettings (settingsCmd 0x0B05 mode)).runs 1 .q (settingsCmd 0x0B05 mode) 0x0B05
      ∧ atMode (settingsCmd 0x0B05 mode).packet = mode) := by decide +kernel

/-! ## The management port and the TAP -/

/-- The Q half in recovery, awaiting an image or with a whole one. -/
def recovering (result : Nat) : State :=
  (wired (running (command 0 []))).modHalf .q fun x =>
    { x with boot := .recovery, recovResult := result, recovery := if result = 2 then some { header := 0 } else none }

/-- A whole packet for a management ring, and a half that still holds one or keeps a reply. -/
def portPacket : List Nat := bytesOf 64 (place 1 16 8)
def occupied : State := (running (command 0 [])).modHalf .q fun x => { x with mgmtHeld := some portPacket, mgmtLast := some (bytesOf 32 1) }

theorem witness_ManagementPortCompletes :
    (running (command 0 [])).addressed staticAddress = true ∧ 64 ≤ portPacket.length
    ∧ portPacket.length = 64 * (1 + pkUnits (numOf (portPacket.take 64))) ∧ 2 + portPacket.length ≤ (running (command 0 [])).maxWrite
    ∧ ((running (command 0 [])).half .q).takesPackets = true ∧ ((running (command 0 [])).half .q).mgmtHeld = none
    ∧ ((running (command 0 [])).half .q).mgmtOutstanding = none ∧ (occupied.half .q).mgmtHeld.isSome = true
    ∧ (occupied.half .q).mgmtLast.isSome = true ∧ (occupied.half .q).takesPackets = true
    ∧ (recovering 0).addressed staticAddress = true ∧ ((recovering 0).half .q).takesImage 0 = true
    ∧ (((recovering 0).half .q).takeImage .q (bytesOf 64 0)).isSome = true
    ∧ ((recovering 2).half .q).recovery.isSome = true ∧ ((recovering 2).half .q).boot = .recovery ∧ ((recovering 2).half .q).resetting = false
    ∧ ((recovering 2).half .q).recovResult = 2
    ∧ (let f : Frame := { type := 7, arg := 0xFFFF, data := [1, 2], crc := crc32c [1, 2] }
       bits f.arg 0 17 = 0xFFFF ∧ (recovering 0).q.bootSel ≠ 2 ∧ Frame.intact f = true ∧ (recovering 0).q.takesImage (256 * f.addr) = true
         ∧ (recovering 0).q.recovery = none ∧ f.data.length < 320 ∧ ((recovering 0).q.takeImage .q f.data).isSome = true) := by decide +kernel

theorem witness_BusAndTapCommandsComplete :
    (let s := running (command 0 [])
     s.portLives = true ∧ s.dynamicAddress = none ∧ (∀ a ∈ [broadcastAddress, staticAddress], s.called a = true) ∧ s.addressed staticAddress = true
       ∧ s.modReset = false)
    ∧ (let s : State := { running (command 0 []) with modReset := true, dynamicAddress := some 8 }
       s.portLives = true ∧ s.modReset = true ∧ s.called 8 = true ∧ s.addressed 8 = true) := by decide +kernel

end Sys2Proof.Tests
end

section
/-! # Memory: what a write leaves in the bytes of its range, outside it, and in the canonical form -/

namespace Sys2Proof.Machine

/-- A list of byte values keeps every entry under the reduction to eight bits that a stored byte takes. -/
theorem map_mod_256_of_bytes {bs : List Nat} (h : ∀ b ∈ bs, b < 256) : bs.map (· % 256) = bs :=
  (List.map_congr_left fun b hb => Nat.mod_eq_of_lt (h b hb)).trans (List.map_id bs)

/-- Settles O6, from the rules of a write: its range, the bytes outside it, the canonical form (R4, R335). -/
theorem writtenBytesReadBack : Obligations.WrittenBytesReadBack := by
  intro m a bs hbytes
  refine ⟨?_, fun x hx => ?_, fun hwf => ?_⟩
  · calc (m.write a bs).bytes a bs.length = bs.map (· % 256) := Mem.bytes_write_same m a bs
      _ = bs := map_mod_256_of_bytes hbytes
  · exact Mem.byte_write_outside hx
  · exact Mem.write_wf a bs hwf

end Sys2Proof.Machine
end

section
/-! # The Siphon: what each row does in each of its cases (R22 to R25, R30)

Each row is stated once per case, through the model's own operations; the settled statement puts the cases together. -/

namespace Sys2Proof.Machine

variable {s : State} {h g : Half} {c : Cmd} {dpa crc id : Nat} {block : List Nat}

/-! ## Loss and lane repair -/

/-- A Siphon that is not up carries nothing, so its loss changes its state alone: no teardown, no report (R23, R33). -/
theorem State.loseSiphon_of_not_up (hup : s.siphonUp = false) : s.loseSiphon = { s with siphon := 0 } := by
  simp [State.loseSiphon, hup]

theorem exec_siphonDown (s : State) : exec .siphonDown s = .next s.loseSiphon := rfl

/-- A spare is left: it takes the place of the faulty lane, and LANES_REPAIRED, a field of eight bits, saturates (R22, R30). -/
theorem exec_siphonLaneRepair_of_spare (hon : s.siphon ≠ 0) (hspare : s.lanesRepaired < Config.siphonSpares) :
    exec .siphonLaneRepair s
      = .next { s with lanesRepaired := min (s.lanesRepaired + 1) 0xFF, siphon := if s.siphon = 1 then 1 else 3 } :=
  congrArg Host.Outcome.next ((if_neg hon).trans (if_pos hspare))

/-- No spare is left: the fault stays and the Siphon is lost (R23). -/
theorem exec_siphonLaneRepair_of_no_spare (hon : s.siphon ≠ 0) (hnone : Config.siphonSpares ≤ s.lanesRepaired) :
    exec .siphonLaneRepair s = .next s.loseSiphon :=
  congrArg Host.Outcome.next ((if_neg hon).trans (if_neg hnone.not_gt))

/-! ## Training -/

/-- A half never tried, or whose last attempt began 100,000,000 strokes ago, is due (R24). -/
theorem exec_siphonRetry_of_due (hdown : s.siphon = 0) (hready : (s.half h).boot = .ready) (hreset : (s.half h).resetting = false)
    (hdue : ∀ t, (s.half h).siphonTry = some t → t + 100000000 ≤ (s.half h).count) :
    exec (.siphonRetry h) s = .next (s.trainSiphon h) := by
  have hr : s.ready h = true := beq_iff_eq.2 hready
  show execSiphonRetry h s = _
  cases htry : (s.half h).siphonTry with
  | none => simp [execSiphonRetry, htry, hdown, hr, hreset]
  | some t => simp [execSiphonRetry, htry, hdown, hr, hreset, hdue t htry]

/-- The hub that is asked answers at once, and the attempt belongs to the half that asked (R24). -/
theorem exec_siphonTrainingRequest_of_trains (hdown : s.siphon = 0) (hown : (s.half h).trainsSiphon = true)
    (hother : (s.half h.other).trainsSiphon = true) : exec (.siphonTrainingRequest h) s = .next (s.trainSiphon h.other) :=
  congrArg Host.Outcome.next (if_pos (by simp [hdown, hown, hother]))

/-- The time limit runs on the Stroke counter of the half that began the attempt (R24). -/
theorem exec_siphonTrainingTimeout_of_overdue {t : Nat} (htraining : s.siphon = 1)
    (htry : (s.half s.siphonBy).siphonTry = some t) (hover : t + 20000000 ≤ (s.half s.siphonBy).count) :
    exec .siphonTrainingTimeout s = .next { s with siphon := 0 } := by
  show execSiphonTrainingTimeout s = _
  simp [execSiphonTrainingTimeout, htraining, htry, hover]

/-- An attempt with both halves in training succeeds: records are merged, the K copy follows, the settings are reconciled (R24). -/
theorem exec_siphonActive_of_trains (htraining : s.siphon = 1) (hq : s.q.trainsSiphon = true) (hk : s.k.trainsSiphon = true) :
    exec .siphonActive s
      = .next (((({ s with siphon := if s.lanesRepaired = 0 then 2 else 3 } : State).mergeGens .q).mergeGens .k).followSiphon.reconcile) :=
  congrArg Host.Outcome.next (if_pos (by simp [htraining, hq, hk]))

/-! ## Blocks and flits that cross -/

/-- A block on which a command waits: the seal decides between progress of the command and its end (R25). -/
theorem exec_siphonBlockReceive_of_awaited (hup : s.siphonUp = true) (hon : (s.half h).boot ≠ .off)
    (hcmd : s.cmd? id = some (g, c)) (hdone : c.done = none) :
    exec (.siphonBlockReceive h dpa block crc id) s
      = .next (if crc32c block = crc then s.setCmd g { c with idle := 0, idleOther := 0 }
          else (s.finish g c (sealResult dpa)).occur h 0x021 c.ctx) := by
  show execSiphonBlockReceive h dpa block crc id s = _
  simp [execSiphonBlockReceive, hup, hon, hcmd, hdone]

/-- A block on which no command waits: the seal decides whether the hub raises the integrity fault (R25). -/
theorem exec_siphonBlockReceive_of_unawaited (hup : s.siphonUp = true) (hon : (s.half h).boot ≠ .off) (hcmd : s.cmd? id = none) :
    exec (.siphonBlockReceive h dpa block crc id) s = .next (if crc32c block = crc then s else s.occur h 0x021 none) := by
  show execSiphonBlockReceive h dpa block crc id s = _
  simp [execSiphonBlockReceive, hup, hon, hcmd]

/-- A flit sent again counts in SIPHON_RETRIES of the hub (R22, R30). -/
theorem exec_siphonFlitRetry_of_up (hup : s.siphonUp = true) (hon : (s.half h).boot ≠ .off) :
    exec (.siphonFlitRetry h) s = .next (s.modHalf h fun x => x.count32 h siphonRetriesKey 0 1) :=
  congrArg Host.Outcome.next (if_pos (by simp [hup, hon]))

end Sys2Proof.Machine
end

section
/-! # O49: the rows of the Siphon -/

namespace Sys2Proof.Machine

/-- Settles O49, row by row: loss and lane repair, the attempt to train and its two ends, blocks and flits that cross. -/
theorem siphonRowsComplete : Obligations.SiphonRowsComplete := by
  intro s
  refine ⟨fun hup => ?down, fun _ => exec_siphonDown s, fun hon hspare hroom => ?repair,
    fun hon hnone => exec_siphonLaneRepair_of_no_spare hon hnone,
    fun _ hdown hready hreset hdue => exec_siphonRetry_of_due hdown hready hreset hdue,
    fun _ hdown hown hother => exec_siphonTrainingRequest_of_trains hdown hown hother,
    fun _ htraining htry hover => exec_siphonTrainingTimeout_of_overdue htraining htry hover,
    fun htraining hq hk => exec_siphonActive_of_trains htraining hq hk,
    fun h dpa block crc id g c hup hon hcmd hdone => ?awaited, fun h dpa block crc id hup hon hcmd => ?unawaited,
    fun h hup hon => ⟨_, exec_siphonFlitRetry_of_up hup hon, State.modHalf_half .., State.modHalf_other .., State.modHalf_mem ..⟩⟩
  case down =>
    exact ⟨{ s with siphon := 0 }, by rw [exec_siphonDown, State.loseSiphon_of_not_up hup], rfl, rfl, rfl, rfl⟩
  case repair =>
    exact ⟨_, exec_siphonLaneRepair_of_spare hon hspare, Nat.min_eq_left hroom, fun h => if_pos h, fun h => if_neg h, rfl, rfl, rfl⟩
  case awaited =>
    rw [exec_siphonBlockReceive_of_awaited hup hon hcmd hdone]
    exact ⟨fun hseal => by rw [if_pos hseal], fun hseal => by rw [if_neg hseal]⟩
  case unawaited =>
    rw [exec_siphonBlockReceive_of_unawaited hup hon hcmd]
    exact ⟨fun hseal => by rw [if_pos hseal], fun hseal => by rw [if_neg hseal]⟩

end Sys2Proof.Machine
end

section
/-! # Rules that the rows of time, energy and scheduled events share: what a fold, a change of a half and an armed event keep -/

namespace Sys2Proof.Machine

/-! ## Parts that a change keeps -/

/-- A fold whose every turn keeps a part of its value keeps that part. -/
theorem foldl_keeps {α β γ : Type} {π : β → γ} {f : β → α → β} (hf : ∀ b a, π (f b a) = π b) (l : List α) (b : β) :
    π (l.foldl f b) = π b := by
  induction l generalizing b with
  | nil => rfl
  | cons a l ih => exact (ih (f b a)).trans (hf b a)

/-- A part of a half that a change of one half keeps is the same in both halves afterwards. -/
theorem State.half_modHalf_keeps {γ : Type} {π : HalfState → γ} {f : HalfState → HalfState} (hf : ∀ x, π (f x) = π x) (s : State) :
    ∀ h g, π ((s.modHalf h f).half g) = π (s.half g)
  | .q, .q => hf s.q
  | .q, .k => rfl
  | .k, .q => rfl
  | .k, .k => hf s.k

@[simp] theorem State.setCmd_events (s : State) (h : Half) (c : Cmd) (g : Half) : ((s.setCmd h c).half g).events = (s.half g).events :=
  State.half_modHalf_keeps (π := HalfState.events)
    (f := fun x => { x with cmds := updateFirst (·.id = c.id) (fun _ => c) x.cmds }) (fun _ => rfl) s h g

@[simp] theorem State.finish_events (s : State) (h : Half) (c : Cmd) (r : Result) (g : Half) :
    ((s.finish h c r).half g).events = (s.half g).events := State.setCmd_events s h _ g

theorem HalfState.traceEvent_eq (x : HalfState) (kind ctx a b : Nat) :
    x.traceEvent kind ctx a b = { x with trace := (x.traceEvent kind ctx a b).trace } := HalfState.traceAdd_eq x _ _

/-! ## Frames put on a port -/

/-- A frame put on a port changes the counts and ports of the half alone (R374, R381). -/
theorem HalfState.transmit_eq (x : HalfState) (h : Half) (i : Nat) (f : Frame) :
    ∃ r p u, x.transmit h i f = { x with regs := r, ports := p, gauges := u } := by
  unfold HalfState.transmit
  dsimp only
  split
  · exact ⟨_, _, _, HalfState.count32_eq ..⟩
  · split
    · exact ⟨_, _, _, rfl⟩
    · split
      · exact ⟨_, _, _, HalfState.gauge_eq ..⟩
      · exact ⟨_, _, _, rfl⟩

@[simp] theorem HalfState.transmit_cmds (x : HalfState) (h : Half) (i : Nat) (f : Frame) : (x.transmit h i f).cmds = x.cmds := by
  obtain ⟨r, p, u, e⟩ := x.transmit_eq h i f; rw [e]

@[simp] theorem HalfState.transmit_events (x : HalfState) (h : Half) (i : Nat) (f : Frame) : (x.transmit h i f).events = x.events := by
  obtain ⟨r, p, u, e⟩ := x.transmit_eq h i f; rw [e]

/-- A part of a half that no frame put on a port touches is kept when a freeze notice goes out (R468). -/
theorem HalfState.floodFreeze_keeps {γ : Type} {π : HalfState → γ} (hπ : ∀ (x : HalfState) h i f, π (x.transmit h i f) = π x)
    (x : HalfState) (h : Half) (port stroke : Nat) (a : FreezeArm) : π (x.floodFreeze h port stroke a) = π x := by
  unfold HalfState.floodFreeze
  refine foldl_keeps (π := π) (fun y p => ?_) _ x
  split
  · exact hπ y h p _
  · rfl

@[simp] theorem HalfState.floodFreeze_cmds (x : HalfState) (h : Half) (port stroke : Nat) (a : FreezeArm) :
    (x.floodFreeze h port stroke a).cmds = x.cmds := HalfState.floodFreeze_keeps (π := HalfState.cmds) HalfState.transmit_cmds x h port stroke a

@[simp] theorem HalfState.floodFreeze_events (x : HalfState) (h : Half) (port stroke : Nat) (a : FreezeArm) :
    (x.floodFreeze h port stroke a).events = x.events :=
  HalfState.floodFreeze_keeps (π := HalfState.events) HalfState.transmit_events x h port stroke a

end Sys2Proof.Machine
end

section
/-! # O2: reset -/

namespace Sys2Proof.Machine

theorem State.reset_inv : State.reset.Inv := ⟨by decide, by decide⟩

/-- Settles O2. -/
theorem resetMeetsInvariant : Obligations.ResetMeetsInvariant := ⟨State.reset_inv, rfl, rfl, rfl⟩

end Sys2Proof.Machine
end

section
/-! # O10: events that commands arm (R52, R53) -/

namespace Sys2Proof.Machine

variable {s : State} {id : Nat} {h : Half} {c : Cmd}

/-- An event is armed in a half. -/
def HalfState.arm (x : HalfState) (e : Sched) : HalfState := { x with events := x.events ++ [e] }

/-- What a FREEZE_ARM with a stroke does in a half: the event, and with MACHINE the notices and the identity seen (R52, R468). -/
def HalfState.armFreeze (p : Nat) (g : Half) (x : HalfState) : HalfState :=
  let y := x.arm { stroke := faStroke p, both := true, kind := .freeze (faArm p) }
  if (faArm p).machine then { y.floodFreeze g 4 (faStroke p) (faArm p) with freezeSeen := y.freezeSeen ++ [(faArm p).freezeId] } else y

@[simp] theorem HalfState.arm_cmds (x : HalfState) (e : Sched) : (x.arm e).cmds = x.cmds := rfl
@[simp] theorem HalfState.arm_events (x : HalfState) (e : Sched) : (x.arm e).events = x.events ++ [e] := rfl

@[simp] theorem HalfState.armFreeze_cmds (p : Nat) (g : Half) (x : HalfState) : (x.armFreeze p g).cmds = x.cmds := by
  unfold HalfState.armFreeze; split <;> simp

@[simp] theorem HalfState.armFreeze_events (p : Nat) (g : Half) (x : HalfState) :
    (x.armFreeze p g).events = x.events ++ [{ stroke := faStroke p, both := true, kind := .freeze (faArm p) }] := by
  unfold HalfState.armFreeze; split <;> simp

/-- Both halves changed, the Q half first. -/
def State.mapHalves (s : State) (f : Half → HalfState → HalfState) : State := (s.modHalf .q (f .q)).modHalf .k (f .k)

@[simp] theorem State.mapHalves_half (s : State) (f : Half → HalfState → HalfState) : ∀ g, (s.mapHalves f).half g = f g (s.half g)
  | .q => rfl
  | .k => rfl

/-- The halves do not touch each other, so the order in which they change is the same. -/
theorem State.modHalf_modHalf_other (s : State) (f : HalfState → HalfState) :
    ∀ h, (s.modHalf h f).modHalf h.other f = s.mapHalves fun _ => f
  | .q => rfl
  | .k => rfl

theorem State.cmd?_mapHalves {f : Half → HalfState → HalfState} (hf : ∀ g x, (f g x).cmds = x.cmds) (s : State) (id : Nat) :
    (s.mapHalves f).cmd? id = s.cmd? id := (State.cmd?_modHalf (hf .k) id).trans (State.cmd?_modHalf (hf .q) id)

theorem State.cmd?_arm (s : State) (h : Half) (e : Sched) (id : Nat) : (s.modHalf h (·.arm e)).cmd? id = s.cmd? id :=
  State.cmd?_modHalf (fun x => x.arm_cmds e) id

theorem State.cmd?_mapHalves_arm (s : State) (e : Sched) (id : Nat) : (s.mapHalves fun _ x => x.arm e).cmd? id = s.cmd? id :=
  State.cmd?_mapHalves (fun _ x => x.arm_cmds e) s id

/-- A command that is put back as waiting waits. -/
theorem State.awaits_setCmd {k : Cmd} (H : s.cmd? id = some (h, k)) (hid : c.id = id) (hwait : c.waiting = true) :
    (s.setCmd h c).awaits id h fun _ => True := ⟨c, State.cmd?_setCmd H hid, hwait, trivial⟩

/-- With a stroke, the event of a CONFIG_COMMIT does not depend on when it is armed, and takes a slot (R102). -/
theorem commitEvent_of_stroke (hstroke : ccStroke c.packet ≠ 0) (count : Nat) :
    commitEvent c count = {
      stroke := ccStroke c.packet, both := c.twoHalf
      kind := .commit (ccRegs c.packet) (ccMap c.packet) (pkCtx c.packet) (pkGen c.packet) c.id } := by
  simp [commitEvent, hstroke]

/-! ## The rows, while slots are free -/

theorem exec_configCommit_of_oneHalf (hrun : s.runs id h c 0x0004) (hstroke : ccStroke c.packet ≠ 0) (hone : c.twoHalf = false)
    (hfree : (s.half h).slotsUsed < 8) :
    exec (.configCommit id) s = .next ((s.modHalf h (·.arm (commitEvent c 0))).setCmd h { c with waiting := true }) := by
  show execConfigCommit id s = _
  unfold execConfigCommit
  rw [onCommand_runs hrun rfl]
  simp [hstroke, hone, Nat.not_le.2 hfree, commitEvent_of_stroke hstroke, HalfState.arm]

theorem exec_configCommit_of_twoHalf (hrun : s.runs id h c 0x0004) (hstroke : ccStroke c.packet ≠ 0) (htwo : c.twoHalf = true)
    (hfree : (s.half h).slotsUsed < 8) (hfreeOther : (s.half h.other).slotsUsed < 8) :
    exec (.configCommit id) s = .next ((s.mapHalves fun _ x => x.arm (commitEvent c 0)).setCmd h { c with waiting := true }) := by
  show execConfigCommit id s = _
  unfold execConfigCommit
  rw [onCommand_runs hrun rfl, ← State.modHalf_modHalf_other s _ h]
  simp [hstroke, htwo, Nat.not_le.2 hfree, Nat.not_le.2 hfreeOther, commitEvent_of_stroke hstroke, HalfState.arm]

theorem exec_fwActivate_of_free (hrun : s.runs id h c 0x0B02) (hq : s.q.slotsUsed < 8) (hk : s.k.slotsUsed < 8) :
    exec (.fwActivate id) s
      = .next ((s.mapHalves fun _ x => x.arm { stroke := aaStroke c.packet, both := true, kind := .activation c.id }).setCmd h
          { c with waiting := true }) := by
  show execFwActivate id s = _
  unfold execFwActivate
  rw [onCommand_runs hrun rfl, if_neg (by simp [hq, hk])]
  rfl

theorem exec_freezeArmAtStroke_of_free (hrun : s.runs id h c 0x0007) (hmode : faMode c.packet = 0) (hq : s.q.slotsUsed < 8)
    (hk : s.k.slotsUsed < 8) :
    exec (.freezeArmAtStroke id) s = .next ((s.mapHalves (HalfState.armFreeze c.packet)).finish h c (okResult 0 0 0)) := by
  show execFreezeArmAtStroke id s = _
  unfold execFreezeArmAtStroke
  rw [onCommand_runs hrun (decide_eq_true hmode), if_neg (by simp [hq, hk])]
  rfl

/-- Settles O10: each row arms its event in the halves that it concerns, and leaves the command waiting or ended. -/
theorem eventsAreArmed : Obligations.EventsAreArmed := by
  intro s id h c
  have identity {op : Nat} (hrun : s.runs id h c op) : c.id = id := State.cmd?_id hrun.1
  refine ⟨fun hrun hstroke hone hfree => ?oneHalf, fun hrun hstroke htwo hq hk => ?twoHalf, fun hrun hq hk => ?activation,
    fun hrun hmode hq hk => ?freeze⟩
  case oneHalf =>
    refine ⟨_, exec_configCommit_of_oneHalf hrun hstroke hone hfree, ?_, ?_, ?_⟩
    · exact State.awaits_setCmd ((State.cmd?_arm ..).trans hrun.1) (identity hrun) rfl
    · simp
    · simp [commitEvent_of_stroke hstroke, hone]
  case twoHalf =>
    have hfree : ∀ g, (s.half g).slotsUsed < 8 := fun | .q => hq | .k => hk
    refine ⟨_, exec_configCommit_of_twoHalf hrun hstroke htwo (hfree h) (hfree h.other), ?_, fun g => ?_⟩
    · exact State.awaits_setCmd ((State.cmd?_mapHalves_arm ..).trans hrun.1) (identity hrun) rfl
    · simp [commitEvent_of_stroke hstroke, htwo]
  case activation =>
    refine ⟨_, exec_fwActivate_of_free hrun hq hk, ?_, fun g => by simp⟩
    exact State.awaits_setCmd ((State.cmd?_mapHalves_arm ..).trans hrun.1) (identity hrun) rfl
  case freeze =>
    refine ⟨_, exec_freezeArmAtStroke_of_free hrun hmode hq hk, ?_, fun g => by simp⟩
    exact State.ended_finish ((State.cmd?_mapHalves (HalfState.armFreeze_cmds c.packet) s id).trans hrun.1) (identity hrun)

end Sys2Proof.Machine
end

section
/-! # O41: stroke time (R32, R42 to R47) -/

namespace Sys2Proof.Machine

variable {s : State} {h : Half}

/-! ## What a stroke counts leaves the Stroke counters alone -/

/-- A change of a half that keeps its counter keeps the counters of both. -/
theorem State.now_modHalf {f : HalfState → HalfState} (hf : ∀ x, (f x).count = x.count) (s : State) (g : Half) :
    (s.modHalf g f).now = s.now := funext (State.half_modHalf_keeps (π := HalfState.count) hf s g)

theorem State.now_foldl {α : Type} {f : State → α → State} (hf : ∀ t a, (f t a).now = t.now) (l : List α) (t : State) :
    (l.foldl f t).now = t.now := foldl_keeps hf l t

theorem State.commit_now (s : State) (m : Mem) : (s.commit m).now = s.now :=
  funext fun g => (congrArg HalfState.count (State.commit_half s m g)).trans rfl

theorem State.putMem_now (s : State) (ctx : Option Nat) (ws : List (Nat × List Nat)) : (s.putMem ctx ws).1.now = s.now := by
  unfold State.putMem
  split
  · exact s.commit_now _
  · exact State.now_modHalf (fun _ => by rfl) s _

theorem State.countIdle_now (s : State) (h : Half) (r : Ring) : (s.countIdle h r).now = s.now := by
  unfold State.countIdle
  split
  · refine State.now_modHalf (fun x => ?_) s h
    dsimp only
    split <;> simp
  · rfl

theorem State.countStage_now (s : State) (h : Half) (n : Nat) : (s.countStage h n).now = s.now := by
  unfold State.countStage
  dsimp only
  split
  · rfl
  · split
    · exact State.now_modHalf (fun x => x.gauge_count _ _ _ _) s h
    · rfl

theorem State.countHeld_now (s : State) (h : Half) (r : Ring) : (s.countHeld h r).now = s.now := by
  unfold State.countHeld
  split
  · split
    · rfl
    · exact State.now_foldl (fun t g => State.now_modHalf (fun _ => by rfl) t g) _ s
  · rfl

theorem State.countBusy_now (s : State) (h : Half) : (s.countBusy h).now = s.now := by
  unfold State.countBusy
  have counted (x : HalfState) (i : Nat) (p : Prop) [Decidable p] :
      (if p then (x.gauge 0x01 i 0 1).gauge 0x01 i 1 1 else x.gauge 0x01 i 0 1).count = x.count := by split <;> simp
  refine State.now_foldl (fun t i => State.now_modHalf (fun x => ?_) t h) _ s
  dsimp only
  split
  · split
    · exact (HalfState.attribute_count ..).trans (counted x i _)
    · exact counted x i _
  · exact counted x i _

theorem State.countDeep_now (s : State) (h : Half) : (s.countDeep h).now = s.now :=
  State.now_modHalf (fun x => foldl_keeps (fun y _ => y.gauge_count _ _ _ _) _ x) _ h

theorem State.countWatchdogs_now (s : State) (h : Half) : (s.countWatchdogs h).now = s.now :=
  (State.now_modHalf (fun _ => by rfl) _ h.other).trans (State.now_modHalf (fun _ => by rfl) s h)

theorem State.countBlocked_now (s : State) (h : Half) : (s.countBlocked h).now = s.now := State.now_modHalf (fun _ => by rfl) s h

theorem State.countDomains_now (s : State) (h : Half) : (s.countDomains h).now = s.now := State.now_modHalf (fun _ => by rfl) s h

theorem State.drainTrace_now (s : State) (h : Half) : (s.drainTrace h).now = s.now := by
  unfold State.drainTrace
  dsimp only
  split
  · rfl
  · split
    · exact State.now_modHalf (fun _ => by rfl) s h
    · exact (State.now_modHalf (fun _ => by rfl) _ h).trans (s.putMem_now _ _)

theorem HalfState.sendFlits_count (x : HalfState) (h : Half) : (x.sendFlits h).count = x.count :=
  foldl_keeps (π := HalfState.count) (fun y _ => y.gauge_count _ _ _ _) _ _

/-! ## The passing of a stroke -/

/-- All that a stroke counts and writes before the counter goes on. -/
def State.countStroke (s : State) (h : Half) : State :=
  let s1 := (s.half h).rings.foldl (fun t r => t.countIdle h r) s
  let s2 := ((s.half h).mgmt :: (s.half h).rings).foldl (fun t r => t.countHeld h r) ((List.range 8).foldl (fun t n => t.countStage h n) s1)
  (((((s2.countBusy h).countDeep h).countWatchdogs h).countBlocked h).countDomains h).drainTrace h

/-- Flits leave, and the counter goes on by one (R26, R42). -/
def State.nextStroke (s t : State) (h : Half) : State :=
  t.modHalf h fun y => { (if s.siphonUp then y.sendFlits h else y) with count := (y.count + 1) % 2 ^ 64, strokeSignals := [] }

theorem State.passStroke_eq (s : State) (h : Half) :
    s.passStroke h = (((s.nextStroke (s.countStroke h) h).strokeFaults h).checkParent h).ackOld h := rfl

theorem State.countStroke_now (s : State) (h : Half) : (s.countStroke h).now = s.now := by
  unfold State.countStroke
  rw [State.drainTrace_now, State.countDomains_now, State.countBlocked_now, State.countWatchdogs_now, State.countDeep_now,
    State.countBusy_now, State.now_foldl (fun t r => t.countHeld_now h r), State.now_foldl (fun t n => t.countStage_now h n),
    State.now_foldl (fun t r => t.countIdle_now h r)]

/-! ## The rows -/

theorem exec_strokeIncrement_of_unlocked (hon : (s.half h).boot ≠ .off) (hfree : s.lockstep = false) :
    exec (.strokeIncrement h) s = .next (s.passStroke h) := by
  show execStrokeIncrement h s = _
  simp [execStrokeIncrement, hon, hfree]

theorem exec_strokeIncrement_q_of_locked (hon : s.q.boot ≠ .off) (hlock : s.lockstep = true) :
    exec (.strokeIncrement .q) s = .next ((if s.k.count < s.q.count then s.passStroke .k else s).passStroke .q) := by
  show execStrokeIncrement .q s = _
  simp [execStrokeIncrement, hon, hlock]

/-- A locked copy has power (R32). -/
theorem State.k_on_of_lockstep (hlock : s.lockstep = true) : s.k.boot ≠ .off := by
  simp only [State.lockstep, Bool.and_eq_true, decide_eq_true_eq] at hlock
  exact hlock.1.1.2

theorem exec_strokeIncrement_k_of_locked (hlock : s.lockstep = true) :
    exec (.strokeIncrement .k) s = .next (if s.q.count < s.k.count then s else s.passStroke .k) := by
  show execStrokeIncrement .k s = _
  simp [execStrokeIncrement, State.k_on_of_lockstep hlock, hlock]

/-- A word is due when none was sent, or 1,024 strokes after the last (R46, R47). -/
theorem Port.wordDue_iff (v : Port) (count : Nat) :
    v.wordDue count = true ↔ v.sentAt = none ∨ ∃ n, v.sentAt = some n ∧ n + 1024 ≤ count := by
  unfold Port.wordDue
  cases v.sentAt <;> simp

theorem exec_strokeExchangeSend_of_due {port : Nat} (sub : Nat) (hup : s.timeLinkUp h port = true)
    (hdue : ((s.half h).timePort port).wordDue (s.half h).count = true) :
    exec (.strokeExchangeSend h port sub) s = .next (s.modHalf h fun y =>
      (y.setTimePort port { (s.half h).timePort port with
        sentWord := s.exchangeWord h port sub, sentAt := some (s.half h).count }).crossing .time (if port = 8 then 32 else 0)) :=
  congrArg Host.Outcome.next (if_pos (by simp [hup, hdue]))

/-- The arrival of a word, in 1/16 stroke. -/
def State.arrivalAt (s : State) (h : Half) (sub : Nat) : Nat := (16 * (s.half h).count + sub % 16) % 2 ^ 64

/-- A word that has arrived is kept with its arrival (R47). -/
def State.keepWord (s : State) (h : Half) (port sub word : Nat) : State :=
  s.modHalf h fun y => y.setTimePort port { y.timePort port with lastWord := word % 2 ^ 256, lastArrival := s.arrivalAt h sub }

/-- What a copy that is not a master does with a word: it chooses its parent again, and follows the parent's offset (R46, R47). -/
theorem exec_strokeExchangeReceive_of_follower {port : Nat} (sub word : Nat) (hup : s.timeLinkUp h port = true)
    (hrole : h = .k ∨ (s.half h).stuState h ≠ 4) :
    exec (.strokeExchangeReceive h port sub word) s
      = .next (match xwOffset (s.arrivalAt h sub) word with
        | some o =>
          let t := (s.keepWord h port sub word).refreshParent h
          if (t.half h).parentLink h = some port && (t.half h).stuState h ≠ 4 then t.followParent h port sub o else t
        | none => (s.keepWord h port sub word).refreshParent h) := by
  have hstays : (decide (h = .q) && decide ((s.half h).stuState h = 4) && xwValid word && decide (xwPos word < (s.half h).myPos h)) = false := by
    rcases hrole with rfl | hrole
    · rfl
    · simp [hrole]
  show execStrokeExchangeReceive h port sub word s = _
  simp only [execStrokeExchangeReceive, hup, hstays, Bool.not_true, Bool.false_eq_true, if_false]
  rfl

theorem exec_strokeRefEdge_of_first (sub : Nat) (hon : s.q.boot ≠ .off) (hreset : s.q.resetting = false) (hmaster : s.q.stuState .q = 4)
    (hen : bitSet (s.q.stuCfg .q) 1 = true) (hfirst : s.q.refBase = none) :
    exec (.strokeRefEdge sub) s
      = .next (s.modHalf .q fun x => { x with refBase := some (16 * s.q.count + sub % 16), refMisplaced := 0 }) := by
  show execStrokeRefEdge sub s = _
  simp [execStrokeRefEdge, hon, hreset, hmaster, hen, hfirst]

theorem exec_stuEpochOffsetWrite_of_on (v : Nat) (hon : (s.half h).boot ≠ .off) (hreset : (s.half h).resetting = false) :
    exec (.stuEpochOffsetWrite h v) s = .next (s.modHalf h fun x => x.writeEpochOffset v) :=
  congrArg Host.Outcome.next (if_neg (by simp [hon, hreset]))

@[simp] theorem HalfState.writeEpochOffset_cell (x : HalfState) (h : Half) (v : Nat) :
    (x.writeEpochOffset v).cell h (hubKey bSTU 1) = v % 2 ^ 64 := by
  have hregs : (x.writeEpochOffset v).regs = (x.setCell (hubKey bSTU 1) (v % 2 ^ 64)).regs := HalfState.traceAdd_regs ..
  rw [HalfState.cell_congr hregs, HalfState.cell_setCell_same]

@[simp] theorem HalfState.writeEpochOffset_count (x : HalfState) (v : Nat) : (x.writeEpochOffset v).count = x.count :=
  HalfState.traceAdd_count ..

/-- Settles O41, row by row. -/
theorem strokeTimeAdvances : Obligations.StrokeTimeAdvances := by
  intro s h
  refine ⟨?passes, exec_strokeIncrement_of_unlocked,
    fun hlock hon => ⟨exec_strokeIncrement_q_of_locked hon hlock, exec_strokeIncrement_k_of_locked hlock⟩,
    fun port sub hup hdue => exec_strokeExchangeSend_of_due sub hup ((Port.wordDue_iff ..).2 hdue), ?receives, ?edge, ?offset⟩
  case passes =>
    have hcount : ∀ g, ((s.countStroke h).half g).count = (s.half g).count := congrFun (s.countStroke_now h)
    refine ⟨_, s.passStroke_eq h, ?_, ?_⟩
    · simp [State.nextStroke, hcount]
    · simp [State.nextStroke, hcount]
  case receives =>
    rintro port sub word t hup hrole rfl
    rw [exec_strokeExchangeReceive_of_follower sub word hup hrole]
    refine ⟨fun hnone => ?_, fun o hoffset hparent hfollows => ?_⟩
    · rw [State.arrivalAt, hnone]; rfl
    · rw [State.arrivalAt, hoffset]
      exact congrArg Host.Outcome.next (if_pos (Bool.and_eq_true_iff.2 ⟨decide_eq_true hparent, decide_eq_true hfollows⟩))
  case edge =>
    intro sub hon hreset hmaster hen hfirst
    exact ⟨_, exec_strokeRefEdge_of_first sub hon hreset hmaster hen hfirst, rfl, rfl, rfl, rfl⟩
  case offset =>
    intro v hon hreset
    exact ⟨_, exec_stuEpochOffsetWrite_of_on v hon hreset, by simp, by simp, by simp, by simp⟩

end Sys2Proof.Machine
end

section
/-! # O42 to O44: the windows of the Cistern, its samples and the power domains (R54 to R58, R63, R64, R68, R464) -/

namespace Sys2Proof.Machine

variable {s : State} {h : Half}

/-! ## What reading and scaling the meters of commands keeps (R64) -/

section
variable {γ : Type} {π : HalfState → γ} (hπ : ∀ (x : HalfState) f, π (x.mapCmds f) = π x)
include hπ

theorem State.closeMeters_keeps (s : State) (h g : Half) : π ((s.closeMeters h).half g) = π (s.half g) :=
  (State.half_modHalf_keeps (fun x => hπ x _) _ h.other g).trans (State.half_modHalf_keeps (fun x => hπ x _) s h g)

theorem State.rescale_keeps (s : State) (h g : Half) : π ((s.rescale h).half g) = π (s.half g) :=
  (State.half_modHalf_keeps (fun x => hπ x _) _ h.other g).trans (State.half_modHalf_keeps (fun x => hπ x _) s h g)

end

@[simp] theorem State.closeMeters_mem (s : State) (h : Half) : (s.closeMeters h).mem = s.mem := by simp [State.closeMeters]

@[simp] theorem State.rescale_mem (s : State) (h : Half) : (s.rescale h).mem = s.mem := by simp [State.rescale]

/-- The raw meters of a sample are read for the commands that they name, in both halves (R64). -/
def State.readMeters (s : State) (h : Half) (meters : List (Nat × Nat)) : State :=
  meters.foldl (fun t m =>
    [Half.q, .k].foldl (fun u g => u.modHalf g fun y => y.mapCmds fun c => if c.id = m.1 then c.meter (g = h) m.2 else c) t) s

theorem State.readMeters_keeps {γ : Type} {π : HalfState → γ} (hπ : ∀ (x : HalfState) f, π (x.mapCmds f) = π x) (s : State) (h : Half)
    (meters : List (Nat × Nat)) (g : Half) : π ((s.readMeters h meters).half g) = π (s.half g) :=
  foldl_keeps (π := fun t : State => π (t.half g))
    (fun t _ => foldl_keeps (π := fun u : State => π (u.half g)) (fun u i => State.half_modHalf_keeps (fun x => hπ x _) u i g) _ t) meters s

theorem State.readMeters_mem (s : State) (h : Half) (meters : List (Nat × Nat)) : (s.readMeters h meters).mem = s.mem :=
  State.mem_foldl (fun t _ => State.mem_foldl (fun u g => u.modHalf_mem g _) _ t) meters s

/-! ## The start of a window -/

/-- Only the rings of the halves matter to the heads held for energy. -/
theorem State.heldHeads_congr {s t : State} (hmgmt : ∀ g, (t.half g).mgmt = (s.half g).mgmt) (hrings : ∀ g, (t.half g).rings = (s.half g).rings)
    (h : Half) : t.heldHeads h = s.heldHeads h := by
  simp [State.heldHeads, hmgmt, hrings]

/-- The ledger of a half at the start of a window: fields of the CSC take effect, the derating follows the junction, nothing is drawn
(R54, R56, R104). -/
def HalfState.openWindow (x : HalfState) (hottest : Nat) : HalfState :=
  { x.applyCsc with
    tjMax := hottest, derate := deratePct hottest, drawn := 0, windowStarts := x.windowStarts + 1
    windowBegun := some (x.count / 100000), windowSamples := 0, windowRaw := 0 }

/-- The held heads with work in a half are put first (R63 rule 1). -/
def State.heldFirst (s : State) (h : Half) : State := s.modHalf h fun x => { x with windowFirst := s.heldHeads h }

/-- The half after the start of a window, before any held command is looked at. -/
def State.openWindow (s : State) (h : Half) (hottest : Nat) : State :=
  ((s.closeMeters h).modHalf h fun x => x.openWindow hottest).heldFirst h

theorem exec_windowStart_of_midWindow (hottest : Nat) (hmid : (s.half h).count % 100000 ≠ 0) : exec (.windowStart h hottest) s = .next s :=
  congrArg Host.Outcome.next (if_pos (by simp [hmid]))

theorem exec_windowStart_of_first {hottest : Nat} (hbyte : hottest < 256) (hon : (s.half h).boot ≠ .off) (hstart : (s.half h).count % 100000 = 0)
    (hnew : (s.half h).windowBegun ≠ some ((s.half h).count / 100000)) :
    exec (.windowStart h hottest) s
      = .next (let t := s.openWindow h hottest
        if (t.half h).mayAdmit then (t.admitHeld h (t.half h).windowFirst).1 else t) := by
  have hcount : ((s.closeMeters h).half h).count = (s.half h).count := State.closeMeters_keeps (π := HalfState.count) (fun _ _ => rfl) s h h
  have hopen : s.openWindow h hottest = ((s.closeMeters h).setHalf h
      { ((s.closeMeters h).half h).openWindow (hottest % 256) with windowBegun := some ((s.half h).count / 100000) }).heldFirst h := by
    rw [← hcount, Nat.mod_eq_of_lt hbyte]; rfl
  rw [hopen]
  exact congrArg Host.Outcome.next (if_neg (by simp [hon, hstart, hnew]))

theorem State.openWindow_half (s : State) (h : Half) (hottest : Nat) :
    (s.openWindow h hottest).half h = { ((s.closeMeters h).half h).openWindow hottest with
      windowFirst := ((s.closeMeters h).modHalf h fun x => x.openWindow hottest).heldHeads h } := by
  simp [State.openWindow, State.heldFirst]

theorem State.windowFirst_heldFirst (s : State) (h : Half) : ((s.heldFirst h).half h).windowFirst = (s.heldFirst h).heldHeads h := by
  have same : (s.heldFirst h).heldHeads h = s.heldHeads h :=
    State.heldHeads_congr (State.half_modHalf_keeps (π := HalfState.mgmt) (fun _ => by rfl) s h)
      (State.half_modHalf_keeps (π := HalfState.rings) (fun _ => by rfl) s h) h
  rw [same]
  simp [State.heldFirst]

/-- Up to 95 °C nothing is taken off (R56). -/
theorem deratePct_of_cool {tj : Nat} (hcool : tj ≤ 95) : deratePct tj = 100 := if_pos hcool

/-- Beyond 95 °C, 2.5 per cent come off for each degree (R56). -/
theorem deratePct_of_hot {tj : Nat} (hhot : 95 < tj) (htop : tj ≤ 135) : deratePct tj + 5 * (tj - 95) / 2 = 100 := by
  rw [deratePct, if_neg (by omega)]; omega

/-- Settles O42. -/
theorem windowStartDerates : Obligations.WindowStartDerates := by
  intro s h hottest hon hbyte
  refine ⟨exec_windowStart_of_midWindow hottest, fun hstart hnew => ?_⟩
  have kept {γ : Type} {π : HalfState → γ} (hπ : ∀ x f, π (x.mapCmds f) = π x) : π ((s.closeMeters h).half h) = π (s.half h) :=
    State.closeMeters_keeps hπ s h h
  refine ⟨s.openWindow h hottest, exec_windowStart_of_first hbyte hon hstart hnew, ?_, State.windowFirst_heldFirst _ h, ?_⟩
  · rw [State.openWindow_half]
    exact congrArg (fun n => some (n / 100000)) (kept (π := HalfState.count) fun _ _ => rfl)
  · rw [State.openWindow_half]
    exact ⟨rfl, deratePct_of_cool, deratePct_of_hot, kept (π := HalfState.level) fun _ _ => rfl,
      kept (π := HalfState.debt) fun _ _ => rfl, rfl, by simp [State.openWindow, State.heldFirst]⟩

/-! ## The end of a window -/

/-- The derated cap in femtojoules is a whole number wherever it is written as a fraction (R58). -/
theorem HalfState.derated_cap {x : HalfState} {cap : Nat} (hcap : 100 * cap = x.capMj h * 10 ^ 12 * x.derate) :
    x.capMj h * mj * x.derate / 100 = cap := by
  rw [mj, ← hcap, Nat.mul_div_cancel_left cap (by decide)]

/-- The ledger after a window, by the derated cap (R58). -/
theorem HalfState.closeWindow_eq {x : HalfState} {cap : Nat} (hcap : 100 * cap = x.capMj h * 10 ^ 12 * x.derate) :
    x.closeWindow h
      = if x.drawn ≤ cap then { x with level := min (x.level + (cap - x.drawn)) (x.depthMj h * mj), debt := 0 }
        else { x with debt := x.drawn - cap - x.level, level := x.level - (x.drawn - cap) } := by
  rw [HalfState.closeWindow, HalfState.derated_cap hcap]

theorem exec_windowEnd_of_last (hon : (s.half h).boot ≠ .off) (hlast : (s.half h).count % 100000 = 99999)
    (hnew : (s.half h).windowEnded ≠ some ((s.half h).count / 100000)) :
    exec (.windowEnd h) s
      = .next (s.setHalf h { (s.half h).closeWindow h with windowEnded := some ((s.half h).count / 100000) }) :=
  congrArg (fun x => Host.Outcome.next (s.setHalf h x)) (if_neg (by simp [hon, hlast, hnew]))

/-- Settles O43. -/
theorem windowEndUpdatesTheLedger : Obligations.WindowEndUpdatesTheLedger := by
  intro s h cap hcap hon hlast hnew
  refine ⟨_, exec_windowEnd_of_last hon hlast hnew, by simp, by simp, fun hwithin => ?_, fun hbeyond => ?_⟩
  · simp [HalfState.closeWindow_eq hcap, hwithin, mj]
  · simp [HalfState.closeWindow_eq hcap, hbeyond.not_ge]

/-! ## Samples, domains, and the gap record -/

/-- The ledger of a half after a sample: the product of voltage and current over 1,000 strokes is drawn (R54). -/
def HalfState.takeSample (x : HalfState) (mv ma : Nat) (meters : List (Nat × Nat)) : HalfState :=
  { x with
    drawn := x.drawn + mv * ma * 10 ^ 4, millivolts := mv, milliamps := ma, sampleSlot := some (x.count / 1000)
    windowSamples := x.windowSamples + 1, windowRaw := x.windowRaw + total (meters.map (·.2)) }

/-- A sample in a half: its ledger, then the meters of the commands, scaled over the window (R54, R64). -/
def State.takeSample (s : State) (h : Half) (mv ma : Nat) (meters : List (Nat × Nat)) : State :=
  ((s.modHalf h fun x => x.takeSample mv ma meters).readMeters h meters).rescale h

theorem exec_cscSample_of_new (mv ma : Nat) (meters : List (Nat × Nat)) (hon : (s.half h).boot ≠ .off)
    (hnew : (s.half h).sampleSlot ≠ some ((s.half h).count / 1000)) :
    exec (.cscSample h mv ma meters) s = .next (s.takeSample h mv ma meters) :=
  congrArg Host.Outcome.next (if_neg (by simp [hon, hnew]))

/-- Whatever no meter of a command touches is, after a sample, what the ledger of the half makes of it. -/
theorem State.takeSample_keeps {γ : Type} {π : HalfState → γ} (hπ : ∀ (x : HalfState) f, π (x.mapCmds f) = π x) (s : State) (h : Half)
    (mv ma : Nat) (meters : List (Nat × Nat)) (g : Half) :
    π ((s.takeSample h mv ma meters).half g) = π ((s.modHalf h fun x => x.takeSample mv ma meters).half g) :=
  (State.rescale_keeps hπ _ h g).trans (State.readMeters_keeps hπ _ h meters g)

@[simp] theorem State.takeSample_mem (s : State) (h : Half) (mv ma : Nat) (meters : List (Nat × Nat)) :
    (s.takeSample h mv ma meters).mem = s.mem := by
  rw [State.takeSample, State.rescale_mem, State.readMeters_mem, State.modHalf_mem]

theorem exec_idleGating_of_idle {d : Nat} (hready : (s.half h).boot = .ready) (hgates : idleGated d = true)
    (hen : (s.half h).idleStrokes h ≠ 0) (hidle : (s.half h).idleStrokes h ≤ (s.half h).domainIdle.at d)
    (hunused : s.domainUsed h d = false) (hawake : d ∉ (s.half h).gated) (hup : d ∉ (s.half h).waking) :
    exec (.idleGating h d) s = .next (s.modHalf h fun x => { x with gated := x.gated ++ [d] }) :=
  congrArg Host.Outcome.next (if_pos (by simp [hready, hgates, hen, hidle, hunused, hawake, hup]))

theorem exec_domainWake (s : State) (h : Half) (d : Nat) :
    exec (.domainWake h d) s
      = .next (s.modHalf h fun x => { x with waking := x.waking.filter (· ≠ d), domainIdle := x.domainIdle.set d 0 }) := rfl

theorem exec_traceGap_of_space (hgap : (s.half h).trace.gap ≠ 0) (hspace : (s.half h).trace.queue.length < 4096) :
    exec (.traceGap h) s
      = .next (s.setHalf h (({ s.half h with trace := { (s.half h).trace with gap := 0 } } : HalfState).traceEvent 8 0 0
          (s.half h).trace.gap)) :=
  congrArg (fun x => Host.Outcome.next (s.setHalf h x)) (if_neg (by simp [hgap, hspace]))

/-- Settles O44. -/
theorem energyAndDomainsComplete : Obligations.EnergyAndDomainsComplete := by
  intro s h
  refine ⟨fun mv ma meters hon hnew => ?sample, fun d hready hgates hen hidle hunused hawake hup => ?gating, fun d => ?wake,
    fun hgap hspace => ?gap⟩
  case sample =>
    have home {γ : Type} {π : HalfState → γ} (hπ : ∀ x f, π (x.mapCmds f) = π x) :
        π ((s.takeSample h mv ma meters).half h) = π ((s.half h).takeSample mv ma meters) :=
      (State.takeSample_keeps hπ s h mv ma meters h).trans (congrArg π (State.modHalf_half ..))
    have away : ((s.takeSample h mv ma meters).half h.other).drawn = (s.half h.other).drawn :=
      (State.takeSample_keeps (π := HalfState.drawn) (fun _ _ => rfl) s h mv ma meters h.other).trans
        (congrArg HalfState.drawn (State.modHalf_other ..))
    exact ⟨_, exec_cscSample_of_new mv ma meters hon hnew, home (π := HalfState.drawn) fun _ _ => rfl,
      home (π := HalfState.millivolts) fun _ _ => rfl, home (π := HalfState.milliamps) fun _ _ => rfl, away,
      home (π := HalfState.regs) fun _ _ => rfl, State.takeSample_mem ..⟩
  case gating => exact ⟨_, exec_idleGating_of_idle hready hgates hen hidle hunused hawake hup, by simp, by simp, by simp, by simp⟩
  case wake =>
    refine ⟨_, exec_domainWake s h d, by simp, by simp, fun e hne => ?_, by simp, by simp⟩
    simp [hne]
  case gap => exact ⟨_, exec_traceGap_of_space hgap hspace, by simp, by simp, by simp⟩

end Sys2Proof.Machine
end

section
/-! # O47: scheduled events that fire (R50, R52, R387, R467) -/

namespace Sys2Proof.Machine

variable {s : State} {h : Half}

theorem exec_configCommitFire_of_due {e : Sched} {regs map : Bool} {ctx gen id : Nat} (hreset : (s.half h).resetting = false)
    (hfreeze : (s.half h).freezeDue = false) (hroute : (s.half h).routeDue = false) (hdue : (s.half h).dueCommit = some e)
    (hkind : e.kind = .commit regs map ctx gen id) :
    exec (.configCommitFire h) s
      = .next ((s.modHalf h fun y => { y with events := y.events.erase e }).commitHalf h regs map ctx) := by
  show execConfigCommitFire h s = _
  simp [execConfigCommitFire, hreset, hfreeze, hroute, hdue, hkind]

theorem exec_freeze_of_due {a : FreezeArm} {y : HalfState} (hreset : (s.half h).resetting = false)
    (hdue : (s.half h).dueFreeze = some (a, y)) : exec (.freeze h) s = .next (s.setHalf h (y.fireFreeze h a false)) := by
  show execFreeze h s = _
  simp [execFreeze, State.modHalf, hreset, hdue]

/-- The set that a freeze latches (R467). -/
def HalfState.snapshot (x : HalfState) (h : Half) (a : FreezeArm) (late : Bool) : Frozen :=
  { freezeId := a.freezeId, stroke := x.count, late := late, gauges := x.gauges, attr := x.attr, stale := x.stale, offset := x.epochOffset h }

/-- A half that holds no frozen set latches one when a freeze fires; the trace of it, and its stop, leave the set alone (R467). -/
theorem HalfState.fireFreeze_frozen {x : HalfState} (hnone : x.frozen = none) (h : Half) (a : FreezeArm) (late : Bool) :
    (x.fireFreeze h a late).frozen = some (x.snapshot h a late) := by
  unfold HalfState.fireFreeze
  simp only [hnone, Option.isSome_none, Bool.false_and, Bool.false_eq_true, if_false]
  split
  · rw [HalfState.traceEvent_eq]; rfl
  · rw [HalfState.traceEvent_eq]; rfl

/-- The route commits of a stroke take effect, and what they make unreachable is answered and ends (R387, R388). -/
def State.commitRoutesAt (s : State) (h : Half) (stroke : Nat) : State :=
  let r := (s.half h).commitRoutes h stroke
  let t := r.2.foldl (fun v u => v.relayNack h u (nackCode (engineResult h srcUnreachable))) (s.setHalf h r.1)
  t.failAll h srcUnreachable (r.2.filterMap (·.cmd)).eraseDups

theorem exec_routeCommit_of_due {n : Nat} (hreset : (s.half h).resetting = false)
    (hfirst : least ((s.half h).routePending.map (·.stroke)) = some n) (hdue : n ≤ (s.half h).count)
    (hfreeze : (s.half h).freezeDue = false) :
    exec (.routeCommit h) s
      = .next (let u := s.commitRoutesAt h n
        (u.failAll h srcInterrupted (u.runningCollectives h)).stopProxies h) := by
  show execRouteCommit h s = _
  simp only [execRouteCommit, hfirst]
  exact congrArg Host.Outcome.next (if_neg (by simp [hreset, hdue, hfreeze]))

/-- Settles O47: commit, freeze and route commit, each when it is due. -/
theorem scheduledEventsFire : Obligations.ScheduledEventsFire := by
  intro s h hreset
  refine ⟨fun e regs map ctx gen id hfreeze hroute hdue hkind => exec_configCommitFire_of_due hreset hfreeze hroute hdue hkind,
    fun a y hdue hnone => ?freeze, fun n r t u hfirst hdue hfreeze => ?route⟩
  case freeze =>
    refine ⟨_, y.snapshot h a false, exec_freeze_of_due hreset hdue, ?_, rfl, rfl, rfl, rfl, by simp, by simp⟩
    rw [State.setHalf_half, HalfState.fireFreeze_frozen hnone]
  case route =>
    rintro rfl rfl rfl
    exact exec_routeCommit_of_due hreset hfirst hdue hfreeze

end Sys2Proof.Machine
end

section
/-! # Rules that the command packets share: a change of several halves, and what finishing and tracing leave alone -/

namespace Sys2Proof.Machine

variable {s : State} {id : Nat} {h g : Half} {c : Cmd}

/-! ## Folds over halves -/

theorem Half.eq_other_of_ne : ∀ {g h : Half}, g ≠ h → g = h.other
  | .q, .q, hne | .k, .k, hne => absurd rfl hne
  | .q, .k, _ | .k, .q, _ => rfl

/-- What is done once in each of some halves, and in each concerns that half alone, has been done in those halves and in no other. -/
theorem State.foldl_half {step : State → Half → State} {φ : Half → HalfState → HalfState}
    (hhere : ∀ t g, (step t g).half g = φ g (t.half g)) (hother : ∀ t g, (step t g).half g.other = t.half g.other) {gs : List Half}
    (hgs : gs.Nodup) (s : State) (g : Half) : (gs.foldl step s).half g = if g ∈ gs then φ g (s.half g) else s.half g := by
  induction gs generalizing s with
  | nil => simp
  | cons a gs ih =>
    obtain ⟨ha, hgs⟩ := List.nodup_cons.1 hgs
    rw [List.foldl_cons, ih hgs]
    by_cases hg : g = a
    · subst hg; simp [ha, hhere]
    · have hstep : (step s a).half g = s.half g := by rw [Half.eq_other_of_ne hg]; exact hother s a
      simp [hg, hstep]

/-- The module with each of some halves changed. -/
def State.onHalves (s : State) (gs : List Half) (f : Half → HalfState → HalfState) : State :=
  gs.foldl (fun t g => t.modHalf g (f g)) s

theorem State.onHalves_half {gs : List Half} (hgs : gs.Nodup) (s : State) (f : Half → HalfState → HalfState) (g : Half) :
    (s.onHalves gs f).half g = if g ∈ gs then f g (s.half g) else s.half g :=
  State.foldl_half (φ := f) (fun t a => t.modHalf_half a (f a)) (fun t a => t.modHalf_other a (f a)) hgs s g

@[simp] theorem State.onHalves_mem (s : State) (gs : List Half) (f : Half → HalfState → HalfState) : (s.onHalves gs f).mem = s.mem :=
  State.mem_foldl (fun t a => t.modHalf_mem a _) gs s

@[simp] theorem State.onHalves_switch (s : State) (gs : List Half) (f : Half → HalfState → HalfState) :
    (s.onHalves gs f).switch = s.switch := foldl_keeps (fun t a => t.modHalf_switch a _) gs s

theorem State.cmd?_onHalves {f : Half → HalfState → HalfState} (hf : ∀ g x, (f g x).cmds = x.cmds) (s : State) (gs : List Half)
    (id : Nat) : (s.onHalves gs f).cmd? id = s.cmd? id := State.cmd?_foldl id (fun _ a => State.cmd?_modHalf (hf a) id) gs s

theorem footprintHalves_nodup (n : Nat) : (footprintHalves n).Nodup := List.Nodup.filter _ (by decide)

@[simp] theorem mem_footprintHalves {n : Nat} : g ∈ footprintHalves n ↔ inFootprint n g = true := by
  cases g <;> simp [footprintHalves]

/-- The halves in which a command of a half acts: both, or its own. -/
def actingHalves (h : Half) (two : Bool) : List Half := if two then [h, h.other] else [h]

theorem actingHalves_nodup : ∀ (h : Half) (two : Bool), (actingHalves h two).Nodup
  | .q, true | .q, false | .k, true | .k, false => by decide

theorem mem_actingHalves {two : Bool} : g ∈ actingHalves h two ↔ g = h ∨ two = true := by
  cases two with
  | true => cases g <;> cases h <;> decide
  | false => simp [actingHalves]

/-! ## What is no part of a half -/

theorem State.half_withSwitch (s : State) (w : Option Switch) (g : Half) : ({ s with switch := w } : State).half g = s.half g := by
  cases g <;> rfl

theorem State.half_withMem (s : State) (m : Mem) (n : Nat) (g : Half) :
    ({ s with mem := m, drawnFree := n } : State).half g = s.half g := by cases g <;> rfl

/-! ## What an operation on commands leaves of a half -/

/-- Whatever of a half is not its list of commands is kept when a command is replaced. -/
theorem State.setCmd_keeps {γ : Type} {π : HalfState → γ} (hπ : ∀ (x : HalfState) l, π { x with cmds := l } = π x) (s : State) (h : Half)
    (c : Cmd) (g : Half) : π ((s.setCmd h c).half g) = π (s.half g) := State.half_modHalf_keeps (fun x => hπ x _) s h g

/-- Whatever of a half is not its list of commands is kept when a command finishes. -/
theorem State.finish_keeps {γ : Type} {π : HalfState → γ} (hπ : ∀ (x : HalfState) l, π { x with cmds := l } = π x) (s : State) (h : Half)
    (c : Cmd) (r : Result) (g : Half) : π ((s.finish h c r).half g) = π (s.half g) := State.setCmd_keeps hπ s h _ g

@[simp] theorem State.finish_ctx (s : State) (h : Half) (c : Cmd) (r : Result) (g : Half) (i : Nat) :
    ((s.finish h c r).half g).ctx i = (s.half g).ctx i := State.finish_keeps (π := (·.ctx i)) (fun _ _ => rfl) s h c r g

@[simp] theorem State.finish_gen (s : State) (h : Half) (c : Cmd) (r : Result) (g : Half) (i : Nat) :
    ((s.finish h c r).half g).gen i = (s.half g).gen i := State.finish_keeps (π := (·.gen i)) (fun _ _ => rfl) s h c r g

@[simp] theorem State.finish_rings (s : State) (h : Half) (c : Cmd) (r : Result) (g : Half) :
    ((s.finish h c r).half g).rings = (s.half g).rings := State.finish_keeps (π := HalfState.rings) (fun _ _ => rfl) s h c r g

@[simp] theorem State.finish_regs (s : State) (h : Half) (c : Cmd) (r : Result) (g : Half) :
    ((s.finish h c r).half g).regs = (s.half g).regs := State.finish_keeps (π := HalfState.regs) (fun _ _ => rfl) s h c r g

theorem State.gate_finish (s : State) (h : Half) (c : Cmd) (r : Result) (i f : Nat) : (s.finish h c r).gate i f = s.gate i f := by
  simp [State.gate]

/-- A command in execution that finishes, after changes that leave the commands where they are, has ended with its result. -/
theorem State.ended_of_runs {t : State} {op : Nat} (hrun : s.runs id h c op) (ht : t.cmd? id = s.cmd? id) (r : Result) :
    (t.finish h c r).ended id h r := State.ended_finish (ht.trans hrun.1) (State.cmd?_id hrun.1)

end Sys2Proof.Machine
end

section
/-! # O13: contexts come into being (R88, R94) -/

namespace Sys2Proof.Machine

variable {s : State} {id : Nat} {h : Half} {c : Cmd}

/-- What a CTX_DEFINE makes of a half of its footprint (R94). -/
def HalfState.defineCtx (x : HalfState) (p : Nat) : HalfState :=
  { x.setCtx (ctxOfPacket p) with gens := x.gens.set (pkCtx p) (cdGen p) }

/-- Every half of the footprint holds the context (R94). -/
def State.defineCtx (s : State) (p : Nat) : State := s.onHalves (footprintHalves (cdFootprint p)) fun _ x => x.defineCtx p

@[simp] theorem HalfState.defineCtx_cmds (x : HalfState) (p : Nat) : (x.defineCtx p).cmds = x.cmds := x.setCtx_cmds (ctxOfPacket p)

theorem HalfState.defineCtx_ctx (x : HalfState) (p i : Nat) : (x.defineCtx p).ctx i = if i = pkCtx p then ctxOfPacket p else x.ctx i :=
  x.ctx_setCtx (ctxOfPacket p) i

theorem HalfState.defineCtx_gen (x : HalfState) (p i : Nat) : (x.defineCtx p).gen i = if i = pkCtx p then cdGen p else x.gen i :=
  Table.at_set x.gens (pkCtx p) (cdGen p) i

theorem State.defineCtx_half (s : State) (p : Nat) (g : Half) :
    (s.defineCtx p).half g = if inFootprint (cdFootprint p) g = true then (s.half g).defineCtx p else s.half g := by
  simp only [State.defineCtx, State.onHalves_half (footprintHalves_nodup _), mem_footprintHalves]

theorem State.cmd?_defineCtx (s : State) (p id : Nat) : (s.defineCtx p).cmd? id = s.cmd? id :=
  State.cmd?_onHalves (fun _ x => x.defineCtx_cmds p) s _ id

theorem exec_ctxDefine_of_runs (hrun : s.runs id h c 0x0101) :
    exec (.ctxDefine id) s = .next ((s.defineCtx c.packet).finish h c (okResult Config.protocolVersion 0 0)) :=
  congrArg Host.Outcome.next (onCommand_runs hrun rfl)

/-- Settles O13: what a half of the footprint makes of the definition, and that no other half changes. -/
theorem contextDefineCompletes : Obligations.ContextDefineCompletes := by
  intro s id h c hrun
  refine ⟨_, exec_ctxDefine_of_runs hrun, State.ended_of_runs hrun (s.cmd?_defineCtx c.packet id) _, by simp [State.defineCtx],
    fun g hin => ?_, fun g i hout => ?_⟩
  · simp [State.defineCtx_half, hin, HalfState.defineCtx_ctx, HalfState.defineCtx_gen]
  · rw [State.finish_ctx, State.finish_gen, State.defineCtx_half]
    rcases hout with hout | hne
    · simp [hout]
    · split
      · simp [HalfState.defineCtx_ctx, HalfState.defineCtx_gen, hne]
      · exact ⟨rfl, rfl⟩

end Sys2Proof.Machine
end

section
/-! # O16: rings and map entries (R81, R102, R515) -/

namespace Sys2Proof.Machine

variable {s : State} {id : Nat} {h : Half} {c : Cmd}

/-- A ring joins the rings of a half. -/
def HalfState.addRing (x : HalfState) (r : Ring) : HalfState := { x with rings := x.rings ++ [r] }

/-- A half without a ring of a context. -/
def HalfState.deleteRing (x : HalfState) (ctx num : Nat) : HalfState :=
  { x with rings := x.rings.filter fun r => !(r.ctx = some ctx && r.num = num) }

/-- The map shadow set of a context in a half takes the entries of a MAP_WRITE (R515). -/
def HalfState.writeMap (x : HalfState) (p : Nat) : HalfState := x.modCtx (pkCtx p) fun k => { k with shadow := mwApply p k.shadow }

@[simp] theorem HalfState.addRing_cmds (x : HalfState) (r : Ring) : (x.addRing r).cmds = x.cmds := rfl
@[simp] theorem HalfState.deleteRing_cmds (x : HalfState) (ctx num : Nat) : (x.deleteRing ctx num).cmds = x.cmds := rfl
@[simp] theorem HalfState.writeMap_cmds (x : HalfState) (p : Nat) : (x.writeMap p).cmds = x.cmds := x.modCtx_cmds _ _
@[simp] theorem HalfState.addRing_rings (x : HalfState) (r : Ring) : (x.addRing r).rings = x.rings ++ [r] := rfl

@[simp] theorem HalfState.mem_deleteRing_rings {x : HalfState} {ctx num : Nat} {r : Ring} :
    r ∈ (x.deleteRing ctx num).rings ↔ r ∈ x.rings ∧ ¬ (r.ctx = some ctx ∧ r.num = num) := by
  simp [HalfState.deleteRing, Classical.or_iff_not_imp_left]

theorem HalfState.writeMap_ctx (x : HalfState) (p i : Nat) :
    (x.writeMap p).ctx i = if i = pkCtx p then { x.ctx i with shadow := mwApply p (x.ctx i).shadow } else x.ctx i := by
  unfold HalfState.writeMap
  rw [HalfState.ctx_modCtx (f := fun k => { k with shadow := mwApply p k.shadow }) (fun _ => rfl)]
  split
  · subst_vars; rfl
  · rfl

/-- A MAP_WRITE of a context in every half of its footprint (R515). -/
def State.writeMap (s : State) (h : Half) (p : Nat) : State :=
  s.onHalves (footprintHalves (s.ctxAny h (pkCtx p)).footprint) fun _ x => x.writeMap p

theorem State.writeMap_half (s : State) (h : Half) (p : Nat) (g : Half) :
    (s.writeMap h p).half g
      = if inFootprint (s.ctxAny h (pkCtx p)).footprint g = true then (s.half g).writeMap p else s.half g := by
  simp only [State.writeMap, State.onHalves_half (footprintHalves_nodup _), mem_footprintHalves]

theorem exec_ringDefine_of_runs (hrun : s.runs id h c 0x0105) :
    exec (.ringDefine id) s
      = .next ((s.modHalf (rdHome c.packet) (·.addRing (ringOfPacket c.packet))).finish h c (okResult 0 0 0)) :=
  congrArg Host.Outcome.next (onCommand_runs hrun rfl)

theorem exec_ringDelete_of_runs (hrun : s.runs id h c 0x0106) :
    exec (.ringDelete id) s
      = .next ((s.mapHalves fun _ x => x.deleteRing (pkCtx c.packet) (pl c.packet 0 5)).finish h c (okResult 0 0 0)) :=
  congrArg Host.Outcome.next (onCommand_runs hrun rfl)

/-- Without a commit of the stroke a MAP_WRITE does not wait (R103). -/
theorem exec_mapWrite_of_runs (hrun : s.runs id h c 0x0107) (hdue : s.commitDue = false) :
    exec (.mapWrite id) s = .next ((s.writeMap h c.packet).finish h c (okResult 0 0 0)) := by
  show execMapWrite id s = _
  unfold execMapWrite
  rw [onCommand_runs hrun rfl]
  exact congrArg Host.Outcome.next (if_neg (by simpa [State.commitDue] using hdue))

/-- Settles O16, row by row. -/
theorem ringsComeAndGo : Obligations.RingsComeAndGo := by
  intro s id h c
  refine ⟨fun hrun => ?define, fun hrun => ?delete, fun hrun hdue => ?map⟩
  case define =>
    exact ⟨_, exec_ringDefine_of_runs hrun, State.ended_of_runs hrun (State.cmd?_modHalf (fun x => x.addRing_cmds _) id) _,
      by simp, by simp, by simp, rfl, rfl⟩
  case delete =>
    exact ⟨_, exec_ringDelete_of_runs hrun, State.ended_of_runs hrun (State.cmd?_mapHalves (fun _ x => x.deleteRing_cmds _ _) s id) _,
      by simp [State.mapHalves], fun g r => by simp⟩
  case map =>
    refine ⟨_, exec_mapWrite_of_runs hrun hdue, State.ended_of_runs hrun (State.cmd?_onHalves (fun _ x => x.writeMap_cmds _) s _ id) _,
      by simp [State.writeMap], fun g hin => ?_, fun g i => ?_⟩
    · simp [State.writeMap_half, hin, HalfState.writeMap_ctx]
    · rw [State.finish_ctx, State.writeMap_half]
      split
      · rw [HalfState.writeMap_ctx]; split <;> rfl
      · rfl

end Sys2Proof.Machine
end

section
/-! # O7 to O9: control commands and gates (R75 to R78, R89 to R91, R102, R103) -/

namespace Sys2Proof.Machine

variable {s : State} {id : Nat} {h : Half} {c : Cmd}

/-! ## NOP, QUERY_GEOMETRY and register access -/

theorem exec_nop_of_runs (hrun : s.runs id h c 0x0000) : exec (.nop id) s = .next (s.finish h c (okResult 0 0 0)) :=
  congrArg Host.Outcome.next (onCommand_runs hrun rfl)

theorem exec_queryGeometry_of_runs (hrun : s.runs id h c 0x0001) :
    exec (.queryGeometry id) s = .next (s.finish h c { okResult 0 0 0 with payload := some (bytesOf 64 Config.geometry) }) :=
  congrArg Host.Outcome.next (onCommand_runs hrun rfl)

/-- The entries of a REG_READ, read in list order (R78). -/
def State.readEntries (s : State) (h : Half) (p : Nat) : State × List Nat :=
  ((List.range (reCount p)).map (reAddr p)).foldl regEntry (s.crossRegs h p, [])

/-- The entries of a REG_WRITE, written in list order (R78). -/
def State.writeEntries (s : State) (h : Half) (p : Nat) : State :=
  (List.range (reCount p)).foldl (fun u i =>
    if reAddr p i = 0 then u else
    u.modHalf (reHalf (reAddr p i)) fun x => x.writeReg (reHalf (reAddr p i)) (reKey (reAddr p i)) (reValue p i)) (s.crossRegs h p)

theorem exec_regRead_of_reaches (hrun : s.runs id h c 0x0002) (hreach : s.reaches h c.packet = true) :
    exec (.regRead id) s = .next ((s.readEntries h c.packet).1.finish h c
      { okResult 0 0 0 with payload := some (s.readEntries h c.packet).2 }) := by
  show execRegRead id s = _
  unfold execRegRead
  rw [onCommand_runs hrun rfl]
  exact congrArg Host.Outcome.next (if_neg (by simp [hreach]))

theorem exec_regWrite_of_reaches (hrun : s.runs id h c 0x0003) (hreach : s.reaches h c.packet = true) (hdue : s.commitDue = false) :
    exec (.regWrite id) s = .next (((s.writeEntries h c.packet).ibiAfter s).finish h c (okResult 0 0 0)) := by
  show execRegWrite id s = _
  unfold execRegWrite
  rw [onCommand_runs hrun rfl]
  exact congrArg Host.Outcome.next (if_neg (by simp [hreach, hdue]))

/-! ## CONFIG_COMMIT at the next stroke boundary (R102) -/

theorem exec_configCommit_of_nextStroke (hrun : s.runs id h c 0x0004) (hstroke : ccStroke c.packet = 0) :
    exec (.configCommit id) s
      = .next ((s.onHalves (actingHalves h c.twoHalf) fun _ x => x.arm (commitEvent c x.count)).setCmd h { c with waiting := true }) := by
  show execConfigCommit id s = _
  unfold execConfigCommit
  rw [onCommand_runs hrun rfl]
  exact congrArg Host.Outcome.next (if_neg (by simp [hstroke]))

/-- Settles O7, row by row. -/
theorem controlCommandsComplete : Obligations.ControlCommandsComplete := by
  intro s id h c
  refine ⟨exec_nop_of_runs, exec_queryGeometry_of_runs,
    fun hrun hreach => ⟨_, _, rfl, exec_regRead_of_reaches hrun hreach⟩,
    fun hrun hreach hdue => ⟨_, rfl, exec_regWrite_of_reaches hrun hreach hdue⟩, fun hrun hstroke => ?_⟩
  refine ⟨_, exec_configCommit_of_nextStroke hrun hstroke, ?_, by simp, fun hone => ?_, fun g hg => ?_⟩
  · exact State.awaits_setCmd ((State.cmd?_onHalves (fun _ x => x.arm_cmds _) s _ id).trans hrun.1)
      (State.cmd?_id hrun.1 : c.id = id) rfl
  · rw [State.setCmd_events, State.onHalves_half (actingHalves_nodup h _), if_neg (by simp [mem_actingHalves, hone])]
  · rw [State.setCmd_events, State.onHalves_half (actingHalves_nodup h _), if_pos (mem_actingHalves.2 hg)]
    simp [commitEvent, hstroke]

/-! ## GATE_SET (R91) -/

theorem exec_gateSet_of_scoped {i : Nat} (hrun : s.runs id h c 0x0005) (hctx : c.ctx = some i) :
    exec (.gateSet id) s
      = .next ((s.setGate i (gsGate c.packet) (gsValue c.packet + s.signalledNow i (gsGate c.packet))).finish h c (okResult 0 0 0)) := by
  show execGateSet id s = _
  unfold execGateSet
  rw [onCommand_runs hrun rfl, hctx]

/-- A gate written changes the contexts of its half alone. -/
theorem State.setGate_keeps {γ : Type} {π : HalfState → γ} (hπ : ∀ (x : HalfState) l, π { x with ctxs := l } = π x) (s : State)
    (i f v : Nat) (g : Half) : π ((s.setGate i f v).half g) = π (s.half g) := State.half_modHalf_keeps (fun x => hπ x _) s _ g

/-- Settles O8: the value, and what the gate has been signalled in the stroke, are written to the gate and to no other. -/
theorem gateSetWritesItsGate : Obligations.GateSetWritesItsGate := by
  intro s id h c i hrun hctx
  have hregs (g : Half) : (((s.setGate i (gsGate c.packet) (gsValue c.packet + s.signalledNow i (gsGate c.packet))).finish h c
      (okResult 0 0 0)).half g).regs = (s.half g).regs :=
    (State.finish_regs ..).trans (State.setGate_keeps (π := HalfState.regs) (fun _ _ => rfl) s _ _ _ g)
  refine ⟨_, exec_gateSet_of_scoped hrun hctx, State.ended_of_runs hrun (State.cmd?_modHalf (fun _ => by rfl) id) _, ?_,
    fun j g hne => ?_, by simp, by simp, hregs .q, hregs .k⟩
  · rw [State.gate_finish, State.gate_setGate, if_pos ⟨rfl, rfl⟩]; rfl
  · rw [State.gate_finish, State.gate_setGate, if_neg fun e => hne.elim (· e.1) (· e.2)]

/-! ## Waits on a gate (R90) -/

/-- Settles O9: the difference modulo 2³² lies below 2³¹ exactly where it is not negative as a signed number. -/
theorem gateWaitIsASignedDifference : Obligations.GateWaitIsASignedDifference := by
  refine ⟨fun v t hv ht => ?_, fun t d ht hd => ?_⟩
  · have hdiff : (BitVec.ofNat 32 v - BitVec.ofNat 32 t).toNat = (v % 2 ^ 32 + (2 ^ 32 - t % 2 ^ 32)) % 2 ^ 32 := by
      rw [BitVec.toNat_sub, BitVec.toNat_ofNat, BitVec.toNat_ofNat, Nat.add_comm]
    rw [waitHolds, decide_eq_true_iff, BitVec.toInt_eq_toNat_cond, hdiff]
    split <;> omega
  · rw [waitHolds, decide_eq_true_iff]
    omega

end Sys2Proof.Machine
end

section
/-! # Rules of the switch of contexts (R96, R97): what a trace of it and its advance leave alone -/

namespace Sys2Proof.Machine

variable {s : State} {w : Switch}

@[simp] theorem State.traceSwitch_mem (s : State) (w : Switch) (step : Nat) : (s.traceSwitch w step).mem = s.mem :=
  s.onHalves_mem (actingHalves w.home w.both) fun _ x => x.traceEvent 4 w.incoming step w.incoming

@[simp] theorem State.traceSwitch_switch (s : State) (w : Switch) (step : Nat) : (s.traceSwitch w step).switch = s.switch :=
  s.onHalves_switch (actingHalves w.home w.both) fun _ x => x.traceEvent 4 w.incoming step w.incoming

/-- Whatever of a half is not its trace unit is kept when a step of a switch is traced. -/
theorem State.traceSwitch_keeps {γ : Type} {π : HalfState → γ} (hπ : ∀ (x : HalfState) t, π { x with trace := t } = π x) (s : State)
    (w : Switch) (step : Nat) (g : Half) : π ((s.traceSwitch w step).half g) = π (s.half g) :=
  foldl_keeps (π := fun t : State => π (t.half g))
    (fun t a => State.half_modHalf_keeps (fun x => by rw [HalfState.traceEvent_eq]; exact hπ x _) t a g) _ s

theorem State.cmd?_traceSwitch (s : State) (w : Switch) (step id : Nat) : (s.traceSwitch w step).cmd? id = s.cmd? id :=
  State.cmd?_congr (State.traceSwitch_keeps (π := HalfState.cmds) (fun _ _ => rfl) s w step .q)
    (State.traceSwitch_keeps (π := HalfState.cmds) (fun _ _ => rfl) s w step .k) id

/-- Only a switch at its step 2, with nothing of an outgoing context in the engines, advances (R97). -/
theorem State.advanceSwitch_cases (s : State) :
    s.advanceSwitch = s ∨ ∃ w, s.switch = some w ∧ w.step = 2 ∧
      s.advanceSwitch = ({ s with switch := some { w with step := 3 } } : State).traceSwitch w 3 := by
  unfold State.advanceSwitch
  split
  · rename_i w hw
    split
    · rename_i hstep
      exact .inr ⟨w, hw, hstep.1, rfl⟩
    · exact .inl rfl
  · exact .inl rfl

@[simp] theorem State.advanceSwitch_mem (s : State) : s.advanceSwitch.mem = s.mem := by
  obtain h | ⟨w, -, -, h⟩ := s.advanceSwitch_cases
  · rw [h]
  · rw [h, State.traceSwitch_mem]

/-- Whatever of a half is not its trace unit is kept when a switch advances. -/
theorem State.advanceSwitch_keeps {γ : Type} {π : HalfState → γ} (hπ : ∀ (x : HalfState) t, π { x with trace := t } = π x) (s : State)
    (g : Half) : π (s.advanceSwitch.half g) = π (s.half g) := by
  obtain h | ⟨w, -, -, h⟩ := s.advanceSwitch_cases
  · rw [h]
  · rw [h, State.traceSwitch_keeps hπ, State.half_withSwitch]

/-- A switch at its step 2 goes on to step 3 unless a half drains (R97). -/
def Switch.advanced (w : Switch) (drains : Bool) : Switch := { w with step := if w.step = 2 ∧ drains = false then 3 else w.step }

theorem State.advanceSwitch_switch (hw : s.switch = some w) :
    s.advanceSwitch.switch = some (w.advanced (s.q.draining || s.k.draining)) := by
  simp only [State.advanceSwitch, hw]
  by_cases hgo : w.step = 2 ∧ ¬ s.q.draining = true ∧ ¬ s.k.draining = true
  · rw [if_pos hgo, State.traceSwitch_switch]
    simp [Switch.advanced, hgo]
  · have hstays : ¬ (w.step = 2 ∧ (s.q.draining || s.k.draining) = false) := by simpa using hgo
    rw [if_neg hgo, hw, Switch.advanced, if_neg hstays]

end Sys2Proof.Machine
end

section
/-! # O14: a switch begins (R96, R97, R517) -/

namespace Sys2Proof.Machine

variable {s : State} {id : Nat} {h g : Half} {c : Cmd}

/-- A resident context leaves a half. -/
def HalfState.sendOut (x : HalfState) (g : Half) : HalfState :=
  match x.resident with
  | some r => if inFootprint (x.ctx r).footprint g then x.modCtx r fun k => { k with st := .switchingOut } else x
  | none => x

/-- A half when a switch to a context begins: the resident context leaves, the named one comes in, and none is resident (R96). -/
def HalfState.beginSwitch (x : HalfState) (g : Half) (id : Nat) : HalfState :=
  { if inFootprint ((x.sendOut g).ctx id).footprint g && x.resident ≠ some id then
      (x.sendOut g).modCtx id fun k => { k with st := .switchingIn } else x.sendOut g with resident := none }

/-- The switch that a CTX_SWITCH begins: with a context to switch out at step 2, without one at step 5 (R96, R97). -/
def switchOf (s : State) (h : Half) (c : Cmd) : Switch :=
  { cmd := c.id, home := h, step := if (actingHalves h c.twoHalf).any fun g => (s.half g).resident.isSome then 2 else 5
    incoming := pkCtx c.packet, both := c.twoHalf }

theorem switchOf_step_of_empty (hnone : ∀ g, (g = h ∨ c.twoHalf = true) → (s.half g).resident = none) : (switchOf s h c).step = 5 :=
  if_neg (Bool.eq_false_iff.1 (List.any_eq_false.2 fun g hg => by simp [hnone g (mem_actingHalves.1 hg)]))

theorem switchOf_step_of_resident (hg : g = h ∨ c.twoHalf = true) (hsome : (s.half g).resident ≠ none) : (switchOf s h c).step = 2 :=
  if_pos (List.any_eq_true.2 ⟨g, mem_actingHalves.2 hg, Option.isSome_iff_ne_none.2 hsome⟩)

/-- The module when a switch has begun, before it is seen whether its step 2 is over already. -/
def State.beginSwitch (s : State) (h : Half) (c : Cmd) : State :=
  ((({ s with switch := some (switchOf s h c) } : State).onHalves (actingHalves h c.twoHalf) fun g x =>
    x.beginSwitch g (pkCtx c.packet)).setCmd h { c with waiting := true }).traceSwitch (switchOf s h c) 1

theorem exec_ctxSwitch_of_resident (hrun : s.runs id h c 0x0102)
    (hres : ∀ g, (g = h ∨ c.twoHalf = true) → (s.half g).resident = some (pkCtx c.packet)) :
    exec (.ctxSwitch id) s = .next (s.finish h c (okResult 0 0 0)) := by
  have hall : ((actingHalves h c.twoHalf).all fun g => (s.half g).resident = some (pkCtx c.packet)) = true :=
    List.all_eq_true.2 fun g hg => decide_eq_true (hres g (mem_actingHalves.1 hg))
  exact congrArg Host.Outcome.next ((onCommand_runs hrun rfl).trans (if_pos hall))

theorem exec_ctxSwitch_of_other (hrun : s.runs id h c 0x0102) (hg : g = h ∨ c.twoHalf = true)
    (hres : (s.half g).resident ≠ some (pkCtx c.packet)) :
    exec (.ctxSwitch id) s = .next (s.beginSwitch h c).advanceSwitch := by
  have hsome : ¬ ((actingHalves h c.twoHalf).all fun g => (s.half g).resident = some (pkCtx c.packet)) = true := fun hall =>
    hres (of_decide_eq_true (List.all_eq_true.1 hall g (mem_actingHalves.2 hg)))
  exact congrArg Host.Outcome.next ((onCommand_runs hrun rfl).trans (if_neg hsome))

@[simp] theorem State.beginSwitch_switch (s : State) (h : Half) (c : Cmd) : (s.beginSwitch h c).switch = some (switchOf s h c) := by
  simp [State.beginSwitch]

@[simp] theorem State.beginSwitch_mem (s : State) (h : Half) (c : Cmd) : (s.beginSwitch h c).mem = s.mem := by
  simp [State.beginSwitch]

/-- Whatever of a half is neither its trace unit nor its list of commands is as the beginning of the switch makes it there. -/
theorem State.beginSwitch_half {γ : Type} {π : HalfState → γ} (htrace : ∀ (x : HalfState) t, π { x with trace := t } = π x)
    (hcmds : ∀ (x : HalfState) l, π { x with cmds := l } = π x) (s : State) (hg : g = h ∨ c.twoHalf = true) :
    π ((s.beginSwitch h c).half g) = π ((s.half g).beginSwitch g (pkCtx c.packet)) := by
  rw [State.beginSwitch, State.traceSwitch_keeps htrace, State.setCmd_keeps hcmds, State.onHalves_half (actingHalves_nodup h _),
    if_pos (mem_actingHalves.2 hg), State.half_withSwitch]

/-- A context that leaves keeps all of its copy but its state, and the other contexts keep theirs. -/
theorem HalfState.sendOut_ctx (x : HalfState) (g : Half) (i : Nat) :
    (x.sendOut g).ctx i = if x.resident = some i ∧ inFootprint (x.ctx i).footprint g = true then { x.ctx i with st := .switchingOut }
      else x.ctx i := by
  unfold HalfState.sendOut
  split
  · rename_i r hr
    simp only [hr, Option.some.injEq]
    split
    · rename_i hin
      rw [HalfState.ctx_modCtx (f := fun k => { k with st := .switchingOut }) (fun _ => rfl)]
      by_cases hi : i = r
      · subst hi; simp [hin]
      · simp [hi, Ne.symm hi]
    · rename_i hin
      rw [if_neg]
      rintro ⟨rfl, hr⟩
      exact hin hr
  · rename_i hr
    simp [hr]

theorem HalfState.sendOut_footprint (x : HalfState) (g : Half) (i : Nat) : ((x.sendOut g).ctx i).footprint = (x.ctx i).footprint := by
  rw [HalfState.sendOut_ctx]; split <;> rfl

/-- The states of a half's contexts when a switch to `id` begins: only the named one, where it is not resident, comes in. -/
theorem HalfState.beginSwitch_ctx (x : HalfState) (g : Half) (id i : Nat) :
    (x.beginSwitch g id).ctx i
      = if i = id ∧ inFootprint (x.ctx id).footprint g = true ∧ x.resident ≠ some id then { (x.sendOut g).ctx i with st := .switchingIn }
        else (x.sendOut g).ctx i := by
  show (if inFootprint ((x.sendOut g).ctx id).footprint g && x.resident ≠ some id then
      (x.sendOut g).modCtx id fun k => { k with st := .switchingIn } else x.sendOut g).ctx i = _
  rw [HalfState.sendOut_footprint]
  by_cases hin : inFootprint (x.ctx id).footprint g = true ∧ x.resident ≠ some id
  · rw [if_pos (by simpa using hin), HalfState.ctx_modCtx (f := fun k => { k with st := .switchingIn }) (fun _ => rfl)]
    by_cases hi : i = id
    · subst hi; simp [hin]
    · simp [hi]
  · rw [if_neg (by simpa using hin), if_neg fun e => hin e.2]

theorem HalfState.beginSwitch_outgoing {x : HalfState} {r : Nat} (id : Nat) (hr : x.resident = some r)
    (hin : inFootprint (x.ctx r).footprint g = true) : ((x.beginSwitch g id).ctx r).st = .switchingOut := by
  rw [HalfState.beginSwitch_ctx, if_neg (by rintro ⟨rfl, -, hne⟩; exact hne hr), HalfState.sendOut_ctx, if_pos ⟨hr, hin⟩]

theorem HalfState.beginSwitch_incoming {x : HalfState} {id : Nat} (hne : x.resident ≠ some id)
    (hin : inFootprint (x.ctx id).footprint g = true) : ((x.beginSwitch g id).ctx id).st = .switchingIn := by
  rw [HalfState.beginSwitch_ctx, if_pos ⟨rfl, hin, hne⟩]

/-- Settles O14: the step of the switch, and what its beginning makes of each half. -/
theorem contextSwitchBegins : Obligations.ContextSwitchBegins := by
  intro s id h c hrun
  refine ⟨exec_ctxSwitch_of_resident hrun, fun ⟨g, hg, hne⟩ => ?_⟩
  have hdrains (g : Half) : ((s.beginSwitch h c).advanceSwitch.half g).draining = ((s.beginSwitch h c).half g).draining :=
    State.advanceSwitch_keeps (π := HalfState.draining) (fun _ _ => rfl) _ g
  refine ⟨_, _, exec_ctxSwitch_of_other hrun hg hne, State.advanceSwitch_switch (s.beginSwitch_switch h c),
    (State.cmd?_id hrun.1 : c.id = id), rfl, rfl, rfl, rfl, by simp, fun hnone => ?empty, fun ⟨g, hg, hsome⟩ => ?leaving, fun g hg => ?_⟩
  case empty => simp [Switch.advanced, switchOf_step_of_empty hnone]
  case leaving =>
    have hq : (s.beginSwitch h c).advanceSwitch.q.draining = (s.beginSwitch h c).q.draining := hdrains .q
    have hk : (s.beginSwitch h c).advanceSwitch.k.draining = (s.beginSwitch h c).k.draining := hdrains .k
    simp only [hq, hk, Switch.advanced, switchOf_step_of_resident hg hsome, true_and]
    cases (s.beginSwitch h c).q.draining || (s.beginSwitch h c).k.draining <;> rfl
  · have hhalf {γ : Type} {π : HalfState → γ} (htrace : ∀ x t, π { x with trace := t } = π x)
        (hcmds : ∀ x l, π { x with cmds := l } = π x) :
        π ((s.beginSwitch h c).advanceSwitch.half g) = π ((s.half g).beginSwitch g (pkCtx c.packet)) :=
      (State.advanceSwitch_keeps htrace _ g).trans (State.beginSwitch_half htrace hcmds s hg)
    have hst (i : Nat) : (((s.beginSwitch h c).advanceSwitch.half g).ctx i).st = (((s.half g).beginSwitch g (pkCtx c.packet)).ctx i).st :=
      hhalf (π := fun x => (x.ctx i).st) (fun _ _ => rfl) fun _ _ => rfl
    exact ⟨hhalf (π := HalfState.resident) (fun _ _ => rfl) fun _ _ => rfl,
      fun r hr hin => (hst r).trans (HalfState.beginSwitch_outgoing _ hr hin),
      fun hne hin => (hst _).trans (HalfState.beginSwitch_incoming hne hin)⟩

end Sys2Proof.Machine
end

section
/-! # O15: contexts end, and commands leave the engines (R97, R99, R101) -/

namespace Sys2Proof.Machine

variable {s : State} {id i : Nat} {h : Half} {c : Cmd}

theorem exec_ctxTeardown_of_runs (hrun : s.runs id h c 0x0103) :
    exec (.ctxTeardown id) s = .next ((s.setCmd h { c with waiting := true }).teardownFrom h (pkCtx c.packet) true) :=
  congrArg Host.Outcome.next (onCommand_runs hrun rfl)

theorem exec_ctxRelease_of_runs (hrun : s.runs id h c 0x0104) :
    exec (.ctxRelease id) s = .next ((s.setCmd h { c with waiting := true }).teardownFrom h (pkCtx c.packet) false) :=
  congrArg Host.Outcome.next (onCommand_runs hrun rfl)

/-- A command leaves the engines of its half and is kept with its state, the open buffers of its tiles spilled (R97, R129). -/
def State.suspend (s : State) (h : Half) (c : Cmd) : State :=
  ({ s with mem := c.spill s.mem } : State).modHalf h fun x =>
    { x with cmds := x.cmds.filter (·.id ≠ c.id), suspended := x.suspended ++ [{ c with phase := .suspended }] }

theorem exec_commandSuspend_of_outgoing (hcmd : s.cmd? id = some (h, c)) (hctx : c.ctx = some i)
    (hout : ((s.half h).ctx i).st = .switchingOut) (hring : c.ring ≠ .mgmt) (hphase : c.phase = .running) (hpause : c.mayPause = true) :
    exec (.commandSuspend id) s = .next (s.suspend h c).advanceSwitch := by
  show execCommandSuspend id s = _
  simp only [execCommandSuspend, hcmd, runSuspend]
  split
  · rename_i hnone; simp [hnone] at hctx
  · rename_i j hj
    obtain rfl : j = i := Option.some.inj (hj.symm.trans hctx)
    exact congrArg Host.Outcome.next (if_pos (by simp [hout, hring, hphase, hpause]))

theorem exec_teardownStop_of_torn {r : Result} (hcmd : s.cmd? id = some (h, c)) (hctx : c.ctx = some i) (hstop : c.stopWith = some r)
    (htorn : r.d0 = rsTornDown) :
    exec (.teardownStop id) s = .next (((s.endScratch h c).retire h { c with reports := [] } r).tearEnd i) := by
  show execTeardownStop id s = _
  simp only [execTeardownStop, hcmd, hstop, hctx]
  exact congrArg Host.Outcome.next (if_pos htorn)

/-- Settles O15, row by row. -/
theorem contextsEnd : Obligations.ContextsEnd := by
  refine ⟨fun s id h c => ⟨exec_ctxTeardown_of_runs, exec_ctxRelease_of_runs⟩, fun s id h c i hcmd hctx =>
    ⟨fun hout hring hphase hpause => ?_, fun r hstop htorn => exec_teardownStop_of_torn hcmd hctx hstop htorn⟩⟩
  have hmem (m : Mem) : ({ s with mem := m } : State).half h = s.half h := s.half_withMem m s.drawnFree h
  refine ⟨_, exec_commandSuspend_of_outgoing hcmd hctx hout hring hphase hpause, by simp [State.suspend], ?_, ?_⟩
  · rw [State.advanceSwitch_keeps (π := HalfState.suspended) (fun _ _ => rfl)]; simp [State.suspend, hmem]
  · rw [State.advanceSwitch_keeps (π := HalfState.cmds) (fun _ _ => rfl)]; simp [State.suspend, hmem]

end Sys2Proof.Machine
end

section
/-! # O17: a switch goes on (R96, R97, R100) -/

namespace Sys2Proof.Machine

variable {s t : State} {w : Switch} {h g : Half} {c : Cmd} {id ctx : Nat}

/-! ## Quiesce and save -/

/-- A frame of a half waits for the quiesce of a switch: it is a context's, and the context is leaving (R97, R380). -/
def State.quiesceWaits (s : State) (x : HalfState) : Bool :=
  x.unacked.any fun u => !u.frame.mgmt && (s.q.outgoing ++ s.k.outgoing).contains u.frame.ctx

theorem State.quiesceWaits_eq_false {x : HalfState}
    (hfree : ∀ u ∈ x.unacked, u.frame.mgmt = true ∨ u.frame.ctx ∉ s.q.outgoing ++ s.k.outgoing) : s.quiesceWaits x = false :=
  List.any_eq_false.2 fun u hu => by
    rcases hfree u hu with hmgmt | hctx
    · simp [hmgmt]
    · simpa using fun _ => by simpa using hctx

theorem exec_quiesceComplete_of_free (hw : s.switch = some w) (hstep : w.step = 3) (hq : s.quiesceWaits s.q = false)
    (hk : s.quiesceWaits s.k = false) :
    exec .quiesceComplete s = .next (({ s with switch := some { w with step := 4 } } : State).traceSwitch w 4) := by
  show execQuiesceComplete s = _
  simp only [execQuiesceComplete, hw]
  refine congrArg Host.Outcome.next (if_pos ?_)
  simp only [Bool.and_eq_true, decide_eq_true_eq, Bool.not_eq_true']
  exact ⟨⟨hstep, hq⟩, hk⟩

/-- The contexts that leave a half are saved (R97 step 4). -/
def State.saveHalf (s : State) (g : Half) : State := (s.half g).outgoing.foldl (fun u i => u.saveCtx g i) s

/-- A context that is DEFINED in a half comes in there (R96). -/
def HalfState.bringIn (x : HalfState) (g : Half) (id : Nat) : HalfState :=
  if (x.ctx id).st = .defined && inFootprint (x.ctx id).footprint g then x.modCtx id fun k => { k with st := .switchingIn } else x

/-- What the save of a switch does in the halves (R97 step 4). -/
def State.saveAll (s : State) (w : Switch) : State :=
  ((s.saveHalf .q).saveHalf .k).onHalves w.halves fun g x => x.bringIn g w.incoming

/-- At its step 4 a switch goes on to step 5 (R97). -/
theorem exec_saveComplete_of_saving (hw : s.switch = some w) (hstep : w.step = 4) :
    exec .saveComplete s = .next (({ s.saveAll w with switch := some { w with step := 5 } } : State).traceSwitch w 5) := by
  show execSaveComplete s = _
  simp only [execSaveComplete, hw]
  exact congrArg Host.Outcome.next (if_pos hstep)

/-! ## Restore -/

/-- A command finishes, if the module holds it. -/
def State.finishId (s : State) (id : Nat) (r : Result) : State :=
  match s.cmd? id with
  | some (h, c) => s.finish h c r
  | none => s

theorem State.finishId_of_cmd? (hcmd : s.cmd? id = some (h, c)) (r : Result) : s.finishId id r = s.finish h c r := by
  simp only [State.finishId, hcmd]

/-- Whatever of a half is not its list of commands is kept when a command finishes. -/
theorem State.finishId_keeps {γ : Type} {π : HalfState → γ} (hπ : ∀ (x : HalfState) l, π { x with cmds := l } = π x) (s : State) (id : Nat)
    (r : Result) (g : Half) : π ((s.finishId id r).half g) = π (s.half g) := by
  unfold State.finishId
  split
  · exact State.finish_keeps hπ s _ _ r g
  · rfl

@[simp] theorem State.finishId_switch (s : State) (id : Nat) (r : Result) : (s.finishId id r).switch = s.switch := by
  unfold State.finishId; split <;> simp

/-- The incoming context of a switch comes back in a half where it was coming in, and is the resident one there (R96, R97). -/
def State.restoreIn (s : State) (g : Half) (id : Nat) : State :=
  (if ((s.half g).ctx id).st = .switchingIn then s.restoreCtx g id else s).modHalf g fun x => { x with resident := some id }

/-- The context, its commands and its Wellheads as they come back to a half (R97). -/
def HalfState.restore (x : HalfState) (id : Nat) : HalfState :=
  { (x.modCtx id fun k => { k with st := .resident, saved := [], savedBadLines := [] }).coldWells id with
    suspended := x.suspended.filter (·.ctx ≠ some id)
    cmds := x.cmds ++ (x.suspended.filter (·.ctx = some id)).map fun k => { k with phase := .running, resumed := x.count } }

/-- A half in which a switch has ended. -/
def HalfState.restoreIn (x : HalfState) (id : Nat) : HalfState :=
  { if (x.ctx id).st = .switchingIn then x.restore id else x with resident := some id }

theorem State.restoreCtx_half (s : State) (g : Half) (id : Nat) : (s.restoreCtx g id).half g = (s.half g).restore id := by
  unfold State.restoreCtx
  exact (State.half_withMem ..).trans (s.modHalf_half g _)

theorem State.restoreCtx_other (s : State) (g : Half) (id : Nat) : (s.restoreCtx g id).half g.other = s.half g.other := by
  unfold State.restoreCtx
  exact (State.half_withMem ..).trans (s.modHalf_other g _)

theorem State.restoreIn_half (s : State) (g : Half) (id : Nat) : (s.restoreIn g id).half g = (s.half g).restoreIn id := by
  simp only [State.restoreIn, HalfState.restoreIn, State.modHalf_half]
  split
  · rw [State.restoreCtx_half]
  · rfl

theorem State.restoreIn_other (s : State) (g : Half) (id : Nat) : (s.restoreIn g id).half g.other = s.half g.other := by
  simp only [State.restoreIn, State.modHalf_other]
  split
  · exact s.restoreCtx_other g id
  · rfl

theorem State.restoreIn_switch (s : State) (g : Half) (id : Nat) : (s.restoreIn g id).switch = s.switch := by
  simp only [State.restoreIn, State.modHalf_switch]
  split
  · exact s.modHalf_switch g _
  · rfl

theorem HalfState.restore_ctx_st (x : HalfState) (id : Nat) : ((x.restore id).ctx id).st = .resident := by
  let back (k : Ctx) : Ctx := { k with st := .resident, saved := [], savedBadLines := [] }
  let cold (k : Ctx) : Ctx := { k with hotSets := k.hotSets.map fun r => { r with reload := true } }
  show (((x.modCtx id back).modCtx id cold).ctx id).st = _
  rw [HalfState.ctx_modCtx (f := cold) (fun _ => rfl), if_pos rfl, HalfState.ctx_modCtx (f := back) (fun _ => rfl), if_pos rfl]

theorem HalfState.restoreIn_ctx_st {x : HalfState} (hin : (x.ctx id).st = .switchingIn) : ((x.restoreIn id).ctx id).st = .resident := by
  have hrestore : x.restoreIn id = { x.restore id with resident := some id } := by rw [HalfState.restoreIn, if_pos hin]
  rw [hrestore]
  exact x.restore_ctx_st id

/-- A command that was not suspended is where it was when a context has come back. -/
theorem HalfState.find?_restoreIn {x : HalfState} {n : Nat} (hn : ∀ k ∈ x.suspended, k.id ≠ n) (id : Nat) :
    (x.restoreIn id).cmds.find? (·.id = n) = x.cmds.find? (·.id = n) := by
  unfold HalfState.restoreIn
  split
  · refine (List.find?_append ..).trans ((congrArg _ (List.find?_eq_none.2 ?_)).trans (Option.or_none ..))
    simp only [List.mem_map, List.mem_filter]
    rintro k ⟨k', ⟨hk', -⟩, rfl⟩
    simpa using hn k' hk'
  · rfl

/-- Every half that a switch acts in when its context has come back (R97 step 5). -/
def State.restoreAll (s : State) (w : Switch) : State :=
  w.halves.foldl (fun t g => t.restoreIn g w.incoming) { s with switch := none }

theorem State.restoreAll_half (s : State) (w : Switch) (g : Half) :
    (s.restoreAll w).half g = if g ∈ w.halves then (s.half g).restoreIn w.incoming else s.half g := by
  refine (State.foldl_half (φ := fun _ x => x.restoreIn w.incoming) (fun t a => t.restoreIn_half a w.incoming)
    (fun t a => t.restoreIn_other a w.incoming) (actingHalves_nodup w.home w.both) _ g).trans ?_
  rw [State.half_withSwitch]
  rfl

@[simp] theorem State.restoreAll_switch (s : State) (w : Switch) : (s.restoreAll w).switch = none :=
  foldl_keeps (fun t a => t.restoreIn_switch a w.incoming) w.halves _

/-- Only where a command is found in the lists of the halves matters to finding it. -/
theorem State.cmd?_congr_find (hfind : ∀ g, (t.half g).cmds.find? (·.id = id) = (s.half g).cmds.find? (·.id = id)) :
    t.cmd? id = s.cmd? id := by
  have hq := hfind .q
  have hk := hfind .k
  simp only [State.half_q, State.half_k] at hq hk
  simp only [State.cmd?, hq, hk]

theorem State.cmd?_restoreAll (hid : ∀ k ∈ s.q.suspended ++ s.k.suspended, k.id ≠ id) (w : Switch) :
    (s.restoreAll w).cmd? id = s.cmd? id := by
  refine State.cmd?_congr_find fun g => ?_
  rw [State.restoreAll_half]
  split
  · exact HalfState.find?_restoreIn (fun k hk => hid k (by cases g <;> simp_all)) _
  · rfl

theorem exec_restoreComplete_of_whole (hw : s.switch = some w) (hstep : w.step = 5) (hwhole : w.abandoned = false) :
    exec .restoreComplete s = .next (((s.restoreAll w).traceSwitch w 6).finishId w.cmd (okResult 0 0 0)) := by
  show execRestoreComplete s = _
  simp only [execRestoreComplete, hw]
  exact congrArg Host.Outcome.next ((if_neg (not_not.2 hstep)).trans (if_neg (by simp [hwhole])))

theorem exec_restoreComplete_of_abandoned (hw : s.switch = some w) (hstep : w.step = 5) (habandoned : w.abandoned = true)
    (hcmd : s.cmd? w.cmd = some (h, c)) :
    exec .restoreComplete s = .next (({ s with switch := none } : State).finish h c (tornResult (pkGen c.packet))) := by
  have hcmd' : ({ s with switch := none } : State).cmd? w.cmd = some (h, c) := hcmd
  show execRestoreComplete s = _
  simp only [execRestoreComplete, hw, hcmd, hcmd']
  exact congrArg Host.Outcome.next ((if_neg (not_not.2 hstep)).trans (if_pos habandoned))

/-- What the end of a restore leaves: no switch, the incoming context resident where the switch acted, and its command ended (R97). -/
theorem restoreComplete_leaves (hw : s.switch = some w) (hstep : w.step = 5) (hwhole : w.abandoned = false) :
    ∃ t, exec .restoreComplete s = .next t ∧ t.switch = none
      ∧ (∀ g, g ∈ w.halves → (t.half g).resident = some w.incoming
          ∧ (((s.half g).ctx w.incoming).st = .switchingIn → ((t.half g).ctx w.incoming).st = .resident))
      ∧ ∀ h c, s.cmd? w.cmd = some (h, c) → (∀ k ∈ s.q.suspended ++ s.k.suspended, k.id ≠ w.cmd) →
          t.ended w.cmd h (okResult 0 0 0) := by
  refine ⟨_, exec_restoreComplete_of_whole hw hstep hwhole, by simp, fun g hg => ?_, fun h c hcmd hid => ?_⟩
  · have hhalf {γ : Type} {π : HalfState → γ} (htrace : ∀ x t, π { x with trace := t } = π x)
        (hcmds : ∀ x l, π { x with cmds := l } = π x) :
        π ((((s.restoreAll w).traceSwitch w 6).finishId w.cmd (okResult 0 0 0)).half g) = π ((s.half g).restoreIn w.incoming) := by
      rw [State.finishId_keeps hcmds, State.traceSwitch_keeps htrace, State.restoreAll_half, if_pos hg]
    exact ⟨hhalf (π := HalfState.resident) (fun _ _ => rfl) fun _ _ => rfl,
      fun hin => (hhalf (π := fun x => (x.ctx w.incoming).st) (fun _ _ => rfl) fun _ _ => rfl).trans (HalfState.restoreIn_ctx_st hin)⟩
  · have hfound : ((s.restoreAll w).traceSwitch w 6).cmd? w.cmd = some (h, c) :=
      ((State.cmd?_traceSwitch ..).trans (State.cmd?_restoreAll hid w)).trans hcmd
    rw [State.finishId_of_cmd? hfound]
    exact State.ended_finish hfound (State.cmd?_id hcmd)

/-! ## Scrubs (R99, R446) -/

/-- The frames of a half that wait for the scrub of a context ID. -/
def HalfState.scrubOf (x : HalfState) (ctx : Nat) : List Nat := (x.scrub.filter (·.2 = ctx)).map (·.1)

theorem HalfState.mem_scrubOf {x : HalfState} {f : Nat} : f ∈ x.scrubOf ctx ↔ (f, ctx) ∈ x.scrub := by
  simp [HalfState.scrubOf]

/-- Memory with some frames cleared. -/
def Mem.clearFrames (m : Mem) (fs : List Nat) : Mem := fs.foldl (fun m f => m.clear (f * frameBytes) ((f + 1) * frameBytes)) m

theorem Mem.byte_clearFrames_outside {m : Mem} {fs : List Nat} {i : Nat}
    (hout : ∀ f ∈ fs, i < f * frameBytes ∨ (f + 1) * frameBytes ≤ i) : (m.clearFrames fs).byte i = m.byte i := by
  induction fs generalizing m with
  | nil => rfl
  | cons f fs ih =>
    exact (ih fun f hf => hout f (List.mem_cons_of_mem _ hf)).trans (Mem.byte_clear_outside (hout f (List.mem_cons_self ..)))

theorem Mem.byte_clearFrames_of_zero {m : Mem} {i : Nat} (hzero : m.byte i = 0) (fs : List Nat) : (m.clearFrames fs).byte i = 0 := by
  induction fs generalizing m with
  | nil => exact hzero
  | cons f fs ih =>
    refine ih ?_
    by_cases hin : f * frameBytes ≤ i ∧ i < (f + 1) * frameBytes
    · exact Mem.byte_clear_inside hin
    · exact (Mem.byte_clear_outside (by omega)).trans hzero

theorem Mem.byte_clearFrames_inside {m : Mem} {fs : List Nat} {f i : Nat} (hf : f ∈ fs) (hlo : f * frameBytes ≤ i)
    (hhi : i < (f + 1) * frameBytes) : (m.clearFrames fs).byte i = 0 := by
  induction fs generalizing m with
  | nil => cases hf
  | cons a fs ih =>
    rcases List.mem_cons.1 hf with rfl | hf
    · exact Mem.byte_clearFrames_of_zero (Mem.byte_clear_inside ⟨hlo, hhi⟩) fs
    · exact ih hf

/-- The frames that a half held for a context ID are scrubbed, and wait no longer (R99 step 6). -/
def State.scrubFrames (s : State) (h : Half) (ctx : Nat) : State :=
  { s.modHalf h fun x => { x with scrub := x.scrub.filter (·.2 ≠ ctx) } with mem := s.mem.clearFrames ((s.half h).scrubOf ctx) }

/-- A dead context is UNDEFINED again (R99). -/
def HalfState.forgetDead (x : HalfState) (ctx : Nat) : HalfState :=
  if (x.ctx ctx).st = .dead then { x with ctxs := x.ctxs.filter (·.id ≠ ctx) } else x

@[simp] theorem HalfState.forgetDead_scrub (x : HalfState) (ctx : Nat) : (x.forgetDead ctx).scrub = x.scrub := by
  unfold HalfState.forgetDead; split <;> rfl

/-- The ID of an ended context is free once no half has a frame of it left to scrub (R99 step 6). -/
def State.freeId (s : State) (ctx : Nat) : State :=
  if s.q.scrub.any (·.2 = ctx) || s.k.scrub.any (·.2 = ctx) then s else { s with q := s.q.forgetDead ctx, k := s.k.forgetDead ctx }

@[simp] theorem State.freeId_mem (s : State) (ctx : Nat) : (s.freeId ctx).mem = s.mem := by unfold State.freeId; split <;> rfl

@[simp] theorem State.freeId_scrub (s : State) (ctx : Nat) (g : Half) : ((s.freeId ctx).half g).scrub = (s.half g).scrub := by
  unfold State.freeId
  split
  · rfl
  · cases g <;> exact HalfState.forgetDead_scrub ..

theorem State.not_mem_scrubFrames_scrub {f : Nat} : (f, ctx) ∉ ((s.scrubFrames h ctx).half h).scrub := by
  have hhalf : (s.scrubFrames h ctx).half h = { s.half h with scrub := (s.half h).scrub.filter (·.2 ≠ ctx) } := by cases h <;> rfl
  simp [hhalf]

theorem exec_scrubComplete_of_all (hctx : 16 ≤ ctx) (hall : (s.half h).scrubAll = true) (hready : (s.half h).boot = .ready) :
    exec (.scrubComplete h ctx) s
      = .next { s.modHalf h fun x => { x with scrubAll := false } with mem := s.mem.clear (h.part * 2 ^ 40) ((h.part + 1) * 2 ^ 40) } :=
  congrArg Host.Outcome.next ((if_pos hctx).trans (if_pos (by simp [hall, State.ready, hready])))

theorem exec_scrubComplete_of_ended (hctx : ctx < 16) (hq : (s.q.ctx ctx).tearing = false) (hk : (s.k.ctx ctx).tearing = false)
    (hsome : ∃ f, (f, ctx) ∈ (s.half h).scrub) : exec (.scrubComplete h ctx) s = .next ((s.scrubFrames h ctx).freeId ctx) := by
  obtain ⟨f, hf⟩ := hsome
  have hany : (s.half h).scrub.any (·.2 = ctx) = true := List.any_eq_true.2 ⟨_, hf, decide_eq_true rfl⟩
  exact congrArg Host.Outcome.next ((if_neg hctx.not_ge).trans (if_pos (by simp [hq, hk, hany])))

/-! ## A drained map (R104) -/

/-- A frame of a context waits for its scrub in a half, once (R104). -/
def HalfState.awaitScrub (x : HalfState) (ctx f : Nat) : HalfState :=
  if x.scrub.any (·.1 = f) then x else { x with scrub := x.scrub ++ [(f, ctx)] }

theorem HalfState.awaitScrub_ctx (x : HalfState) (ctx f i : Nat) : (x.awaitScrub ctx f).ctx i = x.ctx i := by
  unfold HalfState.awaitScrub; split <;> rfl

/-- The frames of a half that a commit removed from the map of a context, and that are not preserved (R104, R416). -/
def State.drained (s : State) (h : Half) (ctx : Nat) : List Nat :=
  ((s.half h).ctx ctx).draining.filter fun f => frameHalf f = h && (s.preservedBy f).isNone

theorem exec_mapDrain (s : State) (h : Half) (ctx : Nat) :
    exec (.mapDrain h ctx) s = .next ((s.drained h ctx).foldl (fun t f => t.modHalf h (·.awaitScrub ctx f))
      (s.modHalf h fun x => x.modCtx ctx fun k => { k with draining := [] })) := rfl

theorem mapDrain_leaves (s : State) (h : Half) (ctx : Nat) :
    ∃ t, exec (.mapDrain h ctx) s = .next t ∧ ((t.half h).ctx ctx).draining = [] ∧ t.mem = s.mem
      ∧ ((t.half h).ctx ctx).map = ((s.half h).ctx ctx).map := by
  have hctx : (((s.drained h ctx).foldl (fun t f => t.modHalf h (·.awaitScrub ctx f))
      (s.modHalf h fun x => x.modCtx ctx fun k => { k with draining := [] })).half h).ctx ctx
        = { (s.half h).ctx ctx with draining := [] } := by
    rw [foldl_keeps (π := fun t : State => (t.half h).ctx ctx) fun t f => by simp [HalfState.awaitScrub_ctx], State.modHalf_half,
      HalfState.ctx_modCtx (f := fun k => { k with draining := [] }) (fun _ => rfl), if_pos rfl]
  refine ⟨_, exec_mapDrain s h ctx, by rw [hctx], ?_, by rw [hctx]⟩
  rw [State.mem_foldl fun t f => t.modHalf_mem h _, State.modHalf_mem]

/-- Settles O17: the steps of a switch, the scrubs, and the drained map, each by what its row leaves. -/
theorem switchAndScrubComplete : Obligations.SwitchAndScrubComplete := by
  refine ⟨fun s w hw => ⟨fun hstep hfree => ?quiesce, fun hstep => ?save, fun hstep hwhole => restoreComplete_leaves hw hstep hwhole,
    fun h c hstep habandoned hcmd => exec_restoreComplete_of_abandoned hw hstep habandoned hcmd⟩,
    fun s h ctx => ⟨fun hctx hall hready => ?all, fun hctx hq hk hsome => ?ended, mapDrain_leaves s h ctx⟩⟩
  case quiesce =>
    have hfreeOf {x : HalfState} (hx : ∀ u ∈ x.unacked, u ∈ s.q.unacked ++ s.k.unacked) : s.quiesceWaits x = false :=
      State.quiesceWaits_eq_false fun u hu => hfree u (hx u hu)
    exact ⟨_, exec_quiesceComplete_of_free hw hstep (hfreeOf fun u hu => List.mem_append_left _ hu)
      (hfreeOf fun u hu => List.mem_append_right _ hu), by simp, by simp⟩
  case save =>
    exact ⟨_, exec_saveComplete_of_saving hw hstep, by simp⟩
  case all =>
    exact ⟨_, exec_scrubComplete_of_all hctx hall hready, by cases h <;> rfl, rfl⟩
  case ended =>
    refine ⟨_, exec_scrubComplete_of_ended hctx hq hk hsome, fun f => ?_, fun f i hf hlo hhi => ?_, fun i hout => ?_⟩
    · rw [State.freeId_scrub]; exact State.not_mem_scrubFrames_scrub
    · rw [State.freeId_mem]
      exact Mem.byte_clearFrames_inside (HalfState.mem_scrubOf.2 hf) hlo hhi
    · rw [State.freeId_mem]
      exact Mem.byte_clearFrames_outside fun f hf => hout f (HalfState.mem_scrubOf.1 hf)

end Sys2Proof.Machine
end

section
/-! # O45: the head of a ring and its examination (R63, R85, R352, R518) -/

namespace Sys2Proof.Machine

variable {s : State} {h : Half} {r : RingRef} {ring : Ring} {p : Nat}

/-! ## The check at the head -/

/-- A packet that is whole at the head lies between the pointers of its ring (R85). -/
theorem State.units_le_of_headPacket (hp : s.headPacket h ring = some p) :
    ringGap ring.slots ring.cmdHead ring.cmdTail ≠ 0
      ∧ 1 + pkUnits (numOf (s.readSlots h ring ring.cmdHead 1)) ≤ ringGap ring.slots ring.cmdHead ring.cmdTail := by
  simp only [State.headPacket] at hp
  split at hp
  · cases hp
  · rename_i havail
    split at hp
    · exact ⟨havail, ‹_›⟩
    · cases hp

/-- What the check of a whole packet at the head of a served ring does, by its damage and its refusal (R352, R518). -/
def State.checkHead (s : State) (h : Half) (r : RingRef) (ring : Ring) (p : Nat) : State :=
  match s.slotDamage h ring ring.cmdHead (1 + pkUnits p) with
  | some a => (s.refuse h ring (numOf (s.readSlots h ring ring.cmdHead 1)) (1 + pkUnits p) { sealResult a with signals := false }).sealFault a
      ring.ctx
  | none =>
    match headRefusal s h r p with
    | some res => s.refuse h ring p (1 + pkUnits p) res
    | none => s.modHalf h fun x => x.setRing r { ring with checked := true }

theorem exec_headCheck_of_whole (hring : (s.half h).ring? r = some ring) (hp : s.headPacket h ring = some p) (hnew : ring.checked = false)
    (hserves : s.serves h ring = true) (hfetches : (s.half h).fetches ring = true) (hfits : 1 + pkUnits p ≤ ring.slots)
    (hunits : pkUnits (numOf (s.readSlots h ring ring.cmdHead 1)) = pkUnits p) :
    exec (.headCheck h r) s = .next (s.checkHead h r ring p) := by
  obtain ⟨havail, hwhole⟩ := State.units_le_of_headPacket hp
  rw [hunits] at hwhole
  show execHeadCheck h r s = _
  simp only [execHeadCheck, hring, hp, hunits, Nat.min_eq_left hfits, Nat.min_eq_left hwhole, if_neg havail, if_neg hfits.not_gt]
  exact congrArg Host.Outcome.next (if_neg (by simp [hnew, hserves, hfetches]))

/-! ## Examination -/

/-- What the examination of a ready head comes to: a refusal, or what was found, kept with the ring (R518, R63). -/
def State.examineHead (s : State) (h : Half) (r : RingRef) (ring : Ring) (spec : OpSpec) (p : Nat) : State :=
  match examine s h r spec p with
  | .error res => s.refuse h ring p (1 + pkUnits p) res
  | .ok e =>
    let t := s.modHalf h fun x => x.setRing r { ring with exam := some e }
    if s.admissible h ring spec p e then t else t.hold h ring p (s.estimateIn h h p e + s.estimateIn h h.other p e)

theorem exec_examination_of_ready {spec : OpSpec} (hring : (s.half h).ring? r = some ring) (hp : s.headPacket h ring = some p)
    (hspec : opSpec (pkOpcode p) = some spec) (hnew : ring.exam = none) (hready : s.headReady h ring spec p = true) :
    exec (.examination h r) s = .next (s.examineHead h r ring spec p) := by
  show execExamination h r s = _
  simp only [execExamination, hring, hp, hspec]
  exact congrArg Host.Outcome.next (if_neg (by simp [hnew, hready]))

/-- Settles O45: the two checks of a head, by what they come to. -/
theorem headAndExamination : Obligations.HeadAndExamination := by
  intro s h r ring p hring hp
  refine ⟨fun hnew hserves hfetches hfits hunits => ?check, fun spec hspec hnew hready => ?exam⟩
  case check =>
    rw [exec_headCheck_of_whole hring hp hnew hserves hfetches hfits hunits, State.checkHead]
    refine ⟨fun hsound => ⟨fun hpass => ?_, fun res hrefused => ?_⟩, fun a hdamage => ?_⟩
    · simp only [hsound, hpass]
    · simp only [hsound, hrefused]
    · simp only [hdamage]
  case exam =>
    rw [exec_examination_of_ready hring hp hspec hnew hready, State.examineHead]
    refine ⟨fun e t hfound ht => ⟨fun hpass => ?_, fun hfail => ?_⟩, fun res hrefused => ?_⟩
    · simp only [hfound, hpass, if_true, ht]
    · simp only [hfound, hfail, Bool.false_eq_true, if_false, ht]
    · simp only [hrefused]

end Sys2Proof.Machine
end

section
/-! # O46: admission, completion and signals across the Siphon (R31, R63, R73, R86, R91, R92) -/

namespace Sys2Proof.Machine

variable {s : State} {h g : Half} {c : Cmd} {id : Nat} {r : Result}

/-! ## Admission -/

theorem State.admitHeld_nil (hnone : (s.half h).windowFirst = []) : s.admitHeld h [] = (s, false) := by
  have hsame : ({ s.half h with windowFirst := [] } : HalfState) = s.half h := by rw [← hnone]
  have hset : s.setHalf h (s.half h) = s := by cases h <;> rfl
  rw [State.admitHeld, State.modHalf, hsame, hset]

theorem exec_admission_of_arbitration {ring : Ring} {rest : List Ring} {spec : OpSpec} {p : Nat} {e : Exam}
    (hmay : (s.half h).mayAdmit = true) (hnone : (s.half h).windowFirst = []) (hrings : (s.half h).arbitration = ring :: rest)
    (hcand : s.candidate h ring = some (spec, p, e)) : exec (.admission h) s = .next (s.admitCommand h ring spec p e) := by
  show execAdmission h s = _
  simp only [execAdmission, hmay, if_true, hnone, State.admitHeld_nil hnone, Bool.false_eq_true, if_false, hrings, State.admitFirst, hcand]

/-- The first head of the list of a window start is admitted, where it is held, has work in the half and passes (R63 rule 1). -/
theorem State.admitHeld_of_passes {ref : RingRef} {rest : List (Half × RingRef)} {ring : Ring} {spec : OpSpec} {p : Nat} {e : Exam}
    (hmay : (s.half g).mayAdmit = true) (hring : (s.half g).ring? ref = some ring) (hexam : s.examined g ring = some (spec, p, e))
    (hheld : ring.firstHeld.isSome = true) (hwork : h ∈ e.halves g) (hpass : s.admissible g ring spec p e = true) :
    s.admitHeld h ((g, ref) :: rest) = ((s.admitCommand g ring spec p e).modHalf h fun x => { x with windowFirst := rest }, true) := by
  have hlisted : (ring.firstHeld.isNone || !(e.halves g).contains h) = false := by
    simp [Option.isNone_eq_false_iff.2 hheld, hwork]
  simp only [State.admitHeld, hring, hexam, hlisted, hpass, hmay, Bool.false_eq_true, if_false, if_true]

theorem exec_admission_of_windowFirst {ref : RingRef} {rest : List (Half × RingRef)} {ring : Ring} {spec : OpSpec} {p : Nat} {e : Exam}
    (hmayHere : (s.half h).mayAdmit = true) (hlist : (s.half h).windowFirst = (g, ref) :: rest) (hmay : (s.half g).mayAdmit = true)
    (hring : (s.half g).ring? ref = some ring) (hexam : s.examined g ring = some (spec, p, e))
    (hheld : ring.firstHeld.isSome = true) (hwork : h ∈ e.halves g) (hpass : s.admissible g ring spec p e = true) :
    exec (.admission h) s = .next ((s.admitCommand g ring spec p e).modHalf h fun x => { x with windowFirst := rest }) := by
  show execAdmission h s = _
  simp only [execAdmission, hmayHere, if_true, hlist, State.admitHeld_of_passes hmay hring hexam hheld hwork hpass]

/-! ## Mirroring and completion -/

theorem exec_mirroredCommand_of_twoHalf (hcmd : s.cmd? id = some (h, c)) (htwo : c.twoHalf = true) (hnew : c.mirrored = false)
    (htogether : s.together h = true) :
    exec (.mirroredCommand id) s = .next ((s.setCmd h { c with mirrored := true }).crossFor (some (attrKey c.packet)) h .command
      (64 * (1 + pkUnits c.packet))) := by
  show execMirroredCommand id s = _
  simp only [execMirroredCommand, hcmd]
  exact congrArg Host.Outcome.next (if_pos (by simp [htwo, hnew, htogether]))

/-- What a command with its result does as it leaves: the signals that cross the Siphon go first (R73, R91). -/
def State.complete (s : State) (h : Half) (c : Cmd) (r : Result) : State :=
  if !c.signalled && s.signalsAcross h c r && s.siphonUp then (s.sendSignals h c r).setCmd h { c with signalled := true }
  else match c.ctx with
    | some i => ((s.retire h c r).ackReplica c).tearEnd i
    | none => s.retire h c r

theorem exec_commandComplete_of_result (hcmd : s.cmd? id = some (h, c)) (hres : s.resultOf c = some r)
    (hacked : s.hasUnacked id = false ∨ c.stopWith.isSome = true) (hquiet : s.signalsOut id = false) :
    exec (.commandComplete id) s = .next (s.complete h c r) := by
  have hleaves : (s.hasUnacked id && c.stopWith.isNone || s.signalsOut id) = false := by
    rcases hacked with hacked | hstop
    · simp [hacked, hquiet]
    · simp [Option.isNone_eq_false_iff.2 hstop, hquiet]
  show execCommandComplete id s = _
  simp only [execCommandComplete, hcmd, hres, hleaves, Bool.false_eq_true, if_false]
  rfl

theorem State.complete_of_across (hnew : c.signalled = false) (hacross : s.signalsAcross h c r = true) (hup : s.siphonUp = true) :
    s.complete h c r = (s.sendSignals h c r).setCmd h { c with signalled := true } := if_pos (by simp [hnew, hacross, hup])

/-- A command that has no signal left to cross leaves (R73). -/
theorem State.complete_of_home (hhome : c.signalled = true ∨ s.signalsAcross h c r = false ∨ s.siphonUp = false) :
    s.complete h c r = match c.ctx with
      | some i => ((s.retire h c r).ackReplica c).tearEnd i
      | none => s.retire h c r := by
  refine if_neg ?_
  rcases hhome with h' | h' | h' <;> simp [h']

theorem State.resultOf_done (hdone : c.done.isSome = true) : s.resultOf c = c.done.map fun r => c.stopWith.getD (c.outcome r) := by
  obtain ⟨r, hr⟩ := Option.isSome_iff_exists.1 hdone
  simp only [State.resultOf, hr, Option.map_some]

/-- A CONFIG_COMMIT has its result once no event of it is armed any more (R102). -/
theorem State.resultOf_committed (hdone : c.done = none) (hwait : c.waiting = true) (hop : pkOpcode c.packet = 0x0004)
    (hfired : ∀ e ∈ s.q.events ++ s.k.events, ∀ a b i n, e.kind ≠ .commit a b i n c.id) :
    s.resultOf c = some (c.stopWith.getD (c.outcome (okResult 0 0 0))) := by
  have hsettled : s.settled c = some (okResult 0 0 0) := by
    refine (if_neg (by simp [hwait])).trans ((if_neg (by simp [hop])).trans ((if_pos hop).trans (if_neg ?_)))
    rw [← List.any_append, List.any_eq_true]
    rintro ⟨e, he, harmed⟩
    split at harmed
    · rename_i a b i n m hkind
      obtain rfl := of_decide_eq_true harmed
      exact hfired e he a b i n hkind
    · cases harmed
  simp only [State.resultOf, hdone, hsettled]

/-! ## Signals that crossed the Siphon (R92) -/

/-- The increments that a list of signals brings a gate. -/
def incrementsTo (l : List (Nat × Nat × Nat × Nat)) (j k : Nat) : Nat := total ((l.filter fun x => x.1 = j && x.2.1 = k).map fun x => x.2.2.1)

theorem State.gate_applySignal (s : State) (i f n j k : Nat) :
    (s.applySignal i f n).gate j k = if j = i ∧ k = f then (s.gate i f + n) % 2 ^ 32 else s.gate j k := by
  have hkeep (x : HalfState) : ({ x with strokeSignals := x.strokeSignals ++ [(i, f, n)] } : HalfState).ctxs = x.ctxs := rfl
  refine (State.gate_congr (State.half_modHalf_keeps (π := HalfState.ctxs) hkeep _ (gateHome f) .q)
    (State.half_modHalf_keeps (π := HalfState.ctxs) hkeep _ (gateHome f) .k) j k).trans ?_
  exact State.gate_setGate s i f (s.gate i f + n) j k

/-- Signals applied in turn add up in each gate, modulo 2³² (R91). -/
theorem State.gate_foldl_applySignal (l : List (Nat × Nat × Nat × Nat)) (s : State) (j k : Nat) :
    (l.foldl (fun t x => t.applySignal x.1 x.2.1 x.2.2.1) s).gate j k % 2 ^ 32 = (s.gate j k + incrementsTo l j k) % 2 ^ 32 := by
  induction l generalizing s with
  | nil => rfl
  | cons x l ih =>
    rw [List.foldl_cons, ih, State.gate_applySignal]
    by_cases hx : x.1 = j ∧ x.2.1 = k
    · obtain ⟨rfl, rfl⟩ := hx
      simp [incrementsTo, total, Nat.add_assoc]
    · have hne : ¬ (j = x.1 ∧ k = x.2.1) := fun e => hx ⟨e.1.symm, e.2.symm⟩
      have hskip : (x.1 = j && x.2.1 = k : Bool) = false := by simpa using hx
      simp [incrementsTo, hne, hskip]

@[simp] theorem State.applySignal_mem (s : State) (i f n : Nat) : (s.applySignal i f n).mem = s.mem := by simp [State.applySignal]

theorem State.applySignal_gateIn (s : State) (i f n : Nat) (g : Half) : ((s.applySignal i f n).half g).gateIn = (s.half g).gateIn :=
  (State.half_modHalf_keeps (π := HalfState.gateIn)
    (f := fun x => { x with strokeSignals := x.strokeSignals ++ [(i, f, n)] }) (fun _ => rfl) _ _ g).trans
    (State.setGate_keeps (π := HalfState.gateIn) (fun _ _ => rfl) s i f _ g)

theorem exec_remoteGateSignal_of_up (hup : s.siphonUp = true) :
    exec (.remoteGateSignal h) s = .next ((s.half h).gateIn.foldl (fun t x => t.applySignal x.1 x.2.1 x.2.2.1)
      (s.modHalf h fun x => { x with gateIn := [] })) :=
  congrArg Host.Outcome.next (if_pos hup)

theorem remoteGateSignal_leaves (hup : s.siphonUp = true) :
    ∃ t, exec (.remoteGateSignal h) s = .next t ∧ (t.half h).gateIn = [] ∧ t.mem = s.mem
      ∧ ∀ j k, t.gate j k % 2 ^ 32 = (s.gate j k + incrementsTo (s.half h).gateIn j k) % 2 ^ 32 := by
  refine ⟨_, exec_remoteGateSignal_of_up hup, ?_, ?_, fun j k => ?_⟩
  · rw [foldl_keeps (π := fun t : State => (t.half h).gateIn) fun t x => t.applySignal_gateIn _ _ _ h]
    simp
  · rw [State.mem_foldl fun t x => t.applySignal_mem _ _ _, State.modHalf_mem]
  · have hgate : (s.modHalf h fun x => { x with gateIn := [] }).gate j k = s.gate j k :=
      State.gate_congr (State.half_modHalf_keeps (π := HalfState.ctxs) (f := fun x => { x with gateIn := [] }) (fun _ => rfl) s h .q)
        (State.half_modHalf_keeps (π := HalfState.ctxs) (f := fun x => { x with gateIn := [] }) (fun _ => rfl) s h .k) j k
    rw [State.gate_foldl_applySignal, hgate]

/-- Settles O46, row by row. -/
theorem admissionAndCompletion : Obligations.AdmissionAndCompletion := by
  intro s h
  refine ⟨fun r rest spec p e hmay hnone hrings hcand => exec_admission_of_arbitration hmay hnone hrings hcand,
    fun g ref rest r spec p e hhere hmay hlist hring hexam hheld hwork hpass =>
      exec_admission_of_windowFirst hhere hlist hmay hring hexam hheld hwork hpass,
    fun id c hcmd htwo hnew htogether => ?mirrored, fun id c r hcmd hres hacked hquiet => ?complete,
    fun c => ⟨State.resultOf_done, State.resultOf_committed⟩, remoteGateSignal_leaves⟩
  case mirrored =>
    refine ⟨_, exec_mirroredCommand_of_twoHalf hcmd htwo hnew htogether, ?_, by simp [State.crossFor_mem]⟩
    rw [State.cmd?_crossFor]
    exact State.cmd?_setCmd hcmd (State.cmd?_id hcmd : c.id = id)
  case complete =>
    rw [exec_commandComplete_of_result hcmd hres hacked hquiet]
    refine ⟨fun hnew hacross hup => by rw [State.complete_of_across hnew hacross hup], fun hhome => ?_⟩
    rw [State.complete_of_home hhome]
    exact ⟨fun hctx => by rw [hctx], fun i hctx => by rw [hctx]⟩

end Sys2Proof.Machine
end

section
/-! # O51: notices (R26, R99, R387, R426, R468) -/

namespace Sys2Proof.Machine

variable {s : State} {h : Half} {port : Nat} {f : Frame}

theorem exec_teardownNotice_of_current (hhears : (s.half h).hears h port f 0 = true) (hdst : f.dst = (s.half h).myPos h)
    (halive : ((s.half h).ctx f.ctx).alive = true) (hgen : (s.half h).gen f.ctx = f.gen) :
    exec (.teardownNotice h port f) s = .next ((s.modHalf h fun y => y.countIn port f).teardownFrom h f.ctx false) := by
  show execTeardownNotice h port f s = _
  simp [execTeardownNotice, hhears, hdst, halive, hgen]

/-- The freeze of a NOTICE (R468). -/
def noticeArm (f : Frame) : FreezeArm :=
  { freezeId := bits f.arg 8 32, machine := true, replace := bitSet f.arg 40, stopTrace := bitSet f.arg 41 }

/-- The first copy of a freeze notice is forwarded in the plane of the half that hears it, and held (R468). -/
def State.takeFreeze (s : State) (h : Half) (port : Nat) (f : Frame) : State :=
  (s.modHalf h fun y => y.countIn port f).modHalf h fun y =>
    (y.floodFreeze h port (nearStroke (s.half h).count f.addr) (noticeArm f)).hearFreeze h (nearStroke (s.half h).count f.addr) (noticeArm f)

theorem exec_freezeNotice_of_seen (hhears : (s.half h).hears h port f 2 = true) (hseen : (noticeArm f).freezeId ∈ (s.half h).freezeSeen) :
    exec (.freezeNotice h port f) s = .next (s.modHalf h fun y => y.countIn port f) := by
  show execFreezeNotice h port f s = _
  simp only [execFreezeNotice, hhears, Bool.not_true, Bool.false_eq_true, if_false]
  exact congrArg Host.Outcome.next (if_pos (List.contains_iff_mem.2 hseen))

/-- The first copy, which also crosses the Siphon to a half that has not seen it (R468). -/
theorem exec_freezeNotice_of_first (hhears : (s.half h).hears h port f 2 = true) (hnew : (noticeArm f).freezeId ∉ (s.half h).freezeSeen) :
    exec (.freezeNotice h port f) s
      = .next (if s.siphonUp && !(s.half h.other).resetting && !(s.half h.other).freezeSeen.contains (noticeArm f).freezeId then
          ((s.takeFreeze h port f).cross h .urgent flitBytes).modHalf h.other fun y =>
            (y.floodFreeze h.other 4 (nearStroke (s.half h).count f.addr) (noticeArm f)).hearFreeze h.other
              (nearStroke (s.half h).count f.addr) (noticeArm f)
        else s.takeFreeze h port f) := by
  have hup : (s.takeFreeze h port f).siphonUp = s.siphonUp := by simp [State.takeFreeze, State.siphonUp]
  have hother : (s.takeFreeze h port f).half h.other = s.half h.other := by simp [State.takeFreeze]
  show execFreezeNotice h port f s = _
  simp only [execFreezeNotice, hhears, Bool.not_true, Bool.false_eq_true, if_false]
  rw [← hup, ← hother]
  exact congrArg Host.Outcome.next (if_neg fun hseen => hnew (List.contains_iff_mem.1 hseen))

/-- The identity of a route change: position, port and state, and the stroke of its detection (R387). -/
def routeId (f : Frame) : Nat × Nat × Nat :=
  ((noticeFact f).pos, (noticeFact f).port * 2 + (if (noticeFact f).down then 1 else 0), f.addr)

theorem exec_routeChangeNotice_of_seen (hhears : (s.half h).hears h port f 3 = true) (hseen : routeId f ∈ (s.half h).routeSeen) :
    exec (.routeChangeNotice h port f) s = .next (s.modHalf h fun y => y.countIn port f) := by
  show execRouteChangeNotice h port f s = _
  simp only [execRouteChangeNotice, hhears, Bool.not_true, Bool.false_eq_true, if_false]
  exact congrArg Host.Outcome.next (if_pos (List.contains_iff_mem.2 hseen))

theorem exec_routeChangeNotice_of_first (hhears : (s.half h).hears h port f 3 = true) (hnew : routeId f ∉ (s.half h).routeSeen) :
    exec (.routeChangeNotice h port f) s = .next (s.modHalf h fun y =>
      { ((y.countIn port f).queueRoute (nearStroke y.count f.addr) (noticeFact f)).flood h port f with
        routeSeen := y.routeSeen ++ [routeId f] }) := by
  show execRouteChangeNotice h port f s = _
  simp only [execRouteChangeNotice, hhears, Bool.not_true, Bool.false_eq_true, if_false]
  exact congrArg Host.Outcome.next (if_neg fun hseen => hnew (List.contains_iff_mem.1 hseen))

theorem exec_faultBroadcast (s : State) (h : Half) (n : Nat) : exec (.faultBroadcast h n) s = .next (s.cross h.other .urgent flitBytes) := rfl

/-- Settles O51, notice by notice. -/
theorem noticesAreTaken : Obligations.NoticesAreTaken := by
  intro s h port f
  refine ⟨exec_teardownNotice_of_current, ?freeze, exec_routeChangeNotice_of_seen, exec_routeChangeNotice_of_first, fun n => ?fault⟩
  case freeze =>
    rintro a hhears rfl
    refine ⟨exec_freezeNotice_of_seen hhears, fun hnew hdown => ?_, fun hnew hup hreset hother => ?_⟩
    · rw [exec_freezeNotice_of_first hhears hnew, if_neg (by simp [hdown])]; rfl
    · rw [exec_freezeNotice_of_first hhears hnew, if_pos (by simpa [hup, hreset, noticeArm] using hother)]; rfl
  case fault =>
    rw [exec_faultBroadcast, State.cross]
    exact ⟨fun hup => by rw [if_pos hup], fun hdown => by rw [if_neg (by simp [hdown])]⟩

end Sys2Proof.Machine
end

section
/-! # O52: the rows of the spur (R82 to R84, R358, R383) -/

namespace Sys2Proof.Machine

variable {s : State} {h : Half} {f : Frame} {i : Instr} {type : Nat} {act : State → Frame → Answer}

/-- A row of a spur transfer to a ring takes its frame from the spur (R383). -/
theorem exec_spurRow (hrow : (i, type, act) ∈ spurRows f) (s : State) : exec i s = .next (s.takeSpur f type act) := by
  simp only [spurRows, List.mem_cons, Prod.mk.injEq, List.not_mem_nil, or_false] at hrow
  obtain ⟨rfl, rfl, rfl⟩ | ⟨rfl, rfl, rfl⟩ | ⟨rfl, rfl, rfl⟩ := hrow <;> rfl

/-- The frame as its own bridge takes it in: stamped with its position, its data sealed (R349, R383). -/
def State.spurIngress (s : State) (f : Frame) : Frame :=
  { f with src := s.q.myPos .q, crc := if f.data.isEmpty then 0 else crc32c f.data }

/-- What becomes of the answer to a frame of the spur of a bridge (R380, R383). -/
def State.settleSpur (f : Frame) : Answer → State
  | .done t => t.noteFrame .q f true
  | .refuse t r => ((t.noteFrame .q f false).nackFrame .q 4 f r).occur .q srcSpurFrame none
  | .later t => t

/-- A frame of the host, in order and of the version of the bridge, is given to its row (R383). -/
theorem State.receiveSpur_of_taken (hport : s.q.portState .q 4 = 2) (hbridge : s.q.isBridge .q = true) (hreset : s.q.resetting = false)
    (htype : f.type = type) (hdst : f.dst = s.q.myPos .q) (hver : (s.spurIngress f).ver = s.q.e2eVer .q)
    (hnew : s.q.isDuplicate (s.spurIngress f).src (s.spurIngress f).seq = false) :
    s.receiveSpur f type act
      = State.settleSpur (s.spurIngress f) (act (s.modHalf .q fun y => y.countIn 4 f) (s.spurIngress f)) := by
  unfold State.receiveSpur
  dsimp only
  rw [if_neg (by simp [hport, hbridge, hreset, htype, hdst])]
  refine (if_neg (not_not.2 hver)).trans ((if_neg (Bool.eq_false_iff.1 hnew)).trans ?_)
  unfold State.spurIngress
  cases act (s.modHalf .q fun y => y.countIn 4 f)
    { f with src := s.q.myPos .q, crc := if f.data.isEmpty then 0 else crc32c f.data } <;> rfl

theorem State.takeSpur_of_own (hsrc : f.src = s.q.myPos .q) (hacross : raHalf f.addr = .k → s.siphonUp = true) :
    s.takeSpur f type act = s.receiveSpur f type act := by
  refine (if_pos hsrc).trans (if_neg ?_)
  simpa using hacross

theorem State.takeSpur_of_relayed (hsrc : f.src ≠ s.q.myPos .q) :
    s.takeSpur f type act = s.receiveRelayed (raHalf f.addr) f type act := if_neg hsrc

/-- A frame that another module's bridge passed on comes to the half it names (R383). -/
theorem State.receiveRelayed_of_taken (hport : (s.half h).portState h ((s.half h).portTowards h f.src) = 2)
    (hreset : (s.half h).resetting = false) (htype : f.type = type) (hdst : f.dst = (s.half h).myPos h) (hver : f.ver = (s.half h).e2eVer h)
    (hnew : (s.half h).isDuplicate f.src f.seq = false) :
    s.receiveRelayed h f type act = State.settleAnswer h ((s.half h).portTowards h f.src) f
      (act (s.modHalf h fun y => y.countIn ((s.half h).portTowards h f.src) f) f) := by
  unfold State.receiveRelayed
  dsimp only
  rw [if_neg (by simp [hport, hreset, htype, hdst]), if_neg (not_not.2 hver), if_neg (by simp [hnew])]

theorem exec_stream_of_spur (hblock : bitSet f.arg 16 = false) (hcredit : s.streamCredit .q 4 f = true ∨ (s.q.spurGate f).isSome = true) :
    exec (.stream .q 4 f) s = .next (s.receiveSpur f 0x7 (spurStream (takeBlock .q 4))) := by
  show execStream .q 4 f s = _
  simp [execStream, hblock, hcredit]

theorem exec_streamAbort_of_spur (habort : bitSet f.arg 16 = true) :
    exec (.streamAbort .q 4 f) s = .next (s.receiveSpur f 0x7 (spurStream (takeAbort .q 4))) := by
  show execStreamAbort .q 4 f s = _
  simp [execStreamAbort, habort]

/-- A ring write that is not acknowledged goes to the ring of a doorbell (R83). -/
def Unacked.precedes (u : Unacked) (f : Frame) : Bool :=
  u.spur.isSome && u.frame.type = 0x9 && u.frame.dst = f.dst && u.frame.mgmt = f.mgmt && u.frame.ctx = f.ctx
    && bits u.frame.addr 0 6 = bits f.addr 0 6

theorem exec_doorbellRelay_of_free (hport : s.q.portState .q 4 = 2) (hbridge : s.q.isBridge .q = true) (hreset : s.q.resetting = false)
    (htype : f.type = 0xA) (hdst : f.dst ≠ s.q.myPos .q) (hfree : ∀ u ∈ s.q.unacked ++ s.k.unacked, u.precedes f = false) :
    exec (.doorbellRelay f) s = .next (s.relaySpur f) := by
  have hq : s.q.unacked.any (·.precedes f) = false := List.any_eq_false.2 fun u hu => by simp [hfree u (List.mem_append_left _ hu)]
  have hk : s.k.unacked.any (·.precedes f) = false := List.any_eq_false.2 fun u hu => by simp [hfree u (List.mem_append_right _ hu)]
  refine congrArg Host.Outcome.next (if_neg ?_)
  rw [Bool.or_eq_true, Bool.or_eq_true]
  rintro ((hcond | hcond) | hcond)
  · simp [hport, hbridge, hreset, htype, hdst] at hcond
  · exact Bool.false_ne_true (hq.symm.trans hcond)
  · exact Bool.false_ne_true (hk.symm.trans hcond)

/-- Settles O52: the rows of the spur, by whose bridge the frame came through. -/
theorem spurRowsComplete : Obligations.SpurRowsComplete := by
  intro s f
  refine ⟨?own, ?relayed, fun hblock hcredit => exec_stream_of_spur hblock hcredit, fun habort => exec_streamAbort_of_spur habort,
    fun hport hbridge hreset htype hdst hnone => exec_doorbellRelay_of_free hport hbridge hreset htype hdst fun u hu =>
      Bool.eq_false_iff.2 fun hprecedes => hnone u hu (by simpa [Unacked.precedes, and_assoc] using hprecedes)⟩
  case own =>
    rintro g i type act b hrow hport hbridge hreset hsrc htype hdst hacross rfl rfl hver hnew
    rw [exec_spurRow hrow, State.takeSpur_of_own hsrc hacross, State.receiveSpur_of_taken hport hbridge hreset htype hdst hver hnew]
    exact ⟨fun t ht => by rw [State.spurIngress, ht]; rfl, fun t r ht => by rw [State.spurIngress, ht]; rfl⟩
  case relayed =>
    rintro i type act h port b hrow hsrc rfl rfl hport hreset htype hdst rfl hver hnew
    rw [exec_spurRow hrow, State.takeSpur_of_relayed hsrc, State.receiveRelayed_of_taken hport hreset htype hdst hver hnew]
    exact ⟨fun t ht => by rw [ht]; rfl, fun t r ht => by rw [ht]; rfl⟩

end Sys2Proof.Machine
end

section
/-! # Rules of the tiles: what counting in their registers, and replacing a sequencer, leave alone -/

namespace Sys2Proof.Machine

variable {s : State} {h : Half} {c : Cmd}

@[simp] theorem State.countTile_mem (s : State) (g block index n : Nat) : (s.countTile g block index n).mem = s.mem := s.modHalf_mem ..

@[simp] theorem State.cmd?_countTile (s : State) (g block index n id : Nat) : (s.countTile g block index n).cmd? id = s.cmd? id :=
  State.cmd?_modHalf (fun x => x.count32_cmds ..) id

@[simp] theorem State.countRetries_mem (s : State) (g n : Nat) (vxe : Bool) : (s.countRetries g n vxe).mem = s.mem := by
  unfold State.countRetries; split <;> simp

@[simp] theorem State.cmd?_countRetries (s : State) (g n : Nat) (vxe : Bool) (id : Nat) :
    (s.countRetries g n vxe).cmd? id = s.cmd? id := by
  unfold State.countRetries; split <;> simp

/-- Progress is told by the watchdogs of a command alone (R437). -/
theorem Cmd.progress_eq (c : Cmd) (home g : Half) : ∃ i j, c.progress home g = { c with idle := i, idleOther := j } := by
  unfold Cmd.progress
  split
  · exact ⟨_, _, rfl⟩
  · exact ⟨_, _, rfl⟩

@[simp] theorem Cmd.progress_id (c : Cmd) (home g : Half) : (c.progress home g).id = c.id := by
  obtain ⟨i, j, e⟩ := c.progress_eq home g; rw [e]

@[simp] theorem Cmd.progress_tiles (c : Cmd) (home g : Half) : (c.progress home g).tiles = c.tiles := by
  obtain ⟨i, j, e⟩ := c.progress_eq home g; rw [e]

@[simp] theorem Cmd.progress_done (c : Cmd) (home g : Half) : (c.progress home g).done = c.done := by
  obtain ⟨i, j, e⟩ := c.progress_eq home g; rw [e]

@[simp] theorem State.setTile_mem (s : State) (h : Half) (c : Cmd) (g : Nat) (t : TileRun) : (s.setTile h c g t).mem = s.mem :=
  s.setCmd_mem ..

/-- A sequencer that is replaced is found with its command. -/
theorem State.cmd?_setTile {k : Cmd} (hcmd : s.cmd? c.id = some (h, k)) (g : Nat) (t : TileRun) :
    (s.setTile h c g t).cmd? c.id = some (h, Cmd.progress { c with tiles := put g t c.tiles } h (tileHalf g)) :=
  State.cmd?_setCmd hcmd (Cmd.progress_id ..)

/-- A running sequencer is that of a command which has not finished. -/
theorem State.done_of_tileOf {g : Nat} {t : TileRun} (htile : s.tileOf g = some (h, c, t)) : c.done = none := by
  unfold State.tileOf at htile
  split at htile
  · split at htile
    · split at htile
      · rename_i hruns
        cases htile
        simp only [Bool.and_eq_true, Option.isNone_iff_eq_none] at hruns
        exact hruns.1.1.1
      · cases htile
    · cases htile
  · cases htile

end Sys2Proof.Machine
end

section
/-! # O20: the ops of tile programs that take effect at decode (R113, R115, R116, R127) -/

namespace Sys2Proof.Machine

variable {s : State} {h : Half} {c : Cmd} {g w : Nat} {t : TileRun}

/-- The row of a control op is its meaning, where the sequencer stands before that op. -/
theorem controlOp_of_decodes (hdec : s.decodes g h c t w) {opc : Nat} (hop : opOpc w = opc) (f : State → Half → Cmd → TileRun → Nat → State) :
    controlOp s g opc f = f s h c t w := by
  obtain ⟨t0, htile, -, hahead, hdecode⟩ := hdec
  simp [controlOp, htile, hahead, hdecode, hop]

/-- A command with the program of a tile ended after a number of cycles (R127). -/
def Cmd.endTile (c : Cmd) (h : Half) (g : Nat) (t : TileRun) (cycles : Nat) : Cmd :=
  Cmd.progress { c with tiles := put g { t with ended := true, cycles := cycles } c.tiles } h (tileHalf g)

theorem exec_tileEnd_of_drained (hdec : s.decodes g h c t w) (hop : opOpc w = 0x00) (hdrained : t.queued = []) :
    exec (.tileEnd g) s = .next (({ s with drawnFree := s.drawnFree + 1 } : State).endTiles h
      (c.endTile h g t (Config.freeWord s.drawnFree).toNat)) :=
  congrArg Host.Outcome.next ((controlOp_of_decodes hdec hop _).trans (if_pos (by simp [hdrained])))

@[simp] theorem State.endTiles_mem (s : State) (h : Half) (c : Cmd) : (s.endTiles h c).mem = s.mem := by
  unfold State.endTiles; split <;> simp

/-- The last END of a TILE_RUN ends the command (R127). -/
theorem State.ended_endTiles {k : Cmd} {id : Nat} (hcmd : s.cmd? id = some (h, k)) (hid : c.id = id)
    (hall : (c.tiles.all fun x => x.2.ended) = true) :
    (s.endTiles h c).ended id h
      (okResult c.tiles.length (greatest (c.tiles.map (·.2.cycles))) (total (c.tiles.map (·.2.conflicts)))) := by
  rw [State.endTiles, if_pos hall]
  exact State.ended_finish hcmd hid

/-- While another tile runs, the command goes on. -/
theorem State.cmd?_endTiles {k : Cmd} {id : Nat} (hcmd : s.cmd? id = some (h, k)) (hid : c.id = id)
    (hruns : (c.tiles.all fun x => x.2.ended) = false) : (s.endTiles h c).cmd? id = some (h, c) := by
  rw [State.endTiles, if_neg (Bool.eq_false_iff.1 hruns)]
  exact State.cmd?_setCmd hcmd hid

/-- Settles O20, op by op. -/
theorem tileControlOpsExecute : Obligations.TileControlOpsExecute := by
  intro s g h c t w hdec
  have row {opc : Nat} (hop : opOpc w = opc) (f : State → Half → Cmd → TileRun → Nat → State) :
      (.next (controlOp s g opc f) : Host.Outcome State Fault Refusal) = .next (f s h c t w) :=
    congrArg Host.Outcome.next (controlOp_of_decodes hdec hop f)
  refine ⟨fun hop => row hop _, fun hop hwait => (row hop _).trans ?_, fun hop hwait => (row hop _).trans ?_, fun hop => row hop _,
    fun hop => row hop _, fun hop => row hop _, fun hop hdrained => ?tileEnd⟩
  · rw [if_pos hwait]
  · rw [if_neg (Bool.eq_false_iff.1 hwait)]
  case tileEnd =>
    have ⟨_, htile, hcmd, _⟩ := hdec
    have hdone : c.done = none := State.done_of_tileOf htile
    have hid (m : Nat) : (c.endTile h g t m).id = c.id := Cmd.progress_id ..
    have htiles (m : Nat) : (c.endTile h g t m).tiles = put g { t with ended := true, cycles := m } c.tiles := Cmd.progress_tiles ..
    refine ⟨_, (Config.freeWord s.drawnFree).toNat, _, exec_tileEnd_of_drained hdec hop hdrained, State.endTiles_mem .., rfl,
      fun hall => ?last, fun hruns => ?other⟩
    case last =>
      rw [← htiles] at hall ⊢
      exact State.ended_endTiles hcmd (hid _) hall
    case other =>
      rw [← htiles] at hruns ⊢
      exact ⟨_, State.cmd?_endTiles hcmd (hid _) hruns, rfl, (Cmd.progress_done ..).trans hdone⟩

end Sys2Proof.Machine
end

section
/-! # O21: the queued ops of tile programs (R111, R113, R114) -/

namespace Sys2Proof.Machine

variable {s : State} {h : Half} {c : Cmd} {g opc queue : Nat} {t : TileRun} {op : QueuedOp} {i : Instr} {e : TileEff}
  {f : TileIn → QueuedOp → TileRun → TileEff}

/-- A row of the table runs its function on the op at the head of its queue. -/
theorem exec_tileRow (hrow : (i, opc, queue, f) ∈ tileRows g) (s : State) : exec i s = .next (tileOp s g opc queue f) := by
  have all : (tileRows g).Forall fun r => exec r.1 s = .next (tileOp s g r.2.1 r.2.2.1 r.2.2.2) :=
    ⟨rfl, rfl, rfl, rfl, rfl, rfl, rfl, rfl, rfl, rfl, rfl, rfl, rfl, rfl, rfl, rfl, rfl, rfl, rfl, rfl⟩
  exact List.forall_iff_forall_mem.1 all _ hrow

theorem tileOp_of_issues (hiss : s.issues g queue h c t op) (hop : opOpc op.word = opc) (f : TileIn → QueuedOp → TileRun → TileEff) :
    tileOp s g opc queue f = s.applyTile h c g op (f (s.tileIn h c g) op t) := by
  obtain ⟨t0, htile, -, hahead, hhead, hdeps⟩ := hiss
  simp [tileOp, htile, hahead, hhead, hop, hdeps]

/-- The retries of an op: timing, a free value (R111). -/
def State.stalls (s : State) (e : TileEff) : Nat := (Config.freeWord (s.drawnFree + e.drawn)).toNat

/-- The memory of an op takes effect, and what it did is counted. -/
def State.countEffect (s : State) (c : Cmd) (g : Nat) (op : QueuedOp) (e : TileEff) : State :=
  (((({ s.commit e.run.settle.mem with drawnFree := s.drawnFree + e.drawn + 1 } : State).countRun (attrKey c.packet) e.run.settle).countTile
    g bVXE 3 e.nonfinite).countTile g bGRU 1 e.windows).countRetries g (s.stalls e) (op.queue = 1)

/-- A command with the reports of an op merged into its own (R170). -/
def Cmd.addReports (c : Cmd) (e : TileEff) : Cmd :=
  { c with reports := e.reports.foldl (fun rs x => addReport rs x.1 x.2.1 x.2.2) c.reports }

/-- The sequencer that an op leaves behind it, out of its queue and with its retries counted. -/
def TileEff.completed (e : TileEff) (op : QueuedOp) (stalls : Nat) : TileRun :=
  { e.t.executed op with queued := e.t.queued.filter (·.seq ≠ op.seq), conflicts := e.t.conflicts + stalls }

/-- An op that is valid, and meets no damaged line, completes. -/
theorem State.applyTile_of_valid (hvalid : e.bad = false) (hwhole : e.run.settle.seals = []) (s : State) (h : Half) (c : Cmd) (g : Nat)
    (op : QueuedOp) :
    s.applyTile h c g op e = (s.countEffect c g op e).setTile h (c.addReports e) g (e.completed op (s.stalls e)) := by
  unfold State.applyTile
  dsimp only
  rw [hvalid, hwhole]
  rfl

theorem State.countEffect_mem (s : State) (c : Cmd) (g : Nat) (op : QueuedOp) (e : TileEff) :
    (s.countEffect c g op e).mem = (s.commit e.run.settle.mem).mem := by simp [State.countEffect, State.countRun_mem]

theorem State.cmd?_countEffect (s : State) (c : Cmd) (g : Nat) (op : QueuedOp) (e : TileEff) (id : Nat) :
    (s.countEffect c g op e).cmd? id = s.cmd? id := by
  rw [State.countEffect, State.cmd?_countRetries, State.cmd?_countTile, State.cmd?_countTile, State.cmd?_countRun]
  exact s.cmd?_commit _ id

/-- Settles O21: every row of the table is the same machine around a function of its own. -/
theorem tileEngineOpsExecute : Obligations.TileEngineOpsExecute := by
  intro s g h c t op i opc queue f hrow hiss hop hvalid hwhole
  have hexec : exec i s = .next (s.applyTile h c g op (f (s.tileIn h c g) op t)) := by
    rw [exec_tileRow hrow, tileOp_of_issues hiss hop]
  obtain ⟨-, -, hcmd, -⟩ := hiss
  rw [State.applyTile_of_valid hvalid hwhole] at hexec
  refine ⟨_, _, s.stalls (f (s.tileIn h c g) op t), hexec, (State.setTile_mem ..).trans (State.countEffect_mem ..),
    State.cmd?_setTile (c := c.addReports _) ((State.cmd?_countEffect ..).trans hcmd) g _, ?_⟩
  rw [Cmd.progress_tiles]
  exact find_put_same ..

end Sys2Proof.Machine
end

section
/-! # O22: TILE_PROGRAM_LOAD, TILE_RUN, and a group over its limit (R125 to R127, R129) -/

namespace Sys2Proof.Machine

variable {s : State} {id : Nat} {h : Half} {c : Cmd} {g : Nat} {t : TileRun}

/-- The tiles of a TILE_RUN with their sequencers as it starts them, from a draw of free values on (R126). -/
def startTiles (p free : Nat) : List (Nat × TileRun) :=
  ((tilesOf p).zip (List.range (tilesOf p).length)).map fun x => (x.1, startTile p x.2 (free + 2048 * x.2))

/-- The tiles of a TILE_RUN leave the program counters of what ran before, which are free values (R130). -/
def State.leavePcs (s : State) (p : Nat) : State :=
  ((tilesOf p).zip (List.range (tilesOf p).length)).foldl
    (fun (t : State) x => t.leavePc x.1 (s.drawnFree + 2048 * (tilesOf p).length + x.2)) s

theorem State.leavePcs_mem (s : State) (p : Nat) : (s.leavePcs p).mem = s.mem :=
  State.mem_foldl (fun t _ => t.modHalf_mem ..) _ s

theorem State.cmd?_leavePcs (s : State) (p id : Nat) : (s.leavePcs p).cmd? id = s.cmd? id :=
  State.cmd?_foldl id (fun _ _ => State.cmd?_modHalf (fun x => x.setCell_cmds ..) id) _ s

theorem exec_tileRun_of_runs (hrun : s.runs id h c 0x0202) :
    exec (.tileRun id) s
      = .next (({ s.leavePcs c.packet with drawnFree := s.drawnFree + 2049 * (tilesOf c.packet).length } : State).setCmd h
          { c with tiles := startTiles c.packet s.drawnFree, waiting := true }) :=
  congrArg Host.Outcome.next (onCommand_runs hrun rfl)

theorem exec_groupOverLimit_of_open (htile : s.tileOf g = some (h, c, t)) (hopen : (t.open0 || t.open1) = true)
    (hspill : pl c.packet 414 1 = 0) (hlimit : bits (c.tileReg h g bMXE 0) 0 8 ≠ 0) :
    exec (.groupOverLimit g) s
      = .next ((s.countTile g bMXE 3 1).occur (tileHalf g) (dieSourceNum (g / 48 % 4) 0x72) c.ctx) := by
  show execGroupOverLimit g s = _
  rw [execGroupOverLimit, htile]
  exact congrArg Host.Outcome.next (if_pos (by simp [hopen, hspill, hlimit]))

/-- Settles O22: the run of a load is applied as any other, and a TILE_RUN is put back with its tiles started. -/
theorem tileCommandsComplete : Obligations.TileCommandsComplete := by
  intro s id h c
  refine ⟨?load, fun hrun => ?run, fun g t => exec_groupOverLimit_of_open⟩
  case load =>
    rintro _ _ hrun rfl rfl hclean
    exact ⟨_, congrArg Host.Outcome.next (onCommand_runs hrun rfl), State.applyRun_mem hclean,
      State.applyRun_ended hclean hrun.1 (State.cmd?_id hrun.1)⟩
  case run =>
    have ⟨hcmd, _, hdone, _⟩ := hrun
    have hid : c.id = id := State.cmd?_id hcmd
    have hfound := (s.cmd?_leavePcs c.packet id).trans hcmd
    exact ⟨_, _, exec_tileRun_of_runs hrun, (State.setCmd_mem ..).trans (s.leavePcs_mem c.packet),
      State.cmd?_setCmd hfound hid, rfl, hdone, rfl⟩

end Sys2Proof.Machine
end

section
/-! # What leaves memory undefined, and what does not: veiled ranges, and the lines of Wellheads behind which memory lies (R134, R303) -/

namespace Sys2Proof.Machine

variable {s : State} {m new : Mem} {a i n : Nat}

/-! ## Folds over lists -/

/-- A fold whose every turn on an element of the list keeps a part of its value keeps that part. -/
theorem foldl_keeps_of_mem {α β γ : Type} {π : β → γ} {f : β → α → β} {l : List α} (hf : ∀ x ∈ l, ∀ b, π (f b x) = π b) (b : β) :
    π (l.foldl f b) = π b :=
  List.foldlRecOn l f (motive := fun d => π d = π b) rfl fun d hd x hx => (hf x hx d).trans hd

/-- What one turn of a fold brings about and no turn undoes holds after the fold. -/
theorem foldl_of_turn {α β : Type} {P : β → Prop} {f : β → α → β} {l : List α} {x : α} (hx : x ∈ l) (hturn : ∀ b, P (f b x))
    (hkeep : ∀ b y, P b → P (f b y)) (b : β) : P (l.foldl f b) := by
  obtain ⟨before, after, rfl⟩ := List.append_of_mem hx
  rw [List.foldl_append, List.foldl_cons]
  exact List.foldlRecOn after f (hturn _) fun d hd y _ => hkeep d y hd

/-! ## Bytes read and put back -/

@[simp] theorem Mem.bytes_length (m : Mem) (a n : Nat) : (m.bytes a n).length = n := by
  induction n generalizing a with
  | zero => rfl
  | succ n ih => simp [Mem.bytes, ih]

theorem Mem.getElem_bytes (m : Mem) (a : Nat) (hi : i < (m.bytes a n).length) : (m.bytes a n)[i] = (m.byte (a + i)).toNat := by
  induction n generalizing a i with
  | zero => simp at hi
  | succ n ih =>
    cases i with
    | zero => rfl
    | succ i => exact (ih (a + 1) (by simpa using hi)).trans (by rw [Nat.add_right_comm, Nat.add_assoc])

/-- A block put back reads as in the older memory, and nothing else changes. -/
theorem Mem.byte_putBack (m old : Mem) (a n i : Nat) :
    (m.putBack old a n).byte i = if a ≤ i ∧ i < a + n then old.byte i else m.byte i := by
  have hwrite : (m.putBack old a n).byte i = (m.write a (old.bytes a n)).byte i := by
    unfold Mem.putBack; split <;> rfl
  rw [hwrite]
  split
  · obtain ⟨d, rfl⟩ := Nat.exists_eq_add_of_le (‹_› : a ≤ i ∧ i < a + n).1
    rw [Mem.byte_write_inside (by simp; omega), Mem.getElem_bytes, BitVec.ofNat_toNat, BitVec.setWidth_eq]
  · exact Mem.byte_write_outside (by simp; omega)

theorem Mem.byte_putPart_outside {bs : List Nat} (ok : Bool) (hout : i < a ∨ a + bs.length ≤ i) : (m.putPart a bs ok).byte i = m.byte i := by
  have hwrite : (m.putPart a bs ok).byte i = (m.write a bs).byte i := by
    unfold Mem.putPart; split
    · rfl
    · dsimp only; split <;> rfl
  exact hwrite.trans (Mem.byte_write_outside hout)

/-! ## The lines of the Wellheads -/

/-- Does a line of a Wellhead hold the byte at an address in place of the memories? -/
def State.lined (s : State) (a : Nat) : Prop := ∃ l ∈ s.lines, ∃ p ∈ l.places, p.1 ≤ a ∧ a < p.1 + p.2

/-- A part of a copy lies within its place. -/
theorem place_of_mem_copyParts {ps : List (Nat × Nat)} {bs ss : List Nat} {q : Nat × List Nat × Bool} (hq : q ∈ copyParts ps bs ss) :
    ∃ p ∈ ps, p.1 = q.1 ∧ q.2.1.length ≤ p.2 := by
  induction ps generalizing bs ss with
  | nil => cases hq
  | cons p ps ih =>
    rcases List.mem_cons.1 hq with rfl | hq
    · exact ⟨p, List.mem_cons_self .., rfl, by simp⟩
    · obtain ⟨r, hr, hplace⟩ := ih hq
      exact ⟨r, List.mem_cons_of_mem _ hr, hplace⟩

/-- Where no line holds a byte, requesters read that of the memories. -/
theorem State.byte_view_of_not_lined (hfree : ¬ s.lined a) : s.view.byte a = s.mem.byte a := by
  refine foldl_keeps_of_mem (π := fun m : Mem => m.byte a) (fun l hl m => ?_) s.mem
  refine foldl_keeps_of_mem (π := fun m : Mem => m.byte a) (fun q hq m => ?_) m
  obtain ⟨p, hp, hplace, hlength⟩ := place_of_mem_copyParts hq
  refine Mem.byte_putPart_outside _ ?_
  by_contra hin
  exact hfree ⟨l, hl, p, hp, by omega, by omega⟩

/-- Where no line holds a byte, what is written goes to the memories. -/
theorem State.byte_commit_of_not_lined (hfree : ¬ s.lined a) (new : Mem) : (s.commit new).mem.byte a = new.byte a := by
  refine foldl_keeps_of_mem (π := fun m : Mem => m.byte a) (fun l hl m => ?_) new
  refine foldl_keeps_of_mem (π := fun m : Mem => m.byte a) (fun p hp m => ?_) m
  exact (Mem.byte_putBack ..).trans (if_neg fun hin => hfree ⟨l, hl, p, hp, hin⟩)

/-- Behind a line the memories stay as they are (R303). -/
theorem State.byte_commit_of_lined (hlined : s.lined a) (new : Mem) : (s.commit new).mem.byte a = s.mem.byte a := by
  obtain ⟨l, hl, p, hp, hin⟩ := hlined
  have hkeep (m : Mem) (p : Nat × Nat) (hm : m.byte a = s.mem.byte a) : (m.putBack s.mem p.1 p.2).byte a = s.mem.byte a := by
    rw [Mem.byte_putBack, hm, ite_self]
  refine foldl_of_turn (P := fun m : Mem => m.byte a = s.mem.byte a) hl (fun m => ?_) (fun m k hm => ?_) new
  · exact foldl_of_turn (P := fun m : Mem => m.byte a = s.mem.byte a) hp (fun m => (Mem.byte_putBack ..).trans (if_pos hin)) hkeep m
  · exact List.foldlRecOn k.places _ (motive := fun m : Mem => m.byte a = s.mem.byte a) hm fun m hm p _ => hkeep m p hm

/-- What every requester reads as before is in the memories as before. -/
theorem State.byte_commit_of_view (hview : new.byte a = s.view.byte a) : (s.commit new).mem.byte a = s.mem.byte a := by
  by_cases hlined : s.lined a
  · exact State.byte_commit_of_lined hlined new
  · rw [State.byte_commit_of_not_lined hlined, hview, State.byte_view_of_not_lined hlined]

/-! ## Undefined ranges -/

/-- Staging lines and TRF that become undefined leave every other byte alone. -/
theorem State.byte_unstage {tiles : List Nat} {line lines : Nat} (hout : ¬ staged tiles line lines a) :
    (s.unstage tiles line lines).mem.byte a = s.mem.byte a := by
  refine foldl_keeps_of_mem (π := fun m : Mem => m.byte a) (fun g hg m => ?_) s.mem
  have hstage : ¬ (tstOfTile g (64 * line) ≤ a ∧ a < tstOfTile g (64 * (line + lines))) := fun h => hout ⟨g, hg, .inl h⟩
  have htrf : ¬ (trfOfTile g 0 ≤ a ∧ a < trfOfTile g 262144) := fun h => hout ⟨g, hg, .inr h⟩
  exact (Mem.byte_veil_outside (by omega)).trans (Mem.byte_veil_outside (by omega))

/-- A scratch area that becomes undefined leaves every other byte alone. -/
theorem State.byte_veilRange {e : Env} {cxa : Nat} (hout : ¬ scratched e cxa n a) :
    (s.veilRange e cxa n).mem.byte a = s.mem.byte a := by
  refine State.byte_commit_of_view (foldl_keeps_of_mem (π := fun m : Mem => m.byte a) (fun p hp m => ?_) s.view)
  split
  · rename_i dpa hhere
    exact Mem.byte_veil_outside (by by_contra hin; exact hout ⟨p, hp, dpa, hhere, by omega, by omega⟩)
  · rfl

theorem State.cmd?_veilRange (s : State) (e : Env) (cxa n id : Nat) : (s.veilRange e cxa n).cmd? id = s.cmd? id := rfl

end Sys2Proof.Machine
end

section
/-! # O25: MATMUL, and the fold of a capture (R131 to R134, R215) -/

namespace Sys2Proof.Machine

variable {s : State} {id : Nat} {h : Half} {c k : Cmd} {r : Run} {e : Env} {ok : Run → Result}

/-! ## What is counted after a product -/

@[simp] theorem State.countStalls_mem (s : State) (vxe : Bool) (tiles : List Nat) : (s.countStalls vxe tiles).mem = s.mem := by
  induction tiles generalizing s with
  | nil => rfl
  | cons g tiles ih => rw [State.countStalls, ih, State.countRetries_mem]

@[simp] theorem State.cmd?_countStalls (s : State) (vxe : Bool) (tiles : List Nat) (id : Nat) :
    (s.countStalls vxe tiles).cmd? id = s.cmd? id := by
  induction tiles generalizing s with
  | nil => rfl
  | cons g tiles ih => rw [State.countStalls, ih, State.cmd?_countRetries]; rfl

@[simp] theorem State.countMovers_mem (s : State) (index : Nat) (parts : List (Nat × Nat)) : (s.countMovers index parts).mem = s.mem :=
  State.mem_foldl (fun t _ => t.modHalf_mem ..) parts s

@[simp] theorem State.cmd?_countMovers (s : State) (index : Nat) (parts : List (Nat × Nat)) (id : Nat) :
    (s.countMovers index parts).cmd? id = s.cmd? id :=
  State.cmd?_foldl id (fun _ _ => State.cmd?_modHalf (fun x => x.count32_cmds ..) id) parts s

@[simp] theorem State.countOob_mem (s : State) (movers : List Nat) (fills drops : Nat) : (s.countOob movers fills drops).mem = s.mem := by
  simp [State.countOob]

@[simp] theorem State.cmd?_countOob (s : State) (movers : List Nat) (fills drops id : Nat) :
    (s.countOob movers fills drops).cmd? id = s.cmd? id :=
  (State.cmd?_countMovers ..).trans (State.cmd?_countMovers ..)

theorem State.cmd?_afterTiles (s : State) (p : Nat) (vxe : Bool) (t : WriteTally) (line lines id : Nat) :
    (s.afterTiles p vxe t line lines).cmd? id = s.cmd? id :=
  (State.cmd?_countOob ..).trans ((State.cmd?_foldl id (fun _ _ => State.cmd?_countTile ..) _ _).trans (State.cmd?_countStalls ..))

/-- Only staging lines and TRF of its tiles are undefined after a command that used them (R134, R152). -/
theorem State.byte_afterTiles {p line lines a : Nat} (hout : ¬ staged (tilesOf p) line lines a) (s : State) (vxe : Bool) (t : WriteTally) :
    (s.afterTiles p vxe t line lines).mem.byte a = s.mem.byte a := by
  rw [State.afterTiles, State.byte_unstage hout, State.countOob_mem, State.mem_foldl (fun _ _ => State.countTile_mem ..),
    State.countStalls_mem]

/-! ## Runs that nothing stopped -/

@[simp] theorem Run.halt_need (r : Run) (res : Result) : (r.halt res).need = r.need := by unfold Run.halt; split <;> rfl

/-- What a run needs of other modules is known before it settles. -/
@[simp] theorem Run.settle_need (r : Run) : r.settle.need = r.need := by
  unfold Run.settle
  dsimp only
  split
  · exact Run.halt_need ..
  · rfl

theorem Run.clean.need_eq_nil (hclean : r.clean) : r.need = [] := r.settle_need.symm.trans hclean.2.1

/-- A run that nothing stopped leaves its command finished, with its partials as it was given (R215). -/
theorem State.cmd?_applyRun (hclean : r.clean) (hcmd : s.cmd? id = some (h, k)) (hid : c.id = id) :
    ∃ d, (s.applyRun h c e r ok).cmd? id = some (h, d) ∧ d.done = some (ok r.settle) ∧ d.partials = c.partials := by
  rw [State.applyRun_clean hclean]
  exact ⟨_, State.cmd?_finish ((State.cmd?_countRun ..).trans hcmd) hid, rfl, rfl⟩

/-! ## The product (R131 to R134) -/

/-- The module after a MATMUL has drawn the counts of updates that other modules perform (R136). -/
def State.drawFar (s : State) : State := { s with drawnFree := s.drawnFree + 2 }

/-- The counts of a MATMUL (R136). -/
def matmulTally (s : State) (h : Half) (c : Cmd) : WriteTally :=
  (matmulRun s.drawFar h c).2.1.far (matmulRun s.drawFar h c).1 s.drawnFree

/-- The result of a MATMUL (R136). -/
def matmulResult (s : State) (h : Half) (c : Cmd) : Result :=
  okResult (matmulTally s h c).saturated (matmulTally s h c).nans (matmulTally s h c).drops

theorem isError_okResult (d0 d1 d2 : Nat) : isError (okResult d0 d1 d2).status = false := by
  show isError stOk = false
  decide

/-- The module after the batches of a MATMUL, before anything is said of a capture. -/
def State.afterProduct (s : State) (h : Half) (c : Cmd) : State :=
  (s.drawFar.applyRun h { c with reports := (matmulTally s h c).reports } (s.envCmd h c) (matmulRun s.drawFar h c).1 fun _ =>
    matmulResult s h c).afterTiles c.packet false (matmulTally s h c) (mmStage c.packet) 10240

/-- The windows of a capture are counted on the tiles that complete them (R215). -/
def State.countWindows (s : State) (p batch : Nat) : State :=
  (captureWindows p batch).foldl (fun t w => t.countTile w.1 bGRU 1 w.2) s

theorem State.countWindows_mem (s : State) (p batch : Nat) : (s.countWindows p batch).mem = s.mem :=
  State.mem_foldl (fun _ _ => State.countTile_mem ..) _ s

theorem State.cmd?_countWindows (s : State) (p batch id : Nat) : (s.countWindows p batch).cmd? id = s.cmd? id :=
  State.cmd?_foldl id (fun _ _ => State.cmd?_countTile ..) _ s

/-- A MATMUL whose product has ended goes on to its fold: it holds its result and its partials (R215). -/
def Cmd.captured (k : Cmd) (res : Result) (ps : List Nat) : Cmd :=
  { k with done := none, waiting := true, held := some res, partials := some ps }

theorem State.ended_afterProduct (hclean : (matmulRun s.drawFar h c).1.clean) (hcmd : s.cmd? c.id = some (h, c)) :
    (s.afterProduct h c).ended c.id h (matmulResult s h c) := by
  obtain ⟨d, hd, hdone⟩ := State.applyRun_ended (s := s.drawFar) (c := { c with reports := (matmulTally s h c).reports })
    (e := s.envCmd h c) (ok := fun _ => matmulResult s h c) hclean hcmd rfl
  exact ⟨d, (State.cmd?_afterTiles ..).trans hd, hdone⟩

theorem State.byte_afterProduct {a : Nat} (hclean : (matmulRun s.drawFar h c).1.clean)
    (hout : ¬ staged (tilesOf c.packet) (mmStage c.packet) 10240 a) :
    (s.afterProduct h c).mem.byte a = (s.commit (matmulRun s.drawFar h c).1.settle.mem).mem.byte a := by
  rw [State.afterProduct, State.byte_afterTiles hout, State.applyRun_mem hclean]
  rfl

section
variable (hinside : (c.desc 2).refuse = false ∨ (c.desc 2).anyOutside (fmtBytes (mmFmtC c.packet)) = false)
  (hclean : (matmulRun s.drawFar h c).1.clean)
include hinside hclean

/-- A MATMUL is not refused, and its product needs nothing of other modules. -/
theorem matmul_goes_on : ¬ ((c.desc 2).refuse && (c.desc 2).anyOutside (fmtBytes (mmFmtC c.packet))) = true
    ∧ ¬ (!(matmulRun s.drawFar h c).1.need.isEmpty) = true :=
  ⟨by rcases hinside with hno | hno <;> simp [hno], by simp [hclean.need_eq_nil]⟩

theorem runMatmul_of_plain (hplain : mmCapture c.packet = false) : runMatmul s h c = s.afterProduct h c := by
  obtain ⟨haccepted, hneed⟩ := matmul_goes_on hinside hclean
  exact (if_neg haccepted).trans ((if_neg hneed).trans (if_pos (by simp [hplain])))

theorem runMatmul_of_capture (hcapture : mmCapture c.packet = true) {res : Result}
    (hk : (s.afterProduct h c).cmd? c.id = some (h, k)) (hdone : k.done = some res) (hok : isError res.status = false) :
    runMatmul s h c = ((s.afterProduct h c).countWindows c.packet (c.desc 0).batch).setCmd h
      (k.captured res (matmulRun s.drawFar h c).2.2) := by
  obtain ⟨haccepted, hneed⟩ := matmul_goes_on hinside hclean
  refine (if_neg haccepted).trans ((if_neg hneed).trans ((if_neg (by simp [hcapture])).trans ?_))
  change (match (s.afterProduct h c).cmd? c.id with | some (g, k) => _ | none => _) = _
  rw [hk]
  dsimp only
  rw [hdone]
  exact if_neg (by simp [hok])

end

/-! ## The fold (R215) -/

/-- The addresses of a fold: those of its command, from the half of the die that folds. -/
def State.foldEnv (s : State) (h : Half) (c : Cmd) (die : Nat) : Env := { s.envCmd h c with part := Half.ofPart (die / 4) }

/-- The partials of a capture, cut into the sets of its panels. -/
def foldSets (p : Nat) (ps : List Nat) : List (List Nat) := chunks (max (cpBlocks p * (triPairs (cpEdge p)).length) 1) ps

/-- The run of a fold. -/
def foldRun (s : State) (h : Half) (c : Cmd) (die : Nat) (ps : List Nat) : Run :=
  foldGram (s.foldEnv h c die) c.packet (foldSets c.packet ps) { mem := s.view }

/-- Is a capturing MATMUL to be folded by the CSE of a die? -/
def foldedBy (die : Nat) (c : Half × Cmd) : Bool :=
  c.2.partials.isSome && c.2.done.isNone && c.2.phase = .running && (tileSpan c.2.packet).1 / 48 = die

theorem exec_captureFold_of_clean {die : Nat} {ps : List Nat} (hfind : s.allCmds.find? (foldedBy die) = some (h, c))
    (hps : c.partials = some ps) (hclean : (foldRun s h c die ps).clean) :
    exec (.captureFold die) s
      = .next ((s.applyRun h { c with partials := none } (s.foldEnv h c die) (foldRun s h c die ps) fun _ =>
          c.held.getD (okResult 0 0 0)).veilRange (s.foldEnv h c die) (cpPart c.packet)
            (triBytes (cpEdge c.packet) * cpBlocks c.packet * (foldSets c.packet ps).length)) := by
  have hneed : ¬ (!(foldRun s h c die ps).need.isEmpty) = true := by simp [hclean.need_eq_nil]
  have hsets : ps = c.partials.getD [] := by simp [hps]
  show Host.Outcome.next (match s.allCmds.find? (foldedBy die) with | some (h, c) => _ | none => s) = _
  rw [hfind]
  subst hsets
  exact congrArg Host.Outcome.next (if_neg hneed)

/-- Settles O25: the product ends its command unless it captures, and the fold ends what the product held. -/
theorem matmulCompletes : Obligations.MatmulCompletes := by
  refine ⟨?product, ?fold⟩
  case product =>
    intro s s1 id h c n hrun hnew hs1 hn hinside hclean
    obtain rfl : s1 = s.drawFar := hs1
    obtain rfl : n = matmulTally s h c := hn
    obtain rfl : c.id = id := State.cmd?_id hrun.1
    have hended := State.ended_afterProduct hclean hrun.1
    have hexec : exec (.matmul c.id) s = .next (runMatmul s h c) :=
      congrArg Host.Outcome.next (onCommand_runs hrun (by simp [hnew]))
    cases hcapture : mmCapture c.packet with
    | false =>
      rw [runMatmul_of_plain hinside hclean hcapture] at hexec
      exact ⟨_, _, hexec, rfl, fun a hout => State.byte_afterProduct hclean hout, fun _ => hended, nofun⟩
    | true =>
      obtain ⟨k, hk, hdone⟩ := hended
      rw [runMatmul_of_capture hinside hclean hcapture hk hdone (isError_okResult ..)] at hexec
      have hcounted := (State.cmd?_countWindows (s.afterProduct h c) c.packet (c.desc 0).batch c.id).trans hk
      refine ⟨_, _, hexec, rfl, fun a hout => ?_, nofun, fun _ =>
        ⟨k.captured _ _, State.cmd?_setCmd hcounted (State.cmd?_id hk : k.id = c.id), rfl, rfl, rfl, rfl⟩⟩
      rw [State.setCmd_mem, State.countWindows_mem]
      exact State.byte_afterProduct hclean hout
  case fold =>
    intro s die h c ps r hfind hcmd hps hr hclean
    obtain rfl : r = foldRun s h c die ps := hr
    obtain ⟨d, hd, hdone, hpartials⟩ := State.cmd?_applyRun (c := { c with partials := none }) (e := s.foldEnv h c die)
      (ok := fun _ => c.held.getD (okResult 0 0 0)) hclean hcmd rfl
    refine ⟨_, d, exec_captureFold_of_clean hfind hps hclean, (State.cmd?_veilRange ..).trans hd, hdone, hpartials,
      fun a hout => (State.byte_veilRange hout).trans ?_⟩
    rw [State.applyRun_mem hclean]

end Sys2Proof.Machine
end

section
/-! # O24: VECTOR (R150 to R154), and its refusal under REFUSE (R191) -/

namespace Sys2Proof.Machine

variable {s : State} {id : Nat} {h : Half} {c : Cmd} {t : Nat × Nat × Desc} {reports : List (Nat × Nat × Nat)}

/-! ## Which tensors refuse -/

/-- Is a tensor of a VECTOR a destination under REFUSE with an element out of bounds (R191)? -/
def refusesVector (p : Nat) (t : Nat × Nat × Desc) : Bool :=
  t.2.1 = 3 && t.2.2.refuse && t.2.2.anyOutside (fmtBytes (vuFmt p t.1 3))

theorem refusesVector_iff {p : Nat} :
    refusesVector p t = true ↔ t.2.1 = 3 ∧ t.2.2.refuse = true ∧ t.2.2.anyOutside (fmtBytes (vuFmt p t.1 3)) = true := by
  simp [refusesVector, and_assoc]

/-- The first tensor of a VECTOR that refuses, which its result names. -/
def refusingTensor (c : Cmd) : Option (Nat × Nat × Desc) := (vectorDescs c).find? (refusesVector c.packet)

/-! ## The two ends of a VECTOR -/

/-- The counts of a VECTOR, with those of updates that other modules perform (R154). -/
def vectorTally (s : State) (h : Half) (c : Cmd) : WriteTally :=
  (vectorRun s.drawFar h c).2.far (vectorRun s.drawFar h c).1 s.drawnFree

/-- The result of a VECTOR (R154). -/
def vectorResult (s : State) (h : Half) (c : Cmd) : Result :=
  okResult (vectorTally s h c).saturated (vectorTally s h c).nans (vectorTally s h c).drops

/-- The module after the elements of a VECTOR, with what it reports; its staging lines and TRF are left undefined (R152). -/
def State.afterVector (s : State) (h : Half) (c : Cmd) (reports : List (Nat × Nat × Nat)) : State :=
  (s.drawFar.applyRun h { c with reports := reports } (s.envCmd h c) (vectorRun s.drawFar h c).1 fun _ =>
    vectorResult s h c).afterTiles c.packet true (vectorTally s h c) (vuStage c.packet) 2048

theorem runVector_of_accepted (haccepted : refusingTensor c = none) (hclean : (vectorRun s.drawFar h c).1.clean) :
    runVector s h c = s.afterVector h c (vectorTally s h c).reports := by
  have hneed : (vectorRun s.drawFar h c).1.need.isEmpty = true := by simp [hclean.need_eq_nil]
  change (match refusingTensor c with | some t => _ | none => _) = _
  rw [haccepted]
  exact (if_pos hneed).trans (congrArg (s.afterVector h c) (if_pos hneed))

theorem runVector_of_refused (hrefused : refusingTensor c = some t) :
    runVector s h c = s.finish h c (boundsResult (512 * (t.1 + 1) + 224)) := by
  change (match refusingTensor c with | some t => _ | none => _) = _
  rw [hrefused]

theorem exec_vector_of_runs (hrun : s.runs id h c 0x0204) : exec (.vector id) s = .next (runVector s h c) :=
  congrArg Host.Outcome.next (onCommand_runs hrun rfl)

theorem State.ended_afterVector (hclean : (vectorRun s.drawFar h c).1.clean) (hcmd : s.cmd? c.id = some (h, c)) :
    (s.afterVector h c reports).ended c.id h (vectorResult s h c) := by
  obtain ⟨d, hd, hdone⟩ := State.applyRun_ended (s := s.drawFar) (c := { c with reports := reports })
    (e := s.envCmd h c) (ok := fun _ => vectorResult s h c) hclean hcmd rfl
  exact ⟨d, (State.cmd?_afterTiles ..).trans hd, hdone⟩

theorem State.byte_afterVector {a : Nat} (hclean : (vectorRun s.drawFar h c).1.clean)
    (hout : ¬ staged (tilesOf c.packet) (vuStage c.packet) 2048 a) :
    (s.afterVector h c reports).mem.byte a = (s.commit (vectorRun s.drawFar h c).1.settle.mem).mem.byte a := by
  rw [State.afterVector, State.byte_afterTiles hout, State.applyRun_mem hclean]
  rfl

/-- Settles O24: a VECTOR that no tensor refuses ends with its counts, and the first tensor that refuses ends it with memory as it was. -/
theorem vectorCompletes : Obligations.VectorCompletes := by
  intro s s1 id h c hrun hs1
  obtain rfl : s1 = s.drawFar := hs1
  have hcmd : s.cmd? id = some (h, c) := hrun.1
  obtain rfl : c.id = id := State.cmd?_id hcmd
  have hexec := exec_vector_of_runs hrun
  refine ⟨fun t ht hclean hinside => ?accepted, fun hoob => ?refused⟩
  case accepted =>
    obtain rfl : t = vectorTally s h c := ht
    have haccepted : refusingTensor c = none := List.find?_eq_none.2 fun t ht hrefuses => by
      obtain ⟨hdest, hrefuse, houtside⟩ := refusesVector_iff.1 hrefuses
      simp [hinside t ht hdest hrefuse] at houtside
    rw [runVector_of_accepted haccepted hclean] at hexec
    exact ⟨_, hexec, State.ended_afterVector hclean hcmd, fun a hout => State.byte_afterVector hclean hout⟩
  case refused =>
    obtain ⟨t, ht, hrefuses⟩ := hoob
    obtain ⟨first, hfirst⟩ := Option.isSome_iff_exists.1 (List.find?_isSome.2 ⟨t, ht, refusesVector_iff.2 hrefuses⟩)
    rw [runVector_of_refused hfirst] at hexec
    exact ⟨_, _, hexec, State.ended_finish hcmd rfl, State.finish_mem ..⟩

end Sys2Proof.Machine
end

section
/-! # O19: one entry of a SCALE_LOAD (R171, R173, R174)

An entry is a fold over the slots it names, and each turn of the fold is one slot in every half of the footprint. -/

namespace Sys2Proof.Machine

variable {s : State} {ctx footprint : Nat} {merged : Bool} {f : ScaleSlot → ScaleSlot} {g : Half} {i n v : Nat}

/-! ## One slot of a half -/

/-- Write one slot of a context. -/
def Ctx.setSlot (c : Ctx) (n : Nat) (y : ScaleSlot) : Ctx := { c with scales := put n y c.scales }

@[simp] theorem Ctx.setSlot_footprint (c : Ctx) (n : Nat) (y : ScaleSlot) : (c.setSlot n y).footprint = c.footprint := rfl

theorem Ctx.scale_setSlot (c : Ctx) (n m : Nat) (y : ScaleSlot) : (c.setSlot n y).scale m = if m = n then y else c.scale m := by
  unfold Ctx.scale Ctx.setSlot
  split
  · next heq => rw [heq, find_put_same]; rfl
  · next hne => rw [find_put_other hne]

/-- Change one slot of a half's copy of a context. -/
def HalfState.modSlot (x : HalfState) (ctx n : Nat) (φ : ScaleSlot → ScaleSlot) : HalfState :=
  x.modCtx ctx fun c => c.setSlot n (φ (c.scale n))

theorem HalfState.ctx_modSlot (x : HalfState) (ctx n : Nat) (φ : ScaleSlot → ScaleSlot) (i : Nat) :
    (x.modSlot ctx n φ).ctx i = if i = ctx then (x.ctx ctx).setSlot n (φ ((x.ctx ctx).scale n)) else x.ctx i :=
  HalfState.ctx_modCtx (fun _ => by rfl) i

theorem HalfState.scale_modSlot (x : HalfState) (ctx n : Nat) (φ : ScaleSlot → ScaleSlot) (i m : Nat) :
    ((x.modSlot ctx n φ).ctx i).scale m = if i = ctx ∧ m = n then φ ((x.ctx ctx).scale n) else (x.ctx i).scale m := by
  rw [HalfState.ctx_modSlot]
  by_cases hi : i = ctx
  · subst hi; simp [Ctx.scale_setSlot]
  · simp [hi]

@[simp] theorem HalfState.footprint_modSlot (x : HalfState) (ctx n : Nat) (φ : ScaleSlot → ScaleSlot) (i : Nat) :
    ((x.modSlot ctx n φ).ctx i).footprint = (x.ctx i).footprint := by
  rw [HalfState.ctx_modSlot]
  split
  · next hi => rw [hi, Ctx.setSlot_footprint]
  · rfl

/-! ## One slot in every half of the footprint -/

/-- The value from which an operation starts in a half: the half's own copy, merged with the other half's where the footprint holds both
and the operation asks for it (R173). -/
def State.slotStart (s : State) (ctx footprint : Nat) (merged : Bool) (g : Half) (n : Nat) : ScaleSlot :=
  if footprint = 3 ∧ merged = true then (((s.half g).ctx ctx).scale n).merge (((s.half g.other).ctx ctx).scale n)
  else ((s.half g).ctx ctx).scale n

/-- Apply an operation to one slot in every half of the footprint. -/
def State.applySlot (s : State) (ctx footprint : Nat) (merged : Bool) (f : ScaleSlot → ScaleSlot) (n : Nat) : State :=
  s.onHalves (footprintHalves footprint) fun g x => x.modSlot ctx n fun mine =>
    f (if footprint = 3 && merged then mine.merge (((s.half g.other).ctx ctx).scale n) else mine)

theorem State.scaleApply_eq (s : State) (ctx footprint v : Nat) (merged : Bool) (f : ScaleSlot → ScaleSlot) :
    s.scaleApply ctx footprint v merged f = (slSlots v).foldl (fun t n => t.applySlot ctx footprint merged f n) s := rfl

theorem State.scale_applySlot (s : State) (ctx footprint : Nat) (merged : Bool) (f : ScaleSlot → ScaleSlot) (n : Nat) (g : Half)
    (i m : Nat) : (((s.applySlot ctx footprint merged f n).half g).ctx i).scale m
      = if inFootprint footprint g = true ∧ i = ctx ∧ m = n then f (s.slotStart ctx footprint merged g n)
        else ((s.half g).ctx i).scale m := by
  simp only [State.applySlot, State.onHalves_half (footprintHalves_nodup _), mem_footprintHalves]
  by_cases hin : inFootprint footprint g = true
  · simp [hin, HalfState.scale_modSlot, State.slotStart]
  · simp [hin]

/-- An operation on one slot leaves what the others start from alone. -/
theorem State.slotStart_applySlot_other {m : Nat} (hne : m ≠ n) :
    (s.applySlot ctx footprint merged f n).slotStart ctx footprint merged g m = s.slotStart ctx footprint merged g m := by
  simp [State.slotStart, State.scale_applySlot, hne]

/-! ## All the slots that an entry names -/

theorem slSlots_eq_range' (v : Nat) : slSlots v = List.range' (slSlot v) (slCount v) := List.range'_eq_map_range.symm

theorem slSlots_nodup (v : Nat) : (slSlots v).Nodup := by rw [slSlots_eq_range']; exact List.nodup_range'

theorem mem_slSlots : n ∈ slSlots v ↔ slSlot v ≤ n ∧ n < slSlot v + slCount v := by rw [slSlots_eq_range', List.mem_range'_1]

/-- Slots that are named once each are changed each on its own. -/
theorem State.scale_foldl_applySlot {l : List Nat} (hl : l.Nodup) (s : State) (ctx footprint : Nat) (merged : Bool)
    (f : ScaleSlot → ScaleSlot) (g : Half) (i n : Nat) :
    (((l.foldl (fun t a => t.applySlot ctx footprint merged f a) s).half g).ctx i).scale n
      = if inFootprint footprint g = true ∧ i = ctx ∧ n ∈ l then f (s.slotStart ctx footprint merged g n)
        else ((s.half g).ctx i).scale n := by
  induction l generalizing s with
  | nil => simp
  | cons a l ih =>
    obtain ⟨ha, hl⟩ := List.nodup_cons.1 hl
    rw [List.foldl_cons, ih hl, State.scale_applySlot]
    by_cases hn : n = a
    · subst hn; simp [ha]
    · simp [hn, State.slotStart_applySlot_other hn]

/-- What a slot holds after an entry: the operation's value if the entry names it, and what it held otherwise. -/
theorem State.scale_scaleApply (s : State) (ctx footprint v : Nat) (merged : Bool) (f : ScaleSlot → ScaleSlot) (g : Half) (i n : Nat) :
    (((s.scaleApply ctx footprint v merged f).half g).ctx i).scale n
      = if inFootprint footprint g = true ∧ i = ctx ∧ slSlot v ≤ n ∧ n < slSlot v + slCount v then
          f (s.slotStart ctx footprint merged g n)
        else ((s.half g).ctx i).scale n := by
  simp only [State.scaleApply_eq, State.scale_foldl_applySlot (slSlots_nodup v), mem_slSlots]

theorem State.scale_scaleApply_of_named (hin : inFootprint footprint g = true) (hlo : slSlot v ≤ n) (hhi : n < slSlot v + slCount v) :
    (((s.scaleApply ctx footprint v merged f).half g).ctx ctx).scale n = f (s.slotStart ctx footprint merged g n) := by
  rw [State.scale_scaleApply, if_pos ⟨hin, rfl, hlo, hhi⟩]

theorem State.scale_scaleApply_of_not_named
    (hout : inFootprint footprint g = false ∨ i ≠ ctx ∨ n < slSlot v ∨ slSlot v + slCount v ≤ n) :
    (((s.scaleApply ctx footprint v merged f).half g).ctx i).scale n = ((s.half g).ctx i).scale n := by
  rw [State.scale_scaleApply, if_neg]
  rintro ⟨hin, hi, hlo, hhi⟩
  rcases hout with hout | hout | hout | hout
  · exact absurd hin (by simp [hout])
  · exact hout hi
  · omega
  · omega

/-- Settles O19: SET takes nothing from the value that a slot had, so a named slot holds what the entry says. -/
theorem scaleSetReachesEverySlot : Obligations.ScaleSetReachesEverySlot := by
  intro s ctx footprint v g
  exact ⟨fun _ hin hlo hhi => State.scale_scaleApply_of_named hin hlo hhi, fun _ _ hout => State.scale_scaleApply_of_not_named hout⟩

/-! ## What an entry leaves alone -/

@[simp] theorem State.applySlot_mem (s : State) (ctx footprint : Nat) (merged : Bool) (f : ScaleSlot → ScaleSlot) (n : Nat) :
    (s.applySlot ctx footprint merged f n).mem = s.mem := State.onHalves_mem ..

@[simp] theorem State.scaleApply_mem (s : State) (ctx footprint v : Nat) (merged : Bool) (f : ScaleSlot → ScaleSlot) :
    (s.scaleApply ctx footprint v merged f).mem = s.mem := State.mem_foldl (fun t n => t.applySlot_mem ctx footprint merged f n) _ s

theorem State.footprint_applySlot (s : State) (ctx footprint : Nat) (merged : Bool) (f : ScaleSlot → ScaleSlot) (n : Nat) (g : Half)
    (i : Nat) : (((s.applySlot ctx footprint merged f n).half g).ctx i).footprint = ((s.half g).ctx i).footprint :=
  foldl_keeps (π := fun t : State => ((t.half g).ctx i).footprint)
    (fun t a => State.half_modHalf_keeps (π := fun x => (x.ctx i).footprint) (fun x => x.footprint_modSlot ctx n _ i) t a g) _ s

theorem State.footprint_scaleApply (s : State) (ctx footprint v : Nat) (merged : Bool) (f : ScaleSlot → ScaleSlot) (g : Half) (i : Nat) :
    (((s.scaleApply ctx footprint v merged f).half g).ctx i).footprint = ((s.half g).ctx i).footprint :=
  foldl_keeps (π := fun t : State => ((t.half g).ctx i).footprint) (fun t n => t.footprint_applySlot ctx footprint merged f n g i) _ s

theorem State.ctxAny_footprint_scaleApply (s : State) (ctx footprint v : Nat) (merged : Bool) (f : ScaleSlot → ScaleSlot) (h : Half)
    (i : Nat) : ((s.scaleApply ctx footprint v merged f).ctxAny h i).footprint = (s.ctxAny h i).footprint := by
  simp only [State.ctxAny, apply_ite Ctx.footprint, State.footprint_scaleApply]

end Sys2Proof.Machine
end

section
/-! # O18: SCALE_LOAD and SCALE_READ (R171, R173 to R175; SPEC.md, log entry 32) -/

namespace Sys2Proof.Machine

variable {s : State} {id op : Nat} {h : Half} {c : Cmd} {i : Instr} {merged : Bool} {f : Nat → ScaleSlot → ScaleSlot}

/-! ## The run of entries that a row performs -/

/-- Does an entry belong to the run of a row: is it empty, or does it carry the row's OP (R174, log entry 32)? -/
def inRun (op v : Nat) : Bool := slOp v == 0 || slOp v == op

/-- The entries from a command's cursor on. -/
def entriesLeft (c : Cmd) : List Nat := (slEntries c.packet).drop c.cursor

/-- The next entries of a command that belong to the run of a row. -/
def nextRun (op : Nat) (c : Cmd) : List Nat := (entriesLeft c).takeWhile (inRun op)

theorem slEntries_length (p : Nat) : (slEntries p).length = 4 * pkUnits p := by simp [slEntries]

theorem entriesLeft_of_end (hend : 4 * pkUnits c.packet ≤ c.cursor) : entriesLeft c = [] :=
  List.drop_eq_nil_of_le ((slEntries_length _).trans_le hend)

theorem entriesLeft_of_lt (hlt : c.cursor < 4 * pkUnits c.packet) :
    entriesLeft c = slEntry c.packet c.cursor :: entriesLeft { c with cursor := c.cursor + 1 } := by
  rw [entriesLeft, List.drop_eq_getElem_cons (hlt.trans_eq (slEntries_length _).symm)]
  simp [slEntries, entriesLeft]

/-- A run with an entry that carries the OP begins, after empty entries, with such an entry. -/
theorem any_find?_of_mem_takeWhile {l : List Nat} (hcarries : ∃ v ∈ l.takeWhile (inRun op), slOp v = op) (hop : op ≠ 0) :
    ((l.find? (slOp · ≠ 0)).any (slOp · = op)) = true := by
  induction l with
  | nil => simp at hcarries
  | cons a l ih =>
    by_cases hempty : slOp a = 0
    · have hrest : ∃ v ∈ l.takeWhile (inRun op), slOp v = op := by
        simpa [List.takeWhile_cons, inRun, hempty, hop.symm] using hcarries
      simpa [hempty] using ih hrest
    · by_cases hcarry : slOp a = op
      · simp [hcarry, hop]
      · simp [inRun, hempty, hcarry] at hcarries

/-! ## The effect of a run -/

/-- Apply, in list order, the entries of a run that carry the OP. -/
def State.applyEntries (s : State) (ctx footprint op : Nat) (merged : Bool) (f : Nat → ScaleSlot → ScaleSlot) (es : List Nat) : State :=
  (es.filter (slOp · == op)).foldl (fun t v => t.scaleApply ctx footprint v merged (f v)) s

theorem State.applyEntries_mem (s : State) (ctx footprint op : Nat) (merged : Bool) (f : Nat → ScaleSlot → ScaleSlot) (es : List Nat) :
    (s.applyEntries ctx footprint op merged f es).mem = s.mem :=
  State.mem_foldl (fun t v => t.scaleApply_mem ctx footprint v merged (f v)) _ s

theorem State.applyEntries_cons_empty {ctx footprint v : Nat} {es : List Nat} (hempty : slOp v = 0) (hop : op ≠ 0) :
    s.applyEntries ctx footprint op merged f (v :: es) = s.applyEntries ctx footprint op merged f es := by
  simp [State.applyEntries, hempty, hop.symm]

theorem State.applyEntries_cons_carrying {ctx footprint v : Nat} {es : List Nat} (hcarry : slOp v = op) :
    s.applyEntries ctx footprint op merged f (v :: es)
      = (s.scaleApply ctx footprint v merged (f v)).applyEntries ctx footprint op merged f es := by
  simp [State.applyEntries, hcarry]

/-- The command after its entries up to the cursor: ended if they are all, and ready for the next row otherwise. -/
def State.afterEntries (s : State) (h : Half) (c : Cmd) : State :=
  if c.cursor = 4 * pkUnits c.packet then s.finish h c (okResult 0 0 0) else s.setCmd h c

/-- The entries that a row performs are the run from the cursor on, with the footprint as it stood before the first. -/
theorem scaleEntries_eq {left footprint : Nat} (hop : op ≠ 0) (hleft : c.cursor + left = 4 * pkUnits c.packet)
    (hfoot : (s.ctxAny h (pkCtx c.packet)).footprint = footprint) :
    scaleEntries op merged f left s h c
      = (s.applyEntries (pkCtx c.packet) footprint op merged f (nextRun op c)).afterEntries h
          { c with cursor := c.cursor + (nextRun op c).length } := by
  induction left generalizing s c with
  | zero =>
    have hend : c.cursor = 4 * pkUnits c.packet := hleft
    have hnone : nextRun op c = [] := by rw [nextRun, entriesLeft_of_end hend.ge]; rfl
    rw [hnone]
    exact (if_pos hend).symm
  | succ left ih =>
    have hlt : c.cursor < 4 * pkUnits c.packet := by omega
    have hnext : ({ c with cursor := c.cursor + 1 } : Cmd).cursor + left = 4 * pkUnits c.packet := by rw [← hleft]; simp; omega
    have hrun : nextRun op c = if inRun op (slEntry c.packet c.cursor) = true
        then slEntry c.packet c.cursor :: nextRun op { c with cursor := c.cursor + 1 } else [] := by
      rw [nextRun, entriesLeft_of_lt hlt, List.takeWhile_cons]; rfl
    by_cases hempty : slOp (slEntry c.packet c.cursor) = 0
    · rw [if_pos (by simp [inRun, hempty])] at hrun
      rw [hrun, State.applyEntries_cons_empty hempty hop, scaleEntries, if_pos hempty, ih hnext hfoot]
      simp [Nat.add_assoc, Nat.add_comm]
    · by_cases hcarry : slOp (slEntry c.packet c.cursor) = op
      · rw [if_pos (by simp [inRun, hcarry])] at hrun
        rw [hrun, State.applyEntries_cons_carrying hcarry, scaleEntries, if_neg hempty, if_pos hcarry, hfoot,
          ih hnext ((State.ctxAny_footprint_scaleApply ..).trans hfoot)]
        simp [Nat.add_assoc, Nat.add_comm]
      · rw [if_neg (by simp [inRun, hempty, hcarry])] at hrun
        rw [hrun, scaleEntries, if_neg hempty, if_neg hcarry]
        exact (if_neg hlt.ne).symm

/-! ## The rows -/

/-- The rows of SCALE_LOAD: OP, whether the halves' copies are merged first, and the operation (R171, R173, R174). -/
def scaleLoadRows (id : Nat) : List (Instr × Nat × Bool × (Nat → ScaleSlot → ScaleSlot)) :=
  [(.scaleLoadSet id, 1, false, scaleSet), (.scaleLoadAdvance id, 2, true, fun _ => ScaleSlot.advance),
    (.scaleLoadClearOvf id, 3, false, fun _ => ScaleSlot.clearOvf)]

theorem exec_scaleLoadRow (hrow : (i, op, merged, f) ∈ scaleLoadRows id) (s : State) :
    exec i s = .next (scaleRow s id op merged f) := by
  have all : (scaleLoadRows id).Forall fun r => exec r.1 s = .next (scaleRow s id r.2.1 r.2.2.1 r.2.2.2) := ⟨rfl, rfl, rfl⟩
  exact List.forall_iff_forall_mem.1 all _ hrow

theorem scaleLoadRow_op_ne_zero (hrow : (i, op, merged, f) ∈ scaleLoadRows id) : op ≠ 0 := by
  have all : (scaleLoadRows id).Forall fun r => r.2.1 ≠ 0 := ⟨nofun, nofun, nofun⟩
  exact List.forall_iff_forall_mem.1 all _ hrow

theorem exec_scaleLoadRow_of_runs (hrow : (i, op, merged, f) ∈ scaleLoadRows id) (hrun : s.runs id h c 0x0205)
    (hcarries : ∃ v ∈ nextRun op c, slOp v = op) (hcursor : c.cursor ≤ 4 * pkUnits c.packet) :
    exec i s = .next ((s.applyEntries (pkCtx c.packet) (s.ctxAny h (pkCtx c.packet)).footprint op merged f (nextRun op c)).afterEntries h
      { c with cursor := c.cursor + (nextRun op c).length }) := by
  have hop : op ≠ 0 := scaleLoadRow_op_ne_zero hrow
  rw [exec_scaleLoadRow hrow, scaleRow, onCommand_runs hrun (any_find?_of_mem_takeWhile hcarries hop),
    scaleEntries_eq hop (Nat.add_sub_of_le hcursor) rfl]

theorem exec_scaleRead_of_runs (hrun : s.runs id h c 0x0206) :
    exec (.scaleRead id) s = .next (s.finish h c { okResult 0 0 0 with
      payload := some (overPayload c.packet (scaleBytes s (pkCtx c.packet) (s.ctxAny h (pkCtx c.packet)).footprint c.packet)) }) :=
  congrArg Host.Outcome.next (onCommand_runs hrun rfl)

/-- Settles O18: the run of entries of a row, one entry in the halves, and the read. -/
theorem scaleCommandsComplete : Obligations.ScaleCommandsComplete := by
  refine ⟨?load, ?entry, ?read⟩
  case load =>
    intro s u id op h c i merged f es hrow hrun hes hcarries hu
    obtain rfl : es = nextRun op c := hes
    obtain rfl : u = s.applyEntries (pkCtx c.packet) (s.ctxAny h (pkCtx c.packet)).footprint op merged f (nextRun op c) := hu
    refine ⟨State.applyEntries_mem .., fun hall => ?_, fun hmore => ?_⟩
    · rw [exec_scaleLoadRow_of_runs hrow hrun hcarries (Nat.le_of_add_right_le hall.le)]
      exact congrArg Host.Outcome.next (if_pos hall)
    · rw [exec_scaleLoadRow_of_runs hrow hrun hcarries (Nat.le_of_add_right_le hmore.le)]
      exact congrArg Host.Outcome.next (if_neg hmore.ne)
  case entry =>
    intro s ctx footprint v merged f g n
    exact ⟨fun hin hlo hhi => State.scale_scaleApply_of_named hin hlo hhi, fun _ hout => State.scale_scaleApply_of_not_named hout⟩
  case read =>
    intro s id h c hrun
    have hctxs : ∀ (t : State) (r : Result) g, ((t.finish h c r).half g).ctxs = (t.half g).ctxs :=
      State.finish_keeps (π := HalfState.ctxs) (fun _ _ => rfl) (h := h) (c := c)
    exact ⟨_, exec_scaleRead_of_runs hrun, State.finish_mem .., hctxs s _ .q, hctxs s _ .k, State.ended_of_runs hrun rfl _⟩

end Sys2Proof.Machine
end

section
/-! # O23: MOVE, GATHER_BLOCKS and SCATTER_BLOCKS (R190 to R206), and the refusal of a MOVE under REFUSE (R192) -/

namespace Sys2Proof.Machine

variable {s : State} {id i : Nat} {h : Half} {c : Cmd} {r : Run} {x : Run × BlockTally}

/-! ## A run that settles unstopped was not stopped -/

theorem Run.stop_eq_none_of_halt {res : Result} (hhalt : (r.halt res).stop = none) : r.stop = none := by
  unfold Run.halt at hhalt
  split at hhalt
  · exact hhalt
  · cases hhalt

theorem Run.stop_eq_none_of_settle (hsettle : r.settle.stop = none) : r.stop = none := by
  unfold Run.settle at hsettle
  dsimp only at hsettle
  split at hsettle
  · exact (Run.stop_eq_none_of_halt hsettle :)
  · exact hsettle

theorem Run.clean.stop_eq_none (hclean : r.clean) : r.stop = none := Run.stop_eq_none_of_settle hclean.1

/-! ## MOVE (R192, R200) -/

/-- What a mover of a command reaches memory through: the command's addresses, from the half it names (R199). -/
def State.moverEnv (s : State) (h : Half) (c : Cmd) : Env := { s.envCmd h c with part := mvHalf c.packet }

/-- Where element `i` of a MOVE goes. -/
def moveTarget (c : Cmd) (i : Nat) : Elem := (c.desc 1).elem (fmtBytes (mvFmt c.packet)) i

/-- Is a place out of bounds (R190)? -/
def Elem.isOutside : Elem → Bool
  | .outside _ => true
  | .inside _ => false

/-- Does a MOVE have an element outside its destination (R191)? -/
def moveOutside (c : Cmd) : Bool := (List.range (c.desc 0).count).any fun i => (moveTarget c i).isOutside

theorem moveOutside_of_outside {a : Nat} (hi : i < (c.desc 0).count) (hout : moveTarget c i = .outside a) : moveOutside c = true :=
  List.any_eq_true.2 ⟨i, List.mem_range.2 hi, by rw [hout]; rfl⟩

theorem moveOutside_of_inside (hinside : ∀ i < (c.desc 0).count, ∃ a, moveTarget c i = .inside a) : moveOutside c = false :=
  List.any_eq_false.2 fun i hi => by
    obtain ⟨a, ha⟩ := hinside i (List.mem_range.1 hi)
    simp [ha, Elem.isOutside]

/-- The result of a MOVE: reads filled and writes dropped (R191, R200). -/
def moveResult (s : State) (h : Half) (c : Cmd) : Result := okResult (moveRun s h c).2.fills 0 (moveRun s h c).2.drops

/-- The module after the copy of a MOVE, with its fills and drops counted on its movers (R208). -/
def State.afterMove (s : State) (h : Half) (c : Cmd) : State :=
  (s.applyRun h c (s.moverEnv h c) (moveRun s h c).1 fun _ => moveResult s h c).countOob
    (if (moveRun s h c).1.need.isEmpty then moveMovers c else []) (moveRun s h c).2.fills (moveRun s h c).2.drops

theorem runMove_of_accepted (haccepted : (c.desc 1).refuse = false ∨ moveOutside c = false) : runMove s h c = s.afterMove h c := by
  have hno : ¬ ((c.desc 1).refuse && moveOutside c) = true := by rcases haccepted with hno | hno <;> simp [hno]
  exact if_neg hno

theorem runMove_of_refused (hrefuse : (c.desc 1).refuse = true) (hout : moveOutside c = true) :
    runMove s h c = s.finish h c (boundsResult (512 + 64)) := by
  have hyes : ((c.desc 1).refuse && moveOutside c) = true := by simp [hrefuse, hout]
  exact if_pos hyes

theorem exec_move_of_runs (hrun : s.runs id h c 0x0301) : exec (.move id) s = .next (runMove s h c) :=
  congrArg Host.Outcome.next (onCommand_runs hrun rfl)

theorem State.mem_afterMove (hclean : (moveRun s h c).1.clean) :
    (s.afterMove h c).mem = (s.commit (moveRun s h c).1.settle.mem).mem := by
  rw [State.afterMove, State.countOob_mem, State.applyRun_mem hclean]

theorem State.ended_afterMove (hclean : (moveRun s h c).1.clean) (hcmd : s.cmd? id = some (h, c)) :
    (s.afterMove h c).ended id h (moveResult s h c) := by
  obtain ⟨d, hd, hdone⟩ := State.applyRun_ended (e := s.moverEnv h c) (ok := fun _ => moveResult s h c) hclean hcmd (State.cmd?_id hcmd)
  exact ⟨d, (State.cmd?_countOob ..).trans hd, hdone⟩

/-! ## GATHER_BLOCKS and SCATTER_BLOCKS (R204 to R207) -/

/-- The list of a block command as it is read before anything is written (R204). -/
def blockList (s : State) (h : Half) (c : Cmd) : List Nat × Run :=
  readList (s.moverEnv h c) c.packet (c.desc 0) (c.desc 1) 0 (bkCount c.packet) { mem := s.view }

/-- Does a block of a command fall outside its destination (R191)? -/
def anyBlockOut (s : State) (h : Half) (c : Cmd) : Bool :=
  (List.range (bkCount c.packet)).any fun k => blockOut c.packet (c.desc 0) (c.desc 1) k ((blockList s h c).1.getD k 0)

theorem blocksInside_iff :
    blocksInside s h c ↔ (blockList s h c).2.stop = none ∧ (blockList s h c).2.need = [] ∧ anyBlockOut s h c = false := by
  have hany : anyBlockOut s h c = false
      ↔ ∀ k < bkCount c.packet, blockOut c.packet (c.desc 0) (c.desc 1) k ((blockList s h c).1.getD k 0) = false := by
    simp [anyBlockOut]
  rw [hany]
  exact ⟨fun ⟨_, hpre, hread⟩ => by subst hpre; exact hread, fun hread => ⟨_, rfl, hread⟩⟩

/-- The result of a block command: reads filled, entries skipped or repeated, and writes dropped (R205, R206). -/
def blockResult (c : Cmd) (t : BlockTally) : Result :=
  okResult t.t.fills (if isGather c.packet then t.skipped else t.repeats) t.t.drops

/-- The module after a run of the entries of a block command; unless it waits for other modules, fills and drops are counted on its
movers (R208). -/
def State.afterBlocks (s : State) (h : Half) (c : Cmd) (x : Run × BlockTally) : State :=
  let applied := s.applyRun h c (s.moverEnv h c) x.1 fun _ => blockResult c x.2
  if x.1.need.isEmpty then (applied.countMovers 1 x.2.fillsBy).countMovers 2 x.2.dropsBy else applied

theorem runBlocks_of_clean (hinside : (c.desc 1).refuse = false ∨ blocksInside s h c) (hclean : (blockRun s h c).1.clean) :
    runBlocks s h c = s.afterBlocks h c (blockRun s h c) := by
  have hread : ¬ ((c.desc 1).refuse && ((blockList s h c).2.stop.isSome || !(blockList s h c).2.need.isEmpty)) = true := by
    rcases hinside with hno | hin
    · simp [hno]
    · obtain ⟨hstop, hneed, -⟩ := blocksInside_iff.1 hin
      simp [hstop, hneed]
  have haccepted : ¬ ((c.desc 1).refuse && anyBlockOut s h c) = true := by
    rcases hinside with hno | hin
    · simp [hno]
    · simp [(blocksInside_iff.1 hin).2.2]
  have hkept : ¬ ((c.desc 1).refuse
      && (match (blockRun s h c).1.stop with | some res => decide (res.status = stFault) | none => false)) = true := by
    simp [hclean.stop_eq_none]
  exact (if_neg hread).trans ((if_neg haccepted).trans (congrArg (s.afterBlocks h c) (if_neg hkept)))

theorem State.afterBlocks_of_clean (hclean : x.1.clean) :
    s.afterBlocks h c x
      = ((s.applyRun h c (s.moverEnv h c) x.1 fun _ => blockResult c x.2).countMovers 1 x.2.fillsBy).countMovers 2 x.2.dropsBy :=
  if_pos (by simp [hclean.need_eq_nil])

theorem State.mem_afterBlocks (hclean : x.1.clean) : (s.afterBlocks h c x).mem = (s.commit x.1.settle.mem).mem := by
  rw [State.afterBlocks_of_clean hclean, State.countMovers_mem, State.countMovers_mem, State.applyRun_mem hclean]

theorem State.ended_afterBlocks (hclean : x.1.clean) (hcmd : s.cmd? id = some (h, c)) :
    (s.afterBlocks h c x).ended id h (blockResult c x.2) := by
  obtain ⟨d, hd, hdone⟩ := State.applyRun_ended (e := s.moverEnv h c) (ok := fun _ => blockResult c x.2) hclean hcmd
    (State.cmd?_id hcmd)
  rw [State.afterBlocks_of_clean hclean]
  exact ⟨d, (State.cmd?_countMovers ..).trans ((State.cmd?_countMovers ..).trans hd), hdone⟩

theorem exec_gatherBlocks_of_runs (hrun : s.runs id h c 0x0302) : exec (.gatherBlocks id) s = .next (runBlocks s h c) :=
  congrArg Host.Outcome.next (onCommand_runs hrun rfl)

theorem exec_scatterBlocks_of_runs (hrun : s.runs id h c 0x0303) : exec (.scatterBlocks id) s = .next (runBlocks s h c) :=
  congrArg Host.Outcome.next (onCommand_runs hrun rfl)

theorem blockResult_of_gather {t : BlockTally} (hgather : isGather c.packet = true) :
    blockResult c t = okResult t.t.fills t.skipped t.t.drops := by
  rw [blockResult, if_pos hgather]

theorem blockResult_of_scatter {t : BlockTally} (hscatter : isGather c.packet = false) :
    blockResult c t = okResult t.t.fills t.repeats t.t.drops := by
  rw [blockResult, if_neg (by simp [hscatter])]

/-- Settles O23: the copy of a mover command that nothing stops takes effect, and an element outside a MOVE's destination refuses it. -/
theorem moverCommandsComplete : Obligations.MoverCommandsComplete := by
  refine ⟨fun s id h c => ⟨?move, ?gather, ?scatter⟩, ?refused⟩
  case move =>
    intro hrun hclean hinside
    have haccepted : (c.desc 1).refuse = false ∨ moveOutside c = false := hinside.imp_right moveOutside_of_inside
    exact ⟨_, (exec_move_of_runs hrun).trans (congrArg Host.Outcome.next (runMove_of_accepted haccepted)), State.mem_afterMove hclean,
      State.ended_afterMove hclean hrun.1⟩
  case gather =>
    intro hrun hgather hclean hinside
    exact ⟨_, (exec_gatherBlocks_of_runs hrun).trans (congrArg Host.Outcome.next (runBlocks_of_clean hinside hclean)),
      State.mem_afterBlocks hclean, blockResult_of_gather hgather ▸ State.ended_afterBlocks hclean hrun.1⟩
  case scatter =>
    intro hrun hscatter hclean hinside
    exact ⟨_, (exec_scatterBlocks_of_runs hrun).trans (congrArg Host.Outcome.next (runBlocks_of_clean hinside hclean)),
      State.mem_afterBlocks hclean, blockResult_of_scatter hscatter ▸ State.ended_afterBlocks hclean hrun.1⟩
  case refused =>
    intro s id i a h c hrun hrefuse hi hout
    have hexec := (exec_move_of_runs hrun).trans (congrArg Host.Outcome.next (runMove_of_refused hrefuse (moveOutside_of_outside hi hout)))
    exact ⟨_, hexec, State.ended_of_runs hrun rfl _, State.finish_mem ..⟩

end Sys2Proof.Machine
end

section
/-! # O26: GRAM_REDUCE, ROOT and ORTHO (R218 to R230) -/

namespace Sys2Proof.Machine

variable {s : State} {id a : Nat} {h : Half} {c : Cmd}

/-! ## Free values, counts of the CSEs, and staleness -/

theorem State.cmd?_drawnFree (s : State) (n id : Nat) : ({ s with drawnFree := n } : State).cmd? id = s.cmd? id := rfl

@[simp] theorem State.countCse_mem (s : State) (d index n : Nat) : (s.countCse d index n).mem = s.mem := s.modHalf_mem ..

@[simp] theorem State.cmd?_countCse (s : State) (d index n id : Nat) : (s.countCse d index n).cmd? id = s.cmd? id :=
  State.cmd?_modHalf (fun x => x.count32_cmds ..) id

/-- Staleness goes to the table of a half, or to a count of what the table has no place for (R225, R459). -/
@[simp] theorem HalfState.reportStale_cmds (x : HalfState) (h : Half) (ctx layer v : Nat) : (x.reportStale h ctx layer v).cmds = x.cmds := by
  unfold HalfState.reportStale
  split <;> rfl

/-! ## GRAM_REDUCE (R218, R219) -/

/-- The elements of a GRAM_REDUCE, folded by the CSE of its die. -/
def gramRun (s : State) (h : Half) (c : Cmd) : Run :=
  gramElems { s.envCmd h c with part := dieHalf (pl c.packet 168 3) } c.packet 0 (grElems c.packet) { mem := s.view }

theorem exec_gramReduce_of_runs (hrun : s.runs id h c 0x0401) :
    exec (.gramReduce id) s = .next (s.applyRun h c { s.envCmd h c with part := dieHalf (pl c.packet 168 3) } (gramRun s h c) fun _ =>
      okResult 0 0 0) :=
  congrArg Host.Outcome.next (onCommand_runs hrun rfl)

/-! ## ROOT (R221 to R226) -/

/-- The result of a ROOT: its blocks installed and failed, and the largest staleness (R225). -/
def rootResult (s : State) (h : Half) (c : Cmd) : Result :=
  okResult (rootRun s h c).2.installed (rootRun s h c).2.failed (rootRun s h c).2.stale

/-- The module after the blocks of a ROOT; its scratch area is left undefined (R221; SPEC.md, log entry 43). -/
def State.afterBlocksOfRoot (s : State) (h : Half) (c : Cmd) : State :=
  let applied := s.applyRun h c (s.envCmd h c) (rootRun s h c).1 fun _ => rootResult s h c
  { applied with drawnFree := applied.drawnFree + (rootRun s h c).2.drawn }.veilRange (s.envCmd h c) (rtScratch c.packet)
    (16 * rtN c.packet * rtN c.packet * (csesOf c.packet).length)

/-- The failures of a ROOT and its NONFINITE ends are counted on the CSEs of their blocks (R232). -/
def State.countRoot (s : State) (t : RootTally) : State :=
  t.nonfinite.foldl (fun u d => u.countCse d 3 1) (t.fails.foldl (fun u d => u.countCse d 2 1) s)

/-- The largest staleness of a ROOT is reported in each half that has a CSE of it (R225). -/
def State.reportRoot (s : State) (p stale : Nat) : State :=
  (((csesOf p).map dieHalf).eraseDups).foldl (fun u g => u.modHalf g fun x => x.reportStale g (pkCtx p) (pkLayer p) stale) s

theorem State.countRoot_mem (s : State) (t : RootTally) : (s.countRoot t).mem = s.mem :=
  (State.mem_foldl (fun _ _ => State.countCse_mem ..) _ _).trans (State.mem_foldl (fun _ _ => State.countCse_mem ..) _ s)

theorem State.cmd?_countRoot (s : State) (t : RootTally) (id : Nat) : (s.countRoot t).cmd? id = s.cmd? id :=
  (State.cmd?_foldl id (fun _ _ => State.cmd?_countCse ..) _ _).trans (State.cmd?_foldl id (fun _ _ => State.cmd?_countCse ..) _ s)

theorem State.reportRoot_mem (s : State) (p stale : Nat) : (s.reportRoot p stale).mem = s.mem :=
  State.mem_foldl (fun t _ => t.modHalf_mem ..) _ s

theorem State.cmd?_reportRoot (s : State) (p stale id : Nat) : (s.reportRoot p stale).cmd? id = s.cmd? id :=
  State.cmd?_foldl id (fun _ _ => State.cmd?_modHalf (fun x => x.reportStale_cmds ..) id) _ s

theorem runRoot_of_clean (hclean : (rootRun s h c).1.clean) :
    runRoot s h c = ((s.afterBlocksOfRoot h c).countRoot (rootRun s h c).2).reportRoot c.packet (rootRun s h c).2.stale := by
  have hneed : ¬ (!(rootRun s h c).1.need.isEmpty) = true := by simp [hclean.need_eq_nil]
  have hstop : ¬ (rootRun s h c).1.stop.isSome = true := by simp [hclean.stop_eq_none]
  exact (if_neg hneed).trans (if_neg hstop)

theorem exec_root_of_clean (hrun : s.runs id h c 0x0402) (hclean : (rootRun s h c).1.clean) :
    exec (.root id) s
      = .next (((s.afterBlocksOfRoot h c).countRoot (rootRun s h c).2).reportRoot c.packet (rootRun s h c).2.stale) :=
  congrArg Host.Outcome.next ((onCommand_runs hrun rfl).trans (runRoot_of_clean hclean))

theorem State.ended_afterBlocksOfRoot (hclean : (rootRun s h c).1.clean) (hcmd : s.cmd? id = some (h, c)) :
    (s.afterBlocksOfRoot h c).ended id h (rootResult s h c) := by
  obtain ⟨d, hd, hdone⟩ := State.applyRun_ended (e := s.envCmd h c) (ok := fun _ => rootResult s h c) hclean hcmd (State.cmd?_id hcmd)
  exact ⟨d, (State.cmd?_veilRange ..).trans ((State.cmd?_drawnFree ..).trans hd), hdone⟩

theorem State.byte_afterBlocksOfRoot (hclean : (rootRun s h c).1.clean)
    (hout : ¬ scratched (s.envCmd h c) (rtScratch c.packet) (16 * rtN c.packet * rtN c.packet * (csesOf c.packet).length) a) :
    (s.afterBlocksOfRoot h c).mem.byte a = (s.commit (rootRun s h c).1.settle.mem).mem.byte a := by
  rw [State.afterBlocksOfRoot, State.byte_veilRange hout, State.applyRun_mem hclean]

/-! ## ORTHO (R228 to R230) -/

/-- The addresses of an ORTHO: those of its command, from the half of the die that runs it (R228). -/
def State.orthoEnv (s : State) (h : Half) (c : Cmd) : Env := { s.envCmd h c with part := dieHalf (orDie c.packet) }

/-- Bytes of the scratch area of an ORTHO, whose matrix has `rows` rows and `cols` columns (R228). -/
def orthoScratch (rows cols : Nat) : Nat := 12 * rows * cols + 16 * min rows cols * min rows cols

/-- The result of an ORTHO: its status, its residual, which is a free value where no iteration formed one, and its iterations
(R230). -/
def orthoResult (s : State) (h : Half) (c : Cmd) : Result :=
  okResult (orthoRun s h c).2.1 ((orthoRun s h c).2.2.1.getD (Config.freeWord s.drawnFree).toNat) (orthoRun s h c).2.2.2

/-- The module after the work of an ORTHO; its scratch area, staging lines and TRF are left undefined (R228; SPEC.md,
log entry 43). -/
def State.afterOrtho (s : State) (h : Half) (c : Cmd) : State :=
  let applied := s.applyRun h c (s.orthoEnv h c) (orthoRun s h c).1 fun _ => orthoResult s h c
  ({ applied with drawnFree := applied.drawnFree + 1 }.veilRange (s.orthoEnv h c) (pl c.packet 128 48)
    (orthoScratch ((c.desc 0).ext.getD 1 1) ((c.desc 0).ext.getD 0 1))).afterTiles c.packet false {} (orStage c.packet) 10240

/-- An ORTHO that met a value that is not finite is counted on the CSE of its die (R232). -/
def State.countOrtho (s : State) (c : Cmd) (status : Nat) : State := if status = 2 then s.countCse (orDie c.packet) 3 1 else s

theorem State.countOrtho_mem (s : State) (c : Cmd) (status : Nat) : (s.countOrtho c status).mem = s.mem := by
  unfold State.countOrtho
  split
  · exact State.countCse_mem ..
  · rfl

theorem State.cmd?_countOrtho (s : State) (c : Cmd) (status id : Nat) : (s.countOrtho c status).cmd? id = s.cmd? id := by
  unfold State.countOrtho
  split
  · exact State.cmd?_countCse ..
  · rfl

theorem runOrtho_of_clean (hclean : (orthoRun s h c).1.clean)
    (hinside : (c.desc 1).refuse = false ∨ (c.desc 1).anyOutside ((Fmt.ofCode (orFmtDst c.packet)).getD .fp32).bytes = false) :
    runOrtho s h c = (s.afterOrtho h c).countOrtho c (orthoRun s h c).2.1 := by
  have haccepted : ¬ ((c.desc 1).refuse && (c.desc 1).anyOutside ((Fmt.ofCode (orFmtDst c.packet)).getD .fp32).bytes) = true := by
    rcases hinside with hno | hno <;> simp [hno]
  have hneed : ¬ (!(orthoRun s h c).1.need.isEmpty) = true := by simp [hclean.need_eq_nil]
  have hcounts : (decide ((orthoRun s h c).2.1 = 2) && (orthoRun s h c).1.stop.isNone) = true ↔ (orthoRun s h c).2.1 = 2 := by
    simp [hclean.stop_eq_none]
  exact (if_neg haccepted).trans ((if_neg hneed).trans (if_congr hcounts rfl rfl))

theorem exec_ortho_of_clean (hrun : s.runs id h c 0x0403) (hclean : (orthoRun s h c).1.clean)
    (hinside : (c.desc 1).refuse = false ∨ (c.desc 1).anyOutside ((Fmt.ofCode (orFmtDst c.packet)).getD .fp32).bytes = false) :
    exec (.ortho id) s = .next ((s.afterOrtho h c).countOrtho c (orthoRun s h c).2.1) :=
  congrArg Host.Outcome.next ((onCommand_runs hrun rfl).trans (runOrtho_of_clean hclean hinside))

theorem State.ended_afterOrtho (hclean : (orthoRun s h c).1.clean) (hcmd : s.cmd? id = some (h, c)) :
    (s.afterOrtho h c).ended id h (orthoResult s h c) := by
  obtain ⟨d, hd, hdone⟩ := State.applyRun_ended (e := s.orthoEnv h c) (ok := fun _ => orthoResult s h c) hclean hcmd
    (State.cmd?_id hcmd)
  exact ⟨d, (State.cmd?_afterTiles ..).trans ((State.cmd?_veilRange ..).trans ((State.cmd?_drawnFree ..).trans hd)), hdone⟩

theorem State.byte_afterOrtho (hclean : (orthoRun s h c).1.clean) (hstage : ¬ staged (tilesOf c.packet) (orStage c.packet) 10240 a)
    (hscratch : ¬ scratched (s.orthoEnv h c) (pl c.packet 128 48)
      (orthoScratch ((c.desc 0).ext.getD 1 1) ((c.desc 0).ext.getD 0 1)) a) :
    (s.afterOrtho h c).mem.byte a = (s.commit (orthoRun s h c).1.settle.mem).mem.byte a := by
  rw [State.afterOrtho, State.byte_afterTiles hstage, State.byte_veilRange hscratch, State.applyRun_mem hclean]

/-- Settles O26, row by row: what the work of each gives takes effect, and what follows changes only undefined ranges and registers. -/
theorem curvatureCommandsComplete : Obligations.CurvatureCommandsComplete := by
  refine fun s id h c => ⟨?gramReduce, ?root, ?ortho⟩
  case gramReduce =>
    intro r hrun hr hclean
    obtain rfl : r = gramRun s h c := hr
    exact ⟨_, exec_gramReduce_of_runs hrun, State.applyRun_mem hclean, State.applyRun_ended hclean hrun.1 (State.cmd?_id hrun.1)⟩
  case root =>
    intro hrun hclean
    obtain ⟨d, hd, hdone⟩ := State.ended_afterBlocksOfRoot hclean hrun.1
    refine ⟨_, exec_root_of_clean hrun hclean,
      ⟨d, (State.cmd?_reportRoot ..).trans ((State.cmd?_countRoot ..).trans hd), hdone⟩, fun a hout => ?_⟩
    rw [State.reportRoot_mem, State.countRoot_mem, State.byte_afterBlocksOfRoot hclean hout]
  case ortho =>
    intro hrun hclean hinside
    obtain ⟨d, hd, hdone⟩ := State.ended_afterOrtho hclean hrun.1
    refine ⟨_, exec_ortho_of_clean hrun hclean hinside, ⟨d, (State.cmd?_countOrtho ..).trans hd, hdone⟩, fun a hstage hscratch => ?_⟩
    rw [State.countOrtho_mem, State.byte_afterOrtho hclean hstage hscratch]

end Sys2Proof.Machine
end

section
/-! # O28: UPDATE, RECONCILE and SHARD_DIGEST (R251 to R274) -/

namespace Sys2Proof.Machine

variable {s : State} {id : Nat} {h : Half} {c : Cmd}

/-! ## Runs whose counts go to the Update Units (R280) -/

@[simp] theorem State.countUpu_mem (s : State) (d index n : Nat) : (s.countUpu d index n).mem = s.mem := s.modHalf_mem ..

@[simp] theorem State.cmd?_countUpu (s : State) (d index n id : Nat) : (s.countUpu d index n).cmd? id = s.cmd? id :=
  State.cmd?_modHalf (fun x => x.count32_cmds ..) id

/-- Counting after a run that nothing stopped changes neither what the run left in memory nor the result of its command. -/
theorem State.applyRun_then_count {α : Type} {count : State → α → State} (hmem : ∀ t a, (count t a).mem = t.mem)
    (hfind : ∀ t a, (count t a).cmd? id = t.cmd? id) {k : Cmd} {e : Env} {r : Run} {ok : Run → Result} (hclean : r.clean)
    (hcmd : s.cmd? id = some (h, c)) (hid : k.id = id) (l : List α) :
    (l.foldl count (s.applyRun h k e r ok)).mem = (s.commit r.settle.mem).mem
      ∧ (l.foldl count (s.applyRun h k e r ok)).ended id h (ok r.settle) := by
  obtain ⟨d, hd, hdone⟩ := State.applyRun_ended (e := e) (ok := ok) hclean hcmd hid
  exact ⟨(State.mem_foldl hmem l _).trans (State.applyRun_mem hclean), d, (State.cmd?_foldl id hfind l _).trans hd, hdone⟩

/-! ## UPDATE (R258 to R263, R267) -/

/-- The result of an UPDATE: its values that are not finite, its clamps and its saturations, over all shares (R267). -/
def updateResult (s : State) (h : Half) (c : Cmd) : Result :=
  okResult (total ((updateShares s h c).2.1.map fun d => d.2.nonfinite)) (total ((updateShares s h c).2.1.map fun d => d.2.clamps))
    (total ((updateShares s h c).2.1.map fun d => d.2.saturated))

/-- The share of an UPDATE is counted on its Update Unit (R280). -/
def State.countUpdate (s : State) (d : Nat × UpTally) : State :=
  ((s.countUpu d.1 1 d.2.nonfinite).countUpu d.1 2 d.2.clamps).countUpu d.1 3 d.2.saturated

theorem runUpdate_of_clean (hclean : (updateRun s h c).clean) :
    ∃ reports, runUpdate s h c = (updateShares s h c).2.1.foldl State.countUpdate
      (s.applyRun h { c with reports := reports } (s.envCmd h c) (updateRun s h c) fun _ => updateResult s h c) :=
  ⟨_, if_pos (by simp [hclean.need_eq_nil])⟩

theorem runUpdate_leaves (hclean : (updateRun s h c).clean) (hcmd : s.cmd? id = some (h, c)) :
    (runUpdate s h c).mem = (s.commit (updateRun s h c).settle.mem).mem ∧ (runUpdate s h c).ended id h (updateResult s h c) := by
  have hid : c.id = id := State.cmd?_id hcmd
  obtain ⟨reports, hafter⟩ := runUpdate_of_clean hclean
  rw [hafter]
  exact State.applyRun_then_count (k := { c with reports := reports }) (fun t d => by simp [State.countUpdate])
    (fun t d => by simp [State.countUpdate]) hclean hcmd hid _

theorem exec_update_of_runs (hrun : s.runs id h c 0x0601) : exec (.update id) s = .next (runUpdate s h c) :=
  congrArg Host.Outcome.next (onCommand_runs hrun rfl)

/-! ## RECONCILE (R268 to R270) -/

/-- The result of a RECONCILE: its exceptions, its conforming saturated elements and its repairs, over all shares (R269). -/
def reconcileResult (s : State) (h : Half) (c : Cmd) : Result :=
  okResult (total ((reconcileShares s h c).2.map fun d => d.2.exceptions)) (total ((reconcileShares s h c).2.map fun d => d.2.saturated))
    (total ((reconcileShares s h c).2.map fun d => d.2.repaired))

/-- The share of a RECONCILE is counted on its Update Unit (R280). -/
def State.countReconcile (s : State) (d : Nat × RcTally) : State := (s.countUpu d.1 4 d.2.exceptions).countUpu d.1 3 d.2.overs

theorem runReconcile_of_clean (hclean : (reconcileRun s h c).clean) :
    ∃ reports, runReconcile s h c = (reconcileShares s h c).2.foldl State.countReconcile
      (s.applyRun h { c with reports := reports } (s.envCmd h c) (reconcileRun s h c) fun _ => reconcileResult s h c) :=
  ⟨_, if_pos (by simp [hclean.need_eq_nil])⟩

theorem runReconcile_leaves (hclean : (reconcileRun s h c).clean) (hcmd : s.cmd? id = some (h, c)) :
    (runReconcile s h c).mem = (s.commit (reconcileRun s h c).settle.mem).mem
      ∧ (runReconcile s h c).ended id h (reconcileResult s h c) := by
  have hid : c.id = id := State.cmd?_id hcmd
  obtain ⟨reports, hafter⟩ := runReconcile_of_clean hclean
  rw [hafter]
  exact State.applyRun_then_count (k := { c with reports := reports }) (fun t d => by simp [State.countReconcile])
    (fun t d => by simp [State.countReconcile]) hclean hcmd hid _

theorem exec_reconcile_of_runs (hrun : s.runs id h c 0x0602) : exec (.reconcile id) s = .next (runReconcile s h c) :=
  congrArg Host.Outcome.next (onCommand_runs hrun rfl)

/-! ## The modes of SHARD_DIGEST (R271 to R273) -/

/-- The digest of the range of a SHARD_DIGEST, with the run that read it (R271). -/
def rangeDigest (s : State) (h : Half) (c : Cmd) : Nat × Run := digestRange (s.envCmd h c) c.packet { mem := s.view }

/-- The run of a SHARD_DIGEST in mode COMPUTE: its range is read and its record written (R272, R273). -/
def computeRun (s : State) (h : Half) (c : Cmd) : Run :=
  (rangeDigest s h c).2.store (s.envCmd h c) (sdRecord c.packet)
    (bytesOf 64 (digestRecord (rangeDigest s h c).1 (sdBytes c.packet / 256) (sdTag c.packet) 0 0 false false 0))

theorem exec_shardDigestCompute_of_runs (hrun : s.runs id h c 0x0603) (hmode : sdMode c.packet = 0) :
    exec (.shardDigestCompute id) s = .next (s.applyRun h c (s.envCmd h c) (computeRun s h c) fun _ =>
      okResult ((rangeDigest s h c).1 % 2 ^ 32) ((rangeDigest s h c).1 / 2 ^ 32) 0) :=
  congrArg Host.Outcome.next (onCommand_runs hrun (decide_eq_true hmode))

theorem exec_shardDigestComputeCompare_of_clean (hrun : s.runs id h c 0x0603) (hmode : sdMode c.packet = 1)
    (hclean : (rangeDigest s h c).2.clean) :
    exec (.shardDigestComputeCompare id) s
      = .next ((s.countRun (attrKey c.packet) (rangeDigest s h c).2.settle).compare h c (rangeDigest s h c).1) := by
  have hgoes : ¬ ((rangeDigest s h c).2.settle.stop.isSome || !(rangeDigest s h c).2.settle.need.isEmpty) = true := by
    simp [hclean.1, hclean.need_eq_nil]
  exact congrArg Host.Outcome.next ((onCommand_runs hrun (decide_eq_true hmode)).trans (if_neg hgoes))

theorem exec_shardDigestCompareRecord_of_runs (hrun : s.runs id h c 0x0603) (hmode : sdMode c.packet = 2) :
    exec (.shardDigestCompareRecord id) s = .next (s.compare h c (bits (c.recordNum 1) 0 64)) :=
  congrArg Host.Outcome.next (onCommand_runs hrun (decide_eq_true hmode))

/-! ## A frame that is sent (R377, R380, R388) -/

theorem State.cmd?_setHalf {x : HalfState} (hx : x.cmds = (s.half h).cmds) (id : Nat) : (s.setHalf h x).cmd? id = s.cmd? id := by
  cases h with
  | q => exact State.cmd?_congr (s := s) (t := s.setHalf .q x) hx rfl id
  | k => exact State.cmd?_congr (s := s) (t := s.setHalf .k x) rfl hx id

@[simp] theorem HalfState.routeFrame_cmds (x : HalfState) (h : Half) (f : Frame) (came : Nat) :
    (x.routeFrame h f came).1.cmds = x.cmds := by
  unfold HalfState.routeFrame
  dsimp only
  split
  · exact HalfState.count32_cmds ..
  · split <;> exact HalfState.transmit_cmds ..

/-- A frame goes out unless the committed route table has its destination UNREACHABLE (R388). -/
theorem HalfState.routeFrame_reached {x : HalfState} {f : Frame} (hroute : x.route h f.dst % 8 ≠ 7) (came : Nat) :
    (x.routeFrame h f came).2 = true := by
  unfold HalfState.routeFrame
  dsimp only
  rw [if_neg hroute]
  split <;> rfl

theorem State.cmd?_countSent (s : State) (plane : Half) (cmd : Option Nat) (f : Frame) (id : Nat) :
    (s.countSent plane cmd f).cmd? id = s.cmd? id := by
  unfold State.countSent
  split
  · rfl
  · refine (State.cmd?_modHalf (fun x => by simp) id).trans ?_
    split
    · rfl
    · exact State.cmd?_crossFor ..

theorem State.countSent_mem (s : State) (plane : Half) (cmd : Option Nat) (f : Frame) : (s.countSent plane cmd f).mem = s.mem := by
  unfold State.countSent
  split
  · rfl
  · refine (State.modHalf_mem ..).trans ?_
    split
    · rfl
    · exact State.crossFor_mem ..

/-- A half has given the next number of a destination to a frame that is acknowledged (R380). -/
def HalfState.number (x : HalfState) (plane : Half) (f : Frame) : HalfState :=
  if isAcked f then { x with seqNext := x.seqNext.set (seqKey plane f.dst) ((x.seqNext.at (seqKey plane f.dst) + 1) % 2 ^ 24) } else x

/-- A frame with its header filled in by a half (R377, R380). -/
def HalfState.header (x : HalfState) (plane : Half) (f : Frame) : Frame :=
  { sealFrame f with
    src := x.myPos plane, ver := x.e2eVer plane, seq := if isAcked f then x.seqNext.at (seqKey plane f.dst) else f.seq }

/-- A half remembers a frame until it is acknowledged, or has nothing to remember (R380). -/
def HalfState.remember (x : HalfState) (u : Unacked) (keep : Bool) : HalfState :=
  if keep then { x with unacked := x.unacked ++ [u] } else x

@[simp] theorem HalfState.number_cmds (x : HalfState) (plane : Half) (f : Frame) : (x.number plane f).cmds = x.cmds := by
  unfold HalfState.number; split <;> rfl

@[simp] theorem HalfState.remember_cmds (x : HalfState) (u : Unacked) (keep : Bool) : (x.remember u keep).cmds = x.cmds := by
  unfold HalfState.remember; split <;> rfl

theorem HalfState.number_route (x : HalfState) (plane : Half) (f : Frame) (dst : Nat) :
    (x.number plane f).route plane dst = x.route plane dst := by
  unfold HalfState.number; split <;> rfl

theorem HalfState.header_dst (x : HalfState) (plane : Half) (f : Frame) : (x.header plane f).dst = f.dst := by
  unfold HalfState.header sealFrame; dsimp only; split <;> rfl

/-- A half and whether the frame went out, after it has numbered and routed a frame. -/
def HalfState.dispatch (x : HalfState) (plane : Half) (f : Frame) : HalfState × Bool :=
  (x.number plane f).routeFrame plane (x.header plane f) 4

/-- The half of a send, which remembers the frame where it went out. -/
def HalfState.sent (x : HalfState) (plane : Half) (cmd : Option Nat) (f : Frame) : HalfState :=
  (x.dispatch plane f).1.remember { plane := plane, cmd := cmd, frame := x.header plane f } (isAcked f && (x.dispatch plane f).2)

theorem State.send_eq (s : State) (plane : Half) (cmd : Option Nat) (f : Frame) :
    s.send plane cmd f = (if ((s.half plane).dispatch plane f).2 then
        (s.setHalf plane ((s.half plane).sent plane cmd f)).countSent plane cmd ((s.half plane).header plane f)
      else s.setHalf plane ((s.half plane).sent plane cmd f), ((s.half plane).dispatch plane f).2) := rfl

@[simp] theorem HalfState.sent_cmds (x : HalfState) (plane : Half) (cmd : Option Nat) (f : Frame) :
    (x.sent plane cmd f).cmds = x.cmds := by
  simp [HalfState.sent, HalfState.dispatch]

theorem State.cmd?_send (s : State) (plane : Half) (cmd : Option Nat) (f : Frame) (id : Nat) :
    (s.send plane cmd f).1.cmd? id = s.cmd? id := by
  rw [State.send_eq]
  split
  · exact (State.cmd?_countSent ..).trans (State.cmd?_setHalf (HalfState.sent_cmds ..) id)
  · exact State.cmd?_setHalf (HalfState.sent_cmds ..) id

theorem State.send_mem (s : State) (plane : Half) (cmd : Option Nat) (f : Frame) : (s.send plane cmd f).1.mem = s.mem := by
  rw [State.send_eq]
  split
  · exact (State.countSent_mem ..).trans (State.setHalf_mem ..)
  · exact State.setHalf_mem ..

theorem State.send_reached {plane : Half} {f : Frame} (hroute : (s.half plane).route plane f.dst % 8 ≠ 7) (cmd : Option Nat) :
    (s.send plane cmd f).2 = true := by
  rw [State.send_eq]
  refine HalfState.routeFrame_reached (x := (s.half plane).number plane f) (f := (s.half plane).header plane f) ?_ 4
  rwa [HalfState.number_route, HalfState.header_dst]

/-! ## The comparison (R274) -/

/-- A SHARD_DIGEST that has its digest waits with it. -/
def Cmd.withDigest (c : Cmd) (digest : Nat) : Cmd := { c with digest := some digest, waiting := true, idle := 0, idleOther := 0 }

/-- The module while a SHARD_DIGEST waits with its digest. -/
def State.keepDigest (s : State) (h : Half) (c : Cmd) (digest : Nat) : State := s.setCmd h (c.withDigest digest)

/-- The frame in which a replica sends its digest to the primary (R274, R379). -/
def Cmd.digestFrame (c : Cmd) (digest : Nat) : Frame :=
  Machine.digestFrame c.primaryPos (c.ctx.getD 0) c.gen (sdTag c.packet) false digest 0 0 false

/-- The digests that the primary holds for the tag of a SHARD_DIGEST, by the position of the replica (R274). -/
def HalfState.digestsFor (x : HalfState) (c : Cmd) : Table := (find (sdTag c.packet) (x.ctx (c.ctx.getD 0)).places).getD []

theorem State.keepDigest_myPos (s : State) (h : Half) (c : Cmd) (digest : Nat) (g : Half) :
    ((s.keepDigest h c digest).half g).myPos g = (s.half g).myPos g := State.setCmd_keeps (π := (·.myPos g)) (fun _ _ => rfl) s h _ g

theorem State.keepDigest_route (s : State) (h : Half) (c : Cmd) (digest : Nat) (g : Half) (dst : Nat) :
    ((s.keepDigest h c digest).half g).route g dst = (s.half g).route g dst :=
  State.setCmd_keeps (π := (·.route g dst)) (fun _ _ => rfl) s h _ g

theorem State.keepDigest_digestsFor (s : State) (h : Half) (c : Cmd) (digest : Nat) (g : Half) :
    ((s.keepDigest h c digest).half g).digestsFor c = (s.half g).digestsFor c :=
  State.setCmd_keeps (π := (·.digestsFor c)) (fun _ _ => rfl) s h _ g

/-- A replica that reaches the primary sends its digest there. -/
theorem State.compare_of_replica (hreplica : c.primaryPos ≠ (s.half (sdPlane c.packet)).myPos (sdPlane c.packet))
    (hroute : (s.half (sdPlane c.packet)).route (sdPlane c.packet) c.primaryPos % 8 ≠ 7) (digest : Nat) :
    s.compare h c digest = ((s.keepDigest h c digest).send (sdPlane c.packet) (some c.id) (c.digestFrame digest)).1 := by
  have hreached : ((s.keepDigest h c digest).send (sdPlane c.packet) (some c.id) (c.digestFrame digest)).2 = true :=
    State.send_reached (ne_of_eq_of_ne (congrArg (· % 8) (State.keepDigest_route ..)) hroute) _
  exact (if_neg fun hprimary => hreplica (hprimary.trans (State.keepDigest_myPos ..))).trans (if_pos hreached)

/-- The primary looks at the digests that it holds. -/
theorem State.compare_of_primary (hprimary : c.primaryPos = (s.half (sdPlane c.packet)).myPos (sdPlane c.packet)) (digest : Nat) :
    s.compare h c digest
      = (s.keepDigest h c digest).judge h (c.withDigest digest) digest ((s.half (sdPlane c.packet)).digestsFor c) := by
  rw [← State.keepDigest_digestsFor s h c digest]
  exact if_pos (hprimary.trans (State.keepDigest_myPos ..).symm)

/-- Nothing is judged while the digest of a replica is lacking. -/
theorem State.judge_of_lacking {arrived : Table} {j : Nat} (hj : j < c.group.length) (hother : j ≠ sdPrimary c.packet)
    (hlacking : find (c.group.getD j 0) arrived = none) (digest : Nat) : s.judge h c digest arrived = s := by
  refine if_pos ?_
  rw [Bool.not_eq_true', List.all_eq_false]
  exact ⟨j, List.mem_filter.2 ⟨List.mem_range.2 hj, decide_eq_true hother⟩, by rw [hlacking]; nofun⟩

/-- The primary waits with its digest while that of a replica is lacking. -/
theorem State.compare_of_lacking (hprimary : c.primaryPos = (s.half (sdPlane c.packet)).myPos (sdPlane c.packet)) {j : Nat}
    (hj : j < c.group.length) (hother : j ≠ sdPrimary c.packet)
    (hlacking : find (c.group.getD j 0) ((s.half (sdPlane c.packet)).digestsFor c) = none) (digest : Nat) :
    s.compare h c digest = s.keepDigest h c digest :=
  (State.compare_of_primary hprimary digest).trans (State.judge_of_lacking (c := c.withDigest digest) hj hother hlacking digest)

/-- A command that waits with its digest, and that nothing after it moved. -/
theorem State.awaits_keepDigest {t : State} {digest : Nat} (hcmd : s.cmd? c.id = some (h, c)) (hdone : c.done = none)
    (ht : t.cmd? c.id = (s.keepDigest h c digest).cmd? c.id) : t.awaits c.id h fun k => k.digest = some digest ∧ k.done = none :=
  ⟨c.withDigest digest, ht.trans (State.cmd?_setCmd hcmd rfl), rfl, rfl, hdone⟩

/-- Settles O28: the runs of UPDATE and RECONCILE and the counts after them, the modes of SHARD_DIGEST, and who waits in a comparison. -/
theorem updateCommandsComplete : Obligations.UpdateCommandsComplete := by
  refine ⟨fun s id h c => ⟨fun hrun hclean => ⟨_, exec_update_of_runs hrun, runUpdate_leaves hclean hrun.1⟩,
    fun hrun hclean => ⟨_, exec_reconcile_of_runs hrun, runReconcile_leaves hclean hrun.1⟩⟩,
    fun s id h c => ⟨?compute, ?computeCompare, exec_shardDigestCompareRecord_of_runs⟩, ?compare⟩
  case compute =>
    intro d r hrun hmode hd hr hclean
    obtain rfl : d = rangeDigest s h c := hd
    obtain rfl : r = computeRun s h c := hr
    exact ⟨_, exec_shardDigestCompute_of_runs hrun hmode, State.applyRun_mem hclean,
      State.applyRun_ended hclean hrun.1 (State.cmd?_id hrun.1)⟩
  case computeCompare =>
    intro d hrun hmode hd hclean
    obtain rfl : d = rangeDigest s h c := hd
    exact exec_shardDigestComputeCompare_of_clean hrun hmode hclean
  case compare =>
    rintro s h c digest _ hcmd hdone rfl (⟨hreplica, hroute⟩ | ⟨hprimary, j, hj, hother, hlacking⟩)
    · rw [State.compare_of_replica hreplica hroute]
      exact ⟨State.awaits_keepDigest hcmd hdone (State.cmd?_send ..), (State.send_mem ..).trans (State.setCmd_mem ..)⟩
    · rw [State.compare_of_lacking hprimary hj hother hlacking]
      exact ⟨State.awaits_keepDigest hcmd hdone rfl, State.setCmd_mem ..⟩

end Sys2Proof.Machine
end

section
/-! # O27: SOLVE_BATCH and its deadline (R248, R249) -/

namespace Sys2Proof.Machine

variable {s : State} {id p : Nat} {h : Half} {c : Cmd} {late : Nat → Bool}

/-- A batch as a row of its command finds it: the CSEs as the last visits left them, or as they start (R248). -/
def State.batch (s : State) (c : Cmd) : BatchStep :=
  { run := { mem := s.view }, cses := c.solver.getD (startCses c.packet), solved := c.solved }

/-! ## Which CSEs a visit and the end of one leave (R248, R249) -/

/-- A visit changes its own CSE alone. -/
@[simp] theorem visit_cses (e : Env) (p : Nat) (more : Bool) (b : BatchStep) (k : CseRun) : (visit e p more b k).1.cses = b.cses := by
  unfold visit
  dsimp only
  split
  case h_1 => rfl
  case h_2 problem _ =>
    cases problem.data with
    | some loaded => dsimp only; split <;> simp only [apply_ite Prod.fst, apply_ite BatchStep.cses, ite_self]
    | none =>
      dsimp only
      split
      · rfl
      · split <;> simp only [apply_ite Prod.fst, apply_ite BatchStep.cses, ite_self]

@[simp] theorem finishBusy_cses (e : Env) (p n : Nat) (b : BatchStep) (k : CseRun) : (finishBusy e p n b k).1.cses = b.cses := by
  induction n generalizing b k with
  | zero => rfl
  | succ n ih =>
    rw [finishBusy]
    split
    · rfl
    · exact (ih _ _).trans (visit_cses ..)

/-- A batch that a fault stopped, or that waits for other modules, performs no visit. -/
theorem finishBusy_of_stuck {b : BatchStep} (hstuck : b.stuck = true) (e : Env) (p n : Nat) (k : CseRun) :
    finishBusy e p n b k = (b, k) := by
  cases n with
  | zero => rfl
  | succ n => exact if_pos hstuck

@[simp] theorem closeCse_cses (e : Env) (p : Nat) (b : BatchStep) (k : CseRun) : (closeCse e p b k).cses = b.cses := by
  unfold closeCse
  refine foldl_keeps (π := BatchStep.cses) (fun b pr => ?_) _ b
  exact (apply_ite BatchStep.cses ..).trans (ite_self b.cses)

/-- The batch is closed on a CSE: no problem is in flight, and none is left to join (R249). -/
def CseRun.closed (k : CseRun) (p : Nat) : Prop := k.flight = [] ∧ k.next = sbCount p

/-- What holds of a batch while the CSEs that have passed the deadline are closed in turn: it is stuck, or closed on those so far. -/
def BatchStep.closedOrStuck (b : BatchStep) (p : Nat) (late : Nat → Bool) : Prop :=
  b.stuck = true ∨ ∀ k ∈ b.cses, late k.die = true → k.closed p

theorem deadlineCse_closes {b : BatchStep} (hb : b.closedOrStuck p late) (e : Env) (n : Nat) (k : CseRun) :
    (deadlineCse e p n b k).closedOrStuck p late := by
  unfold deadlineCse
  dsimp only
  split
  · next hstuck => exact .inl hstuck
  · next hgoes =>
    rcases hb with hstuck | hclosed
    · rw [finishBusy_of_stuck hstuck] at hgoes
      exact absurd hstuck hgoes
    · refine .inr fun m hm hlate => ?_
      rcases List.mem_append.1 hm with hm | hm
      · exact hclosed m (by simpa using hm) hlate
      · obtain rfl := List.mem_singleton.1 hm
        exact ⟨rfl, rfl⟩

/-- The batch is closed on every CSE that has passed the deadline, unless it is stuck (R249). -/
theorem deadlineAll_closes (e : Env) (p : Nat) (late : Nat → Bool) (busy : Nat → Nat) (b : BatchStep) :
    (deadlineAll e p late busy b).closedOrStuck p late := by
  refine List.foldlRecOn b.cses _ (motive := fun b : BatchStep => b.closedOrStuck p late) (.inr nofun) fun b hb k _ => ?_
  split
  · exact deadlineCse_closes hb e _ k
  · next hearly =>
    refine hb.imp_right fun hclosed m hm hlate => ?_
    rcases List.mem_append.1 hm with hm | hm
    · exact hclosed m hm hlate
    · obtain rfl := List.mem_singleton.1 hm
      exact absurd hlate hearly

theorem BatchStep.stuck_eq_false {b : BatchStep} (hstop : b.run.stop = none) (hneed : b.run.need = []) : b.stuck = false := by
  simp [BatchStep.stuck, hstop, hneed]

/-! ## Visits in progress at the deadline (R249; SPEC.md, log entry 46) -/

theorem State.busyVisits_le (s : State) (c : Cmd) (die : Nat) : s.busyVisits c die ≤ 8 := by
  unfold State.busyVisits
  split <;> omega

theorem State.busyVisits_of_late (hlate : sbDeadline c.packet ≤ max c.admitted c.resumed) (die : Nat) : s.busyVisits c die = 0 :=
  if_pos hlate

/-! ## The rows -/

theorem exec_solveBatch_of_early (hrun : s.runs id h c 0x0501)
    (hearly : ∃ k ∈ (s.batch c).cses, s.pastDeadline c.packet k.die = false) :
    exec (.solveBatch id) s = .next (s.applyBatch h c (s.envCmd h c)
      (visitAll (s.envCmd h c) c.packet (fun d => !s.pastDeadline c.packet d) (s.batch c))) := by
  obtain ⟨k, hk, hearly⟩ := hearly
  have hgoes : ¬ ((s.batch c).cses.all fun k => s.pastDeadline c.packet k.die) = true := fun hall =>
    Bool.false_ne_true (hearly.symm.trans (List.all_eq_true.1 hall k hk))
  exact congrArg Host.Outcome.next ((onCommand_runs hrun rfl).trans (if_neg hgoes))

theorem exec_solveDeadline_of_late (hrun : s.runs id h c 0x0501)
    (hlate : ∃ k ∈ (s.batch c).cses, k.flight ≠ [] ∧ s.pastDeadline c.packet k.die = true) :
    exec (.solveDeadline id) s = .next (({ s with drawnFree := s.drawnFree + 8 } : State).applyBatch h c (s.envCmd h c)
      (deadlineAll (s.envCmd h c) c.packet (s.pastDeadline c.packet) (s.busyVisits c) (s.batch c))) := by
  obtain ⟨k, hk, hflight, hlate⟩ := hlate
  have hcloses : ((s.batch c).cses.any fun k => !k.flight.isEmpty && s.pastDeadline c.packet k.die) = true :=
    List.any_eq_true.2 ⟨k, hk, by simp [hflight, hlate]⟩
  exact congrArg Host.Outcome.next ((onCommand_runs hrun rfl).trans (if_pos hcloses))

/-- Settles O27: the two rows on the batch of their command, and the visits in progress at the deadline. -/
theorem solverRowsComplete : Obligations.SolverRowsComplete := by
  intro s id h c b0 hrun hb0
  obtain rfl : b0 = s.batch c := hb0
  refine ⟨exec_solveBatch_of_early hrun, fun hlate => ⟨_, rfl, exec_solveDeadline_of_late hrun hlate, fun hstop hneed => ?_⟩,
    fun d => ⟨s.busyVisits_le c d, fun hlate => State.busyVisits_of_late hlate d⟩⟩
  exact (deadlineAll_closes ..).resolve_left (Bool.eq_false_iff.1 (BatchStep.stuck_eq_false hstop hneed))

end Sys2Proof.Machine
end

section
/-! # Rules of embedding tables and Wellheads: what is read after a table, a Wellhead or a count is written (R285, R299, R310) -/

namespace Sys2Proof.Machine

variable {s t : State}

/-! ## Tables -/

/-- Only the contexts of the halves matter to the tables of a context. -/
theorem State.table?_congr {ctx : Nat} (hctx : ∀ g, (t.half g).ctx ctx = (s.half g).ctx ctx) (tid : Nat) :
    t.table? ctx tid = s.table? ctx tid := by
  have hq : t.q.ctx ctx = s.q.ctx ctx := hctx .q
  have hk : t.k.ctx ctx = s.k.ctx ctx := hctx .k
  simp [State.table?, State.tableHalf, State.footprintOf, hctx, hq, hk]

@[simp] theorem State.finish_table? (s : State) (h : Half) (c : Cmd) (r : Result) (ctx tid : Nat) :
    (s.finish h c r).table? ctx tid = s.table? ctx tid := State.table?_congr (fun g => State.finish_ctx s h c r g ctx) tid

/-- A context with a table put in its place. -/
def Ctx.putTable (k : Ctx) (tid : Nat) (d : TableDef) : Ctx := { k with tables := put tid d k.tables }

theorem State.setTable_eq (s : State) (ctx tid : Nat) (d : TableDef) :
    s.setTable ctx tid d = s.modHalf (s.tableHalf ctx) fun x => x.modCtx ctx (·.putTable tid d) := rfl

@[simp] theorem State.setTable_mem (s : State) (ctx tid : Nat) (d : TableDef) : (s.setTable ctx tid d).mem = s.mem := State.modHalf_mem ..

/-- Whatever of a half is no part of its contexts is kept when a table is written. -/
theorem State.setTable_keeps {γ : Type} {π : HalfState → γ} (hπ : ∀ (x : HalfState) l, π { x with ctxs := l } = π x) (s : State)
    (ctx tid : Nat) (d : TableDef) (g : Half) : π ((s.setTable ctx tid d).half g) = π (s.half g) :=
  State.half_modHalf_keeps (fun x => hπ x _) s _ g

theorem State.cmd?_setTable (s : State) (ctx tid : Nat) (d : TableDef) (id : Nat) : (s.setTable ctx tid d).cmd? id = s.cmd? id :=
  State.cmd?_modHalf (fun x => x.modCtx_cmds _ _) id

theorem State.setTable_footprint (s : State) (ctx tid : Nat) (d : TableDef) (g : Half) :
    (((s.setTable ctx tid d).half g).ctx ctx).footprint = ((s.half g).ctx ctx).footprint := by
  refine State.half_modHalf_keeps (π := fun x => (x.ctx ctx).footprint) (fun x => ?_) s (s.tableHalf ctx) g
  exact (congrArg Ctx.footprint ((HalfState.ctx_modCtx (f := (·.putTable tid d)) (fun _ => rfl) ctx).trans (if_pos rfl))).trans rfl

@[simp] theorem State.setTable_tableHalf (s : State) (ctx tid : Nat) (d : TableDef) :
    (s.setTable ctx tid d).tableHalf ctx = s.tableHalf ctx :=
  congrArg tableHome (congrArg₂ max (s.setTable_footprint ctx tid d .q) (s.setTable_footprint ctx tid d .k))

/-- A table that is written is found. -/
@[simp] theorem State.table?_setTable_same (s : State) (ctx tid : Nat) (d : TableDef) :
    (s.setTable ctx tid d).table? ctx tid = some d := by
  rw [State.table?, State.setTable_tableHalf, State.setTable_eq, State.modHalf_half,
    HalfState.ctx_modCtx (f := (·.putTable tid d)) (fun _ => rfl), if_pos rfl]
  exact find_put_same ..

/-! ## Wellheads -/

@[simp] theorem HalfState.well_setWell_same (x : HalfState) {i : Nat} (hi : i < 4) (w : Well) : (x.setWell i w).well i = w := by
  simp [HalfState.well, HalfState.setWell, hi]

/-- A Wellhead that is written is read back. -/
@[simp] theorem State.well_setWell_same (s : State) (die : Nat) (w : Well) : (s.setWell die w).well die = w := by
  rw [State.well, State.setWell, State.modHalf_half, HalfState.well_setWell_same _ (Nat.mod_lt _ (by decide))]

@[simp] theorem State.setWell_mem (s : State) (die : Nat) (w : Well) : (s.setWell die w).mem = s.mem := State.modHalf_mem ..

/-- Whatever of a half is not its Wellheads is kept when one is written. -/
theorem State.setWell_keeps {γ : Type} {π : HalfState → γ} (hπ : ∀ (x : HalfState) l, π { x with wells := l } = π x) (s : State)
    (die : Nat) (w : Well) (g : Half) : π ((s.setWell die w).half g) = π (s.half g) :=
  State.half_modHalf_keeps (fun x => hπ x _) s _ g

@[simp] theorem State.setWell_table? (s : State) (die : Nat) (w : Well) (ctx tid : Nat) :
    (s.setWell die w).table? ctx tid = s.table? ctx tid :=
  State.table?_congr (fun g => State.setWell_keeps (π := (·.ctx ctx)) (fun _ _ => rfl) s die w g) tid

@[simp] theorem State.setTable_well (s : State) (ctx tid : Nat) (d : TableDef) (die : Nat) :
    (s.setTable ctx tid d).well die = s.well die :=
  congrArg (·.getD (die % 4) {}) (State.setTable_keeps (π := HalfState.wells) (fun _ _ => rfl) s ctx tid d (halfOfDie die))

/-- Where memory and the Wellheads are the same, a write of memory leaves the same. -/
theorem State.commit_mem_congr (hmem : t.mem = s.mem) (hwells : ∀ g, (t.half g).wells = (s.half g).wells) (new : Mem) :
    (t.commit new).mem = (s.commit new).mem := by
  have hlines : t.lines = s.lines := congrArg (List.flatMap Well.lines) (congrArg₂ (· ++ ·) (hwells .q) (hwells .k))
  simp [State.commit, hlines, hmem]

/-! ## Counts of the Embedding Engines (R293, R310) -/

@[simp] theorem State.countEme_mem (s : State) (die index n : Nat) : (s.countEme die index n).mem = s.mem := State.modHalf_mem ..

@[simp] theorem State.cmd?_countEme (s : State) (die index n id : Nat) : (s.countEme die index n).cmd? id = s.cmd? id :=
  State.cmd?_modHalf (fun _ => HalfState.count32_cmds ..) id

theorem State.countOutside_mem (s : State) (offs : Nat) (rows : List (Option Nat)) (shs : List (Nat × Nat × Nat)) :
    (s.countOutside offs rows shs).mem = s.mem := State.mem_foldl (fun _ _ => State.modHalf_mem ..) shs s

theorem State.cmd?_countOutside (s : State) (offs : Nat) (rows : List (Option Nat)) (shs : List (Nat × Nat × Nat)) (id : Nat) :
    (s.countOutside offs rows shs).cmd? id = s.cmd? id :=
  State.cmd?_foldl id (fun _ _ => State.cmd?_modHalf (fun _ => HalfState.gauge_cmds ..) id) shs s

theorem State.countOutside_wells (s : State) (offs : Nat) (rows : List (Option Nat)) (shs : List (Nat × Nat × Nat)) (g : Half) :
    ((s.countOutside offs rows shs).half g).wells = (s.half g).wells :=
  foldl_keeps (π := fun u : State => (u.half g).wells)
    (fun u _ => State.half_modHalf_keeps (π := HalfState.wells) (fun _ => HalfState.gauge_wells ..) u _ g) shs s

end Sys2Proof.Machine
end

section
/-! # O29: tables come and go (R285) -/

namespace Sys2Proof.Machine

variable {s : State} {id : Nat} {h : Half} {c : Cmd}

/-- The table that a TABLE_DEFINE keeps: its map and its fill row as read at admission, the row 0 where none is named. -/
def definedTable (c : Cmd) : TableDef :=
  { tdOf c.packet with
    shards := shardsOf (c.recordNum 0) (pl c.packet 160 17)
    fill := if pl c.packet 192 48 = 0 then List.replicate (tdOf c.packet).pitch 0 else bytesOf (tdOf c.packet).pitch (c.recordNum 1) }

/-- A context without a table and its hot sets. -/
def Ctx.dropTable (k : Ctx) (tid : Nat) : Ctx :=
  { k with tables := drop tid k.tables, hotSets := k.hotSets.filter (·.table ≠ tid) }

/-- A half without a table of a context: its definition, its hot sets, and what Wellheads hold of it. -/
def HalfState.deleteTable (x : HalfState) (ctx tid : Nat) : HalfState :=
  { x.modCtx ctx (·.dropTable tid) with wells := (x.modCtx ctx (·.dropTable tid)).wells.map (·.dropTable tid) }

@[simp] theorem HalfState.deleteTable_cmds (x : HalfState) (ctx tid : Nat) : (x.deleteTable ctx tid).cmds = x.cmds :=
  x.modCtx_cmds ctx (·.dropTable tid)

theorem HalfState.deleteTable_ctx (x : HalfState) (ctx tid i : Nat) :
    (x.deleteTable ctx tid).ctx i = if i = ctx then (x.ctx ctx).dropTable tid else x.ctx i :=
  HalfState.ctx_modCtx (f := (·.dropTable tid)) (fun _ => rfl) i

/-- Every half of the footprint drops a table (R285). -/
def State.deleteTable (s : State) (ctx tid : Nat) : State :=
  s.onHalves (footprintHalves (s.footprintOf ctx)) fun _ x => x.deleteTable ctx tid

theorem State.deleteTable_ctx (s : State) (ctx tid : Nat) (g : Half) (i : Nat) :
    ((s.deleteTable ctx tid).half g).ctx i
      = if g ∈ footprintHalves (s.footprintOf ctx) ∧ i = ctx then ((s.half g).ctx ctx).dropTable tid else (s.half g).ctx i := by
  rw [State.deleteTable, State.onHalves_half (footprintHalves_nodup _)]
  by_cases hin : g ∈ footprintHalves (s.footprintOf ctx) <;> simp [hin, HalfState.deleteTable_ctx]

theorem State.cmd?_deleteTable (s : State) (ctx tid id : Nat) : (s.deleteTable ctx tid).cmd? id = s.cmd? id :=
  State.cmd?_onHalves (fun _ x => x.deleteTable_cmds ctx tid) s _ id

theorem exec_tableDefine_of_runs (hrun : s.runs id h c 0x0701) (hdefine : tdDelete c.packet = false) :
    exec (.tableDefine id) s
      = .next ((s.setTable (pkCtx c.packet) ((tdOf c.packet).fld 0 8) (definedTable c)).finish h c (okResult 0 0 0)) :=
  congrArg Host.Outcome.next (onCommand_runs hrun (by simp [hdefine]))

theorem exec_tableDelete_of_runs (hrun : s.runs id h c 0x0701) (hdelete : tdDelete c.packet = true) :
    exec (.tableDelete id) s = .next ((s.deleteTable (pkCtx c.packet) (pl c.packet 0 8)).finish h c (okResult 0 0 0)) :=
  congrArg Host.Outcome.next (onCommand_runs hrun hdelete)

/-- Settles O29: the definition is found where it was put, and the deletion reaches every half of the footprint and no other context. -/
theorem tablesComeAndGo : Obligations.TablesComeAndGo := by
  intro s id h c hrun
  refine ⟨fun hdefine => ?define, fun hdelete => ?delete⟩
  case define =>
    exact ⟨_, definedTable c, exec_tableDefine_of_runs hrun hdefine, State.ended_of_runs hrun (State.cmd?_setTable ..) _,
      by simp, by simp, rfl⟩
  case delete =>
    refine ⟨_, exec_tableDelete_of_runs hrun hdelete, State.ended_of_runs hrun (State.cmd?_deleteTable ..) _,
      by simp [State.deleteTable], fun g hin => ?_, fun g i hout => ?_⟩
    · rw [State.finish_ctx, State.deleteTable_ctx, if_pos ⟨hin, rfl⟩]
      exact ⟨find_drop_same .., fun r hr => by simpa using (List.mem_filter.1 hr).2, fun n hne => find_drop_other hne _⟩
    · rw [State.finish_ctx, State.deleteTable_ctx, if_neg fun ⟨hin, hctx⟩ => hout.elim (· hin) (· hctx)]

end Sys2Proof.Machine
end

section
/-! # O30: LOOKUP (R285 to R294) -/

namespace Sys2Proof.Machine

variable {s u : State} {id : Nat} {h : Half} {c : Cmd} {t : TableDef} {rows : Fetched}

/-! ## What a LOOKUP reads and plans (R288 to R291, R329) -/

/-- The indices and weights of a LOOKUP, and the run that read them. -/
def lookupArrays (s : State) (h : Half) (c : Cmd) (t : TableDef) : List (Option Nat) × List Nat × Run :=
  lkArrays (s.envCmd h c) c.packet t { mem := s.view }

/-- The fetches that a LOOKUP plans. -/
def plannedFetches (s : State) (h : Half) (c : Cmd) (t : TableDef) : List Fetch := lookupPlan c (lookupArrays s h c t).1

/-- The entry that owns the row of a fetch for a command. -/
def fetchOwner (c : Cmd) (t : TableDef) (f : Fetch) : Option Shard := ownerIn (t.mapAt c.admitted) f.row

/-- Does a fetch go to another module? -/
def fetchesElsewhere (s : State) (c : Cmd) (t : TableDef) (f : Fetch) : Bool :=
  match fetchOwner c t f with | some x => x.pos ≠ s.ownPos (pkCtx c.packet) | none => false

/-- The die of this module at which a fetch awaits the row of a migration, if it does. -/
def awaitedDie (s : State) (c : Cmd) (t : TableDef) (f : Fetch) : Option Nat :=
  match fetchOwner c t f with
  | some x => if x.pos = s.ownPos (pkCtx c.packet) && t.awaited x f.row then some x.die else none
  | none => none

/-- Every fetch of a plan finds its row in this module (R290, R329). -/
def allHere (s : State) (c : Cmd) (t : TableDef) (plan : List Fetch) : Prop :=
  ∀ f ∈ plan, ∀ e, ownerIn (t.mapAt c.admitted) f.row = some e → e.pos = s.ownPos (pkCtx c.packet) ∧ t.awaited e f.row = false

theorem any_fetchesElsewhere_of_allHere {plan : List Fetch} (hhere : allHere s c t plan) :
    plan.any (fetchesElsewhere s c t) = false := by
  refine List.any_eq_false.2 fun f hf => ?_
  unfold fetchesElsewhere
  split
  · next e howner => simp [(hhere f hf e howner).1]
  · exact Bool.false_ne_true

theorem filterMap_awaitedDie_of_allHere {plan : List Fetch} (hhere : allHere s c t plan) :
    plan.filterMap (awaitedDie s c t) = [] := by
  refine List.filterMap_eq_nil_iff.2 fun f hf => ?_
  unfold awaitedDie
  split
  · next e howner => simp [(hhere f hf e howner).2]
  · rfl

theorem any_fetchesElsewhere_of_remote {plan : List Fetch}
    (hremote : ∃ f ∈ plan, ∃ e, ownerIn (t.mapAt c.admitted) f.row = some e ∧ e.pos ≠ s.ownPos (pkCtx c.packet)) :
    plan.any (fetchesElsewhere s c t) = true := by
  obtain ⟨f, hf, e, howner, hpos⟩ := hremote
  refine List.any_eq_true.2 ⟨f, hf, ?_⟩
  simp [fetchesElsewhere, fetchOwner, howner, hpos]

/-! ## The rows are here (R292 to R294, R310) -/

/-- The output of a LOOKUP, from its rows and the memory in which they were fetched. -/
def lookupOutput (s u : State) (h : Half) (c : Cmd) (t : TableDef) (rows : Fetched) : Run × Nat × List (Nat × Nat) :=
  lookupStores s h c t (lookupArrays s h c t).1 (lookupArrays s h c t).2.1 rows { (lookupArrays s h c t).2.2 with mem := u.view }

/-- The result of a LOOKUP: positions out of bounds, fetches, and overflows (R293, R294). -/
def lookupResult (s u : State) (h : Half) (c : Cmd) (t : TableDef) (rows : Fetched) : Result :=
  okResult ((lookupArrays s h c t).1.filter (·.isNone)).length (plannedFetches s h c t).length (lookupOutput s u h c t rows).2.1

/-- A LOOKUP whose output is stored and whose command is finished. -/
def State.storeLookup (s u : State) (h : Half) (c : Cmd) (t : TableDef) (rows : Fetched) : State :=
  (u.countOutside (c.recordNum 0) (lookupArrays s h c t).1 (lkShares c.packet)).applyRun h c (s.envCmd h c)
    (lookupOutput s u h c t rows).1 fun _ => lookupResult s u h c t rows

/-- Positions of a share that another position of its window fetches for (R291, R310). -/
def coalescedOf (s : State) (h : Half) (c : Cmd) (t : TableDef) (sh : Nat × Nat × Nat) : Nat :=
  ((sharePositions (c.recordNum 0) (lookupArrays s h c t).1 sh).filter (·.isSome)).length
    - ((plannedFetches s h c t).filter (·.die = sh.1)).length

/-- The counts of a LOOKUP on its Embedding Engines: coalesced positions and overflows (R310). -/
def State.countLookup (v s u : State) (h : Half) (c : Cmd) (t : TableDef) (rows : Fetched) : State :=
  (lookupOutput s u h c t rows).2.2.foldl (fun v d => v.countEme d.1 3 d.2)
    ((lkShares c.packet).foldl (fun v sh => v.countEme sh.1 1 (coalescedOf s h c t sh)) v)

theorem State.countLookup_mem (v s u : State) (h : Half) (c : Cmd) (t : TableDef) (rows : Fetched) :
    (v.countLookup s u h c t rows).mem = v.mem :=
  (State.mem_foldl (fun _ _ => State.countEme_mem ..) _ _).trans (State.mem_foldl (fun _ _ => State.countEme_mem ..) _ v)

theorem State.cmd?_countLookup (v s u : State) (h : Half) (c : Cmd) (t : TableDef) (rows : Fetched) (id : Nat) :
    (v.countLookup s u h c t rows).cmd? id = v.cmd? id :=
  (State.cmd?_foldl id (fun _ _ => State.cmd?_countEme ..) _ _).trans (State.cmd?_foldl id (fun _ _ => State.cmd?_countEme ..) _ v)

theorem State.storeLookup_mem (hclean : (lookupOutput s u h c t rows).1.clean) :
    (s.storeLookup u h c t rows).mem = (u.commit (lookupOutput s u h c t rows).1.settle.mem).mem :=
  (State.applyRun_mem hclean).trans (State.commit_mem_congr (State.countOutside_mem ..) (State.countOutside_wells u _ _ _) _)

theorem State.storeLookup_ended (hclean : (lookupOutput s u h c t rows).1.clean) (hcmd : u.cmd? id = some (h, c)) :
    (s.storeLookup u h c t rows).ended id h (lookupResult s u h c t rows) :=
  State.applyRun_ended (ok := fun _ => lookupResult s u h c t rows) hclean ((State.cmd?_countOutside ..).trans hcmd) (State.cmd?_id hcmd)

/-! ## The cases of the row -/

theorem exec_lookup_of_runs (hrun : s.runs id h c 0x0702) : exec (.lookup id) s = .next (runLookup s h c) :=
  congrArg Host.Outcome.next (onCommand_runs hrun rfl)

theorem runLookup_of_no_table (hnone : s.table? (pkCtx c.packet) (pl c.packet 0 8) = none) :
    runLookup s h c = s.finish h c (engineResult h srcTableMiss) := by
  dsimp only [runLookup]
  rw [hnone]

/-- A LOOKUP has its requests for rows of other modules sent, and whether all of them could be (R290). -/
def State.askLookup (s : State) (h : Half) (c : Cmd) (t : TableDef) : State × Bool :=
  (s.setCmd h { c with
      asked := true, waiting := true
      fetchDies := ((plannedFetches s h c t).zip (List.range (plannedFetches s h c t).length)).map fun f => (f.2, f.1.die) }).askRows
    c t (pl c.packet 0 8) 0 (plannedFetches s h c t)

/-- What a LOOKUP makes of its fetches: its output as far as it can be written, or the end by the fetch that failed (R296). -/
def State.finishLookup (s : State) (h : Half) (c : Cmd) (t : TableDef) (got : State × Except Result Fetched) : State :=
  match got.2 with
  | .error r =>
    ((if r.d0 = rsEngine then got.1.occur h srcTableMiss c.ctx else got.1).finish h c r).veilBags (s.envCmd h c) c.packet t
      (lkOrder c.packet)
  | .ok rows =>
    (if (lookupOutput s got.1 h c t rows).1.stop.isSome then
        (s.storeLookup got.1 h c t rows).veilBags (s.envCmd h c) c.packet t (lkUnwritten (s.envCmd h c) c.packet t)
      else s.storeLookup got.1 h c t rows).countLookup s got.1 h c t rows

theorem State.finishLookup_of_clean (hclean : (lookupOutput s u h c t rows).1.clean) :
    s.finishLookup h c t (u, .ok rows) = (s.storeLookup u h c t rows).countLookup s u h c t rows :=
  congrArg (State.countLookup · s u h c t rows) (if_neg (by simp [hclean.stop_eq_none]))

/-- A LOOKUP that has read its arrays asks for rows of other modules once, waits for rows of a migration, or fetches (R290, R329). -/
theorem runLookup_of_read (htable : s.table? (pkCtx c.packet) (pl c.packet 0 8) = some t) (hread : c.recordMissed 0 = false)
    (hstop : (lookupArrays s h c t).2.2.stop = none) (hneed : (lookupArrays s h c t).2.2.need = []) :
    runLookup s h c =
      if (plannedFetches s h c t).any (fetchesElsewhere s c t) && !c.asked then
        if (s.askLookup h c t).2 then (s.askLookup h c t).1
        else ((s.askLookup h c t).1.occur h srcUnreachable c.ctx).finish h c (engineResult h srcUnreachable)
      else if !((plannedFetches s h c t).filterMap (awaitedDie s c t)).isEmpty then
        s.setCmd h { c with heldAt := ((plannedFetches s h c t).filterMap (awaitedDie s c t)).eraseDups }
      else s.finishLookup h c t (s.fetchAll c t (pl c.packet 0 8) 0 (plannedFetches s h c t)) := by
  dsimp only [runLookup]
  rw [htable]
  dsimp only
  rw [if_neg (by simp [hread]), ← lookupArrays, if_neg (by simp [hstop]), if_neg (by simp [hneed])]
  rfl

section
variable (htable : s.table? (pkCtx c.packet) (pl c.packet 0 8) = some t) (hread : c.recordMissed 0 = false)
  (hstop : (lookupArrays s h c t).2.2.stop = none) (hneed : (lookupArrays s h c t).2.2.need = [])
include htable hread hstop hneed

/-- A LOOKUP all of whose rows are here stores its output at once (R292 to R294). -/
theorem runLookup_of_allHere (hhere : allHere s c t (plannedFetches s h c t))
    (hfetch : s.fetchAll c t (pl c.packet 0 8) 0 (plannedFetches s h c t) = (u, .ok rows))
    (hclean : (lookupOutput s u h c t rows).1.clean) :
    runLookup s h c = (s.storeLookup u h c t rows).countLookup s u h c t rows := by
  have hstays : ¬ ((plannedFetches s h c t).any (fetchesElsewhere s c t) && !c.asked) = true := by
    rw [any_fetchesElsewhere_of_allHere hhere]; exact Bool.false_ne_true
  have hcome : ¬ (!((plannedFetches s h c t).filterMap (awaitedDie s c t)).isEmpty) = true := by
    rw [filterMap_awaitedDie_of_allHere hhere]; exact Bool.false_ne_true
  rw [runLookup_of_read htable hread hstop hneed, if_neg hstays, if_neg hcome, hfetch, State.finishLookup_of_clean hclean]

/-- A LOOKUP that has not yet asked for its rows of other modules sends its requests (R290). -/
theorem runLookup_of_remote (hfirst : c.asked = false)
    (hremote : ∃ f ∈ plannedFetches s h c t, ∃ e, ownerIn (t.mapAt c.admitted) f.row = some e ∧ e.pos ≠ s.ownPos (pkCtx c.packet))
    (hask : s.askLookup h c t = (u, true)) : runLookup s h c = u := by
  have hasks : ((plannedFetches s h c t).any (fetchesElsewhere s c t) && !c.asked) = true := by
    rw [any_fetchesElsewhere_of_remote hremote, hfirst]; rfl
  rw [runLookup_of_read htable hread hstop hneed, if_pos hasks, hask, if_pos rfl]

end

/-- Settles O30: without the table, with every row here, and with rows to ask for. -/
theorem lookupCompletes : Obligations.LookupCompletes := by
  intro s id h c hrun
  rw [exec_lookup_of_runs hrun]
  refine ⟨fun hnone => by rw [runLookup_of_no_table hnone], ?_⟩
  rintro t _ htable hread rfl hstop hneed
  refine ⟨?fetched, fun hfirst hremote u hsent => ?asking⟩
  case fetched =>
    rintro hhere u rows _ hfetch hcmd rfl hclean
    obtain ⟨d, hd, hdone⟩ := State.storeLookup_ended (t := t) (rows := rows) hclean hcmd
    exact ⟨_, congrArg Host.Outcome.next (runLookup_of_allHere htable hread hstop hneed hhere hfetch hclean),
      (State.countLookup_mem ..).trans (State.storeLookup_mem hclean), d, (State.cmd?_countLookup ..).trans hd, hdone⟩
  case asking =>
    exact congrArg Host.Outcome.next (runLookup_of_remote htable hread hstop hneed hfirst hremote hsent)

end Sys2Proof.Machine
end

section
/-! # O31: HOTSET_LOAD (R305 to R307) -/

namespace Sys2Proof.Machine

variable {s : State} {id : Nat} {h : Half} {c : Cmd} {t : TableDef}

/-- The list of rows that a HOTSET_LOAD names, and the run that read it. -/
def hotList (s : State) (h : Half) (c : Cmd) : List Nat × Run :=
  ({ mem := s.view } : Run).load (s.envCmd h c) (hsList c.packet) (8 * hsCount c.packet)

/-- The hot set that a HOTSET_LOAD leaves: none without entries. -/
def hotSetsOf (p : Nat) : List HotSet :=
  if hsCount p = 0 then [] else
    [{ table := pl p 0 8, die := hsDie p, list := hsList p, count := hsCount p, refresh := hsRefresh p, due := 0 }]

/-- The hot set of a table on a die is replaced in a context. -/
def Ctx.replaceHotSet (k : Ctx) (p : Nat) : Ctx :=
  { k with hotSets := (k.hotSets.filter fun x => !(x.table = pl p 0 8 && x.die = hsDie p)) ++ hotSetsOf p }

/-- A HOTSET_LOAD that has read its list has cleared what it was to clear, and its hot set replaces the one before it. -/
def State.replaceHotSet (s : State) (h : Half) (c : Cmd) : State :=
  (if hsClear c.packet then
      (s.countRun (attrKey c.packet) (hotList s h c).2).dropHot (hsDie c.packet) (pl c.packet 0 8) fun _ => false
    else s.countRun (attrKey c.packet) (hotList s h c).2).modHalf (halfOfDie (hsDie c.packet)) fun x =>
    x.modCtx (pkCtx c.packet) (·.replaceHotSet c.packet)

/-- The rows of the list enter the hot set of a HOTSET_LOAD. -/
def State.loadHotSet (s : State) (h : Half) (c : Cmd) (t : TableDef) : State × Except Result HotTally :=
  (s.replaceHotSet h c).loadHot (hsDie c.packet) (pkCtx c.packet) (pl c.packet 0 8) t (some (attrKey c.packet)) (t.mapAt c.admitted)
    (hotEntries (hotList s h c).1) {}

/-- The result of a HOTSET_LOAD: rows loaded, skipped and left out, or the fault that stopped it (R307). -/
def hotResult : Except Result HotTally → Result
  | .ok n => okResult n.loaded n.skipped n.left
  | .error r => r

theorem Ctx.mem_replaceHotSet_of_empty {k : Ctx} {p : Nat} (hnone : hsCount p = 0) {r : HotSet} (hr : r ∈ (k.replaceHotSet p).hotSets) :
    ¬ (r.table = pl p 0 8 ∧ r.die = hsDie p) := by
  have hkept : r ∈ k.hotSets.filter fun x => !(x.table = pl p 0 8 && x.die = hsDie p) := by
    simpa [Ctx.replaceHotSet, hotSetsOf, hnone] using hr
  simpa [imp_iff_not_or] using (List.mem_filter.1 hkept).2

theorem State.replaceHotSet_ctx (s : State) (h : Half) (c : Cmd) :
    ∃ k : Ctx, ((s.replaceHotSet h c).half (halfOfDie (hsDie c.packet))).ctx (pkCtx c.packet) = k.replaceHotSet c.packet := by
  rw [State.replaceHotSet, State.modHalf_half, HalfState.ctx_modCtx (f := (·.replaceHotSet c.packet)) (fun _ => rfl), if_pos rfl]
  exact ⟨_, rfl⟩

/-- A HOTSET_LOAD whose list could be read, and that awaits no row of a migration, replaces its hot set and loads its rows. -/
theorem exec_hotsetLoad_of_read (hrun : s.runs id h c 0x0703) (htable : s.table? (pkCtx c.packet) (pl c.packet 0 8) = some t)
    (hstop : (hotList s h c).2.stop = none) (hneed : (hotList s h c).2.need = [])
    (hcome : s.hotAwaits (hsDie c.packet) (pkCtx c.packet) t (t.mapAt c.admitted) (hotEntries (hotList s h c).1) = false) :
    exec (.hotsetLoad id) s = .next (if hsCount c.packet = 0 then (s.replaceHotSet h c).finish h c emptyResult
      else (s.loadHotSet h c t).1.finish h c (hotResult (s.loadHotSet h c t).2)) := by
  refine congrArg Host.Outcome.next ((onCommand_runs hrun rfl).trans ?_)
  dsimp only [runHotset]
  rw [htable]
  dsimp only
  rw [← hotList, if_neg (by simp [hstop, hneed]), if_neg (by simp [hcome])]
  rfl

/-- Settles O31: without entries no hot set of the table is left on the die, with entries the list is loaded. -/
theorem hotSetCommandsComplete : Obligations.HotSetCommandsComplete := by
  intro s id h c t l u hrun htable hl hstop hneed hcome hu
  obtain rfl : l = hotList s h c := hl
  obtain rfl : u = s.replaceHotSet h c := hu
  have hexec := exec_hotsetLoad_of_read hrun htable hstop hneed hcome
  refine ⟨fun hnone => ⟨_, hexec.trans (by rw [if_pos hnone]), rfl, fun r hr => ?_⟩, fun hsome w n hload => ?_⟩
  · obtain ⟨k, hk⟩ := s.replaceHotSet_ctx h c
    rw [State.finish_ctx, hk] at hr
    exact Ctx.mem_replaceHotSet_of_empty hnone hr
  · have hloads : s.loadHotSet h c t = (w, .ok n) := hload
    rw [hexec, if_neg hsome, hloads, hotResult]

end Sys2Proof.Machine
end

section
/-! # O34: upkeep of the Wellheads, and patrol (R301, R304, R308, R332, R338, R339, R342) -/

namespace Sys2Proof.Machine

variable {s : State} {die : Nat}

/-! ## Aging of a sketch (R301) -/

/-- A Wellhead whose sketch has aged. -/
def Well.age (w : Well) : Well :=
  { w with
    sketch := w.sketch.filterMap fun c => if c.2 / 2 = 0 then none else some (c.1, c.2 / 2)
    increments := w.increments - 65536 }

theorem exec_sketchAging_of_full (hfull : 65536 ≤ (s.well die).increments) :
    exec (.sketchAging die) s = .next (s.setWell die (s.well die).age) :=
  congrArg Host.Outcome.next (if_neg hfull.not_gt)

/-! ## A way that fails (R304) -/

/-- A Wellhead without what a failed way held, its automatic cache stopped. -/
def Well.degrade (w : Well) (way : Nat) : Well :=
  { w with lines := [], hot := w.hot.filter fun r => !r.lines.any fun l => l / 2048 = way }

theorem Well.mem_degrade_hot {w : Well} {way : Nat} {r : HotRow} (hr : r ∈ (w.degrade way).hot) : ∀ l ∈ r.lines, l / 2048 ≠ way := by
  simpa using (List.mem_filter.1 hr).2

/-- The lines of a failed way are lost; the dirty ones of the others are written back. -/
def State.flushReadable (s : State) (die way : Nat) : State :=
  let u := s.setWell die { s.well die with lines := (s.well die).lines.filter (·.way ≠ way) }
  match (u.half (halfOfDie die)).resident with | some ctx => u.flushWell die ctx fun _ => false | none => u

/-- The status register of a Wellhead tells that it is degraded, and the way that is masked (R311). -/
def State.maskWay (s : State) (die way : Nat) : State :=
  s.modHalf (halfOfDie die) fun x =>
    (x.setField (halfOfDie die) (regKey bWH (die % 4) 0 1) 0 1 1).setField (halfOfDie die) (regKey bWH (die % 4) 0 1) (way + 1) 1 1

/-- A die whose way has failed, before the fault of it occurs. -/
def State.degradeWell (s : State) (die way : Nat) : State :=
  ((s.flushReadable die way).maskWay die way).setWell die ((((s.flushReadable die way).maskWay die way).well die).degrade way)

theorem exec_wellheadDegraded_of_unmasked {way : Nat} (hon : (s.half (halfOfDie die)).boot ≠ .off) (hunmasked : s.masked die way = false)
    (hway : way ≤ 15) :
    exec (.wellheadDegraded die way) s = .next ((s.degradeWell die way).occur (halfOfDie die) (srcWayMasked die) none) :=
  congrArg Host.Outcome.next (if_neg (by simp [hon, hunmasked, hway]))

/-! ## An automatic move that ends (R332) -/

/-- A Wellhead in which a row is no longer on the move. -/
def Well.endMove (w : Well) (k : Nat) : Well := { w with moving := w.moving.filter (· ≠ k) }

/-- A table in which the epoch of a row has advanced. -/
def TableDef.advanceEpoch (t : TableDef) (row : Nat) : TableDef :=
  { t with epochs := t.epochs.set row ((t.epochs.at row + 1) % 2 ^ 16) }

theorem exec_rowMoveComplete_of_moving {row k ctx : Nat} {t : TableDef}
    (hmoving : (s.well die).moving.find? (fun k => k % 2 ^ 40 = row) = some k) (hresident : (s.half (halfOfDie die)).resident = some ctx)
    (htable : s.table? ctx (k / 2 ^ 40) = some t) :
    exec (.rowMoveComplete die row) s
      = .next ((s.setWell die ((s.well die).endMove k)).setTable ctx (k / 2 ^ 40) (t.advanceEpoch row)) := by
  have hstays : ((s.setWell die ((s.well die).endMove k)).half (halfOfDie die)).resident = some ctx :=
    (State.setWell_keeps (π := HalfState.resident) (fun _ _ => rfl) ..).trans hresident
  have hfound : (s.setWell die ((s.well die).endMove k)).table? ctx (k / 2 ^ 40) = some t := (State.setWell_table? ..).trans htable
  refine congrArg Host.Outcome.next ?_
  dsimp only
  rw [hmoving]
  dsimp only
  rw [← Well.endMove, hstays]
  dsimp only
  rw [hfound]
  rfl

/-! ## The refresh of a hot set (R308) -/

/-- The hot set that is due on a die. -/
def State.dueHotSet (s : State) (die ctx : Nat) : Option HotSet :=
  ((s.half (halfOfDie die)).ctx ctx).hotSets.find? fun r => r.die = die && r.isDue (s.half (halfOfDie die)).count

/-- The list of a hot set, and the run that reads it. -/
def State.refreshList (s : State) (die ctx : Nat) (r : HotSet) : List Nat × Run :=
  ({ mem := s.view } : Run).load { s.envOf (halfOfDie die) ctx with fetched := r.fetched } r.list (8 * r.count)

/-- A hot set whose refresh is over is next due on the grid of its completion. -/
def State.settleRefresh (s u : State) (die ctx : Nat) (r : HotSet) : State :=
  u.modHot ctx r.table die fun y => { y with reload := false, fetched := [], due := y.next (s.half (halfOfDie die)).count }

/-- Blocks of the list on REMOTE pages are asked for, unless requests for them are out; an owner that is unreachable ends the refresh. -/
def State.askRefresh (s : State) (die ctx : Nat) (r : HotSet) : State :=
  if [s.q, s.k].any fun y => y.unacked.any (·.hot = some (r.table, r.die)) then s else
    let a := s.askList { s.envOf (halfOfDie die) ctx with fetched := r.fetched } ctx ((s.half (halfOfDie die)).gen ctx) r
      (s.refreshList die ctx r).2.need
    if a.2 then a.1 else s.settleRefresh a.1 die ctx r

/-- A refresh is over, and the reading of its list is counted. -/
def State.endRefresh (s : State) (die ctx : Nat) (r : HotSet) : State :=
  (s.settleRefresh s die ctx r).countAccess ctx none (s.refreshList die ctx r).2

/-- A refresh is over, and the rows of the hot set are brought into line with its list. -/
def State.followList (s : State) (die ctx : Nat) (r : HotSet) (t : TableDef) : State :=
  (((s.endRefresh die ctx r).dropHot die r.table fun row => (hotEntries (s.refreshList die ctx r).1).contains (row : Int)).loadHot
    die ctx r.table t none (t.mapAt (s.half (halfOfDie die)).count) (hotEntries (s.refreshList die ctx r).1) {}).1

/-- A hot set that is due: a list that cannot be read leaves its rows as they are, one that can be read replaces them. -/
theorem exec_hotsetRefresh_of_due {ctx : Nat} {r : HotSet} {t : TableDef} (hresident : (s.half (halfOfDie die)).resident = some ctx)
    (hdue : s.dueHotSet die ctx = some r) (htable : s.table? ctx r.table = some t) :
    exec (.hotsetRefresh die) s = .next (
      if (s.refreshList die ctx r).2.stop.isSome then s.endRefresh die ctx r
      else if !(s.refreshList die ctx r).2.need.isEmpty then s.askRefresh die ctx r
      else if s.hotAwaits die ctx t (t.mapAt (s.half (halfOfDie die)).count) (hotEntries (s.refreshList die ctx r).1) then s
      else s.followList die ctx r t) := by
  refine congrArg Host.Outcome.next ?_
  dsimp only
  rw [hresident]
  dsimp only
  rw [← State.dueHotSet, hdue]
  dsimp only
  rw [htable]
  rfl

/-! ## Patrol (R338, R339, R342) -/

/-- A block that ECC did not correct is judged by its seal. -/
theorem exec_patrol_of_uncorrected {h : Half} {stack block : Nat} (hrunning : (s.half h).running = true) (hstack : stack ≤ 11)
    (hblock : block * 256 < 2 ^ 36) (hpatrol : bits ((s.half h).cell h (regKey bHBM (stack / 3) (stack % 3) 0)) 0 8 ≠ 0) :
    exec (.patrol h stack block 0) s
      = .next (if s.mem.intact (hbmAddr h.part (stack / 3) (stack % 3) (block * 256)) then s else
        (s.modHalf h fun x => x.noteBlock h (stack / 3) (stack % 3) (block * 256)
            (s.mem.deadLines (hbmAddr h.part (stack / 3) (stack % 3) (block * 256))) true).occur h
          (dieSourceNum (stack / 3) (0x6B + stack % 3)) none) :=
  congrArg Host.Outcome.next (if_neg (by simpa [hrunning, hstack, hpatrol] using hblock))

/-- The register of the last finding tells the place of a block, and whether a line of it or its seal was at fault (R338). -/
theorem HalfState.find_noteBlock (x : HalfState) (h : Half) (die stack off dead : Nat) (patrol : Bool) :
    find (regKey bHBM die stack 5) (x.noteBlock h die stack off dead patrol).regs
      = some (place off 0 36 + place (if dead > 0 then 2 else 3) 36 2 + place patrol.toNat 38 1) := find_put_same ..

/-- Settles O34, row by row. -/
theorem upkeepCompletes : Obligations.UpkeepCompletes := by
  refine ⟨fun s die => ⟨fun hfull => ?aging, fun way hon hunmasked hway => ?degraded,
    fun row k ctx t hmoving hresident htable => ?move, fun ctx r t l u hresident hdue htable hl hu => ?refresh⟩,
    fun s h stack block hrunning hstack hblock hpatrol => ?patrol⟩
  case aging => exact ⟨_, exec_sketchAging_of_full hfull, State.setWell_mem .., State.well_setWell_same ..⟩
  case degraded =>
    refine ⟨s.degradeWell die way, exec_wellheadDegraded_of_unmasked hon hunmasked hway, ?_⟩
    rw [State.degradeWell, State.well_setWell_same]
    exact ⟨rfl, fun r => Well.mem_degrade_hot⟩
  case move =>
    refine ⟨_, exec_rowMoveComplete_of_moving hmoving hresident htable, ?_, State.table?_setTable_same ..⟩
    rw [State.setTable_well, State.well_setWell_same, Well.endMove]
  case refresh =>
    obtain rfl : l = s.refreshList die ctx r := hl
    obtain rfl : u = s.settleRefresh s die ctx r := hu
    rw [exec_hotsetRefresh_of_due hresident hdue htable]
    refine ⟨fun hstop => ?_, fun hstop hneed hcome => ?_⟩
    · rw [if_pos (Option.isSome_iff_ne_none.2 hstop), State.endRefresh]
    · rw [if_neg (by simp [hstop]), if_neg (by simp [hneed]), if_neg (by simp [hcome])]
      rfl
  case patrol =>
    rw [exec_patrol_of_uncorrected hrunning hstack hblock hpatrol]
    refine ⟨fun hseal => by rw [if_pos hseal], fun hseal => ⟨_, by rw [if_neg (by simp [hseal])], State.modHalf_mem ..,
      State.modHalf_other .., State.modHalf_half .., fun hwhole => ?_, fun hdead => ?_⟩⟩
    · rw [State.modHalf_half, HalfState.find_noteBlock, hwhole]; rfl
    · rw [State.modHalf_half, HalfState.find_noteBlock, if_pos (Nat.pos_of_ne_zero hdead)]; rfl

end Sys2Proof.Machine
end

section
/-! # What the runs of the engines leave of memory: its canonical form

One lemma for each function that makes a run, in the order of the model. -/

namespace Sys2Proof.Machine

variable {s u : State} {p : Prop}

theorem memOk_halt {p : Prop} {r : Run} {res : Result} (H : MemOk p r.mem) :
    MemOk p (Run.halt r res).mem := by
  unfold Run.halt
  grind

theorem memOk_loadAt {p : Prop} {r : Run} {dpa : ℕ} {n : ℕ} (H : MemOk p r.mem) :
    MemOk p (Run.loadAt r dpa n).2.mem := by
  unfold Run.loadAt
  grind [memOk_halt]

theorem memOk_crossIn {p : Prop} {e : Env} {r : Run} {dpa : ℕ} {n : ℕ} (H : MemOk p r.mem) :
    MemOk p (Run.crossIn e r dpa n).mem := by
  unfold Run.crossIn
  grind

theorem memOk_crossOut {p : Prop} {e : Env} {r : Run} {dpa : ℕ} {n : ℕ} (H : MemOk p r.mem) :
    MemOk p (Run.crossOut e r dpa n).mem := by
  unfold Run.crossOut
  grind

theorem memOk_loadPiece {p : Prop} {e : Env} {r : Run} {cxa : ℕ} {n : ℕ} (H : MemOk p r.mem) :
    MemOk p (Run.loadPiece e r cxa n).2.mem := by
  unfold Run.loadPiece
  grind [memOk_loadAt, memOk_crossIn, memOk_halt]

theorem memOk_loadPieces {p : Prop} {e : Env} {l : List (ℕ × ℕ)} {r : Run} (H : MemOk p r.mem) : MemOk p (Run.loadPieces e l r).2.mem := by
  induction l generalizing r with
  | nil => exact H
  | cons x l ih => exact ih (memOk_loadPiece H)

theorem memOk_load {p : Prop} {e : Env} {r : Run} {cxa : ℕ} {n : ℕ} (H : MemOk p r.mem) :
    MemOk p (Run.load e r cxa n).2.mem := memOk_loadPieces H

theorem memOk_loadNum {p : Prop} {e : Env} {r : Run} {cxa : ℕ} {n : ℕ} (H : MemOk p r.mem) :
    MemOk p (Run.loadNum e r cxa n).2.mem := memOk_load H

theorem memOk_storeAt {p : Prop} {r : Run} {dpa : ℕ} {bs : List ℕ} (H : MemOk p r.mem) :
    MemOk p (Run.storeAt r dpa bs).mem := by
  unfold Run.storeAt
  grind [MemOk.write]

theorem memOk_storePiece {p : Prop} {e : Env} {r : Run} {cxa : ℕ} {bs : List ℕ} {flags : ℕ} (H : MemOk p r.mem) :
    MemOk p (Run.storePiece e r cxa bs flags).mem := by
  unfold Run.storePiece
  grind [memOk_storeAt, memOk_crossOut, memOk_halt]

theorem memOk_storePieces {p : Prop} {e : Env} {l : List (ℕ × ℕ)} {bs : List ℕ} {r : Run} (H : MemOk p r.mem) :
    MemOk p (Run.storePieces e l bs r).mem := by
  induction l generalizing bs r with
  | nil => exact H
  | cons x l ih => exact ih (memOk_storePiece H)

theorem memOk_store {p : Prop} {e : Env} {r : Run} {cxa : ℕ} {bs : List ℕ} (H : MemOk p r.mem) :
    MemOk p (Run.store e r cxa bs).mem := memOk_storePieces H

theorem memOk_settle {p : Prop} {r : Run} (H : MemOk p r.mem) : MemOk p r.settle.mem := by
  unfold Run.settle
  dsimp only
  split
  · exact memOk_halt ⟨H.wf⟩
  · exact ⟨H.wf⟩

theorem memOk_loadElem {p : Prop} {e : Env} {r : Run} {d : Desc} {eb : ℕ} {a : ℤ} (H : MemOk p r.mem) :
    MemOk p (Run.loadElem e r d eb a).2.mem := by
  unfold Run.loadElem
  grind [memOk_loadAt, memOk_crossIn, memOk_loadNum]

theorem memOk_readElem {p : Prop} {e : Env} {r : Run} {d : Desc} {eb : ℕ} {q : Elem} (H : MemOk p r.mem) :
    MemOk p (Run.readElem e r d eb q).2.2.mem := by
  unfold Run.readElem
  grind [memOk_loadElem]

theorem memOk_readHeld {p : Prop} {e : Env} {r : Run} {ls : Latches} {d : Desc} {eb : ℕ} {k : ℕ} {g : ℕ} {a : Elem} (H : MemOk p r.mem) :
    MemOk p (Run.readHeld e r ls d eb k g a).2.2.1.mem := by
  unfold Run.readHeld
  grind [memOk_loadElem]

theorem memOk_readOnce {p : Prop} {e : Env} {r : Run} {ls : Latches} {k : ℕ} {d : Desc} {eb : ℕ} {idx : List ℕ} (H : MemOk p r.mem) :
    MemOk p (Run.readOnce e r ls k d eb idx).2.2.1.mem := memOk_readHeld H

theorem memOk_storeElem {p : Prop} {e : Env} {r : Run} {d : Desc} {eb : ℕ} {a : ℤ} {v : ℕ} (H : MemOk p r.mem) :
    MemOk p (Run.storeElem e r d eb a v).mem := by
  unfold Run.storeElem
  grind [memOk_storeAt, memOk_crossOut, memOk_storePiece]

theorem memOk_reduceElem {p : Prop} {e : Env} {r : Run} {d : Desc} {code : ℕ} {strict : Bool} {a : ℤ} {v : ℕ} (H : MemOk p r.mem) :
    MemOk p (Run.reduceElem e r d code strict a v).2.mem := by
  unfold Run.reduceElem
  grind [memOk_loadElem, memOk_storeElem, memOk_storePiece]

theorem memOk_codesAt {p : Prop} {r : Run} {key : ℕ} {fmt : ℕ} {n : ℕ} (H : MemOk p r.mem) :
    MemOk p (Run.codesAt r key fmt n).2.mem := memOk_loadAt H

theorem memOk_gramWindow {p : Prop} {x : TileIn} {md : FMode} {accum : Bool} {line : ℕ} {vs : List (List ℕ)} {r : Run} (H : MemOk p r.mem) :
    MemOk p (gramWindow x md accum line vs r).mem := by
  unfold gramWindow
  grind [memOk_loadAt, memOk_storeAt, MemOk.foldlM, MemOk.foldlR, MemOk.foldlRF, MemOk.foldlRS, MemOk.foldlT, MemOk.foldlB]

theorem memOk_runMma {p : Prop} {x : TileIn} {op : QueuedOp} {t : TileRun} (H : MemOk p x.mem) :
    MemOk p (runMma x op t).run.mem := by
  unfold runMma
  grind [memOk_codesAt, memOk_gramWindow, MemOk.foldlM, MemOk.foldlR, MemOk.foldlRF, MemOk.foldlRS, MemOk.foldlT, MemOk.foldlB]

theorem memOk_drainElem {p : Prop} {x : TileIn} {op : QueuedOp} {acc : List ℕ} {bias : List ℕ} {scale : ℕ} {slot : Option ℤ} {v : ℕ} {e : ℕ} {r : Run} {rep : ℕ × ℕ} (H : MemOk p r.mem) :
    MemOk p (drainElem x op acc bias scale slot v e r rep).1.mem := by
  unfold drainElem
  grind [memOk_loadAt, memOk_storeAt]

theorem memOk_runMdrain {p : Prop} {x : TileIn} {op : QueuedOp} {t : TileRun} (H : MemOk p x.mem) :
    MemOk p (runMdrain x op t).run.mem := by
  unfold runMdrain
  grind [memOk_codesAt, memOk_drainElem, MemOk.foldlM, MemOk.foldlR, MemOk.foldlRF, MemOk.foldlRS, MemOk.foldlT, MemOk.foldlB]

theorem memOk_copyLines {p : Prop} {l : List (ℕ × ℕ)} {r : Run} (H : MemOk p r.mem) : MemOk p (copyLines l r).mem := by
  induction l generalizing r with
  | nil => exact H
  | cons x l ih => exact ih (memOk_storeAt (memOk_loadAt H))

theorem memOk_runLd {p : Prop} {x : TileIn} {op : QueuedOp} {t : TileRun} (H : MemOk p x.mem) :
    MemOk p (runLd x op t).run.mem := memOk_copyLines H

theorem memOk_runSt {p : Prop} {x : TileIn} {op : QueuedOp} {t : TileRun} (H : MemOk p x.mem) :
    MemOk p (runSt x op t).run.mem := memOk_copyLines H

theorem memOk_runGzero {p : Prop} {x : TileIn} {op : QueuedOp} {t : TileRun} (H : MemOk p x.mem) :
    MemOk p (runGzero x op t).run.mem := by
  unfold runGzero
  grind [memOk_storeAt, MemOk.foldlM, MemOk.foldlR, MemOk.foldlRF, MemOk.foldlRS, MemOk.foldlT, MemOk.foldlB]

theorem memOk_spill {p : Prop} {c : Cmd} {m : Mem} (H : MemOk p m) :
    MemOk p (Cmd.spill c m) := by
  unfold Cmd.spill
  grind [MemOk.write, MemOk.foldlM, MemOk.foldlR, MemOk.foldlRF, MemOk.foldlRS, MemOk.foldlT, MemOk.foldlB]

theorem memOk_read {p : Prop} {s : Stream} {fmt : ℕ} {q : ℕ} {r : Run} (H : MemOk p r.mem) :
    MemOk p (Stream.read s fmt q r).2.mem := memOk_codesAt H

theorem memOk_latch {p : Prop} {a : Stream} {fmt : ℕ} {r : Run} (H : MemOk p r.mem) : MemOk p (a.latch fmt r).2.mem := by
  unfold Stream.latch
  split
  · exact memOk_codesAt H
  · exact H

theorem memOk_vector {p : Prop} {s : Stream} {held : Option (List ℕ)} {fmt : ℕ} {q : ℕ} {r : Run} (H : MemOk p r.mem) :
    MemOk p (Stream.vector s held fmt q r).2.mem := by
  unfold Stream.vector
  grind [memOk_read]

theorem memOk_runVx {p : Prop} {x : TileIn} {op : QueuedOp} {t : TileRun} (H : MemOk p x.mem) : MemOk p (runVx x op t).run.mem := by
  have ha {k f} : MemOk p (Stream.latch k f { mem := x.mem }).2.mem := memOk_latch H
  unfold runVx
  grind [MemOk.foldlT, memOk_vector, memOk_latch, memOk_storeAt]

theorem memOk_runVcvt {p : Prop} {x : TileIn} {op : QueuedOp} {t : TileRun} (H : MemOk p x.mem) : MemOk p (runVcvt x op t).run.mem := by
  unfold runVcvt
  dsimp only
  split
  · exact H
  · exact MemOk.foldlT (memOk_latch H) fun _ _ K => memOk_storeAt (memOk_vector K)

theorem memOk_runVlred {p : Prop} {x : TileIn} {op : QueuedOp} {t : TileRun} (H : MemOk p x.mem) : MemOk p (runVlred x op t).run.mem :=
  memOk_storeAt (MemOk.foldlRS (memOk_latch H) fun _ _ K => memOk_vector K)

theorem memOk_runVxred {p : Prop} {x : TileIn} {op : QueuedOp} {t : TileRun} (H : MemOk p x.mem) : MemOk p (runVxred x op t).run.mem := by
  unfold runVxred
  grind [MemOk.foldlT, memOk_vector, memOk_latch, memOk_storeAt]

theorem memOk_writeValue {p : Prop} {e : Env} {d : Desc} {f : Fmt} {md : FMode} {slot : Option (ℕ × ℤ)} {place : Elem} {raw : ℕ} {v : ℕ} {r : Run} {t : WriteTally} (H : MemOk p r.mem) :
    MemOk p (writeValue e d f md slot place raw v r t).1.mem := by
  unfold writeValue
  grind [memOk_reduceElem, memOk_loadElem, memOk_storeElem]

theorem memOk_vectorSource {p : Prop} {e : Env} {q : ℕ} {descs : List (ℕ × ℕ × Desc)} {u : ℕ} {k : ℕ} {i : ℕ} {f : Fmt} {md : FMode} {prev : ℕ × Fmt} {x : VecRun} (H : MemOk p x.run.mem) :
    MemOk p (vectorSource e q descs u k i f md prev x).2.run.mem := by
  unfold vectorSource
  grind [memOk_readOnce]

theorem memOk_vectorElem {p : Prop} {e : Env} {q : ℕ} {strict : Bool} {scales : List (ℕ × ℤ)} {descs : List (ℕ × ℕ × Desc)}
    {tile i u left : ℕ} {prev : ℕ × Fmt} {x : VecRun} (H : MemOk p x.run.mem) :
    MemOk p (vectorElem e q strict scales descs tile i u left prev x).run.mem := by
  induction left generalizing u prev x with
  | zero => exact H
  | succ left ih =>
    refine ih ?_
    split
    · exact memOk_writeValue (memOk_vectorSource (memOk_vectorSource (memOk_vectorSource H)))
    · exact memOk_vectorSource (memOk_vectorSource (memOk_vectorSource H))

theorem memOk_vectorElems {p : Prop} {e : Env} {q : ℕ} {strict : Bool} {scales : List (ℕ × ℤ)} {descs : List (ℕ × ℕ × Desc)}
    {count i left : ℕ} {x : VecRun} (H : MemOk p x.run.mem) : MemOk p (vectorElems e q strict scales descs count i left x).run.mem := by
  induction left generalizing i x with
  | zero => exact H
  | succ left ih => exact ih (memOk_vectorElem H)

theorem memOk_vectorRun {s u : State} {h : Half} {c : Cmd} (K : State.Keeps s u) :
    MemOk s.Inv (vectorRun u h c).1.mem := by
  unfold vectorRun
  grind [memOk_vectorElems, State.Keeps.view]

theorem memOk_readRow {p : Prop} {e : Env} {d : Desc} {eb k i1 : ℕ} {batch : List ℕ} {i0 n : ℕ} {x : Reads} (H : MemOk p x.run.mem) :
    MemOk p (readRow e d eb k i1 batch i0 n x).2.run.mem := by
  induction n generalizing i0 x with
  | zero => exact H
  | succ n ih => exact ih (memOk_readOnce H)

theorem memOk_readMatrix {p : Prop} {e : Env} {d : Desc} {eb k cols : ℕ} {batch : List ℕ} {i1 n : ℕ} {x : Reads} (H : MemOk p x.run.mem) :
    MemOk p (readMatrix e d eb k cols batch i1 n x).2.run.mem := by
  induction n generalizing i1 x with
  | zero => exact H
  | succ n ih => exact ih (memOk_readRow H)

theorem memOk_matmulElem {p : Prop} {x : MatCtx} {q : ℕ} {c : Desc} {batch : List ℕ} {row : List ℕ} {cols : List (List ℕ)} {m : ℕ} {n : ℕ} {r : Run} {t : WriteTally} (H : MemOk p r.mem) :
    MemOk p (matmulElem x q c batch row cols m n r t).1.mem := by
  unfold matmulElem
  grind [memOk_readElem, memOk_writeValue]

theorem memOk_matmulRow {p : Prop} {x : MatCtx} {q : ℕ} {d : Desc} {batch row : List ℕ} {cols : List (List ℕ)} {m n left : ℕ} {r : Run}
    {t : WriteTally} (H : MemOk p r.mem) : MemOk p (matmulRow x q d batch row cols m n left r t).1.mem := by
  induction left generalizing n r t with
  | zero => exact H
  | succ left ih => exact ih (memOk_matmulElem H)

theorem memOk_matmulRows {p : Prop} {x : MatCtx} {q : ℕ} {d : Desc} {batch : List ℕ} {cols rows : List (List ℕ)} {m : ℕ} {r : Run}
    {t : WriteTally} (H : MemOk p r.mem) : MemOk p (matmulRows x q d batch cols m rows r t).1.mem := by
  induction rows generalizing m r t with
  | nil => exact H
  | cons row rows ih => exact ih (memOk_matmulRow H)

theorem memOk_streamed {p : Prop} {r b : Run} {n : ℕ} (H : MemOk p r.mem) : MemOk p (r.streamed b n).mem := H

theorem memOk_matmulBatches {p : Prop} {x : MatCtx} {q : ℕ} {a b d : Desc} {exp : ℤ} {i left : ℕ} {r : Reads} {t : WriteTally} {ps : List ℕ}
    (H : MemOk p r.run.mem) : MemOk p (matmulBatches x q a b d exp i left r t ps).1.mem := by
  induction left generalizing i r t ps with
  | zero => exact H
  | succ left ih => exact ih (memOk_matmulRows (memOk_streamed (memOk_readMatrix (memOk_streamed (memOk_readMatrix H)))))

theorem memOk_codes {p : Prop} {e : Env} {r : Run} {cxa : ℕ} {fmt : ℕ} {n : ℕ} (H : MemOk p r.mem) :
    MemOk p (Run.codes e r cxa fmt n).2.mem := memOk_load H

theorem memOk_matmulRun {s u : State} {h : Half} {c : Cmd} (K : State.Keeps s u) :
    MemOk s.Inv (matmulRun u h c).1.mem := by
  unfold matmulRun
  grind [State.Keeps.view, memOk_codes, memOk_matmulBatches]

theorem memOk_foldGram {p : Prop} {e : Env} {q : ℕ} {sets : List (List ℕ)} {r : Run} (H : MemOk p r.mem) :
    MemOk p (foldGram e q sets r).mem := by
  unfold foldGram
  grind [memOk_store, memOk_loadNum, MemOk.foldlM, MemOk.foldlR, MemOk.foldlRF, MemOk.foldlRS, MemOk.foldlT, MemOk.foldlB]

theorem memOk_gramElems {p : Prop} {e : Env} {q i n : ℕ} {r : Run} (H : MemOk p r.mem) : MemOk p (gramElems e q i n r).mem := by
  induction n generalizing i r with
  | zero => exact H
  | succ n ih =>
    refine ih (memOk_store ?_)
    split
    · exact memOk_loadNum H
    · exact memOk_loadNum (memOk_loadNum H)

theorem memOk_readBlock {p : Prop} {e : Env} {q : ℕ} {i : ℕ} {r : Run} (H : MemOk p r.mem) :
    MemOk p (readBlock e q i r).2.mem := by
  unfold readBlock
  grind [memOk_loadNum, MemOk.foldlM, MemOk.foldlR, MemOk.foldlRF, MemOk.foldlRS, MemOk.foldlT, MemOk.foldlB]

theorem memOk_rootOne {p : Prop} {e : Env} {q : ℕ} {free : ℕ} {limits : ℕ → ℕ} {i : ℕ} {r : Run} {t : RootTally} (H : MemOk p r.mem) :
    MemOk p (rootOne e q free limits i r t).1.mem := by
  unfold rootOne
  grind [memOk_loadNum, memOk_readBlock, memOk_store]

theorem memOk_rootBlocks {p : Prop} {e : Env} {q free : ℕ} {limits : ℕ → ℕ} {i left : ℕ} {r : Run} {t : RootTally} (H : MemOk p r.mem) :
    MemOk p (rootBlocks e q free limits i left r t).1.mem := by
  induction left generalizing i r t with
  | zero => exact H
  | succ left ih =>
    unfold rootBlocks
    split
    · exact H
    · exact ih (memOk_rootOne H)

theorem memOk_rootRun {s u : State} {h : Half} {c : Cmd} (K : State.Keeps s u) :
    MemOk s.Inv (rootRun u h c).1.mem := by
  unfold rootRun
  grind [memOk_rootBlocks, State.Keeps.view]

theorem memOk_orthoRun {s u : State} {h : Half} {c : Cmd} (K : State.Keeps s u) : MemOk s.Inv (orthoRun u h c).1.mem := by
  refine MemOk.foldlR (memOk_readMatrix K.view) fun r i H => ?_
  split
  · exact memOk_storeElem H
  · exact H

theorem memOk_upBlock {p : Prop} {e : Env} {q : ℕ} {keys : WorkKeys} {lo : ℕ} {n : ℕ} {r : Run} {t : UpTally} (H : MemOk p r.mem) :
    MemOk p (upBlock e q keys lo n r t).1.mem := by
  unfold upBlock
  grind [memOk_load, memOk_store]

theorem memOk_upBlocks {p : Prop} {e : Env} {q : ℕ} {keys : WorkKeys} {fuel lo n : ℕ} {r : Run} {t : UpTally} (H : MemOk p r.mem) :
    MemOk p (upBlocks e q keys fuel lo n r t).1.mem := by
  induction fuel generalizing lo n r t with
  | zero => exact H
  | succ fuel ih =>
    unfold upBlocks
    split
    · exact H
    · exact ih (memOk_upBlock H)

theorem memOk_upShares {p : Prop} {e : Env} {q : ℕ} {keys : WorkKeys} {l : List (ℕ × ℕ × ℕ)} {r : Run} (H : MemOk p r.mem) :
    MemOk p (upShares e q keys l r).1.mem := by
  induction l generalizing r with
  | nil => exact H
  | cons x l ih => exact ih (memOk_upBlocks H)

theorem memOk_updateShares {s u : State} {h : Half} {c : Cmd} (K : State.Keeps s u) :
    MemOk s.Inv (updateShares u h c).1.mem := by
  unfold updateShares
  grind [memOk_upShares, State.Keeps.view]

theorem memOk_updateRun {s u : State} {h : Half} {c : Cmd} (K : State.Keeps s u) :
    MemOk s.Inv (updateRun u h c).mem := by
  unfold updateRun
  grind [memOk_updateShares, memOk_store]

theorem memOk_rcElems {p : Prop} {e : Env} {q : ℕ} {keys : WorkKeys} {i n : ℕ} {r : Run} {t : RcTally} (H : MemOk p r.mem) :
    MemOk p (rcElems e q keys i n r t).1.mem := by
  induction n generalizing i r t with
  | zero => exact H
  | succ n ih =>
    have hread {a b c d : ℕ} : MemOk p ((r.loadNum e a b).2.loadNum e c d).2.mem := memOk_loadNum (memOk_loadNum H)
    unfold rcElems
    grind [memOk_store]

theorem memOk_rcShares {p : Prop} {e : Env} {q : ℕ} {keys : WorkKeys} {l : List (ℕ × ℕ × ℕ)} {r : Run} (H : MemOk p r.mem) :
    MemOk p (rcShares e q keys l r).1.mem := by
  induction l generalizing r with
  | nil => exact H
  | cons x l ih => exact ih (memOk_rcElems H)

theorem memOk_reconcileShares {s u : State} {h : Half} {c : Cmd} (K : State.Keeps s u) :
    MemOk s.Inv (reconcileShares u h c).1.mem := by
  unfold reconcileShares
  grind [memOk_rcShares, State.Keeps.view]

theorem memOk_reconcileRun {s u : State} {h : Half} {c : Cmd} (K : State.Keeps s u) :
    MemOk s.Inv (reconcileRun u h c).mem := by
  unfold reconcileRun
  grind [memOk_reconcileShares, memOk_store]

theorem memOk_sealsOf {p : Prop} {e : Env} {cxa n : ℕ} {r : Run} (H : MemOk p r.mem) : MemOk p (sealsOf e cxa n r).2.mem := by
  induction n generalizing cxa r with
  | zero => exact H
  | succ n ih =>
    unfold sealsOf
    split
    · exact H
    · exact ih (memOk_load H)

theorem memOk_digestRange {p : Prop} {e : Env} {q : ℕ} {r : Run} (H : MemOk p r.mem) :
    MemOk p (digestRange e q r).2.mem := memOk_sealsOf H

theorem memOk_readBlocks {p : Prop} {e : Env} {cxa n : ℕ} {r : Run} (H : MemOk p r.mem) : MemOk p (readBlocks e cxa n r).2.mem := by
  induction n generalizing cxa r with
  | zero => exact H
  | succ n ih =>
    unfold readBlocks
    split
    · exact H
    · exact ih (memOk_load H)

theorem memOk_inWell {p : Prop} {r : Run} (H : MemOk p r.mem) :
    MemOk p (Run.inWell r).mem := by
  unfold Run.inWell
  grind

theorem memOk_lkStore {p : Prop} {e : Env} {q : ℕ} {t : TableDef} {exp : ℤ} {offs : ℕ} {rows : List (Option ℕ)} {weights : List ℕ} {got : Fetched} {sh : ℕ × ℕ × ℕ} {r0 : Run} (H : MemOk p r0.mem) :
    MemOk p (lkStore e q t exp offs rows weights got sh r0).1.mem := by
  unfold lkStore
  grind [memOk_store, MemOk.foldlM, MemOk.foldlR, MemOk.foldlRF, MemOk.foldlRS, MemOk.foldlT, MemOk.foldlB]

theorem memOk_lkArrays {p : Prop} {e : Env} {q : ℕ} {d : TableDef} {r : Run} (H : MemOk p r.mem) : MemOk p (lkArrays e q d r).2.2.mem := by
  unfold lkArrays
  dsimp only
  split
  · exact memOk_load (memOk_load H)
  · exact memOk_load H

theorem memOk_lookupStores {s u : State} {h : Half} {c : Cmd} {t : TableDef} {idx : List (Option ℕ)} {weights : List ℕ} {rows : Fetched} {r0 : Run} (H : MemOk s.Inv r0.mem) :
    MemOk s.Inv (lookupStores u h c t idx weights rows r0).1.mem := by
  unfold lookupStores
  grind [memOk_lkStore, MemOk.foldlM, MemOk.foldlR, MemOk.foldlRF, MemOk.foldlRS, MemOk.foldlT, MemOk.foldlB]

theorem memOk_loadGrads {p : Prop} {e : Env} {q : ℕ} {d : TableDef} {offs i n : ℕ} {r : Run} (H : MemOk p r.mem) :
    MemOk p (loadGrads e q d offs i n r).2.mem := by
  induction n generalizing i r with
  | zero => exact H
  | succ n ih =>
    unfold loadGrads
    split
    · exact ih H
    · exact ih (memOk_load H)

theorem memOk_keepWrite {p : Prop} {k : Keep} {e : Env} {d : Desc} {lo : ℕ} {codes : List ℕ} {scales : List ℕ} {r : Run} (H : MemOk p r.mem) :
    MemOk p (Keep.write k e d lo codes scales r).mem := by
  unfold Keep.write
  grind [memOk_storeElem, memOk_store, MemOk.foldlM, MemOk.foldlR, MemOk.foldlRF, MemOk.foldlRS, MemOk.foldlT, MemOk.foldlB]

theorem memOk_keep {p : Prop} {c : Cmd} {e : Env} {ks : List (ℕ × Keep)} {data : List ℕ} {r : Run} {x : ℕ × Keep} {lo hi : ℕ}
    (H : MemOk p r.mem) : MemOk p (c.keep e ks data r x lo hi).1.mem := by
  unfold Cmd.keep
  dsimp only
  split
  · exact H
  · exact memOk_keepWrite H

theorem memOk_keepParts {p : Prop} {c : Cmd} {e : Env} {ks : List (ℕ × Keep)} {data : List ℕ} {l : List ((ℕ × Keep) × ℕ × ℕ)} {r : Run}
    (H : MemOk p r.mem) : MemOk p (c.keepParts e ks data l r).1.mem := by
  induction l generalizing c r with
  | nil => exact H
  | cons x l ih => exact ih (memOk_keep H)

theorem memOk_keepAll {p : Prop} {c : Cmd} {e : Env} {ks : List (ℕ × Keep)} {data : List ℕ} {l : List (ℕ × Keep)} {r : Run} (H : MemOk p r.mem) :
    MemOk p (Cmd.keepAll c e ks data l r).1.mem := memOk_keepParts H

theorem memOk_loadCodes {p : Prop} {e : Env} {u : ℕ} {cxa : ℕ} {n : ℕ} {r : Run} (H : MemOk p r.mem) :
    MemOk p (loadCodes e u cxa n r).2.mem := memOk_load H

theorem memOk_collContribution {p : Prop} {e : Env} {op : ℕ} {x : HalfState} {h : Half} {u : ℕ} {r : Run} (H : MemOk p r.mem) :
    MemOk p (collContribution e op x h u r).2.2.mem := by
  unfold collContribution
  grind [memOk_loadCodes, memOk_loadNum, memOk_load, memOk_store]

theorem memOk_ledgerWork {p : Prop} {e : Env} {u : ℕ} {r : Run} (H : MemOk p r.mem) :
    MemOk p (ledgerWork e u r).mem := by
  unfold ledgerWork
  grind [memOk_loadCodes, memOk_loadNum, memOk_load, memOk_store]

theorem memOk_collReads {s u : State} {h : Half} {c : Cmd} {op : ℕ} (K : State.Keeps s u) : MemOk s.Inv (collReads u h c op).2.mem :=
  MemOk.foldlRS K.view fun _ _ H => memOk_collContribution H

theorem memOk_copyElem {p : Prop} {e : Env} {src : Desc} {dst : Desc} {fmt : ℕ} {strict : Bool} {r : Run} {t : Tally} {ls : Latches} {q : Pair} (H : MemOk p r.mem) :
    MemOk p (copyElem e src dst fmt strict r t ls q).1.mem := by
  unfold copyElem
  grind [memOk_readHeld, memOk_reduceElem, memOk_storeElem]

theorem memOk_copyElems {p : Prop} {e : Env} {src dst : Desc} {fmt : ℕ} {strict : Bool} {l : List Pair} {r : Run} {t : Tally} {ls : Latches}
    (H : MemOk p r.mem) : MemOk p (copyElems e src dst fmt strict l r t ls).1.mem := by
  induction l generalizing r t ls with
  | nil => exact H
  | cons x l ih => exact ih (memOk_copyElem H)

theorem memOk_moveRun {s u : State} {h : Half} {c : Cmd} (K : State.Keeps s u) :
    MemOk s.Inv (moveRun u h c).1.mem := by
  unfold moveRun
  grind [memOk_copyElems, State.Keeps.view]

theorem memOk_readEntry {p : Prop} {e : Env} {q : ℕ} {src : Desc} {dst : Desc} {k : ℕ} {r : Run} (H : MemOk p r.mem) :
    MemOk p (readEntry e q src dst k r).2.mem := by
  unfold readEntry
  grind [memOk_loadNum, memOk_halt]

theorem memOk_blockLoop {p : Prop} {e : Env} {q : ℕ} {src dst : Desc} {movers : List ℕ} {k n : ℕ} {seen : List (List ℤ)} {r : Run}
    {t : BlockTally} (H : MemOk p r.mem) : MemOk p (blockLoop e q src dst movers k n seen r t).1.mem := by
  induction n generalizing k seen r t with
  | zero => exact H
  | succ n ih =>
    have hread : MemOk p (readEntry e q src dst k r).2.mem := memOk_readEntry H
    unfold blockLoop
    grind [memOk_copyElems]

theorem memOk_blockRun {s u : State} {h : Half} {c : Cmd} (K : State.Keeps s u) :
    MemOk s.Inv (blockRun u h c).1.mem := by
  unfold blockRun
  grind [memOk_blockLoop, State.Keeps.view]

theorem memOk_loadProblem {p : Prop} {e : Env} {q : ℕ} {i : ℕ} {r : Run} (H : MemOk p r.mem) :
    MemOk p (loadProblem e q i r).2.mem := by
  unfold loadProblem
  grind [memOk_loadNum, memOk_codes, memOk_load]

theorem memOk_finishProblem {p : Prop} {e : Env} {q : ℕ} {i : ℕ} {l : Loaded} {o : SolveOutcome} {r : Run} (H : MemOk p r.mem) :
    MemOk p (finishProblem e q i l o r).mem := by
  unfold finishProblem
  grind [memOk_settle, memOk_store]

theorem memOk_visit {p : Prop} {e0 : Env} {q : ℕ} {more : Bool} {b : BatchStep} {c : CseRun} (H : MemOk p b.run.mem) :
    MemOk p (visit e0 q more b c).1.run.mem := by
  unfold visit
  grind [memOk_finishProblem, memOk_settle, memOk_store, memOk_loadProblem]

theorem memOk_visitAll {p : Prop} {e : Env} {q : ℕ} {may : ℕ → Bool} {b : BatchStep} (H : MemOk p b.run.mem) :
    MemOk p (visitAll e q may b).run.mem := by
  unfold visitAll
  grind [memOk_visit, MemOk.foldlM, MemOk.foldlR, MemOk.foldlRF, MemOk.foldlRS, MemOk.foldlT, MemOk.foldlB]

theorem memOk_finishBusy {p : Prop} {e : Env} {q n : ℕ} {b : BatchStep} {x : CseRun} (H : MemOk p b.run.mem) :
    MemOk p (finishBusy e q n b x).1.run.mem := by
  induction n generalizing b x with
  | zero => exact H
  | succ n ih =>
    unfold finishBusy
    split
    · exact H
    · exact ih (memOk_visit H)

theorem memOk_closeCse {p : Prop} {e0 : Env} {q : ℕ} {b : BatchStep} {c : CseRun} (H : MemOk p b.run.mem) :
    MemOk p (closeCse e0 q b c).run.mem := by
  unfold closeCse
  grind [memOk_finishProblem, memOk_settle, memOk_store, MemOk.foldlM, MemOk.foldlR, MemOk.foldlRF, MemOk.foldlRS, MemOk.foldlT, MemOk.foldlB]

theorem memOk_deadlineCse {p : Prop} {e : Env} {q : ℕ} {busy : ℕ} {b : BatchStep} {c : CseRun} (H : MemOk p b.run.mem) :
    MemOk p (deadlineCse e q busy b c).run.mem := by
  unfold deadlineCse
  grind [memOk_finishBusy, memOk_closeCse]

theorem memOk_deadlineAll {p : Prop} {e : Env} {q : ℕ} {late : ℕ → Bool} {busy : ℕ → ℕ} {b : BatchStep} (H : MemOk p b.run.mem) :
    MemOk p (deadlineAll e q late busy b).run.mem := by
  unfold deadlineAll
  grind [memOk_deadlineCse, MemOk.foldlM, MemOk.foldlR, MemOk.foldlRF, MemOk.foldlRS, MemOk.foldlT, MemOk.foldlB]

end Sys2Proof.Machine
end

section
/-! # What an operation keeps: the state, its commands and its tiles

One lemma for each operation of the model: what led to `t` keeps the invariant and the queue, and so does what leads to `t.op`. -/

namespace Sys2Proof.Machine

variable {s t : State}

/-- Of a state written out as a record only the memory and the codes have to be looked at. -/
theorem State.Keeps.record {s t : State} {q k : HalfState} {m : Mem} {by' rh : Half} {sw : Option Switch} {ni df tout bd : ℕ}
    {pe st pg th tr hq hk mr ho pf hd ie pn ib : Bool} {sg : Option Staging} {wr da : Option ℕ} {ss : Option (ℕ × List ℕ)} {po : List ℕ}
    (H : s.Keeps t) (hm : MemOk s.Inv m) :
    s.Keeps { t with
      q := q, k := k, mem := m, siphonBy := by', switch := sw, nextId := ni, drawnFree := df, pwrEn := pe, starting := st, pgood := pg
      thermTrip := th, tripped := tr, halfResetQ := hq, halfResetK := hk, modReset := mr, holdoff := ho, powerFailed := pf, hotDies := hd
      staging := sg, writing := wr, settingsStaging := ss, dynamicAddress := da, ibiEnabled := ie, portOut := po, portNack := pn, ibi := ib
      recovHalf := rh, tapOut := tout, boundary := bd } :=
  ⟨fun i => ⟨hm.wf i, (H.inv i).2⟩, H.queue⟩

/-- The link state of the Siphon is a code of the spec (R30). -/
theorem State.Keeps.siphon {s t : State} {n : ℕ} (H : s.Keeps t) (hn : n ≤ 3) : s.Keeps { t with siphon := n } :=
  H.mk' rfl id fun hl => by
    simp only [State.legal, Bool.and_eq_true, decide_eq_true_eq] at hl ⊢
    omega

theorem keeps_cross {h : Half} {c : SiphonClass} {n : ℕ} (H : s.Keeps t) :
    s.Keeps (t.cross h c n) := by
  unfold State.cross
  grind [State.modHalf_keeps]

theorem keeps_crossFor {key : Option ℕ} {h : Half} {c : SiphonClass} {n : ℕ} (H : s.Keeps t) :
    s.Keeps (t.crossFor key h c n) := by
  unfold State.crossFor
  grind [keeps_cross, State.modHalf_keeps]

theorem keeps_putMem {ctx : Option ℕ} {ws : List (ℕ × List ℕ)} (H : s.Keeps t) : s.Keeps (t.putMem ctx ws).1 := by
  unfold State.putMem
  split <;> dsimp only
  · next hm => exact State.commit_keeps H ⟨fun i => Mem.putAll_wf hm (H.view.wf i)⟩
  · exact State.modHalf_keeps H

theorem keeps_writeSlots {h : Half} {r : Ring} {slot : ℕ} {units : List (List ℕ)} (H : s.Keeps t) :
    s.Keeps (t.writeSlots h r slot units).1 := keeps_putMem H

theorem keeps_pushReply {h : Half} {ref : RingRef} {reply : ℕ} (H : s.Keeps t) :
    s.Keeps (t.pushReply h ref reply) := by
  unfold State.pushReply
  grind [keeps_putMem, State.modHalf_keeps]

theorem keeps_setGate {ctx : ℕ} {g : ℕ} {v : ℕ} (H : s.Keeps t) :
    s.Keeps (t.setGate ctx g v) := State.modHalf_keeps H

theorem keeps_applySignal {ctx : ℕ} {g : ℕ} {inc : ℕ} (H : s.Keeps t) :
    s.Keeps (t.applySignal ctx g inc) := State.modHalf_keeps (State.modHalf_keeps H)

theorem keeps_signal {h : Half} {c : Cmd} {ctx : ℕ} {g : ℕ} {inc : ℕ} (H : s.Keeps t) :
    s.Keeps (t.signal h c ctx g inc) := by
  unfold State.signal
  grind [keeps_applySignal, State.modHalf_keeps, keeps_crossFor]

theorem keeps_setCmd {h : Half} {c : Cmd} (H : s.Keeps t) :
    s.Keeps (t.setCmd h c) := State.modHalf_keeps H

theorem keeps_finish {h : Half} {c : Cmd} {r : Result} (H : s.Keeps t) :
    s.Keeps (t.finish h c r) := keeps_setCmd H

theorem keeps_countSent {plane : Half} {cmd : Option ℕ} {f : Frame} (H : s.Keeps t) :
    s.Keeps (t.countSent plane cmd f) := by
  unfold State.countSent
  grind [keeps_crossFor, State.modHalf_keeps]

theorem keeps_send {plane : Half} {cmd : Option ℕ} {f : Frame} (H : s.Keeps t) :
    s.Keeps (t.send plane cmd f).1 := by
  unfold State.send
  grind [keeps_countSent, State.setHalf_keeps]

theorem keeps_sendAs {plane : Half} {tag : Unacked → Unacked} {f : Frame} (H : s.Keeps t) :
    s.Keeps (t.sendAs plane tag f).1 := by
  unfold State.sendAs
  grind [keeps_send, State.modHalf_keeps]

theorem keeps_sendPort {plane : Half} {port : ℕ} {cmd : Option ℕ} {f : Frame} (H : s.Keeps t) :
    s.Keeps (t.sendPort plane port cmd f) := by
  unfold State.sendPort
  grind [State.setHalf_keeps, keeps_countSent]

theorem keeps_sendAll {plane : Half} {cmd : Option ℕ} {l : List Frame} (H : s.Keeps t) : s.Keeps (t.sendAll plane cmd l).1 := by
  induction l generalizing t with
  | nil => exact H
  | cons f l ih => exact ih (keeps_send H)

theorem keeps_freeEpochs {ctx : ℕ} (H : s.Keeps t) :
    s.Keeps (t.freeEpochs ctx) := State.Keeps.same H rfl rfl rfl

theorem keeps_dropCmd {h : Half} {c : Cmd} (H : s.Keeps t) :
    s.Keeps (t.dropCmd h c) := by
  unfold State.dropCmd
  grind [State.modHalf_keeps, keeps_freeEpochs, State.Keeps.record, State.Keeps.mem]

theorem keeps_portReply {h : Half} {ref : RingRef} {slot : ℕ} {units : ℕ} {word : ℕ} (H : s.Keeps t) :
    s.Keeps (t.portReply h ref slot units word) := by
  unfold State.portReply
  grind [State.modHalf_keeps]

theorem keeps_reply {h : Half} {c : Cmd} {r : Result} (H : s.Keeps t) :
    s.Keeps (t.reply h c r) := by
  unfold State.reply
  grind [keeps_portReply, keeps_pushReply, State.modHalf_keeps]

theorem keeps_writeBack {h : Half} {c : Cmd} {r : Result} (H : s.Keeps t) :
    s.Keeps (t.writeBack h c r).1 := by
  unfold State.writeBack
  grind [keeps_writeSlots]

theorem keeps_startRefresh {h : Half} {c : Cmd} {r : Result} (H : s.Keeps t) :
    s.Keeps (t.startRefresh h c r) := by
  unfold State.startRefresh
  grind [State.modHalf_keeps]

theorem keeps_sendSignals {h : Half} {c : Cmd} {r : Result} (H : s.Keeps t) :
    s.Keeps (t.sendSignals h c r) := by
  unfold State.sendSignals
  grind [keeps_signal, State.Keeps.foldlS]

theorem keeps_retire {h : Half} {c : Cmd} {r : Result} (H : s.Keeps t) :
    s.Keeps (t.retire h c r) := by
  unfold State.retire
  grind [State.modHalf_keeps, keeps_writeBack, keeps_sendSignals, keeps_startRefresh, keeps_dropCmd, keeps_reply]

theorem keeps_ringReply {h : Half} {r : Ring} {ctx : ℕ} {gen : ℕ} (H : s.Keeps t) :
    s.Keeps (t.ringReply h r ctx gen) := keeps_pushReply H

theorem keeps_tearFinish {h : Half} {id : ℕ} (H : s.Keeps t) :
    s.Keeps (t.tearFinish h id) := by
  unfold State.tearFinish
  grind [keeps_ringReply, State.modHalf_keeps, State.Keeps.foldlS]

theorem keeps_tearEnd {id : ℕ} (H : s.Keeps t) :
    s.Keeps (t.tearEnd id) := keeps_tearFinish (keeps_tearFinish H)

theorem keeps_tearNotices {h : Half} {c : Ctx} {gen : ℕ} (H : s.Keeps t) :
    s.Keeps (t.tearNotices h c gen) := keeps_sendAll H

theorem keeps_tearHalf {h : Half} {id : ℕ} {notices : Bool} (H : s.Keeps t) :
    s.Keeps (t.tearHalf h id notices) := by
  unfold State.tearHalf
  grind [State.modHalf_keeps, keeps_retire, keeps_tearNotices, keeps_tearFinish, State.Keeps.foldlS]

theorem keeps_tearSwitch {id : ℕ} (H : s.Keeps t) :
    s.Keeps (t.tearSwitch id) := by
  unfold State.tearSwitch
  grind [State.Keeps.record, State.Keeps.mem]

theorem keeps_tearCommits {id : ℕ} (H : s.Keeps t) :
    s.Keeps (t.tearCommits id) := by
  unfold State.tearCommits
  grind [keeps_finish, State.Keeps.foldlS, State.Keeps.record, State.Keeps.mem]

theorem keeps_teardown {id : ℕ} {notices : Bool} (H : s.Keeps t) :
    s.Keeps (t.teardown id notices) := by
  unfold State.teardown
  grind [keeps_tearEnd, keeps_tearHalf, keeps_tearCommits, keeps_tearSwitch]

theorem keeps_teardownFrom {h : Half} {id : ℕ} {notices : Bool} (H : s.Keeps t) :
    s.Keeps (t.teardownFrom h id notices) := by
  unfold State.teardownFrom
  grind [keeps_teardown, keeps_cross]

theorem keeps_notice {h : Half} {ctx : ℕ} {stroke : ℕ} {d1 : ℕ} {d2 : ℕ} (H : s.Keeps t) :
    s.Keeps (t.notice h ctx stroke d1 d2) := by
  unfold State.notice
  grind [keeps_pushReply, State.modHalf_keeps]

theorem keeps_loseMemory {h : Half} (H : s.Keeps t) : s.Keeps (t.loseMemory h) :=
  State.Keeps.record H (MemOk.foldlM H.mem fun _ _ K => MemOk.veil K)

theorem keeps_resetDomains {h : Half} (H : s.Keeps t) : s.Keeps (t.resetDomains h) := by
  have hlost : s.Keeps ((t.loseMemory h).modHalf h HalfState.afterReset) := State.modHalf_keeps (keeps_loseMemory H)
  have hseen : s.Keeps (if t.siphonUp && t.ready h.other then
      ((t.loseMemory h).modHalf h HalfState.afterReset).modHalf h.other fun x => { x with asserted := x.asserted ++ [0x020] }
      else (t.loseMemory h).modHalf h HalfState.afterReset) := State.Keeps.ite (State.modHalf_keeps hlost) hlost
  have hdown := State.Keeps.siphon (n := 0) (State.modHalf_keeps (h := h.other) (f := fun x => { x with siphonOut := {} }) hseen) (by omega)
  exact State.Keeps.record hdown hdown.mem

theorem keeps_cancelShared {survivor : Half} {cause : ℕ} (H : s.Keeps t) :
    s.Keeps (t.cancelShared survivor cause) := by
  unfold State.cancelShared
  grind [State.modHalf_keeps, keeps_finish, State.Keeps.foldlS]

theorem keeps_resetNotice {h : Half} {stroke : ℕ} {cause : ℕ} {trigger : ℕ} (H : s.Keeps t) :
    s.Keeps (t.resetNotice h stroke cause trigger) := by
  unfold State.resetNotice
  grind [State.modHalf_keeps, keeps_notice]

theorem keeps_endMirrored {survivor : Half} {cause : ℕ} (H : s.Keeps t) :
    s.Keeps (t.endMirrored survivor cause) := by
  unfold State.endMirrored
  grind [keeps_finish, State.Keeps.foldlS]

theorem keeps_abortWrite {cause : ℕ} (H : s.Keeps t) :
    s.Keeps (t.abortWrite cause) := by
  unfold State.abortWrite
  grind [keeps_finish, State.Keeps.record, State.Keeps.mem]

theorem keeps_halfReset {h : Half} {source trigger : ℕ} (H : s.Keeps t) : s.Keeps (t.halfReset h source trigger) := by
  unfold State.halfReset
  dsimp only
  split
  · exact H
  · have hstopped {f : HalfState → HalfState} {cause : ℕ} {l : List ℕ} : s.Keeps ((((l.foldl (fun u i =>
        if inFootprint ((t.half h).ctx i).footprint h then
          (((if ((u.half h.other).ctx i).alive then u.cross h .urgent flitBytes else u).tearSwitch i).tearHalf h.other i true).tearEnd i
        else u) ((t.resetNotice h (t.half h).count cause trigger).modHalf h f)).cancelShared h.other cause).endMirrored h.other cause).abortWrite
          cause) := by
      refine keeps_abortWrite (keeps_endMirrored (keeps_cancelShared
        (State.Keeps.foldlS (State.modHalf_keeps (keeps_resetNotice H)) fun u i K => State.Keeps.ite ?_ K)))
      exact keeps_tearEnd (keeps_tearHalf (keeps_tearSwitch (State.Keeps.ite (keeps_cross K) K)))
    refine State.Keeps.ite (keeps_resetDomains (State.modHalf_keeps ?_)) ?_
    all_goals exact State.Keeps.ite hstopped (keeps_resetDomains hstopped)

theorem keeps_triggerFreeze {h : Half} {a : FreezeArm} (H : s.Keeps t) :
    s.Keeps (t.triggerFreeze h a) := by
  unfold State.triggerFreeze
  grind [State.modHalf_keeps, keeps_cross]

theorem keeps_ibiAfter {before : State} (H : s.Keeps t) :
    s.Keeps (t.ibiAfter before) := by
  unfold State.ibiAfter
  grind [State.Keeps.record, State.Keeps.mem]

theorem keeps_occurActions {h : Half} {source : ℕ} {sev : ℕ} {info : SourceInfo} {first : Bool} {affected : Option ℕ} (H : s.Keeps t) :
    s.Keeps (t.occurActions h source sev info first affected) := by
  unfold State.occurActions
  grind [keeps_notice, State.modHalf_keeps, keeps_teardownFrom, keeps_halfReset]

theorem keeps_occurUnmasked {h : Half} {source : ℕ} {affected : Option ℕ} {superseded : Bool} (H : s.Keeps t) :
    s.Keeps (t.occurUnmasked h source affected superseded) := by
  unfold State.occurUnmasked
  grind [keeps_ibiAfter, State.modHalf_keeps, keeps_triggerFreeze, keeps_occurActions]

theorem keeps_occur {h : Half} {source : ℕ} {affected : Option ℕ} (H : s.Keeps t) :
    s.Keeps (t.occur h source affected) := by
  unfold State.occur
  grind [keeps_occurUnmasked]

theorem keeps_noteSeal {dpa : ℕ} (H : s.Keeps t) :
    s.Keeps (t.noteSeal dpa) := by
  unfold State.noteSeal
  grind [State.modHalf_keeps]

theorem keeps_sealFault {dpa : ℕ} {ctx : Option ℕ} (H : s.Keeps t) :
    s.Keeps (t.sealFault dpa ctx) := keeps_occur (keeps_noteSeal H)

theorem keeps_endSeal {h : Half} {c : Cmd} (H : s.Keeps t) :
    s.Keeps (t.endSeal h c) := by
  unfold State.endSeal
  grind [keeps_finish, State.Keeps.record, State.Keeps.mem]

theorem keeps_countTraffic {rd : Table} {wr : Table} (H : s.Keeps t) :
    s.Keeps (t.countTraffic rd wr) := by
  unfold State.countTraffic
  grind [State.modHalf_keeps, State.Keeps.foldlS]

theorem keeps_countBytes {key : ℕ} {rd : Table} {wr : Table} (H : s.Keeps t) :
    s.Keeps (t.countBytes key rd wr) := by
  unfold State.countBytes
  grind [State.modHalf_keeps, keeps_countTraffic]

theorem keeps_crossRun {key : Option ℕ} {r : Run} (H : s.Keeps t) :
    s.Keeps (t.crossRun key r) := by
  unfold State.crossRun
  grind [keeps_crossFor, State.Keeps.foldlS]

theorem keeps_countRun {key : ℕ} {r : Run} (H : s.Keeps t) :
    s.Keeps (t.countRun key r) := keeps_crossRun (keeps_countBytes H)

theorem keeps_requestBlocks {e : Env} {c : Cmd} {l : List ℕ} (H : s.Keeps t) : s.Keeps (t.requestBlocks e c l).1 := by
  induction l generalizing t with
  | nil => exact H
  | cons x l ih =>
    unfold State.requestBlocks
    split
    · exact ih H
    · exact ih (keeps_send H)

theorem keeps_sendPuts {e : Env} {c : Cmd} {l : List Put} (H : s.Keeps t) : s.Keeps (t.sendPuts e c l).1 := by
  induction l generalizing t with
  | nil => exact H
  | cons x l ih =>
    unfold State.sendPuts
    split
    · exact ih H
    · exact ih (keeps_send H)

theorem keeps_applyRun {h : Half} {c : Cmd} {e : Env} {r : Run} {ok : Run → Result} (H : s.Keeps t) (hr : MemOk s.Inv r.mem) :
    s.Keeps (t.applyRun h c e r ok) := by
  have hrun := keeps_countRun (key := attrKey c.packet) (r := r.settle) (State.commit_keeps H (memOk_settle hr))
  unfold State.applyRun
  grind [keeps_requestBlocks, keeps_setCmd, keeps_finish, keeps_occur, keeps_sendPuts, keeps_sealFault, State.Keeps.foldlS]

theorem keeps_applyPart {h : Half} {c next : Cmd} {e : Env} {r : Run} (H : s.Keeps t) (hr : MemOk s.Inv r.mem) :
    s.Keeps (t.applyPart h c e r next) := by
  have hrun := keeps_countRun (key := attrKey c.packet) (r := r.settle) (State.commit_keeps H (memOk_settle hr))
  unfold State.applyPart
  grind [keeps_applyRun, keeps_setCmd, keeps_finish, keeps_occur, keeps_sendPuts]

theorem keeps_countMovers {index : ℕ} {parts : List (ℕ × ℕ)} (H : s.Keeps t) :
    s.Keeps (t.countMovers index parts) := by
  unfold State.countMovers
  grind [State.modHalf_keeps, State.Keeps.foldlS]

theorem keeps_countOob {movers : List ℕ} {fills : ℕ} {drops : ℕ} (H : s.Keeps t) :
    s.Keeps (t.countOob movers fills drops) := by
  unfold State.countOob
  grind [keeps_countMovers, State.Keeps.record, State.Keeps.mem]

theorem keeps_setTile {h : Half} {c : Cmd} {g : ℕ} {t' : TileRun} (H : s.Keeps t) :
    s.Keeps (t.setTile h c g t') := keeps_setCmd H

theorem keeps_tileStop {h : Half} {c : Cmd} {g : ℕ} {e : TileStop} (H : s.Keeps t) :
    s.Keeps (t.tileStop h c g e) := by
  unfold State.tileStop
  grind [keeps_occur, keeps_finish, keeps_sealFault]

theorem keeps_countTile {g : ℕ} {block : ℕ} {index : ℕ} {n : ℕ} (H : s.Keeps t) :
    s.Keeps (t.countTile g block index n) := State.modHalf_keeps H

theorem keeps_countRetries {g : ℕ} {n : ℕ} {vxe : Bool} (H : s.Keeps t) :
    s.Keeps (t.countRetries g n vxe) := by
  unfold State.countRetries
  grind [keeps_countTile]

theorem keeps_applyTile {h : Half} {c : Cmd} {g : ℕ} {op : QueuedOp} {e : TileEff} (H : s.Keeps t) (he : MemOk s.Inv e.run.mem) :
    s.Keeps (t.applyTile h c g op e) := by
  have hrun {n} := keeps_countRun (key := attrKey c.packet) (r := e.run.settle)
    (State.Keeps.same (u := { t.commit e.run.settle.mem with drawnFree := n }) (State.commit_keeps H (memOk_settle he)) rfl rfl rfl)
  unfold State.applyTile
  grind [keeps_tileStop, keeps_countRetries, keeps_countTile, keeps_setTile]

theorem keeps_tileOp {g opc queue : ℕ} {f : TileIn → QueuedOp → TileRun → TileEff} (H : s.Keeps t)
    (hf : ∀ x op r, MemOk s.Inv x.mem → MemOk s.Inv (f x op r).run.mem) : s.Keeps (tileOp t g opc queue f) := by
  unfold tileOp
  grind [MemOk.tileIn, keeps_tileStop, keeps_applyTile]

theorem keeps_controlOp {g opc : ℕ} {f : State → Half → Cmd → TileRun → ℕ → State} (H : s.Keeps t)
    (hf : ∀ u h c r w, s.Keeps u → s.Keeps (f u h c r w)) : s.Keeps (controlOp t g opc f) := by
  unfold controlOp
  grind [keeps_tileStop]

theorem keeps_endTiles {h : Half} {c : Cmd} (H : s.Keeps t) :
    s.Keeps (t.endTiles h c) := by
  unfold State.endTiles
  grind [keeps_finish, keeps_setCmd]

theorem keeps_unstage {tiles : List ℕ} {line lines : ℕ} (H : s.Keeps t) : s.Keeps (t.unstage tiles line lines) :=
  State.Keeps.record H (MemOk.foldlM H.mem fun _ _ K => MemOk.veil (MemOk.veil K))

theorem keeps_veilRange {e : Env} {cxa n : ℕ} (H : s.Keeps t) : s.Keeps (t.veilRange e cxa n) := by
  have hveiled : s.Keeps (t.commit ((pieces 2048 cxa n).foldl (fun m p =>
      match e.translate p.1 with | .here dpa true => m.veil dpa (dpa + p.2) t.drawnFree | _ => m) t.view)) := by
    refine State.commit_keeps H (MemOk.foldlM H.view fun m p K => ?_)
    split
    · exact MemOk.veil K
    · exact K
  exact State.Keeps.record hveiled hveiled.mem

theorem keeps_endScratch {h : Half} {c : Cmd} (H : s.Keeps t) :
    s.Keeps (t.endScratch h c) := by
  unfold State.endScratch
  grind [keeps_veilRange]

theorem keeps_leavePc {g : ℕ} {free : ℕ} (H : s.Keeps t) :
    s.Keeps (t.leavePc g free) := State.modHalf_keeps H

theorem keeps_countStalls {vxe : Bool} {l : List ℕ} (H : s.Keeps t) : s.Keeps (t.countStalls vxe l) := by
  induction l generalizing t with
  | nil => exact H
  | cons g l ih => exact ih (keeps_countRetries (State.Keeps.record H H.mem))

theorem keeps_afterTiles {p : ℕ} {vxe : Bool} {t' : WriteTally} {line : ℕ} {lines : ℕ} (H : s.Keeps t) :
    s.Keeps (t.afterTiles p vxe t' line lines) := by
  unfold State.afterTiles
  grind [keeps_countTile, keeps_countStalls, keeps_unstage, keeps_countOob, State.Keeps.foldlS]

theorem keeps_runVector {h : Half} {c : Cmd} (H : s.Keeps t) :
    s.Keeps (runVector t h c) := by
  unfold runVector
  grind [keeps_finish, memOk_vectorRun, keeps_applyRun, keeps_afterTiles, State.Keeps.record, State.Keeps.mem]

theorem keeps_runMatmul {h : Half} {c : Cmd} (H : s.Keeps t) : s.Keeps (runMatmul t h c) := by
  have hdrawn : s.Keeps { t with drawnFree := t.drawnFree + 2 } := State.Keeps.record H H.mem
  have hrun := memOk_matmulRun (h := h) (c := c) hdrawn
  unfold runMatmul
  grind [keeps_finish, keeps_setCmd, keeps_applyRun, keeps_countTile, keeps_afterTiles, keeps_veilRange, State.Keeps.foldlS]

theorem keeps_countCse {d : ℕ} {index : ℕ} {n : ℕ} (H : s.Keeps t) :
    s.Keeps (t.countCse d index n) := State.modHalf_keeps H

theorem keeps_runRoot {h : Half} {c : Cmd} (H : s.Keeps t) :
    s.Keeps (runRoot t h c) := by
  unfold runRoot
  grind [memOk_rootRun, keeps_applyRun, keeps_veilRange, keeps_countCse, State.modHalf_keeps, State.Keeps.foldlS, State.Keeps.record, State.Keeps.mem]

theorem keeps_runOrtho {h : Half} {c : Cmd} (H : s.Keeps t) : s.Keeps (runOrtho t h c) := by
  have hrun {ok} := keeps_applyRun (h := h) (c := c) (e := { t.envCmd h c with part := dieHalf (orDie c.packet) }) (ok := ok) H
    (memOk_orthoRun (h := h) (c := c) H)
  unfold runOrtho
  dsimp only
  split
  · exact keeps_finish H
  · split
    · exact hrun
    · exact State.Keeps.ite (keeps_countCse (keeps_afterTiles (keeps_veilRange (State.Keeps.record hrun hrun.mem))))
        (keeps_afterTiles (keeps_veilRange (State.Keeps.record hrun hrun.mem)))

theorem keeps_sendAck {h : Half} {src : ℕ} (H : s.Keeps t) :
    s.Keeps (t.sendAck h src) := keeps_send (State.modHalf_keeps H)

theorem keeps_ackMany {h : Half} {src : ℕ} (H : s.Keeps t) :
    s.Keeps (t.ackMany h src) := by
  unfold State.ackMany
  grind [keeps_sendAck]

theorem keeps_ackOld {h : Half} (H : s.Keeps t) :
    s.Keeps (t.ackOld h) := by
  unfold State.ackOld
  grind [keeps_sendAck, State.Keeps.foldlS]

theorem keeps_nackFrame {h : Half} {port : ℕ} {f : Frame} {reason : ℕ} (H : s.Keeps t) :
    s.Keeps (t.nackFrame h port f reason) := keeps_send (State.modHalf_keeps H)

theorem keeps_noteFrame {h : Half} {f : Frame} {due : Bool} (H : s.Keeps t) :
    s.Keeps (t.noteFrame h f due) := keeps_ackMany (State.modHalf_keeps H)

theorem keeps_dropNoted {h : Half} {port : ℕ} {f : Frame} (H : s.Keeps t) :
    s.Keeps (t.dropNoted h port f) := State.modHalf_keeps H

theorem keeps_settleAnswer {h : Half} {port : ℕ} {f : Frame} {a : Answer} (H : s.Keeps a.state) : s.Keeps (State.settleAnswer h port f a) := by
  cases a with
  | done u => exact keeps_noteFrame H
  | refuse u n => exact keeps_nackFrame (keeps_noteFrame H)
  | later u => exact H

theorem keeps_receive {h : Half} {port type : ℕ} {f : Frame} {act : State → Frame → Answer} (H : s.Keeps t)
    (hact : ∀ u g, s.Keeps u → s.Keeps (act u g).state) :
    s.Keeps (t.receive h port f type act) := by
  have hin : s.Keeps (t.modHalf h fun y => y.countIn port f) := State.modHalf_keeps H
  unfold State.receive
  dsimp only
  refine State.Keeps.ite H ?_
  split
  · exact hin
  · exact keeps_dropNoted hin
  · exact keeps_nackFrame (keeps_noteFrame hin)
  · exact keeps_settleAnswer (hact _ _ hin)

theorem keeps_receiveSpur {type : ℕ} {f : Frame} {act : State → Frame → Answer} (H : s.Keeps t)
    (hact : ∀ u g, s.Keeps u → s.Keeps (act u g).state) :
    s.Keeps (t.receiveSpur f type act) := by
  have hin : s.Keeps (t.modHalf .q fun y => y.countIn 4 f) := State.modHalf_keeps H
  unfold State.receiveSpur
  dsimp only
  refine State.Keeps.ite H (State.Keeps.ite (keeps_dropNoted hin) (State.Keeps.ite hin ?_))
  have hans := hact _ { f with src := t.q.myPos .q, crc := if f.data.isEmpty then 0 else crc32c f.data } hin
  split <;> rename_i ha <;> rw [ha] at hans
  · exact keeps_noteFrame hans
  · exact keeps_occur (keeps_nackFrame (keeps_noteFrame hans))
  · exact hans

theorem keeps_receiveRelayed {h : Half} {type : ℕ} {f : Frame} {act : State → Frame → Answer} (H : s.Keeps t)
    (hact : ∀ u g, s.Keeps u → s.Keeps (act u g).state) :
    s.Keeps (t.receiveRelayed h f type act) := by
  have hin {port} : s.Keeps (t.modHalf h fun y => y.countIn port f) := State.modHalf_keeps H
  exact State.Keeps.ite H (State.Keeps.ite (keeps_dropNoted hin) (State.Keeps.ite hin (keeps_settleAnswer (hact _ _ hin))))

end Sys2Proof.Machine
end

section
/-! # What an operation keeps: updates, embedding and checkpoints -/

namespace Sys2Proof.Machine

variable {s t : State}

theorem keeps_countUpu {d : ℕ} {index : ℕ} {n : ℕ} (H : s.Keeps t) :
    s.Keeps (t.countUpu d index n) := State.modHalf_keeps H

theorem keeps_runUpdate {h : Half} {c : Cmd} (H : s.Keeps t) :
    s.Keeps (runUpdate t h c) := by
  unfold runUpdate
  grind [memOk_updateShares, memOk_updateRun, keeps_applyRun, keeps_countUpu, State.Keeps.foldlS]

theorem keeps_runReconcile {h : Half} {c : Cmd} (H : s.Keeps t) :
    s.Keeps (runReconcile t h c) := by
  unfold runReconcile
  grind [memOk_reconcileShares, memOk_reconcileRun, keeps_applyRun, keeps_countUpu, State.Keeps.foldlS]

theorem keeps_runCompute {h : Half} {c : Cmd} (H : s.Keeps t) : s.Keeps (runCompute t h c) := by
  have hrun {bs : List ℕ} : MemOk s.Inv ((digestRange (t.envCmd h c) c.packet { mem := t.view }).2.store (t.envCmd h c) (sdRecord c.packet) bs).mem :=
    memOk_store (memOk_digestRange (r := { mem := t.view }) H.view)
  unfold runCompute
  exact keeps_applyRun H hrun

theorem keeps_haltCtx {ctx : ℕ} (H : s.Keeps t) :
    s.Keeps (t.haltCtx ctx) := by
  unfold State.haltCtx
  grind [State.modHalf_keeps]

theorem keeps_conclude {h : Half} {c : Cmd} {digest : ℕ} {v : Verdict} {differs restored : Bool} {r : Run} (H : s.Keeps t)
    (hr : MemOk s.Inv r.mem) : s.Keeps (t.conclude h c digest v differs restored r) := by
  have hrun {c' e ok} := keeps_applyRun (h := h) (c := c') (e := e) (ok := ok) H
    (memOk_store (e := t.envCmd h c) (cxa := sdRecord c.packet) (bs := verdictRecord c digest v restored) hr)
  unfold State.conclude
  dsimp only
  split
  · split
    · exact keeps_haltCtx hrun
    · exact hrun
  · exact hrun

theorem keeps_diverges {c : Cmd} (H : s.Keeps t) :
    s.Keeps (t.diverges c) := keeps_occur H

theorem keeps_judge {h : Half} {c : Cmd} {digest : ℕ} {arrived : Table} (H : s.Keeps t) : s.Keeps (t.judge h c digest arrived) := by
  have hsent {p : Prop} [Decidable p] {g : Half} {i : Option ℕ} {l : List Frame} {k : Cmd} {f} :
      s.Keeps (if p then ((t.modHalf g f).sendAll g i l).1 else ((t.modHalf g f).sendAll g i l).1.diverges k) :=
    State.Keeps.ite (keeps_sendAll (State.modHalf_keeps H)) (keeps_diverges (keeps_sendAll (State.modHalf_keeps H)))
  unfold State.judge
  dsimp only
  refine State.Keeps.ite H (State.Keeps.ite (keeps_conclude hsent hsent.view) ?_)
  exact State.Keeps.ite (keeps_finish (keeps_occur hsent)) (keeps_conclude (keeps_occur hsent) (keeps_occur hsent).view)

theorem keeps_compare {h : Half} {c0 : Cmd} {digest : ℕ} (H : s.Keeps t) :
    s.Keeps (t.compare h c0 digest) := by
  unfold State.compare
  grind [keeps_setCmd, keeps_judge, keeps_send, keeps_finish, keeps_occur]

theorem keeps_runComputeCompare {h : Half} {c : Cmd} (H : s.Keeps t) : s.Keeps (runComputeCompare t h c) :=
  State.Keeps.ite (keeps_applyRun H (memOk_digestRange H.view)) (keeps_compare (keeps_countRun H))

theorem keeps_takeDigest {h : Half} {f : Frame} (H : s.Keeps t) :
    s.Keeps (takeDigest h t f).state := by
  unfold takeDigest
  grind [State.modHalf_keeps, keeps_judge, Answer.state]

theorem keeps_startRestore {h : Half} {c : Cmd} {digest : ℕ} {v : Verdict} (H : s.Keeps t) :
    s.Keeps (t.startRestore h c digest v) := by
  unfold State.startRestore
  grind [memOk_settle, memOk_store, State.Keeps.view, keeps_applyPart, keeps_diverges, keeps_sendAll, keeps_finish, keeps_occur, State.Keeps.record, State.Keeps.mem]

theorem keeps_ackVerdict {c : Cmd} (H : s.Keeps t) :
    s.Keeps (t.ackVerdict c) := by
  unfold State.ackVerdict
  grind [State.modHalf_keeps]

theorem keeps_endRestore {h : Half} {c : Cmd} {v : Verdict} (H : s.Keeps t) : s.Keeps (t.endRestore h c v) :=
  keeps_ackVerdict (keeps_conclude H (memOk_store (r := { mem := t.view }) H.view))

theorem keeps_takeVerdict {h : Half} {f : Frame} (H : s.Keeps t) : s.Keeps (takeVerdict h t f).state := by
  have hended {p : Prop} [Decidable p] {g : Half} {c k : Cmd} {own : ℕ} {v : Verdict} {b : Bool} :
      s.Keeps ((if p then t.diverges c else t).conclude g k own v b false { mem := t.view }) :=
    keeps_conclude (State.Keeps.ite (keeps_diverges H) H) H.view
  unfold takeVerdict
  dsimp only
  split
  · exact H
  · split
    · exact H
    · split
      · exact H
      · split
        · exact H
        · split
          · exact H
          · split <;> dsimp only [Answer.state]
            · exact keeps_startRestore H
            · exact hended

theorem keeps_changeSlot {h : Half} {c : Cmd} {f : CkptSlot → Option CkptSlot} (H : s.Keeps t) :
    s.Keeps (t.changeSlot h c f) := by
  unfold State.changeSlot
  grind [keeps_finish, State.modHalf_keeps]

theorem keeps_ckptStage {h : Half} {c : Cmd} {plane : Half} {fs : List Frame} (H : s.Keeps t) :
    s.Keeps (t.ckptStage h c plane fs) := by
  unfold State.ckptStage
  grind [keeps_sendAll, keeps_setCmd, keeps_finish, keeps_occur]

theorem keeps_runCkptWrite {h : Half} {c : Cmd} (H : s.Keeps t) :
    s.Keeps (runCkptWrite t h c) := by
  unfold runCkptWrite
  grind [keeps_ckptStage, memOk_readBlocks, State.Keeps.view, keeps_applyRun, keeps_countRun, keeps_sendAll, keeps_finish, keeps_occur, State.Keeps.record, State.Keeps.mem]

theorem keeps_manifestFails {h : Half} {c : Cmd} {plane : Half} (H : s.Keeps t) :
    s.Keeps (t.manifestFails h c plane) := keeps_finish (keeps_occur H)

theorem keeps_ckptDiverges {h : Half} {c : Cmd} {plane : Half} {halt : Bool} (H : s.Keeps t) :
    s.Keeps (t.ckptDiverges h c plane halt) := by
  unfold State.ckptDiverges
  grind [keeps_occur, keeps_finish, keeps_haltCtx]

theorem keeps_runCkptVerify {h : Half} {c : Cmd} (H : s.Keeps t) :
    s.Keeps (runCkptVerify t h c) := by
  unfold runCkptVerify
  grind [keeps_ckptStage, keeps_manifestFails, memOk_readBlocks, State.Keeps.view, keeps_applyRun, keeps_countRun, keeps_finish, keeps_ckptDiverges, keeps_sendAll, State.Keeps.record, State.Keeps.mem]

theorem keeps_restoreBlocks {h : Half} {c : Cmd} {m : ℕ} {x : List (List ℕ) × Run} (H : s.Keeps t) (hx : MemOk s.Inv x.2.mem) :
    s.Keeps (t.restoreBlocks h c m x) :=
  State.Keeps.ite (keeps_ckptDiverges (keeps_veilRange (keeps_countRun H))) (keeps_applyRun H (memOk_store hx))

theorem keeps_runRestore {h : Half} {c : Cmd} (H : s.Keeps t) :
    s.Keeps (runRestore t h c) := by
  unfold runRestore
  grind [memOk_loadNum, State.Keeps.view, keeps_applyRun, keeps_restoreBlocks, memOk_readBlocks, keeps_manifestFails, keeps_ckptStage, State.Keeps.record, State.Keeps.mem]

theorem keeps_refreshParent {h : Half} (H : s.Keeps t) :
    s.Keeps (t.refreshParent h) := by
  unfold State.refreshParent
  grind [State.modHalf_keeps, keeps_occur]

theorem keeps_yieldMaster (H : s.Keeps t) :
    s.Keeps (t.yieldMaster) := by
  unfold State.yieldMaster
  grind [keeps_refreshParent, State.modHalf_keeps]

theorem keeps_followParent {h : Half} {p : ℕ} {arrival : ℕ} {offset : ℤ} (H : s.Keeps t) :
    s.Keeps (t.followParent h p arrival offset) := by
  unfold State.followParent
  grind [State.modHalf_keeps, keeps_occur, State.Keeps.record, State.Keeps.mem]

theorem keeps_commitStu {before : ℕ} (H : s.Keeps t) :
    s.Keeps (t.commitStu before) := by
  unfold State.commitStu
  grind [State.modHalf_keeps, keeps_refreshParent, keeps_yieldMaster]

theorem keeps_setTable {ctx : ℕ} {tid : ℕ} {t' : TableDef} (H : s.Keeps t) :
    s.Keeps (t.setTable ctx tid t') := State.modHalf_keeps H

theorem keeps_countAccess {ctx : ℕ} {key : Option ℕ} {r : Run} (H : s.Keeps t) :
    s.Keeps (t.countAccess ctx key r) := by
  unfold State.countAccess
  grind [keeps_countRun, keeps_crossRun, keeps_countTraffic, keeps_sealFault, State.Keeps.foldlS]

theorem keeps_readFrom {held : Bool} {d : ℕ} {ctx : ℕ} {key : Option ℕ} {cxa : ℕ} {n : ℕ} (H : s.Keeps t) :
    s.Keeps (t.readFrom held d ctx key cxa n).1 := keeps_countAccess H

theorem keeps_writeTo {held : Bool} {d : ℕ} {ctx : ℕ} {key : Option ℕ} {cxa : ℕ} {bs : List ℕ} (H : s.Keeps t) :
    s.Keeps (t.writeTo held d ctx key cxa bs).1 := by
  unfold State.writeTo
  grind [memOk_settle, memOk_store, State.Keeps.view, keeps_countAccess, State.commit_keeps, memOk_inWell, State.Keeps.record, State.Keeps.mem]

theorem keeps_readAt {d : ℕ} {ctx : ℕ} {key : Option ℕ} {cxa : ℕ} {n : ℕ} (H : s.Keeps t) :
    s.Keeps (t.readAt d ctx key cxa n).1 := keeps_readFrom H

theorem keeps_writeAt {d : ℕ} {ctx : ℕ} {key : Option ℕ} {cxa : ℕ} {bs : List ℕ} (H : s.Keeps t) :
    s.Keeps (t.writeAt d ctx key cxa bs).1 := keeps_writeTo H

theorem keeps_setWell {d : ℕ} {w : Well} (H : s.Keeps t) :
    s.Keeps (t.setWell d w) := State.modHalf_keeps H

theorem keeps_countWell {d : ℕ} {index : ℕ} {n : ℕ} (H : s.Keeps t) :
    s.Keeps (t.countWell d index n) := State.modHalf_keeps H

theorem keeps_countEme {d : ℕ} {index : ℕ} {n : ℕ} (H : s.Keeps t) :
    s.Keeps (t.countEme d index n) := State.modHalf_keeps H

theorem keeps_wellBytes {d : ℕ} {sub : ℕ} {n : ℕ} (H : s.Keeps t) :
    s.Keeps (t.wellBytes d sub n) := State.modHalf_keeps H

theorem keeps_evict {d ctx : ℕ} {l : WhLine} (H : s.Keeps t) : s.Keeps (t.evict d ctx l) := by
  have hline {u : State} (K : s.Keeps u) : MemOk s.Inv (l.over u.view) := ⟨fun i => WhLine.over_wf l (K.view.wf i)⟩
  unfold State.evict
  grind [keeps_setWell, keeps_countTraffic, State.commit_keeps]

theorem keeps_flushWell {d : ℕ} {ctx : ℕ} {keep : WhLine → Bool} (H : s.Keeps t) :
    s.Keeps (t.flushWell d ctx keep) := by
  unfold State.flushWell
  grind [keeps_evict, State.Keeps.foldlS]

theorem keeps_fillLine {d : ℕ} {ctx : ℕ} {t' : TableDef} {e : Shard} {key : ℕ} {bs : List ℕ} (H : s.Keeps t) :
    s.Keeps (t.fillLine d ctx t' e key bs).1 := by
  unfold State.fillLine
  grind [keeps_wellBytes, keeps_setWell, keeps_evict, State.Keeps.foldlS]

theorem keeps_readHot {d : ℕ} {ctx : ℕ} {key : Option ℕ} {t' : TableDef} {r : HotRow} (H : s.Keeps t) :
    s.Keeps (t.readHot d ctx key t' r).1 := by
  unfold State.readHot
  grind [keeps_countAccess, keeps_wellBytes]

theorem keeps_fetchRow {d : ℕ} {ctx : ℕ} {tid : ℕ} {t' : TableDef} {key : Option ℕ} {e : Shard} {row : ℕ} (H : s.Keeps t) :
    s.Keeps (t.fetchRow d ctx tid t' key e row).1 := by
  unfold State.fetchRow
  grind [keeps_readHot, keeps_countWell, keeps_readAt, keeps_setWell, keeps_readFrom, keeps_wellBytes, keeps_fillLine]

theorem keeps_peekRow {d : ℕ} {ctx : ℕ} {tid : ℕ} {t' : TableDef} {key : Option ℕ} {e : Shard} {row : ℕ} (H : s.Keeps t) :
    s.Keeps (t.peekRow d ctx tid t' key e row).1 := by
  unfold State.peekRow
  grind [keeps_readHot, keeps_readFrom, keeps_wellBytes, keeps_readAt]

theorem keeps_writeRow {d : ℕ} {ctx : ℕ} {tid : ℕ} {t' : TableDef} {key : Option ℕ} {e : Shard} {row : ℕ} {bs : List ℕ} (H : s.Keeps t) :
    s.Keeps (t.writeRow d ctx tid t' key e row bs).1 := by
  unfold State.writeRow
  grind [keeps_wellBytes, keeps_writeTo]

theorem keeps_saveWells {h : Half} {ctx : ℕ} (H : s.Keeps t) :
    s.Keeps (t.saveWells h ctx) := by
  unfold State.saveWells
  grind [keeps_flushWell, State.modHalf_keeps, State.Keeps.foldlS]

theorem keeps_crossDies {c : Cmd} {from' : ℕ} {to' : ℕ} {n : ℕ} (H : s.Keeps t) :
    s.Keeps (t.crossDies c from' to' n) := by
  unfold State.crossDies
  grind [keeps_crossFor]

theorem keeps_fetchAll {c : Cmd} {d : TableDef} {tid i : ℕ} {l : List Fetch} (H : s.Keeps t) : s.Keeps (t.fetchAll c d tid i l).1 := by
  induction l generalizing t i with
  | nil => exact H
  | cons f l ih =>
    have hgot {p : Prop} [Decidable p] {e : Shard} {bs : List ℕ} {r : Result} : s.Keeps (if p then (t, Except.ok bs)
        else if d.retired e f.row then (t, .error r)
        else ((t.crossDies c f.die e.die flitBytes).crossDies c e.die f.die d.pitch).fetchRow e.die (c.ctx.getD 0) tid d
          (some (attrKey c.packet)) e f.row).1 := by
      split
      · exact H
      · split
        · exact H
        · exact keeps_fetchRow (keeps_crossDies (keeps_crossDies H))
    unfold State.fetchAll
    dsimp only
    split
    · exact H
    · split
      · exact hgot
      · exact ih (State.Keeps.ite hgot (keeps_countEme hgot))

theorem keeps_askRows {c : Cmd} {d : TableDef} {tid i : ℕ} {l : List Fetch} (H : s.Keeps t) : s.Keeps (t.askRows c d tid i l).1 := by
  induction l generalizing t i with
  | nil => exact H
  | cons f l ih =>
    unfold State.askRows
    grind [keeps_send]

theorem keeps_countOutside {offs : ℕ} {rows : List (Option ℕ)} {shs : List (ℕ × ℕ × ℕ)} (H : s.Keeps t) :
    s.Keeps (t.countOutside offs rows shs) := by
  unfold State.countOutside
  grind [State.modHalf_keeps, State.Keeps.foldlS]

theorem keeps_veilBags {e : Env} {p : ℕ} {t' : TableDef} {bags : List ℕ} (H : s.Keeps t) :
    s.Keeps (t.veilBags e p t' bags) := by
  unfold State.veilBags
  grind [keeps_veilRange, State.Keeps.foldlS]

theorem keeps_endLookup {h : Half} {c : Cmd} {r : Result} (H : s.Keeps t) :
    s.Keeps (t.endLookup h c r) := by
  unfold State.endLookup
  grind [keeps_finish, keeps_veilBags]

theorem keeps_runLookup {h : Half} {c : Cmd} (H : s.Keeps t) : s.Keeps (runLookup t h c) := by
  have hread {e : Env} {p : ℕ} {d : TableDef} : MemOk s.Inv (lkArrays e p d { mem := t.view }).2.2.mem := memOk_lkArrays (r := { mem := t.view }) H.view
  have hasked {k : Cmd} {d : TableDef} {tid : ℕ} {l : List Fetch} := keeps_askRows (c := c) (d := d) (tid := tid) (i := 0) (l := l)
    (keeps_setCmd (h := h) (c := k) H)
  have hcounted {u : State} {l : List (ℕ × ℕ × ℕ)} {m : List (ℕ × ℕ)} {f : ℕ × ℕ × ℕ → ℕ} (K : s.Keeps u) :
      s.Keeps (m.foldl (fun t d => t.countEme d.1 3 d.2) (l.foldl (fun t sh => t.countEme sh.1 1 (f sh)) u)) :=
    State.Keeps.foldlS (State.Keeps.foldlS K fun _ _ K => keeps_countEme K) fun _ _ K => keeps_countEme K
  unfold runLookup
  dsimp only
  split
  · exact keeps_finish H
  · refine State.Keeps.ite (keeps_endLookup H) (State.Keeps.ite (keeps_veilBags (keeps_applyRun H hread))
      (State.Keeps.ite (keeps_applyRun H hread) (State.Keeps.ite ?_ (State.Keeps.ite (keeps_setCmd H) ?_))))
    · exact State.Keeps.ite hasked (keeps_finish (keeps_occur hasked))
    · split
      · exact keeps_veilBags (keeps_finish (State.Keeps.ite (keeps_occur (keeps_fetchAll H)) (keeps_fetchAll H)))
      · have hstored {d idx w rows e ok offs shs} (r : Run) := keeps_applyRun (h := h) (c := c) (e := e) (ok := ok)
          (r := (lookupStores t h c d idx w rows { r with mem := (t.fetchAll c d (pl c.packet 0 8) 0 (lookupPlan c idx)).1.view }).1)
          (keeps_countOutside (offs := offs) (rows := idx) (shs := shs) (keeps_fetchAll (c := c) (d := d) (tid := pl c.packet 0 8) (i := 0)
            (l := lookupPlan c idx) H))
          (memOk_lookupStores (keeps_fetchAll H).view)
        exact hcounted (State.Keeps.ite (keeps_veilBags (hstored _)) (hstored _))

theorem keeps_replyRow {h : Half} {f : Frame} {tid : ℕ} {row : ℕ} {got : Except Result (List ℕ)} (H : s.Keeps t) :
    s.Keeps (t.replyRow h f tid row got) := keeps_send H

theorem keeps_serveRow {h : Half} {port : ℕ} {f : Frame} (H : s.Keeps t) : s.Keeps (serveRow h port t f).state := by
  have hheld : s.Keeps (t.modHalf h fun x => x.modCtx f.ctx fun k => { k with heldRows := k.heldRows ++ [(port, f)] }) :=
    State.modHalf_keeps H
  unfold serveRow
  split
  · split
    · exact H
    · split
      · exact H
      · split
        · exact H
        · split
          · exact hheld
          · dsimp only
            split
            · exact keeps_replyRow (keeps_fetchRow H)
            · split
              · exact keeps_replyRow (keeps_fetchRow H)
              · exact keeps_fetchRow H
  · exact H

theorem keeps_delivered {g : Half} {c : Cmd} (H : s.Keeps t) :
    s.Keeps (t.delivered g c) := keeps_setCmd H

theorem keeps_takeRow {h : Half} {f : Frame} (H : s.Keeps t) :
    s.Keeps (takeRow h t f).state := by
  unfold takeRow
  grind [State.modHalf_keeps, keeps_endLookup, keeps_delivered, Answer.state, State.Keeps.record, State.Keeps.mem]

theorem keeps_loadHot {d ctx tid : ℕ} {def' : TableDef} {key : Option ℕ} {es : List Shard} {l : List ℤ} {n : HotTally} (H : s.Keeps t) :
    s.Keeps (t.loadHot d ctx tid def' key es l n).1 := by
  induction l generalizing t n with
  | nil => exact H
  | cons v l ih =>
    unfold State.loadHot
    grind [keeps_peekRow, keeps_setWell, keeps_wellBytes]

theorem keeps_dropHot {d : ℕ} {tid : ℕ} {keep : ℕ → Bool} (H : s.Keeps t) :
    s.Keeps (t.dropHot d tid keep) := keeps_setWell H

theorem keeps_runHotset {h : Half} {c : Cmd} (H : s.Keeps t) : s.Keeps (runHotset t h c) := by
  have hread {e : Env} {a n : ℕ} : MemOk s.Inv (({ mem := t.view } : Run).load e a n).2.mem := memOk_load (r := { mem := t.view }) H.view
  have hset {p : Prop} [Decidable p] {key d tid : ℕ} {r : Run} {f} {g} {u : Half} :
      s.Keeps ((if p then (t.countRun key r).dropHot d tid f else t.countRun key r).modHalf u g) :=
    State.modHalf_keeps (State.Keeps.ite (keeps_dropHot (keeps_countRun H)) (keeps_countRun H))
  unfold runHotset
  dsimp only
  split
  · exact keeps_finish H
  · refine State.Keeps.ite (keeps_applyRun H hread) (State.Keeps.ite (keeps_setCmd H) (State.Keeps.ite (keeps_finish hset) ?_))
    exact keeps_finish (keeps_loadHot hset)

theorem keeps_modHot {ctx : ℕ} {table : ℕ} {die : ℕ} {f : HotSet → HotSet} (H : s.Keeps t) :
    s.Keeps (t.modHot ctx table die f) := State.modHalf_keeps H

theorem keeps_askList {e : Env} {ctx gen : ℕ} {r : HotSet} {l : List ℕ} (H : s.Keeps t) : s.Keeps (t.askList e ctx gen r l).1 := by
  induction l generalizing t with
  | nil => exact H
  | cons x l ih =>
    unfold State.askList
    split
    · exact ih H
    · exact ih (keeps_sendAs H)

theorem keeps_addShadow {d ctx : ℕ} {def' : TableDef} {key : Option ℕ} {e : Shard} {row n touch : ℕ} {sums : List ℕ} (H : s.Keeps t) :
    s.Keeps (t.addShadow d ctx def' key e row n touch sums).1 := by
  have hread {a m} := keeps_readAt (d := d) (ctx := ctx) (key := key) (cxa := a) (n := m) H
  have hwrite {a m b bs} := keeps_writeAt (d := d) (ctx := ctx) (key := key) (cxa := b) (bs := bs) (hread (a := a) (m := m))
  have hmap {a m b bs a' m'} := keeps_readAt (d := d) (ctx := ctx) (key := key) (cxa := a') (n := m') (hwrite (a := a) (m := m) (b := b) (bs := bs))
  unfold State.addShadow
  dsimp only
  split
  · exact hread
  · split
    · exact hwrite
    · split
      · exact hmap
      · exact keeps_writeAt hmap

theorem keeps_addRecord {d : ℕ} {ctx : ℕ} {tid : ℕ} {t' : TableDef} {ck : Option ℕ} {e : Shard} {row : ℕ} {key : ℕ} {vs : List ℕ} (H : s.Keeps t) :
    s.Keeps (t.addRecord d ctx tid t' ck e row key vs).1 := by
  unfold State.addRecord
  grind [keeps_setTable, keeps_writeAt]

theorem keeps_landPartial {ctx : ℕ} {tid : ℕ} {key : Option ℕ} {e : Shard} {row : ℕ} {x : Partial} (H : s.Keeps t) :
    s.Keeps (t.landPartial ctx tid key e row x).1 := by
  unfold State.landPartial
  grind [keeps_addShadow, keeps_addRecord]

theorem keeps_forward {by' : Bringer} {plane : Half} {f : Frame} (H : s.Keeps t) :
    s.Keeps (t.forward by' plane f).1 := by
  unfold State.forward
  grind [keeps_send, keeps_sendAs]

theorem keeps_acceptPartial {ctx : ℕ} {gen : ℕ} {tid : ℕ} {t' : TableDef} {by' : Bringer} {e : Shard} {row : ℕ} {x : Partial} (H : s.Keeps t) :
    s.Keeps (t.acceptPartial ctx gen tid t' by' e row x).1 := by
  unfold State.acceptPartial
  grind [keeps_landPartial, keeps_countEme, keeps_setTable, keeps_forward]

theorem keeps_holdFrame {h : Half} {port : ℕ} {f : Frame} (H : s.Keeps t) :
    s.Keeps (t.holdFrame h port f).state := by
  unfold State.holdFrame
  grind [State.modHalf_keeps, Answer.state]

theorem keeps_takePartial {h : Half} {port : ℕ} {f : Frame} (H : s.Keeps t) : s.Keeps (takePartial h port t f).state := by
  have haccept {tid row : ℕ} {x : Partial} {d : TableDef} : s.Keeps (if !Frame.intact f then Answer.refuse t rsSeal
      else if row ≥ d.rows || f.addr / 4 ≠ h.part then .refuse t rsEngine
      else if t.underWay h f then .later t else
      match (d.places row).find? fun e => e.die = f.addr && e.pos = t.ownPos f.ctx with
      | none => t.holdFrame h port f
      | some e =>
        match (t.acceptPartial f.ctx f.gen tid d (.frame port f) e row x).2 with
        | .ok false => .done (t.acceptPartial f.ctx f.gen tid d (.frame port f) e row x).1
        | .ok true => .later (t.acceptPartial f.ctx f.gen tid d (.frame port f) e row x).1
        | .error r => .refuse (t.acceptPartial f.ctx f.gen tid d (.frame port f) e row x).1 (nackCode r)).state := by
    split
    · exact H
    · split
      · exact H
      · split
        · exact H
        · split
          · exact keeps_holdFrame H
          · split <;> exact keeps_acceptPartial H
  unfold takePartial
  dsimp only
  split
  · cases t.table? f.ctx _ with
    | none => exact H
    | some d => exact haccept
  · cases t.table? f.ctx _ with
    | none => exact H
    | some d => exact haccept
  · exact H

theorem keeps_deliver {c : Cmd} {tid : ℕ} {l : List (ℕ × ℕ × Partial)} (H : s.Keeps t) : s.Keeps (t.deliver c tid l).1 := by
  induction l generalizing t with
  | nil => exact H
  | cons x l ih =>
    unfold State.deliver
    grind [keeps_crossDies, keeps_acceptPartial, keeps_send]

theorem keeps_runEmbGrad {h : Half} {c : Cmd} (H : s.Keeps t) : s.Keeps (runEmbGrad t h c) := by
  unfold runEmbGrad
  dsimp only
  split
  · exact keeps_finish (keeps_occur H)
  · split
    · exact keeps_applyRun H (memOk_loadGrads (memOk_lkArrays H.view))
    · have hsent {u : State} {tid : ℕ} {l : List (ℕ × ℕ × Partial)} (K : s.Keeps u) : s.Keeps (match (u.deliver c tid l).2 with
          | some b => if b.d0 = rsEngine then (u.deliver c tid l).1.occur h (b.d1 % 1024) c.ctx else (u.deliver c tid l).1
          | none => (u.deliver c tid l).1) := by
        split
        · exact State.Keeps.ite (keeps_occur (keeps_deliver K)) (keeps_deliver K)
        · exact keeps_deliver K
      exact keeps_finish (hsent (State.Keeps.foldlS (keeps_countOutside (keeps_countRun H)) fun _ _ K => keeps_countEme K))

/-- A write that is made or not. -/
theorem keeps_writeAt_ite {p : Prop} [Decidable p] {u : State × Except Result Unit} {d ctx cxa : ℕ} {key : Option ℕ} {bs : List ℕ} (H : s.Keeps u.1) :
    s.Keeps (if p then u.1.writeAt d ctx key cxa bs else u).1 := by
  split
  · exact keeps_writeAt H
  · exact H

theorem keeps_readAt_ite {p : Prop} [Decidable p] {d ctx cxa n : ℕ} {key : Option ℕ} {r : Except Result (List ℕ)} (H : s.Keeps t) :
    s.Keeps (if p then t.readAt d ctx key cxa n else (t, r)).1 := by
  split
  · exact keeps_readAt H
  · exact H

theorem keeps_foldRow {fe : FoldEnv} {e : Shard} {row : ℕ} {g : List ℕ} {n : FoldTally} (H : s.Keeps t) : s.Keeps (t.foldRow fe e row g n).1 := by
  have hmaster : s.Keeps (if fe.t.masterless || fe.t.fmt = 0 then t.peekRow e.die fe.ctx fe.tid fe.t fe.key e row
      else t.readAt e.die fe.ctx fe.key (fe.t.masterAt e row) (4 * fe.t.width)).1 := by
    split
    · exact keeps_peekRow H
    · exact keeps_readAt H
  unfold State.foldRow
  dsimp only
  split
  · have hown {u : State × Except Result Unit} {bs : List ℕ} (K : s.Keeps u.1) : s.Keeps (if fe.t.masterless || fe.t.fmt = 0 then u
        else u.1.writeAt e.die fe.ctx fe.key (fe.t.masterAt e row) bs).1 := by
      split
      · exact K
      · exact keeps_writeAt K
    split <;> exact keeps_writeAt_ite (keeps_writeAt_ite (hown (keeps_writeRow (keeps_readAt_ite (keeps_readAt_ite hmaster)))))
  all_goals exact keeps_readAt_ite (keeps_readAt_ite hmaster)

theorem keeps_clearShadow {fe : FoldEnv} {e : Shard} {row : ℕ} (H : s.Keeps t) :
    s.Keeps (t.clearShadow fe e row).1 := by
  unfold State.clearShadow
  grind [keeps_writeAt, keeps_readAt]

theorem keeps_foldExact {fe : FoldEnv} {e : Shard} {row : ℕ} {n : FoldTally} (H : s.Keeps t) :
    s.Keeps (t.foldExact fe e row n).1 := by
  unfold State.foldExact
  grind [keeps_readAt, keeps_foldRow, keeps_clearShadow]

theorem keeps_foldRecords {fe : FoldEnv} {e : Shard} {recs : List Rcrd} {l : List ℕ} {n : FoldTally} (H : s.Keeps t) :
    s.Keeps (t.foldRecords fe e recs l n).1 := by
  induction l generalizing t n with
  | nil => exact H
  | cons k l ih =>
    have hstep {a : State × Option Result × FoldTally} (K : s.Keeps a.1) : s.Keeps (if a.2.1.isSome then
        (a.1, a.2.1, k :: l, a.2.2) else a.1.foldRecords fe e recs l a.2.2).1 := by
      split
      · exact K
      · exact ih K
    exact hstep (keeps_foldRow H)

theorem keeps_setUsed {ctx : ℕ} {tid : ℕ} {cxa : ℕ} {used : ℕ} (H : s.Keeps t) :
    s.Keeps (t.setUsed ctx tid cxa used) := by
  unfold State.setUsed
  grind [keeps_setTable]

theorem keeps_foldStaged {fe : FoldEnv} {e : Shard} {n : FoldTally} (H : s.Keeps t) : s.Keeps (t.foldStaged fe e n).1 := by
  have hleft {u : State} {p : Prop} [Decidable p] {a : ℕ} {bs : List ℕ} (K : s.Keeps u) :
      s.Keeps (if p then u else (u.writeAt e.die fe.ctx fe.key a bs).1) := State.Keeps.ite K (keeps_writeAt K)
  unfold State.foldStaged
  dsimp only
  split
  · exact keeps_setUsed H
  · split
    · exact H
    · split
      · exact keeps_readAt H
      · exact keeps_setUsed (hleft (keeps_foldRecords (keeps_readAt H)))

theorem keeps_foldRows {fe : FoldEnv} {e : Shard} {row left : ℕ} {n : FoldTally} (H : s.Keeps t) : s.Keeps (t.foldRows fe e row left n).1 := by
  induction left generalizing t row n with
  | zero => exact H
  | succ left ih =>
    unfold State.foldRows
    grind [keeps_foldExact]

theorem keeps_foldEntries {fe : FoldEnv} {es l : List Shard} (H : s.Keeps t) : s.Keeps (t.foldEntries fe es l).1 := by
  induction l generalizing t with
  | nil => exact H
  | cons e l ih =>
    unfold State.foldEntries
    grind [keeps_foldStaged, keeps_foldRows]

theorem keeps_foldWork {h : Half} {c : Cmd} {t' : TableDef} (H : s.Keeps t) :
    s.Keeps (foldWork t h c t').1 := keeps_foldEntries H

theorem keeps_runFold {h : Half} {c : Cmd} (H : s.Keeps t) :
    s.Keeps (runFold t h c) := by
  unfold runFold
  grind [keeps_finish, keeps_foldWork, keeps_countEme, keeps_countUpu, State.Keeps.foldlS]

theorem keeps_copyOf {ctx : ℕ} {tid : ℕ} {t' : TableDef} {key : Option ℕ} {e : Shard} {row : ℕ} (H : s.Keeps t) :
    s.Keeps (t.copyOf ctx tid t' key e row).1 := by
  unfold State.copyOf
  grind [keeps_peekRow, keeps_readAt]

theorem keeps_serveHeld {h : Half} {ctx : ℕ} {row : ℕ} (H : s.Keeps t) :
    s.Keeps (t.serveHeld h ctx row) := by
  unfold State.serveHeld
  grind [State.modHalf_keeps, keeps_settleAnswer, keeps_serveRow, State.Keeps.foldlS, Answer.state]

theorem keeps_landCopy {ctx tid : ℕ} {def' : TableDef} {key : Option ℕ} {m : Move} {row : ℕ} {x : RowCopy} (H : s.Keeps t) :
    s.Keeps (t.landCopy ctx tid def' key m row x).1 := by
  have hmaster {u : State × Except Result Unit} {a b : ℕ} {bs : List ℕ} (K : s.Keeps u.1) :
      s.Keeps (if a = b then u else u.1.writeAt m.target.die ctx key (def'.masterAt m.target row) bs).1 := by
    split
    · exact K
    · exact keeps_writeAt K
  have hshadow {u : State} (K : s.Keeps u) : s.Keeps (match x.shadow with
      | touched :: count :: els => u.addShadow m.target.die ctx def' key m.target row count.toNat touched.toNat (els.map fun y => unsigned y 64)
      | _ => (u, .ok ())).1 := by
    split
    · exact keeps_addShadow K
    · exact K
  have harrived {u : State} (K : s.Keeps u) : s.Keeps (match u.table? ctx tid with
      | some t1 => (match t1.moves.find? (fun (y : Move) => decide (y.cmd = m.cmd)) with
        | some m1 => u.setTable ctx tid (t1.setMove { m1 with arrived := m1.arrived ++ [row] })
        | none => u)
      | none => u) := by
    split
    · split
      · exact keeps_setTable K
      · exact K
    · exact K
  unfold State.landCopy
  dsimp only
  split
  · exact keeps_serveHeld (harrived (hshadow (keeps_writeAt_ite (keeps_writeAt_ite (hmaster (keeps_writeAt H))))))
  all_goals exact hshadow (keeps_writeAt_ite (keeps_writeAt_ite (hmaster (keeps_writeAt H))))

theorem keeps_endMove {m : Move} {r : Result} (H : s.Keeps t) :
    s.Keeps (t.endMove m r) := by
  unfold State.endMove
  grind [keeps_finish]

theorem keeps_veilMove {ctx : ℕ} {t' : TableDef} {m : Move} (H : s.Keeps t) :
    s.Keeps (t.veilMove ctx t' m) := by
  unfold State.veilMove
  grind [keeps_veilRange, State.Keeps.foldlS]

theorem keeps_failMove {ctx : ℕ} {tid : ℕ} {id : ℕ} {r : Result} (H : s.Keeps t) :
    s.Keeps (t.failMove ctx tid id r) := by
  unfold State.failMove
  grind [keeps_finish, keeps_endMove, keeps_setTable, keeps_veilMove]

theorem keeps_failCmd {h : Half} {c : Cmd} {r : Result} (H : s.Keeps t) :
    s.Keeps (t.failCmd h c r) := by
  unfold State.failCmd
  grind [keeps_failMove, keeps_finish]

theorem keeps_copyRows {c : Cmd} {tid : ℕ} {def' : TableDef} {m : Move} {row left : ℕ} (H : s.Keeps t) :
    s.Keeps (t.copyRows c tid def' m row left).1 := by
  induction left generalizing t row with
  | zero => exact H
  | succ left ih =>
    unfold State.copyRows
    grind [keeps_copyOf, keeps_crossDies, keeps_landCopy, keeps_send]

theorem keeps_moveRecords {c : Cmd} {tid : ℕ} {t' : TableDef} {m : Move} (H : s.Keeps t) :
    s.Keeps (t.moveRecords c tid t' m).1 := by
  unfold State.moveRecords
  grind [keeps_readAt, keeps_writeAt, keeps_setTable, keeps_landPartial, keeps_crossDies, keeps_send, State.Keeps.foldlS, State.Keeps.foldlF]

theorem keeps_takeCopy {h : Half} {port : ℕ} {f : Frame} (H : s.Keeps t) : s.Keeps (takeCopy h port t f).state := by
  unfold takeCopy
  split
  · split
    · exact H
    · split
      · exact H
      · split
        · exact H
        · split
          · exact keeps_holdFrame H
          · dsimp only
            split <;> dsimp only [Answer.state]
            · exact keeps_landCopy H
            · exact keeps_failMove (keeps_landCopy H)
  · exact H

theorem keeps_takeMoved {h : Half} {port : ℕ} {f : Frame} (H : s.Keeps t) :
    s.Keeps (takeMoved h port t f).state := by
  unfold takeMoved
  grind [keeps_takeCopy, keeps_takePartial]

theorem keeps_takeHeldCopies {h : Half} {ctx : ℕ} {tid : ℕ} (H : s.Keeps t) :
    s.Keeps (t.takeHeldCopies h ctx tid) := by
  unfold State.takeHeldCopies
  grind [State.modHalf_keeps, keeps_settleAnswer, keeps_takeMoved, State.Keeps.foldlS, Answer.state]

theorem keeps_runRowMigrate {h : Half} {c : Cmd} (H : s.Keeps t) : s.Keeps (runRowMigrate t h c) := by
  unfold runRowMigrate
  dsimp only
  split
  · exact keeps_finish H
  · next d _ =>
    split
    · exact keeps_finish H
    · have hbegun {m : Move} {k : Cmd} : s.Keeps ((t.setTable (pkCtx c.packet) (pl c.packet 0 8) { d with moves := d.moves ++ [m] }).setCmd h k) :=
        keeps_setCmd (keeps_setTable H)
      have hrecords {u : State} {n : ℕ} {m : Move} (K : s.Keeps u) : s.Keeps (match u.table? (pkCtx c.packet) n with
          | some d => u.moveRecords c n d m
          | none => (u, 0, none)).1 := by
        split
        · exact keeps_moveRecords K
        · exact K
      split
      · exact State.Keeps.ite (keeps_takeHeldCopies hbegun) hbegun
      · split
        · exact keeps_failMove (hrecords (keeps_copyRows hbegun))
        · split
          · split
            · exact keeps_setTable (hrecords (keeps_copyRows hbegun))
            · exact hrecords (keeps_copyRows hbegun)
          · exact hrecords (keeps_copyRows hbegun)

theorem keeps_onMoves {h : Half} {tid : ℕ} {f : State → ℕ → TableDef → Move → State} (H : s.Keeps t)
    (hf : ∀ u ctx d m, s.Keeps u → s.Keeps (f u ctx d m)) : s.Keeps (t.onMoves h tid f) := by
  unfold State.onMoves
  grind [State.Keeps.foldlS]

end Sys2Proof.Machine
end

section
/-! # What an operation keeps: contexts, weights, links and collectives -/

namespace Sys2Proof.Machine

variable {s t : State}

theorem keeps_runCtxDefine {h : Half} {c : Cmd} (H : s.Keeps t) :
    s.Keeps (runCtxDefine t h c) := by
  unfold runCtxDefine
  grind [State.modHalf_keeps, keeps_finish, State.Keeps.foldlS]

theorem keeps_traceSwitch {w : Switch} {step : ℕ} (H : s.Keeps t) :
    s.Keeps (t.traceSwitch w step) := by
  unfold State.traceSwitch
  grind [State.modHalf_keeps, State.Keeps.foldlS]

theorem keeps_advanceSwitch (H : s.Keeps t) :
    s.Keeps (t.advanceSwitch) := by
  unfold State.advanceSwitch
  grind [keeps_traceSwitch, State.Keeps.record, State.Keeps.mem]

theorem keeps_runCtxSwitch {h : Half} {c : Cmd} (H : s.Keeps t) :
    s.Keeps (runCtxSwitch t h c) := by
  unfold runCtxSwitch
  grind [keeps_finish, State.modHalf_keeps, keeps_advanceSwitch, keeps_traceSwitch, keeps_setCmd, State.Keeps.foldlS, State.Keeps.record, State.Keeps.mem]

theorem keeps_runSuspend {h : Half} {c : Cmd} (H : s.Keeps t) :
    s.Keeps (runSuspend t h c) := by
  unfold runSuspend
  grind [keeps_advanceSwitch, State.modHalf_keeps, memOk_spill, State.Keeps.record, State.Keeps.mem]

theorem keeps_saveCtx {h : Half} {id : ℕ} (H : s.Keeps t) : s.Keeps (t.saveCtx h id) :=
  have hsaved := State.modHalf_keeps (h := h) (keeps_saveWells (h := h) (ctx := id) H)
  State.Keeps.record hsaved (MemOk.foldlM hsaved.mem fun _ _ K => MemOk.veil K)

theorem keeps_restoreCtx {h : Half} {id : ℕ} (H : s.Keeps t) : s.Keeps (t.restoreCtx h id) := by
  refine State.Keeps.record (State.modHalf_keeps H) (MemOk.marks_iff.2 (MemOk.foldlM (MemOk.foldlM H.mem fun _ _ K => ?_) fun _ _ K => MemOk.setByte K))
  exact MemOk.ite (MemOk.clear K) (MemOk.veil K)

theorem keeps_countStream {c : Cmd} {sub : ℕ} {n : ℕ} (H : s.Keeps t) :
    s.Keeps (t.countStream c sub n) := by
  unfold State.countStream
  grind [State.modHalf_keeps]

theorem keeps_startStream {h : Half} {c : Cmd} (H : s.Keeps t) :
    s.Keeps (startStream t h c) := keeps_setCmd H

theorem keeps_verifyStream {h : Half} {c : Cmd} {data : List ℕ} (H : s.Keeps t) : s.Keeps (t.verifyStream h c data) := by
  have hfar {l : List Put} {e : Env} : MemOk s.Inv (l.foldl (fun (q : Run) (u : Put) => (q.load e u.cxa u.bytes.length).2) { mem := t.view }).mem :=
    MemOk.foldlR (b := { mem := t.view }) H.view fun _ _ K => memOk_load K
  have hkept {e : Env} {ks l : List (ℕ × Keep)} : MemOk s.Inv (c.keepAll e ks data l { mem := t.view }).1.mem :=
    memOk_keepAll (r := { mem := t.view }) H.view
  have hdiffer {g : Half} {n : ℕ} {f} : s.Keeps ((t.modHalf g f).occur g n c.ctx) := keeps_occur (State.modHalf_keeps H)
  unfold State.verifyStream
  dsimp only
  refine State.Keeps.ite (keeps_applyRun H hfar) (State.Keeps.ite (keeps_applyRun H H.view) (State.Keeps.ite (keeps_finish H) ?_))
  split
  · split
    · exact keeps_haltCtx (keeps_finish hdiffer)
    · exact hdiffer
  · exact keeps_applyRun hdiffer hkept

theorem keeps_feedStream {h : Half} {c : Cmd} {run : StreamRun} (H : s.Keeps t) :
    s.Keeps (t.feedStream h c run) := by
  unfold State.feedStream
  grind [keeps_finish, keeps_occur, keeps_verifyStream, keeps_setCmd, memOk_keepParts, State.Keeps.view, keeps_countStream, keeps_applyRun, keeps_applyPart, State.Keeps.foldlS, State.Keeps.foldlF, State.Keeps.record, State.Keeps.mem]

theorem keeps_abortDown {c : Cmd} (H : s.Keeps t) :
    s.Keeps (t.abortDown c) := by
  unfold State.abortDown
  grind [keeps_sendPort]

theorem keeps_takeBlock {h : Half} {port : ℕ} {f : Frame} (H : s.Keeps t) : s.Keeps (takeBlock h port t f).state := by
  unfold takeBlock
  split
  · exact H
  · next g c _ =>
    split
    · exact H
    · have hpassed {d : ℕ} {x : Frame} : s.Keeps (if wsDown c.packet = 15 then t.countStream c 0 256 else
          ((t.countStream c 0 256).sendPort h d (some c.id) x).countStream c 1 256) :=
        State.Keeps.ite (keeps_countStream H) (keeps_countStream (keeps_sendPort (keeps_countStream H)))
      split
      · exact H
      · dsimp only
        split
        · exact keeps_abortDown (keeps_endSeal (keeps_countStream H))
        · split
          · exact keeps_finish (keeps_occur hpassed)
          · exact keeps_feedStream hpassed

theorem keeps_spurStream {take : State → Frame → Answer} {f : Frame} (H : s.Keeps t) (htake : ∀ u g, s.Keeps u → s.Keeps (take u g).state) :
    s.Keeps (spurStream take t f).state := by
  unfold spurStream
  split
  · exact H
  · exact htake _ _ H

theorem keeps_takeAbort {h : Half} {port : ℕ} {f : Frame} (H : s.Keeps t) :
    s.Keeps (takeAbort h port t f).state := by
  unfold takeAbort
  grind [keeps_abortDown, keeps_finish, keeps_occur, Answer.state]

theorem keeps_modBoth {ctx : ℕ} {f : Ctx → Ctx} (H : s.Keeps t) :
    s.Keeps (t.modBoth ctx f) := by
  unfold State.modBoth
  grind [State.modHalf_keeps]

theorem keeps_countHbm {dpa : ℕ} {sub : ℕ} {n : ℕ} (H : s.Keeps t) :
    s.Keeps (t.countHbm dpa sub n) := by
  unfold State.countHbm
  grind [State.modHalf_keeps]

theorem keeps_takeRead {h : Half} {f : Frame} (H : s.Keeps t) :
    s.Keeps (takeRead h t f).state := by
  unfold takeRead
  grind [keeps_countHbm, keeps_sealFault, keeps_send, Answer.state]

theorem keeps_takeWrite {h : Half} {f : Frame} (H : s.Keeps t) : s.Keeps (takeWrite h t f).state := by
  unfold takeWrite
  split
  · split
    · exact H
    · split
      · exact H
      · dsimp only
        split
        · exact keeps_sealFault H
        · refine keeps_countHbm (State.commit_keeps H ?_)
          split
          · split
            · exact memOk_settle (memOk_storeAt (memOk_loadAt H.view))
            · exact H.view
          · exact memOk_settle (memOk_storeAt H.view)
  · exact H
  · exact H

theorem keeps_toSpur {f : Frame} (H : s.Keeps t) :
    s.Keeps (t.toSpur f) := State.Keeps.same H rfl rfl rfl

theorem keeps_readArrived {g : Half} {c : Cmd} {addr : ℕ} {bs : List ℕ} (H : s.Keeps t) :
    s.Keeps (t.readArrived g c addr bs) := by
  unfold State.readArrived
  grind [keeps_setCmd, keeps_endRestore, keeps_delivered, State.Keeps.foldlS]

theorem keeps_listArrived {f : Frame} {tid : ℕ} {d : ℕ} (H : s.Keeps t) :
    s.Keeps (t.listArrived f tid d) := keeps_modHot H

theorem keeps_takeReadResp {h : Half} {f : Frame} (H : s.Keeps t) :
    s.Keeps (takeReadResp h t f).state := by
  unfold takeReadResp
  grind [State.modHalf_keeps, keeps_toSpur, keeps_listArrived, keeps_readArrived, keeps_crossFor, keeps_finish, keeps_endSeal, Answer.state]

theorem keeps_takeAck {h : Half} {f : Frame} (H : s.Keeps t) :
    s.Keeps (takeAck h t f).state := by
  unfold takeAck
  grind [State.modHalf_keeps, keeps_setCmd, keeps_toSpur, keeps_settleAnswer, State.Keeps.foldlS, Answer.state]

theorem keeps_relayNack {h : Half} {u : Unacked} {reason : ℕ} (H : s.Keeps t) : s.Keeps (t.relayNack h u reason) := by
  unfold State.relayNack
  split
  · exact keeps_settleAnswer H
  · exact keeps_modHot H
  · exact H

theorem keeps_takeNack {h : Half} {f : Frame} (H : s.Keeps t) : s.Keeps (takeNack h t f).state := by
  have hseen : s.Keeps (t.modHalf h fun x => x.answered f.src f.addr) := State.modHalf_keeps H
  have hfailed {p : Prop} [Decidable p] {g : Half} {c : Cmd} {r : Result} :
      s.Keeps (({ (if p then (t.modHalf h fun x => x.answered f.src f.addr).occur h (r.d1 % 1024) c.ctx
        else t.modHalf h fun x => x.answered f.src f.addr) with
        drawnFree := (if p then (t.modHalf h fun x => x.answered f.src f.addr).occur h (r.d1 % 1024) c.ctx
          else t.modHalf h fun x => x.answered f.src f.addr).drawnFree + 2 } : State).failCmd g c r) :=
    have hfault := State.Keeps.ite (p := p) (keeps_occur hseen) hseen
    keeps_failCmd (State.Keeps.record hfault hfault.mem)
  unfold takeNack
  split
  · exact H
  · dsimp only [Answer.state]
    split
    · exact keeps_occur (keeps_toSpur hseen)
    · split
      · exact keeps_relayNack hseen
      · exact State.Keeps.ite hseen hfailed

theorem keeps_unheard {h : Half} {port : ℕ} {f : Frame} {kind : ℕ} (H : s.Keeps t) :
    s.Keeps (t.unheard h port f kind) := by
  unfold State.unheard
  grind [State.modHalf_keeps]

theorem keeps_failAll {h : Half} {source : ℕ} {ids : List ℕ} (H : s.Keeps t) :
    s.Keeps (t.failAll h source ids) := by
  unfold State.failAll
  grind [keeps_failCmd, keeps_occur, State.Keeps.foldlS]

theorem keeps_stopProxies {h : Half} (H : s.Keeps t) :
    s.Keeps (t.stopProxies h) := State.modHalf_keeps H

theorem keeps_lowerPort {h : Half} {port : ℕ} {cause : ℕ} {route : Bool} (H : s.Keeps t) :
    s.Keeps (t.lowerPort h port cause route) := by
  unfold State.lowerPort
  grind [keeps_refreshParent, keeps_occur, State.modHalf_keeps]

theorem keeps_relaySpur {f0 : Frame} (H : s.Keeps t) :
    s.Keeps (t.relaySpur f0) := by
  unfold State.relaySpur
  grind [State.modHalf_keeps, keeps_occur, keeps_nackFrame, keeps_send]

theorem keeps_setColl {h : Half} {ctx : ℕ} {k : Coll} (H : s.Keeps t) :
    s.Keeps (t.setColl h ctx k) := State.modHalf_keeps H

theorem keeps_progress {h : Half} {id : Option ℕ} (H : s.Keeps t) :
    s.Keeps (t.progress h id) := by
  unfold State.progress
  grind [keeps_setCmd]

theorem keeps_sendDescriptors {h : Half} {ctx : ℕ} {k : Coll} (H : s.Keeps t) :
    s.Keeps (t.sendDescriptors h ctx k) := by
  unfold State.sendDescriptors
  grind [keeps_sendPort, State.Keeps.foldlS]

theorem keeps_beginReduce {h : Half} {ctx : ℕ} {k : Coll} {phase : ℕ} {d : CDim} {own : ℕ → Option ℕ} {n : ℕ} (H : s.Keeps t) :
    s.Keeps (t.beginReduce h ctx k phase d own n) := by
  unfold State.beginReduce
  grind [keeps_sendPort, State.Keeps.foldlS]

theorem keeps_beginGather {h : Half} {ctx : ℕ} {k : Coll} {phase : ℕ} {d : CDim} (H : s.Keeps t) :
    s.Keeps (t.beginGather h ctx k phase d) := by
  unfold State.beginGather
  grind [keeps_sendPort, State.Keeps.foldlS]

theorem keeps_endLate {id : ℕ} {ctx : ℕ} {tag : ℕ} (H : s.Keeps t) :
    s.Keeps (t.endLate id ctx tag) := by
  unfold State.endLate
  grind [State.modHalf_keeps, keeps_finish, State.Keeps.foldlS]

theorem memOk_collWrites {p : Prop} {e : Env} {ws : List (ℕ × List ℕ)} {r : Run} (H : MemOk p r.mem) :
    MemOk p (ws.foldl (fun (q : Run) w => q.store e w.1 w.2) r).mem := MemOk.foldlR H fun _ _ K => memOk_store K

/-- What the proxy of a collective does with what its run left. -/
theorem keeps_collProxy {h : Half} {ctx : ℕ} {k : Coll} {r : Run} {e : Env} {o : Cmd} (H : s.Keeps t) (hr : MemOk s.Inv r.mem) :
    s.Keeps ((r.seals.foldl (fun u d => u.sealFault d (some ctx))
      ((((t.commit r.mem).countTraffic r.rd r.wr).crossRun none r).sendPuts e o (mergePuts r.puts)).1).setColl h ctx k) :=
  keeps_setColl (State.Keeps.foldlS (keeps_sendPuts (keeps_crossRun (keeps_countTraffic (State.commit_keeps H hr))))
    fun _ _ K => keeps_sealFault K)

theorem keeps_concludeColl {h : Half} {ctx : ℕ} {k : Coll} (H : s.Keeps t) : s.Keeps (t.concludeColl h ctx k) := by
  unfold State.concludeColl
  dsimp only
  split
  · split
    · split
      · exact H
      · exact State.Keeps.foldlS (keeps_applyRun H (MemOk.foldlR (b := { mem := t.view }) H.view fun _ _ K => memOk_collWrites K))
          fun _ _ K => State.modHalf_keeps K
    · exact H
  · have hrun {ws : List (ℕ × List ℕ)} {e : Env} := memOk_settle (memOk_collWrites (e := e) (ws := ws) (r := { mem := t.view }) H.view)
    split
    · exact keeps_endLate (keeps_collProxy H hrun)
    · exact keeps_collProxy H hrun

theorem keeps_stepColl {h : Half} {ctx : ℕ} {tag : ℕ} (H : s.Keeps t) :
    s.Keeps (t.stepColl h ctx tag) := by
  unfold State.stepColl
  grind [keeps_beginReduce, keeps_setColl, keeps_crossFor, keeps_beginGather, keeps_concludeColl, State.Keeps.foldlS]

theorem keeps_runColl {ctx : ℕ} {tag : ℕ} (H : s.Keeps t) :
    s.Keeps (t.runColl ctx tag) := by
  unfold State.runColl
  grind [keeps_stepColl, State.Keeps.foldlS]

theorem keeps_startColl {h : Half} {ctx : ℕ} {k : Coll} (H : s.Keeps t) :
    s.Keeps (t.startColl h ctx k) := by
  unfold State.startColl
  grind [keeps_sendDescriptors, keeps_setColl, keeps_beginGather, keeps_beginReduce]

theorem keeps_mismatch {h : Half} {k : Coll} (H : s.Keeps t) :
    s.Keeps (t.mismatch h k) := by
  unfold State.mismatch
  grind [keeps_finish, keeps_occur]

theorem keeps_runLate {h : Half} {c : Cmd} (H : s.Keeps t) : s.Keeps (runLate t h c) := by
  have hrun : MemOk s.Inv ((cuHalves (pl c.packet 0 512)).foldl
      (fun (q : Run) g => ledgerWork { t.envCmd h c with part := g } (unitFor c.packet g) q) { mem := t.view }).mem :=
    MemOk.foldlR (b := { mem := t.view }) H.view fun _ _ K => memOk_ledgerWork K
  have hcounted {u : State} {l : List Half} {b : ℕ} (K : s.Keeps u) :
      s.Keeps (l.foldl (fun v g => v.modHalf g fun x => x.count32 g (hubKey b 1) 0 1) u) :=
    State.Keeps.foldlS K fun _ _ K => State.modHalf_keeps K
  have hended {u : State} {r : Result} {n : ℕ} (K : s.Keeps u) : s.Keeps { u.finish h c r with drawnFree := n } :=
    State.Keeps.record (keeps_finish K) (keeps_finish K).mem
  unfold runLate
  dsimp only
  refine State.Keeps.ite (keeps_applyRun H hrun) ?_
  exact State.Keeps.ite (hended (hcounted (keeps_applyPart H hrun)))
    (keeps_endLate (State.Keeps.foldlS (hcounted (keeps_applyPart H hrun)) fun _ _ K => State.modHalf_keeps K))

theorem keeps_collBegin {c : Cmd} {op : ℕ} {y : Half × List ℕ × Bool} (H : s.Keeps t) :
    s.Keeps (collBegin c op t y) := keeps_mismatch (keeps_startColl H)

theorem keeps_runCollective {op : ℕ} {h : Half} {c : Cmd} (H : s.Keeps t) :
    s.Keeps (runCollective op t h c) := by
  unfold runCollective
  grind [keeps_runLate, memOk_collReads, memOk_settle, keeps_applyRun, keeps_finish, keeps_occur, keeps_applyPart, keeps_runColl, keeps_collBegin, State.Keeps.foldlS]

theorem keeps_reduceFrame {h : Half} {k : Coll} {f : Frame} {d : CDim} {own : ℕ → Option ℕ} {n : ℕ} {rp : ReducePart} {keep : ReducePart → Coll} (H : s.Keeps t) :
    s.Keeps (t.reduceFrame h k f d own n rp keep) := by
  unfold State.reduceFrame
  grind [keeps_setColl, keeps_sendPort]

theorem keeps_gatherFrame {h : Half} {k : Coll} {f : Frame} {d : CDim} {inY : Bool} (H : s.Keeps t) :
    s.Keeps (t.gatherFrame h k f d inY) := by
  unfold State.gatherFrame
  grind [keeps_setColl, keeps_sendPort, State.Keeps.foldlS]

theorem keeps_spoilColl {h : Half} {ctx : ℕ} {k : Coll} (H : s.Keeps t) :
    s.Keeps (t.spoilColl h ctx k) := by
  unfold State.spoilColl
  grind [keeps_endSeal, keeps_setColl]

theorem keeps_takeData {h : Half} {f : Frame} (H : s.Keeps t) :
    s.Keeps (takeData h t f).state := by
  unfold takeData
  grind [keeps_spoilColl, keeps_progress, keeps_reduceFrame, keeps_gatherFrame, keeps_runColl, Answer.state]

theorem keeps_takeDescriptor {h : Half} {f : Frame} (H : s.Keeps t) :
    s.Keeps (takeDescriptor h t f).state := by
  unfold takeDescriptor
  grind [keeps_spoilColl, keeps_setColl, keeps_runColl, keeps_mismatch, Answer.state]

theorem keeps_endEvicted {h : Half} {ctx : ℕ} (H : s.Keeps t) :
    s.Keeps (t.endEvicted h ctx) := by
  unfold State.endEvicted
  grind [keeps_finish, State.Keeps.record, State.Keeps.mem]

theorem keeps_runMove {h : Half} {c : Cmd} (H : s.Keeps t) :
    s.Keeps (runMove t h c) := by
  unfold runMove
  grind [keeps_finish, memOk_moveRun, keeps_countOob, keeps_applyRun]

theorem memOk_readList {p : Prop} {e : Env} {q k n : ℕ} {src dst : Desc} {r : Run} (H : MemOk p r.mem) :
    MemOk p (readList e q src dst k n r).2.mem := by
  induction n generalizing k r with
  | zero => exact H
  | succ n ih => exact ih (memOk_readEntry H)

theorem keeps_runBlocks {h : Half} {c : Cmd} (H : s.Keeps t) : s.Keeps (runBlocks t h c) := by
  have hread {e : Env} := keeps_applyRun (h := h) (c := c) (e := e) (ok := fun _ => okResult 0 0 0) H
    (memOk_readList (e := e) (q := c.packet) (k := 0) (n := bkCount c.packet) (src := c.desc 0) (dst := c.desc 1) (r := { mem := t.view }) H.view)
  have hmoved {p : Prop} [Decidable p] : MemOk s.Inv (if p then
      ({ (blockRun t h c).1 with mem := t.view, puts := [], torn := [], parts := [] }, (blockRun t h c).2) else blockRun t h c).1.mem := by
    split
    · exact H.view
    · exact memOk_blockRun H
  unfold runBlocks
  dsimp only
  exact State.Keeps.ite hread (State.Keeps.ite (keeps_finish H)
    (State.Keeps.ite (keeps_countMovers (keeps_countMovers (keeps_applyRun H hmoved))) (keeps_applyRun H hmoved)))

theorem keeps_applyBatch {h : Half} {c : Cmd} {e : Env} {b : BatchStep} (H : s.Keeps t) (hb : MemOk s.Inv b.run.mem) :
    s.Keeps (t.applyBatch h c e b) := by
  unfold State.applyBatch
  grind [keeps_applyRun, keeps_countCse, keeps_veilRange, keeps_applyPart, State.Keeps.foldlS]

theorem keeps_readReg {h : Half} {k : ℕ} (H : s.Keeps t) :
    s.Keeps (t.readReg h k).2 := by
  unfold State.readReg
  grind [State.modHalf_keeps, State.Keeps.record, State.Keeps.mem]

theorem keeps_engineFault {g : Half} {c : Cmd} {r : Result} (H : s.Keeps t) :
    s.Keeps (t.engineFault g c r) := by
  unfold State.engineFault
  grind [keeps_finish, keeps_setCmd]

theorem keeps_strokeFaults {h : Half} (H : s.Keeps t) :
    s.Keeps (t.strokeFaults h) := by
  unfold State.strokeFaults
  grind [keeps_noteSeal, State.modHalf_keeps, keeps_occurUnmasked, State.Keeps.foldlS]

theorem keeps_abandonFrames {id : ℕ} (H : s.Keeps t) :
    s.Keeps (t.abandonFrames id) := State.Keeps.same H rfl rfl rfl

theorem keeps_traceCtl {id : ℕ} {op : ℕ} {f : HalfState → Half → ℕ → HalfState} (H : s.Keeps t) :
    s.Keeps (traceCtl t id op f) := by
  unfold traceCtl
  grind [onCommand_keeps, keeps_finish, State.modHalf_keeps]

theorem keeps_drainTrace {h : Half} (H : s.Keeps t) :
    s.Keeps (t.drainTrace h) := by
  unfold State.drainTrace
  grind [State.modHalf_keeps, keeps_putMem]

end Sys2Proof.Machine
end

section
/-! # What an operation keeps: the Siphon, firmware, the pipeline and the pins -/

namespace Sys2Proof.Machine

variable {s t : State}

theorem keeps_loseSiphon (H : s.Keeps t) :
    s.Keeps (t.loseSiphon) := by
  unfold State.loseSiphon
  grind [keeps_teardown, keeps_occur, keeps_refreshParent, State.modHalf_keeps, State.Keeps.foldlS, State.Keeps.foldlF, State.Keeps.siphon, State.Keeps.record, State.Keeps.mem, State.Keeps.view]

theorem keeps_trainSiphon {h : Half} (H : s.Keeps t) : s.Keeps (t.trainSiphon h) :=
  have htrains := State.Keeps.siphon (n := 1) (State.modHalf_keeps (h := h) H) (by omega)
  State.Keeps.record htrains htrains.mem

theorem keeps_mergeGen {r : Half} {id : ℕ} (H : s.Keeps t) :
    s.Keeps (t.mergeGen r id) := by
  unfold State.mergeGen
  grind [State.modHalf_keeps]

theorem keeps_mergeGens {r : Half} (H : s.Keeps t) :
    s.Keeps (t.mergeGens r) := by
  unfold State.mergeGens
  grind [State.modHalf_keeps, keeps_mergeGen, State.Keeps.foldlS]

theorem keeps_followSiphon (H : s.Keeps t) :
    s.Keeps (t.followSiphon) := by
  unfold State.followSiphon
  grind [keeps_refreshParent, keeps_occur, State.modHalf_keeps]

theorem keeps_reconcile (H : s.Keeps t) :
    s.Keeps (t.reconcile) := by
  unfold State.reconcile
  grind [State.modHalf_keeps]

theorem keeps_regEntry {x : State × List ℕ} {a : ℕ} (H : s.Keeps x.1) : s.Keeps (regEntry x a).1 := by
  unfold regEntry
  grind [keeps_readReg]

theorem keeps_crossRegs {h : Half} {p : ℕ} (H : s.Keeps t) :
    s.Keeps (t.crossRegs h p) := by
  unfold State.crossRegs
  grind [keeps_crossFor]

theorem keeps_commitWays {before : ℕ} {d : ℕ} (H : s.Keeps t) :
    s.Keeps (t.commitWays before d) := by
  unfold State.commitWays
  grind [keeps_setWell, keeps_flushWell]

theorem keeps_commitRegs {h : Half} (H : s.Keeps t) :
    s.Keeps (t.commitRegs h) := by
  unfold State.commitRegs
  grind [State.modHalf_keeps, keeps_commitWays, keeps_commitStu, keeps_refreshParent, State.Keeps.foldlS]

theorem keeps_commitHalf {h : Half} {regs : Bool} {map : Bool} {ctx : ℕ} (H : s.Keeps t) :
    s.Keeps (t.commitHalf h regs map ctx) := by
  unfold State.commitHalf
  grind [keeps_commitRegs, State.modHalf_keeps]

theorem keeps_applySettings {h : Half} {r : Settings} (H : s.Keeps t) :
    s.Keeps (t.applySettings h r) := by
  unfold State.applySettings
  grind [State.modHalf_keeps, keeps_commitRegs, State.Keeps.foldlS]

theorem keeps_loadSettings {h : Half} (H : s.Keeps t) :
    s.Keeps (t.loadSettings h) := by
  unfold State.loadSettings
  grind [State.modHalf_keeps, keeps_applySettings, keeps_occur]

theorem keeps_pauseContext {h : Half} {id : ℕ} (H : s.Keeps t) : s.Keeps (t.pauseContext h id) := by
  have hspilt {l : List Cmd} : s.Keeps { t with mem := l.foldl (fun m c => c.spill m) t.mem } :=
    State.Keeps.record H (MemOk.foldlM H.mem fun _ _ K => memOk_spill K)
  exact State.Keeps.ite (keeps_saveCtx (State.modHalf_keeps hspilt)) (State.modHalf_keeps hspilt)

theorem keeps_resumeContext {h : Half} {id : ℕ} (H : s.Keeps t) :
    s.Keeps (t.resumeContext h id) := by
  unfold State.resumeContext
  grind [keeps_restoreCtx, State.modHalf_keeps]

theorem keeps_endActivation {cmd : ℕ} {previous : ℕ} (H : s.Keeps t) :
    s.Keeps (t.endActivation cmd previous) := by
  unfold State.endActivation
  grind [keeps_finish]

theorem keeps_beginActivation {h : Half} {e : Sched} {cmd : ℕ} {previous : ℕ} (H : s.Keeps t) :
    s.Keeps (t.beginActivation h e cmd previous) := by
  unfold State.beginActivation
  grind [State.modHalf_keeps, keeps_pauseContext]

theorem keeps_restartFirmware {h : Half} {a : Activation} (H : s.Keeps t) :
    s.Keeps (t.restartFirmware h a) := by
  unfold State.restartFirmware
  grind [State.setHalf_keeps, State.modHalf_keeps, keeps_loadSettings, keeps_resumeContext, keeps_endActivation]

theorem keeps_settingsWrite {id op : ℕ} {f : State → Half → Cmd → State} (H : s.Keeps t) (hf : ∀ u h c, s.Keeps u → s.Keeps (f u h c)) :
    s.Keeps (settingsWrite t id op f) := onCommand_keeps H hf

theorem keeps_writeSlot {i : ℕ} {r : Settings} (H : s.Keeps t) :
    s.Keeps (t.writeSlot i r) := State.Keeps.same H rfl rfl rfl

theorem keeps_attest {id : ℕ} {mode : ℕ} {f : Half → Measures → ℕ → ℕ} (H : s.Keeps t) :
    s.Keeps (attest t id mode f) := by
  unfold attest
  grind [onCommand_keeps, keeps_finish]

theorem keeps_scaleApply {ctx : ℕ} {footprint : ℕ} {v : ℕ} {merged : Bool} {f : ScaleSlot → ScaleSlot} (H : s.Keeps t) :
    s.Keeps (t.scaleApply ctx footprint v merged f) := by
  unfold State.scaleApply
  grind [State.modHalf_keeps, State.Keeps.foldlS]

theorem keeps_scaleEntries {op : ℕ} {merged : Bool} {f : ℕ → ScaleSlot → ScaleSlot} {left : ℕ} {h : Half} {c : Cmd} (H : s.Keeps t) :
    s.Keeps (scaleEntries op merged f left t h c) := by
  induction left generalizing t c with
  | zero => exact keeps_finish H
  | succ left ih => exact State.Keeps.ite (ih H) (State.Keeps.ite (ih (keeps_scaleApply H)) (keeps_setCmd H))

theorem keeps_scaleRow {id op : ℕ} {merged : Bool} {f : ℕ → ScaleSlot → ScaleSlot} (H : s.Keeps t) : s.Keeps (scaleRow t id op merged f) :=
  onCommand_keeps H fun _ _ _ K => keeps_scaleEntries K

theorem keeps_refuse {h : Half} {r : Ring} {p : ℕ} {slots : ℕ} {res : Result} (H : s.Keeps t) :
    s.Keeps (t.refuse h r p slots res) := by
  unfold State.refuse
  grind [keeps_portReply, keeps_pushReply, State.modHalf_keeps]

theorem keeps_admitCommand {h : Half} {r : Ring} {spec : OpSpec} {p : ℕ} {e : Exam} (H : s.Keeps t) :
    s.Keeps (t.admitCommand h r spec p e) := by
  unfold State.admitCommand
  grind [State.modHalf_keeps, State.Keeps.foldlS, State.Keeps.record, State.Keeps.mem]

theorem keeps_hold {h : Half} {r : Ring} {p : ℕ} {fj : ℕ} (H : s.Keeps t) :
    s.Keeps (t.hold h r p fj) := State.modHalf_keeps H

theorem keeps_admitFirst {h : Half} {l : List Ring} (H : s.Keeps t) : s.Keeps (t.admitFirst h l) := by
  induction l generalizing t with
  | nil => exact H
  | cons r l ih =>
    unfold State.admitFirst
    grind [keeps_admitCommand, keeps_hold]

theorem keeps_admitHeld {w : Half} {l : List (Half × RingRef)} (H : s.Keeps t) : s.Keeps (t.admitHeld w l).1 := by
  induction l generalizing t with
  | nil => exact State.setHalf_keeps H
  | cons x l ih =>
    unfold State.admitHeld
    grind [keeps_admitCommand, State.modHalf_keeps]

theorem keeps_ackReplica {c : Cmd} (H : s.Keeps t) :
    s.Keeps (t.ackReplica c) := by
  unfold State.ackReplica
  grind [keeps_ackVerdict]

theorem keeps_rescale {h : Half} (H : s.Keeps t) :
    s.Keeps (t.rescale h) := by
  unfold State.rescale
  grind [State.modHalf_keeps]

theorem keeps_closeMeters {h : Half} (H : s.Keeps t) :
    s.Keeps (t.closeMeters h) := State.modHalf_keeps (State.modHalf_keeps H)

theorem keeps_powerOff (H : s.Keeps t) : s.Keeps t.powerOff :=
  keeps_loseMemory (keeps_loseMemory (H.mk' rfl (fun _ => rfl) fun hl => by
    simp only [State.legal, Bool.and_eq_true, decide_eq_true_eq] at hl ⊢
    omega))

theorem keeps_powerOn (H : s.Keeps t) :
    s.Keeps (t.powerOn) := by
  unfold State.powerOn
  grind [State.Keeps.record, State.Keeps.mem]

theorem keeps_failPower (H : s.Keeps t) :
    s.Keeps (t.failPower) := by
  unfold State.failPower
  grind [keeps_powerOff, State.Keeps.record, State.Keeps.mem]

theorem keeps_setHeld {h : Half} {v : Bool} (H : s.Keeps t) :
    s.Keeps (t.setHeld h v) := by
  unfold State.setHeld
  grind [State.Keeps.record, State.Keeps.mem]

theorem keeps_tap {i out : ℕ} (H : s.Keeps t) (hi : i ≤ 5) : s.Keeps (t.tap i out) :=
  H.mk' rfl id fun hl => by
    simp only [State.legal, State.tap, Bool.and_eq_true] at hl ⊢
    exact ⟨hl.1, decide_eq_true hi⟩

theorem keeps_releaseTap (H : s.Keeps t) : s.Keeps t.releaseTap :=
  State.Keeps.ite (keeps_tap H (Nat.zero_le 5)) H

theorem keeps_becomeReady {h : Half} (H : s.Keeps t) :
    s.Keeps (t.becomeReady h) := by
  unfold State.becomeReady
  grind [State.modHalf_keeps, keeps_occur, keeps_pushReply, keeps_reconcile, State.Keeps.foldlS, State.Keeps.record, State.Keeps.mem]

theorem keeps_answer {bs : List ℕ} (H : s.Keeps t) :
    s.Keeps (t.answer bs) := State.Keeps.same H rfl rfl rfl

theorem keeps_nackPort (H : s.Keeps t) :
    s.Keeps (t.nackPort) := State.Keeps.same H rfl rfl rfl

theorem keeps_enqueuePacket {h : Half} (H : s.Keeps t) :
    s.Keeps (t.enqueuePacket h) := by
  unfold State.enqueuePacket
  grind [State.modHalf_keeps, keeps_writeSlots]

theorem keeps_tapDrive {i : ℕ} (H : s.Keeps t) (hi : i ≤ 5) : s.Keeps (t.tapDrive i) := by
  unfold State.tapDrive
  grind [keeps_tap]

theorem keeps_takeSpur {type : ℕ} {f : Frame} {act : State → Frame → Answer} (H : s.Keeps t)
    (hact : ∀ u g, s.Keeps u → s.Keeps (act u g).state) : s.Keeps (t.takeSpur f type act) := by
  unfold State.takeSpur
  grind [keeps_receiveSpur, keeps_receiveRelayed]

theorem keeps_takeRingWrite {f : Frame} (H : s.Keeps t) :
    s.Keeps (takeRingWrite t f).state := by
  unfold takeRingWrite
  grind [keeps_putMem, Answer.state]

theorem keeps_takeRingRead {f : Frame} (H : s.Keeps t) :
    s.Keeps (takeRingRead t f).state := by
  unfold takeRingRead
  grind [keeps_sealFault, keeps_send, Answer.state]

theorem keeps_takeDoorbell {f : Frame} (H : s.Keeps t) :
    s.Keeps (takeDoorbell t f).state := by
  unfold takeDoorbell
  grind [State.modHalf_keeps, keeps_occur, Answer.state]

theorem keeps_countIdle {h : Half} {r : Ring} (H : s.Keeps t) :
    s.Keeps (t.countIdle h r) := by
  unfold State.countIdle
  grind [State.modHalf_keeps]

theorem keeps_countStage {h : Half} {n : ℕ} (H : s.Keeps t) :
    s.Keeps (t.countStage h n) := by
  unfold State.countStage
  grind [State.modHalf_keeps]

theorem keeps_countHeld {h : Half} {r : Ring} (H : s.Keeps t) :
    s.Keeps (t.countHeld h r) := by
  unfold State.countHeld
  grind [State.modHalf_keeps, State.Keeps.foldlS]

theorem keeps_countBusy {h : Half} (H : s.Keeps t) :
    s.Keeps (t.countBusy h) := by
  unfold State.countBusy
  grind [State.modHalf_keeps, State.Keeps.foldlS]

theorem keeps_countDeep {h : Half} (H : s.Keeps t) :
    s.Keeps (t.countDeep h) := by
  unfold State.countDeep
  grind [State.modHalf_keeps, State.Keeps.foldlS, State.Keeps.record, State.Keeps.mem]

theorem keeps_countWatchdogs {h : Half} (H : s.Keeps t) :
    s.Keeps (t.countWatchdogs h) := by
  unfold State.countWatchdogs
  grind [State.modHalf_keeps]

theorem keeps_countBlocked {h : Half} (H : s.Keeps t) :
    s.Keeps (t.countBlocked h) := by
  unfold State.countBlocked
  grind [State.modHalf_keeps]

theorem keeps_countDomains {h : Half} (H : s.Keeps t) :
    s.Keeps (t.countDomains h) := State.modHalf_keeps H

theorem keeps_checkParent {h : Half} (H : s.Keeps t) :
    s.Keeps (t.checkParent h) := by
  unfold State.checkParent
  grind [keeps_refreshParent]

theorem keeps_passStroke {h : Half} (H : s.Keeps t) : s.Keeps (t.passStroke h) := by
  refine keeps_ackOld (keeps_checkParent (keeps_strokeFaults (State.modHalf_keeps (keeps_drainTrace (keeps_countDomains (keeps_countBlocked
    (keeps_countWatchdogs (keeps_countDeep (keeps_countBusy (State.Keeps.foldlS ?_ fun _ _ K => keeps_countHeld K))))))))))
  exact State.Keeps.foldlS (State.Keeps.foldlS H fun _ _ K => keeps_countIdle K) fun _ _ K => keeps_countStage K

end Sys2Proof.Machine
end

section
/-! # What each row keeps: every command answers a next state, which keeps the invariant and the queue -/

namespace Sys2Proof.Machine

variable {s t : State}

/-- What a row of the table answers is a next state, which keeps the invariant and the queue. -/
def NextKeeps (s : State) (o : Host.Outcome State Fault Refusal) : Prop := ∃ t, o = .next t ∧ s.Keeps t

theorem NextKeeps.command {id op : ℕ} {sub : Cmd → Bool} {f : State → Half → Cmd → State}
    (hf : ∀ u h c, s.Keeps u → s.Keeps (f u h c)) : NextKeeps s (.next (onCommand s id op sub f)) :=
  ⟨_, rfl, onCommand_keeps (.refl s) hf⟩

theorem NextKeeps.tile {g opc queue : ℕ} {f : TileIn → QueuedOp → TileRun → TileEff}
    (hf : ∀ x op r, MemOk s.Inv x.mem → MemOk s.Inv (f x op r).run.mem) : NextKeeps s (.next (tileOp s g opc queue f)) :=
  ⟨_, rfl, keeps_tileOp (.refl s) hf⟩

theorem NextKeeps.control {g opc : ℕ} {f : State → Half → Cmd → TileRun → ℕ → State}
    (hf : ∀ u h c r w, s.Keeps u → s.Keeps (f u h c r w)) : NextKeeps s (.next (controlOp s g opc f)) :=
  ⟨_, rfl, keeps_controlOp (.refl s) hf⟩

theorem NextKeeps.frame {h : Half} {port type : ℕ} {f : Frame} {act : State → Frame → Answer}
    (hact : ∀ u g, s.Keeps u → s.Keeps (act u g).state) : NextKeeps s (.next (s.receive h port f type act)) :=
  ⟨_, rfl, keeps_receive (.refl s) hact⟩

theorem NextKeeps.spur {type : ℕ} {f : Frame} {act : State → Frame → Answer}
    (hact : ∀ u g, s.Keeps u → s.Keeps (act u g).state) : NextKeeps s (.next (s.takeSpur f type act)) :=
  ⟨_, rfl, keeps_takeSpur (.refl s) hact⟩

theorem NextKeeps.half {h : Half} {f : HalfState → HalfState} : NextKeeps s (.next (s.modHalf h f)) :=
  ⟨_, rfl, State.modHalf_keeps (.refl s)⟩

theorem NextKeeps.of_keeps {t : State} (H : s.Keeps t) : NextKeeps s (.next t) := ⟨t, rfl, H⟩

theorem keeps_execTileEnd {g : ℕ} : NextKeeps s (execTileEnd g s) :=
  .control fun u h c r w H => by grind [keeps_endTiles, keeps_setTile, State.Keeps.record, State.Keeps.mem]

theorem keeps_execTileNop {g : ℕ} : NextKeeps s (execTileNop g s) :=
  .control fun u h c r w H => by grind [keeps_setTile]

theorem keeps_execGateWait {g : ℕ} : NextKeeps s (execGateWait g s) :=
  .control fun u h c r w H => by grind [keeps_setTile]

theorem keeps_execLoop {g : ℕ} : NextKeeps s (execLoop g s) :=
  .control fun u h c r w H => by grind [keeps_setTile]

theorem keeps_execAadd {g : ℕ} : NextKeeps s (execAadd g s) :=
  .control fun u h c r w H => by grind [keeps_setTile]

theorem keeps_execAset {g : ℕ} : NextKeeps s (execAset g s) :=
  .control fun u h c r w H => by grind [keeps_setTile]

theorem keeps_execMma {g : ℕ} : NextKeeps s (execMma g s) :=
  .tile fun _ _ _ H => memOk_runMma H

theorem keeps_execMdrain {g : ℕ} : NextKeeps s (execMdrain g s) :=
  .tile fun _ _ _ H => memOk_runMdrain H

theorem keeps_execLd {g : ℕ} : NextKeeps s (execLd g s) :=
  .tile fun _ _ _ H => memOk_runLd H

theorem keeps_execSt {g : ℕ} : NextKeeps s (execSt g s) :=
  .tile fun _ _ _ H => memOk_runSt H

theorem keeps_execGtgt {g : ℕ} : NextKeeps s (execGtgt g s) := .tile fun _ _ _ H => H

theorem keeps_execGzero {g : ℕ} : NextKeeps s (execGzero g s) :=
  .tile fun _ _ _ H => memOk_runGzero H

theorem keeps_execGroupOverLimit {g : ℕ} : NextKeeps s (execGroupOverLimit g s) := by
  have H := State.Keeps.refl s
  exact .of_keeps (by grind [keeps_occur, keeps_countTile])

theorem keeps_execTileProgramLoad {id : ℕ} : NextKeeps s (execTileProgramLoad id s) :=
  .command fun _ _ _ H => keeps_applyRun H (MemOk.foldlR (b := { mem := _ }) H.view fun _ _ K => MemOk.foldlR K fun _ _ K => memOk_storeAt K)

theorem keeps_execTileRun {id : ℕ} : NextKeeps s (execTileRun id s) :=
  .command fun u h c H => by grind [keeps_leavePc, keeps_setCmd, State.Keeps.foldlS, State.Keeps.foldlF, State.Keeps.record, State.Keeps.mem]

theorem keeps_execVadd {g : ℕ} : NextKeeps s (execVadd g s) :=
  .tile fun _ _ _ H => memOk_runVx H

theorem keeps_execVmul {g : ℕ} : NextKeeps s (execVmul g s) :=
  .tile fun _ _ _ H => memOk_runVx H

theorem keeps_execVfma {g : ℕ} : NextKeeps s (execVfma g s) :=
  .tile fun _ _ _ H => memOk_runVx H

theorem keeps_execVmax {g : ℕ} : NextKeeps s (execVmax g s) :=
  .tile fun _ _ _ H => memOk_runVx H

theorem keeps_execVmin {g : ℕ} : NextKeeps s (execVmin g s) :=
  .tile fun _ _ _ H => memOk_runVx H

theorem keeps_execVsel {g : ℕ} : NextKeeps s (execVsel g s) :=
  .tile fun _ _ _ H => memOk_runVx H

theorem keeps_execVexp2 {g : ℕ} : NextKeeps s (execVexp2 g s) :=
  .tile fun _ _ _ H => memOk_runVx H

theorem keeps_execVlog2 {g : ℕ} : NextKeeps s (execVlog2 g s) :=
  .tile fun _ _ _ H => memOk_runVx H

theorem keeps_execVrcp {g : ℕ} : NextKeeps s (execVrcp g s) :=
  .tile fun _ _ _ H => memOk_runVx H

theorem keeps_execVrsqrt {g : ℕ} : NextKeeps s (execVrsqrt g s) :=
  .tile fun _ _ _ H => memOk_runVx H

theorem keeps_execVcvt {g : ℕ} : NextKeeps s (execVcvt g s) :=
  .tile fun _ _ _ H => memOk_runVcvt H

theorem keeps_execVlred {g : ℕ} : NextKeeps s (execVlred g s) :=
  .tile fun _ _ _ H => memOk_runVlred H

theorem keeps_execVxred {g : ℕ} : NextKeeps s (execVxred g s) :=
  .tile fun _ _ _ H => memOk_runVxred H

theorem keeps_execVmov {g : ℕ} : NextKeeps s (execVmov g s) :=
  .tile fun _ _ _ H => memOk_runVx H

theorem keeps_execVector {id : ℕ} : NextKeeps s (execVector id s) :=
  .command fun _ _ _ H => keeps_runVector H

theorem keeps_execMatmul {id : ℕ} : NextKeeps s (execMatmul id s) :=
  .command fun _ _ _ H => keeps_runMatmul H

theorem keeps_execCaptureFold {die : ℕ} : NextKeeps s (execCaptureFold die s) := by
  have H := State.Keeps.refl s
  exact .of_keeps (by grind [memOk_foldGram, State.Keeps.view, keeps_applyRun, keeps_veilRange])

theorem keeps_execGramReduce {id : ℕ} : NextKeeps s (execGramReduce id s) :=
  .command fun u h c H => by grind [keeps_applyRun, memOk_gramElems, State.Keeps.view]

theorem keeps_execRoot {id : ℕ} : NextKeeps s (execRoot id s) :=
  .command fun _ _ _ H => keeps_runRoot H

theorem keeps_execOrtho {id : ℕ} : NextKeeps s (execOrtho id s) :=
  .command fun _ _ _ H => keeps_runOrtho H

theorem keeps_execUpdate {id : ℕ} : NextKeeps s (execUpdate id s) :=
  .command fun _ _ _ H => keeps_runUpdate H

theorem keeps_execReconcile {id : ℕ} : NextKeeps s (execReconcile id s) :=
  .command fun _ _ _ H => keeps_runReconcile H

theorem keeps_execShardDigestCompute {id : ℕ} : NextKeeps s (execShardDigestCompute id s) :=
  .command fun _ _ _ H => keeps_runCompute H

theorem keeps_execShardDigestComputeCompare {id : ℕ} : NextKeeps s (execShardDigestComputeCompare id s) :=
  .command fun _ _ _ H => keeps_runComputeCompare H

theorem keeps_execShardDigestCompareRecord {id : ℕ} : NextKeeps s (execShardDigestCompareRecord id s) :=
  .command fun u h c H => by grind [keeps_compare]

theorem keeps_execDigestMessage {h : Half} {port : ℕ} {f : Frame} : NextKeeps s (execDigestMessage h port f s) := by
  have H := State.Keeps.refl s
  exact .of_keeps (by grind [keeps_receive, keeps_takeDigest, Answer.state])

theorem keeps_execDigestVerdict {h : Half} {port : ℕ} {f : Frame} : NextKeeps s (execDigestVerdict h port f s) := by
  have H := State.Keeps.refl s
  exact .of_keeps (by grind [keeps_receive, keeps_takeVerdict, Answer.state])

theorem keeps_execCkptSlotDefine {id : ℕ} : NextKeeps s (execCkptSlotDefine id s) :=
  .command fun u h c H => by grind [keeps_finish, State.modHalf_keeps]

theorem keeps_execCkptSlotHold {id : ℕ} : NextKeeps s (execCkptSlotHold id s) :=
  .command fun u h c H => by grind [keeps_changeSlot]

theorem keeps_execCkptSlotRelease {id : ℕ} : NextKeeps s (execCkptSlotRelease id s) :=
  .command fun u h c H => by grind [keeps_changeSlot]

theorem keeps_execCkptSlotDelete {id : ℕ} : NextKeeps s (execCkptSlotDelete id s) :=
  .command fun u h c H => by grind [keeps_changeSlot]

theorem keeps_execHwmReset {id : ℕ} : NextKeeps s (execHwmReset id s) :=
  .command fun u h c H => by grind [keeps_finish, State.modHalf_keeps]

theorem keeps_execPreserve {id : ℕ} : NextKeeps s (execPreserve id s) :=
  .command fun u h c H => by grind [State.modHalf_keeps, keeps_finish]

theorem keeps_execUnpreserve {id : ℕ} : NextKeeps s (execUnpreserve id s) :=
  .command fun u h c H => by grind [State.modHalf_keeps, keeps_finish]

theorem keeps_execNeighbourCkptWrite {id : ℕ} : NextKeeps s (execNeighbourCkptWrite id s) :=
  .command fun _ _ _ H => keeps_runCkptWrite H

theorem keeps_execNeighbourCkptVerify {id : ℕ} : NextKeeps s (execNeighbourCkptVerify id s) :=
  .command fun _ _ _ H => keeps_runCkptVerify H

theorem keeps_execNeighbourRestore {id : ℕ} : NextKeeps s (execNeighbourRestore id s) :=
  .command fun _ _ _ H => keeps_runRestore H

theorem keeps_execStrokeExchangeSend {h : Half} {port : ℕ} {subcount : ℕ} : NextKeeps s (execStrokeExchangeSend h port subcount s) := by
  have H := State.Keeps.refl s
  exact .of_keeps (by grind [State.modHalf_keeps])

theorem keeps_execStrokeExchangeReceive {h : Half} {port : ℕ} {arrival : ℕ} {word : ℕ} : NextKeeps s (execStrokeExchangeReceive h port arrival word s) := by
  have H := State.Keeps.refl s
  exact .of_keeps (by grind [State.modHalf_keeps, keeps_occur, keeps_yieldMaster, keeps_refreshParent, keeps_followParent])

theorem keeps_execStrokeRefEdge {subcount : ℕ} : NextKeeps s (execStrokeRefEdge subcount s) := by
  have H := State.Keeps.refl s
  exact .of_keeps (by grind [State.modHalf_keeps, State.Keeps.record, State.Keeps.mem])

theorem keeps_execStuEpochOffsetWrite {h : Half} {value : ℕ} : NextKeeps s (execStuEpochOffsetWrite h value s) := by
  have H := State.Keeps.refl s
  exact .of_keeps (by grind [State.modHalf_keeps])

theorem keeps_execTableDefine {id : ℕ} : NextKeeps s (execTableDefine id s) :=
  .command fun u h c H => by grind [keeps_finish, keeps_setTable]

theorem keeps_execTableDelete {id : ℕ} : NextKeeps s (execTableDelete id s) :=
  .command fun u h c H => by grind [State.modHalf_keeps, keeps_finish, State.Keeps.foldlS, State.Keeps.foldlF]

theorem keeps_execLookup {id : ℕ} : NextKeeps s (execLookup id s) :=
  .command fun _ _ _ H => keeps_runLookup H

theorem keeps_execRowRequest {h : Half} {port : ℕ} {f : Frame} : NextKeeps s (execRowRequest h port f s) := by
  have H := State.Keeps.refl s
  exact .of_keeps (by grind [keeps_receive, keeps_serveRow, Answer.state])

theorem keeps_execRowReply {h : Half} {port : ℕ} {f : Frame} : NextKeeps s (execRowReply h port f s) := by
  have H := State.Keeps.refl s
  exact .of_keeps (by grind [keeps_receive, keeps_takeRow, Answer.state])

theorem keeps_execHotsetLoad {id : ℕ} : NextKeeps s (execHotsetLoad id s) :=
  .command fun _ _ _ H => keeps_runHotset H

theorem keeps_execHotsetRefresh {die : ℕ} : NextKeeps s (execHotsetRefresh die s) := by
  have H := State.Keeps.refl s
  have hended {u : State} {ctx tid : ℕ} {f} (K : s.Keeps u) : s.Keeps (u.modHot ctx tid die f) := keeps_modHot K
  refine .of_keeps ?_
  split
  · exact H
  · split
    · exact H
    · split
      · exact H
      · dsimp only
        split
        · exact keeps_countAccess (hended H)
        · split
          · exact State.Keeps.ite H (State.Keeps.ite (keeps_askList H) (hended (keeps_askList H)))
          · exact State.Keeps.ite H (keeps_loadHot (keeps_dropHot (keeps_countAccess (hended H))))

theorem keeps_execSketchAging {die : ℕ} : NextKeeps s (execSketchAging die s) := by
  have H := State.Keeps.refl s
  exact .of_keeps (by grind [keeps_setWell])

theorem keeps_execWellheadDegraded {die : ℕ} {way : ℕ} : NextKeeps s (execWellheadDegraded die way s) := by
  have H := State.Keeps.refl s
  exact .of_keeps (by grind [keeps_setWell, keeps_flushWell, State.modHalf_keeps, keeps_occur])

theorem keeps_execRowMoveComplete {die : ℕ} {row : ℕ} : NextKeeps s (execRowMoveComplete die row s) := by
  have H := State.Keeps.refl s
  exact .of_keeps (by grind [keeps_setWell, keeps_setTable])

theorem keeps_execExactSumPartial {h : Half} {port : ℕ} {f : Frame} : NextKeeps s (execExactSumPartial h port f s) := by
  have H := State.Keeps.refl s
  exact .of_keeps (by grind [keeps_receive, keeps_takePartial, Answer.state])

theorem keeps_execStagingRecord {h : Half} {port : ℕ} {f : Frame} : NextKeeps s (execStagingRecord h port f s) := by
  have H := State.Keeps.refl s
  exact .of_keeps (by grind [keeps_receive, keeps_takePartial, Answer.state])

theorem keeps_execEmbGrad {id : ℕ} : NextKeeps s (execEmbGrad id s) :=
  .command fun _ _ _ H => keeps_runEmbGrad H

theorem keeps_execEmbFold {id : ℕ} : NextKeeps s (execEmbFold id s) :=
  .command fun _ _ _ H => keeps_runFold H

theorem keeps_execEmbFoldDiscard {id : ℕ} : NextKeeps s (execEmbFoldDiscard id s) :=
  .command fun _ _ _ H => keeps_runFold H

theorem keeps_execMigrationCopy {h : Half} {port : ℕ} {f : Frame} : NextKeeps s (execMigrationCopy h port f s) := by
  have H := State.Keeps.refl s
  exact .of_keeps (by grind [keeps_receive, keeps_takeCopy, Answer.state])

theorem keeps_execRowMigrate {id : ℕ} : NextKeeps s (execRowMigrate id s) :=
  .command fun _ _ _ H => keeps_runRowMigrate H

theorem keeps_execMigrationSwitch {h : Half} {table : ℕ} : NextKeeps s (execMigrationSwitch h table s) := by
  have H := State.Keeps.refl s
  exact .of_keeps (by grind [keeps_onMoves, keeps_setTable, keeps_endMove])

theorem keeps_execMigrationForwarding {h : Half} {table : ℕ} : NextKeeps s (execMigrationForwarding h table s) := by
  have H := State.Keeps.refl s
  exact .of_keeps (by grind [keeps_onMoves, keeps_setTable])

theorem keeps_execMigrationRetire {h : Half} {table : ℕ} : NextKeeps s (execMigrationRetire h table s) := by
  have H := State.Keeps.refl s
  exact .of_keeps (by grind [keeps_onMoves, keeps_setWell, keeps_endMove, keeps_setTable])

theorem keeps_execCtxDefine {id : ℕ} : NextKeeps s (execCtxDefine id s) :=
  .command fun _ _ _ H => keeps_runCtxDefine H

theorem keeps_execCtxSwitch {id : ℕ} : NextKeeps s (execCtxSwitch id s) :=
  .command fun _ _ _ H => keeps_runCtxSwitch H

theorem keeps_execCommandSuspend {id : ℕ} : NextKeeps s (execCommandSuspend id s) := by
  have H := State.Keeps.refl s
  exact .of_keeps (by grind [keeps_runSuspend])

theorem keeps_execQuiesceComplete : NextKeeps s (execQuiesceComplete s) := by
  have H := State.Keeps.refl s
  exact .of_keeps (by grind [keeps_traceSwitch, State.Keeps.record, State.Keeps.mem])

theorem keeps_execSaveComplete : NextKeeps s (execSaveComplete s) := by
  have hsaved {g : Half} {l : List ℕ} {u : State} (K : s.Keeps u) : s.Keeps (l.foldl (fun v i => v.saveCtx g i) u) :=
    State.Keeps.foldlS K fun _ _ K => keeps_saveCtx K
  refine .of_keeps ?_
  split
  · have hentered {l : List Half} {f : Half → HalfState → HalfState} := State.Keeps.foldlS (f := fun v g => v.modHalf g (f g)) (l := l)
      (hsaved (g := .k) (l := ((s.q.outgoing.foldl (fun u i => u.saveCtx .q i) s).half .k).outgoing)
        (hsaved (g := .q) (l := s.q.outgoing) (.refl s))) fun _ _ K => State.modHalf_keeps K
    exact State.Keeps.ite (keeps_traceSwitch (State.Keeps.record hentered hentered.mem)) (.refl s)
  · exact .refl s

theorem keeps_execRestoreComplete : NextKeeps s (execRestoreComplete s) := by
  have hover : s.Keeps { s with switch := none } := State.Keeps.record (.refl s) (State.Keeps.refl s).mem
  have hfin {u : State} {i : ℕ} {r : Result} (K : s.Keeps u) : s.Keeps (match u.cmd? i with | some (h, c) => u.finish h c r | none => u) := by
    split
    · exact keeps_finish K
    · exact K
  have hin {u : State} {p : Prop} [Decidable p] {g : Half} {i : ℕ} {f} (K : s.Keeps u) :
      s.Keeps ((if p then u.restoreCtx g i else u).modHalf g f) := State.modHalf_keeps (State.Keeps.ite (keeps_restoreCtx K) K)
  refine .of_keeps ?_
  split
  · exact State.Keeps.ite (.refl s) (State.Keeps.ite (hfin hover) (hfin (keeps_traceSwitch (State.Keeps.foldlS hover fun _ _ K => hin K))))
  · exact .refl s

theorem keeps_execCtxTeardown {id : ℕ} : NextKeeps s (execCtxTeardown id s) :=
  .command fun u h c H => by grind [keeps_teardownFrom, keeps_setCmd]

theorem keeps_execCtxRelease {id : ℕ} : NextKeeps s (execCtxRelease id s) :=
  .command fun u h c H => by grind [keeps_teardownFrom, keeps_setCmd]

theorem keeps_execTeardownStop {id : ℕ} : NextKeeps s (execTeardownStop id s) := by
  have H := State.Keeps.refl s
  exact .of_keeps (by grind [keeps_tearEnd, keeps_retire, keeps_endScratch])

theorem keeps_execScrubComplete {h : Half} {ctx : ℕ} : NextKeeps s (execScrubComplete h ctx s) := by
  have H := State.Keeps.refl s
  have hall {f} : s.Keeps { s.modHalf h f with mem := s.mem.clear (h.part * 2 ^ 40) ((h.part + 1) * 2 ^ 40) } :=
    State.Keeps.record (State.modHalf_keeps H) (MemOk.clear H.mem)
  have hmine {f} {l : List ℕ} : s.Keeps { s.modHalf h f with
      mem := l.foldl (fun m f => m.clear (f * frameBytes) ((f + 1) * frameBytes)) s.mem } :=
    State.Keeps.record (State.modHalf_keeps H) (MemOk.foldlM H.mem fun _ _ K => MemOk.clear K)
  exact .of_keeps (State.Keeps.ite (State.Keeps.ite hall H) (State.Keeps.ite (State.Keeps.ite hmine (State.Keeps.record hmine hmine.mem)) H))

theorem keeps_execRingDefine {id : ℕ} : NextKeeps s (execRingDefine id s) :=
  .command fun u h c H => by grind [keeps_finish, State.modHalf_keeps]

theorem keeps_execRingDelete {id : ℕ} : NextKeeps s (execRingDelete id s) :=
  .command fun u h c H => by grind [keeps_finish, State.Keeps.record, State.Keeps.mem]

theorem keeps_execMapWrite {id : ℕ} : NextKeeps s (execMapWrite id s) :=
  .command fun u h c H => by grind [State.modHalf_keeps, keeps_finish, State.Keeps.foldlS, State.Keeps.foldlF]

theorem keeps_execMapDrain {h : Half} {ctx : ℕ} : NextKeeps s (execMapDrain h ctx s) := by
  have H := State.Keeps.refl s
  exact .of_keeps (by grind [State.modHalf_keeps, State.Keeps.foldlS, State.Keeps.foldlF])

theorem keeps_execStream {h : Half} {port : ℕ} {f : Frame} : NextKeeps s (execStream h port f s) := by
  have H := State.Keeps.refl s
  exact .of_keeps (by grind [keeps_receiveSpur, keeps_spurStream, keeps_takeBlock, keeps_receive, Answer.state])

theorem keeps_execStreamAbort {h : Half} {port : ℕ} {f : Frame} : NextKeeps s (execStreamAbort h port f s) := by
  have H := State.Keeps.refl s
  exact .of_keeps (by grind [keeps_receiveSpur, keeps_spurStream, keeps_takeAbort, keeps_receive, Answer.state])

theorem keeps_execWeightStreamStore {id : ℕ} : NextKeeps s (execWeightStreamStore id s) :=
  .command fun _ _ _ H => keeps_startStream H

theorem keeps_execWeightStreamVerify {id : ℕ} : NextKeeps s (execWeightStreamVerify id s) :=
  .command fun u h c H => by grind [keeps_startStream, keeps_verifyStream]

theorem keeps_execEpochSwitchCreate {id : ℕ} : NextKeeps s (execEpochSwitchCreate id s) :=
  .command fun u h c H => by grind [keeps_finish, keeps_modBoth]

theorem keeps_execEpochSwitchMakeCurrent {id : ℕ} : NextKeeps s (execEpochSwitchMakeCurrent id s) :=
  .command fun u h c H => by grind [keeps_finish, keeps_freeEpochs, keeps_modBoth]

theorem keeps_execEpochSwitchBind {id : ℕ} : NextKeeps s (execEpochSwitchBind id s) :=
  .command fun u h c H => by grind [keeps_finish, keeps_modBoth]

theorem keeps_execEpochSwitchRelease {id : ℕ} : NextKeeps s (execEpochSwitchRelease id s) :=
  .command fun u h c H => by grind [keeps_finish, keeps_freeEpochs, keeps_modBoth]

theorem keeps_execEpochSwitchDrop {id : ℕ} : NextKeeps s (execEpochSwitchDrop id s) :=
  .command fun u h c H => by grind [keeps_finish, keeps_modBoth]

theorem keeps_execPatrol {h : Half} {stack block corrected : ℕ} : NextKeeps s (execPatrol h stack block corrected s) := by
  have H := State.Keeps.refl s
  have hcounted {p : Prop} [Decidable p] {f} : s.Keeps (if p then s else s.modHalf h f) := State.Keeps.ite H (State.modHalf_keeps H)
  exact .of_keeps (State.Keeps.ite H (State.Keeps.ite hcounted (keeps_occur (State.modHalf_keeps hcounted))))

theorem keeps_execReadReq {h : Half} {port : ℕ} {f : Frame} : NextKeeps s (execReadReq h port f s) :=
  .frame fun _ _ H => keeps_takeRead H

theorem keeps_execWrite {h : Half} {port : ℕ} {f : Frame} : NextKeeps s (execWrite h port f s) :=
  .frame fun _ _ H => keeps_takeWrite H

theorem keeps_execReadResp {h : Half} {port : ℕ} {f : Frame} : NextKeeps s (execReadResp h port f s) :=
  .frame fun _ _ H => keeps_takeReadResp H

theorem keeps_execAck {h : Half} {port : ℕ} {f : Frame} : NextKeeps s (execAck h port f s) :=
  .frame fun _ _ H => keeps_takeAck H

theorem keeps_execAckSend {h : Half} {src : ℕ} : NextKeeps s (execAckSend h src s) := by
  have H := State.Keeps.refl s
  exact .of_keeps (by grind [keeps_sendAck])

theorem keeps_execNack {h : Half} {port : ℕ} {f : Frame} : NextKeeps s (execNack h port f s) :=
  .frame fun _ _ H => keeps_takeNack H

theorem keeps_execCreditReturn {h : Half} {port : ℕ} {vc : ℕ} {units : ℕ} : NextKeeps s (execCreditReturn h port vc units s) := by
  have H := State.Keeps.refl s
  exact .of_keeps (by grind [State.modHalf_keeps, State.Keeps.foldlS, State.Keeps.foldlF])

theorem keeps_execLinkReplay {h : Half} {port : ℕ} : NextKeeps s (execLinkReplay h port s) := by
  have H := State.Keeps.refl s
  exact .of_keeps (by grind [State.modHalf_keeps])

theorem keeps_execRouteChangeNotice {h : Half} {port : ℕ} {f : Frame} : NextKeeps s (execRouteChangeNotice h port f s) := by
  have H := State.Keeps.refl s
  exact .of_keeps (by grind [keeps_unheard, State.modHalf_keeps])

theorem keeps_execRouteCommit {h : Half} : NextKeeps s (execRouteCommit h s) := by
  have H := State.Keeps.refl s
  exact .of_keeps (by grind [keeps_relayNack, State.setHalf_keeps, keeps_failAll, keeps_stopProxies, State.Keeps.foldlS, State.Keeps.foldlF])

theorem keeps_execPortDown {h : Half} {port : ℕ} {cause : ℕ} : NextKeeps s (execPortDown h port cause s) := by
  have H := State.Keeps.refl s
  exact .of_keeps (by grind [keeps_lowerPort])

theorem keeps_execPortRetrain {h : Half} {port : ℕ} : NextKeeps s (execPortRetrain h port s) := by
  have H := State.Keeps.refl s
  exact .of_keeps (by grind [State.modHalf_keeps])

theorem keeps_execCapabilityExchange {h : Half} {port : ℕ} {record : ℕ} : NextKeeps s (execCapabilityExchange h port record s) := by
  have H := State.Keeps.refl s
  exact .of_keeps (by grind [State.modHalf_keeps, keeps_lowerPort, State.Keeps.foldlS, State.Keeps.foldlF])

theorem keeps_execFrameForward {h : Half} {port : ℕ} {f : Frame} : NextKeeps s (execFrameForward h port f s) := by
  have H := State.Keeps.refl s
  exact .of_keeps (by grind [keeps_relaySpur, State.modHalf_keeps])

theorem keeps_execTeardownNotice {h : Half} {port : ℕ} {f : Frame} : NextKeeps s (execTeardownNotice h port f s) := by
  have H := State.Keeps.refl s
  exact .of_keeps (by grind [keeps_unheard, State.modHalf_keeps, keeps_teardownFrom])

theorem keeps_execFaultBroadcast {h : Half} {source : ℕ} : NextKeeps s (execFaultBroadcast h source s) :=
  .of_keeps (keeps_cross (.refl s))

theorem keeps_execReduceScatter {id : ℕ} : NextKeeps s (execReduceScatter id s) :=
  .command fun _ _ _ H => keeps_runCollective H

theorem keeps_execAllGather {id : ℕ} : NextKeeps s (execAllGather id s) :=
  .command fun _ _ _ H => keeps_runCollective H

theorem keeps_execAllReduce {id : ℕ} : NextKeeps s (execAllReduce id s) :=
  .command fun _ _ _ H => keeps_runCollective H

theorem keeps_execCollectiveFrame {h : Half} {port : ℕ} {f : Frame} : NextKeeps s (execCollectiveFrame h port f s) := by
  have H := State.Keeps.refl s
  exact .of_keeps (by grind [keeps_receive, keeps_takeData, Answer.state])

theorem keeps_execCollectiveDescriptorFrame {h : Half} {port : ℕ} {f : Frame} : NextKeeps s (execCollectiveDescriptorFrame h port f s) := by
  have H := State.Keeps.refl s
  exact .of_keeps (by grind [keeps_receive, keeps_takeDescriptor, Answer.state])

theorem keeps_execCollectiveDeadline {h : Half} {tag : ℕ} : NextKeeps s (execCollectiveDeadline h tag s) := by
  have H := State.Keeps.refl s
  exact .of_keeps (by grind [keeps_endEvicted, State.modHalf_keeps, keeps_runColl, keeps_startColl])

theorem keeps_execHangReportGraph {id : ℕ} : NextKeeps s (execHangReportGraph id s) :=
  .command fun u h c H => by grind [keeps_finish, State.Keeps.record, State.Keeps.mem]

/-- READ_COLLECTED of a record that stands at any address: the model's own address is a number too large to be written out. -/
def readRecord (collected : Half → ℕ) (s : State) (h : Half) (c : Cmd) : State :=
  let p := c.packet
  let holder := (hrPart p).other
  if !bitSet ((s.half holder).cell holder (hubKey bFCL 5)) 0 then s.finish h c emptyResult else
  let base := collected (hrPart p)
  let len := s.view.word (base + 24) 8
  let want := 64 * pkUnits p
  let given := min want (len - pl p 64 32)
  match (s.view.damageIn base 64).or (s.view.damageIn (base + pl p 64 32) given) with
  | some a => (s.finish h c (sealResult a)).sealFault a c.ctx
  | none =>
  let bs := s.view.bytes (base + pl p 64 32) given ++ List.replicate (want - given) 0
  s.finish h c { okResult given 0 0 with payload := some bs }

theorem execHangReportReadCollected_eq {id : ℕ} : execHangReportReadCollected id s =
    .next (onCommand s id 0x0006 (fun c => hrMode c.packet = 1) (readRecord collectedAt)) := rfl

theorem keeps_readRecord {collected : Half → ℕ} {h : Half} {c : Cmd} (H : s.Keeps t) : s.Keeps (readRecord collected t h c) := by
  unfold readRecord
  dsimp only
  split
  · exact keeps_finish H
  · split
    · exact keeps_sealFault (keeps_finish H)
    · exact keeps_finish H

theorem keeps_execHangReportReadCollected {id : ℕ} : NextKeeps s (execHangReportReadCollected id s) := by
  rw [execHangReportReadCollected_eq]
  exact .command fun _ _ _ H => keeps_readRecord H

theorem keeps_execMove {id : ℕ} : NextKeeps s (execMove id s) :=
  .command fun _ _ _ H => keeps_runMove H

theorem keeps_execGatherBlocks {id : ℕ} : NextKeeps s (execGatherBlocks id s) :=
  .command fun _ _ _ H => keeps_runBlocks H

theorem keeps_execScatterBlocks {id : ℕ} : NextKeeps s (execScatterBlocks id s) :=
  .command fun _ _ _ H => keeps_runBlocks H

theorem keeps_execSolveBatch {id : ℕ} : NextKeeps s (execSolveBatch id s) :=
  .command fun u h c H => by grind [State.Keeps.view, keeps_applyBatch, memOk_visitAll]

theorem keeps_execSolveDeadline {id : ℕ} : NextKeeps s (execSolveDeadline id s) :=
  .command fun u h c H => by grind [State.Keeps.view, keeps_applyBatch, memOk_deadlineAll, State.Keeps.record, State.Keeps.mem]

theorem keeps_execFaultOccurrence {h : Half} {source : ℕ} {id : ℕ} : NextKeeps s (execFaultOccurrence h source id s) := by
  have H := State.Keeps.refl s
  exact .of_keeps (by grind [keeps_engineFault, keeps_occur])

theorem keeps_execWireFault {h : Half} {source : ℕ} : NextKeeps s (execWireFault h source s) := by
  have H := State.Keeps.refl s
  exact .of_keeps (by grind [State.modHalf_keeps, keeps_occur])

theorem keeps_execEscalation {h : Half} : NextKeeps s (execEscalation h s) := by
  have H := State.Keeps.refl s
  exact .of_keeps (by grind [keeps_halfReset])

theorem keeps_execFclStickyAck {h : Half} {source : ℕ} : NextKeeps s (execFclStickyAck h source s) := .half

theorem keeps_execFclForce {h : Half} {source : ℕ} : NextKeeps s (execFclForce h source s) := .half

theorem keeps_execWatchdogExpiry {id : ℕ} : NextKeeps s (execWatchdogExpiry id s) := by
  have H := State.Keeps.refl s
  exact .of_keeps (by grind [keeps_occur, keeps_finish, keeps_abandonFrames])

theorem keeps_execHeartbeatMissed {h : Half} {core : ℕ} : NextKeeps s (execHeartbeatMissed h core s) := by
  have H := State.Keeps.refl s
  exact .of_keeps (by grind [keeps_occur])

theorem keeps_execCollectionEnd {h : Half} : NextKeeps s (execCollectionEnd h s) := by
  have hover {f} : s.Keeps (s.modHalf h f) := State.modHalf_keeps (.refl s)
  have hwritten {u : State} {n : ℕ} {f} (K : s.Keeps u) : s.Keeps (({ u with drawnFree := n } : State).modHalf h.other f) :=
    State.modHalf_keeps (State.Keeps.record K K.mem)
  refine .of_keeps ?_
  split
  · refine State.Keeps.ite (.refl s) (keeps_resetDomains (State.Keeps.ite hover ?_))
    exact State.Keeps.ite (keeps_putMem (keeps_cross hover)) (hwritten (keeps_putMem (keeps_cross hover)))
  · exact .refl s

theorem keeps_execGaugeRead {id : ℕ} : NextKeeps s (execGaugeRead id s) :=
  .command fun u h c H => by grind [keeps_finish, State.Keeps.view, keeps_sealFault, State.Keeps.record, State.Keeps.mem]

theorem keeps_execTraceCtlStart {id : ℕ} : NextKeeps s (execTraceCtlStart id s) := by
  have H := State.Keeps.refl s
  exact .of_keeps (by grind [keeps_traceCtl])

theorem keeps_execTraceCtlStop {id : ℕ} : NextKeeps s (execTraceCtlStop id s) := by
  have H := State.Keeps.refl s
  exact .of_keeps (by grind [keeps_traceCtl])

theorem keeps_execTraceCtlReset {id : ℕ} : NextKeeps s (execTraceCtlReset id s) := by
  have H := State.Keeps.refl s
  exact .of_keeps (by grind [keeps_traceCtl])

theorem keeps_execTraceCtlClearAttr {id : ℕ} : NextKeeps s (execTraceCtlClearAttr id s) := by
  have H := State.Keeps.refl s
  exact .of_keeps (by grind [keeps_traceCtl])

theorem keeps_execTraceGap {h : Half} : NextKeeps s (execTraceGap h s) := .half

theorem keeps_execFreezeArmAtStroke {id : ℕ} : NextKeeps s (execFreezeArmAtStroke id s) :=
  .command fun u h c H => by grind [keeps_finish, State.modHalf_keeps]

theorem keeps_execFreezeArmOnSource {id : ℕ} : NextKeeps s (execFreezeArmOnSource id s) :=
  .command fun u h c H => by grind [keeps_finish, State.modHalf_keeps]

theorem keeps_execFreezeArmRelease {id : ℕ} : NextKeeps s (execFreezeArmRelease id s) :=
  .command fun u h c H => by grind [keeps_finish, State.Keeps.record, State.Keeps.mem]

theorem keeps_execFreeze {h : Half} : NextKeeps s (execFreeze h s) := .half

theorem keeps_execFreezeNotice {h : Half} {port : ℕ} {f : Frame} : NextKeeps s (execFreezeNotice h port f s) := by
  have H := State.Keeps.refl s
  exact .of_keeps (by grind [keeps_unheard, State.modHalf_keeps, keeps_cross])

theorem keeps_execSiphonDown : NextKeeps s (execSiphonDown s) := by
  have H := State.Keeps.refl s
  exact .of_keeps (by grind [keeps_loseSiphon])

/-- A link state and a count of repaired lanes as the spec has them (R30). -/
theorem State.Keeps.repaired {s t : State} {m n : ℕ} (H : s.Keeps t) (hm : m ≤ 255) (hn : n ≤ 3) :
    s.Keeps { t with lanesRepaired := m, siphon := n } :=
  H.mk' rfl id fun hl => by
    simp only [State.legal, Bool.and_eq_true, decide_eq_true_eq] at hl ⊢
    omega

theorem keeps_execSiphonLaneRepair : NextKeeps s (execSiphonLaneRepair s) :=
  .of_keeps (State.Keeps.ite (.refl s) (State.Keeps.ite
    (State.Keeps.repaired (.refl s) (Nat.min_le_right ..) (by split <;> decide)) (keeps_loseSiphon (.refl s))))

theorem keeps_execSiphonRetry {h : Half} : NextKeeps s (execSiphonRetry h s) := by
  have H := State.Keeps.refl s
  exact .of_keeps (by grind [keeps_trainSiphon])

theorem keeps_execSiphonTrainingRequest {h : Half} : NextKeeps s (execSiphonTrainingRequest h s) := by
  have H := State.Keeps.refl s
  exact .of_keeps (by grind [keeps_trainSiphon])

theorem keeps_execSiphonTrainingTimeout : NextKeeps s (execSiphonTrainingTimeout s) := by
  have H := State.Keeps.refl s
  exact .of_keeps (by grind [State.Keeps.siphon, State.Keeps.record, State.Keeps.mem, State.Keeps.view])

theorem keeps_execSiphonActive : NextKeeps s (execSiphonActive s) := by
  have H := State.Keeps.refl s
  exact .of_keeps (by grind [keeps_reconcile, keeps_followSiphon, keeps_mergeGens, State.Keeps.siphon, State.Keeps.record, State.Keeps.mem, State.Keeps.view])

theorem keeps_execSiphonBlockReceive {h : Half} {dpa : ℕ} {block : List ℕ} {crc : ℕ} {id : ℕ} : NextKeeps s (execSiphonBlockReceive h dpa block crc id s) := by
  have H := State.Keeps.refl s
  exact .of_keeps (by grind [keeps_setCmd, keeps_occur, keeps_finish])

theorem keeps_execSiphonFlitRetry {h : Half} : NextKeeps s (execSiphonFlitRetry h s) := by
  have H := State.Keeps.refl s
  exact .of_keeps (by grind [State.modHalf_keeps])

theorem keeps_execNop {id : ℕ} : NextKeeps s (execNop id s) :=
  .command fun u h c H => by grind [keeps_finish]

theorem keeps_execQueryGeometry {id : ℕ} : NextKeeps s (execQueryGeometry id s) :=
  .command fun u h c H => by grind [keeps_finish]

theorem keeps_execRegRead {id : ℕ} : NextKeeps s (execRegRead id s) :=
  .command fun u h c H => by grind [keeps_crossRegs, keeps_regEntry, keeps_finish, State.Keeps.foldlS, State.Keeps.foldlF]

theorem keeps_execRegWrite {id : ℕ} : NextKeeps s (execRegWrite id s) :=
  .command fun u h c H => by grind [State.modHalf_keeps, keeps_finish, keeps_ibiAfter, keeps_crossRegs, State.Keeps.foldlS, State.Keeps.foldlF]

theorem keeps_execConfigCommit {id : ℕ} : NextKeeps s (execConfigCommit id s) :=
  .command fun u h c H => by grind [keeps_setCmd, State.modHalf_keeps, State.Keeps.foldlS, State.Keeps.foldlF]

theorem keeps_execConfigCommitFire {h : Half} : NextKeeps s (execConfigCommitFire h s) := by
  have H := State.Keeps.refl s
  exact .of_keeps (by grind [keeps_commitHalf, State.modHalf_keeps])

theorem keeps_execGateSet {id : ℕ} : NextKeeps s (execGateSet id s) :=
  .command fun u h c H => by grind [keeps_finish, keeps_setGate]

theorem keeps_execFwStageHeader {id : ℕ} : NextKeeps s (execFwStageHeader id s) :=
  .command fun u h c H => by grind [keeps_finish, State.Keeps.record, State.Keeps.mem]

theorem keeps_execFwStageBody {id : ℕ} : NextKeeps s (execFwStageBody id s) :=
  .command fun u h c H => by grind [keeps_finish, State.Keeps.record, State.Keeps.mem]

theorem keeps_execFwStageWrite {id : ℕ} : NextKeeps s (execFwStageWrite id s) :=
  .command fun u h c H => by grind [keeps_setCmd, keeps_crossFor, keeps_finish, State.Keeps.record, State.Keeps.mem]

theorem keeps_execFwStageAbort {id : ℕ} : NextKeeps s (execFwStageAbort id s) :=
  .command fun u h c H => by grind [keeps_finish, State.Keeps.record, State.Keeps.mem]

theorem keeps_execFwActivate {id : ℕ} : NextKeeps s (execFwActivate id s) :=
  .command fun u h c H => by grind [keeps_setCmd, State.modHalf_keeps]

theorem keeps_execFirmwareActivation {h : Half} : NextKeeps s (execFirmwareActivation h s) := by
  have H := State.Keeps.refl s
  exact .of_keeps (by grind [keeps_restartFirmware, keeps_beginActivation])

theorem keeps_execActivationHeartbeatCheck {h : Half} {signalled : Bool} : NextKeeps s (execActivationHeartbeatCheck h signalled s) := by
  have H := State.Keeps.refl s
  exact .of_keeps (by grind [State.modHalf_keeps, keeps_occur])

theorem keeps_execSettingsWriteBegin {id : ℕ} : NextKeeps s (execSettingsWriteBegin id s) :=
  .of_keeps (keeps_settingsWrite (.refl s) fun u h c H => by grind [keeps_finish, State.Keeps.record, State.Keeps.mem])

theorem keeps_execSettingsWriteData {id : ℕ} : NextKeeps s (execSettingsWriteData id s) :=
  .of_keeps (keeps_settingsWrite (.refl s) fun u h c H => by grind [keeps_finish, State.Keeps.record, State.Keeps.mem])

theorem keeps_execSettingsWriteAbort {id : ℕ} : NextKeeps s (execSettingsWriteAbort id s) :=
  .of_keeps (keeps_settingsWrite (.refl s) fun u h c H => by grind [keeps_finish, State.Keeps.record, State.Keeps.mem])

theorem keeps_execSettingsWriteEnd {id : ℕ} : NextKeeps s (execSettingsWriteEnd id s) :=
  .of_keeps (keeps_settingsWrite (.refl s) fun u h c H => by grind [keeps_finish, keeps_writeSlot])

theorem keeps_execSettingsConfirm {id : ℕ} : NextKeeps s (execSettingsConfirm id s) :=
  .command fun u h c H => by grind [keeps_writeSlot, keeps_finish, State.modHalf_keeps]

theorem keeps_execAttestMeasure {id : ℕ} : NextKeeps s (execAttestMeasure id s) := by
  have H := State.Keeps.refl s
  exact .of_keeps (by grind [keeps_attest])

theorem keeps_execAttestSign {id : ℕ} : NextKeeps s (execAttestSign id s) := by
  have H := State.Keeps.refl s
  exact .of_keeps (by grind [keeps_attest])

theorem keeps_execAttestIdentity {id : ℕ} : NextKeeps s (execAttestIdentity id s) := by
  have H := State.Keeps.refl s
  exact .of_keeps (by grind [keeps_attest])

theorem keeps_execScaleLoadSet {id : ℕ} : NextKeeps s (execScaleLoadSet id s) := by
  have H := State.Keeps.refl s
  exact .of_keeps (by grind [keeps_scaleRow])

theorem keeps_execScaleLoadAdvance {id : ℕ} : NextKeeps s (execScaleLoadAdvance id s) := by
  have H := State.Keeps.refl s
  exact .of_keeps (by grind [keeps_scaleRow])

theorem keeps_execScaleLoadClearOvf {id : ℕ} : NextKeeps s (execScaleLoadClearOvf id s) := by
  have H := State.Keeps.refl s
  exact .of_keeps (by grind [keeps_scaleRow])

theorem keeps_execScaleRead {id : ℕ} : NextKeeps s (execScaleRead id s) :=
  .command fun u h c H => by grind [keeps_finish]

theorem keeps_execHeadCheck {h : Half} {r : RingRef} : NextKeeps s (execHeadCheck h r s) := by
  have H := State.Keeps.refl s
  exact .of_keeps (by grind [keeps_sealFault, keeps_refuse, State.modHalf_keeps])

theorem keeps_execExamination {h : Half} {r : RingRef} : NextKeeps s (execExamination h r s) := by
  have H := State.Keeps.refl s
  have hset {f} : s.Keeps (s.modHalf h f) := State.modHalf_keeps H
  refine .of_keeps ?_
  split
  · exact H
  · split
    · exact H
    · split
      · exact H
      · split
        · exact H
        · split
          · exact keeps_refuse H
          · exact State.Keeps.ite hset (keeps_hold hset)

theorem keeps_execAdmission {h : Half} : NextKeeps s (execAdmission h s) := by
  have H := State.Keeps.refl s
  exact .of_keeps (by grind [keeps_admitHeld, keeps_admitFirst])

theorem keeps_execMirroredCommand {id : ℕ} : NextKeeps s (execMirroredCommand id s) := by
  have H := State.Keeps.refl s
  exact .of_keeps (by grind [keeps_crossFor, keeps_setCmd])

theorem keeps_execRemoteGateSignal {h : Half} : NextKeeps s (execRemoteGateSignal h s) := by
  have H := State.Keeps.refl s
  exact .of_keeps (by grind [keeps_applySignal, State.modHalf_keeps, State.Keeps.foldlS, State.Keeps.foldlF])

theorem keeps_execCommandComplete {id : ℕ} : NextKeeps s (execCommandComplete id s) := by
  have H := State.Keeps.refl s
  refine .of_keeps ?_
  split
  · split
    · split
      · exact H
      · split
        · exact keeps_setCmd (keeps_sendSignals H)
        · split
          · exact keeps_tearEnd (keeps_ackReplica (keeps_retire H))
          · exact keeps_retire H
    · exact H
  · exact H

theorem keeps_execCscSample {h : Half} {millivolts : ℕ} {milliamps : ℕ} {meters : List (ℕ × ℕ)} : NextKeeps s (execCscSample h millivolts milliamps meters s) := by
  have H := State.Keeps.refl s
  exact .of_keeps (by grind [State.modHalf_keeps, keeps_rescale, State.Keeps.foldlS, State.Keeps.foldlF])

theorem keeps_execWindowStart {h : Half} {hottest : ℕ} : NextKeeps s (execWindowStart h hottest s) := by
  have H := State.Keeps.refl s
  exact .of_keeps (by grind [State.modHalf_keeps, keeps_closeMeters, keeps_admitHeld])

theorem keeps_execWindowEnd {h : Half} : NextKeeps s (execWindowEnd h s) := .half

theorem keeps_execIdleGating {h : Half} {domain : ℕ} : NextKeeps s (execIdleGating h domain s) := by
  have H := State.Keeps.refl s
  exact .of_keeps (by grind [State.modHalf_keeps])

theorem keeps_execDomainWake {h : Half} {domain : ℕ} : NextKeeps s (execDomainWake h domain s) := .half

theorem keeps_execPwrEnRise : NextKeeps s (execPwrEnRise s) := by
  have H := State.Keeps.refl s
  exact .of_keeps (by grind [keeps_powerOn, State.Keeps.record, State.Keeps.mem])

theorem keeps_execPwrEnFall : NextKeeps s (execPwrEnFall s) := by
  have H := State.Keeps.refl s
  exact .of_keeps (by grind [keeps_powerOff, State.Keeps.record, State.Keeps.mem])

theorem keeps_execPwrEnHoldoffEnd : NextKeeps s (execPwrEnHoldoffEnd s) := by
  have H := State.Keeps.refl s
  exact .of_keeps (by grind [keeps_powerOn, State.Keeps.record, State.Keeps.mem])

theorem keeps_execPowerFail {millivolts : ℕ} : NextKeeps s (execPowerFail millivolts s) := by
  have H := State.Keeps.refl s
  exact .of_keeps (by grind [keeps_failPower])

theorem keeps_execRefclkLoss : NextKeeps s (execRefclkLoss s) := by
  have H := State.Keeps.refl s
  exact .of_keeps (by grind [keeps_failPower])

theorem keeps_execPowerRestart : NextKeeps s (execPowerRestart s) := by
  have H := State.Keeps.refl s
  exact .of_keeps (by grind [keeps_powerOn, State.Keeps.record, State.Keeps.mem])

theorem State.Keeps.railFail {s t : State} {n : ℕ} (H : s.Keeps t) (hn : n ≤ 7) : s.Keeps { t with railFail := n } :=
  H.mk' rfl id fun hl => by
    simp only [State.legal, Bool.and_eq_true, decide_eq_true_eq] at hl ⊢
    omega

theorem keeps_execRailFail {rail : ℕ} : NextKeeps s (execRailFail rail s) := by
  refine .of_keeps ?_
  split
  · next hr =>
    simp only [Bool.and_eq_true, decide_eq_true_eq] at hr
    exact State.Keeps.railFail (keeps_powerOff (.refl s)) hr.2
  · exact .refl s

theorem keeps_execThermalTrip {h : Half} {celsius : ℕ} : NextKeeps s (execThermalTrip h celsius s) :=
  .of_keeps (State.Keeps.ite (State.Keeps.record (keeps_powerOff (.refl s)) (keeps_powerOff (.refl s)).mem) (.refl s))

theorem keeps_execDiesCooled : NextKeeps s (execDiesCooled s) := by
  have H := State.Keeps.refl s
  exact .of_keeps (by grind [keeps_powerOn, State.Keeps.record, State.Keeps.mem])

theorem keeps_execHalfResetNAssert {h : Half} : NextKeeps s (execHalfResetNAssert h s) := by
  have H := State.Keeps.refl s
  exact .of_keeps (by grind [keeps_halfReset, keeps_setHeld])

theorem keeps_execHalfResetNRelease {h : Half} : NextKeeps s (execHalfResetNRelease h s) := by
  have H := State.Keeps.refl s
  exact .of_keeps (by grind [keeps_setHeld, keeps_releaseTap, State.Keeps.record, State.Keeps.mem])

theorem keeps_execModResetNAssert : NextKeeps s (execModResetNAssert s) := by
  have H := State.Keeps.refl s
  exact .of_keeps (by grind [keeps_halfReset, State.modHalf_keeps, State.Keeps.record, State.Keeps.mem])

theorem keeps_execAlwaysOnEntry {h : Half} : NextKeeps s (execAlwaysOnEntry h s) := by
  have H := State.Keeps.refl s
  exact .of_keeps (by grind [State.modHalf_keeps])

theorem keeps_execRomEntry {h : Half} {bootSel : ℕ} {secretRecovered : Bool} : NextKeeps s (execRomEntry h bootSel secretRecovered s) := by
  have hset {z : HalfState} : s.Keeps (s.setHalf h z) := State.setHalf_keeps (.refl s)
  have hgood {z : HalfState} : s.Keeps { s.setHalf h z with pgood := true } := State.Keeps.record hset hset.mem
  exact .of_keeps (State.Keeps.ite (.refl s) (State.Keeps.ite (State.Keeps.railFail hgood (Nat.zero_le 7)) hset))

theorem keeps_execLoaderBoot {h : Half} : NextKeeps s (execLoaderBoot h s) := by
  have H := State.Keeps.refl s
  exact .of_keeps (by grind [State.setHalf_keeps])

theorem keeps_execFirmwareStart {h : Half} : NextKeeps s (execFirmwareStart h s) := by
  have H := State.Keeps.refl s
  exact .of_keeps (by grind [State.modHalf_keeps, keeps_loadSettings, keeps_refreshParent])

theorem keeps_execTrainingStepTimeout {h : Half} {port : ℕ} : NextKeeps s (execTrainingStepTimeout h port s) := by
  have H := State.Keeps.refl s
  exact .of_keeps (by grind [keeps_refreshParent, State.modHalf_keeps, State.Keeps.siphon, State.Keeps.record, State.Keeps.mem, State.Keeps.view])

theorem keeps_execTrainingFailed {h : Half} : NextKeeps s (execTrainingFailed h s) := by
  have H := State.Keeps.refl s
  exact .of_keeps (by grind [State.modHalf_keeps, State.Keeps.foldlS, State.Keeps.foldlF, State.Keeps.record, State.Keeps.mem])

theorem keeps_execHalfReady {h : Half} : NextKeeps s (execHalfReady h s) := by
  have H := State.Keeps.refl s
  exact .of_keeps (by grind [keeps_becomeReady])

theorem keeps_execStrokeParentTimeout {h : Half} : NextKeeps s (execStrokeParentTimeout h s) := by
  have H := State.Keeps.refl s
  exact .of_keeps (by grind [keeps_becomeReady, State.modHalf_keeps])

theorem keeps_execRecoveryImageWritten {h : Half} : NextKeeps s (execRecoveryImageWritten h s) := .half

theorem keeps_execSpurRecoveryStream {f : Frame} : NextKeeps s (execSpurRecoveryStream f s) := by
  have H := State.Keeps.refl s
  exact .of_keeps (by grind [State.modHalf_keeps])

theorem keeps_execMgmtStatus {address : ℕ} : NextKeeps s (execMgmtStatus address s) := by
  have H := State.Keeps.refl s
  exact .of_keeps (by grind [keeps_answer, State.Keeps.record, State.Keeps.mem])

theorem keeps_execMgmtPacket {address : ℕ} {packet : List ℕ} : NextKeeps s (execMgmtPacket address packet s) := by
  have H := State.Keeps.refl s
  exact .of_keeps (by grind [keeps_nackPort, keeps_enqueuePacket, State.modHalf_keeps, keeps_answer])

theorem keeps_execMgmtPacketEnqueue {h : Half} : NextKeeps s (execMgmtPacketEnqueue h s) := by
  have H := State.Keeps.refl s
  exact .of_keeps (by grind [keeps_enqueuePacket])

theorem keeps_execMgmtReply {address : ℕ} {part : ℕ} : NextKeeps s (execMgmtReply address part s) := by
  have H := State.Keeps.refl s
  exact .of_keeps (by grind [keeps_nackPort, keeps_answer])

theorem keeps_execMgmtRecovery {address : ℕ} {part : ℕ} {offset : ℕ} {bytes : List ℕ} : NextKeeps s (execMgmtRecovery address part offset bytes s) := by
  have H := State.Keeps.refl s
  exact .of_keeps (by grind [keeps_nackPort, State.setHalf_keeps, keeps_answer, State.Keeps.record, State.Keeps.mem])

theorem keeps_execRstdaa {address : ℕ} : NextKeeps s (execRstdaa address s) := by
  have H := State.Keeps.refl s
  exact .of_keeps (by grind [State.Keeps.record, State.Keeps.mem])

theorem keeps_execSetdasa {address : ℕ} {dynamic : ℕ} : NextKeeps s (execSetdasa address dynamic s) := by
  have H := State.Keeps.refl s
  exact .of_keeps (by grind [State.Keeps.record, State.Keeps.mem])

theorem keeps_execSetaasa : NextKeeps s (execSetaasa s) := by
  have H := State.Keeps.refl s
  exact .of_keeps (by grind [State.Keeps.record, State.Keeps.mem])

theorem keeps_execEnec {address : ℕ} : NextKeeps s (execEnec address s) := by
  have H := State.Keeps.refl s
  exact .of_keeps (by grind [State.Keeps.record, State.Keeps.mem])

theorem keeps_execDisec {address : ℕ} : NextKeeps s (execDisec address s) := by
  have H := State.Keeps.refl s
  exact .of_keeps (by grind [State.Keeps.record, State.Keeps.mem])

theorem keeps_execGetstatus {address : ℕ} : NextKeeps s (execGetstatus address s) := by
  have H := State.Keeps.refl s
  exact .of_keeps (by grind [keeps_answer, State.Keeps.record, State.Keeps.mem])

theorem keeps_execGetbcr {address : ℕ} : NextKeeps s (execGetbcr address s) := by
  have H := State.Keeps.refl s
  exact .of_keeps (by grind [keeps_answer])

theorem keeps_execGetdcr {address : ℕ} : NextKeeps s (execGetdcr address s) := by
  have H := State.Keeps.refl s
  exact .of_keeps (by grind [keeps_answer])

theorem keeps_execGetmwl {address : ℕ} : NextKeeps s (execGetmwl address s) := by
  have H := State.Keeps.refl s
  exact .of_keeps (by grind [keeps_answer])

theorem keeps_execGetmrl {address : ℕ} : NextKeeps s (execGetmrl address s) := by
  have H := State.Keeps.refl s
  exact .of_keeps (by grind [keeps_answer])

theorem State.Keeps.maxWrite {s t : State} {n : ℕ} (H : s.Keeps t) (hn : n ≤ 4162) : s.Keeps { t with maxWrite := n } :=
  H.mk' rfl id fun hl => by
    simp only [State.legal, Bool.and_eq_true, decide_eq_true_eq] at hl ⊢
    omega

theorem keeps_execSetmwl {address length : ℕ} : NextKeeps s (execSetmwl address length s) := by
  refine .of_keeps ?_
  split
  · next hl =>
    simp only [Bool.and_eq_true, decide_eq_true_eq] at hl
    exact State.Keeps.maxWrite (.refl s) hl.2
  · exact .refl s

theorem State.Keeps.maxRead {s t : State} {n : ℕ} (H : s.Keeps t) (hn : n ≤ 4162) : s.Keeps { t with maxRead := n } :=
  H.mk' rfl id fun hl => by
    simp only [State.legal, Bool.and_eq_true, decide_eq_true_eq] at hl ⊢
    omega

theorem keeps_execSetmrl {address length : ℕ} : NextKeeps s (execSetmrl address length s) := by
  refine .of_keeps ?_
  split
  · next hl =>
    simp only [Bool.and_eq_true, decide_eq_true_eq] at hl
    exact State.Keeps.maxRead (.refl s) hl.2
  · exact .refl s

theorem keeps_execRstact {address : ℕ} {action : ℕ} : NextKeeps s (execRstact address action s) := by
  have H := State.Keeps.refl s
  exact .of_keeps (by grind [keeps_answer, keeps_nackPort])

theorem keeps_execTapReset : NextKeeps s (execTapReset s) := by
  have H := State.Keeps.refl s
  exact .of_keeps (by grind [keeps_tap])

theorem keeps_execBypass : NextKeeps s (execBypass s) := by
  have H := State.Keeps.refl s
  exact .of_keeps (by grind [keeps_tap])

theorem keeps_execIdcode : NextKeeps s (execIdcode s) := by
  have H := State.Keeps.refl s
  exact .of_keeps (by grind [keeps_tap])

theorem keeps_execSamplePreload {preload : ℕ} : NextKeeps s (execSamplePreload preload s) := by
  have H := State.Keeps.refl s
  exact .of_keeps (by grind [keeps_tap, State.Keeps.record, State.Keeps.mem])

theorem keeps_execExtest : NextKeeps s (execExtest s) := by
  have H := State.Keeps.refl s
  exact .of_keeps (by grind [keeps_tapDrive])

theorem keeps_execClamp : NextKeeps s (execClamp s) := by
  have H := State.Keeps.refl s
  exact .of_keeps (by grind [keeps_tapDrive])

theorem keeps_execHighz : NextKeeps s (execHighz s) := by
  have H := State.Keeps.refl s
  exact .of_keeps (by grind [keeps_tapDrive])

theorem keeps_execRingWrite {f : Frame} : NextKeeps s (execRingWrite f s) :=
  .spur fun _ _ H => keeps_takeRingWrite H

theorem keeps_execSpurReadReq {f : Frame} : NextKeeps s (execSpurReadReq f s) :=
  .spur fun _ _ H => keeps_takeRingRead H

theorem keeps_execDoorbell {f : Frame} : NextKeeps s (execDoorbell f s) :=
  .spur fun _ _ H => keeps_takeDoorbell H

theorem keeps_execDoorbellRelay {f : Frame} : NextKeeps s (execDoorbellRelay f s) := by
  have H := State.Keeps.refl s
  exact .of_keeps (by grind [keeps_relaySpur])

theorem keeps_execStrokeIncrement {h : Half} : NextKeeps s (execStrokeIncrement h s) := by
  have H := State.Keeps.refl s
  exact .of_keeps (by grind [keeps_passStroke])

/-- Every row of the table answers a next state, which keeps the invariant and the queue. -/
theorem exec_keeps (c : Instr) : NextKeeps s (exec c s) := by
  cases c with
  | nop _ => exact keeps_execNop
  | queryGeometry _ => exact keeps_execQueryGeometry
  | regRead _ => exact keeps_execRegRead
  | regWrite _ => exact keeps_execRegWrite
  | configCommit _ => exact keeps_execConfigCommit
  | gateSet _ => exact keeps_execGateSet
  | hangReportGraph _ => exact keeps_execHangReportGraph
  | hangReportReadCollected _ => exact keeps_execHangReportReadCollected
  | freezeArmAtStroke _ => exact keeps_execFreezeArmAtStroke
  | freezeArmOnSource _ => exact keeps_execFreezeArmOnSource
  | freezeArmRelease _ => exact keeps_execFreezeArmRelease
  | gaugeRead _ => exact keeps_execGaugeRead
  | traceCtlStart _ => exact keeps_execTraceCtlStart
  | traceCtlStop _ => exact keeps_execTraceCtlStop
  | traceCtlReset _ => exact keeps_execTraceCtlReset
  | traceCtlClearAttr _ => exact keeps_execTraceCtlClearAttr
  | ctxDefine _ => exact keeps_execCtxDefine
  | ctxSwitch _ => exact keeps_execCtxSwitch
  | ctxTeardown _ => exact keeps_execCtxTeardown
  | ctxRelease _ => exact keeps_execCtxRelease
  | ringDefine _ => exact keeps_execRingDefine
  | ringDelete _ => exact keeps_execRingDelete
  | mapWrite _ => exact keeps_execMapWrite
  | tileProgramLoad _ => exact keeps_execTileProgramLoad
  | tileRun _ => exact keeps_execTileRun
  | matmul _ => exact keeps_execMatmul
  | vector _ => exact keeps_execVector
  | scaleLoadSet _ => exact keeps_execScaleLoadSet
  | scaleLoadAdvance _ => exact keeps_execScaleLoadAdvance
  | scaleLoadClearOvf _ => exact keeps_execScaleLoadClearOvf
  | scaleRead _ => exact keeps_execScaleRead
  | move _ => exact keeps_execMove
  | gatherBlocks _ => exact keeps_execGatherBlocks
  | scatterBlocks _ => exact keeps_execScatterBlocks
  | gramReduce _ => exact keeps_execGramReduce
  | root _ => exact keeps_execRoot
  | ortho _ => exact keeps_execOrtho
  | solveBatch _ => exact keeps_execSolveBatch
  | update _ => exact keeps_execUpdate
  | reconcile _ => exact keeps_execReconcile
  | shardDigestCompute _ => exact keeps_execShardDigestCompute
  | shardDigestComputeCompare _ => exact keeps_execShardDigestComputeCompare
  | shardDigestCompareRecord _ => exact keeps_execShardDigestCompareRecord
  | tableDefine _ => exact keeps_execTableDefine
  | tableDelete _ => exact keeps_execTableDelete
  | lookup _ => exact keeps_execLookup
  | hotsetLoad _ => exact keeps_execHotsetLoad
  | embGrad _ => exact keeps_execEmbGrad
  | embFold _ => exact keeps_execEmbFold
  | embFoldDiscard _ => exact keeps_execEmbFoldDiscard
  | rowMigrate _ => exact keeps_execRowMigrate
  | weightStreamStore _ => exact keeps_execWeightStreamStore
  | weightStreamVerify _ => exact keeps_execWeightStreamVerify
  | epochSwitchCreate _ => exact keeps_execEpochSwitchCreate
  | epochSwitchMakeCurrent _ => exact keeps_execEpochSwitchMakeCurrent
  | epochSwitchBind _ => exact keeps_execEpochSwitchBind
  | epochSwitchRelease _ => exact keeps_execEpochSwitchRelease
  | epochSwitchDrop _ => exact keeps_execEpochSwitchDrop
  | reduceScatter _ => exact keeps_execReduceScatter
  | allGather _ => exact keeps_execAllGather
  | allReduce _ => exact keeps_execAllReduce
  | ckptSlotDefine _ => exact keeps_execCkptSlotDefine
  | ckptSlotHold _ => exact keeps_execCkptSlotHold
  | ckptSlotRelease _ => exact keeps_execCkptSlotRelease
  | ckptSlotDelete _ => exact keeps_execCkptSlotDelete
  | preserve _ => exact keeps_execPreserve
  | unpreserve _ => exact keeps_execUnpreserve
  | hwmReset _ => exact keeps_execHwmReset
  | neighbourCkptWrite _ => exact keeps_execNeighbourCkptWrite
  | neighbourCkptVerify _ => exact keeps_execNeighbourCkptVerify
  | neighbourRestore _ => exact keeps_execNeighbourRestore
  | fwStageHeader _ => exact keeps_execFwStageHeader
  | fwStageBody _ => exact keeps_execFwStageBody
  | fwStageWrite _ => exact keeps_execFwStageWrite
  | fwStageAbort _ => exact keeps_execFwStageAbort
  | fwActivate _ => exact keeps_execFwActivate
  | settingsWriteBegin _ => exact keeps_execSettingsWriteBegin
  | settingsWriteData _ => exact keeps_execSettingsWriteData
  | settingsWriteEnd _ => exact keeps_execSettingsWriteEnd
  | settingsWriteAbort _ => exact keeps_execSettingsWriteAbort
  | settingsConfirm _ => exact keeps_execSettingsConfirm
  | attestMeasure _ => exact keeps_execAttestMeasure
  | attestSign _ => exact keeps_execAttestSign
  | attestIdentity _ => exact keeps_execAttestIdentity
  | stuEpochOffsetWrite _ _ => exact keeps_execStuEpochOffsetWrite
  | fclStickyAck _ _ => exact keeps_execFclStickyAck
  | fclForce _ _ => exact keeps_execFclForce
  | tileEnd _ => exact keeps_execTileEnd
  | tileNop _ => exact keeps_execTileNop
  | gateWait _ => exact keeps_execGateWait
  | loop _ => exact keeps_execLoop
  | aadd _ => exact keeps_execAadd
  | aset _ => exact keeps_execAset
  | mma _ => exact keeps_execMma
  | mdrain _ => exact keeps_execMdrain
  | vadd _ => exact keeps_execVadd
  | vmul _ => exact keeps_execVmul
  | vfma _ => exact keeps_execVfma
  | vmax _ => exact keeps_execVmax
  | vmin _ => exact keeps_execVmin
  | vsel _ => exact keeps_execVsel
  | vexp2 _ => exact keeps_execVexp2
  | vlog2 _ => exact keeps_execVlog2
  | vrcp _ => exact keeps_execVrcp
  | vrsqrt _ => exact keeps_execVrsqrt
  | vcvt _ => exact keeps_execVcvt
  | vlred _ => exact keeps_execVlred
  | vxred _ => exact keeps_execVxred
  | vmov _ => exact keeps_execVmov
  | ld _ => exact keeps_execLd
  | st _ => exact keeps_execSt
  | gtgt _ => exact keeps_execGtgt
  | gzero _ => exact keeps_execGzero
  | headCheck _ _ => exact keeps_execHeadCheck
  | examination _ _ => exact keeps_execExamination
  | admission _ => exact keeps_execAdmission
  | commandComplete _ => exact keeps_execCommandComplete
  | commandSuspend _ => exact keeps_execCommandSuspend
  | doorbell _ => exact keeps_execDoorbell
  | doorbellRelay _ => exact keeps_execDoorbellRelay
  | ringWrite _ => exact keeps_execRingWrite
  | spurReadReq _ => exact keeps_execSpurReadReq
  | cscSample _ _ _ _ => exact keeps_execCscSample
  | windowStart _ _ => exact keeps_execWindowStart
  | windowEnd _ => exact keeps_execWindowEnd
  | idleGating _ _ => exact keeps_execIdleGating
  | domainWake _ _ => exact keeps_execDomainWake
  | strokeExchangeSend _ _ _ => exact keeps_execStrokeExchangeSend
  | strokeExchangeReceive _ _ _ _ => exact keeps_execStrokeExchangeReceive
  | strokeRefEdge _ => exact keeps_execStrokeRefEdge
  | freeze _ => exact keeps_execFreeze
  | routeCommit _ => exact keeps_execRouteCommit
  | configCommitFire _ => exact keeps_execConfigCommitFire
  | firmwareActivation _ => exact keeps_execFirmwareActivation
  | activationHeartbeatCheck _ _ => exact keeps_execActivationHeartbeatCheck
  | siphonDown => exact keeps_execSiphonDown
  | siphonLaneRepair => exact keeps_execSiphonLaneRepair
  | siphonRetry _ => exact keeps_execSiphonRetry
  | siphonTrainingRequest _ => exact keeps_execSiphonTrainingRequest
  | siphonTrainingTimeout => exact keeps_execSiphonTrainingTimeout
  | siphonActive => exact keeps_execSiphonActive
  | siphonBlockReceive _ _ _ _ _ => exact keeps_execSiphonBlockReceive
  | mirroredCommand _ => exact keeps_execMirroredCommand
  | remoteGateSignal _ => exact keeps_execRemoteGateSignal
  | capabilityExchange _ _ _ => exact keeps_execCapabilityExchange
  | portDown _ _ _ => exact keeps_execPortDown
  | portRetrain _ _ => exact keeps_execPortRetrain
  | linkReplay _ _ => exact keeps_execLinkReplay
  | frameForward _ _ _ => exact keeps_execFrameForward
  | creditReturn _ _ _ _ => exact keeps_execCreditReturn
  | readReq _ _ _ => exact keeps_execReadReq
  | readResp _ _ _ => exact keeps_execReadResp
  | write _ _ _ => exact keeps_execWrite
  | ack _ _ _ => exact keeps_execAck
  | ackSend _ _ => exact keeps_execAckSend
  | nack _ _ _ => exact keeps_execNack
  | rowRequest _ _ _ => exact keeps_execRowRequest
  | rowReply _ _ _ => exact keeps_execRowReply
  | exactSumPartial _ _ _ => exact keeps_execExactSumPartial
  | stagingRecord _ _ _ => exact keeps_execStagingRecord
  | migrationCopy _ _ _ => exact keeps_execMigrationCopy
  | collectiveFrame _ _ _ => exact keeps_execCollectiveFrame
  | collectiveDescriptorFrame _ _ _ => exact keeps_execCollectiveDescriptorFrame
  | stream _ _ _ => exact keeps_execStream
  | streamAbort _ _ _ => exact keeps_execStreamAbort
  | digestMessage _ _ _ => exact keeps_execDigestMessage
  | digestVerdict _ _ _ => exact keeps_execDigestVerdict
  | teardownNotice _ _ _ => exact keeps_execTeardownNotice
  | faultBroadcast _ source => exact keeps_execFaultBroadcast (source := source)
  | freezeNotice _ _ _ => exact keeps_execFreezeNotice
  | routeChangeNotice _ _ _ => exact keeps_execRouteChangeNotice
  | faultOccurrence _ _ _ => exact keeps_execFaultOccurrence
  | wireFault _ _ => exact keeps_execWireFault
  | escalation _ => exact keeps_execEscalation
  | watchdogExpiry _ => exact keeps_execWatchdogExpiry
  | heartbeatMissed _ _ => exact keeps_execHeartbeatMissed
  | groupOverLimit _ => exact keeps_execGroupOverLimit
  | collectionEnd _ => exact keeps_execCollectionEnd
  | teardownStop _ => exact keeps_execTeardownStop
  | scrubComplete _ _ => exact keeps_execScrubComplete
  | mapDrain _ _ => exact keeps_execMapDrain
  | quiesceComplete => exact keeps_execQuiesceComplete
  | saveComplete => exact keeps_execSaveComplete
  | restoreComplete => exact keeps_execRestoreComplete
  | captureFold _ => exact keeps_execCaptureFold
  | solveDeadline _ => exact keeps_execSolveDeadline
  | collectiveDeadline _ _ => exact keeps_execCollectiveDeadline
  | hotsetRefresh _ => exact keeps_execHotsetRefresh
  | sketchAging _ => exact keeps_execSketchAging
  | wellheadDegraded _ _ => exact keeps_execWellheadDegraded
  | migrationSwitch _ _ => exact keeps_execMigrationSwitch
  | migrationForwarding _ _ => exact keeps_execMigrationForwarding
  | migrationRetire _ _ => exact keeps_execMigrationRetire
  | rowMoveComplete _ _ => exact keeps_execRowMoveComplete
  | patrol _ _ _ _ => exact keeps_execPatrol
  | traceGap _ => exact keeps_execTraceGap
  | pwrEnRise => exact keeps_execPwrEnRise
  | pwrEnFall => exact keeps_execPwrEnFall
  | powerFail _ => exact keeps_execPowerFail
  | powerRestart => exact keeps_execPowerRestart
  | refclkLoss => exact keeps_execRefclkLoss
  | railFail _ => exact keeps_execRailFail
  | thermalTrip h _ => exact keeps_execThermalTrip (h := h)
  | halfResetNAssert _ => exact keeps_execHalfResetNAssert
  | halfResetNRelease _ => exact keeps_execHalfResetNRelease
  | modResetNAssert => exact keeps_execModResetNAssert
  | alwaysOnEntry _ => exact keeps_execAlwaysOnEntry
  | romEntry _ _ _ => exact keeps_execRomEntry
  | loaderBoot _ => exact keeps_execLoaderBoot
  | firmwareStart _ => exact keeps_execFirmwareStart
  | trainingStepTimeout _ _ => exact keeps_execTrainingStepTimeout
  | strokeParentTimeout _ => exact keeps_execStrokeParentTimeout
  | halfReady _ => exact keeps_execHalfReady
  | recoveryImageWritten _ => exact keeps_execRecoveryImageWritten
  | spurRecoveryStream _ => exact keeps_execSpurRecoveryStream
  | mgmtStatus _ => exact keeps_execMgmtStatus
  | mgmtPacket _ _ => exact keeps_execMgmtPacket
  | mgmtPacketEnqueue _ => exact keeps_execMgmtPacketEnqueue
  | mgmtReply _ _ => exact keeps_execMgmtReply
  | mgmtRecovery _ _ _ _ => exact keeps_execMgmtRecovery
  | rstdaa _ => exact keeps_execRstdaa
  | setdasa _ _ => exact keeps_execSetdasa
  | setaasa => exact keeps_execSetaasa
  | enec _ => exact keeps_execEnec
  | disec _ => exact keeps_execDisec
  | getstatus _ => exact keeps_execGetstatus
  | getbcr _ => exact keeps_execGetbcr
  | getdcr _ => exact keeps_execGetdcr
  | getmwl _ => exact keeps_execGetmwl
  | getmrl _ => exact keeps_execGetmrl
  | setmwl _ _ => exact keeps_execSetmwl
  | setmrl _ _ => exact keeps_execSetmrl
  | rstact _ _ => exact keeps_execRstact
  | tapReset => exact keeps_execTapReset
  | bypass => exact keeps_execBypass
  | idcode => exact keeps_execIdcode
  | samplePreload _ => exact keeps_execSamplePreload
  | extest => exact keeps_execExtest
  | clamp => exact keeps_execClamp
  | highz => exact keeps_execHighz
  | strokeIncrement _ => exact keeps_execStrokeIncrement
  | trainingFailed _ => exact keeps_execTrainingFailed
  | siphonFlitRetry _ => exact keeps_execSiphonFlitRetry
  | pwrEnHoldoffEnd => exact keeps_execPwrEnHoldoffEnd
  | diesCooled => exact keeps_execDiesCooled

/-- Settles O5, by what every row keeps. -/
theorem everyCommandAnswers : Obligations.EveryCommandAnswers := by
  intro c s
  obtain ⟨t, ht, -⟩ := exec_keeps (s := s) c
  exact ⟨t, ht⟩

/-- Settles O4, by what every row keeps. -/
theorem commandsLeaveTheQueue : Obligations.CommandsLeaveTheQueue := by
  intro c s t h
  obtain ⟨u, hu, hk⟩ := exec_keeps (s := s) c
  rw [h] at hu
  cases hu
  exact hk.queue

/-- Settles O1, by the two cases of the queue. -/
theorem frontOfQueueRuns : Obligations.FrontOfQueueRuns :=
  ⟨fun c rest s h => by rw [step, h], fun s h => by rw [step, h]⟩

/-- Settles O3, by what every row keeps: the queue is no part of the invariant. -/
theorem stepKeepsInvariant : Obligations.StepKeepsInvariant := by
  intro s t hi h
  cases hp : s.pending with
  | nil =>
    rw [frontOfQueueRuns.2 s hp] at h
    cases h
    exact hi
  | cons c rest =>
    rw [frontOfQueueRuns.1 c rest s hp] at h
    obtain ⟨u, hu, hk⟩ := exec_keeps (s := { s with pending := rest }) c
    rw [h] at hu
    cases hu
    exact hk.inv hi

end Sys2Proof.Machine
end

section
/-! # O36: the epochs of a weight set (R366 to R370) -/

namespace Sys2Proof.Machine

variable {s : State} {id i : ℕ} {g h : Half} {c : Cmd} {f : Ctx → Ctx}

/-! ## A context in both halves -/

theorem State.modBoth_eq (s : State) (i : ℕ) (f : Ctx → Ctx) : s.modBoth i f
    = { s with
        q := if (s.q.ctx i).alive then s.q.modCtx i f else s.q
        k := if (s.k.ctx i).alive then s.k.modCtx i f else s.k } := by
  unfold State.modBoth
  by_cases hq : (s.q.ctx i).alive <;> by_cases hk : (s.k.ctx i).alive <;> simp [hq, hk, State.modHalf, State.setHalf, State.half]

@[simp] theorem State.modBoth_mem (s : State) (i : ℕ) (f : Ctx → Ctx) : (s.modBoth i f).mem = s.mem := by rw [State.modBoth_eq]

theorem State.half_modBoth (s : State) (i : ℕ) (f : Ctx → Ctx) (g : Half) :
    (s.modBoth i f).half g = if ((s.half g).ctx i).alive then (s.half g).modCtx i f else s.half g := by
  rw [State.modBoth_eq]
  cases g <;> rfl

/-- In every half in which the context lives it changes. -/
theorem State.ctx_modBoth (hf : ∀ k, (f k).id = k.id) (halive : ((s.half g).ctx i).alive = true) :
    ((s.modBoth i f).half g).ctx i = f ((s.half g).ctx i) := by
  rw [State.half_modBoth, if_pos halive, HalfState.ctx_modCtx hf, if_pos rfl]

theorem State.cmd?_modBoth (s : State) (i : ℕ) (f : Ctx → Ctx) (id : ℕ) : (s.modBoth i f).cmd? id = s.cmd? id := by
  rw [State.modBoth_eq]
  exact State.cmd?_congr (by dsimp only; split <;> rfl) (by dsimp only; split <;> rfl) id

/-! ## The end of epochs that nothing refers to (R368) -/

/-- Whether an epoch stays: it is not retiring, or a batch holds it. -/
def State.keepsEpoch (s : State) (i : ℕ) (e : Epoch) : Bool := e.st ≠ .retiring || s.epochHeld i e.num

@[simp] theorem State.freeEpochs_mem (s : State) (i : ℕ) : (s.freeEpochs i).mem = s.mem := rfl

theorem State.cmd?_freeEpochs (s : State) (i : ℕ) (id : ℕ) : (s.freeEpochs i).cmd? id = s.cmd? id :=
  State.cmd?_congr (by dsimp only [State.freeEpochs]; split <;> rfl) (by dsimp only [State.freeEpochs]; split <;> rfl) id

theorem State.half_freeEpochs (s : State) (i : ℕ) (g : Half) : (s.freeEpochs i).half g
    = if ((s.half g).ctx i).epochs.all (s.keepsEpoch i) then s.half g else (s.half g).modCtx i fun k => k.freeing (s.keepsEpoch i) := by
  cases g <;> rfl

theorem State.epochs_freeEpochs (s : State) (i : ℕ) (g : Half) :
    (((s.freeEpochs i).half g).ctx i).epochs = ((s.half g).ctx i).epochs.filter (s.keepsEpoch i) := by
  rw [State.half_freeEpochs]
  split
  · next hall => exact (List.filter_eq_self.2 (List.all_eq_true.1 hall)).symm
  · rw [HalfState.ctx_modCtx (fun _ => by rfl), if_pos rfl]
    rfl

theorem State.binds_freeEpochs (s : State) (i : ℕ) (g : Half) :
    (((s.freeEpochs i).half g).ctx i).binds = ((s.half g).ctx i).binds := by
  rw [State.half_freeEpochs]
  split
  · rfl
  · rw [HalfState.ctx_modCtx (fun _ => by rfl), if_pos rfl]
    rfl

/-! ## MAKE_CURRENT (R367) -/

/-- What MAKE_CURRENT of the epoch `n` makes of an epoch: the current one, or one that is current no longer. -/
def Epoch.turn (n : ℕ) (e : Epoch) : Epoch :=
  if e.num = n then { e with st := .current } else if e.st = .current then { e with st := .retiring } else e

theorem Epoch.turn_num (n : ℕ) (e : Epoch) : (e.turn n).num = e.num := by
  unfold Epoch.turn
  split
  · rfl
  · split <;> rfl

theorem Epoch.turn_current_iff (n : ℕ) (e : Epoch) : (e.turn n).st = .current ↔ e.num = n := by
  unfold Epoch.turn
  by_cases hn : e.num = n
  · simp [hn]
  · by_cases hc : e.st = .current <;> simp [hn, hc]

/-- The epochs of a context after MAKE_CURRENT are turned ones. -/
theorem State.mem_epochs_makeCurrent {n : ℕ} {e : Epoch} (halive : ((s.half g).ctx i).alive = true) :
    e ∈ ((((s.modBoth i fun k => { k with epochs := k.epochs.map (Epoch.turn n) }).freeEpochs i).half g).ctx i).epochs
      ↔ (∃ a ∈ ((s.half g).ctx i).epochs, a.turn n = e)
        ∧ (s.modBoth i fun k => { k with epochs := k.epochs.map (Epoch.turn n) }).keepsEpoch i e = true := by
  rw [State.epochs_freeEpochs, List.mem_filter, State.ctx_modBoth (fun _ => by rfl) halive, List.mem_map]

theorem exec_epochSwitchMakeCurrent_of_runs (hrun : s.runs id h c 0x0802) (hop : esOp c.packet = 2) :
    exec (.epochSwitchMakeCurrent id) s = .next (((s.modBoth (pkCtx c.packet) fun k =>
      { k with epochs := k.epochs.map (Epoch.turn (esEpoch c.packet)) }).freeEpochs (pkCtx c.packet)).finish h c (okResult 0 0 0)) :=
  congrArg Host.Outcome.next (onCommand_runs hrun (by simp [hop]))

/-- The named epoch is the only current one, and it stays. -/
theorem State.currentEpoch_makeCurrent {n : ℕ} (halive : ((s.half g).ctx i).alive = true)
    (hnamed : ∃ e ∈ ((s.half g).ctx i).epochs, e.num = n) :
    ((((s.modBoth i fun k => { k with epochs := k.epochs.map (Epoch.turn n) }).freeEpochs i).half g).ctx i).currentEpoch = some n := by
  unfold Ctx.currentEpoch
  obtain ⟨a, ha, hn⟩ := hnamed
  have hcurrent : (a.turn n).st = .current := (a.turn_current_iff n).2 hn
  have hstays : a.turn n ∈ ((((s.modBoth i fun k => { k with epochs := k.epochs.map (Epoch.turn n) }).freeEpochs i).half g).ctx i).epochs :=
    (State.mem_epochs_makeCurrent halive).2 ⟨⟨a, ha, rfl⟩, by simp [State.keepsEpoch, hcurrent]⟩
  obtain ⟨e, he⟩ := Option.isSome_iff_exists.1 (List.find?_isSome (p := fun e : Epoch => decide (e.st = .current)) |>.2
    ⟨a.turn n, hstays, decide_eq_true hcurrent⟩)
  rw [he]
  obtain ⟨⟨b, -, hb⟩, -⟩ := (State.mem_epochs_makeCurrent halive).1 (List.mem_of_find?_eq_some he)
  subst hb
  rw [Option.map_some, Epoch.turn_num, (b.turn_current_iff n).1 (by simpa using List.find?_some he)]

/-- Settles O36, by what each OP does to the context in a half in which it lives. -/
theorem epochSwitchCompletes : Obligations.EpochSwitchCompletes := by
  intro s id h c hrun
  refine ⟨fun hop => ?create, fun hop => ?makeCurrent, fun hop => ?bind, fun hop => ?release, fun hop => ?drop⟩
  case create =>
    refine ⟨_, congrArg Host.Outcome.next (onCommand_runs hrun (by simp [hop])), State.ended_of_runs hrun (State.cmd?_modBoth ..) _,
      by simp, fun g halive => ?_⟩
    rw [State.finish_ctx, State.ctx_modBoth (fun _ => by rfl) halive]
    exact ⟨rfl, rfl, rfl⟩
  case makeCurrent =>
    refine ⟨_, exec_epochSwitchMakeCurrent_of_runs hrun hop,
      State.ended_of_runs hrun ((State.cmd?_freeEpochs ..).trans (State.cmd?_modBoth ..)) _, by simp, fun g halive => ?_⟩
    rw [State.finish_ctx]
    refine ⟨fun e he => ?_, State.currentEpoch_makeCurrent halive⟩
    obtain ⟨⟨a, -, rfl⟩, -⟩ := (State.mem_epochs_makeCurrent halive).1 he
    rw [Epoch.turn_current_iff, Epoch.turn_num]
  case bind =>
    refine ⟨_, congrArg Host.Outcome.next (onCommand_runs hrun (by simp [hop])), by simp,
      State.ended_of_runs hrun (State.cmd?_modBoth ..) _, fun g halive => ?_⟩
    rw [State.finish_ctx, State.ctx_modBoth (fun _ => by rfl) halive]
  case release =>
    refine ⟨_, congrArg Host.Outcome.next (onCommand_runs hrun (by simp [hop])),
      State.ended_of_runs hrun ((State.cmd?_freeEpochs ..).trans (State.cmd?_modBoth ..)) _, by simp, fun g halive => ?_⟩
    rw [State.finish_ctx, State.binds_freeEpochs, State.epochs_freeEpochs, State.ctx_modBoth (fun _ => by rfl) halive]
    refine ⟨fun b hb => by simpa using (List.mem_filter.1 hb).2, fun e he => (List.mem_filter.1 he).1, fun e he hst => ?_⟩
    exact List.mem_filter.2 ⟨he, by simp [State.keepsEpoch, hst]⟩
  case drop =>
    refine ⟨_, congrArg Host.Outcome.next (onCommand_runs hrun (by simp [hop])), State.ended_of_runs hrun (State.cmd?_modBoth ..) _,
      by simp, fun g halive => ?_⟩
    rw [State.finish_ctx, State.ctx_modBoth (fun _ => by rfl) halive]
    rfl

end Sys2Proof.Machine
end

section
/-! # O38: checkpoint slots and preserved ranges (R409, R410, R416) -/

namespace Sys2Proof.Machine

variable {s : State} {id : ℕ} {g h : Half} {c : Cmd}

/-! ## A slot changed where it is -/

/-- What CKPT_SLOT makes of a context that has the slot `n`: the slot changed or gone, the mark of its stage raised (R410). -/
def Ctx.changeSlot (k : Ctx) (n : ℕ) (f : CkptSlot → Option CkptSlot) : Ctx :=
  match k.slot? n with
  | none => k
  | some slot => ({ k with slots := k.slots.filterMap fun (y : CkptSlot) => if y.num = n then f y else some y }).raiseHwm slot.stage

theorem Ctx.changeSlot_id (k : Ctx) (n : ℕ) (f : CkptSlot → Option CkptSlot) : (k.changeSlot n f).id = k.id := by
  unfold Ctx.changeSlot
  split <;> rfl

theorem Ctx.changeSlot_slots {k : Ctx} {n : ℕ} {slot : CkptSlot} (hslot : k.slot? n = some slot) (f : CkptSlot → Option CkptSlot) :
    (k.changeSlot n f).slots = k.slots.filterMap fun y => if y.num = n then f y else some y := by
  rw [Ctx.changeSlot, hslot]
  rfl

theorem State.changeSlot_of_home (hhome : s.slotHome (pkCtx c.packet) (ckSlot c.packet) = some g) (f : CkptSlot → Option CkptSlot) :
    s.changeSlot h c f = (s.modHalf g fun x => x.modCtx (pkCtx c.packet) fun k => k.changeSlot (ckSlot c.packet) f).finish h c
      (okResult 0 0 0) := by
  unfold State.changeSlot
  dsimp only
  rw [hhome]
  rfl

/-- A row that changes a slot ends with OK, leaves memory alone and leaves of the slots what `f` says. -/
theorem State.changeSlot_completes {slot : CkptSlot} (hrun : s.runs id h c 0x0A01)
    (hhome : s.slotHome (pkCtx c.packet) (ckSlot c.packet) = some g)
    (hslot : ((s.half g).ctx (pkCtx c.packet)).slot? (ckSlot c.packet) = some slot) (f : CkptSlot → Option CkptSlot) :
    (s.changeSlot h c f).ended id h (okResult 0 0 0) ∧ (s.changeSlot h c f).mem = s.mem
      ∧ (((s.changeSlot h c f).half g).ctx (pkCtx c.packet)).slots
        = ((s.half g).ctx (pkCtx c.packet)).slots.filterMap fun y => if y.num = ckSlot c.packet then f y else some y := by
  rw [State.changeSlot_of_home hhome]
  refine ⟨State.ended_of_runs hrun (State.cmd?_modHalf (fun _ => by rfl) id) _, by simp, ?_⟩
  rw [State.finish_ctx, State.modHalf_half, HalfState.ctx_modCtx (fun k => k.changeSlot_id ..), if_pos rfl,
    Ctx.changeSlot_slots hslot]

theorem filterMap_some_if {α : Type} (p : α → Prop) [DecidablePred p] (f : α → α) (l : List α) :
    (l.filterMap fun y => if p y then some (f y) else some y) = l.map fun y => if p y then f y else y := by
  rw [← List.filterMap_eq_map]
  refine congrArg (List.filterMap · l) (funext fun y => ?_)
  rw [← apply_ite some]
  rfl

theorem filterMap_none_if {α : Type} (p : α → Prop) [DecidablePred p] (l : List α) :
    (l.filterMap fun y => if p y then none else some y) = l.filter fun y => !decide (p y) := by
  rw [← List.filterMap_eq_filter]
  refine congrArg (List.filterMap · l) (funext fun y => ?_)
  by_cases hy : p y <;> simp [hy, Option.guard]

/-! ## Preserved ranges (R416) -/

/-- What PRESERVE records of a range in the half `g`. -/
def State.preserveOf (s : State) (h : Half) (p : ℕ) (g : Half) : Preserve :=
  { ctx := pkCtx p, cxa := ckCxa p, bytes := ckBytes p, frames := rangeFrames (s.ctxAny h (pkCtx p)).map g (ckCxa p) (ckBytes p) }

/-- A range that has frames in a half is recorded there, once. -/
def HalfState.preserve (x : HalfState) (r : Preserve) : HalfState :=
  if r.frames.isEmpty || x.preserved.contains r then x else { x with preserved := x.preserved ++ [r] }

theorem HalfState.preserve_cmds (x : HalfState) (r : Preserve) : (x.preserve r).cmds = x.cmds := by
  unfold HalfState.preserve
  split <;> rfl

theorem HalfState.mem_preserve {x : HalfState} {r : Preserve} (hframes : r.frames ≠ []) : r ∈ (x.preserve r).preserved := by
  unfold HalfState.preserve
  split
  · next hin => simpa [hframes] using hin
  · simp

theorem HalfState.preserve_of_empty {x : HalfState} {r : Preserve} (hframes : r.frames = []) : x.preserve r = x :=
  if_pos (by simp [hframes])

theorem State.modHalf_id (s : State) (g : Half) : s.modHalf g (fun x => x) = s := by cases g <;> rfl

theorem exec_preserve_of_runs (hrun : s.runs id h c 0x0A01) (hop : ckOp c.packet = 5) : exec (.preserve id) s
    = .next ((s.mapHalves fun g x => x.preserve (s.preserveOf h c.packet g)).finish h c (okResult 0 0 0)) := by
  refine congrArg Host.Outcome.next ((onCommand_runs hrun (by simp [hop])).trans ?_)
  have hmark (u : State) (g : Half) : (if (s.preserveOf h c.packet g).frames.isEmpty then u else u.modHalf g fun x =>
      if x.preserved.contains (s.preserveOf h c.packet g) then x
      else { x with preserved := x.preserved ++ [s.preserveOf h c.packet g] })
      = u.modHalf g fun x => x.preserve (s.preserveOf h c.packet g) := by
    unfold HalfState.preserve
    cases (s.preserveOf h c.packet g).frames.isEmpty with
    | true => exact (u.modHalf_id g).symm
    | false => rfl
  rw [State.mapHalves, ← hmark, ← hmark]
  rfl

/-- The marks of the frames gone, and those that the context does not name pending to be scrubbed. -/
def HalfState.unpreserveOf (x : HalfState) (k : Ctx) (p : ℕ) (fs : List ℕ) : HalfState :=
  let y := x.unmark (pkCtx p) fs
  { y with scrub := y.scrub ++ ((fs.filter fun f => !k.frames.contains f).filter fun f => !y.scrub.any (·.1 = f)).eraseDups.map (·, pkCtx p) }

/-- What UNPRESERVE makes of a half. -/
def HalfState.unpreserve (x : HalfState) (k : Ctx) (g : Half) (p : ℕ) : HalfState :=
  x.unpreserveOf k p (x.unmarked k.map g (pkCtx p) (ckCxa p) (ckBytes p))

theorem exec_unpreserve_of_runs (hrun : s.runs id h c 0x0A01) (hop : ckOp c.packet = 6) : exec (.unpreserve id) s
    = .next ((s.mapHalves fun g x => x.unpreserve (s.ctxAny h (pkCtx c.packet)) g c.packet).finish h c (okResult 0 0 0)) := by
  refine congrArg Host.Outcome.next ((onCommand_runs hrun (by simp [hop])).trans ?_)
  have hclear (u : State) (g : Half) : (u.modHalf g fun x =>
      x.unpreserveOf (s.ctxAny h (pkCtx c.packet)) c.packet ((u.half g).unmarked (s.ctxAny h (pkCtx c.packet)).map g (pkCtx c.packet)
        (ckCxa c.packet) (ckBytes c.packet))) = u.modHalf g fun x => x.unpreserve (s.ctxAny h (pkCtx c.packet)) g c.packet := rfl
  rw [State.mapHalves, ← hclear, ← hclear]
  rfl

/-- A frame whose mark is gone and that the context does not name is pending to be scrubbed. -/
theorem HalfState.mem_scrub_unpreserve {x : HalfState} {k : Ctx} {p f : ℕ}
    (hf : f ∈ x.unmarked k.map g (pkCtx p) (ckCxa p) (ckBytes p)) (hloose : f ∉ k.frames) : ∃ o, (f, o) ∈ (x.unpreserve k g p).scrub := by
  by_cases hpending : (x.unmark (pkCtx p) (x.unmarked k.map g (pkCtx p) (ckCxa p) (ckBytes p))).scrub.any (·.1 = f)
  · obtain ⟨⟨f', o⟩, he, hf'⟩ := List.any_eq_true.1 hpending
    obtain rfl : f' = f := by simpa using hf'
    exact ⟨o, List.mem_append_left _ he⟩
  · refine ⟨pkCtx p, List.mem_append_right _ (List.mem_map.2 ⟨f, ?_, rfl⟩)⟩
    rw [List.mem_eraseDups]
    refine List.mem_filter.2 ⟨List.mem_filter.2 ⟨hf, by simpa using hloose⟩, ?_⟩
    rw [Bool.eq_false_of_not_eq_true hpending]
    rfl

/-- Settles O38, by what each row does to the slots, and to the preserved ranges of each half. -/
theorem checkpointSlotsComplete : Obligations.CheckpointSlotsComplete := by
  refine ⟨fun s id h c hrun => ⟨fun hop => ?define, fun g slot hhome hslot => ⟨fun hop => ?hold, fun hop => ?release, fun hop => ?delete⟩,
    fun hop => ?reset⟩, fun s id h c hrun => ⟨fun hop => ?preserve, fun hop => ?unpreserve⟩⟩
  case define =>
    refine ⟨_, congrArg Host.Outcome.next (onCommand_runs hrun (by simp [hop])),
      State.ended_of_runs hrun (State.cmd?_modHalf (fun _ => by rfl) id) _, by simp, ?_⟩
    rw [State.finish_ctx, State.modHalf_half, HalfState.ctx_modCtx (fun _ => by rfl), if_pos rfl]
  case hold =>
    obtain ⟨hended, hmem, hslots⟩ := State.changeSlot_completes hrun hhome hslot fun y => some { y with held := true }
    exact ⟨_, congrArg Host.Outcome.next (onCommand_runs hrun (by simp [hop])), hended, hmem, hslots.trans (filterMap_some_if ..)⟩
  case release =>
    obtain ⟨hended, hmem, hslots⟩ := State.changeSlot_completes hrun hhome hslot fun y => some { y with held := false }
    exact ⟨_, congrArg Host.Outcome.next (onCommand_runs hrun (by simp [hop])), hended, hmem, hslots.trans (filterMap_some_if ..)⟩
  case delete =>
    obtain ⟨hended, hmem, hslots⟩ := State.changeSlot_completes hrun hhome hslot fun _ => none
    refine ⟨_, congrArg Host.Outcome.next (onCommand_runs hrun (by simp [hop])), hended, hmem, hslots.trans ?_⟩
    rw [filterMap_none_if]
    simp
  case reset =>
    refine ⟨_, congrArg Host.Outcome.next (onCommand_runs hrun (by simp [hop])),
      State.ended_of_runs hrun (State.cmd?_modHalf (fun _ => by rfl) id) _, by simp, ?_⟩
    rw [State.finish_ctx, State.modHalf_half, HalfState.ctx_modCtx (fun _ => by rfl), if_pos rfl, Table.at_set_same]
  case preserve =>
    refine ⟨_, exec_preserve_of_runs hrun hop, State.ended_of_runs hrun (State.cmd?_mapHalves (fun _ x => x.preserve_cmds _) s id) _,
      by simp [State.mapHalves], fun g r hr => ?_⟩
    rw [State.finish_keeps (π := HalfState.preserved) (fun _ _ => rfl), State.mapHalves_half, State.preserveOf, ← hr]
    exact ⟨HalfState.mem_preserve, fun he => by rw [HalfState.preserve_of_empty he]⟩
  case unpreserve =>
    refine ⟨_, exec_unpreserve_of_runs hrun hop, State.ended_of_runs hrun (State.cmd?_mapHalves (fun _ _ => by rfl) s id) _,
      by simp [State.mapHalves], fun g fs hfs => ?_⟩
    rw [State.finish_keeps (π := HalfState.preserved) (fun _ _ => rfl), State.finish_keeps (π := HalfState.scrub) (fun _ _ => rfl),
      State.mapHalves_half]
    subst hfs
    exact ⟨rfl, fun f hf hloose => HalfState.mem_scrub_unpreserve hf hloose⟩

end Sys2Proof.Machine
end

section
/-! # O35: weight streams begin (R355, R364) -/

namespace Sys2Proof.Machine

variable {s : State} {id : ℕ} {h : Half} {c : Cmd}

/-- A weight stream that begins takes a place of its hub, and waits for its blocks. -/
theorem State.awaits_startStream (hrun : s.runs id h c 0x0801) :
    (startStream s h c).awaits id h fun k => k.stream = some { place := s.streamPlace (wsHalf (wsUp c.packet)) } :=
  have hid : c.id = id := State.cmd?_id hrun.1
  ⟨_, State.cmd?_setCmd hrun.1 hid, rfl, rfl⟩

theorem exec_weightStreamStore_of_new (hrun : s.runs id h c 0x0801) (hstore : wsVerify c.packet = false) (hnew : c.stream = none) :
    exec (.weightStreamStore id) s = .next (startStream s h c) :=
  congrArg Host.Outcome.next (onCommand_runs hrun (by simp [hstore, hnew]))

theorem exec_weightStreamVerify_of_new (hrun : s.runs id h c 0x0801) (hverify : wsVerify c.packet = true) (hnew : c.stream = none) :
    exec (.weightStreamVerify id) s = .next (startStream s h c) := by
  refine congrArg Host.Outcome.next ((onCommand_runs hrun hverify).trans ?_)
  rw [hnew]

theorem exec_weightStreamVerify_of_last {run : StreamRun} (hrun : s.runs id h c 0x0801) (hverify : wsVerify c.packet = true)
    (hstream : c.stream = some run) (hlast : run.next = wsBlocks c.packet) :
    exec (.weightStreamVerify id) s = .next (s.verifyStream h c (streamData c.packet run.wire true).1) := by
  refine congrArg Host.Outcome.next ((onCommand_runs hrun hverify).trans ?_)
  rw [hstream]
  exact if_pos hlast

/-- A VERIFY whose keeps write what memory holds ends with OK (R364). -/
theorem State.verifyStream_of_same {data : List ℕ} {w : Run × Cmd × ℕ}
    (hw : w = c.keepAll (s.envStream h (pkCtx c.packet) c.packet (s.envCmd h c)) c.keeps data c.keeps { mem := s.view })
    (hputs : w.1.puts = []) (hstop : w.1.stop = none) (htorn : w.1.torn = []) (hsame : changedBlocks s.view w.1.mem = []) :
    s.verifyStream h c data = s.finish h w.2.1 (okResult c.keeps.length w.2.2 0) := by
  unfold State.verifyStream
  dsimp only
  rw [← hw, hputs, hstop, htorn, hsame]
  rfl

/-- Settles O35, by the first performance and the last. -/
theorem weightStreamsBegin : Obligations.WeightStreamsBegin := by
  intro s id h c hrun
  refine ⟨fun hstore hnew => ?store, fun hverify hnew => ?verify, fun run w hverify hstream hlast hw hputs hstop htorn hsame => ?same⟩
  case store => exact ⟨_, exec_weightStreamStore_of_new hrun hstore hnew, State.setCmd_mem .., State.awaits_startStream hrun⟩
  case verify => exact ⟨_, exec_weightStreamVerify_of_new hrun hverify hnew, State.setCmd_mem .., State.awaits_startStream hrun⟩
  case same =>
    rw [exec_weightStreamVerify_of_last hrun hverify hstream hlast, State.verifyStream_of_same hw hputs hstop htorn hsame]

end Sys2Proof.Machine
end

section
/-! # O32: the commands of the gradients (R313 to R321) -/

namespace Sys2Proof.Machine

variable {s : State} {id : ℕ} {h : Half} {c : Cmd} {t : TableDef}

/-! ## EMB_GRAD -/

/-- Arrays that can be read, and partials that all find their place: the command ends with what it counted (R313). -/
theorem runEmbGrad_of_delivered {a : List (Option ℕ) × List ℕ × Run} {g : List (ℕ × List ℕ) × Run} {u : State}
    (htable : s.table? (pkCtx c.packet) (pl c.packet 0 8) = some t)
    (ha : a = lkArrays (s.envCmd h c) c.packet t { mem := s.view })
    (hg : g = loadGrads (s.envCmd h c) c.packet t (c.recordNum 0) 0 (lkBags c.packet) a.2.2) (hstop : g.2.stop = none)
    (hneed : g.2.need = [])
    (hdeliver : ((gradWork s c t a.1 a.2.1 g.1).foldl (fun u x => u.countEme x.1 6 (gradSats x.2))
        ((s.countRun (attrKey c.packet) g.2).countOutside (c.recordNum 0) a.1 (lkShares c.packet))).deliver c (pl c.packet 0 8)
      ((gradWork s c t a.1 a.2.1 g.1).flatMap fun x => (x.2.flatMap (·.1)).map (x.1, ·)) = (u, none)) :
    runEmbGrad s h c = u.finish h c (okResult (a.1.filter (·.isNone)).length
      ((gradWork s c t a.1 a.2.1 g.1).flatMap fun x => x.2.flatMap (·.1)).length
      (total ((gradWork s c t a.1 a.2.1 g.1).map fun x => gradSats x.2))) := by
  unfold runEmbGrad
  dsimp only
  rw [htable]
  dsimp only
  rw [← ha, ← hg, hstop, hneed, hdeliver]
  rfl

/-! ## EMB_FOLD (R317 to R321) -/

/-- What a fold counts in the Update Units and the embedding engines. -/
def State.countFolds (s : State) (l : List (ℕ × FoldTally)) : State :=
  l.foldl (fun u x => (((u.countUpu x.1 1 x.2.t.nonfinite).countUpu x.1 2 x.2.t.clamps).countUpu x.1 3 x.2.t.saturated).countEme x.1 7 x.2.dups) s

theorem State.countFolds_mem (s : State) (l : List (ℕ × FoldTally)) : (s.countFolds l).mem = s.mem :=
  State.mem_foldl (fun _ _ => by simp) l s

theorem State.cmd?_countFolds (s : State) (l : List (ℕ × FoldTally)) (id : ℕ) : (s.countFolds l).cmd? id = s.cmd? id :=
  State.cmd?_foldl id (fun _ _ => by simp) l s

/-- What an EMB_FOLD whose entries all fold reports of its gradients, where they are FP8. -/
def foldReports (c : Cmd) (t : TableDef) (l : List (ℕ × FoldTally)) : List (ℕ × ℕ × ℕ) :=
  if (t.fmt = 3 || t.fmt = 4) && foldSum (·.rows) l ≠ 0 then
    addReport c.reports t.slot (greatest (l.map fun x => x.2.t.amax)) (foldSum (·.t.saturated) l)
  else c.reports

theorem runFold_of_folded {u : State} {l : List (ℕ × FoldTally)} (htable : s.table? (pkCtx c.packet) (efTable c.packet) = some t)
    (hwork : foldWork s h c t = (u, none, l)) : runFold s h c
      = (u.countFolds l).finish h { c with reports := foldReports c t l } (okResult (foldSum (·.rows) l) (foldSum (·.discarded) l)
        (foldSum (·.t.nonfinite) l + foldSum (·.t.clamps) l)) := by
  unfold runFold
  dsimp only
  rw [htable]
  dsimp only
  rw [hwork]
  rfl

/-- Settles O32, by what each command does once its work is done. -/
theorem gradientCommandsComplete : Obligations.GradientCommandsComplete := by
  intro s id h c
  refine ⟨fun t a g hrun htable ha hg hstop hneed u hdeliver => ?grad, fun t u l hrun htable hwork hcmd => ?fold⟩
  case grad =>
    exact congrArg Host.Outcome.next ((onCommand_runs hrun rfl).trans
      (runEmbGrad_of_delivered htable ha hg hstop hneed hdeliver))
  case fold =>
    have hid : c.id = id := State.cmd?_id hrun.1
    refine ⟨_, (State.finish_mem ..).trans (u.countFolds_mem l), State.ended_finish (c := { c with reports := foldReports c t l }) ((u.cmd?_countFolds l id).trans hcmd) hid,
      fun hkeep => ?_, fun hdiscard => ?_⟩
    · exact congrArg Host.Outcome.next ((onCommand_runs hrun (by simp [hkeep])).trans (runFold_of_folded htable hwork))
    · exact congrArg Host.Outcome.next ((onCommand_runs hrun hdiscard).trans (runFold_of_folded htable hwork))

end Sys2Proof.Machine
end

section
/-! # O33: migrations (R328 to R330) -/

namespace Sys2Proof.Machine

variable {s u : State} {id table ctx : ℕ} {g h : Half} {c : Cmd} {t d : TableDef} {m x : Move}

/-! ## ROW_MIGRATE -/

/-- What ROW_MIGRATE does first, in every module: the table has the migration, and the command stays (R328). -/
def State.beginMove (s : State) (h : Half) (c : Cmd) (t : TableDef) (m : Move) : State :=
  (s.setTable (pkCtx c.packet) (pl c.packet 0 8) { t with moves := t.moves ++ [m] }).setCmd h { c with waiting := true, idle := 0, idleOther := 0 }

/-- The migration that a packet names, of rows of the shard `e`. -/
def moveOf (c : Cmd) (e : Shard) : Move :=
  { target := rmTo c.packet, source := e, count := rmCount c.packet, stroke := rmStroke c.packet, cmd := c.id }

theorem runRowMigrate_of_elsewhere {e : Shard} (htable : s.table? (pkCtx c.packet) (pl c.packet 0 8) = some t)
    (hsource : ownerIn t.mapFull (rmFirst c.packet) = some e) (helsewhere : e.pos ≠ s.ownPos (pkCtx c.packet)) :
    runRowMigrate s h c = if (rmTo c.packet).pos = s.ownPos (pkCtx c.packet) then
        (s.beginMove h c t (moveOf c e)).takeHeldCopies (halfOfDie (rmTo c.packet).die) (pkCtx c.packet) (pl c.packet 0 8)
      else s.beginMove h c t (moveOf c e) := by
  unfold runRowMigrate
  dsimp only
  rw [htable]
  dsimp only
  rw [hsource]
  exact if_pos helsewhere

theorem runRowMigrate_of_source {e : Shard} {t1 t2 : TableDef} {v : State} {n : ℕ} {m1 : Move}
    (htable : s.table? (pkCtx c.packet) (pl c.packet 0 8) = some t) (hsource : ownerIn t.mapFull (rmFirst c.packet) = some e)
    (hhere : e.pos = s.ownPos (pkCtx c.packet))
    (hcopy : (s.beginMove h c t (moveOf c e)).copyRows c (pl c.packet 0 8) { t with moves := t.moves ++ [moveOf c e] } (moveOf c e)
      (rmTo c.packet).first (rmCount c.packet) = (u, none))
    (htable1 : u.table? (pkCtx c.packet) (pl c.packet 0 8) = some t1)
    (hrecords : u.moveRecords c (pl c.packet 0 8) t1 (moveOf c e) = (v, n, none))
    (htable2 : v.table? (pkCtx c.packet) (pl c.packet 0 8) = some t2) (hmove : t2.moves.find? (·.cmd = c.id) = some m1) :
    runRowMigrate s h c = v.setTable (pkCtx c.packet) (pl c.packet 0 8) (t2.setMove { m1 with copied := rmCount c.packet, records := n }) := by
  unfold State.beginMove moveOf at hcopy
  unfold moveOf at hrecords
  unfold runRowMigrate
  dsimp only
  rw [htable]
  dsimp only
  rw [hsource]
  dsimp only
  rw [if_neg (not_not_intro hhere), hcopy]
  dsimp only
  rw [htable1]
  dsimp only
  rw [hrecords]
  dsimp only [Option.or]
  rw [htable2]
  dsimp only
  rw [hmove]

/-! ## A row that visits the migrations of a table, one after the other -/

/-- A fold over entries told apart by a key: what holds before the turn of one of them is kept by the turns of the others, its own turn
makes of it what holds afterwards, and the others keep that. -/
theorem foldl_turn {α : Type} {key : α → ℕ} {F : State → α → State} {before after : State → Prop} {l : List α} {a : α}
    (hnodup : (l.map key).Nodup) (ha : a ∈ l) (hbefore : ∀ u b, key b ≠ key a → before u → before (F u b))
    (hturn : ∀ u, before u → after (F u a)) (hafter : ∀ u b, key b ≠ key a → after u → after (F u b)) (hs : before s) :
    after (l.foldl F s) := by
  obtain ⟨l1, l2, rfl⟩ := List.append_of_mem ha
  rw [List.map_append, List.map_cons, List.nodup_append] at hnodup
  obtain ⟨-, hnodup2, hdisjoint⟩ := hnodup
  have hothers1 : ∀ b ∈ l1, key b ≠ key a := fun b hb =>
    hdisjoint _ (List.mem_map_of_mem hb) _ (List.mem_cons_self ..)
  have hothers2 : ∀ b ∈ l2, key b ≠ key a := fun b hb e =>
    (List.nodup_cons.1 hnodup2).1 (e ▸ List.mem_map_of_mem hb)
  have hfold {P : State → Prop} (hP : ∀ u b, key b ≠ key a → P u → P (F u b)) :
      ∀ (l : List α), (∀ b ∈ l, key b ≠ key a) → ∀ u, P u → P (l.foldl F u) := by
    intro l
    induction l with
    | nil => exact fun _ _ hu => hu
    | cons b l ih =>
      exact fun hl u hu => ih (fun y hy => hl y (List.mem_cons_of_mem b hy)) _ (hP u b (hl b (List.mem_cons_self ..)) hu)
  rw [List.foldl_append, List.foldl_cons]
  exact hfold hafter l2 hothers2 _ (hturn _ (hfold hbefore l1 hothers1 s hs))

theorem State.onMoves_of_table {f : State → ℕ → TableDef → Move → State} (hres : (s.half h).resident = some ctx)
    (htable : s.table? ctx table = some t) : s.onMoves h table f
      = t.moves.foldl (fun u m => match u.table? ctx table with | some t1 => f u ctx t1 m | none => u) s := by
  unfold State.onMoves
  rw [hres]
  dsimp only
  rw [htable] <;> rfl

/-! ## A migration replaced in its table -/

theorem mem_updateFirst_of_not {α : Type} {p : α → Bool} {f : α → α} {l : List α} {a : α} (ha : a ∈ l) (hp : p a = false) :
    a ∈ updateFirst p f l := by
  induction l with
  | nil => cases ha
  | cons b l ih =>
    unfold updateFirst
    split
    · next hb =>
      rcases List.mem_cons.1 ha with rfl | ha
      · rw [hp] at hb
        cases hb
      · exact List.mem_cons_of_mem _ ha
    · rcases List.mem_cons.1 ha with rfl | ha
      · exact List.mem_cons_self ..
      · exact List.mem_cons_of_mem _ (ih ha)

theorem mem_updateFirst_of_pos {α : Type} {p : α → Bool} {a : α} {l : List α} (h : ∃ b ∈ l, p b = true) :
    a ∈ updateFirst p (fun _ => a) l := by
  induction l with
  | nil =>
    obtain ⟨b, hb, -⟩ := h
    cases hb
  | cons b l ih =>
    unfold updateFirst
    split
    · exact List.mem_cons_self ..
    · next hb =>
      obtain ⟨y, hy, hp⟩ := h
      rcases List.mem_cons.1 hy with rfl | hy
      · exact absurd hp hb
      · exact List.mem_cons_of_mem _ (ih ⟨y, hy, hp⟩)

/-- A migration that stands in the table, whatever has become of it, is replaced. -/
theorem TableDef.mem_setMove (h : ∃ y ∈ d.moves, y.cmd = m.cmd) : m ∈ (d.setMove m).moves := by
  obtain ⟨y, hy, hcmd⟩ := h
  exact mem_updateFirst_of_pos ⟨y, hy, by simpa using hcmd⟩

theorem TableDef.mem_setMove_other (hm : m ∈ d.moves) (hcmd : x.cmd ≠ m.cmd) : m ∈ (d.setMove x).moves :=
  mem_updateFirst_of_not hm (by simpa using hcmd.symm)

/-! ## The command of a migration -/

theorem find?_updateFirst_other {l : List Cmd} {id : ℕ} {c : Cmd} (hc : c.id ≠ id) :
    (updateFirst (·.id = c.id) (fun _ => c) l).find? (·.id = id) = l.find? (·.id = id) := by
  induction l with
  | nil => rfl
  | cons a l ih =>
    unfold updateFirst
    split
    · next ha =>
      have ha' : a.id ≠ id := fun e => hc ((by simpa using ha : a.id = c.id).symm.trans e)
      simp [hc, ha']
    · simp [List.find?_cons, ih]

/-- A command replaced leaves every other where it is. -/
theorem State.cmd?_setCmd_other (s : State) (h : Half) {c : Cmd} {id : ℕ} (hc : c.id ≠ id) : (s.setCmd h c).cmd? id = s.cmd? id := by
  cases h <;> simp [State.cmd?, State.setCmd, State.modHalf, State.setHalf, State.half, find?_updateFirst_other hc]

theorem State.cmd?_finish_other (s : State) (h : Half) {c : Cmd} {r : Result} {id : ℕ} (hc : c.id ≠ id) :
    (s.finish h c r).cmd? id = s.cmd? id := s.cmd?_setCmd_other h hc

/-- The end of a migration leaves the commands of the others alone. -/
theorem State.cmd?_endMove_other (s : State) {r : Result} {id : ℕ} (hm : m.cmd ≠ id) : (s.endMove m r).cmd? id = s.cmd? id := by
  unfold State.endMove
  split
  · next h c hcmd =>
    split
    · exact s.cmd?_finish_other h (by rwa [State.cmd?_id hcmd])
    · rfl
  · rfl

theorem State.endMove_of_open {r : Result} (hcmd : s.cmd? m.cmd = some (g, c)) (hdone : c.done = none) :
    s.endMove m r = s.finish g c r := by
  unfold State.endMove
  rw [hcmd]
  exact if_pos (by rw [hdone]; rfl)

@[simp] theorem State.endMove_table? (s : State) (m : Move) (r : Result) (ctx tid : ℕ) : (s.endMove m r).table? ctx tid = s.table? ctx tid := by
  unfold State.endMove
  split
  · split
    · exact s.finish_table? ..
    · rfl
  · rfl

/-! ## What holds of a migration before its turn, and after it -/

/-- The table is there, of it holds `P`, and it still has the migration of the command `n`. -/
def State.hasMove (u : State) (ctx table : ℕ) (P : TableDef → Prop) (n : ℕ) : Prop :=
  ∃ d, u.table? ctx table = some d ∧ (∃ y ∈ d.moves, y.cmd = n) ∧ P d

/-- The table is there, of it holds `P`, and it has the migration as `m`. -/
def State.hasMoveAs (u : State) (ctx table : ℕ) (P : TableDef → Prop) (m : Move) : Prop :=
  ∃ d, u.table? ctx table = some d ∧ m ∈ d.moves ∧ P d

/-- A turn that leaves a table of which `P` holds, with the migration `y` in its place. -/
def State.turnsTo (v : State) (ctx table : ℕ) (P : TableDef → Prop) (d : TableDef) (y : Move) : Prop :=
  ∃ d', v.table? ctx table = some d' ∧ d'.moves = (d.setMove y).moves ∧ (P d → P d')

/-- In a row each of whose turns is nothing or puts a migration in its place, a migration whose turn is due is in its place
afterwards; and what `B` says of the state before its turn becomes what `A` says. -/
theorem State.onMoves_turn {f : State → ℕ → TableDef → Move → State} {next : Move → Move} {P : TableDef → Prop} {A B : State → Prop}
    (hnext : ∀ x, (next x).cmd = x.cmd) (hres : (s.half h).resident = some ctx) (htable : s.table? ctx table = some t) (hP : P t)
    (hm : m ∈ t.moves) (hnodup : (t.moves.map (·.cmd)).Nodup)
    (hstep : ∀ u d x, u.table? ctx table = some d → f u ctx d x = u ∨ (f u ctx d x).turnsTo ctx table P d (next x))
    (hdue : ∀ u d, u.table? ctx table = some d → (f u ctx d m).turnsTo ctx table P d (next m))
    (hB : B s) (hBstep : ∀ u d x, x.cmd ≠ m.cmd → B u → B (f u ctx d x)) (hturn : ∀ u d, B u → A (f u ctx d m))
    (hAstep : ∀ u d x, x.cmd ≠ m.cmd → A u → A (f u ctx d x)) :
    (s.onMoves h table f).hasMoveAs ctx table P (next m) ∧ A (s.onMoves h table f) := by
  rw [State.onMoves_of_table hres htable]
  refine foldl_turn (key := Move.cmd) (before := fun u => u.hasMove ctx table P m.cmd ∧ B u)
    (after := fun u => u.hasMoveAs ctx table P (next m) ∧ A u) hnodup hm ?others ?turn ?later ⟨⟨t, htable, ⟨m, hm, rfl⟩, hP⟩, hB⟩
  case others =>
    rintro u x hx ⟨⟨d, hd, ⟨y, hy, hcmd⟩, hPd⟩, hBu⟩
    rw [hd]
    refine ⟨?_, hBstep u d x hx hBu⟩
    rcases hstep u d x hd with he | ⟨d', hd', hmoves, hP'⟩
    · dsimp only
      rw [he]
      exact ⟨d, hd, ⟨y, hy, hcmd⟩, hPd⟩
    · refine ⟨d', hd', ⟨y, ?_, hcmd⟩, hP' hPd⟩
      rw [hmoves]
      exact TableDef.mem_setMove_other hy (by rw [hnext, hcmd]; exact hx)
  case turn =>
    rintro u ⟨⟨d, hd, hy, hPd⟩, hBu⟩
    rw [hd]
    refine ⟨?_, hturn u d hBu⟩
    obtain ⟨d', hd', hmoves, hP'⟩ := hdue u d hd
    refine ⟨d', hd', ?_, hP' hPd⟩
    rw [hmoves]
    exact TableDef.mem_setMove (by rwa [hnext])
  case later =>
    rintro u x hx ⟨⟨d, hd, hm', hPd⟩, hAu⟩
    rw [hd]
    refine ⟨?_, hAstep u d x hx hAu⟩
    rcases hstep u d x hd with he | ⟨d', hd', hmoves, hP'⟩
    · dsimp only
      rw [he]
      exact ⟨d, hd, hm', hPd⟩
    · refine ⟨d', hd', ?_, hP' hPd⟩
      rw [hmoves]
      exact TableDef.mem_setMove_other hm' (by rw [hnext, hnext]; exact hx)

/-! ## The three rows (R330) -/

/-- The turn of a migration at MIGRATION_SWITCH. -/
def State.switchTurn (s : State) (h : Half) (table : ℕ) (u : State) (ctx : ℕ) (d : TableDef) (m : Move) : State :=
  if m.switched || s.now h < m.stroke then u else
  let v := u.setTable ctx table (d.setMove { m with switched := true })
  if m.source.pos = s.ownPos ctx || m.target.pos = s.ownPos ctx then v else v.endMove m (okResult 0 0 0)

theorem exec_migrationSwitch_eq : exec (.migrationSwitch h table) s = .next (s.onMoves h table (s.switchTurn h table)) := rfl

theorem State.switchTurn_of_due (hnew : m.switched = false) (hstroke : m.stroke ≤ s.now h) :
    (s.switchTurn h table u ctx d m).turnsTo ctx table (·.epochs = t.epochs) d { m with switched := true } := by
  have hno : ¬ (m.switched || s.now h < m.stroke) := by simpa [hnew] using hstroke
  unfold State.switchTurn
  rw [if_neg hno]
  refine ⟨d.setMove { m with switched := true }, ?_, rfl, id⟩
  dsimp only
  split <;> simp

theorem State.switchTurn_cases (s : State) (h : Half) (t : TableDef) (u : State) (d : TableDef) (m : Move) :
    s.switchTurn h table u ctx d m = u
      ∨ (s.switchTurn h table u ctx d m).turnsTo ctx table (·.epochs = t.epochs) d { m with switched := true } := by
  by_cases hnot : m.switched = true ∨ s.now h < m.stroke
  · exact .inl (if_pos (by simpa using hnot))
  · obtain ⟨hnew, hstroke⟩ := not_or.1 hnot
    exact .inr (State.switchTurn_of_due (Bool.eq_false_of_not_eq_true hnew) (Nat.not_lt.1 hstroke))

/-- The turn of a migration at MIGRATION_FORWARDING. -/
def State.forwardTurn (s : State) (table : ℕ) (u : State) (ctx : ℕ) (d : TableDef) (m : Move) : State :=
  if m.phase = 0 && !m.failed && m.switched && m.source.pos = s.ownPos ctx && m.copied = m.count && !s.hasUnacked m.cmd then
    u.setTable ctx table (d.setMove { m with phase := 1 })
  else u

theorem exec_migrationForwarding_eq : exec (.migrationForwarding h table) s = .next (s.onMoves h table (s.forwardTurn table)) := rfl

theorem State.forwardTurn_of_due (hphase : m.phase = 0) (hwhole : m.failed = false) (hswitched : m.switched = true)
    (hsource : m.source.pos = s.ownPos ctx) (hcopied : m.copied = m.count) (hacked : s.hasUnacked m.cmd = false) :
    (s.forwardTurn table u ctx d m).turnsTo ctx table (·.epochs = t.epochs) d { m with phase := 1 } := by
  unfold State.forwardTurn
  rw [if_pos (by simp [hphase, hwhole, hswitched, hsource, hcopied, hacked])]
  exact ⟨_, State.table?_setTable_same .., rfl, id⟩

theorem State.forwardTurn_cases (s : State) (t : TableDef) (u : State) (d : TableDef) (m : Move) :
    s.forwardTurn table u ctx d m = u
      ∨ (s.forwardTurn table u ctx d m).turnsTo ctx table (·.epochs = t.epochs) d { m with phase := 1 } := by
  unfold State.forwardTurn
  split
  · exact .inr ⟨_, State.table?_setTable_same .., rfl, id⟩
  · exact .inl rfl

/-- Whether a migration is ready to retire here: a source that forwards, or a destination to which all rows have come. -/
def State.retires (s : State) (ctx : ℕ) (m : Move) : Bool :=
  if m.source.pos = s.ownPos ctx then m.phase = 1
  else m.target.pos = s.ownPos ctx && m.switched && m.arrived.length = m.count

/-- The turn of a migration at MIGRATION_RETIRE. -/
def State.retireTurn (s : State) (h : Half) (table : ℕ) (u : State) (ctx : ℕ) (d : TableDef) (m : Move) : State :=
  if m.phase = 2 || m.failed || !s.retires ctx m || s.now h < m.stroke + 100000 then u else
  let t1 := d.setMove { m with phase := 2 }
  let t2 := if m.target.pos = s.ownPos ctx then { t1 with epochs := bumpEpochs t1.epochs m.target.first m.count } else t1
  let v := if m.source.pos = s.ownPos ctx then u.setWell m.source.die ((u.well m.source.die).dropRows table d m) else u
  (v.setTable ctx table t2).endMove m (if m.source.pos = s.ownPos ctx then okResult m.copied m.forwarded m.records else okResult 0 0 0)

theorem exec_migrationRetire_eq : exec (.migrationRetire h table) s = .next (s.onMoves h table (s.retireTurn h table)) := by
  refine congrArg (fun f => Host.Outcome.next (s.onMoves h table f)) (funext fun u => funext fun ctx => funext fun d => funext fun m => ?_)
  unfold State.retireTurn State.retires
  by_cases hsource : m.source.pos = s.ownPos ctx <;> simp [hsource]

/-- What the command of a migration that retires ends with (R330). -/
def State.retireResult (s : State) (ctx : ℕ) (m : Move) : Result :=
  if m.source.pos = s.ownPos ctx then okResult m.copied m.forwarded m.records else okResult 0 0 0

/-- The table of a migration that retires, with the epochs of its rows advanced at the destination. -/
def State.retireTable (s : State) (ctx : ℕ) (d : TableDef) (m : Move) : TableDef :=
  if m.target.pos = s.ownPos ctx then
    { d.setMove { m with phase := 2 } with epochs := bumpEpochs (d.setMove { m with phase := 2 }).epochs m.target.first m.count }
  else d.setMove { m with phase := 2 }

theorem State.retireTable_moves (s : State) (ctx : ℕ) (d : TableDef) (m : Move) :
    (s.retireTable ctx d m).moves = (d.setMove { m with phase := 2 }).moves := by
  unfold State.retireTable
  split <;> rfl

/-- A source drops the rows of the range from its Wellhead. -/
def State.dropMoved (u s : State) (ctx table : ℕ) (d : TableDef) (m : Move) : State :=
  if m.source.pos = s.ownPos ctx then u.setWell m.source.die ((u.well m.source.die).dropRows table d m) else u

theorem State.cmd?_dropMoved (u s : State) (ctx table : ℕ) (d : TableDef) (m : Move) (id : ℕ) :
    (u.dropMoved s ctx table d m).cmd? id = u.cmd? id := State.cmd?_modHalf_ite (fun _ => by rfl) id

theorem State.retireTurn_of_due (hopen : m.phase ≠ 2) (hwhole : m.failed = false) (hready : s.retires ctx m = true)
    (hstroke : m.stroke + 100000 ≤ s.now h) : s.retireTurn h table u ctx d m
      = ((u.dropMoved s ctx table d m).setTable ctx table (s.retireTable ctx d m)).endMove m (s.retireResult ctx m) :=
  if_neg (by simpa [hopen, hwhole, hready] using hstroke)

theorem State.retired_turnsTo (s : State) (u : State) (d : TableDef) (m : Move) :
    (((u.dropMoved s ctx table d m).setTable ctx table (s.retireTable ctx d m)).endMove m (s.retireResult ctx m)).turnsTo ctx table
      (fun _ => True) d { m with phase := 2 } :=
  ⟨_, (State.endMove_table? ..).trans (State.table?_setTable_same ..), s.retireTable_moves ctx d m, id⟩

theorem State.retireTurn_cases (s : State) (h : Half) (u : State) (d : TableDef) (m : Move) :
    s.retireTurn h table u ctx d m = u ∨ s.retireTurn h table u ctx d m
      = ((u.dropMoved s ctx table d m).setTable ctx table (s.retireTable ctx d m)).endMove m (s.retireResult ctx m) := by
  by_cases hnot : (m.phase = 2 || m.failed || !s.retires ctx m || s.now h < m.stroke + 100000) = true
  · exact .inl (if_pos hnot)
  · exact .inr (if_neg hnot)

theorem State.cmd?_retireTurn_other (hx : x.cmd ≠ id) : (s.retireTurn h table u ctx d x).cmd? id = u.cmd? id := by
  rcases s.retireTurn_cases h u d x (table := table) (ctx := ctx) with he | he
  · rw [he]
  · rw [he, State.cmd?_endMove_other _ hx, State.cmd?_setTable, State.cmd?_dropMoved]

/-- A migration that is due to retire does so, whatever else its table migrates, and its command ends (R330). -/
theorem migrationRetire_retires (hres : (s.half h).resident = some ctx) (htable : s.table? ctx table = some t) (hm : m ∈ t.moves)
    (hnodup : (t.moves.map (·.cmd)).Nodup) (hopen : m.phase ≠ 2) (hwhole : m.failed = false) (hready : s.retires ctx m = true)
    (hstroke : m.stroke + 100000 ≤ s.now h) :
    ∃ u d, exec (.migrationRetire h table) s = .next u ∧ u.table? ctx table = some d ∧ { m with phase := 2 } ∈ d.moves
      ∧ ∀ g c, s.cmd? m.cmd = some (g, c) → c.done = none → u.ended m.cmd g (s.retireResult ctx m) := by
  have hends (u : State) (d : TableDef) (hu : u.cmd? m.cmd = s.cmd? m.cmd) (g : Half) (c : Cmd) (hcmd : s.cmd? m.cmd = some (g, c))
      (hdone : c.done = none) : (s.retireTurn h table u ctx d m).ended m.cmd g (s.retireResult ctx m) := by
    have hfound : ((u.dropMoved s ctx table d m).setTable ctx table (s.retireTable ctx d m)).cmd? m.cmd = some (g, c) := by
      rw [State.cmd?_setTable, State.cmd?_dropMoved, hu, hcmd]
    rw [State.retireTurn_of_due hopen hwhole hready hstroke, State.endMove_of_open hfound hdone]
    exact State.ended_finish hfound (State.cmd?_id hcmd)
  obtain ⟨⟨d, hd, hin, -⟩, hended⟩ := State.onMoves_turn (f := s.retireTurn h table) (next := fun m => { m with phase := 2 })
    (P := fun _ => True) (B := fun u => u.cmd? m.cmd = s.cmd? m.cmd)
    (A := fun u => ∀ g c, s.cmd? m.cmd = some (g, c) → c.done = none → u.ended m.cmd g (s.retireResult ctx m))
    (fun _ => rfl) hres htable trivial hm hnodup
    (fun u d x _ => (s.retireTurn_cases h u d x).imp id fun he => by rw [he]; exact s.retired_turnsTo u d x)
    (fun u d _ => by rw [State.retireTurn_of_due hopen hwhole hready hstroke]; exact s.retired_turnsTo u d m)
    rfl (fun _ _ _ hx hu => (State.cmd?_retireTurn_other hx).trans hu) hends
    (fun _ _ _ hx hu g c hcmd hdone => by
      obtain ⟨k, hk, hres⟩ := hu g c hcmd hdone
      exact ⟨k, (State.cmd?_retireTurn_other hx).trans hk, hres⟩)
  exact ⟨_, d, exec_migrationRetire_eq, hd, hin, hended⟩

/-- Settles O33, by what ROW_MIGRATE does in each role, and by the turn of each migration of a table. -/
theorem migrationsBeginAndMoveOn : Obligations.MigrationsBeginAndMoveOn := by
  refine ⟨fun s id h c t e m b hrun htable hsource hm hb => ⟨fun haway hother => ?bystander, fun haway hdest => ?destination,
    fun u t1 v n t2 m1 hhere hcopy htable1 hrecords htable2 hmove => ?source⟩,
    fun s h table ctx t m hres htable hm hnodup => ⟨fun hnew hstroke => ?switch,
      fun hphase hwhole hswitched hsource hcopied hacked => ?forward, fun hphase hwhole hsource hstroke => ?retireSource,
      fun hphase hwhole hswitched haway hdest hall hstroke => ?retireDest⟩⟩
  case bystander =>
    have hid : c.id = id := State.cmd?_id hrun.1
    subst hm hb
    refine ⟨congrArg Host.Outcome.next ((onCommand_runs hrun rfl).trans ((runRowMigrate_of_elsewhere htable hsource haway).trans
      (if_neg hother))), by simp, State.awaits_setCmd ((State.cmd?_setTable ..).trans hrun.1) hid rfl⟩
  case destination =>
    subst hm hb
    exact congrArg Host.Outcome.next ((onCommand_runs hrun rfl).trans ((runRowMigrate_of_elsewhere htable hsource haway).trans
      (if_pos hdest)))
  case source =>
    subst hm hb
    exact congrArg Host.Outcome.next ((onCommand_runs hrun rfl).trans
      (runRowMigrate_of_source htable hsource hhere hcopy htable1 hrecords htable2 hmove))
  case switch =>
    obtain ⟨⟨d, hd, hin, hepochs⟩, -⟩ := State.onMoves_turn (f := s.switchTurn h table) (next := fun m => { m with switched := true })
      (P := (·.epochs = t.epochs)) (A := fun _ => True) (B := fun _ => True) (fun _ => rfl) hres htable rfl hm hnodup
      (fun u d x _ => s.switchTurn_cases h t u d x) (fun _ _ _ => State.switchTurn_of_due hnew hstroke)
      trivial (fun _ _ _ _ => id) (fun _ _ => id) (fun _ _ _ _ => id)
    exact ⟨_, d, exec_migrationSwitch_eq, hd, hin, hepochs⟩
  case forward =>
    obtain ⟨⟨d, hd, hin, hepochs⟩, -⟩ := State.onMoves_turn (f := s.forwardTurn table) (next := fun m => { m with phase := 1 })
      (P := (·.epochs = t.epochs)) (A := fun _ => True) (B := fun _ => True) (fun _ => rfl) hres htable rfl hm hnodup
      (fun u d x _ => s.forwardTurn_cases t u d x)
      (fun _ _ _ => State.forwardTurn_of_due hphase hwhole hswitched hsource hcopied hacked)
      trivial (fun _ _ _ _ => id) (fun _ _ => id) (fun _ _ _ _ => id)
    exact ⟨_, d, exec_migrationForwarding_eq, hd, hin, hepochs⟩
  case retireSource =>
    have hresult : s.retireResult ctx m = okResult m.copied m.forwarded m.records := if_pos hsource
    rw [← hresult]
    exact migrationRetire_retires hres htable hm hnodup (by simp [hphase]) hwhole (by simp [State.retires, hsource, hphase]) hstroke
  case retireDest =>
    have hresult : s.retireResult ctx m = okResult 0 0 0 := if_neg haway
    rw [← hresult]
    exact migrationRetire_retires hres htable hm hnodup (by simp [hphase]) hwhole
      (by simp [State.retires, haway, hdest, hswitched, hall]) hstroke

end Sys2Proof.Machine
end

section
/-! # Rules of frames that a half takes in: what is counted, noted and acknowledged (R377 to R380) -/

namespace Sys2Proof.Machine

variable {s t : State} {g h : Half} {port type : ℕ} {f : Frame}

/-! ## The frame as it is taken in -/

@[simp] theorem HalfState.ingress_src (x : HalfState) (h : Half) (port : ℕ) (f : Frame) : (x.ingress h port f).src = f.src := by
  unfold HalfState.ingress; split <;> rfl
@[simp] theorem HalfState.ingress_ctx (x : HalfState) (h : Half) (port : ℕ) (f : Frame) : (x.ingress h port f).ctx = f.ctx := by
  unfold HalfState.ingress; split <;> rfl
@[simp] theorem HalfState.ingress_gen (x : HalfState) (h : Half) (port : ℕ) (f : Frame) : (x.ingress h port f).gen = f.gen := by
  unfold HalfState.ingress; split <;> rfl
@[simp] theorem HalfState.ingress_addr (x : HalfState) (h : Half) (port : ℕ) (f : Frame) : (x.ingress h port f).addr = f.addr := by
  unfold HalfState.ingress; split <;> rfl
@[simp] theorem HalfState.ingress_seq (x : HalfState) (h : Half) (port : ℕ) (f : Frame) : (x.ingress h port f).seq = f.seq := by
  unfold HalfState.ingress; split <;> rfl
@[simp] theorem HalfState.ingress_arg (x : HalfState) (h : Half) (port : ℕ) (f : Frame) : (x.ingress h port f).arg = f.arg := by
  unfold HalfState.ingress; split <;> rfl
@[simp] theorem HalfState.ingress_data (x : HalfState) (h : Half) (port : ℕ) (f : Frame) : (x.ingress h port f).data = f.data := by
  unfold HalfState.ingress; split <;> rfl

/-- What becomes of a frame that is heard, by how it arrives (R379). -/
theorem State.receive_of_heard {act : State → Frame → Answer} (hheard : s.hearsFrame h port f type) :
    s.receive h port f type act = match (s.half h).arrival h ((s.half h).ingress h port f) with
      | .duplicate => s.modHalf h fun y => y.countIn port f
      | .dropped => (s.modHalf h fun y => y.countIn port f).dropNoted h port ((s.half h).ingress h port f)
      | .refused r => ((s.modHalf h fun y => y.countIn port f).noteFrame h ((s.half h).ingress h port f) false).nackFrame h port
          ((s.half h).ingress h port f) r
      | .take => State.settleAnswer h port ((s.half h).ingress h port f) (act (s.modHalf h fun y => y.countIn port f)
          ((s.half h).ingress h port f)) := by
  obtain ⟨hport, hactive, hreset, htype, hdst⟩ := hheard
  unfold State.receive
  exact if_neg (by simp [hport, hactive, hreset, htype, hdst])

theorem State.receive_of_take {act : State → Frame → Answer} (hheard : s.hearsFrame h port f type)
    (htake : (s.half h).arrival h ((s.half h).ingress h port f) = .take) :
    s.receive h port f type act = State.settleAnswer h port ((s.half h).ingress h port f)
      (act (s.modHalf h fun y => y.countIn port f) ((s.half h).ingress h port f)) := by
  rw [State.receive_of_heard hheard, htake]

/-! ## What requesters read is what memory and the lines of the Wellheads say -/

theorem State.view_congr (hmem : t.mem = s.mem) (hwells : ∀ g, (t.half g).wells = (s.half g).wells) : t.view = s.view := by
  have hlines : t.lines = s.lines := congrArg (List.flatMap Well.lines) (congrArg₂ (· ++ ·) (hwells .q) (hwells .k))
  rw [State.view, hlines, hmem, State.view]

theorem State.countIn_wells (s : State) (h : Half) (port : ℕ) (f : Frame) (g : Half) :
    ((s.modHalf h fun y => y.countIn port f).half g).wells = (s.half g).wells :=
  State.half_modHalf_keeps (fun x => x.gauge_wells ..) s h g

theorem State.countHbm_eq (s : State) (dpa sub n : ℕ) : s.countHbm dpa sub n = if dpaRegion dpa = 0 then
    s.modHalf (dpaHalf dpa) fun x => x.gauge 0x02 (3 * 512 + dpaStack dpa) sub n else s := rfl

@[simp] theorem State.countHbm_mem (s : State) (dpa sub n : ℕ) : (s.countHbm dpa sub n).mem = s.mem := by
  rw [State.countHbm_eq]
  split <;> simp

@[simp] theorem State.countHbm_wells (s : State) (dpa sub n : ℕ) (g : Half) : ((s.countHbm dpa sub n).half g).wells = (s.half g).wells := by
  rw [State.countHbm_eq]
  split
  · exact State.half_modHalf_keeps (fun x => x.gauge_wells ..) s _ g
  · rfl

/-! ## What a half still owes an acknowledgement for -/

@[simp] theorem HalfState.transmit_unacked (x : HalfState) (h : Half) (i : ℕ) (f : Frame) : (x.transmit h i f).unacked = x.unacked := by
  obtain ⟨r, p, u, e⟩ := x.transmit_eq h i f
  rw [e]

theorem HalfState.routeFrame_unacked (x : HalfState) (h : Half) (f : Frame) (came : ℕ) :
    (x.routeFrame h f came).1.unacked = x.unacked := by
  unfold HalfState.routeFrame
  dsimp only
  split
  · rw [HalfState.count32_eq]
  · split <;> exact HalfState.transmit_unacked ..

theorem HalfState.number_unacked (x : HalfState) (plane : Half) (f : Frame) : (x.number plane f).unacked = x.unacked := by
  unfold HalfState.number
  split <;> rfl

/-- A frame that is not acknowledged joins no list (R380). -/
theorem State.send_unacked (s : State) (plane : Half) {f : Frame} (hfree : isAcked f = false) (g : Half) :
    ((s.send plane none f).1.half g).unacked = (s.half g).unacked := by
  have hsent : ((s.half plane).sent plane none f).unacked = (s.half plane).unacked := by
    unfold HalfState.sent HalfState.dispatch
    rw [hfree, Bool.false_and]
    exact (HalfState.routeFrame_unacked ..).trans (HalfState.number_unacked ..)
  have hset : ((s.setHalf plane ((s.half plane).sent plane none f)).half g).unacked = (s.half g).unacked := by
    cases plane <;> cases g
    · exact hsent
    · rfl
    · rfl
    · exact hsent
  rw [State.send_eq]
  split <;> exact hset

theorem HalfState.noteSeq_unacked (x : HalfState) (src seq : ℕ) : (x.noteSeq src seq).unacked = x.unacked := by
  unfold HalfState.noteSeq
  split <;> rfl

theorem HalfState.markSeen_eq (x : HalfState) (src seq : ℕ) :
    ∃ high seen, x.markSeen src seq = { x.noteSeq src seq with rxHigh := high, rxSeen := seen } := ⟨_, _, rfl⟩

theorem HalfState.markSeen_unacked (x : HalfState) (src seq : ℕ) : (x.markSeen src seq).unacked = x.unacked := by
  have hrest (z : HalfState) (high : Table) (seen : List (ℕ × ℕ)) : ({ z with rxHigh := high, rxSeen := seen } : HalfState).unacked = z.unacked := rfl
  obtain ⟨high, seen, e⟩ := x.markSeen_eq src seq
  exact (congrArg HalfState.unacked e).trans ((hrest ..).trans (x.noteSeq_unacked src seq))

/-- An ACK is not itself acknowledged (R380). -/
theorem isAcked_of_ack (hack : f.type = 0x3) : isAcked f = false := by simp [isAcked, hack]

theorem State.sendAck_unacked (s : State) (h : Half) (src : ℕ) (g : Half) : ((s.sendAck h src).half g).unacked = (s.half g).unacked := by
  unfold State.sendAck
  exact (State.send_unacked _ h (isAcked_of_ack rfl) g).trans (State.half_modHalf_keeps (π := HalfState.unacked) (fun _ => by rfl) s h g)

theorem State.sendAck_mem (s : State) (h : Half) (src : ℕ) : (s.sendAck h src).mem = s.mem := by
  unfold State.sendAck
  exact (State.send_mem ..).trans (State.modHalf_mem ..)

/-- What a half keeps of a frame that it has taken in. -/
def HalfState.noted (x : HalfState) (f : Frame) (due : Bool) : HalfState :=
  let z := if isAcked f then x.markSeen f.src f.seq else x
  if due && isAcked f && f.type ≠ 0x0 then z.owesAck f.src else z

theorem HalfState.noted_unacked (x : HalfState) (f : Frame) (due : Bool) : (x.noted f due).unacked = x.unacked := by
  have hseen : (if isAcked f then x.markSeen f.src f.seq else x).unacked = x.unacked := by
    split
    · exact x.markSeen_unacked ..
    · rfl
  unfold HalfState.noted
  dsimp only
  split <;> exact hseen

theorem State.noteFrame_eq (s : State) (h : Half) (f : Frame) (due : Bool) :
    s.noteFrame h f due = (s.modHalf h fun x => x.noted f due).ackMany h f.src := rfl

/-- A frame noted as taken in leaves alone what the half has sent (R380). -/
theorem State.noteFrame_unacked (s : State) (h : Half) (f : Frame) (due : Bool) (g : Half) :
    ((s.noteFrame h f due).half g).unacked = (s.half g).unacked := by
  have hnoted := State.half_modHalf_keeps (fun x => x.noted_unacked f due) s h g
  rw [State.noteFrame_eq, State.ackMany]
  split
  · exact (State.sendAck_unacked ..).trans hnoted
  · exact hnoted

theorem State.noteFrame_mem (s : State) (h : Half) (f : Frame) (due : Bool) : (s.noteFrame h f due).mem = s.mem := by
  rw [State.noteFrame_eq, State.ackMany]
  split
  · exact (State.sendAck_mem ..).trans (State.modHalf_mem ..)
  · exact State.modHalf_mem ..

end Sys2Proof.Machine
end

section
/-! # O40: the rows of the frames of the torus (R377 to R380) -/

namespace Sys2Proof.Machine

variable {s : State} {h : Half} {port type : ℕ} {f : Frame} {i : Instr} {act : State → Frame → Answer}

/-! ## Each row receives the frames that it speaks of -/

theorem exec_rowRequest_of_body {table : ℕ} {rows : List ℕ} (hbody : f.row = .request table rows) :
    exec (.rowRequest h port f) s = .next (s.receive h port f 0x5 (serveRow h port)) := by
  change execRowRequest h port f s = _
  unfold execRowRequest
  simp only [hbody]

theorem exec_rowReply_of_body {table row : ℕ} {bytes : List ℕ} (hbody : f.row = .reply table row bytes) :
    exec (.rowReply h port f) s = .next (s.receive h port f 0x5 (takeRow h)) := by
  change execRowReply h port f s = _
  unfold execRowReply
  simp only [hbody]

theorem exec_exactSumPartial_of_body {table row positions : ℕ} {partials : List ℤ} (hbody : f.row = .exactSum table row positions partials) :
    exec (.exactSumPartial h port f) s = .next (s.receive h port f 0x5 (takePartial h port)) := by
  change execExactSumPartial h port f s = _
  unfold execExactSumPartial
  simp only [hbody]

theorem exec_stagingRecord_of_body {table row key : ℕ} {values : List ℕ} (hbody : f.row = .staged table row key values) :
    exec (.stagingRecord h port f) s = .next (s.receive h port f 0x5 (takePartial h port)) := by
  change execStagingRecord h port f s = _
  unfold execStagingRecord
  simp only [hbody]

theorem exec_migrationCopy_of_body {table row : ℕ} {bytes : List ℕ} {shadow : List ℤ} (hbody : f.row = .copy table row bytes shadow) :
    exec (.migrationCopy h port f) s = .next (s.receive h port f 0x5 (takeCopy h port)) := by
  change execMigrationCopy h port f s = _
  unfold execMigrationCopy
  simp only [hbody]

theorem exec_frameRow (hport : port ≤ 3) (hrow : (i, type, act, true) ∈ frameRows s h port f) :
    exec i s = .next (s.receive h port f type act) := by
  simp only [frameRows, List.mem_cons, Prod.mk.injEq, List.not_mem_nil, or_false] at hrow
  obtain ⟨rfl, rfl, rfl, hflag⟩ | ⟨rfl, rfl, rfl, hflag⟩ | ⟨rfl, rfl, rfl, hflag⟩ | ⟨rfl, rfl, rfl, hflag⟩ | ⟨rfl, rfl, rfl, hflag⟩
    | ⟨rfl, rfl, rfl, hflag⟩ | ⟨rfl, rfl, rfl, hflag⟩ | ⟨rfl, rfl, rfl, hflag⟩ | ⟨rfl, rfl, rfl, hflag⟩ | ⟨rfl, rfl, rfl, hflag⟩
    | ⟨rfl, rfl, rfl, hflag⟩ | ⟨rfl, rfl, rfl, hflag⟩ | ⟨rfl, rfl, rfl, hflag⟩ | ⟨rfl, rfl, rfl, hflag⟩ | ⟨rfl, rfl, rfl, hflag⟩
    | ⟨rfl, rfl, rfl, hflag⟩ := hrow
  -- READ_REQ, READ_RESP, WRITE, ACK and NACK have a row each
  iterate 5 exact rfl
  -- the five rows of the TYPE ROW, told apart by what the frame brings
  · split at hflag
    next hbody => exact exec_rowRequest_of_body hbody
    next => cases hflag
  · split at hflag
    next hbody => exact exec_rowReply_of_body hbody
    next => cases hflag
  · split at hflag
    next hbody => exact exec_exactSumPartial_of_body hbody
    next => cases hflag
  · split at hflag
    next hbody => exact exec_stagingRecord_of_body hbody
    next => cases hflag
  · split at hflag
    next hbody => exact exec_migrationCopy_of_body hbody
    next => cases hflag
  -- the other rows, told apart by a bit of ARG
  · change execCollectiveFrame h port f s = _
    have hdata : bitSet f.arg 36 = false ∧ (s.collReady h f = true ∨ (s.half h).arrival h f ≠ .take) := by simpa using hflag.symm
    unfold execCollectiveFrame
    rw [if_neg (by simp [hdata.1]), if_neg]
    rcases hdata.2 with hready | hother
    · simp [hready]
    · simp [hother]
  · exact congrArg Host.Outcome.next (if_pos hflag.symm)
  · change execStream h port f s = _
    have hblock : bitSet f.arg 16 = false ∧ s.streamCredit h port f = true := by simpa using hflag.symm
    unfold execStream
    rw [if_neg (by simp [hblock.1]), if_neg (by omega), if_pos hblock.2]
  · change execStreamAbort h port f s = _
    unfold execStreamAbort
    rw [if_neg (by simp [← hflag]), if_neg (by omega)]
  · exact congrArg Host.Outcome.next (if_pos (of_decide_eq_true hflag.symm))
  · exact congrArg Host.Outcome.next (if_pos (of_decide_eq_true hflag.symm))

/-! ## READ_REQ, WRITE and ACK -/

/-- A block that is whole is answered with its bytes and its seal (R344). -/
theorem takeRead_of_whole {dpa : ℕ} {w : Bool} (hhere : s.ownerAddr h f = .here dpa w) (hwhole : s.view.intact dpa = true) :
    takeRead h s f = .done ((s.countHbm dpa 0 256).send h none
      { type := 0x1, dst := f.src, ctx := f.ctx, gen := f.gen, addr := f.addr, arg := f.seq
        data := s.view.bytes (dpa / 256 * 256) 256, crc := s.view.sealOf (dpa / 256) }).1 := by
  have hview : (s.countHbm dpa 0 256).view = s.view := State.view_congr (s.countHbm_mem ..) (s.countHbm_wells dpa 0 256)
  unfold takeRead
  rw [hhere]
  dsimp only
  rw [hview, if_pos hwhole, hview]

/-- A WRITE that is not a reduction puts its bytes at its place (R347). -/
theorem takeWrite_of_plain {dpa : ℕ} {r : Run} (hhere : s.ownerAddr h f = .here dpa true) (hckpt : s.ckptFrame f dpa = true)
    (hwhole : Frame.intact f = true) (hplain : bitSet f.arg 9 = false)
    (hr : r = ({ mem := s.view } : Run).storeAt dpa (f.data.take (bits f.arg 0 9))) (hstop : r.settle.stop = none) :
    takeWrite h s f = .done ((s.commit r.settle.mem).countHbm dpa 1 (bits f.arg 0 9)) := by
  unfold takeWrite
  rw [hhere]
  dsimp only
  rw [if_neg (by simp [hckpt]), if_neg (by simp [hwhole]), if_neg (by simp [hplain]), ← hr, hstop]

/-- Whether an ACK answers a frame that was sent (R380). -/
def Unacked.answeredBy (u : Unacked) (f : Frame) : Bool := u.frame.dst = f.src && !u.byReply && seqAfter u.frame.seq f.arg < seqHalf

/-- What an acknowledged frame wakes: its command, or the frame of the spur or the port that it came for. -/
def State.wake (h : Half) (t : State) (u : Unacked) : State :=
  match u.cmd.bind t.cmd? with
  | some (g, c) => t.setCmd g (c.progress g h)
  | none => match u.spur, u.relay with
    | some n, _ => t.toSpur { type := 0x3, mgmt := true, arg := n }
    | none, some (port, g) => State.settleAnswer h port g (.done t)
    | none, none => t

theorem takeAck_eq (h : Half) (s : State) (f : Frame) : takeAck h s f
    = .done (((s.half h).unacked.filter (·.answeredBy f)).foldl (State.wake h)
        (s.modHalf h fun y => { y with unacked := y.unacked.filter fun u => !u.answeredBy f })) := rfl

theorem State.wake_unacked (h : Half) (t : State) (u : Unacked) (g : Half) : ((t.wake h u).half g).unacked = (t.half g).unacked := by
  unfold State.wake
  split
  · exact State.setCmd_keeps (π := HalfState.unacked) (fun _ _ => rfl) ..
  · split
    · exact State.half_modHalf_keeps (fun x => x.transmit_unacked ..) t _ g
    · exact State.noteFrame_unacked ..
    · rfl

theorem State.wake_mem (h : Half) (t : State) (u : Unacked) : (t.wake h u).mem = t.mem := by
  unfold State.wake
  split
  · exact State.setCmd_mem ..
  · split
    · exact State.modHalf_mem ..
    · exact State.noteFrame_mem ..
    · rfl

/-- Settles O40, by what receiving does with a frame that is heard, and by the answers of three of its rows. -/
theorem framesAreTaken : Obligations.FramesAreTaken := by
  refine ⟨fun s h port type f g i act b hrow hheard hg hb => ?arrives, fun s b h port f g hg htake hb =>
    ⟨fun dpa w hheard hhere hwhole => ?read, fun dpa r hheard hhere hckpt hwhole hplain hr hstop => ?write, fun hheard => ?ack⟩⟩
  case arrives =>
    subst hg hb
    rw [exec_frameRow hheard.1 hrow, State.receive_of_heard hheard]
    exact ⟨fun ha => by rw [ha], fun ha => by rw [ha], fun ha => by rw [ha], fun r ha => by rw [ha]⟩
  all_goals
    have hbview : b.view = s.view := hb ▸ State.view_congr (State.modHalf_mem ..) (s.countIn_wells h port f)
    subst hg
  case read =>
    refine congrArg Host.Outcome.next ((State.receive_of_take hheard htake).trans ?_)
    rw [← hb, takeRead_of_whole hhere (by rwa [hbview]), hbview]
    simp
  case write =>
    refine ⟨_, congrArg Host.Outcome.next (State.receive_of_take hheard htake), ?_⟩
    rw [← hb, takeWrite_of_plain hhere hckpt hwhole (by simpa using hplain) (by simpa [hbview] using hr) hstop]
    refine (State.noteFrame_mem ..).trans ((State.countHbm_mem ..).trans ?_)
    rw [hb]
    exact State.commit_mem_congr (State.modHalf_mem ..) (s.countIn_wells h port f) _
  case ack =>
    refine ⟨_, congrArg Host.Outcome.next (State.receive_of_take hheard htake), ?_⟩
    rw [← hb, takeAck_eq, hb]
    refine ⟨(State.noteFrame_mem ..).trans ((State.mem_foldl (State.wake_mem h) ..).trans (by simp)), fun u hu => ?_⟩
    have hleft : u ∈ ((s.half h).countIn port f).unacked.filter fun u => !u.answeredBy ((s.half h).ingress h port f) := by
      refine Eq.mp (congrArg (u ∈ ·) ((State.noteFrame_unacked ..).trans
        ((foldl_keeps (π := fun t : State => (t.half h).unacked) (fun t a => t.wake_unacked h a h) _ _).trans ?_))) hu
      rw [State.modHalf_half, State.modHalf_half]
    have hunanswered := (List.mem_filter.1 hleft).2
    rintro ⟨hdst, hown, hafter⟩
    simp [Unacked.answeredBy, hdst, hown, hafter] at hunanswered

end Sys2Proof.Machine
end

section
/-! # Rules of contexts that work leaves alone: what is counted, crosses the Siphon or goes out on a port -/

namespace Sys2Proof.Machine

variable {s : State} {g h : Half} {id : ℕ}

/-- The contexts of a half that a change of one half leaves alone. -/
theorem State.modHalf_ctxs {f : HalfState → HalfState} (hf : ∀ x, (f x).ctxs = x.ctxs) (s : State) (h g : Half) :
    ((s.modHalf h f).half g).ctxs = (s.half g).ctxs := State.half_modHalf_keeps hf s h g

theorem HalfState.ctx_congr {x y : HalfState} (hctxs : x.ctxs = y.ctxs) (i : ℕ) : x.ctx i = y.ctx i := by
  unfold HalfState.ctx
  rw [hctxs]

theorem State.crossFor_ctxs (s : State) (key : Option ℕ) (h : Half) (c : SiphonClass) (n : ℕ) (g : Half) :
    ((s.crossFor key h c n).half g).ctxs = (s.half g).ctxs := by
  unfold State.crossFor State.cross
  split <;> split
  · exact State.modHalf_ctxs (fun x => x.crossing_ctxs ..) s h g
  · rfl
  · exact State.modHalf_ctxs (fun x => by simp) s h g
  · rfl

theorem State.countTraffic_ctxs (s : State) (rd wr : Table) (g : Half) : ((s.countTraffic rd wr).half g).ctxs = (s.half g).ctxs := by
  unfold State.countTraffic
  dsimp only
  refine (foldl_keeps (π := fun t : State => (t.half g).ctxs) (fun t e => ?_) _ _).trans
    (foldl_keeps (π := fun t : State => (t.half g).ctxs) (fun t e => ?_) _ _)
  all_goals
    split
    · exact State.modHalf_ctxs (fun x => by simp [HalfState.touchDomain]) t _ g
    · exact State.modHalf_ctxs (fun x => by simp) t _ g

theorem State.countBytes_ctxs (s : State) (key : ℕ) (rd wr : Table) (g : Half) :
    ((s.countBytes key rd wr).half g).ctxs = (s.half g).ctxs := by
  unfold State.countBytes
  refine (State.modHalf_ctxs (fun x => ?_) _ .k g).trans ((State.modHalf_ctxs (fun x => ?_) _ .q g).trans (s.countTraffic_ctxs rd wr g))
  all_goals (dsimp only; split <;> split <;> simp)

/-- Counting a run leaves the contexts alone. -/
theorem State.countRun_ctxs (s : State) (key : ℕ) (r : Run) (g : Half) : ((s.countRun key r).half g).ctxs = (s.half g).ctxs :=
  (foldl_keeps (π := fun t : State => (t.half g).ctxs) (fun t _ => t.crossFor_ctxs (some key) _ _ _ g) r.crossed _).trans
    (s.countBytes_ctxs key r.rd r.wr g)

theorem State.commit_ctxs (s : State) (m : Mem) (g : Half) : ((s.commit m).half g).ctxs = (s.half g).ctxs := by
  rw [State.commit_half]

theorem State.setCmd_ctxs (s : State) (h : Half) (c : Cmd) (g : Half) : ((s.setCmd h c).half g).ctxs = (s.half g).ctxs :=
  State.setCmd_keeps (π := HalfState.ctxs) (fun _ _ => rfl) s h c g

@[simp] theorem HalfState.transmit_ctxs (x : HalfState) (h : Half) (i : ℕ) (f : Frame) : (x.transmit h i f).ctxs = x.ctxs := by
  obtain ⟨r, p, u, e⟩ := x.transmit_eq h i f
  rw [e]

theorem HalfState.routeFrame_ctxs (x : HalfState) (h : Half) (f : Frame) (came : ℕ) : (x.routeFrame h f came).1.ctxs = x.ctxs := by
  unfold HalfState.routeFrame
  dsimp only
  split
  · exact HalfState.count32_ctxs ..
  · split <;> exact HalfState.transmit_ctxs ..

theorem State.countSent_ctxs (s : State) (plane : Half) (cmd : Option ℕ) (f : Frame) (g : Half) :
    ((s.countSent plane cmd f).half g).ctxs = (s.half g).ctxs := by
  unfold State.countSent
  split
  · rfl
  · refine (State.modHalf_ctxs (fun x => x.attribute_ctxs ..) _ plane g).trans ?_
    split
    · rfl
    · exact State.crossFor_ctxs ..

/-! ## A frame on a port -/

/-- A half after it has put a frame of its own on a port (R380). -/
def HalfState.sentPort (x : HalfState) (plane : Half) (port : ℕ) (cmd : Option ℕ) (f : Frame) : HalfState :=
  let dst := x.neighbour plane port
  let n := x.seqNext.at (seqKey plane dst)
  let f1 : Frame := { sealFrame f with dst := dst, src := x.myPos plane, ver := x.e2eVer plane, seq := n }
  let y : HalfState := { x with seqNext := x.seqNext.set (seqKey plane dst) ((n + 1) % 2 ^ 24) }
  let g : Frame := { f1 with vc := x.vcFor plane f1 port 4 }
  let z := if x.linkLost plane port then (y.routeFrame plane f1 4).1 else y.transmit plane port g
  { z with unacked := z.unacked ++ [{ plane := plane, cmd := cmd, frame := g }] }

/-- Where the neighbour cannot be reached, nothing is sent; otherwise the frame goes out and is counted. -/
theorem State.sendPort_cases (s : State) (plane : Half) (port : ℕ) (cmd : Option ℕ) (f : Frame) :
    (∃ f1, s.sendPort plane port cmd f = s.setHalf plane ((s.half plane).routeFrame plane f1 4).1)
      ∨ ∃ f1, s.sendPort plane port cmd f
        = (s.setHalf plane ((s.half plane).sentPort plane port cmd f)).countSent plane cmd f1 := by
  unfold State.sendPort
  dsimp only
  split
  · exact .inl ⟨_, rfl⟩
  · exact .inr ⟨_, rfl⟩

theorem HalfState.sentPort_ctxs (x : HalfState) (plane : Half) (port : ℕ) (cmd : Option ℕ) (f : Frame) :
    (x.sentPort plane port cmd f).ctxs = x.ctxs := by
  unfold HalfState.sentPort
  dsimp only
  split
  · exact HalfState.routeFrame_ctxs ..
  · exact HalfState.transmit_ctxs ..

theorem HalfState.sentPort_cmds (x : HalfState) (plane : Half) (port : ℕ) (cmd : Option ℕ) (f : Frame) :
    (x.sentPort plane port cmd f).cmds = x.cmds := by
  unfold HalfState.sentPort
  dsimp only
  split
  · exact HalfState.routeFrame_cmds ..
  · exact HalfState.transmit_cmds ..

theorem State.setHalf_ctxs {x : HalfState} (hx : x.ctxs = (s.half h).ctxs) (g : Half) : ((s.setHalf h x).half g).ctxs = (s.half g).ctxs := by
  cases h with
  | q => cases g with | q => exact hx | k => rfl
  | k => cases g with | q => rfl | k => exact hx

theorem State.sendPort_ctxs (s : State) (plane : Half) (port : ℕ) (cmd : Option ℕ) (f : Frame) (g : Half) :
    ((s.sendPort plane port cmd f).half g).ctxs = (s.half g).ctxs := by
  rcases s.sendPort_cases plane port cmd f with ⟨f1, e⟩ | ⟨f1, e⟩ <;> rw [e]
  · exact State.setHalf_ctxs (HalfState.routeFrame_ctxs ..) g
  · exact (State.countSent_ctxs ..).trans (State.setHalf_ctxs (HalfState.sentPort_ctxs ..) g)

theorem State.cmd?_sendPort (s : State) (plane : Half) (port : ℕ) (cmd : Option ℕ) (f : Frame) (id : ℕ) :
    (s.sendPort plane port cmd f).cmd? id = s.cmd? id := by
  rcases s.sendPort_cases plane port cmd f with ⟨f1, e⟩ | ⟨f1, e⟩ <;> rw [e]
  · exact State.cmd?_setHalf (HalfState.routeFrame_cmds ..) id
  · exact (State.cmd?_countSent ..).trans (State.cmd?_setHalf (HalfState.sentPort_cmds ..) id)

/-! ## Many frames -/

/-- A state that has the commands and the contexts of another. -/
def State.SameWork (s t : State) : Prop := (∀ id, t.cmd? id = s.cmd? id) ∧ ∀ g, (t.half g).ctxs = (s.half g).ctxs

theorem State.SameWork.foldl {α : Type} {f : State → α → State} (hf : ∀ t a, State.SameWork t (f t a)) (l : List α) (s : State) :
    s.SameWork (l.foldl f s) :=
  ⟨fun id => State.cmd?_foldl id (fun t a => (hf t a).1 id) l s,
    fun g => foldl_keeps (π := fun t : State => (t.half g).ctxs) (fun t a => (hf t a).2 g) l s⟩

theorem State.SameWork.trans {r s t : State} (h1 : r.SameWork s) (h2 : s.SameWork t) : r.SameWork t :=
  ⟨fun id => (h2.1 id).trans (h1.1 id), fun g => (h2.2 g).trans (h1.2 g)⟩

theorem State.sameWork_sendPort (s : State) (plane : Half) (port : ℕ) (cmd : Option ℕ) (f : Frame) :
    s.SameWork (s.sendPort plane port cmd f) :=
  ⟨s.cmd?_sendPort plane port cmd f, s.sendPort_ctxs plane port cmd f⟩

end Sys2Proof.Machine
end

section
/-! # O37: collectives begin (R396 to R399) -/

namespace Sys2Proof.Machine

variable {s : State} {g h : Half} {c : Cmd} {id op : ℕ}

theorem Ctx.coll?_setColl {x : Ctx} {k : Coll} (hnew : x.coll? k.tag = none) : (x.setColl k).coll? k.tag = some k := by
  have hany : x.colls.any (·.tag = k.tag) = false := by simpa [Ctx.coll?] using hnew
  unfold Ctx.setColl
  rw [hany]
  exact List.find?_append.trans (by rw [show x.colls.find? (·.tag = k.tag) = none from hnew]; simp)

/-! ## One half begins its part -/

theorem State.sameWork_sendDescriptors (s : State) (h : Half) (ctx : ℕ) (k : Coll) : s.SameWork (s.sendDescriptors h ctx k) :=
  State.SameWork.foldl (fun t p => t.sameWork_sendPort h p k.cmd _) _ s

theorem State.sameWork_beginReduce (s : State) (h : Half) (ctx : ℕ) (k : Coll) (phase : ℕ) (d : CDim) (own : ℕ → Option ℕ) (n : ℕ) :
    s.SameWork (s.beginReduce h ctx k phase d own n) :=
  State.SameWork.foldl (fun t _ => State.SameWork.foldl (fun w _ => State.sameWork_sendPort w ..) _ t) d.begins s

theorem State.sameWork_beginGather (s : State) (h : Half) (ctx : ℕ) (k : Coll) (phase : ℕ) (d : CDim) :
    s.SameWork (s.beginGather h ctx k phase d) :=
  State.SameWork.foldl (fun t _ => State.SameWork.foldl (fun w _ => State.sameWork_sendPort w ..) _ t) d.gatherBegins s

/-- A member that starts is entered; what it sends touches neither commands nor contexts. -/
theorem State.sameWork_startColl (s : State) (h : Half) (ctx : ℕ) (k : Coll) : (s.setColl h ctx k).SameWork (s.startColl h ctx k) := by
  refine (State.sameWork_sendDescriptors _ h ctx k).trans ?_
  unfold State.startColl
  dsimp only
  split
  · exact State.sameWork_beginGather ..
  · exact State.sameWork_beginReduce ..

/-- Without descriptors of others nothing can disagree (R394). -/
theorem State.mismatch_of_no_descs {k : Coll} (hdescs : k.descs = []) : s.mismatch h k = s := by
  unfold State.mismatch
  split
  · rw [hdescs]
    exact if_pos (by simp)
  · rfl

/-- The entry of a member that no descriptor has come for (R396). -/
def Cmd.member (c : Cmd) (op : ℕ) (x : HalfState) (y : Half × List ℕ × Bool) : Coll :=
  let u := unitFor c.packet y.1
  let rings := if y.1 = .q then c.rings.1 else c.rings.2
  let b := x.block y.1 u
  { tag := cuTag u, gen := c.gen, opcode := op, unit0 := u, cmd := some c.id, ringX := rings.1, ringY := rings.2
    descs := [], own := if op = 0x0902 then [] else y.2.1.map some
    ownSq := if cuStats u then some (squares y.2.1) else none, folded := y.2.2
    stage := if op = 0x0902 then 3 else 0, present := if op = 0x0902 then cuMembers u else 0
    fin := if op = 0x0902 then ((List.range (b.2 - b.1)).zip y.2.1).foldl (fun t e => t.set (b.1 + e.1) e.2) [] else [] }

theorem collBegin_of_new {y : Half × List ℕ × Bool}
    (hnew : ((s.half y.1).ctx (pkCtx c.packet)).coll? (cuTag (unitFor c.packet y.1)) = none) :
    collBegin c op s y = s.startColl y.1 (pkCtx c.packet) (c.member op (s.half y.1) y) := by
  unfold collBegin
  dsimp only
  rw [hnew]
  exact State.mismatch_of_no_descs rfl

theorem State.half_ctxs_setColl_other (hne : g ≠ h) (ctx : ℕ) (k : Coll) :
    ((s.setColl h ctx k).half g).ctxs = (s.half g).ctxs := by
  cases h with
  | q => cases g with | q => exact absurd rfl hne | k => rfl
  | k => cases g with | q => rfl | k => exact absurd rfl hne

theorem State.coll?_setColl {ctx : ℕ} {k : Coll} (hnew : ((s.half h).ctx ctx).coll? k.tag = none) :
    (((s.setColl h ctx k).half h).ctx ctx).coll? k.tag = some k := by
  have hctx : ((s.setColl h ctx k).half h).ctx ctx = ((s.half h).ctx ctx).setColl k := by
    cases h with
    | q => exact (HalfState.ctx_modCtx (f := fun x => x.setColl k) (fun _ => rfl) ctx).trans (if_pos rfl)
    | k => exact (HalfState.ctx_modCtx (f := fun x => x.setColl k) (fun _ => rfl) ctx).trans (if_pos rfl)
  rw [hctx]
  exact Ctx.coll?_setColl hnew

/-! ## Every half begins its part -/

/-- A half is a member with the contribution `y` (R396). -/
def State.Joined (u : State) (c : Cmd) (op : ℕ) (y : Half × List ℕ × Bool) : Prop :=
  ∃ k, ((u.half y.1).ctx (pkCtx c.packet)).coll? (cuTag (unitFor c.packet y.1)) = some k
    ∧ k.cmd = some c.id ∧ k.opcode = op ∧ k.unit0 = unitFor c.packet y.1 ∧ k.proxy = false
    ∧ (op ≠ 0x0902 → k.own = y.2.1.map some)

theorem State.Joined.congr {u v : State} {y : Half × List ℕ × Bool} (hjoined : u.Joined c op y)
    (hctxs : (v.half y.1).ctxs = (u.half y.1).ctxs) : v.Joined c op y := by
  unfold State.Joined
  rw [HalfState.ctx_congr hctxs]
  exact hjoined

theorem joined_collBegin {y : Half × List ℕ × Bool}
    (hnew : ((s.half y.1).ctx (pkCtx c.packet)).coll? (cuTag (unitFor c.packet y.1)) = none) :
    (collBegin c op s y).Joined c op y := by
  have hstart := (s.sameWork_startColl y.1 (pkCtx c.packet) (c.member op (s.half y.1) y)).2 y.1
  rw [collBegin_of_new hnew]
  refine ⟨c.member op (s.half y.1) y, ?_, rfl, rfl, rfl, rfl, fun hop => if_neg hop⟩
  rw [HalfState.ctx_congr hstart]
  exact State.coll?_setColl hnew

theorem cmd?_collBegin {y : Half × List ℕ × Bool}
    (hnew : ((s.half y.1).ctx (pkCtx c.packet)).coll? (cuTag (unitFor c.packet y.1)) = none) (id : ℕ) :
    (collBegin c op s y).cmd? id = s.cmd? id := by
  rw [collBegin_of_new hnew, (s.sameWork_startColl y.1 _ _).1 id]
  exact State.cmd?_modHalf (fun x => HalfState.modCtx_cmds ..) id

theorem collBegin_ctxs_other {y : Half × List ℕ × Bool} (hne : g ≠ y.1)
    (hnew : ((s.half y.1).ctx (pkCtx c.packet)).coll? (cuTag (unitFor c.packet y.1)) = none) :
    ((collBegin c op s y).half g).ctxs = (s.half g).ctxs := by
  rw [collBegin_of_new hnew, (s.sameWork_startColl y.1 _ _).2 g]
  exact State.half_ctxs_setColl_other hne ..

/-- Halves that begin one after the other: each is a member at the end, and no command changes. -/
theorem foldl_collBegin {l : List (Half × List ℕ × Bool)} (hnodup : (l.map (·.1)).Nodup)
    (hnew : ∀ y ∈ l, ((s.half y.1).ctx (pkCtx c.packet)).coll? (cuTag (unitFor c.packet y.1)) = none) :
    (∀ id, (l.foldl (collBegin c op) s).cmd? id = s.cmd? id)
      ∧ (∀ y ∈ l, (l.foldl (collBegin c op) s).Joined c op y)
      ∧ ∀ g, g ∉ l.map (·.1) → ((l.foldl (collBegin c op) s).half g).ctxs = (s.half g).ctxs := by
  induction l generalizing s with
  | nil => exact ⟨fun _ => rfl, fun y hy => absurd hy (List.not_mem_nil), fun _ _ => rfl⟩
  | cons y l ih =>
    rw [List.map_cons, List.nodup_cons] at hnodup
    have hy := hnew y (List.mem_cons_self ..)
    have hother : ∀ z ∈ l, z.1 ≠ y.1 := fun z hz e => hnodup.1 (e ▸ List.mem_map_of_mem hz)
    obtain ⟨hcmds, hjoined, hctxs⟩ := ih (s := collBegin c op s y) hnodup.2 fun z hz => by
      rw [HalfState.ctx_congr (collBegin_ctxs_other (hother z hz) hy)]
      exact hnew z (List.mem_cons_of_mem _ hz)
    refine ⟨fun id => (hcmds id).trans (cmd?_collBegin hy id), fun z hz => ?joined, fun g hg => ?others⟩
    case joined =>
      rcases List.mem_cons.mp hz with rfl | hz
      · exact (joined_collBegin hy).congr (hctxs _ hnodup.1)
      · exact hjoined z hz
    case others =>
      rw [List.map_cons, List.mem_cons, not_or] at hg
      exact (hctxs g hg.2).trans (collBegin_ctxs_other hg.1 hy)

/-! ## What is read -/

theorem collReads_halves (s : State) (h : Half) (c : Cmd) (op : ℕ) :
    (collReads s h c op).1.map (·.1) = cuHalves (pl c.packet 0 512) := by
  unfold collReads cuHalves
  split <;> rfl

theorem cuHalves_nodup (u : ℕ) : (cuHalves u).Nodup := by
  unfold cuHalves
  split <;> simp

/-! ## The command -/

/-- A part that is clean goes to memory and is counted, and the command goes on. -/
theorem State.applyPart_clean {e : Env} {r : Run} {next : Cmd} (hclean : r.clean) :
    s.applyPart h c e r next = ((s.commit r.settle.mem).countRun (attrKey c.packet) r.settle).setCmd h next := by
  obtain ⟨hstop, hneed, -, hputs⟩ := hclean
  unfold State.applyPart
  dsimp only
  rw [hstop, hneed, hputs]
  rfl

theorem State.applyPart_ctxs {e : Env} {r : Run} {next : Cmd} (hclean : r.clean) (g : Half) :
    ((s.applyPart h c e r next).half g).ctxs = (s.half g).ctxs := by
  rw [State.applyPart_clean hclean, State.setCmd_ctxs, State.countRun_ctxs, State.commit_ctxs]

theorem State.cmd?_applyPart {e : Env} {r : Run} {next k : Cmd} (hclean : r.clean) (hcmd : s.cmd? id = some (h, k)) (hid : next.id = id) :
    (s.applyPart h c e r next).cmd? id = some (h, next) := by
  rw [State.applyPart_clean hclean]
  exact State.cmd?_setCmd ((State.cmd?_countRun ..).trans hcmd) hid

/-- The three collectives run one and the same thing. -/
theorem exec_collective {i : Instr} (hop : (i, op) ∈ [(Instr.reduceScatter id, 0x0901), (.allGather id, 0x0902), (.allReduce id, 0x0903)])
    (hrun : s.runs id h c op) : exec i s = .next (runCollective op s h c) := by
  simp only [List.mem_cons, Prod.mk.injEq, List.not_mem_nil, or_false] at hop
  rcases hop with ⟨rfl, rfl⟩ | ⟨rfl, rfl⟩ | ⟨rfl, rfl⟩
  · exact congrArg Host.Outcome.next (onCommand_runs hrun rfl)
  · exact congrArg Host.Outcome.next (onCommand_runs hrun rfl)
  · exact congrArg Host.Outcome.next (onCommand_runs hrun rfl)

theorem runCollective_of_late (hlate : lateCmd c = true) : runCollective op s h c = runLate s h c := if_pos hlate

/-- A state in which the halves of a collective begin their parts. -/
def State.collStart (s : State) (h : Half) (c : Cmd) (op : ℕ) : State :=
  (collReads s h c op).1.foldl (collBegin c op)
    (s.applyPart h c (s.envCmd h c) (collReads s h c op).2 { c with waiting := true, idle := 0, idleOther := 0 })

theorem runCollective_of_read (hlate : lateCmd c = false) (hstop : (collReads s h c op).2.settle.stop = none)
    (hneed : (collReads s h c op).2.settle.need = [])
    (hcut : ∀ g ∈ cuHalves (pl c.packet 0 512), s.memberCut g (unitFor c.packet g) = false) :
    runCollective op s h c = (s.collStart h c op).runColl (pkCtx c.packet) (cuTag (pl c.packet 0 512)) := by
  have hread : ¬ ((collReads s h c op).2.settle.stop.isSome || !(collReads s h c op).2.settle.need.isEmpty) = true := by
    rw [hstop, hneed]
    exact Bool.false_ne_true
  have hreach : ¬ ((cuHalves (pl c.packet 0 512)).any fun g => s.memberCut g (unitFor c.packet g)) = true := by
    simpa using hcut
  exact (if_neg (by simp [hlate])).trans ((if_neg hread).trans (if_neg hreach))

theorem State.collStart_of_clean (hcmd : s.cmd? id = some (h, c)) (hdone : c.done = none) (hclean : (collReads s h c op).2.clean)
    (hnew : ∀ g ∈ cuHalves (pl c.packet 0 512), ((s.half g).ctx (pkCtx c.packet)).coll? (cuTag (unitFor c.packet g)) = none) :
    (s.collStart h c op).awaits id h (fun k => k.done = none)
      ∧ ∀ y ∈ (collReads s h c op).1, (s.collStart h c op).Joined c op y := by
  have hhalf : ∀ y ∈ (collReads s h c op).1, y.1 ∈ cuHalves (pl c.packet 0 512) := fun y hy =>
    collReads_halves s h c op ▸ List.mem_map_of_mem hy
  obtain ⟨hcmds, hjoined, -⟩ := foldl_collBegin (c := c) (op := op) (l := (collReads s h c op).1)
    (s := s.applyPart h c (s.envCmd h c) (collReads s h c op).2 { c with waiting := true, idle := 0, idleOther := 0 })
    (collReads_halves s h c op ▸ cuHalves_nodup _) fun y hy => by
      rw [HalfState.ctx_congr (State.applyPart_ctxs hclean y.1)]
      exact hnew y.1 (hhalf y hy)
  have hid : c.id = id := State.cmd?_id hcmd
  exact ⟨⟨_, (hcmds id).trans (State.cmd?_applyPart hclean hcmd hid), rfl, hdone⟩, hjoined⟩

/-! ## The deadline (R399) -/

theorem exec_collectiveDeadline_of_absent {tag ctx : ℕ} {k : Coll} (hctx : (s.half h).resident = some ctx)
    (hcoll : ((s.half h).ctx ctx).coll? tag = some k) (hcmd : k.cmd = none) (hproxy : k.proxy = false) (hover : k.isOver = false)
    (hdeadline : cuDeadline k.unit0 ≠ 0) (hdue : cuDeadline k.unit0 ≤ (s.half h).count) (hreset : (s.half h).resetting = false)
    (hadmitted : s.collAdmitted h ctx tag = false) :
    exec (.collectiveDeadline h tag) s
      = .next ((((s.endEvicted h ctx).modHalf h fun y => (y.modCtx ctx Ctx.evict).count32 h (hubKey bCLE 1) 32 1).startColl h ctx
          { k with
            proxy := true, ringX := ((s.half h).ringPhases h k.unit0).1, ringY := ((s.half h).ringPhases h k.unit0).2
            own := List.replicate (cuCount k.unit0) none }).runColl ctx tag) := by
  change execCollectiveDeadline h tag s = _
  unfold execCollectiveDeadline
  dsimp only
  rw [hctx]
  dsimp only
  rw [hcoll]
  dsimp only
  rw [if_neg (by simp [hcmd, hproxy, hover, hdeadline, hdue, hreset, hadmitted])]

/-- Settles O37, by what each half does in turn. -/
theorem collectivesBegin : Obligations.CollectivesBegin := by
  refine ⟨fun s id op i h c hop hrun => ⟨fun hlate => ?late, fun hlate hstop hneed hcut => ?read, fun hlate hclean hhalves => ?clean⟩,
    fun s h tag ctx k hctx hcoll hcmd hproxy hover hdeadline hdue hreset hadmitted => ?deadline⟩
  case late => rw [exec_collective hop hrun, runCollective_of_late hlate]
  case read =>
    rw [exec_collective hop hrun, runCollective_of_read hlate hstop hneed hcut]
    rfl
  case clean =>
    refine ⟨s.collStart h c op, ?_, State.collStart_of_clean hrun.1 hrun.2.2.1 hclean fun g hg => (hhalves g hg).2⟩
    rw [exec_collective hop hrun, runCollective_of_read hlate hclean.1 hclean.2.1 fun g hg => (hhalves g hg).1]
  case deadline =>
    exact exec_collectiveDeadline_of_absent hctx hcoll hcmd hproxy hover hdeadline hdue hreset hadmitted

end Sys2Proof.Machine
end

section
/-! # O50: the rows of the links (R374 to R387) -/

namespace Sys2Proof.Machine

variable {s : State} {h : Half} {port : ℕ}

theorem State.modHalf_eq_setHalf (s : State) (h : Half) (f : HalfState → HalfState) : s.modHalf h f = s.setHalf h (f (s.half h)) := by
  cases h with
  | q => rfl
  | k => rfl

/-! ## The exchange of capabilities (R375, R376) -/

/-- A port that has exchanged the record and is ACTIVE (R376). -/
def HalfState.portUp (y : HalfState) (h : Half) (port : ℕ) : HalfState :=
  ((y.setField h (regKey bLNK 4 port 2) 0 3 2).setField h (regKey bLNK 4 port 2) 3 3 0).setField h (regKey bLNK 4 port 2) 8 8 linkVersion

/-- A torus port that is up again floods its repair (R387). -/
def HalfState.floodUp (y : HalfState) (h : Half) (port : ℕ) : HalfState :=
  (y.facts.filter fun f => !(f.pos = y.myPos h && f.port = port)).foldl (fun w f => w.raiseRoute h f)
    (y.raiseRoute h { pos := y.myPos h, port := port, down := false })

theorem exec_capabilityExchange_of_training {rec : ℕ} (hport : hasPort h port = true) (hreset : (s.half h).resetting = false)
    (htraining : (s.half h).portState h port = 1) : exec (.capabilityExchange h port rec) s
      = .next (match capRefusal (s.half h) h port rec with
        | some cause => (s.modHalf h fun y => y.setCell (regKey bLNK 4 port 3) (rec % 2 ^ 64)).lowerPort h port cause false
        | none => (s.modHalf h fun y => y.setCell (regKey bLNK 4 port 3) (rec % 2 ^ 64)).modHalf h fun y =>
            if port < 4 then (y.portUp h port).floodUp h port else y.portUp h port) :=
  congrArg Host.Outcome.next (if_neg (by simp [hport, hreset, htraining]))

theorem exec_capabilityExchange_of_refused {rec cause : ℕ} (hport : hasPort h port = true) (hreset : (s.half h).resetting = false)
    (htraining : (s.half h).portState h port = 1) (hrefused : capRefusal (s.half h) h port rec = some cause) :
    exec (.capabilityExchange h port rec) s
      = .next ((s.modHalf h fun y => y.setCell (regKey bLNK 4 port 3) (rec % 2 ^ 64)).lowerPort h port cause false) := by
  rw [exec_capabilityExchange_of_training hport hreset htraining, hrefused]

theorem exec_capabilityExchange_of_held {rec : ℕ} (hport : hasPort h port = true) (hreset : (s.half h).resetting = false)
    (htraining : (s.half h).portState h port = 1) (hheld : capRefusal (s.half h) h port rec = none) :
    exec (.capabilityExchange h port rec) s
      = .next ((s.modHalf h fun y => y.setCell (regKey bLNK 4 port 3) (rec % 2 ^ 64)).modHalf h fun y =>
          if port < 4 then (y.portUp h port).floodUp h port else y.portUp h port) := by
  rw [exec_capabilityExchange_of_training hport hreset htraining, hheld]

/-! ## A port that goes DOWN, and its next attempt (R374) -/

theorem exec_portDown_of_cause {cause : ℕ} (hport : hasPort h port = true) (hreset : (s.half h).resetting = false)
    (hactive : (s.half h).portState h port = 2) (hcause : cause = 1 ∨ cause = 4 ∧ 8 ≤ ((s.half h).port port).failedReplays) :
    exec (.portDown h port cause) s = .next (s.lowerPort h port cause true) :=
  congrArg Host.Outcome.next ((if_neg (by simp [hport, hreset, hactive])).trans (if_pos (by simpa using hcause)))

theorem exec_portRetrain_of_due (hport : hasPort h port = true) (hrunning : (s.half h).running = true)
    (hdown : (s.half h).portState h port = 0) (henabled : bitSet ((s.half h).portReg h port 1) 0 = true)
    (hdue : ∀ t, ((s.half h).port port).triedAt = some t → t + 100000000 ≤ (s.half h).count) :
    exec (.portRetrain h port) s = .next (s.modHalf h fun y => (y.setPort port { y.port port with
      triedAt := some y.count, sentCap := y.capability h port }).setField h (regKey bLNK 4 port 2) 0 3 1) := by
  refine congrArg Host.Outcome.next (if_pos ?_)
  rw [hport, hrunning, hdown, henabled]
  simp only [decide_true, Bool.and_true, Bool.true_and]
  cases htried : ((s.half h).port port).triedAt with
  | none => rfl
  | some t => exact decide_eq_true (hdue t htried)

/-! ## Replays, credit and acknowledgements (R374, R380, R381) -/

theorem le_four_of_hasPort (hport : hasPort h port = true) : port ≤ 4 := by
  simp only [hasPort, Bool.or_eq_true, Bool.and_eq_true, decide_eq_true_eq] at hport
  omega

theorem exec_linkReplay_of_held (hport : hasPort h port = true) (hactive : (s.half h).portState h port = 2)
    (hheld : ((s.half h).port port).retry ≠ []) : exec (.linkReplay h port) s
      = .next (s.modHalf h fun y =>
          (y.setPort port { y.port port with failedReplays := (y.port port).failedReplays + 1 }).count32 h (regKey bLNK 4 port 4) 0 1) :=
  congrArg Host.Outcome.next (if_neg (by simp [le_four_of_hasPort hport, hactive, hheld]))

theorem exec_creditReturn_of_units {vc units : ℕ} (hport : hasPort h port = true) (hactive : (s.half h).portState h port = 2)
    (hunits : units ≠ 0) {p : Port} {left : List Frame} {d : Port × List Frame}
    (hp : p = (s.half h).port port) (hleft : left = freedFrames vc units p.retry)
    (hd : d = ({ p with
        used := p.used.set vc (p.used.at vc - units), retry := left
        failedReplays := if left.head? = p.retry.head? then p.failedReplays else 0 } : Port).drain ((s.half h).myPos h) p.queue.length) :
    exec (.creditReturn h port vc units) s = .next (s.modHalf h fun y => d.2.foldl
      (fun z f => z.gauge 0x02 (6 * 512 + port * 4 + gaugeClass f) 0 (frameBytesOf f)) (y.setPort port d.1)) := by
  subst hd; subst hleft; subst hp
  exact congrArg Host.Outcome.next (if_neg (by simp [le_four_of_hasPort hport, hactive, hunits]))

theorem exec_ackSend_of_received {src : ℕ} (hsince : (s.half h).rxSince.at src ≠ 0) :
    exec (.ackSend h src) s = .next (s.sendAck h src) := congrArg Host.Outcome.next (if_neg hsince)

/-! ## Frames for other modules (R386) -/

theorem exec_frameForward_of_torus {f : Frame} (hport : hasPort h port = true) (hreset : (s.half h).resetting = false)
    (hactive : (s.half h).portState h port = 2) (htorus : port ≠ 4) : exec (.frameForward h port f) s
      = .next (if f.ver ≠ (s.half h).e2eVer h || f.type ≥ 0xC then s.modHalf h fun y => (y.countIn port f).dropFrame h port
        else if f.dst = (s.half h).myPos h || (f.type = 0xB && f.arg % 256 ≠ 0) then s
        else s.modHalf h fun y => ((y.countIn port f).routeFrame h (y.ingress h port f) port).1) :=
  congrArg Host.Outcome.next ((if_neg (by simp [hport, hreset, hactive])).trans (if_neg htorus))

theorem exec_frameForward_of_spur {f : Frame} (hport : hasPort h port = true) (hreset : (s.half h).resetting = false)
    (hactive : (s.half h).portState h port = 2) (hspur : port = 4) (hbridge : (s.half h).isBridge h = true) (htype : f.type ≠ 0xA)
    (hdst : ¬ (f.dst = (s.half h).myPos h ∧ (f.type = 0x0 ∨ f.type = 0x7 ∨ f.type = 0x9))) :
    exec (.frameForward h port f) s = .next (s.relaySpur f) := by
  refine congrArg Host.Outcome.next ((if_neg (by simp [hport, hreset, hactive])).trans ((if_pos hspur).trans (if_neg ?_)))
  simp only [hbridge, htype, Bool.or_eq_true, Bool.and_eq_true, decide_eq_true_eq, Bool.not_true, decide_false, Bool.or_false,
    Bool.false_or, or_assoc]
  exact hdst

/-- Settles O50, row by row. -/
theorem linkRowsComplete : Obligations.LinkRowsComplete := by
  intro s h port hport hreset
  refine ⟨fun rec t htraining ht => ?exchange, fun cause hactive hcause => ?down, fun hrunning hdown henabled hdue => ?retrain,
    fun hactive hheld => ?replay, fun vc units p left d hactive hunits hp hleft hd => ?credit, fun src hsince => ?ack,
    fun f hactive htorus hdst hkind => ⟨fun hver htype => ?forward, fun hbad => ?drop⟩,
    fun f hactive hspur hbridge htype hdst => ?spur⟩
  case exchange =>
    subst ht
    refine ⟨fun cause hrefused => ?refused, fun hheld hspur => ?bridge, fun y hheld htorus hy => ?torus⟩
    case refused => exact exec_capabilityExchange_of_refused hport hreset htraining hrefused
    case bridge =>
      refine (exec_capabilityExchange_of_held hport hreset htraining hheld).trans (congrArg Host.Outcome.next ?_)
      simp only [show ¬ port < 4 by omega, if_false]
      rfl
    case torus =>
      refine (exec_capabilityExchange_of_held hport hreset htraining hheld).trans (congrArg Host.Outcome.next ?_)
      rw [State.modHalf_eq_setHalf _ h, if_pos htorus, hy]
      rfl
  case down => exact exec_portDown_of_cause hport hreset hactive hcause
  case retrain => exact exec_portRetrain_of_due hport hrunning hdown henabled hdue
  case replay =>
    exact ⟨_, exec_linkReplay_of_held hport hactive hheld, State.modHalf_half .., State.modHalf_other .., State.modHalf_mem ..⟩
  case credit => exact exec_creditReturn_of_units hport hactive hunits hp hleft hd
  case ack => exact exec_ackSend_of_received hsince
  case forward =>
    rw [exec_frameForward_of_torus hport hreset hactive htorus, if_neg (by simp [hver, htype]), if_neg (by simpa [hdst] using hkind)]
  case drop =>
    rw [exec_frameForward_of_torus hport hreset hactive htorus, if_pos (by simpa using hbad)]
  case spur => exact exec_frameForward_of_spur hport hreset hactive hspur hbridge htype hdst

end Sys2Proof.Machine
end

section
/-! # O39: neighbour checkpoints (R419 to R424) -/

namespace Sys2Proof.Machine

variable {s : State} {id : ℕ} {h : Half} {c : Cmd}

/-! ## NEIGHBOUR_CKPT in WRITE (R419) -/

theorem exec_neighbourCkptWrite_of_runs (hrun : s.runs id h c 0x0A02) (hwrite : ncVerify c.packet = false) :
    exec (.neighbourCkptWrite id) s = .next (runCkptWrite s h c) :=
  congrArg Host.Outcome.next (onCommand_runs hrun (by simp [hwrite]))

theorem runCkptWrite_of_first (hacked : s.hasUnacked c.id = false) (hcursor : c.cursor = 0) :
    runCkptWrite s h c = { s.ckptStage h c (ncPlane c.packet)
      [ckptWrite c ((s.half (ncPlane c.packet)).neighbour (ncPlane c.packet) 1) (ncManifest c.packet)
        (bytesOf 64 (s.openManifest c.packet ((s.half (ncPlane c.packet)).myPos (ncPlane c.packet))))] with
      drawnFree := s.drawnFree + 4 } := by
  unfold runCkptWrite
  dsimp only
  rw [hacked, hcursor]
  exact if_neg Bool.false_ne_true

theorem runCkptWrite_of_last {u : State} (hacked : s.hasUnacked c.id = false) (hcursor : 2 ≤ c.cursor)
    (hsent : s.sendAll (ncPlane c.packet) (some c.id)
      [ckptWrite c ((s.half (ncPlane c.packet)).neighbour (ncPlane c.packet) 1) (ncManifest c.packet) (bytesOf 64
        (manifest true (ncTag c.packet) (ncBytes c.packet) ((s.half (ncPlane c.packet)).myPos (ncPlane c.packet)) (c.digest.getD 0)
          (s.now h)))] = (u, true)) :
    runCkptWrite s h c = u.finish h c (okResult (c.digest.getD 0 % 2 ^ 32) (c.digest.getD 0 / 2 ^ 32) 0) := by
  obtain ⟨n, hn⟩ : ∃ n, c.cursor = n + 2 := ⟨c.cursor - 2, by omega⟩
  unfold runCkptWrite
  dsimp only
  rw [hacked, hn, hsent] <;> rfl

/-! ## NEIGHBOUR_CKPT in VERIFY (R420) -/

theorem exec_neighbourCkptVerify_of_runs (hrun : s.runs id h c 0x0A02) (hverify : ncVerify c.packet = true) :
    exec (.neighbourCkptVerify id) s = .next (runCkptVerify s h c) :=
  congrArg Host.Outcome.next (onCommand_runs hrun hverify)

/-- Blocks that agree leave none that differs. -/
theorem filter_ne_eq_nil {α : Type} {l : List α} {p : α → Prop} [DecidablePred p] (hl : ∀ b ∈ l, ¬ p b) : l.filter p = [] := by
  rw [List.filter_eq_nil_iff]
  exact fun b hb => by simpa using hl b hb

theorem runCkptVerify_of_last {x : List (List ℕ) × Run} (hacked : s.hasUnacked c.id = false) (hcursor : 2 ≤ c.cursor)
    (hx : x = readBlocks (s.envCmd h c) (ncSrc c.packet) (ncBytes c.packet / 256) { mem := s.view }) (hstop : x.2.stop = none)
    (hneed : x.2.need = []) (hsame : ∀ b ∈ x.1.zipIdx, b.1 = c.fetchedBytes (ncDst c.packet + 256 * b.2) 256) :
    runCkptVerify s h c = (s.countRun (attrKey c.packet) x.2).finish h c
      (okResult (blocksDigest x.1 % 2 ^ 32) (blocksDigest x.1 / 2 ^ 32) 0) := by
  obtain ⟨n, hn⟩ : ∃ n, c.cursor = n + 2 := ⟨c.cursor - 2, by omega⟩
  have hdiffer : (x.1.zipIdx.filter fun b => b.1 ≠ c.fetchedBytes (ncDst c.packet + 256 * b.2) 256) = [] :=
    filter_ne_eq_nil fun b hb hne => hne (hsame b hb)
  unfold runCkptVerify
  dsimp only
  rw [hacked, hn, ← hx, hstop, hneed, hdiffer] <;> rfl

/-! ## NEIGHBOUR_RESTORE (R421, R424) -/

theorem exec_neighbourRestore_of_runs (hrun : s.runs id h c 0x0A03) : exec (.neighbourRestore id) s = .next (runRestore s h c) :=
  congrArg Host.Outcome.next (onCommand_runs hrun rfl)

theorem runRestore_of_other (hacked : s.hasUnacked c.id = false) (hcursor : 2 ≤ c.cursor)
    (hother : nrHolder c.packet ≠ (s.half (nrPlane c.packet)).myPos (nrPlane c.packet)) :
    runRestore s h c = s.restoreBlocks h { c with fetched := [] } (numOf (c.fetchedBytes (nrManifest c.packet) 64))
      ((List.range (nrBytes c.packet / 256)).map fun i => c.fetchedBytes (nrSrc c.packet + 256 * i) 256, { mem := s.view }) := by
  obtain ⟨n, hn⟩ : ∃ n, c.cursor = n + 2 := ⟨c.cursor - 2, by omega⟩
  unfold runRestore
  dsimp only
  rw [hacked, if_neg Bool.false_ne_true, if_neg hother, hn] <;> rfl

theorem runRestore_of_own {m : ℕ × Run} (hacked : s.hasUnacked c.id = false)
    (hown : nrHolder c.packet = (s.half (nrPlane c.packet)).myPos (nrPlane c.packet))
    (hm : m = ({ mem := s.view } : Run).loadNum (s.envCmd h c) (nrManifest c.packet) 64) (hstop : m.2.stop = none)
    (hneed : m.2.need = []) (hok : manifestOk m.1 (nrTag c.packet) (nrBytes c.packet) = true) :
    runRestore s h c = s.restoreBlocks h c m.1 (readBlocks (s.envCmd h c) (nrSrc c.packet) (nrBytes c.packet / 256) m.2) := by
  unfold runRestore
  dsimp only
  rw [hacked, if_neg Bool.false_ne_true, if_pos hown, ← hm, hstop, hneed, hok]
  rfl

/-- Blocks that have the manifest's digest are written, and the command ends with it (R421). -/
theorem State.restoreBlocks_of_digest {m : ℕ} {x : List (List ℕ) × Run} (hdigest : blocksDigest x.1 = bits m 128 64) :
    s.restoreBlocks h c m x = s.applyRun h c (s.envCmd h c) (x.2.store (s.envCmd h c) (nrDst c.packet) x.1.flatten)
      fun _ => okResult (blocksDigest x.1 % 2 ^ 32) (blocksDigest x.1 / 2 ^ 32) 0 :=
  if_neg (by simp [hdigest])

/-- Settles O39, by the stage that each command has come to. -/
theorem neighbourCheckpointsComplete : Obligations.NeighbourCheckpointsComplete := by
  intro s id h c hacked
  refine ⟨fun pos hrun hwrite hpos => ⟨fun hcursor => ?first, fun u hcursor hsent => ?last⟩,
    fun x hrun hverify hcursor hx hstop hneed hsame => ?verify,
    fun bs r hrun hother hcursor hbs hr hclean hdigest => ?other,
    fun m x r hrun hown hm hstop hneed hok hx hr hclean hdigest => ?own⟩
  case first =>
    subst hpos
    rw [exec_neighbourCkptWrite_of_runs hrun hwrite, runCkptWrite_of_first hacked hcursor]
  case last =>
    subst hpos
    rw [exec_neighbourCkptWrite_of_runs hrun hwrite, runCkptWrite_of_last hacked hcursor hsent]
  case verify =>
    rw [exec_neighbourCkptVerify_of_runs hrun hverify, runCkptVerify_of_last hacked hcursor hx hstop hneed hsame]
  case other =>
    subst hr hbs
    have hid : c.id = id := State.cmd?_id hrun.1
    rw [exec_neighbourRestore_of_runs hrun, runRestore_of_other hacked hcursor hother, State.restoreBlocks_of_digest hdigest]
    exact ⟨_, rfl, State.applyRun_mem hclean, State.applyRun_ended hclean hrun.1 hid⟩
  case own =>
    subst hr hx
    have hid : c.id = id := State.cmd?_id hrun.1
    rw [exec_neighbourRestore_of_runs hrun, runRestore_of_own hacked hown hm hstop hneed hok, State.restoreBlocks_of_digest hdigest]
    exact ⟨_, rfl, State.applyRun_mem hclean, State.applyRun_ended hclean hrun.1 hid⟩

end Sys2Proof.Machine
end

section
/-! # O53: the rows of faults (R427 to R438) -/

namespace Sys2Proof.Machine

variable {s : State} {g h : Half} {c : Cmd} {id source : ℕ}

/-! ## Occurrences (R14, R428, R429) -/

/-- The context that an occurrence concerns where no command owns it (R428). -/
def State.bystander (s : State) (h : Half) (source : ℕ) : Option ℕ :=
  match sourceInfo h source with | some i => if i.context then (s.half h).resident else none | none => none

theorem exec_faultOccurrence_of_none (hsamples : (s.half h).samples source = true) (hcmd : s.cmd? id = none) :
    exec (.faultOccurrence h source id) s = .next (s.occur h source (s.bystander h source)) := by
  refine congrArg Host.Outcome.next ((if_neg (by simp [hsamples])).trans ?_)
  rw [hcmd] <;> rfl

theorem exec_faultOccurrence_of_engine (hsamples : (s.half h).samples source = true) (hcmd : s.cmd? id = some (g, c))
    (hengine : isEngineFault source = true) (hserves : engineServes h source c = true) :
    exec (.faultOccurrence h source id) s = .next ((s.engineFault g c (engineResult h source)).occur h source c.ctx) := by
  refine congrArg Host.Outcome.next ((if_neg (by simp [hsamples])).trans ?_)
  rw [hcmd]
  exact (if_neg (by simp [hserves])).trans (by rw [if_pos hengine])

theorem exec_faultOccurrence_of_owned (hsamples : (s.half h).samples source = true) (hcmd : s.cmd? id = some (g, c))
    (hengine : isEngineFault source = false) : exec (.faultOccurrence h source id) s = .next (s.occur h source c.ctx) := by
  refine congrArg Host.Outcome.next ((if_neg (by simp [hsamples])).trans ?_)
  rw [hcmd]
  exact (if_neg (by simp [hengine])).trans (by rw [hengine, if_neg Bool.false_ne_true])

theorem State.engineFault_of_running {r : Result} (hdone : c.done = none) : s.engineFault g c r = s.finish g { c with tiles := [] } r := by
  unfold State.engineFault
  rw [hdone]

theorem State.engineFault_of_same_stroke {r d : Result} (hdone : c.done = some d) (herror : isError d.status = true)
    (hat : c.doneAt = s.now g) : s.engineFault g c r = s.setCmd g { c with done := some (worse d r) } := by
  unfold State.engineFault
  rw [hdone]
  exact if_pos (by simp [herror, hat])

/-! ## A pair with equal rails (R427) -/

/-- A half that has masked a source and recorded its number (R427). -/
def HalfState.wireMasked (y : HalfState) (h : Half) (source : ℕ) : HalfState :=
  (y.setField h (sevKey source) 6 1 1).setCell (hubKey bFCL 4)
    (place source 0 10 + place 1 10 1 + place (bits ((y.setField h (sevKey source) 6 1 1).cell h (hubKey bFCL 4)) 16 11 + 1) 16 11)

theorem exec_wireFault_of_pair (hsource : (sourceInfo h source).isSome = true) (hsamples : (s.half h).samples source = true)
    (hunmasked : bitSet ((s.half h).sev h source) 6 = false) :
    exec (.wireFault h source) s = .next ((s.modHalf h fun y => y.wireMasked h source).occur h (wireSource source) none) :=
  congrArg Host.Outcome.next (if_neg (by simp [hsamples, hunmasked, Option.isSome_iff_ne_none.mp hsource]))

theorem bits_wireRecord (source n : ℕ) : bits (place source 0 10 + place 1 10 1 + place n 16 11) 0 10 = source % 1024 := by
  simp only [bits_eq, place_eq]
  omega

theorem HalfState.wireMasked_record (y : HalfState) (h : Half) (source : ℕ) :
    bits ((y.wireMasked h source).cell h (hubKey bFCL 4)) 0 10 = source % 1024 := by
  unfold HalfState.wireMasked
  rw [HalfState.cell_setCell_same]
  exact bits_wireRecord ..

/-! ## Deadlines, budgets and signals (R432, R437, R438) -/

theorem exec_escalation_of_due {e : ℕ × ℕ} (hearliest : earliest (s.half h).deadlines = some e) (hdue : e.2 ≤ s.now h)
    (hon : (s.half h).boot ≠ .off) : exec (.escalation h) s = .next (s.halfReset h e.1 2) := by
  refine congrArg Host.Outcome.next ?_
  rw [hearliest]
  exact if_pos (by simp [hdue, hon])

/-- A command without progress for its budget, in its home half or, mirrored, in the other half (R437). -/
theorem State.expired_of_budget {n : ℕ}
    (hbudget : (s.half h).budget h ≠ 0 ∧ (s.half h).budget h * 1000 ≤ c.idle ∧ n = c.idle
      ∨ ((s.half h).budget h = 0 ∨ c.idle < (s.half h).budget h * 1000) ∧ c.twoHalf = true ∧ (s.half h.other).budget h.other ≠ 0
        ∧ (s.half h.other).budget h.other * 1000 ≤ c.idleOther ∧ n = c.idleOther) : s.expired h c = some n := by
  unfold State.expired
  rcases hbudget with ⟨hset, hidle, rfl⟩ | ⟨hwithin, htwo, hset, hidle, rfl⟩
  · exact if_pos (by simp [HalfState.outOfBudget, hset, hidle])
  · refine (if_neg ?_).trans (if_pos (by simp [HalfState.outOfBudget, htwo, hset, hidle]))
    simpa [HalfState.outOfBudget, imp_iff_not_or] using hwithin

theorem exec_watchdogExpiry_of_expired {n : ℕ} (hcmd : s.cmd? id = some (h, c)) (hexpired : s.expired h c = some n)
    (hphase : c.phase = .running) (hstop : c.stopWith = none) (hheld : c.done = none ∨ s.hasUnacked id = true) :
    exec (.watchdogExpiry id) s = .next (((s.abandonFrames id).finish h { c with tiles := [], waiting := false }
      (expiredResult c { status := stTimeout, d0 := rsWatchdog, d1 := sat32 n })).occur h srcWatchdog c.ctx) := by
  refine congrArg Host.Outcome.next ?_
  rw [hcmd]
  refine (if_neg ?_).trans (by rw [hexpired])
  rcases hheld with hdone | hunacked
  · simp [hphase, hstop, hdone]
  · simp [hphase, hstop, hunacked]

theorem exec_heartbeatMissed_of_on {core : ℕ} (hcore : core < 4) (hrunning : (s.half h).running = true)
    (hbeat : (s.half h).heartbeatOn = true) : exec (.heartbeatMissed h core) s = .next (s.occur h 0x001 none) :=
  congrArg Host.Outcome.next (if_pos (by simp [hcore, hrunning, hbeat]))

/-! ## Acknowledged and forced sources (R431) -/

theorem HalfState.ackSource_of_source {x : HalfState} (hsource : (sourceInfo h source).isSome = true) (hon : x.boot ≠ .off) :
    ∃ ds, x.ackSource h source = { x.setField h (sevKey source) 2 1 0 with deadlines := ds }
      ∧ ∀ d, find source ds = some d → d ≤ x.count := by
  refine ⟨_, if_neg (by simp [hon, Option.isSome_iff_ne_none.mp hsource]), fun d hd => ?_⟩
  cases hfind : find source x.deadlines with
  | none => simp [hfind] at hd
  | some t =>
    by_cases hlate : t ≤ x.count
    · simp only [hfind, hlate, decide_true, if_true, Option.some.injEq] at hd
      exact hd ▸ hlate
    · simp [hfind, hlate] at hd

theorem HalfState.ackSource_sticky {x : HalfState} (hsource : (sourceInfo h source).isSome = true) (hon : x.boot ≠ .off) :
    (x.ackSource h source).sticky h source = false := by
  obtain ⟨ds, hack, -⟩ := HalfState.ackSource_of_source hsource hon
  have hbits : bits ((x.setField h (sevKey source) 2 1 0).cell h (sevKey source)) 2 1 = 0 := HalfState.bits_setField_same ..
  rw [hack]
  change (bits ((x.setField h (sevKey source) 2 1 0).cell h (sevKey source)) 2 1 == 1) = false
  rw [hbits]
  rfl

theorem HalfState.ackSource_deadlines {x : HalfState} (hsource : (sourceInfo h source).isSome = true) (hon : x.boot ≠ .off) (d : ℕ)
    (hd : find source (x.ackSource h source).deadlines = some d) : d ≤ x.count := by
  obtain ⟨ds, hack, hds⟩ := HalfState.ackSource_of_source hsource hon
  rw [hack] at hd
  exact hds d hd

theorem HalfState.mem_forceSource {x : HalfState} (hsource : (sourceInfo h source).isSome = true) (hon : x.boot ≠ .off) :
    source ∈ (x.forceSource h source).forced := by
  unfold HalfState.forceSource
  by_cases hforced : source ∈ x.forced
  · rw [if_pos (by simp [hforced])]
    exact hforced
  · rw [if_neg (by simp [hforced, hon, Option.isSome_iff_ne_none.mp hsource])]
    exact List.mem_append_right _ (List.mem_singleton_self _)

/-- Settles O53, row by row. -/
theorem faultRowsComplete : Obligations.FaultRowsComplete := by
  intro s h source
  refine ⟨fun hsamples => ⟨fun id hcmd => ?bystander, fun id g c r hcmd hengine hserves hdone herror hat => ?ranks,
      fun id g c hcmd hengine hserves hdone => ?ends, fun id g c hcmd hengine => ?owned⟩,
    fun hsource hsamples hunmasked => ?wire, fun e hearliest hdue hon => ?escalation,
    fun id c n hcmd hbudget hphase hstop => ⟨fun hdone => ?expired, fun r hdone hunacked => ?unacked⟩,
    fun core hcore hrunning hbeat => ?heartbeat, fun hsource hon => ⟨?ack, ?force⟩⟩
  case bystander => exact exec_faultOccurrence_of_none hsamples hcmd
  case ranks => rw [exec_faultOccurrence_of_engine hsamples hcmd hengine hserves, State.engineFault_of_same_stroke hdone herror hat]
  case ends => rw [exec_faultOccurrence_of_engine hsamples hcmd hengine hserves, State.engineFault_of_running hdone]
  case owned => exact exec_faultOccurrence_of_owned hsamples hcmd hengine
  case wire =>
    refine ⟨_, exec_wireFault_of_pair hsource hsamples hunmasked, ?_, State.modHalf_other .., State.modHalf_mem ..⟩
    rw [State.modHalf_half]
    exact HalfState.wireMasked_record ..
  case escalation => exact exec_escalation_of_due hearliest hdue hon
  case expired =>
    rw [exec_watchdogExpiry_of_expired hcmd (State.expired_of_budget hbudget) hphase hstop (.inl hdone), expiredResult, hdone]
  case unacked =>
    rw [exec_watchdogExpiry_of_expired hcmd (State.expired_of_budget hbudget) hphase hstop (.inr hunacked), expiredResult, hdone]
  case heartbeat => exact exec_heartbeatMissed_of_on hcore hrunning hbeat
  case ack =>
    refine ⟨_, rfl, ?_, ?_, State.modHalf_other .., State.modHalf_mem ..⟩
    · rw [State.modHalf_half]
      exact HalfState.ackSource_sticky hsource hon
    · rw [State.modHalf_half]
      exact HalfState.ackSource_deadlines hsource hon
  case force =>
    refine ⟨_, rfl, ?_, State.modHalf_other .., State.modHalf_mem ..⟩
    rw [State.modHalf_half]
    exact HalfState.mem_forceSource hsource hon

end Sys2Proof.Machine
end

section
/-! # O54: the rows of resets (R444 to R446, R494, R502) -/

namespace Sys2Proof.Machine

variable {s : State} {h : Half}

/-! ## The end of a collection (R444 to R446) -/

theorem State.modHalf_of_other (s : State) (h : Half) (f : HalfState → HalfState) : (s.modHalf h.other f).half h = s.half h := by
  cases h with
  | q => rfl
  | k => rfl

/-- A state in which the collection of a half is no longer under way. -/
def State.stopCollecting (s : State) (h : Half) (r : Reset) : State :=
  s.modHalf h fun x => { x with reset := some { r with collecting := false } }

/-- What the collecting half says of the record: that it is there, whether it is whole, and its length (R444). -/
def HalfState.noteRecord (x : HalfState) (n bytes : ℕ) : HalfState :=
  x.setCell (hubKey bFCL 5) (1 + place (if n = 7 then 1 else 0) 1 1 + place (ceilDiv bytes 1024) 8 24)

theorem exec_collectionEnd_of_cannot {r : Reset} (hreset : (s.half h).reset = some r) (hcollecting : r.collecting = true)
    (hcannot : s.siphonUp = false ∨ s.ready h.other = false) :
    exec (.collectionEnd h) s = .next ((s.stopCollecting h r).resetDomains h) := by
  change execCollectionEnd h s = _
  unfold execCollectionEnd
  rw [hreset]
  dsimp only
  rw [if_neg (by simp [hcollecting]), if_pos (by simpa using hcannot)]
  rfl

section
variable {r : Reset} {n : ℕ} {t : State} {refusal : Option ℕ} (hreset : (s.half h).reset = some r) (hcollecting : r.collecting = true)
  (hsiphon : s.siphonUp = true) (hready : s.ready h.other = true)
  (hn : n = if r.start + (s.half h.other).collectMs h.other * 100000 ≤ s.now h then s.fresh 0 % 7 else 7)
  (hput : (t, refusal)
    = ((s.stopCollecting h r).cross h .command (s.record h r n).length).putMem none [(collectedAt h, s.record h r n)])
include hreset hcollecting hsiphon hready hn hput

/-- The record crosses the Siphon to memory, and the half that writes it says so unless memory refuses it (R444). -/
theorem exec_collectionEnd_of_ready : ∃ drawn, exec (.collectionEnd h) s
    = .next (State.resetDomains (if refusal.isSome then t else
      ({ t with drawnFree := drawn } : State).modHalf h.other fun x => x.noteRecord n (s.record h r n).length) h) := by
  have hcan : (!s.siphonUp || !s.ready h.other) = false := by simp [hsiphon, hready]
  refine ⟨t.drawnFree + 3 + (s.half h).cmds.length + (s.half h).suspended.length, ?_⟩
  change execCollectionEnd h s = _
  unfold execCollectionEnd
  unfold State.stopCollecting at hput
  rw [hreset]
  dsimp only
  simp only [decide_eq_true_eq]
  rw [if_neg (by simp [hcollecting]), hcan, if_neg Bool.false_ne_true, ← hn, ← hput]
  rfl

end

/-! ## The pins (R494, R502) -/

theorem State.setHeld_heldReset (s : State) (h : Half) (v : Bool) : (s.setHeld h v).heldReset h = v := by
  cases h with
  | q => rfl
  | k => rfl

theorem State.setHeld_heldReset_other (s : State) (h : Half) (v : Bool) : (s.setHeld h v).heldReset h.other = s.heldReset h.other := by
  cases h with
  | q => rfl
  | k => rfl

/-- A pin changes nothing of the halves and of memory. -/
theorem State.setHeld_frame (s : State) (h : Half) (v : Bool) : (s.setHeld h v).q = s.q ∧ (s.setHeld h v).k = s.k
    ∧ (s.setHeld h v).mem = s.mem ∧ (s.setHeld h v).modReset = s.modReset ∧ (s.setHeld h v).tapInstruction = s.tapInstruction := by
  cases h with
  | q => exact ⟨rfl, rfl, rfl, rfl, rfl⟩
  | k => exact ⟨rfl, rfl, rfl, rfl, rfl⟩

theorem exec_halfResetNAssert_of_high (hhigh : s.heldReset h = false) :
    exec (.halfResetNAssert h) s = .next ((s.setHeld h true).halfReset h 0 3) :=
  congrArg Host.Outcome.next (if_neg (by simp [hhigh]))

/-- Whether an input is low after this one is released: the other one's. -/
theorem State.anyHeld_setHeld (s : State) (h : Half) :
    ((s.setHeld h false).halfResetQ || (s.setHeld h false).halfResetK) = s.heldReset h.other := by
  cases h with
  | q => exact Bool.false_or _
  | k => exact Bool.or_false _

theorem exec_halfResetNRelease_of_other_low (hlow : s.heldReset h.other = true) :
    exec (.halfResetNRelease h) s = .next (s.setHeld h false) :=
  congrArg Host.Outcome.next (if_pos ((s.anyHeld_setHeld h).trans hlow))

theorem exec_halfResetNRelease_of_last (hhigh : s.heldReset h.other = false) :
    exec (.halfResetNRelease h) s = .next ({ s.setHeld h false with modReset := false } : State).releaseTap :=
  congrArg Host.Outcome.next (if_neg (by rw [s.anyHeld_setHeld h, hhigh]; exact Bool.false_ne_true))

theorem State.releaseTap_eq (s : State) : ∃ out, s.releaseTap
    = { s with tapInstruction := if 3 ≤ s.tapInstruction then 0 else s.tapInstruction, tapOut := out } := by
  unfold State.releaseTap
  split
  · exact ⟨0, rfl⟩
  · exact ⟨s.tapOut, rfl⟩

theorem State.heldReset_congr {t : State} (hq : t.halfResetQ = s.halfResetQ) (hk : t.halfResetK = s.halfResetK) (g : Half) :
    t.heldReset g = s.heldReset g := by
  cases g with
  | q => exact hq
  | k => exact hk

theorem State.fcPwr_iff (s : State) (n : ℕ) : s.fcPwr n = true ↔ n < 9 ∧ (s.half (if n < 5 then .q else .k)).beforeRom = false
    ∧ (s.half (if n < 5 then .q else .k)).resetting = false := by
  simp [State.fcPwr, connectorHalf, HalfState.linkPhyOn]

theorem exec_modResetNAssert_of_off {b : State} (hoff : s.q.boot = .off ∨ s.q.resetting = true)
    (hb : b = { s with modReset := true, halfResetQ := true, halfResetK := true }) :
    exec .modResetNAssert s = .next ((b.halfReset .q 0 3).halfReset .k 0 3) := by
  subst hb
  exact congrArg Host.Outcome.next (if_neg (by simpa [imp_iff_not_or] using hoff))

theorem exec_modResetNAssert_of_on {b : State} (hon : s.q.boot ≠ .off) (hreset : s.q.resetting = false)
    (hb : b = { s with modReset := true, halfResetQ := true, halfResetK := true }) :
    exec .modResetNAssert s = .next (((b.halfReset .q 0 3).halfReset .k 0 3).modHalf .q fun x =>
      { x with keptNotice := some (replyWord 0xFFFFFFFF stFault 0 s.q.count 0 rsEngine (causeOf .q 0 3) 3) }) := by
  subst hb
  exact congrArg Host.Outcome.next (if_pos (by simp [hon, hreset]))

/-- Settles O54, row by row. -/
theorem resetRowsComplete : Obligations.ResetRowsComplete := by
  intro s h
  refine ⟨fun r hreset hcollecting hcannot => ?cannot,
    fun r n hreset hcollecting hsiphon hready hn => ⟨fun t ht => ?written, fun t a ht => ?refused⟩, fun hhigh => ?assert, ?release,
    s.fcPwr_iff, fun b hoff hb => ?modOff, fun b hon hreset hb => ?modOn⟩
  case cannot => exact exec_collectionEnd_of_cannot hreset hcollecting hcannot
  case written =>
    obtain ⟨drawn, he⟩ := exec_collectionEnd_of_ready hreset hcollecting hsiphon hready hn ht
    rw [if_neg (by simp)] at he
    exact ⟨_, he, State.modHalf_mem .., State.modHalf_of_other .., State.modHalf_half ..⟩
  case refused =>
    obtain ⟨drawn, he⟩ := exec_collectionEnd_of_ready hreset hcollecting hsiphon hready hn ht
    rw [if_pos (Option.isSome_some)] at he
    exact he
  case assert =>
    obtain ⟨hq, hk, hmem, -, -⟩ := s.setHeld_frame h true
    exact ⟨_, exec_halfResetNAssert_of_high hhigh, s.setHeld_heldReset h true, s.setHeld_heldReset_other h true, hq, hk, hmem⟩
  case release =>
    obtain ⟨hq, hk, hmem, hmod, htap⟩ := s.setHeld_frame h false
    cases hother : s.heldReset h.other with
    | true =>
      exact ⟨_, exec_halfResetNRelease_of_other_low hother, s.setHeld_heldReset h false, (s.setHeld_heldReset_other h false).trans hother,
        fun hno => (by cases hno), fun _ => ⟨hmod, htap⟩, hq, hk, hmem⟩
    | false =>
      obtain ⟨out, he⟩ := State.releaseTap_eq { s.setHeld h false with modReset := false }
      refine ⟨_, (exec_halfResetNRelease_of_last hother).trans (congrArg _ he), ?_, ?_, fun _ => ⟨rfl, ?_⟩, fun hno => ?_, hq, hk, hmem⟩
      · exact (State.heldReset_congr (by rfl) (by rfl) h).trans (s.setHeld_heldReset h false)
      · exact (State.heldReset_congr (by rfl) (by rfl) h.other).trans ((s.setHeld_heldReset_other h false).trans hother)
      · exact congrArg (fun i => if 3 ≤ i then 0 else i) htap
      · cases hno
  case modOff => exact exec_modResetNAssert_of_off hoff hb
  case modOn => exact exec_modResetNAssert_of_on hon hreset hb

end Sys2Proof.Machine
end

section
/-! # O11 and O48: freezes and trace control (R463, R466, R469) -/

namespace Sys2Proof.Machine

variable {s : State} {g h : Half} {c : Cmd} {id : ℕ}

/-! ## FREEZE_ARM (R466) -/

/-- A state in which a source of a half is armed (R466). -/
def State.armOnSource (s : State) (c : Cmd) : State :=
  s.modHalf (Half.ofPart (faSource c.packet / 1024)) fun x => { x with sourceArm := some (faSource c.packet, faArm c.packet) }

/-- A state in which no half holds a frozen set (R466). -/
def State.releaseFrozen (s : State) : State := { s with q := { s.q with frozen := none }, k := { s.k with frozen := none } }

theorem exec_freezeArmOnSource_of_runs (hrun : s.runs id h c 0x0007) (hmode : faMode c.packet = 1) :
    exec (.freezeArmOnSource id) s = .next ((s.armOnSource c).finish h c (okResult 0 0 0)) :=
  congrArg Host.Outcome.next (onCommand_runs hrun (by simp [hmode]))

theorem exec_freezeArmRelease_of_runs (hrun : s.runs id h c 0x0007) (hmode : faMode c.packet = 2) :
    exec (.freezeArmRelease id) s = .next (s.releaseFrozen.finish h c (okResult 0 0 0)) :=
  congrArg Host.Outcome.next (onCommand_runs hrun (by simp [hmode]))

theorem State.armOnSource_regs (s : State) (c : Cmd) (g : Half) : ((s.armOnSource c).half g).regs = (s.half g).regs :=
  State.half_modHalf_keeps (π := HalfState.regs) (fun _ => by rfl) s _ g

theorem State.finish_frozen (s : State) (h : Half) (c : Cmd) (r : Result) (g : Half) : ((s.finish h c r).half g).frozen = (s.half g).frozen :=
  State.finish_keeps (π := HalfState.frozen) (fun _ _ => by rfl) s h c r g

theorem State.finish_sourceArm (s : State) (h : Half) (c : Cmd) (r : Result) (g : Half) :
    ((s.finish h c r).half g).sourceArm = (s.half g).sourceArm :=
  State.finish_keeps (π := HalfState.sourceArm) (fun _ _ => by rfl) s h c r g

/-! ## TRACE_CTL (R463) -/

/-- A change of the half that PART names is what the other half does not see, and memory neither. -/
theorem traceCtl_of_runs {op : ℕ} {f : HalfState → Half → ℕ → HalfState} (hrun : s.runs id h c 0x0009) (hhalf : tcHalf c.packet = g)
    (hop : tcOp c.packet = op) : traceCtl s id op f = (s.modHalf g fun x => f x g c.packet).finish h c (okResult 0 0 0) := by
  subst hhalf
  exact onCommand_runs hrun (by simp [hop])

section
variable {f : HalfState → HalfState} {t : State} (ht : t = (s.modHalf g f).finish h c (okResult 0 0 0))
include ht

theorem ended_of_traceCtl (hcmd : s.cmd? id = some (h, c)) (hf : ∀ x, (f x).cmds = x.cmds) :
    t.ended id h (okResult 0 0 0) := by
  subst ht
  exact State.ended_finish ((State.cmd?_modHalf hf id).trans hcmd) (State.cmd?_id hcmd)

theorem mem_of_traceCtl : t.mem = s.mem := by
  subst ht
  exact (State.finish_mem ..).trans (State.modHalf_mem ..)

/-- What the named half holds afterwards, but for its commands. -/
theorem half_of_traceCtl {γ : Type} (π : HalfState → γ) (hπ : ∀ (x : HalfState) l, π { x with cmds := l } = π x) :
    π (t.half g) = π (f (s.half g)) := by
  subst ht
  rw [State.finish_keeps hπ, State.modHalf_half]

/-- The other half is left alone, but for its commands. -/
theorem other_of_traceCtl {γ : Type} (π : HalfState → γ) (hπ : ∀ (x : HalfState) l, π { x with cmds := l } = π x) :
    π (t.half g.other) = π (s.half g.other) := by
  subst ht
  rw [State.finish_keeps hπ, State.modHalf_other]

end

/-- A record that goes to the queue leaves the settings of the trace unit alone (R463). -/
theorem HalfState.traceEvent_settings (x : HalfState) (kind ctx a b : ℕ) : (x.traceEvent kind ctx a b).trace.on = x.trace.on
    ∧ (x.traceEvent kind ctx a b).trace.mask = x.trace.mask ∧ (x.traceEvent kind ctx a b).trace.wrap = x.trace.wrap := by
  unfold HalfState.traceEvent HalfState.traceAdd
  split
  · split <;> exact ⟨rfl, rfl, rfl⟩
  · exact ⟨rfl, rfl, rfl⟩

/-- A half whose trace unit has been started (R463). -/
def HalfState.startTrace (x : HalfState) (g : Half) (p : ℕ) : HalfState :=
  ({ x with trace := { x.trace with on := true, wrap := pl p 4 1 = 1, mask := pl p 16 16 } } : HalfState).traceEvent 9 0 0 (x.epochOffset g)

theorem HalfState.startTrace_settings (x : HalfState) (g : Half) (p : ℕ) : (x.startTrace g p).trace.on = true
    ∧ (x.startTrace g p).trace.mask = pl p 16 16 ∧ (x.startTrace g p).trace.wrap = decide (pl p 4 1 = 1) :=
  HalfState.traceEvent_settings ..

theorem HalfState.startTrace_cmds (x : HalfState) (g : Half) (p : ℕ) : (x.startTrace g p).cmds = x.cmds :=
  HalfState.traceAdd_cmds ..

theorem exec_traceCtlStart_of_runs (hrun : s.runs id h c 0x0009) (hhalf : tcHalf c.packet = g) (hop : tcOp c.packet = 1) :
    exec (.traceCtlStart id) s = .next ((s.modHalf g fun x => x.startTrace g c.packet).finish h c (okResult 0 0 0)) :=
  congrArg Host.Outcome.next (traceCtl_of_runs (f := HalfState.startTrace) hrun hhalf hop)

/-- A half whose trace unit has been stopped (R463). -/
def HalfState.stopTrace (x : HalfState) : HalfState := { x with trace := { x.trace with on := false } }

/-- A half whose trace buffer begins anew (R463). -/
def HalfState.resetTrace (x : HalfState) : HalfState := { x with trace := { x.trace with next := 0, wrapped := false, drops := 0 } }

/-- A half whose attribution table is empty (R463). -/
def HalfState.clearAttr (x : HalfState) : HalfState := { x with attr := [] }

theorem exec_traceCtlStop_of_runs (hrun : s.runs id h c 0x0009) (hhalf : tcHalf c.packet = g) (hop : tcOp c.packet = 2) :
    exec (.traceCtlStop id) s = .next ((s.modHalf g HalfState.stopTrace).finish h c (okResult 0 0 0)) :=
  congrArg Host.Outcome.next (traceCtl_of_runs (f := fun x _ _ => x.stopTrace) hrun hhalf hop)

theorem exec_traceCtlReset_of_runs (hrun : s.runs id h c 0x0009) (hhalf : tcHalf c.packet = g) (hop : tcOp c.packet = 3) :
    exec (.traceCtlReset id) s = .next ((s.modHalf g HalfState.resetTrace).finish h c (okResult 0 0 0)) :=
  congrArg Host.Outcome.next (traceCtl_of_runs (f := fun x _ _ => x.resetTrace) hrun hhalf hop)

theorem exec_traceCtlClearAttr_of_runs (hrun : s.runs id h c 0x0009) (hhalf : tcHalf c.packet = g) (hop : tcOp c.packet = 4) :
    exec (.traceCtlClearAttr id) s = .next ((s.modHalf g HalfState.clearAttr).finish h c (okResult 0 0 0)) :=
  congrArg Host.Outcome.next (traceCtl_of_runs (f := fun x _ _ => x.clearAttr) hrun hhalf hop)

/-- Settles O11, by the half that each command changes. -/
theorem freezeAndTraceControlComplete : Obligations.FreezeAndTraceControlComplete := by
  refine ⟨fun s id h c => ⟨fun hrun hmode => ?arm, fun hrun hmode => ?release⟩, fun s id h g c hrun hhalf => ⟨fun hop => ?start,
    fun hop => ?stop, fun hop => ?reset, fun hop => ?clear⟩⟩
  case arm =>
    have hid : c.id = id := State.cmd?_id hrun.1
    refine ⟨_, exec_freezeArmOnSource_of_runs hrun hmode, State.ended_finish ((State.cmd?_modHalf (fun _ => by rfl) id).trans hrun.1) hid, ?_,
      (State.finish_mem ..).trans (State.modHalf_mem ..), (State.finish_regs (s.armOnSource c) h c _ .q).trans (s.armOnSource_regs c .q),
      (State.finish_regs (s.armOnSource c) h c _ .k).trans (s.armOnSource_regs c .k)⟩
    rw [State.finish_sourceArm, State.armOnSource, State.modHalf_half]
  case release =>
    have hid : c.id = id := State.cmd?_id hrun.1
    have hcmd : s.releaseFrozen.cmd? id = some (h, c) := (State.cmd?_congr rfl rfl id).trans hrun.1
    exact ⟨_, exec_freezeArmRelease_of_runs hrun hmode, State.ended_finish hcmd hid, State.finish_frozen s.releaseFrozen h c _ .q,
      State.finish_frozen s.releaseFrozen h c _ .k, State.finish_mem .., State.finish_regs s.releaseFrozen h c _ .q,
      State.finish_regs s.releaseFrozen h c _ .k⟩
  case start =>
    obtain ⟨hon, hmask, hwrap⟩ := (s.half g).startTrace_settings g c.packet
    have htrace := half_of_traceCtl (s := s) (g := g) (h := h) (c := c) (f := fun x => x.startTrace g c.packet) rfl HalfState.trace
      fun _ _ => by rfl
    exact ⟨_, exec_traceCtlStart_of_runs hrun hhalf hop, ended_of_traceCtl rfl hrun.1 fun x => x.startTrace_cmds g _,
      (congrArg _ htrace).trans hon, (congrArg _ htrace).trans hmask, (congrArg _ htrace).trans hwrap,
      other_of_traceCtl (f := fun x => x.startTrace g c.packet) rfl HalfState.trace fun _ _ => by rfl, mem_of_traceCtl rfl⟩
  case stop =>
    exact ⟨_, exec_traceCtlStop_of_runs hrun hhalf hop, ended_of_traceCtl (f := HalfState.stopTrace) rfl hrun.1 fun _ => by rfl,
      half_of_traceCtl (f := HalfState.stopTrace) rfl HalfState.trace fun _ _ => by rfl,
      other_of_traceCtl (f := HalfState.stopTrace) rfl HalfState.trace fun _ _ => by rfl, mem_of_traceCtl rfl⟩
  case reset =>
    exact ⟨_, exec_traceCtlReset_of_runs hrun hhalf hop, ended_of_traceCtl (f := HalfState.resetTrace) rfl hrun.1 fun _ => by rfl,
      half_of_traceCtl (f := HalfState.resetTrace) rfl HalfState.trace fun _ _ => by rfl,
      other_of_traceCtl (f := HalfState.resetTrace) rfl HalfState.trace fun _ _ => by rfl, mem_of_traceCtl rfl⟩
  case clear =>
    exact ⟨_, exec_traceCtlClearAttr_of_runs hrun hhalf hop, ended_of_traceCtl (f := HalfState.clearAttr) rfl hrun.1 fun _ => by rfl,
      half_of_traceCtl (f := HalfState.clearAttr) rfl HalfState.attr fun _ _ => by rfl,
      half_of_traceCtl (f := HalfState.clearAttr) rfl HalfState.trace fun _ _ => by rfl,
      other_of_traceCtl (f := HalfState.clearAttr) rfl HalfState.attr fun _ _ => by rfl, mem_of_traceCtl rfl⟩

/-! ## A freeze that is missed (R469) -/

/-- A freeze that finds a set held, and may not replace it, is counted and traced (R469). -/
theorem HalfState.fireFreeze_of_held {y : HalfState} {a : FreezeArm} (hheld : y.frozen.isSome = true) (hkeep : a.replace = false) :
    y.fireFreeze h a false = if a.stopTrace then
        { (y.missFreeze h).traceEvent 6 0 a.freezeId (y.epochOffset h) with
          trace := { ((y.missFreeze h).traceEvent 6 0 a.freezeId (y.epochOffset h)).trace with on := false } }
      else (y.missFreeze h).traceEvent 6 0 a.freezeId (y.epochOffset h) := by
  unfold HalfState.fireFreeze
  dsimp only
  rw [if_pos (by simp [hheld, hkeep] : (y.frozen.isSome && !a.replace) = true)]

theorem HalfState.missFreeze_count (y : HalfState) (h : Half) :
    bits ((y.missFreeze h).cell h (hubKey bGAU 1)) 8 8 = (bits (y.cell h (hubKey bGAU 1)) 8 8 + 1) % 256 :=
  HalfState.bits_setField_same ..

theorem HalfState.traceEvent_regs (x : HalfState) (kind ctx a b : ℕ) : (x.traceEvent kind ctx a b).regs = x.regs :=
  HalfState.traceAdd_regs ..

theorem HalfState.traceEvent_frozen (x : HalfState) (kind ctx a b : ℕ) : (x.traceEvent kind ctx a b).frozen = x.frozen := by
  rw [HalfState.traceEvent_eq]

/-- A missed freeze leaves the set that is held, and counts itself (R469). -/
theorem HalfState.fireFreeze_missed {y : HalfState} {a : FreezeArm} (hheld : y.frozen.isSome = true) (hkeep : a.replace = false) :
    (y.fireFreeze h a false).frozen = y.frozen ∧ (y.fireFreeze h a false).regs = (y.missFreeze h).regs := by
  have hfrozen := (y.missFreeze h).traceEvent_frozen 6 0 a.freezeId (y.epochOffset h)
  have hregs := (y.missFreeze h).traceEvent_regs 6 0 a.freezeId (y.epochOffset h)
  rw [HalfState.fireFreeze_of_held hheld hkeep]
  split
  · exact ⟨hfrozen, hregs⟩
  · exact ⟨hfrozen, hregs⟩

/-- Settles O48, by what a freeze does that finds a set held. -/
theorem freezeWithoutReplace : Obligations.FreezeWithoutReplace := by
  intro s h a y hreset hdue hheld hkeep
  obtain ⟨hfrozen, hregs⟩ := HalfState.fireFreeze_missed (h := h) hheld hkeep
  have hhalf : (s.setHalf h (y.fireFreeze h a false)).half h = y.fireFreeze h a false := State.setHalf_half ..
  refine ⟨_, exec_freeze_of_due hreset hdue, ?frozen, ?count, ?trace, State.setHalf_other .., State.setHalf_mem ..⟩
  case frozen => rw [hhalf, hfrozen]
  case count =>
    rw [hhalf, ← y.missFreeze_count h]
    unfold HalfState.cell
    rw [hregs]
  case trace =>
    rw [hhalf, HalfState.fireFreeze_of_held hheld hkeep]
    exact apply_ite HalfState.trace ..

end Sys2Proof.Machine
end

section
/-! # Numbers as bytes, and words read out of them -/

namespace Sys2Proof.Machine

@[simp] theorem bytesOf_length (n v : ℕ) : (bytesOf n v).length = n := by
  induction n generalizing v with
  | zero => rfl
  | succ n ih => exact congrArg (· + 1) (ih _)

theorem numOf_bytesOf (n v : ℕ) : numOf (bytesOf n v) = v % 256 ^ n := by
  induction n generalizing v with
  | zero => exact (Nat.mod_one v).symm
  | succ n ih =>
    have hsplit : v % 256 ^ (n + 1) = v % 256 + 256 * (v / 256 % 256 ^ n) := by rw [Nat.pow_succ', Nat.mod_mul]
    rw [hsplit, ← ih]
    exact congrArg (· + 256 * numOf (bytesOf n (v / 256))) (Nat.mod_mod v 256)

theorem take_bytesOf {k n : ℕ} (hk : k ≤ n) (v : ℕ) : (bytesOf n v).take k = bytesOf k v := by
  induction k generalizing n v with
  | zero => rfl
  | succ k ih =>
    obtain ⟨m, rfl⟩ : ∃ m, n = m + 1 := ⟨n - 1, by omega⟩
    exact congrArg (v % 256 :: ·) (ih (by omega) _)

theorem drop_bytesOf (k n v : ℕ) : (bytesOf (k + n) v).drop k = bytesOf n (v / 256 ^ k) := by
  induction k generalizing v with
  | zero => simp
  | succ k ih =>
    rw [Nat.succ_add, Nat.pow_succ', ← Nat.div_div_eq_div_mul, ← ih]
    rfl

/-- A word of a number that stands at the beginning of a payload. -/
theorem payWord_bytesOf {off w n : ℕ} (hn : off + w ≤ n) (v : ℕ) (rest : List ℕ) :
    payWord (bytesOf n v ++ rest) off w = bits v (8 * off) (8 * w) := by
  obtain ⟨m, rfl⟩ : ∃ m, n = off + m := ⟨n - off, by omega⟩
  unfold payWord
  rw [List.drop_append_of_le_length (by rw [bytesOf_length]; omega), drop_bytesOf,
    List.take_append_of_le_length (by rw [bytesOf_length]; omega), take_bytesOf (by omega), numOf_bytesOf, bits_eq, Nat.pow_mul, Nat.pow_mul]

/-- What stands behind a head of a payload. -/
theorem payWord_append {head rest : List ℕ} {n : ℕ} (hhead : head.length = n) (off w : ℕ) :
    payWord (head ++ rest) (n + off) w = payWord rest off w := by
  subst hhead
  unfold payWord
  rw [List.drop_length_add_append]

/-- One of the words that a payload lists. -/
theorem payWord_flatMap {f : ℕ → ℕ} {w n i : ℕ} (hi : i < n) :
    payWord ((List.range n).flatMap fun j => bytesOf w (f j)) (w * i) w = f i % 2 ^ (8 * w) := by
  induction n generalizing f i with
  | zero => omega
  | succ n ih =>
    rw [List.range_succ_eq_map, List.flatMap_cons, List.flatMap_map]
    cases i with
    | zero => exact (payWord_bytesOf (by omega) _ _).trans (by simp [bits_eq])
    | succ i => rw [Nat.mul_succ, Nat.add_comm, payWord_append (bytesOf_length ..), ih (f := fun j => f (j + 1)) (by omega)]

theorem Mem.bytes_add (m : Mem) (a j n : ℕ) : m.bytes a (j + n) = m.bytes a j ++ m.bytes (a + j) n := by
  induction j generalizing a with
  | zero => simp [Mem.bytes]
  | succ j ih =>
    rw [Nat.succ_add]
    refine congrArg ((m.byte a).toNat :: ·) ((ih (a + 1)).trans ?_)
    rw [Nat.succ_add_eq_add_succ]
    rfl

/-- Blocks that are read one after the other are one range. -/
theorem Mem.flatMap_bytes (m : Mem) (a w first n : ℕ) :
    ((List.range n).flatMap fun i => m.bytes (a + w * (first + i)) w) = m.bytes (a + w * first) (w * n) := by
  induction n with
  | zero => rfl
  | succ n ih =>
    rw [List.range_succ, List.flatMap_append, ih, List.flatMap_singleton, Nat.mul_succ, Mem.bytes_add, Nat.mul_add, Nat.add_assoc]

/-! ## Fields side by side -/

theorem place_lt (v lo w : ℕ) : place v lo w < 2 ^ (lo + w) := by
  rw [place_eq, Nat.add_comm, Nat.pow_add]
  exact Nat.mul_lt_mul_of_pos_right (Nat.mod_lt _ (by positivity)) (by positivity)

section
variable {r k lo w : ℕ} (hr : r < 2 ^ k) (hk : k ≤ lo)
include hr hk

/-- Fields below a place leave room for the next one. -/
theorem add_place_lt (v w : ℕ) : r + place v lo w < 2 ^ (lo + w) := by
  have hlow : r < 2 ^ lo := hr.trans_le (Nat.pow_le_pow_right (by omega) hk)
  have hfield : (v % 2 ^ w + 1) * 2 ^ lo ≤ 2 ^ w * 2 ^ lo := Nat.mul_le_mul_right _ (Nat.mod_lt _ (by positivity))
  rw [place_eq, Nat.add_comm lo, Nat.pow_add]
  rw [Nat.add_mul, Nat.one_mul] at hfield
  omega

theorem bits_eq_zero_of_lt : bits r lo w = 0 := by
  rw [bits_eq, Nat.div_eq_of_lt (hr.trans_le (Nat.pow_le_pow_right (by omega) hk)), Nat.zero_mod]

/-- A field above others. -/
theorem bits_add_place (v : ℕ) : bits (r + place v lo w) lo w = v % 2 ^ w := by
  have hlow : r < 2 ^ lo := hr.trans_le (Nat.pow_le_pow_right (by omega) hk)
  rw [bits_eq, place_eq, Nat.add_mul_div_right _ _ (by positivity), Nat.div_eq_of_lt hlow, Nat.zero_add, Nat.mod_mod]

end

theorem bits_place (v lo w : ℕ) : bits (place v lo w) lo w = v % 2 ^ w := by
  rw [bits_eq, place_eq, Nat.mul_div_cancel _ (by positivity), Nat.mod_mod]

/-- A field does not see what stands above it. -/
theorem bits_add_place_above {lo w lo' : ℕ} (habove : lo + w ≤ lo') (r v w' : ℕ) : bits (r + place v lo' w') lo w = bits r lo w := by
  obtain ⟨d, rfl⟩ : ∃ d, lo' = w + d + lo := ⟨lo' - lo - w, by omega⟩
  rw [bits_eq, bits_eq, place_eq, Nat.pow_add, ← Nat.mul_assoc, Nat.add_mul_div_right _ _ (by positivity), Nat.pow_add,
    Nat.mul_left_comm, Nat.add_mul_mod_self_left]

end Sys2Proof.Machine
end

section
/-! # O12: reports (R440 to R444, R460, R461, R467) -/

namespace Sys2Proof.Machine

variable {s : State} {h : Half} {c : Cmd} {id : ℕ}

/-- A report ends its command with a payload, and leaves memory and the registers alone. -/
theorem State.finish_report {drawn : ℕ} {r : Result} (hcmd : s.cmd? id = some (h, c)) {t : State}
    (ht : t = ({ s with drawnFree := drawn } : State).finish h c r) :
    t.mem = s.mem ∧ t.q.regs = s.q.regs ∧ t.k.regs = s.k.regs ∧ t.ended id h r := by
  subst ht
  have hid : c.id = id := State.cmd?_id hcmd
  exact ⟨State.finish_mem .., State.finish_regs _ h c r .q, State.finish_regs _ h c r .k,
    State.ended_finish ((State.cmd?_congr rfl rfl id).trans hcmd) hid⟩

/-! ## GAUGE_READ -/

theorem exec_gaugeRead_of_no_set (hrun : s.runs id h c 0x0008) (hfrozen : ggFrozen c.packet = true)
    (hnone : (s.half (ggHalf c.packet)).frozen = none) : exec (.gaugeRead id) s = .next (s.finish h c emptyResult) :=
  congrArg Host.Outcome.next ((onCommand_runs hrun rfl).trans (if_pos (by simp [hfrozen, hnone])))

/-- The memory that a read of the trace buffer needs, and no other read. -/
def State.readDamage (s : State) (p : ℕ) : Option ℕ :=
  if ggSource p < 6 then none else s.view.damageIn (traceAt (ggHalf p) + 32 * ggFirst p) (32 * ggCount p)

theorem exec_gaugeRead_of_values (hrun : s.runs id h c 0x0008)
    (hset : ggFrozen c.packet = false ∨ (s.half (ggHalf c.packet)).frozen.isSome = true) (hwhole : s.readDamage c.packet = none) :
    exec (.gaugeRead id) s = .next (({ s with drawnFree := s.drawnFree + 2 * ggCount c.packet } : State).finish h c
      { okResult 0 0 0 with payload := some (s.gaugeHead c.packet ++ s.gaugeValues c.packet c.ctx) }) := by
  refine congrArg Host.Outcome.next ((onCommand_runs hrun rfl).trans ((if_neg ?_).trans (if_neg ?_)))
  · rcases hset with hlive | hheld
    · simp [hlive]
    · simp [Option.isSome_iff_ne_none.mp hheld]
  · unfold State.readDamage at hwhole
    rw [hwhole]
    exact Bool.false_ne_true

theorem payWord_gaugeHead_live {p : ℕ} (hlive : ggFrozen p = false) (rest : List ℕ) :
    payWord (s.gaugeHead p ++ rest) 0 8 = (s.half (ggHalf p)).count % 2 ^ 64
      ∧ payWord (s.gaugeHead p ++ rest) 8 8 = (s.half (ggHalf p)).count % 2 ^ 64
      ∧ payWord (s.gaugeHead p ++ rest) 16 8 = (s.half (ggHalf p)).epochOffset (ggHalf p) % 2 ^ 64
      ∧ payWord (s.gaugeHead p ++ rest) 24 4 = 0 := by
  unfold State.gaugeHead
  dsimp only
  rw [hlive]
  dsimp only
  generalize (s.half (ggHalf p)).count = count
  generalize (s.half (ggHalf p)).epochOffset (ggHalf p) = offset
  have hfirst := place_lt count 0 64
  have hlast := add_place_lt hfirst (Nat.le_refl _) count 64
  have hoffset := add_place_lt hlast (Nat.le_refl _) offset 64
  refine ⟨?_, ?_, ?_, ?_⟩
  · rw [payWord_bytesOf (by omega), bits_add_place_above (by omega), bits_add_place_above (by omega), bits_place]
  · rw [payWord_bytesOf (by omega), bits_add_place_above (by omega), bits_add_place hfirst (by omega)]
  · rw [payWord_bytesOf (by omega), bits_add_place hlast (by omega)]
  · rw [payWord_bytesOf (by omega), bits_eq_zero_of_lt hoffset (by omega)]

theorem payWord_gaugeHead_frozen {p : ℕ} {z : Frozen} (hfrozen : ggFrozen p = true) (hz : (s.half (ggHalf p)).frozen = some z)
    (rest : List ℕ) :
    payWord (s.gaugeHead p ++ rest) 0 8 = z.stroke % 2 ^ 64 ∧ payWord (s.gaugeHead p ++ rest) 8 8 = z.stroke % 2 ^ 64
      ∧ payWord (s.gaugeHead p ++ rest) 24 4 = z.freezeId % 2 ^ 32 := by
  unfold State.gaugeHead
  dsimp only
  rw [hfrozen, hz]
  dsimp only
  generalize z.stroke = stroke
  generalize z.offset = offset
  generalize z.freezeId = freezeId
  generalize (if z.late = true then 1 else 0) = late
  have hfirst := place_lt stroke 0 64
  have hlast := add_place_lt hfirst (Nat.le_refl _) stroke 64
  have hoffset := add_place_lt hlast (Nat.le_refl _) offset 64
  refine ⟨?_, ?_, ?_⟩
  · rw [payWord_bytesOf (by omega), bits_add_place_above (by omega), bits_add_place_above (by omega), bits_add_place_above (by omega),
      bits_add_place_above (by omega), bits_place]
  · rw [payWord_bytesOf (by omega), bits_add_place_above (by omega), bits_add_place_above (by omega), bits_add_place_above (by omega),
      bits_add_place hfirst (by omega)]
  · rw [payWord_bytesOf (by omega), bits_add_place_above (by omega), bits_add_place hoffset (by omega)]

theorem gaugeHead_length (s : State) (p : ℕ) : (s.gaugeHead p).length = 64 := bytesOf_length ..

/-- Gauge `i` of a read, of the live gauges or of a frozen set (R460). -/
theorem payWord_gauges {p i : ℕ} (hi : i < ggCount p) (htracked : untracked (ggFamily p) (ggInst p + i) = false) (mine : Option ℕ) :
    (ggSource p = 0 → payWord (s.gaugeHead p ++ s.gaugeValues p mine) (64 + 8 * i) 8
        = (s.half (ggHalf p)).gauges.at (gaugeSel (ggFamily p) (ggInst p + i) (ggSub p)) % 2 ^ 64)
      ∧ ∀ z, (s.half (ggHalf p)).frozen = some z → ggSource p = 1 → payWord (s.gaugeHead p ++ s.gaugeValues p mine) (64 + 8 * i) 8
        = z.gauges.at (gaugeSel (ggFamily p) (ggInst p + i) (ggSub p)) % 2 ^ 64 := by
  rw [payWord_append (gaugeHead_length s p)]
  refine ⟨fun hsource => ?live, fun z hz hsource => ?frozen⟩
  case live =>
    unfold State.gaugeValues
    rw [hsource]
    refine (payWord_flatMap hi).trans ?_
    rw [htracked]
    rfl
  case frozen =>
    unfold State.gaugeValues
    dsimp only
    rw [hsource, hz]
    refine (payWord_flatMap hi).trans ?_
    rw [htracked]
    rfl

/-- Entry `i` of the staleness table, for a read that no context limits (R460). -/
theorem payWord_stale {p i : ℕ} (hi : i < ggCount p) (hsource : ggSource p = 4) :
    payWord (s.gaugeHead p ++ s.gaugeValues p none) (64 + 8 * i) 8 = (s.half (ggHalf p)).stale.at (ggFirst p + i) % 2 ^ 64 := by
  rw [payWord_append (gaugeHead_length s p)]
  unfold State.gaugeValues
  rw [hsource]
  exact payWord_flatMap (f := fun i => (s.half (ggHalf p)).stale.at (ggFirst p + i)) hi

theorem gaugeValues_of_trace {p : ℕ} (hsource : ggSource p = 6) (mine : Option ℕ) :
    s.gaugeValues p mine = s.view.bytes (traceAt (ggHalf p) + 32 * ggFirst p) (32 * ggCount p) := by
  unfold State.gaugeValues
  rw [hsource]
  exact Mem.flatMap_bytes ..

theorem ggFrozen_of_trace {p : ℕ} (hsource : ggSource p = 6) : ggFrozen p = false := by
  unfold ggFrozen
  rw [hsource]
  rfl

/-! ## HANG_REPORT -/

theorem exec_hangReportGraph_of_runs (hrun : s.runs id h c 0x0006) (hmode : hrMode c.packet = 0) :
    exec (.hangReportGraph id) s = .next (({ s with drawnFree := s.drawnFree
        + (s.graphReport h (hrCtx c.packet) (hrBoth c.packet) (pl c.packet 32 32) (2 * (pkUnits c.packet - 1))).2 } : State).finish h c
      { okResult 0 0 0 with
        payload := some (s.graphReport h (hrCtx c.packet) (hrBoth c.packet) (pl c.packet 32 32) (2 * (pkUnits c.packet - 1))).1 }) :=
  congrArg Host.Outcome.next (onCommand_runs hrun (by simp [hmode]))

theorem flatMap_length_const {α : Type} {f : α → List ℕ} {n : ℕ} (hf : ∀ a, (f a).length = n) (l : List α) :
    (l.flatMap f).length = n * l.length := by
  rw [List.length_flatMap, List.map_congr_left fun a _ => hf a, List.map_const', List.sum_replicate, smul_eq_mul, mul_comm]

/-- The summary of a wait-for graph, and 32 bytes for each edge returned (R441). -/
theorem graphReport_words {ctx skip room : ℕ} {both : Bool} {es : List Edge} (hes : s.edges ctx (reportHalves h both) = es) :
    ∃ n, n ≤ room ∧ (s.graphReport h ctx both skip room).1.length = 64 + 32 * n
      ∧ payWord (s.graphReport h ctx both skip room).1 0 4 = es.length % 2 ^ 32
      ∧ payWord (s.graphReport h ctx both skip room).1 4 2 = n % 2 ^ 16
      ∧ payWord (s.graphReport h ctx both skip room).1 8 4 = orphanWaits es % 2 ^ 32
      ∧ payWord (s.graphReport h ctx both skip room).1 16 8 = s.now h % 2 ^ 64 := by
  unfold State.graphReport
  dsimp only
  rw [hes]
  generalize hout : (((orderedEdges es).1 ++ (orderedEdges es).2).drop skip).take room = out
  have hroom : out.length ≤ room := by
    rw [← hout]
    exact List.length_take_le ..
  refine ⟨out.length, hroom, ?_, ?_⟩
  · rw [List.length_append, bytesOf_length, flatMap_length_const (f := fun e : Edge × ℕ => s.edgeBytes ctx e.2 e.1) (n := 32) fun e => bytesOf_length ..]
    simp
  · generalize es.length = edges
    generalize out.length = returned
    generalize (if (orderedEdges es).1.isEmpty = true then 0 else 1) = first
    generalize hcut : (if ((reportHalves h both).any fun g => ((s.half g).ringsOf ctx).any (s.scanCut g)) = true then 1 else 0) = cut
    generalize (orderedEdges es).1.length = cycle
    generalize orphanWaits es = orphans
    generalize s.now h = now
    have hedges := place_lt edges 0 32
    have hcycle := add_place_lt (add_place_lt (add_place_lt (add_place_lt hedges (Nat.le_refl _) returned 16) (Nat.le_refl _) first 1)
      (Nat.le_refl _) cut 1) (by omega) cycle 8 (lo := 56)
    have horphans := add_place_lt hcycle (Nat.le_refl _) orphans 32
    refine ⟨?_, ?_, ?_, ?_⟩
    · rw [payWord_bytesOf (by omega), bits_add_place_above (by omega), bits_add_place_above (by omega), bits_add_place_above (by omega),
        bits_add_place_above (by omega), bits_add_place_above (by omega), bits_add_place_above (by omega), bits_place]
    · rw [payWord_bytesOf (by omega), bits_add_place_above (by omega), bits_add_place_above (by omega), bits_add_place_above (by omega),
        bits_add_place_above (by omega), bits_add_place_above (by omega), bits_add_place hedges (by omega)]
    · rw [payWord_bytesOf (by omega), bits_add_place_above (by omega), bits_add_place hcycle (by omega)]
    · rw [payWord_bytesOf (by omega), bits_add_place horphans (by omega)]

theorem exec_hangReportReadCollected_of_runs (hrun : s.runs id h c 0x0006) (hmode : hrMode c.packet = 1) :
    exec (.hangReportReadCollected id) s = .next (readRecord collectedAt s h c) := by
  change execHangReportReadCollected id s = _
  rw [execHangReportReadCollected_eq, onCommand_runs hrun (by simp [hmode])]

theorem readRecord_of_none {collected : Half → ℕ}
    (hnone : bitSet ((s.half (hrPart c.packet).other).cell (hrPart c.packet).other (hubKey bFCL 5)) 0 = false) :
    readRecord collected s h c = s.finish h c emptyResult := if_pos (by simp [hnone])

theorem readRecord_of_whole {collected : Half → ℕ} {n at0 : ℕ}
    (hheld : bitSet ((s.half (hrPart c.packet).other).cell (hrPart c.packet).other (hubKey bFCL 5)) 0 = true)
    (hat : at0 = collected (hrPart c.packet)) (hn : n = min (64 * pkUnits c.packet) (s.view.word (at0 + 24) 8 - pl c.packet 64 32))
    (hhead : s.view.damageIn at0 64 = none) (hbody : s.view.damageIn (at0 + pl c.packet 64 32) n = none) :
    readRecord collected s h c = s.finish h c { okResult n 0 0 with
      payload := some (s.view.bytes (at0 + pl c.packet 64 32) n ++ List.replicate (64 * pkUnits c.packet - n) 0) } := by
  subst hat
  unfold readRecord
  dsimp only
  rw [if_neg (by simp [hheld]), ← hn, hhead, hbody]
  rfl

/-- Settles O12, by what stands at each place of a report. -/
theorem reportsComplete : Obligations.ReportsComplete := by
  intro s id h c x hx
  subst hx
  refine ⟨fun hrun hfrozen hnone => ?none, fun hrun hsource hset => ?gauges, fun hrun hsource hdamage => ?trace,
    fun es hrun hmode hes => ?graph, fun hrun hmode hnone => ?noRecord, fun n at0 hrun hmode hheld hat hn hhead hbody => ?record⟩
  case none => exact exec_gaugeRead_of_no_set hrun hfrozen hnone
  case gauges =>
    obtain ⟨hmem, hq, hk, hended⟩ := State.finish_report (r := { okResult 0 0 0 with
      payload := some (s.gaugeHead c.packet ++ s.gaugeValues c.packet c.ctx) }) hrun.1 rfl
    refine ⟨_, _, exec_gaugeRead_of_values hrun hset (if_pos hsource), hmem, hq, hk, hended, rfl, fun hlive => payWord_gaugeHead_live hlive _,
      fun z hz hfrozen => payWord_gaugeHead_frozen hfrozen hz _, fun i hi htracked => payWord_gauges hi htracked _,
      fun i hi hctx hstale => ?_⟩
    rw [hctx]
    exact payWord_stale hi hstale
  case trace =>
    have hlive := ggFrozen_of_trace hsource
    obtain ⟨hmem, hq, hk, hended⟩ := State.finish_report (r := { okResult 0 0 0 with
      payload := some (s.gaugeHead c.packet ++ s.gaugeValues c.packet c.ctx) }) hrun.1 rfl
    refine ⟨_, _, exec_gaugeRead_of_values hrun (.inl hlive) ((if_neg (by omega)).trans hdamage), hmem, hq, hk, hended,
      (payWord_gaugeHead_live hlive _).1, ?_⟩
    rw [List.drop_left' (gaugeHead_length ..)]
    exact gaugeValues_of_trace hsource _
  case graph =>
    obtain ⟨n, hn, hlength, hwords⟩ := graphReport_words (skip := pl c.packet 32 32) (room := 2 * (pkUnits c.packet - 1)) hes
    obtain ⟨hmem, hq, hk, hended⟩ := State.finish_report (r := { okResult 0 0 0 with
        payload := some (s.graphReport h (hrCtx c.packet) (hrBoth c.packet) (pl c.packet 32 32) (2 * (pkUnits c.packet - 1))).1 }) hrun.1 rfl
    exact ⟨_, _, n, exec_hangReportGraph_of_runs hrun hmode, hmem, hq, hk, hended, hn, hlength, hwords⟩
  case noRecord => rw [exec_hangReportReadCollected_of_runs hrun hmode, readRecord_of_none hnone]
  case record =>
    obtain ⟨hmem, hq, hk, hended⟩ := State.finish_report (drawn := s.drawnFree) (r := { okResult n 0 0 with
      payload := some (s.view.bytes (at0 + pl c.packet 64 32) n ++ List.replicate (64 * pkUnits c.packet - n) 0) }) hrun.1 rfl
    refine ⟨_, ?_, hmem, hq, hk, hended⟩
    rw [exec_hangReportReadCollected_of_runs hrun hmode, readRecord_of_whole hheld hat hn hhead hbody]

end Sys2Proof.Machine
end

section
/-! # O60: the commands of the management bus and of the TAP (R508, R513) -/

namespace Sys2Proof.Machine

variable {s : State} {address : ℕ}

/-! ## The common commands (R508) -/

theorem exec_setmwl_of_called {n : ℕ} (hcalled : s.called address = true) (hn : n ≤ 4162) :
    exec (.setmwl address n) s = .next { s with maxWrite := n } := congrArg Host.Outcome.next (if_pos (by simp [hcalled, hn]))

theorem exec_setmrl_of_called {n : ℕ} (hcalled : s.called address = true) (hn : n ≤ 4162) :
    exec (.setmrl address n) s = .next { s with maxRead := n } := congrArg Host.Outcome.next (if_pos (by simp [hcalled, hn]))

theorem exec_rstact_of_called {a : ℕ} (hcalled : s.called address = true) :
    exec (.rstact address a) s = .next (if a = 0 then s.answer [] else s.nackPort) :=
  congrArg Host.Outcome.next (if_neg (by simp [hcalled]))

theorem exec_setdasa_of_free {d : ℕ} (hlives : s.portLives = true) (hfree : s.dynamicAddress = none) :
    exec (.setdasa staticAddress d) s = .next { s with dynamicAddress := some d } :=
  congrArg Host.Outcome.next (if_pos (by simp [hlives, hfree]))

theorem exec_setaasa_of_free (hlives : s.portLives = true) (hfree : s.dynamicAddress = none) :
    exec .setaasa s = .next { s with dynamicAddress := some staticAddress } :=
  congrArg Host.Outcome.next (if_pos (by simp [hlives, hfree]))

theorem exec_getstatus_of_addressed (haddressed : s.addressed address = true) : exec (.getstatus address) s
    = .next (({ s with drawnFree := s.drawnFree + 1 } : State).answer (twoBytes (Config.i3cStatus s.drawnFree).toNat)) :=
  congrArg Host.Outcome.next (if_pos haddressed)

theorem exec_getbcr_of_addressed (haddressed : s.addressed address = true) :
    exec (.getbcr address) s = .next (s.answer [Config.i3cBcr.toNat]) := congrArg Host.Outcome.next (if_pos haddressed)

theorem exec_getdcr_of_addressed (haddressed : s.addressed address = true) :
    exec (.getdcr address) s = .next (s.answer [Config.i3cDcr.toNat]) := congrArg Host.Outcome.next (if_pos haddressed)

theorem exec_getmwl_of_addressed (haddressed : s.addressed address = true) :
    exec (.getmwl address) s = .next (s.answer (twoBytes s.maxWrite)) := congrArg Host.Outcome.next (if_pos haddressed)

theorem exec_getmrl_of_addressed (haddressed : s.addressed address = true) :
    exec (.getmrl address) s = .next (s.answer (twoBytes s.maxRead)) := congrArg Host.Outcome.next (if_pos haddressed)

/-! ## The TAP (R513) -/

theorem exec_samplePreload_of_lives {v : ℕ} (hlives : s.portLives = true) : exec (.samplePreload v) s
    = .next { s.tap 2 (s.fresh 0) with boundary := v, drawnFree := s.drawnFree + 1 } := congrArg Host.Outcome.next (if_pos hlives)

/-- An instruction that drives the pins does so while MOD_RESET_N is low, and is BYPASS otherwise (R513). -/
theorem State.tapDrive_eq (hlives : s.portLives = true) (n : ℕ) :
    s.tapDrive n = if s.modReset then s.tap n (if n = 3 then s.boundary else 0) else s.tap 0 0 :=
  if_neg (by simp [hlives])

theorem State.tapDrive_of_low (hlives : s.portLives = true) (hlow : s.modReset = true) (n : ℕ) :
    s.tapDrive n = s.tap n (if n = 3 then s.boundary else 0) := (State.tapDrive_eq hlives n).trans (if_pos hlow)

theorem State.tapDrive_of_high (hlives : s.portLives = true) (hhigh : s.modReset = false) (n : ℕ) : s.tapDrive n = s.tap 0 0 :=
  (State.tapDrive_eq hlives n).trans (if_neg (by simp [hhigh]))

/-- Settles O60, command by command. -/
theorem busAndTapCommandsComplete : Obligations.BusAndTapCommandsComplete := by
  refine ⟨fun s address => ⟨fun hcalled => ?called, fun hlives hfree => ?free, fun haddressed => ?addressed⟩, fun s hlives => ?tap⟩
  case called =>
    exact ⟨congrArg Host.Outcome.next (if_pos hcalled), congrArg Host.Outcome.next (if_pos hcalled),
      congrArg Host.Outcome.next (if_pos hcalled), fun n hn => ⟨exec_setmwl_of_called hcalled hn, exec_setmrl_of_called hcalled hn⟩,
      exec_rstact_of_called hcalled, fun a ha => (exec_rstact_of_called hcalled).trans (congrArg Host.Outcome.next (if_neg ha))⟩
  case free => exact ⟨fun d => exec_setdasa_of_free hlives hfree, exec_setaasa_of_free hlives hfree⟩
  case addressed =>
    exact ⟨⟨_, _, exec_getstatus_of_addressed haddressed, rfl, rfl, rfl⟩, ⟨_, _, exec_getbcr_of_addressed haddressed, rfl, rfl, rfl⟩,
      ⟨_, _, exec_getdcr_of_addressed haddressed, rfl, rfl, rfl⟩, exec_getmwl_of_addressed haddressed, exec_getmrl_of_addressed haddressed⟩
  case tap =>
    refine ⟨congrArg Host.Outcome.next (if_pos hlives), congrArg Host.Outcome.next (if_pos hlives),
      congrArg Host.Outcome.next (if_pos hlives), fun v => ⟨_, exec_samplePreload_of_lives hlives, rfl, rfl, rfl, rfl, rfl⟩,
      fun hlow => ?low, fun hhigh i hi => ?high⟩
    case low =>
      exact ⟨congrArg Host.Outcome.next (State.tapDrive_of_low hlives hlow 3), congrArg Host.Outcome.next (State.tapDrive_of_low hlives hlow 4),
        congrArg Host.Outcome.next (State.tapDrive_of_low hlives hlow 5)⟩
    case high =>
      simp only [List.mem_cons, List.not_mem_nil, or_false] at hi
      rcases hi with rfl | rfl | rfl
      · exact congrArg Host.Outcome.next (State.tapDrive_of_high hlives hhigh 3)
      · exact congrArg Host.Outcome.next (State.tapDrive_of_high hlives hhigh 4)
      · exact congrArg Host.Outcome.next (State.tapDrive_of_high hlives hhigh 5)

end Sys2Proof.Machine
end

section
/-! # O55: power (R496 to R506) -/

namespace Sys2Proof.Machine

variable {s : State}

/-! ## What switches the module on -/

theorem exec_pwrEnRise_of_low (hlow : s.pwrEn = false) : exec .pwrEnRise s = .next ({ s with pwrEn := true } : State).powerOn :=
  congrArg Host.Outcome.next (if_neg (by simp [hlow]))

theorem exec_pwrEnHoldoffEnd_of_holdoff (hholdoff : s.holdoff = true) :
    exec .pwrEnHoldoffEnd s = .next ({ s with holdoff := false } : State).powerOn := congrArg Host.Outcome.next (if_pos hholdoff)

theorem exec_powerRestart_of_failed (hfailed : s.powerFailed = true) :
    exec .powerRestart s = .next ({ s with powerFailed := false } : State).powerOn := congrArg Host.Outcome.next (if_pos hfailed)

theorem exec_diesCooled_of_hot (hhot : s.hotDies = true) :
    exec .diesCooled s = .next ({ s with hotDies := false } : State).powerOn := congrArg Host.Outcome.next (if_pos hhot)

theorem State.powerOn_of_free (hen : s.pwrEn = true) (hholdoff : s.holdoff = false) (hfailed : s.powerFailed = false)
    (hhot : s.hotDies = false) (htrip : s.thermTrip = false) (hstarting : s.starting = false) (hoff : s.isOff = true) :
    s.powerOn = { s with starting := true } := if_pos (by simp [hen, hholdoff, hfailed, hhot, htrip, hstarting, hoff])

/-! ## What switches it off -/

/-- A state in which PWR_EN has fallen (R501). -/
def State.enFallen (s : State) : State := { s with pwrEn := false, thermTrip := false, holdoff := true }

theorem exec_pwrEnFall_of_high (hhigh : s.pwrEn = true) :
    exec .pwrEnFall s = .next (if s.starting || !s.isOff then s.enFallen.powerOff else s.enFallen) :=
  congrArg Host.Outcome.next (if_neg (by simp [hhigh]))

theorem State.failPower_of_on (hon : s.starting = true ∨ s.isOff = false) : s.failPower = ({ s with powerFailed := true } : State).powerOff :=
  if_pos (by simpa using hon)

theorem exec_pwrEnFall_of_on (hhigh : s.pwrEn = true) (hon : s.starting = true ∨ s.isOff = false) :
    exec .pwrEnFall s = .next s.enFallen.powerOff :=
  (exec_pwrEnFall_of_high hhigh).trans (congrArg Host.Outcome.next (if_pos (by simpa using hon)))

theorem exec_pwrEnFall_of_off (hhigh : s.pwrEn = true) (hstarting : s.starting = false) (hoff : s.isOff = true) :
    exec .pwrEnFall s = .next s.enFallen :=
  (exec_pwrEnFall_of_high hhigh).trans (congrArg Host.Outcome.next (if_neg (by simp [hstarting, hoff])))

theorem exec_powerFail_of_range {mv : ℕ} (hrange : mv < 52000 ∨ 64000 < mv) : exec (.powerFail mv) s = .next s.failPower :=
  congrArg Host.Outcome.next (if_pos (by simpa using hrange))

theorem exec_railFail_of_starting {rail : ℕ} (hstarting : s.starting = true) (hq : s.q.beforeRom = true) (hk : s.k.beforeRom = true)
    (hfirst : 1 ≤ rail) (hlast : rail ≤ 7) : exec (.railFail rail) s = .next { s.powerOff with railFail := rail } :=
  congrArg Host.Outcome.next (if_pos (by simp [hstarting, hq, hk, hfirst, hlast]))

theorem exec_thermalTrip_of_hot {h : Half} {c : ℕ} (hhot : 115 ≤ c) (hon : s.isOff = false) :
    exec (.thermalTrip h c) s = .next { s.powerOff with thermTrip := true, tripped := true, hotDies := true } :=
  congrArg Host.Outcome.next (if_pos (by simp [hhot, hon]))

/-- Settles O55, row by row. -/
theorem powerRowsComplete : Obligations.PowerRowsComplete := by
  intro s
  refine ⟨exec_pwrEnRise_of_low, fun t hhigh ht => ?fall, exec_pwrEnHoldoffEnd_of_holdoff, exec_powerRestart_of_failed, exec_diesCooled_of_hot,
    fun hon => ⟨fun mv hrange => ?range, ?refclk⟩, fun rail => exec_railFail_of_starting, fun h c => exec_thermalTrip_of_hot, fun t ht => ?off,
    State.powerOn_of_free⟩
  case fall =>
    subst ht
    exact ⟨exec_pwrEnFall_of_off hhigh, exec_pwrEnFall_of_on hhigh⟩
  case range => rw [exec_powerFail_of_range hrange, State.failPower_of_on hon]
  case refclk => exact congrArg Host.Outcome.next (State.failPower_of_on hon)
  case off =>
    subst ht
    exact ⟨rfl, rfl, rfl, rfl, rfl, rfl, rfl, rfl, rfl, rfl⟩

end Sys2Proof.Machine
end

section
/-! # O56: the start of a half (R336, R473, R479, R480, R486, R500, R503, R504) -/

namespace Sys2Proof.Machine

variable {s : State} {h : Half}

/-! ## Changes of registers alone -/

/-- A half that differs from another in its registers at most. -/
def HalfState.SameButRegs (x y : HalfState) : Prop := ∃ r, y = { x with regs := r }

theorem HalfState.SameButRegs.trans {x y z : HalfState} (hxy : x.SameButRegs y) (hyz : y.SameButRegs z) : x.SameButRegs z := by
  obtain ⟨r, rfl⟩ := hxy
  obtain ⟨q, rfl⟩ := hyz
  exact ⟨q, rfl⟩

theorem HalfState.SameButRegs.foldl {α : Type} {f : HalfState → α → HalfState} (hf : ∀ x a, HalfState.SameButRegs x (f x a)) (l : List α)
    (x : HalfState) : x.SameButRegs (l.foldl f x) := by
  induction l generalizing x with
  | nil => exact ⟨x.regs, rfl⟩
  | cons a l ih => exact (hf x a).trans (ih _)

theorem HalfState.sameButRegs_setStack (x : HalfState) (h : Half) (i v : ℕ) : x.SameButRegs (x.setStack h i v) := ⟨_, rfl⟩

theorem HalfState.sameButRegs_trainedStack (x : HalfState) (h : Half) (i lanes : ℕ) : x.SameButRegs (x.trainedStack h i lanes) := ⟨_, rfl⟩

theorem HalfState.sameButRegs_setStacks (x : HalfState) (h : Half) (v : ℕ) : x.SameButRegs (x.setStacks h v) :=
  HalfState.SameButRegs.foldl (fun y i => y.sameButRegs_setStack h i v) _ x

theorem HalfState.sameButRegs_setStu (x : HalfState) (h : Half) (st parent hops : ℕ) : x.SameButRegs (x.setStu h st parent hops) := ⟨_, rfl⟩

theorem HalfState.SameButRegs.boot_eq {x y : HalfState} (hxy : x.SameButRegs y) : y.boot = x.boot := by
  obtain ⟨r, rfl⟩ := hxy
  rfl

/-! ## The always-on domain and the ROM (R473, R480, R500) -/

theorem exec_alwaysOnEntry_of_off (hstarting : s.starting = true) (hoff : (s.half h).boot = .off) :
    exec (.alwaysOnEntry h) s = .next (s.modHalf h fun x => { x with boot := .alwaysOn }) :=
  congrArg Host.Outcome.next (if_pos (by simp [hstarting, hoff]))

/-- A half that has left the ROM with a setting of BOOT_SEL (R473, R480). -/
def HalfState.leaveRom (x : HalfState) (sel : ℕ) (secret : Bool) : HalfState :=
  let y : HalfState := { x with reset := none, bootSampled := true, bootSel := sel }
  if !secret then { y with boot := .identityFailed }
  else if sel = 1 || sel = 2 then y.recover
  else { y with boot := .loader }

theorem HalfState.leaveRom_kept (x : HalfState) (sel : ℕ) (secret : Bool) :
    (x.leaveRom sel secret).bootSel = sel ∧ (x.leaveRom sel secret).reset = none := by
  unfold HalfState.leaveRom
  dsimp only
  split
  · exact ⟨rfl, rfl⟩
  · split <;> exact ⟨rfl, rfl⟩

theorem HalfState.leaveRom_of_lost (x : HalfState) (sel : ℕ) : (x.leaveRom sel false).boot = .identityFailed := rfl

theorem HalfState.leaveRom_of_recovery {x : HalfState} {sel : ℕ} (hsel : sel = 1 ∨ sel = 2) : (x.leaveRom sel true).boot = .recovery :=
  congrArg HalfState.boot (if_pos (by simpa using hsel))

theorem HalfState.leaveRom_of_loader {x : HalfState} {sel : ℕ} (hsel : ¬ (sel = 1 ∨ sel = 2)) : (x.leaveRom sel true).boot = .loader :=
  congrArg HalfState.boot (if_neg (by simpa using hsel))

theorem HalfState.leaveRom_boot (x : HalfState) {sel : ℕ} (hsel : sel < 4) :
    ((x.leaveRom sel true).boot = .recovery ↔ sel = 1 ∨ sel = 2) ∧ ((x.leaveRom sel true).boot = .loader ↔ sel = 0 ∨ sel = 3) := by
  by_cases hrecovery : sel = 1 ∨ sel = 2
  · rw [HalfState.leaveRom_of_recovery hrecovery]
    exact ⟨iff_of_true rfl hrecovery, iff_of_false nofun (by omega)⟩
  · rw [HalfState.leaveRom_of_loader hrecovery]
    exact ⟨iff_of_false nofun hrecovery, iff_of_true rfl (by omega)⟩

theorem exec_romEntry_of_first {sel : ℕ} {secret : Bool} (hboot : (s.half h).boot = .alwaysOn) (hheld : s.heldReset h = false) :
    exec (.romEntry h sel secret) s
      = .next { s.setHalf h ((s.half h).leaveRom (sel % 4) secret) with pgood := true, railFail := 0 } := by
  refine congrArg Host.Outcome.next ((if_neg (by simp [hboot, hheld])).trans ?_)
  simp only [hboot, decide_true, Bool.true_or, if_true]
  rfl

theorem exec_romEntry_of_again {sel : ℕ} {secret : Bool} {r : Reset} (hboot : (s.half h).boot = .rom) (hsampled : (s.half h).bootSampled = true)
    (hreset : (s.half h).reset = some r) (hdone : r.collecting = false) (hheld : s.heldReset h = false) :
    exec (.romEntry h sel secret) s = .next (s.setHalf h ((s.half h).leaveRom (s.half h).bootSel secret)) := by
  refine congrArg Host.Outcome.next ((if_neg (by simp [hboot, hsampled, hreset, hdone, hheld])).trans ?_)
  have hfirst : ((s.half h).boot = .alwaysOn || !(s.half h).bootSampled) = false := by simp [hboot, hsampled]
  rw [hfirst]
  rfl

theorem State.half_setHalf_pgood (s : State) (h g : Half) (x : HalfState) :
    ({ s.setHalf h x with pgood := true, railFail := 0 } : State).half g = (s.setHalf h x).half g := by
  cases g with
  | q => rfl
  | k => rfl

/-! ## The loader and the firmware (R479, R486, R503) -/

theorem exec_loaderBoot_of_loader (hboot : (s.half h).boot = .loader) (hreset : (s.half h).resetting = false) :
    exec (.loaderBoot h) s = .next (s.setHalf h (if ((s.half h).runLoader h).2 then { ((s.half h).runLoader h).1 with boot := .firmware }
      else ((s.half h).runLoader h).1.recover)) := congrArg Host.Outcome.next (if_neg (by simp [hboot, hreset]))

/-- A half in which the firmware has started, and trains (R503). -/
def HalfState.startTraining (x : HalfState) (h : Half) : HalfState :=
  let y := { x.measure with boot := .training, step := 1, heartbeatOn := true }.setStacks h 1
  if y.stuState h = 0 && !y.wasReady then y.setStu h 1 0xF 0xFF else y

theorem HalfState.sameButRegs_startTraining (x : HalfState) (h : Half) :
    ({ x.measure with boot := .training, step := 1, heartbeatOn := true } : HalfState).SameButRegs (x.startTraining h) := by
  have hstacks := HalfState.sameButRegs_setStacks { x.measure with boot := .training, step := 1, heartbeatOn := true } h 1
  unfold HalfState.startTraining
  dsimp only
  split
  · exact hstacks.trans (HalfState.sameButRegs_setStu ..)
  · exact hstacks

theorem HalfState.startTraining_boot (x : HalfState) (h : Half) :
    (x.startTraining h).boot = .training ∧ (x.startTraining h).step = 1 ∧ (x.startTraining h).heartbeatOn = true := by
  obtain ⟨r, hr⟩ := x.sameButRegs_startTraining h
  rw [hr]
  exact ⟨rfl, rfl, rfl⟩

theorem exec_firmwareStart_of_firmware (hboot : (s.half h).boot = .firmware) (hreset : (s.half h).resetting = false) :
    exec (.firmwareStart h) s = .next (((s.loadSettings h).modHalf h fun x => x.startTraining h).refreshParent h) :=
  congrArg Host.Outcome.next (if_neg (by simp [hboot, hreset]))

/-! ## Training (R336, R504) -/

theorem exec_trainingStepTimeout_of_siphon (hrunning : (s.half h).running = true) (hboot : (s.half h).boot = .training) (hsiphon : s.siphon = 1) :
    exec (.trainingStepTimeout h 5) s = .next { s with siphon := 0 } :=
  congrArg Host.Outcome.next ((if_neg (by simp [hrunning])).trans ((if_pos (by omega)).trans (if_pos (by simp [hsiphon, hboot]))))

theorem exec_trainingStepTimeout_of_port {p : ℕ} (hrunning : (s.half h).running = true) (hport : hasPort h p = true)
    (htraining : (s.half h).portState h p = 1) :
    exec (.trainingStepTimeout h p) s = .next ((s.modHalf h fun y => y.stopPort h p 0 1 false).refreshParent h) := by
  have hp : ¬ 4 < p := by
    simp only [hasPort, Bool.or_eq_true, Bool.and_eq_true, decide_eq_true_eq] at hport
    omega
  exact congrArg Host.Outcome.next ((if_neg (by simp [hrunning])).trans ((if_neg hp).trans (if_pos (by simp [hport, htraining]))))

/-- A half whose training has failed at stack `n`, or at no stack (R336). -/
def HalfState.failTraining (x : HalfState) (h : Half) (n m : ℕ) (lanes : ℕ → ℕ) : HalfState :=
  (List.range 12).foldl
    (fun y i => if i = n then y.setStack h i 4 else if n = 12 || bitSet m i then y.trainedStack h i (lanes (2 + i)) else y.setStack h i 1)
    { x with boot := .trainingFailed, step := 0 }

theorem HalfState.failTraining_boot (x : HalfState) (h : Half) (n m : ℕ) (lanes : ℕ → ℕ) :
    (x.failTraining h n m lanes).boot = .trainingFailed := by
  refine HalfState.SameButRegs.boot_eq (HalfState.SameButRegs.foldl (fun y i => ?_) _ _)
  split
  · exact HalfState.sameButRegs_setStack ..
  · split
    · exact HalfState.sameButRegs_trainedStack ..
    · exact HalfState.sameButRegs_setStack ..

theorem exec_trainingFailed_of_training (hboot : (s.half h).boot = .training) (hreset : (s.half h).resetting = false) :
    exec (.trainingFailed h) s = .next (({ s with drawnFree := s.drawnFree + 14 } : State).modHalf h fun x =>
      x.failTraining h (s.fresh 0 % 13) (s.fresh 1) s.fresh) := congrArg Host.Outcome.next (if_neg (by simp [hboot, hreset]))

theorem State.half_drawn (s : State) (n : ℕ) (g : Half) : ({ s with drawnFree := n } : State).half g = s.half g := by
  cases g with
  | q => rfl
  | k => rfl

section
variable (hboot : (s.half h).boot = .training) (hreset : (s.half h).resetting = false) (hsettled : s.linksSettled h = true)
include hboot hreset hsettled

theorem exec_halfReady_of_trained (hstate : (s.half h).stuState h = 2 ∨ (s.half h).stuState h = 4) :
    exec (.halfReady h) s = .next (s.becomeReady h) :=
  congrArg Host.Outcome.next (if_pos (by simpa [hboot, hreset, hsettled] using hstate))

theorem exec_strokeParentTimeout_of_alone (hports : ∀ p, p < 4 → (s.half h).portState h p ≠ 2) (hparent : (s.half h).parentLink h ≠ some 8)
    (hstate : (s.half h).stuState h ≠ 4) :
    exec (.strokeParentTimeout h) s = .next ((s.modHalf h fun y => y.setStu h 0 0xF 0xFF).becomeReady h) := by
  have h0 := hports 0 (by omega)
  have h1 := hports 1 (by omega)
  have h2 := hports 2 (by omega)
  have h3 := hports 3 (by omega)
  exact congrArg Host.Outcome.next (if_pos (by simp [hboot, hreset, hsettled, hparent, hstate, h0, h1, h2, h3]))

end

/-- Settles O56, row by row. -/
theorem startUpRowsComplete : Obligations.StartUpRowsComplete := by
  intro s h
  refine ⟨exec_alwaysOnEntry_of_off, fun sel hboot hheld => ?first, fun sel hboot hheld => ?lost,
    fun sel r b hboot hsampled hreset hdone hheld => ?again, fun hboot hreset => ⟨fun hloaded => ?loaded, fun hrefused => ?refused⟩,
    fun hboot hreset => ?firmware, fun hrunning => ⟨exec_trainingStepTimeout_of_siphon hrunning,
      fun p => exec_trainingStepTimeout_of_port hrunning⟩, fun hboot hreset => ?failed,
    fun hboot hreset hsettled => ⟨exec_halfReady_of_trained hboot hreset hsettled, exec_strokeParentTimeout_of_alone hboot hreset hsettled⟩⟩
  case first =>
    have hhalf : ({ s.setHalf h ((s.half h).leaveRom (sel % 4) true) with pgood := true, railFail := 0 } : State).half h
        = (s.half h).leaveRom (sel % 4) true := (State.half_setHalf_pgood ..).trans (State.setHalf_half ..)
    obtain ⟨hsel, hreset⟩ := (s.half h).leaveRom_kept (sel % 4) true
    obtain ⟨hrecovery, hloader⟩ := (s.half h).leaveRom_boot (Nat.mod_lt sel (by omega : 0 < 4))
    refine ⟨_, exec_romEntry_of_first hboot hheld, rfl, rfl, ?_, ?_, (State.half_setHalf_pgood ..).trans (State.setHalf_other ..),
      State.setHalf_mem .., ?_, ?_⟩
    · rw [hhalf, hsel]
    · rw [hhalf, hreset]
    · rw [hhalf, hrecovery]
    · rw [hhalf, hloader]
  case lost =>
    refine ⟨_, exec_romEntry_of_first hboot hheld, ?_⟩
    rw [State.half_setHalf_pgood, State.setHalf_half]
    exact HalfState.leaveRom_of_lost ..
  case again =>
    obtain ⟨hsel, hnone⟩ := (s.half h).leaveRom_kept (s.half h).bootSel b
    refine ⟨_, exec_romEntry_of_again hboot hsampled hreset hdone hheld, ?_, ?_, ?_, State.setHalf_other .., State.setHalf_mem ..⟩
    · rw [State.setHalf_half, hsel]
    · rw [State.setHalf_half, hnone]
    · exact State.setHalf_pgood ..
  case loaded => rw [exec_loaderBoot_of_loader hboot hreset, hloaded, if_pos rfl]
  case refused => rw [exec_loaderBoot_of_loader hboot hreset, hrefused, if_neg Bool.false_ne_true]
  case firmware =>
    refine ⟨_, exec_firmwareStart_of_firmware hboot hreset, ?_⟩
    rw [State.modHalf_half]
    exact HalfState.startTraining_boot ..
  case failed =>
    refine ⟨_, exec_trainingFailed_of_training hboot hreset, ?_, (State.modHalf_other ..).trans (State.half_drawn ..), State.modHalf_mem ..⟩
    rw [State.modHalf_half]
    exact HalfState.failTraining_boot ..

end Sys2Proof.Machine
end

section
/-! # O57: firmware (R475 to R484) -/

namespace Sys2Proof.Machine

variable {s : State} {g h : Half} {c : Cmd} {id : ℕ}

/-! ## FW_STAGE (R475 to R478) -/

theorem exec_fwStageHeader_of_runs (hrun : s.runs id h c 0x0B01) (hop : fsOp c.packet = 1) : exec (.fwStageHeader id) s
    = .next (({ s with staging := some { header := fsHeader c.packet } } : State).finish h c (okResult (ihVersion (fsHeader c.packet)) 0 0)) :=
  congrArg Host.Outcome.next (onCommand_runs hrun (by simp [hop]))

theorem exec_fwStageBody_of_staged {st : Staging} (hrun : s.runs id h c 0x0B01) (hop : fsOp c.packet = 0) (hstaged : s.staging = some st) :
    exec (.fwStageBody id) s = .next (({ s with
      staging := some { st with body := st.body ++ bytesOf (fsBytes c.packet) (c.packet >>> 1024) } } : State).finish h c
        (okResult 0 0 0)) := by
  refine congrArg Host.Outcome.next ((onCommand_runs hrun (by simp [hop])).trans ?_)
  dsimp only
  rw [hstaged]
  rfl

theorem exec_fwStageAbort_of_runs (hrun : s.runs id h c 0x0B01) (hop : fsOp c.packet = 3) :
    exec (.fwStageAbort id) s = .next (({ s with staging := none } : State).finish h c (okResult 0 0 0)) :=
  congrArg Host.Outcome.next (onCommand_runs hrun (by simp [hop]))

/-- A state in which both flash devices are changed, and a write is under way or over (R477). -/
def State.withFlash (u : State) (f : Flash → Flash) (writing : Option ℕ) : State :=
  { u with q := { u.q with flash := f u.q.flash }, k := { u.k with flash := f u.k.flash }, writing := writing }

/-- The first step of a write: both devices are being written, and the image crosses the Siphon (R477). -/
def State.beginWrite (s : State) (h : Half) (c : Cmd) (st : Staging) : State :=
  ((s.withFlash (fun f => { f with imageState := .writing }) (some c.id)).crossFor (some (attrKey c.packet)) .q .command
    (320 + ihBytes st.header)).setCmd h { c with cursor := 1, idle := 0, idleOther := 0 }

/-- The last step: both devices hold the image (R477). -/
def State.endWrite (s : State) (h : Half) (c : Cmd) (st : Staging) : State :=
  (s.withFlash (fun f => f.program st) none).finish h c (okResult (ihVersion st.header) (ihBytes st.header) 0)

theorem exec_fwStageWrite_of_staged {st : Staging} (hrun : s.runs id h c 0x0B01) (hop : fsOp c.packet = 2) (hstaged : s.staging = some st)
    (hready : s.bothReady = true) :
    exec (.fwStageWrite id) s = .next (if c.cursor = 0 then s.beginWrite h c st else s.endWrite h c st) := by
  refine congrArg Host.Outcome.next ((onCommand_runs hrun (by simp [hop])).trans ?_)
  have hnot : ¬ (!s.bothReady) = true := by simp [hready]
  rw [hstaged]
  exact if_neg hnot

theorem HalfState.crossing_flash (x : HalfState) (k : SiphonClass) (n : ℕ) : (x.crossing k n).flash = x.flash := by
  unfold HalfState.crossing
  split <;> rfl

theorem State.crossFor_flash (s : State) (key : Option ℕ) (h : Half) (k : SiphonClass) (n : ℕ) (g : Half) :
    ((s.crossFor key h k n).half g).flash = (s.half g).flash := by
  unfold State.crossFor State.cross
  split <;> split
  · exact State.half_modHalf_keeps (π := HalfState.flash) (fun x => x.crossing_flash ..) s h g
  · rfl
  · exact State.half_modHalf_keeps (π := HalfState.flash) (fun x => by simp [HalfState.crossing_flash]) s h g
  · rfl

theorem State.crossFor_writing (s : State) (key : Option ℕ) (h : Half) (k : SiphonClass) (n : ℕ) :
    (s.crossFor key h k n).writing = s.writing := by
  unfold State.crossFor State.cross
  split <;> split
  · exact State.modHalf_writing ..
  · rfl
  · exact State.modHalf_writing ..
  · rfl

theorem State.beginWrite_flash (s : State) (h : Half) (c : Cmd) (st : Staging) (g : Half) :
    ((s.beginWrite h c st).half g).flash = { (s.half g).flash with imageState := .writing } := by
  unfold State.beginWrite
  rw [State.setCmd_keeps (π := HalfState.flash) (fun _ _ => by rfl), State.crossFor_flash]
  cases g with
  | q => rfl
  | k => rfl

theorem State.beginWrite_writing (s : State) (h : Half) (c : Cmd) (st : Staging) : (s.beginWrite h c st).writing = some c.id := by
  unfold State.beginWrite
  rw [State.setCmd_writing, State.crossFor_writing]
  rfl

theorem State.beginWrite_mem (s : State) (h : Half) (c : Cmd) (st : Staging) : (s.beginWrite h c st).mem = s.mem := by
  unfold State.beginWrite
  rw [State.setCmd_mem, State.crossFor_mem]
  rfl

theorem State.cmd?_beginWrite (hcmd : s.cmd? id = some (h, c)) (st : Staging) :
    (s.beginWrite h c st).cmd? id = some (h, { c with cursor := 1, idle := 0, idleOther := 0 }) := by
  have hid : c.id = id := State.cmd?_id hcmd
  exact State.cmd?_setCmd ((State.cmd?_crossFor ..).trans ((State.cmd?_congr rfl rfl id).trans hcmd)) hid

theorem State.endWrite_flash (s : State) (h : Half) (c : Cmd) (st : Staging) (g : Half) :
    ((s.endWrite h c st).half g).flash = (s.half g).flash.program st := by
  unfold State.endWrite
  rw [State.finish_keeps (π := HalfState.flash) (fun _ _ => by rfl)]
  cases g with
  | q => rfl
  | k => rfl

theorem State.ended_endWrite (hcmd : s.cmd? id = some (h, c)) (st : Staging) :
    (s.endWrite h c st).ended id h (okResult (ihVersion st.header) (ihBytes st.header) 0) :=
  State.ended_finish ((State.cmd?_congr rfl rfl id).trans hcmd) (State.cmd?_id hcmd)

/-! ## An activation (R479, R482 to R484) -/

theorem exec_firmwareActivation_of_due {e : Sched} {cmd : ℕ} (hreset : (s.half g).resetting = false) (hnone : (s.half g).activating = none)
    (hfreeze : (s.half g).freezeDue = false) (hroute : (s.half g).routeDue = false) (hcommit : (s.half g).commitDue = false)
    (hdue : (s.half g).dueActivation = some (e, cmd)) :
    exec (.firmwareActivation g) s = .next (s.beginActivation g e cmd (s.replaced g)) := by
  refine congrArg Host.Outcome.next ((if_neg (by simp [hreset])).trans ?_)
  rw [hnone]
  refine (if_neg (by simp [hfreeze, hroute, hcommit])).trans ?_
  rw [hdue]

theorem exec_firmwareActivation_of_running {a : Activation} (hreset : (s.half g).resetting = false) (hactive : (s.half g).activating = some a)
    (hrunning : (s.half g).running = true) : exec (.firmwareActivation g) s = .next (s.restartFirmware g a) := by
  refine congrArg Host.Outcome.next ((if_neg (by simp [hreset])).trans ?_)
  rw [hactive]
  exact if_pos hrunning

theorem State.restartFirmware_of_accepted {a : Activation} {t u : State} (haccepted : ((s.half g).runLoader g).2 = true)
    (ht : t = (((s.setHalf g ((s.half g).runLoader g).1).loadSettings g).modHalf g fun y =>
      { y.measure with flash := { y.flash with bootFails := 0 }, activation := some { a with restarted := true } }))
    (hu : u = match a.ctx with | some i => t.resumeContext g i | none => t) :
    s.restartFirmware g a = u.endActivation a.cmd a.previous := by
  subst hu
  subst ht
  exact if_neg (by simp [haccepted])

theorem State.restartFirmware_of_refused {a : Activation} (hrefused : ((s.half g).runLoader g).2 = false) :
    s.restartFirmware g a = s.setHalf g { ((s.half g).runLoader g).1 with boot := .recovery, recovBytes := 0, recovResult := 0 } :=
  if_pos (by simp [hrefused])

theorem exec_activationHeartbeatCheck_of_due {a : Activation} (hactive : (s.half g).activation = some a)
    (hdue : a.fired + 100000000 ≤ s.now g) (signalled : Bool) :
    exec (.activationHeartbeatCheck g signalled) s = .next (if signalled && a.restarted && (s.half g).running then
        s.modHalf g fun x => { x with activation := none, heartbeatOn := true }
      else (s.modHalf g fun x => { x with activation := none, heartbeatOn := true }).occur g 0x001 none) := by
  refine congrArg Host.Outcome.next ?_
  rw [hactive]
  exact if_neg (by omega)

/-- Settles O57, by the steps of each command and each activation. -/
theorem firmwareRowsComplete : Obligations.FirmwareRowsComplete := by
  intro s id h c
  refine ⟨fun hrun => ⟨exec_fwStageHeader_of_runs hrun, fun st hop hstaged => exec_fwStageBody_of_staged hrun hop hstaged,
      fun st hop hstaged hready hcursor => ?first, fun st hop hstaged hready hcursor => ?last, exec_fwStageAbort_of_runs hrun⟩,
    fun g e cmd => exec_firmwareActivation_of_due, fun g a hreset hactive hrunning => ⟨fun haccepted t u ht hu => ?accepted, fun hrefused => ?refused⟩,
    fun g a t hactive hdue ht => ?check⟩
  case first =>
    refine ⟨_, (exec_fwStageWrite_of_staged hrun hop hstaged hready).trans (congrArg Host.Outcome.next (if_pos hcursor)),
      s.beginWrite_flash h c st .q, s.beginWrite_flash h c st .k, ?_, State.cmd?_beginWrite hrun.1 st, s.beginWrite_mem h c st⟩
    rw [State.beginWrite_writing, State.cmd?_id hrun.1]
  case last =>
    exact ⟨_, (exec_fwStageWrite_of_staged hrun hop hstaged hready).trans (congrArg Host.Outcome.next (if_neg hcursor)),
      s.endWrite_flash h c st .q, s.endWrite_flash h c st .k, State.finish_writing .., State.ended_endWrite hrun.1 st, State.finish_mem ..⟩
  case accepted => rw [exec_firmwareActivation_of_running hreset hactive hrunning, State.restartFirmware_of_accepted haccepted ht hu]
  case refused => rw [exec_firmwareActivation_of_running hreset hactive hrunning, State.restartFirmware_of_refused hrefused]
  case check =>
    subst ht
    refine ⟨fun hrestarted hrunning => ?_, fun hnot => ?_, ?_⟩
    · rw [exec_activationHeartbeatCheck_of_due hactive hdue, if_pos (by simp [hrestarted, hrunning])]
    · rw [exec_activationHeartbeatCheck_of_due hactive hdue, if_neg (by simpa [imp_iff_not_or] using hnot)]
    · rw [exec_activationHeartbeatCheck_of_due hactive hdue, if_neg (by simp)]

end Sys2Proof.Machine
end

section
/-! # O58: settings and attestation (R488, R489, R491) -/

namespace Sys2Proof.Machine

variable {s : State} {h : Half} {c : Cmd} {id : ℕ}

/-! ## SETTINGS_WRITE (R488) -/

theorem settingsWrite_of_runs {op : ℕ} {f : State → Half → Cmd → State} (hrun : s.runs id h c 0x0B03) (hop : swOp c.packet = op) :
    settingsWrite s id op f = f s h c := onCommand_runs hrun (by simp [hop])

theorem exec_settingsWriteBegin_of_runs (hrun : s.runs id h c 0x0B03) (hop : swOp c.packet = 1) : exec (.settingsWriteBegin id) s
    = .next (({ s with settingsStaging := some (swBytes c.packet, []) } : State).finish h c (okResult 0 0 0)) :=
  congrArg Host.Outcome.next (settingsWrite_of_runs hrun hop)

theorem exec_settingsWriteData_of_staged {g : ℕ × List ℕ} (hrun : s.runs id h c 0x0B03) (hop : swOp c.packet = 2)
    (hstaged : s.settingsStaging = some g) : exec (.settingsWriteData id) s = .next (({ s with
      settingsStaging := some (g.1, (g.2 ++ bytesOf (swData c.packet) (c.packet >>> 1024)).take g.1) } : State).finish h c
        (okResult 0 0 0)) := by
  refine congrArg Host.Outcome.next ((settingsWrite_of_runs hrun hop).trans ?_)
  rw [hstaged]
  rfl

theorem exec_settingsWriteAbort_of_runs (hrun : s.runs id h c 0x0B03) (hop : swOp c.packet = 0) :
    exec (.settingsWriteAbort id) s = .next (({ s with settingsStaging := none } : State).finish h c (okResult 0 0 0)) :=
  congrArg Host.Outcome.next (settingsWrite_of_runs hrun hop)

/-- The WRITE_SEQ of a new record: one more than the highest of both devices (R488). -/
def State.newSeq (s : State) : ℕ := (max s.q.flash.highSeq s.k.flash.highSeq + 1) % 2 ^ 32

/-- The TRIAL record of a body (R488). -/
def State.trialRecord (s : State) (body : List ℕ) : Settings :=
  { revision := s.q.flash.revision, writeSeq := s.newSeq
    secFloor := match s.q.settings with | some r => r.secFloor | none => 0
    entries := bodyEntries body }

/-- The slot that a new record takes: the one that is not in force (R488). -/
def State.trialSlot (s : State) : ℕ := match s.q.slotInForce with | some n => 1 - n | none => 0

theorem exec_settingsWriteEnd_of_staged {g : ℕ × List ℕ} (hrun : s.runs id h c 0x0B03) (hop : swOp c.packet = 3)
    (hstaged : s.settingsStaging = some g) (hsiphon : s.siphonUp = true) : exec (.settingsWriteEnd id) s
      = .next ((s.writeSlot s.trialSlot (s.trialRecord g.2)).finish h c (okResult s.newSeq 0 0)) := by
  have hup : ¬ (!s.siphonUp) = true := by simp [hsiphon]
  refine congrArg Host.Outcome.next ((settingsWrite_of_runs hrun hop).trans ?_)
  rw [hstaged]
  exact if_neg hup

theorem State.trialSlot_of_inForce {j : ℕ} (hslot : s.q.slotInForce = some j) : s.trialSlot = 1 - j := by
  unfold State.trialSlot
  rw [hslot]

/-! ## SETTINGS_CONFIRM (R489) -/

/-- A record that is confirmed (R489). -/
def State.confirmedRecord (s : State) (c : Cmd) (r : Settings) : Settings :=
  { r with confirmed := true, secFloor := if scRaise c.packet then s.q.measures.secEpoch else r.secFloor }

/-- A half that keeps the confirmed record of slot `i` alone (R489). -/
def HalfState.keepConfirmed (x : HalfState) (g : Half) (i seq : ℕ) (n : Settings) : HalfState :=
  let same : Bool := match x.settings with | some m => m.writeSeq = seq | none => false
  { x with
    flash := { x.flash.setSlot (1 - i) none with bootFails := 0 }
    settings := if same then some { n with signedBy := some g } else x.settings }

/-- A state in which the record of slot `i` is confirmed in both devices (R489). -/
def State.confirmSlot (s : State) (c : Cmd) (i : ℕ) (r : Settings) : State :=
  ((s.writeSlot i (s.confirmedRecord c r)).modHalf .q fun x => x.keepConfirmed .q i r.writeSeq (s.confirmedRecord c r)).modHalf .k
    fun x => x.keepConfirmed .k i r.writeSeq (s.confirmedRecord c r)

theorem exec_settingsConfirm_of_inForce {r : Settings} {i : ℕ} (hrun : s.runs id h c 0x0B04) (hsettings : s.q.settings = some r)
    (hslot : s.q.slotInForce = some i) (hsiphon : s.siphonUp = true) :
    exec (.settingsConfirm id) s = .next ((s.confirmSlot c i r).finish h c (okResult 0 0 0)) := by
  have hup : ¬ (!s.siphonUp) = true := by simp [hsiphon]
  refine congrArg Host.Outcome.next ((onCommand_runs hrun rfl).trans ?_)
  rw [hsettings, hslot]
  exact if_neg hup

theorem State.confirmSlot_flash (s : State) (c : Cmd) (i : ℕ) (r : Settings) (g : Half) : ((s.confirmSlot c i r).half g).flash
    = { ((s.half g).flash.setSlot i (some { s.confirmedRecord c r with signedBy := some g })).setSlot (1 - i) none with bootFails := 0 } := by
  cases g with
  | q => rfl
  | k => rfl

theorem State.cmd?_confirmSlot (s : State) (c : Cmd) (i : ℕ) (r : Settings) (id : ℕ) : (s.confirmSlot c i r).cmd? id = s.cmd? id :=
  State.cmd?_congr rfl rfl id

/-! ## ATTEST (R491) -/

theorem attest_of_runs {mode : ℕ} {f : Half → Measures → ℕ → ℕ} (hrun : s.runs id h c 0x0B05) (hmode : atMode c.packet = mode) :
    attest s id mode f = s.finish h c { okResult 0 0 0 with payload := some (bytesOf 128 (f h (s.half h).measures c.packet)) } :=
  onCommand_runs hrun (by simp [hmode])

/-- Settles O58, command by command. -/
theorem settingsAndAttestationComplete : Obligations.SettingsAndAttestationComplete := by
  intro s id h c
  refine ⟨fun hrun => ⟨exec_settingsWriteBegin_of_runs hrun, fun g => exec_settingsWriteData_of_staged hrun,
      exec_settingsWriteAbort_of_runs hrun, fun g hop hstaged hsiphon => ?write⟩,
    fun r i hrun hsettings hslot hsiphon => ?confirm,
    fun hrun => ⟨fun hmode => ?measure, fun hmode => ?sign, fun hmode => ?identity⟩⟩
  case write =>
    exact ⟨s.trialSlot, s.newSeq, s.trialRecord g.2, exec_settingsWriteEnd_of_staged hrun hop hstaged hsiphon, rfl, rfl, rfl, rfl,
      fun j hslot => State.trialSlot_of_inForce hslot⟩
  case confirm =>
    have hid : c.id = id := State.cmd?_id hrun.1
    refine ⟨_, s.confirmedRecord c r, exec_settingsConfirm_of_inForce hrun hsettings hslot hsiphon,
      State.ended_finish ((State.cmd?_confirmSlot ..).trans hrun.1) hid, rfl, rfl, rfl, State.finish_mem .., fun g => ?_⟩
    rw [State.finish_keeps (π := HalfState.flash) (fun _ _ => by rfl), State.confirmSlot_flash]
  case measure => exact congrArg Host.Outcome.next (attest_of_runs (f := fun _ m _ => m.record) hrun hmode)
  case sign =>
    exact congrArg Host.Outcome.next (attest_of_runs (f := fun h m p =>
      place (Config.sign h.part "ID" (attestMessage (atNonce p) m.record h.part)) 0 912 + place m.actCount 912 32) hrun hmode)
  case identity =>
    exact congrArg Host.Outcome.next (attest_of_runs (f := fun h _ _ => place (Config.idPublicKey h.part) 0 456) hrun hmode)

end Sys2Proof.Machine
end

section
/-! # O59: the management port and recovery (R480, R481, R508 to R512) -/

namespace Sys2Proof.Machine

variable {s : State} {h : Half} {address : ℕ}

theorem partOf_part (h : Half) : partOf h.part = some h := by
  cases h with
  | q => rfl
  | k => rfl

/-! ## What the port answers (R508 to R512) -/

theorem exec_mgmtStatus_of_addressed (haddressed : s.addressed address = true) : exec (.mgmtStatus address) s
    = .next { s.answer (bytesOf 32 s.statusRecord) with tripped := false, drawnFree := s.drawnFree + 1 } :=
  congrArg Host.Outcome.next (if_pos haddressed)

/-- What keeps a half from taking a packet (R509). -/
def HalfState.refusesPacket (x : HalfState) (maxWrite : ℕ) (bs : List ℕ) : Bool :=
  bs.length < 64 || bs.length ≠ 64 * (1 + pkUnits (numOf (bs.take 64))) || maxWrite < 2 + bs.length || !x.takesPackets
    || x.mgmtHeld.isSome || x.mgmtOutstanding.isSome

theorem exec_mgmtPacket_of_addressed (haddressed : s.addressed address = true) (bs : List ℕ) :
    exec (.mgmtPacket address (h.part :: bs)) s = .next (if (s.half h).refusesPacket s.maxWrite bs then s.nackPort
      else ((s.answer []).modHalf h fun y => { y with mgmtHeld := some bs }).enqueuePacket h) := by
  have hmine : ¬ (!s.addressed address) = true := by simp [haddressed]
  refine congrArg Host.Outcome.next ((if_neg hmine).trans ?_)
  dsimp only
  rw [partOf_part h] <;> rfl

theorem HalfState.refusesPacket_of_taken {x : HalfState} {maxWrite : ℕ} {bs : List ℕ} (hlength : 64 ≤ bs.length)
    (hunits : bs.length = 64 * (1 + pkUnits (numOf (bs.take 64)))) (hmax : 2 + bs.length ≤ maxWrite) (htakes : x.takesPackets = true)
    (hheld : x.mgmtHeld = none) (houtstanding : x.mgmtOutstanding = none) : x.refusesPacket maxWrite bs = false := by
  simp [HalfState.refusesPacket, hlength, ← hunits, hmax, htakes, hheld, houtstanding]

theorem HalfState.refusesPacket_of_busy {x : HalfState} (maxWrite : ℕ) (bs : List ℕ)
    (hbusy : x.mgmtHeld.isSome = true ∨ x.mgmtOutstanding.isSome = true ∨ x.takesPackets = false) :
    x.refusesPacket maxWrite bs = true := by
  unfold HalfState.refusesPacket
  rcases hbusy with hheld | houtstanding | htakes
  · simp [hheld]
  · simp [houtstanding]
  · simp [htakes]

theorem exec_mgmtReply_of_last {bs : List ℕ} (haddressed : s.addressed address = true) (hlast : (s.half h).mgmtLast = some bs)
    (htakes : (s.half h).takesPackets = true) : exec (.mgmtReply address h.part) s = .next (s.answer bs) := by
  have hmine : ¬ (!s.addressed address) = true := by simp [haddressed]
  refine congrArg Host.Outcome.next ((if_neg hmine).trans ?_)
  rw [partOf_part h]
  dsimp only
  rw [hlast]
  exact if_pos htakes

theorem exec_mgmtRecovery_of_taken {bs : List ℕ} {offset : ℕ} {y : HalfState} (haddressed : s.addressed address = true)
    (hsome : bs ≠ []) (hlength : bs.length ≤ 4096) (hmax : 6 + bs.length ≤ s.maxWrite) (htakes : (s.half h).takesImage offset = true)
    (htaken : (s.half h).takeImage h bs = some y) :
    exec (.mgmtRecovery address h.part offset bs) s = .next { (s.answer []).setHalf h y with recovHalf := h } := by
  have hmine : ¬ (!s.addressed address) = true := by simp [haddressed]
  have hfits : ¬ (bs.isEmpty || 4096 < bs.length || s.maxWrite < 6 + bs.length || !(s.half h).takesImage offset) = true := by
    simp [hsome, hlength, hmax, htakes]
  refine congrArg Host.Outcome.next ((if_neg hmine).trans ?_)
  rw [partOf_part h]
  refine (if_neg hfits).trans ?_
  rw [htaken]

/-! ## Recovery images (R480, R481) -/

/-- The flash device after a whole image has been written: a loader or a firmware (R480). -/
def Flash.written (f : Flash) (st : Staging) : Flash :=
  { (if st.loader then { f with loader := some (st.header, st.body) } else f.program st) with bootFails := 0 }

theorem exec_recoveryImageWritten_of_whole {st : Staging} (himage : (s.half h).recovery = some st) (hboot : (s.half h).boot = .recovery)
    (hreset : (s.half h).resetting = false) (hresult : (s.half h).recovResult = 2) :
    exec (.recoveryImageWritten h) s = .next (s.setHalf h { s.half h with
      boot := .loader, recovery := none, recovResult := 3, flash := (s.half h).flash.written st }) := by
  refine congrArg Host.Outcome.next (congrArg (s.setHalf h) ?_)
  dsimp only
  rw [himage]
  exact if_neg (by simp [hboot, hreset, hresult])

theorem exec_spurRecoveryStream_of_head {f : Frame} {y : HalfState} (htype : f.type = 7) (hkind : bits f.arg 0 17 = 0xFFFF)
    (hsel : s.q.bootSel ≠ 2) (hintact : Frame.intact f = true) (htakes : s.q.takesImage (256 * f.addr) = true)
    (hfirst : s.q.recovery = none) (hshort : f.data.length < 320) (htaken : s.q.takeImage .q f.data = some y) :
    exec (.spurRecoveryStream f) s = .next (s.modHalf .q fun _ => y) := by
  refine congrArg Host.Outcome.next (congrArg (s.setHalf .q) ?_)
  refine (if_neg (by simp [htype, hkind, hsel, hintact, htakes])).trans ?_
  have hbytes : ¬ 320 ≤ ([] ++ f.data).length := by simpa using hshort
  have hnone : (s.half .q).recovery = none := hfirst
  change (s.q.takeImage .q _).getD s.q = y
  rw [hnone]
  dsimp only
  rw [if_neg hbytes, htaken]
  rfl

/-- Settles O59, by what the port takes and what it does not. -/
theorem managementPortCompletes : Obligations.ManagementPortCompletes := by
  intro s h address
  refine ⟨fun haddressed => ⟨?status, fun bs hlength hunits hmax htakes hheld houtstanding => ?packet, fun bs hbusy => ?busy,
      fun bs => exec_mgmtReply_of_last haddressed, fun bs offset y => exec_mgmtRecovery_of_taken haddressed⟩,
    fun htakes => ?enqueue, fun st himage hboot hreset hresult => ?written, fun f y => exec_spurRecoveryStream_of_head⟩
  case status => exact ⟨_, exec_mgmtStatus_of_addressed haddressed, rfl, rfl, rfl, rfl, rfl, rfl⟩
  case packet =>
    rw [exec_mgmtPacket_of_addressed haddressed, HalfState.refusesPacket_of_taken hlength hunits hmax htakes hheld houtstanding,
      if_neg Bool.false_ne_true]
  case busy => rw [exec_mgmtPacket_of_addressed haddressed, HalfState.refusesPacket_of_busy _ _ hbusy, if_pos rfl]
  case enqueue => exact congrArg Host.Outcome.next (if_pos htakes)
  case written =>
    refine ⟨_, exec_recoveryImageWritten_of_whole himage hboot hreset hresult, ?_, ?_, ?_, ?_, State.setHalf_other .., State.setHalf_mem ..⟩
    all_goals rw [State.setHalf_half]
    rfl

end Sys2Proof.Machine
end
